-- ==== Sys2Proof/Word.lean ====
section
/-!
DEFINITION. The word types of Jenper (R1, R5, R10, R51, R154) and the two values that the pseudocode names (R27).
-/

namespace Sys2Proof

/-- A byte. -/
abbrev Byte := BitVec 8
/-- A 32-bit word, the width of a register and of an instruction word (R10, R51). -/
abbrev Word := BitVec 32
/-- A 64-bit value: a register pair (R13) or the ac counter (R12). -/
abbrev DWord := BitVec 64
/-- A virtual byte address, 57 bits (R10, R234). -/
abbrev VAddr := BitVec 57
/-- A lane mask of a team: bit `l` is lane `l`; mask word `g` is lanes 32g to 32g+31 (R154). -/
abbrev Mask := BitVec 1024
/-- A 7-bit register field (R51, R12). -/
abbrev RegF := BitVec 7

/-- The value of a dead or hazarded read (R25, R27). -/
def poison : Word := 0x7FA5A5A5#32
/-- The only NaN an operation produces (R27). -/
def canonNan : Word := 0x7FC00000#32

end Sys2Proof
end

