-- ==== Sys2Proof/Syntax.lean ====
section
/-!
DEFINITION. The instructions and steps of the machine: one constructor for each row of spec/opcode_table.json.
A constructor holds every field that the row's entry uses. Fields and bits that the spec calls ignored (R55, R58)
are dropped by the decoder. Rows that no word encodes are steps of the machine: they have no fields, as in the table, and the team, block, grid, unit or packet that
such a step concerns is named by the machine's selection (State.sel).
-/

namespace Sys2Proof

/-- The part of a word common to every instruction: the S marker and the operand hints (R51, R54). -/
structure Hd where
  sw : Bool
  hnt : BitVec 3
deriving DecidableEq, Repr

/-- A 64-byte host command packet, byte 0 in the low bits (R388). -/
abbrev Packet := BitVec 512

/-- One constructor per row of the opcode table. -/
inductive Instr where
  /-- IADD (R101). Each active lane writes D := (A + B) modulo 2^32. -/
  | iadd (h : Hd) (d : RegF) (a : RegF) (b : RegF)
  /-- ISUB (R101). Each active lane writes D := (A - B) modulo 2^32. -/
  | isub (h : Hd) (d : RegF) (a : RegF) (b : RegF)
  /-- IMUL (R101). Each active lane writes the low 32 bits of A x B. -/
  | imul (h : Hd) (d : RegF) (a : RegF) (b : RegF)
  /-- IMULH (R101). Each active lane writes the high word of the signed 64-bit product. -/
  | imulh (h : Hd) (d : RegF) (a : RegF) (b : RegF)
  /-- IMULHU (R101). Each active lane writes the high word of the unsigned 64-bit product. -/
  | imulhu (h : Hd) (d : RegF) (a : RegF) (b : RegF)
  /-- IMIN (R101). Each active lane writes the signed minimum of A and B. -/
  | imin (h : Hd) (d : RegF) (a : RegF) (b : RegF)
  /-- IMAX (R101). Each active lane writes the signed maximum of A and B. -/
  | imax (h : Hd) (d : RegF) (a : RegF) (b : RegF)
  /-- AND (R101). Each active lane writes A AND B. -/
  | andR (h : Hd) (d : RegF) (a : RegF) (b : RegF)
  /-- OR (R101). Each active lane writes A OR B. -/
  | orR (h : Hd) (d : RegF) (a : RegF) (b : RegF)
  /-- XOR (R101). Each active lane writes A XOR B. -/
  | xorR (h : Hd) (d : RegF) (a : RegF) (b : RegF)
  /-- SHL (R102). Each active lane shifts A left by the whole of B. -/
  | shl (h : Hd) (d : RegF) (a : RegF) (b : RegF)
  /-- SHR (R102). Each active lane shifts A right by B, shifting in zeros. -/
  | shr (h : Hd) (d : RegF) (a : RegF) (b : RegF)
  /-- SHRA (R102). Each active lane shifts A right by B, shifting in copies of the sign bit. -/
  | shra (h : Hd) (d : RegF) (a : RegF) (b : RegF)
  /-- ILT (R101). Each active lane writes 1 if A < B as signed integers, else 0. -/
  | ilt (h : Hd) (d : RegF) (a : RegF) (b : RegF)
  /-- ILTU (R101). Each active lane writes 1 if A < B as unsigned integers, else 0. -/
  | iltu (h : Hd) (d : RegF) (a : RegF) (b : RegF)
  /-- IEQ (R101). Each active lane writes 1 if A equals B bit for bit, else 0. -/
  | ieq (h : Hd) (d : RegF) (a : RegF) (b : RegF)
  /-- FADD (R132). Each active lane adds elements and rounds by RM. -/
  | fadd (h : Hd) (d : RegF) (a : RegF) (b : RegF)
  /-- FSUB (R132). Each active lane subtracts elements and rounds by RM. -/
  | fsub (h : Hd) (d : RegF) (a : RegF) (b : RegF)
  /-- FMUL (R132). Each active lane multiplies elements and rounds by RM. -/
  | fmul (h : Hd) (d : RegF) (a : RegF) (b : RegF)
  /-- FFMA (R132). Each active lane computes A x B + D, fused and rounded once. -/
  | ffma (h : Hd) (d : RegF) (a : RegF) (b : RegF)
  /-- FMIN (R134). Each active lane writes the lesser element, with -0 below +0 and NaN giving CANON_NAN. -/
  | fmin (h : Hd) (d : RegF) (a : RegF) (b : RegF)
  /-- FMAX (R134). Each active lane writes the greater element, with -0 below +0 and NaN giving CANON_NAN. -/
  | fmax (h : Hd) (d : RegF) (a : RegF) (b : RegF)
  /-- FLT (R135). Each active lane writes 1 per element where A < B. -/
  | flt (h : Hd) (d : RegF) (a : RegF) (b : RegF)
  /-- FLE (R135). Each active lane writes 1 per element where A <= B. -/
  | fle (h : Hd) (d : RegF) (a : RegF) (b : RegF)
  /-- FEQ (R135). Each active lane writes 1 per element where A = B. -/
  | feq (h : Hd) (d : RegF) (a : RegF) (b : RegF)
  /-- SEL (R105). Each active lane writes A if the old D is non-zero, else B. -/
  | sel (h : Hd) (d : RegF) (a : RegF) (b : RegF)
  /-- XUN_MOV (R104). Each active lane copies A into D. -/
  | xunMov (h : Hd) (d : RegF) (a : RegF)
  /-- XUN_NOT (R104). Each active lane writes NOT A. -/
  | xunNot (h : Hd) (d : RegF) (a : RegF)
  /-- XUN_NEG (R104). Each active lane writes 0 - A modulo 2^32. -/
  | xunNeg (h : Hd) (d : RegF) (a : RegF)
  /-- XUN_ABS (R104). Each active lane writes the absolute value of A. -/
  | xunAbs (h : Hd) (d : RegF) (a : RegF)
  /-- XUN_CLZ (R104). Each active lane writes the count of leading zero bits of A. -/
  | xunClz (h : Hd) (d : RegF) (a : RegF)
  /-- XUN_POPC (R104). Each active lane writes the count of one bits of A. -/
  | xunPopc (h : Hd) (d : RegF) (a : RegF)
  /-- XUN_BREV (R104). Each active lane writes A bit-reversed. -/
  | xunBrev (h : Hd) (d : RegF) (a : RegF)
  /-- XUN_SXB (R104). Each active lane sign-extends the low byte of A. -/
  | xunSxb (h : Hd) (d : RegF) (a : RegF)
  /-- XUN_SXH (R104). Each active lane sign-extends the low half of A. -/
  | xunSxh (h : Hd) (d : RegF) (a : RegF)
  /-- XUN_ZXB (R104). Each active lane zero-extends the low byte of A. -/
  | xunZxb (h : Hd) (d : RegF) (a : RegF)
  /-- XUN_ZXH (R104). Each active lane zero-extends the low half of A. -/
  | xunZxh (h : Hd) (d : RegF) (a : RegF)
  /-- FUN_FNEG (R136). Each element of A has its sign inverted. -/
  | funFneg (h : Hd) (d : RegF) (a : RegF)
  /-- FUN_FABS (R136). Each element of A has its sign cleared. -/
  | funFabs (h : Hd) (d : RegF) (a : RegF)
  /-- FUN_FRNE (R137). Each element is rounded to an integral value, ties to even. -/
  | funFrne (h : Hd) (d : RegF) (a : RegF)
  /-- FUN_FFLR (R137). Each element is rounded to an integral value towards -inf. -/
  | funFflr (h : Hd) (d : RegF) (a : RegF)
  /-- FUN_FCEL (R137). Each element is rounded to an integral value towards +inf. -/
  | funFcel (h : Hd) (d : RegF) (a : RegF)
  /-- FUN_FTRC (R137). Each element is rounded to an integral value towards zero. -/
  | funFtrc (h : Hd) (d : RegF) (a : RegF)
  /-- FUN_ITOF (R138). Each signed integer is converted to the element format by RM. -/
  | funItof (h : Hd) (d : RegF) (a : RegF)
  /-- FUN_UTOF (R138). Each unsigned integer is converted to the element format by RM. -/
  | funUtof (h : Hd) (d : RegF) (a : RegF)
  /-- FUN_FTOI (R138). Each element is truncated to a saturating signed integer. -/
  | funFtoi (h : Hd) (d : RegF) (a : RegF)
  /-- FUN_FTOU (R138). Each element is truncated to a saturating unsigned integer. -/
  | funFtou (h : Hd) (d : RegF) (a : RegF)
  /-- FUN_FCLS (R139). Each element is replaced by its one-hot class mask. -/
  | funFcls (h : Hd) (d : RegF) (a : RegF)
  /-- SFU_RCP (R141). Queues a correctly rounded FP32 reciprocal of A. -/
  | sfuRcp (h : Hd) (d : RegF) (a : RegF)
  /-- SFU_RSQ (R141). Queues a correctly rounded FP32 reciprocal square root of A. -/
  | sfuRsq (h : Hd) (d : RegF) (a : RegF)
  /-- SFU_SQRT (R141). Queues a correctly rounded FP32 square root of A. -/
  | sfuSqrt (h : Hd) (d : RegF) (a : RegF)
  /-- SFU_EXP2 (R141). Queues a correctly rounded FP32 2^A. -/
  | sfuExp2 (h : Hd) (d : RegF) (a : RegF)
  /-- SFU_LOG2 (R141). Queues a correctly rounded FP32 log2 A. -/
  | sfuLog2 (h : Hd) (d : RegF) (a : RegF)
  /-- SFU_SINP (R141). Queues a correctly rounded FP32 sin(pi A). -/
  | sfuSinp (h : Hd) (d : RegF) (a : RegF)
  /-- SFU_COSP (R141). Queues a correctly rounded FP32 cos(pi A). -/
  | sfuCosp (h : Hd) (d : RegF) (a : RegF)
  /-- SFU_TANH (R141). Queues a correctly rounded FP32 tanh A. -/
  | sfuTanh (h : Hd) (d : RegF) (a : RegF)
  /-- SFU_SIGM (R141). Queues a correctly rounded FP32 sigmoid of A. -/
  | sfuSigm (h : Hd) (d : RegF) (a : RegF)
  /-- SFU_EXP (R141). Queues a correctly rounded FP32 e^A. -/
  | sfuExp (h : Hd) (d : RegF) (a : RegF)
  /-- SFU_LOG (R141). Queues a correctly rounded FP32 ln A. -/
  | sfuLog (h : Hd) (d : RegF) (a : RegF)
  /-- CVN_PKH (R145). Packs an FP32 pair into two FP16 values by RM and SAT. -/
  | cvnPkh (h : Hd) (d : RegF) (a : RegF)
  /-- CVN_PKB (R145). Packs an FP32 pair into two BF16 values by RM and SAT. -/
  | cvnPkb (h : Hd) (d : RegF) (a : RegF)
  /-- CVN_PK6 (R146). Packs an FP32 quad into four NF codes, optionally scaled by D. -/
  | cvnPk6 (h : Hd) (d : RegF) (a : RegF)
  /-- CVN_UNPH (R145). Unpacks two FP16 elements into an FP32 pair. -/
  | cvnUnph (h : Hd) (d : RegF) (a : RegF)
  /-- CVN_UNPB (R145). Unpacks two BF16 elements into an FP32 pair. -/
  | cvnUnpb (h : Hd) (d : RegF) (a : RegF)
  /-- CVN_UNP6 (R146). Unpacks four NF codes into an FP32 quad. -/
  | cvnUnp6 (h : Hd) (d : RegF) (a : RegF)
  /-- CVN_BSCL (R147). Computes one E8M0 block scale per partition tile. -/
  | cvnBscl (h : Hd) (d : RegF) (a : RegF)
  /-- OSMS (R150). Folds a score into the running online-softmax maximum and sum. -/
  | osms (h : Hd) (d : RegF) (a : RegF)
  /-- OSMN (R151). Writes the normalised probability EXP2(x - m) / s. -/
  | osmn (h : Hd) (d : RegF) (a : RegF) (b : RegF)
  /-- BRX (R121). Jumps to the 64-bit target in a scalar pair. -/
  | brx (h : Hd) (a : RegF)
  /-- BRX_CALL (R121). Pushes PC + 4 on the call stack and jumps to the target in a scalar pair. -/
  | brxCall (h : Hd) (a : RegF)
  /-- SYNC (R119). Pops the reconvergence stack and continues on the popped path. -/
  | sync (h : Hd)
  /-- RET (R120). Pops the call stack into the PC. -/
  | ret (h : Hd)
  /-- EXIT (R122). Parks the team until earlier results land and its stores and atomics are accepted. -/
  | exit (h : Hd)
  /-- NOP (R123). Does nothing. -/
  | nop (h : Hd)
  /-- VOTE_ANY (R186). Each member receives 1 if any member votes true. -/
  | voteAny (h : Hd) (d : RegF) (a : RegF)
  /-- VOTE_ALL (R186). Each member receives 1 if every member votes true. -/
  | voteAll (h : Hd) (d : RegF) (a : RegF)
  /-- VOTE_BALLOT (R186). Each member receives the ballot word of its tile or team. -/
  | voteBallot (h : Hd) (d : RegF) (a : RegF)
  /-- VOTE_CNT (R186). Each member receives the number of members that vote true. -/
  | voteCnt (h : Hd) (d : RegF) (a : RegF)
  /-- VOTE_UNI (R186). Each member receives 1 if all members hold the same A. -/
  | voteUni (h : Hd) (d : RegF) (a : RegF)
  /-- VOTE_FIRST (R186). Each member receives the A of the lowest member. -/
  | voteFirst (h : Hd) (d : RegF) (a : RegF)
  /-- SHFL (R187). Each member receives A of the tile lane that B indexes. -/
  | shfl (h : Hd) (d : RegF) (a : RegF) (b : RegF)
  /-- SHFX (R187). Each member receives A of the tile lane at its position XOR B. -/
  | shfx (h : Hd) (d : RegF) (a : RegF) (b : RegF)
  /-- SCAN_ADD (R188). Inclusive or exclusive wrapping integer prefix sum over the tile. -/
  | scanAdd (h : Hd) (d : RegF) (a : RegF) (e : Bool)
  /-- SCAN_FADD (R188). Prefix FP32 sum over the tile, exact and rounded once. -/
  | scanFadd (h : Hd) (d : RegF) (a : RegF) (e : Bool)
  /-- SCAN_MIN (R188). Prefix signed minimum over the tile. -/
  | scanMin (h : Hd) (d : RegF) (a : RegF) (e : Bool)
  /-- SCAN_MAX (R188). Prefix signed maximum over the tile. -/
  | scanMax (h : Hd) (d : RegF) (a : RegF) (e : Bool)
  /-- SCAN_AND (R188). Prefix bitwise AND over the tile. -/
  | scanAnd (h : Hd) (d : RegF) (a : RegF) (e : Bool)
  /-- SCAN_OR (R188). Prefix bitwise OR over the tile. -/
  | scanOr (h : Hd) (d : RegF) (a : RegF) (e : Bool)
  /-- SCAN_XOR (R188). Prefix bitwise XOR over the tile. -/
  | scanXor (h : Hd) (d : RegF) (a : RegF) (e : Bool)
  /-- RED_ADD (R189). Wrapping integer sum of the tile or team. -/
  | redAdd (h : Hd) (d : RegF) (a : RegF)
  /-- RED_FADD (R189). FP32 sum of the tile or team, exact and rounded once. -/
  | redFadd (h : Hd) (d : RegF) (a : RegF)
  /-- RED_MIN (R189). Signed minimum of the tile or team. -/
  | redMin (h : Hd) (d : RegF) (a : RegF)
  /-- RED_MAX (R189). Signed maximum of the tile or team. -/
  | redMax (h : Hd) (d : RegF) (a : RegF)
  /-- RED_MAXI (R192). Highest-ranked FP32 value and its position into a pair. -/
  | redMaxi (h : Hd) (d : RegF) (a : RegF)
  /-- RED_MINI (R192). Lowest-ranked FP32 value, or the first NaN, and its position into a pair. -/
  | redMini (h : Hd) (d : RegF) (a : RegF)
  /-- RED_AND (R189). Bitwise AND of the tile or team. -/
  | redAnd (h : Hd) (d : RegF) (a : RegF)
  /-- RED_OR (R189). Bitwise OR of the tile or team. -/
  | redOr (h : Hd) (d : RegF) (a : RegF)
  /-- RED_XOR (R189). Bitwise XOR of the tile or team. -/
  | redXor (h : Hd) (d : RegF) (a : RegF)
  /-- TOPK (R194). Ranks each tile and writes the top k values and positions to the first k positions. -/
  | topk (h : Hd) (d : RegF) (a : RegF) (b : RegF)
  /-- REGRP (R217). Orders the team's lanes into runs by key and adds to the routing counters. -/
  | regrp (h : Hd) (d : RegF) (a : RegF) (b : RegF)
  /-- DROP (R218). Retires members whose A is non-zero and compacts the live lanes. -/
  | drop (h : Hd) (a : RegF)
  /-- FENCE_SC (R260). Sequentially consistent fence at a scope, parking the team until complete. -/
  | fenceSc (h : Hd) (c : BitVec 3)
  /-- FENCE_ACQ (R260). Acquire fence at a scope, parking the team until complete. -/
  | fenceAcq (h : Hd) (c : BitVec 3)
  /-- FENCE_REL (R260). Release fence at a scope, parking the team until complete. -/
  | fenceRel (h : Hd) (c : BitVec 3)
  /-- FENCE_AR (R260). Acquire-release fence at a scope, parking the team until complete. -/
  | fenceAr (h : Hd) (c : BitVec 3)
  /-- TXB (R240). Translates a virtual base once and loads a translation register. -/
  | txb (h : Hd) (d : RegF) (a : RegF) (b : RegF)
  /-- EXPECT (R261). Waits for the team's vault writes, then clears presence bits over a range. -/
  | expect (h : Hd) (a : RegF) (b : RegF)
  /-- SPILL_SPILL (R263). Writes a vector register of every live lane into a compressed spill slot. -/
  | spillSpill (h : Hd) (d : RegF) (a : RegF)
  /-- SPILL_FILL (R263). Restores a vector register of every live lane from a spill slot. -/
  | spillFill (h : Hd) (d : RegF) (a : RegF)
  /-- BAR_ARRIVE (R266). Counts an arrival on a block barrier word, flipping its phase when complete. -/
  | barArrive (h : Hd) (d : RegF) (a : RegF)
  /-- BAR_WAIT (R266). Parks until the barrier phase the team arrived in has completed. -/
  | barWait (h : Hd) (a : RegF)
  /-- BAR_SYNC (R266). Arrives at a barrier word and then waits for its phase. -/
  | barSync (h : Hd) (d : RegF) (a : RegF)
  /-- WBAR (R267). Drains the team and parks it at a wide barrier of the grid. -/
  | wbar (h : Hd) (a : RegF)
  /-- BATON_TAKE (R318). Takes the trowel if free, else parks with BATON. -/
  | batonTake (h : Hd)
  /-- BATON_GIVE (R318). Gives up the trowel to the earliest parked taker or to no holder. -/
  | batonGive (h : Hd)
  /-- BATON_PASS (R318). Hands the trowel to the team of a named role. -/
  | batonPass (h : Hd) (a : RegF)
  /-- MFENCE (R327). Closes the open matrix batch and returns its number. -/
  | mfence (h : Hd) (d : RegF)
  /-- MWAIT (R328). Parks until a named closed batch completes. -/
  | mwait (h : Hd) (a : RegF)
  /-- MDRAIN_VF32 (R330). Issues a member that drains a slot to the vault as FP32 or INT32. -/
  | mdrainVf32 (h : Hd) (d : RegF) (a : RegF) (z : Bool) (k : BitVec 2)
  /-- MDRAIN_VBF16 (R330). Issues a member that drains a slot to the vault rounded to BF16. -/
  | mdrainVbf16 (h : Hd) (d : RegF) (a : RegF) (z : Bool) (k : BitVec 2)
  /-- MDRAIN_REG (R331). Issues a member that drains slot elements into registers of the active lanes. -/
  | mdrainReg (h : Hd) (d : RegF) (a : RegF) (c : BitVec 3) (k : BitVec 2)
  /-- MDRAIN_PORT (R332). Issues a member that sends a slot to a collective's port. -/
  | mdrainPort (h : Hd) (d : RegF) (a : RegF) (z : Bool) (k : BitVec 2)
  /-- QOP_PUSH (R312). Pushes an entry per lane onto a cellar queue, blocking or not. -/
  | qopPush (h : Hd) (d : RegF) (a : RegF) (n : Bool)
  /-- QOP_POP (R312). Pops an entry per lane from a cellar queue, blocking or not. -/
  | qopPop (h : Hd) (d : RegF) (a : RegF) (n : Bool)
  /-- QOP_COUNT (R311). Returns the number of entries in a cellar queue. -/
  | qopCount (h : Hd) (d : RegF) (a : RegF) (n : Bool)
  /-- TPIO_LDK (R334). Issues a member that loads a transport slot's log2-kernel from the vault. -/
  | tpioLdk (h : Hd) (d : RegF) (a : RegF) (k : BitVec 2)
  /-- TPIO_LDA (R334). Issues a member that loads the row marginals. -/
  | tpioLda (h : Hd) (a : RegF) (k : BitVec 2)
  /-- TPIO_LDB (R334). Issues a member that loads the column marginals. -/
  | tpioLdb (h : Hd) (a : RegF) (k : BitVec 2)
  /-- TPIO_STP (R336). Issues a member that stores the transport plan as FP32 or BF16. -/
  | tpioStp (h : Hd) (d : RegF) (a : RegF) (f : Bool) (k : BitVec 2)
  /-- TPIO_STF (R334). Issues a member that stores the F and G scalings. -/
  | tpioStf (h : Hd) (a : RegF) (k : BitVec 2)
  /-- TPIO_COST (R336). Issues a member that computes the plan's cost into D. -/
  | tpioCost (h : Hd) (d : RegF) (a : RegF) (k : BitVec 2)
  /-- TPIO_SIZE (R335). Puts a slot in transport mode with a shape and clears its state. -/
  | tpioSize (h : Hd) (a : RegF) (k : BitVec 2)
  /-- JOB (R302). Submits a job card to the tile copy engine and returns its job number. -/
  | job (h : Hd) (d : RegF) (a : RegF) (b : RegF)
  /-- TASK (R306). Pushes a task entry onto a task queue. -/
  | task (h : Hd) (d : RegF) (a : RegF) (b : RegF)
  /-- CWAIT_TICKET (R401). Parks until a collective is started, local or freed. -/
  | cwaitTicket (h : Hd) (a : RegF)
  /-- CWAIT_LOCAL (R401). Parks until a collective is locally complete or freed. -/
  | cwaitLocal (h : Hd) (a : RegF)
  /-- CWAIT_GLOBAL (R401). Parks until a collective's entry is freed. -/
  | cwaitGlobal (h : Hd) (a : RegF)
  /-- RSNAP (R416). Snapshots and clears the core's routing counters into the vault. -/
  | rsnap (h : Hd) (d : RegF) (a : RegF)
  /-- TRAP (R350). Raises SWTRAP with a code. -/
  | trap (h : Hd) (c : BitVec 7)
  /-- RETT (R351). Leaves handler mode and re-executes or resumes the interrupted instruction. -/
  | rett (h : Hd)
  /-- RETT_SKIP (R351). Leaves handler mode and resumes at TNEXT. -/
  | rettSkip (h : Hd)
  /-- SYS_RD (R349). Reads a system register into a scalar. -/
  | sysRd (h : Hd) (d : RegF) (i : BitVec 6)
  /-- SYS_WR (R349). Writes a system register that has no behaviour of its own. -/
  | sysWr (h : Hd) (a : RegF) (i : BitVec 6)
  /-- MARK (R374). Emits a MARK trace packet with a tag and value. -/
  | mark (h : Hd) (a : RegF) (c : BitVec 7)
  /-- BRK (R374). Raises BRKPT with a code. -/
  | brk (h : Hd) (c : BitVec 7)
  /-- PTN_T32 (R181). Sets the partition tile to 32 lanes. -/
  | ptnT32 (h : Hd)
  /-- PTN_T16 (R181). Sets the partition tile to 16 lanes. -/
  | ptnT16 (h : Hd)
  /-- PTN_T8 (R181). Sets the partition tile to 8 lanes. -/
  | ptnT8 (h : Hd)
  /-- PTN_T4 (R181). Sets the partition tile to 4 lanes. -/
  | ptnT4 (h : Hd)
  /-- PTN_T2 (R181). Sets the partition tile to 2 lanes. -/
  | ptnT2 (h : Hd)
  /-- PTN_WHOLE (R181). Sets the partition tile to the whole team. -/
  | ptnWhole (h : Hd)
  /-- MCTL_LOAD (R112). Checks and loads control words from the vault into the control store. -/
  | mctlLoad (h : Hd) (d : RegF) (a : RegF)
  /-- MCTL_CLEAR (R112). Makes a control-store entry invalid. -/
  | mctlClear (h : Hd) (a : RegF)
  /-- MCTL_QUERY (R112). Returns the descriptor of a control-store entry. -/
  | mctlQuery (h : Hd) (d : RegF) (a : RegF)
  /-- MOVI (R103). Writes the literal into D. -/
  | movi (h : Hd) (d : RegF) (l : Word)
  /-- IADDI (R103). Writes A + L modulo 2^32. -/
  | iaddi (h : Hd) (d : RegF) (a : RegF) (l : Word)
  /-- MULI (R103). Writes the low 32 bits of A x L. -/
  | muli (h : Hd) (d : RegF) (a : RegF) (l : Word)
  /-- ANDI (R103). Writes A AND L. -/
  | andi (h : Hd) (d : RegF) (a : RegF) (l : Word)
  /-- ORI (R103). Writes A OR L. -/
  | ori (h : Hd) (d : RegF) (a : RegF) (l : Word)
  /-- XORI (R103). Writes A XOR L. -/
  | xori (h : Hd) (d : RegF) (a : RegF) (l : Word)
  /-- SETFMT (R106). Replaces the format register with the literal. -/
  | setfmt (h : Hd) (l : Word)
  /-- SETFMT_REG (R106). Replaces the format register with a scalar's value. -/
  | setfmtReg (h : Hd) (a : RegF)
  /-- WBASE (R108). Moves the register window base to the literal. -/
  | wbase (h : Hd) (l : Word)
  /-- WBASE_REG (R108). Moves the register window base to a scalar's value. -/
  | wbaseReg (h : Hd) (a : RegF)
  /-- MCALL (R113). Expands a control-store entry in place with substituted registers. -/
  | mcall (h : Hd) (d : RegF) (a : RegF) (b : RegF) (l : Word)
  /-- BRA (R116). Branches unconditionally. -/
  | bra (h : Hd) (l : Word)
  /-- BRA_NZ (R116). Branches when a scalar is non-zero. -/
  | braNz (h : Hd) (a : RegF) (l : Word)
  /-- BRA_Z (R116). Branches when a scalar is zero. -/
  | braZ (h : Hd) (a : RegF) (l : Word)
  /-- BRD (R117). Divergent branch for lanes whose A is non-zero, pushing a PENDING entry on a split. -/
  | brd (h : Hd) (a : RegF) (l : Word)
  /-- BRD_Z (R117). Divergent branch for lanes whose A is zero, pushing a PENDING entry on a split. -/
  | brdZ (h : Hd) (a : RegF) (l : Word)
  /-- SSY (R118). Pushes a RECONV entry for the reconvergence point. -/
  | ssy (h : Hd) (l : Word)
  /-- CALL (R120). Pushes the return address and branches. -/
  | call (h : Hd) (l : Word)
  /-- GROUP (R206). Merges members with equal keys through the Vat, combining columns per the descriptor. -/
  | group (h : Hd) (d : RegF) (a : RegF) (n4 : BitVec 4) (l : Word)
  /-- JOIN (R211). Spawns one thread per key match against a sorted vault relation. -/
  | join (h : Hd) (d : RegF) (a : RegF) (n4 : BitVec 4) (l : Word)
  /-- SPAWN (R212). Spawns one thread per member into the target's bin. -/
  | spawn (h : Hd) (d : RegF) (a : RegF) (n3 : BitVec 3) (l : Word)
  /-- LDG (R127). Loads from global memory into D per active lane. -/
  | ldg (h : Hd) (d : RegF) (a : RegF) (b : RegF) (l : Word)
  /-- STG (R127). Stores D to global memory per active lane. -/
  | stg (h : Hd) (d : RegF) (a : RegF) (b : RegF) (l : Word)
  /-- LDV (R130). Loads from the own or a bond member's vault region. -/
  | ldv (h : Hd) (d : RegF) (a : RegF) (b : RegF) (l : Word)
  /-- STV (R130). Stores to the own or a bond member's vault region. -/
  | stv (h : Hd) (d : RegF) (a : RegF) (b : RegF) (l : Word)
  /-- ATOM_ADD (R247). Atomic wrapping add on a word. -/
  | atomAdd (h : Hd) (d : RegF) (a : RegF) (xr : BitVec 3) (l : Word)
  /-- ATOM_FADD (R247). Atomic FP32 add rounded once per request. -/
  | atomFadd (h : Hd) (d : RegF) (a : RegF) (xr : BitVec 3) (l : Word)
  /-- ATOM_MIN (R247). Atomic signed minimum. -/
  | atomMin (h : Hd) (d : RegF) (a : RegF) (xr : BitVec 3) (l : Word)
  /-- ATOM_MAX (R247). Atomic signed maximum. -/
  | atomMax (h : Hd) (d : RegF) (a : RegF) (xr : BitVec 3) (l : Word)
  /-- ATOM_UMIN (R247). Atomic unsigned minimum. -/
  | atomUmin (h : Hd) (d : RegF) (a : RegF) (xr : BitVec 3) (l : Word)
  /-- ATOM_UMAX (R247). Atomic unsigned maximum. -/
  | atomUmax (h : Hd) (d : RegF) (a : RegF) (xr : BitVec 3) (l : Word)
  /-- ATOM_AND (R247). Atomic bitwise AND. -/
  | atomAnd (h : Hd) (d : RegF) (a : RegF) (xr : BitVec 3) (l : Word)
  /-- ATOM_OR (R247). Atomic bitwise OR. -/
  | atomOr (h : Hd) (d : RegF) (a : RegF) (xr : BitVec 3) (l : Word)
  /-- ATOM_XOR (R247). Atomic bitwise XOR. -/
  | atomXor (h : Hd) (d : RegF) (a : RegF) (xr : BitVec 3) (l : Word)
  /-- ATOM_EXCH (R247). Atomic exchange. -/
  | atomExch (h : Hd) (d : RegF) (a : RegF) (xr : BitVec 3) (l : Word)
  /-- ATOM_CAS (R247). Atomic compare-and-swap against D+1. -/
  | atomCas (h : Hd) (d : RegF) (a : RegF) (xr : BitVec 3) (l : Word)
  /-- ATOM_INCB (R247). Atomic bounded increment that refuses at the bound or when sealed. -/
  | atomIncb (h : Hd) (d : RegF) (a : RegF) (xr : BitVec 3) (l : Word)
  /-- ATOM_SEAL (R247). Atomically sets bit 31 of the word. -/
  | atomSeal (h : Hd) (d : RegF) (a : RegF) (xr : BitVec 3) (l : Word)
  /-- ATOM_SNAP (R247). Atomically returns the word and stores 0. -/
  | atomSnap (h : Hd) (d : RegF) (a : RegF) (xr : BitVec 3) (l : Word)
  /-- WADDR_WAIT (R256). Sends a compare-and-watch request that may park the team on a word. -/
  | waddrWait (h : Hd) (d : RegF) (a : RegF) (xr : BitVec 3) (l : Word)
  /-- WADDR_WAKE (R258). Sends a request to wake the earliest watcher of a word. -/
  | waddrWake (h : Hd) (d : RegF) (a : RegF) (xr : BitVec 3) (l : Word)
  /-- WADDR_WAKEALL (R258). Sends a request to wake every watcher of a word. -/
  | waddrWakeall (h : Hd) (d : RegF) (a : RegF) (xr : BitVec 3) (l : Word)
  /-- SFILL (R295). Submits a stream fill of n steps on one operand stream. -/
  | sfill (h : Hd) (d : RegF) (a : RegF) (b : RegF) (l : Word)
  /-- SCOPY (R297). Submits a tile copy between global memory, own vault and a bond member's vault. -/
  | scopy (h : Hd) (d : RegF) (a : RegF) (b : RegF) (l : Word)
  /-- MLOOP (R321). Issues a matrix member of K-steps on an accumulator slot. -/
  | mloop (h : Hd) (d : RegF) (a : RegF) (b : RegF) (l : Word)
  /-- BAL (R338). Issues a member that balances a transport tile towards its marginals. -/
  | bal (h : Hd) (d : RegF) (a : RegF) (b : RegF) (l : Word)
  /-- CPOST (R399). Posts a collective into the posted-collective table and returns its handle. -/
  | cpost (h : Hd) (d : RegF) (a : RegF) (b : RegF) (l : Word)
  /-- XPOSE (R304). Submits a requantising transpose within the own vault region. -/
  | xpose (h : Hd) (d : RegF) (a : RegF) (b : RegF) (l : Word)
  /-- RESERVED_OPCODE (R59). A word with OP 0x00 or a reserved opcode traps ILLOP, consuming a literal for 0x7C-0x7F. -/
  | reservedOpcode (w : Word)
  /-- RESERVED_SUB_OPERATION (R58). A family word whose sub-operation code is reserved traps ILLOP with no effect. -/
  | reservedSubOperation (w : Word)
  /-- EXIT_RETIRE (R122). After EXIT's wait, retires the active lanes, ends the team or pops the stack. -/
  | exitRetire
  /-- FENCE_DRAIN_END (R260). The fence's release and acquire actions complete and the team resumes. -/
  | fenceDrainEnd
  /-- EXPECT_CLEAR (R261). After the drain, clears the presence bits of the range in one ac. -/
  | expectClear
  /-- WBAR_PHASE_END (R268). Every block has arrived or ended; resident blocks resume and saved blocks become dependent work. -/
  | wbarPhaseEnd
  /-- WBAR_BLOCK_SAVE (R269). The placer saves arrived blocks to the save area to make room for the grid's next block. -/
  | wbarBlockSave
  /-- WBAR_BLOCK_RESTORE (R270). A saved block is placed again, restored and continues after its WBAR. -/
  | wbarBlockRestore
  /-- TSTAT_WRITE (R18). Writes PTRAPEN and clears the sticky TSTAT bits written as 1. -/
  | tstatWrite
  /-- MSTAT_WRITE (R316). Clears the sticky MSTAT bits written as 1. -/
  | mstatWrite
  /-- CECOUNT_WRITE (R425). Clears the corrected-error count fields written as 1. -/
  | cecountWrite
  /-- FTMAP (R355). Maps first-touch pages of the faulting lanes from the context's pool. -/
  | ftmap
  /-- HOSTREQ (R356). Sends page requests to the host for unmapped faulting pages and parks until answered. -/
  | hostreq
  /-- JOBCTL_RESUME (R357). Resumes a faulted job at its faulting transfer. -/
  | jobctlResume
  /-- JOBCTL_ABANDON (R357). Abandons a faulted job for good. -/
  | jobctlAbandon
  /-- IVHI_INVALIDATE_PAGE (R348). Invalidates the context's translations of the staged page on every core. -/
  | ivhiInvalidatePage
  /-- IVHI_INVALIDATE_ALL (R348). Invalidates all of the context's translations on every core. -/
  | ivhiInvalidateAll
  /-- MCTL_LOAD_COMMIT (R112). Once no MCALL expansion is in progress, writes the words and entry in one step. -/
  | mctlLoadCommit
  /-- INSTRUCTION_FETCH (R53). Fetches an instruction word and any literal, faulting the instruction if either fails. -/
  | instructionFetch
  /-- LONG_RESULT_LANDS (R20). A long instruction's result is written and leaves the pending-write record. -/
  | longResultLands
  /-- STORE_ACCEPTED (R21). A store or no-return atomic is accepted by the level that performs it. -/
  | storeAccepted
  /-- SFU_ENTRY_START (R142). The SFU unit starts the next queued entry in issue order. -/
  | sfuEntryStart
  /-- TEAM_PROMOTED (R177). A ready team that has not issued for 4,096 ac is promoted. -/
  | teamPromoted
  /-- TRAP_ENTRY (R344). After the drain, saves state, writes the trap window and enters the handler. -/
  | trapEntry
  /-- BLOCK_PLACEMENT (R171). The placer reserves resources and places the next block that fits. -/
  | blockPlacement
  /-- BLOCK_START (R173). The block's image copy, descriptor load and setup complete and its teams start. -/
  | blockStart
  /-- BLOCK_END (R160). All teams, jobs and accesses of a block are done; the cache is written back and resources are freed. -/
  | blockEnd
  /-- GRID_END (R162). All blocks, bins, rings, jobs and collectives of a grid are done and completion is reported. -/
  | gridEnd
  /-- BIN_LAUNCH (R174). A bin with a full batch of threads launches them as a team. -/
  | binLaunch
  /-- BIN_TIMER_EXPIRY (R174). A bin's timer expires with threads waiting and it launches them as a team. -/
  | binTimerExpiry
  /-- VAT_START (R198). A waiting GROUP, REGRP or DROP starts on the core's free Vat. -/
  | vatStart
  /-- VAT_COMPLETE (R200). A Vat instruction completes and applies its renumbering as one step. -/
  | vatComplete
  /-- ATOM_REQUEST_ENQUEUE (R252). Atomic requests arriving at an owner are enqueued in key order. -/
  | atomRequestEnqueue
  /-- ATOM_SERVICE_APPLY (R247). The service team applies the request at its queue head as one indivisible step. -/
  | atomServiceApply
  /-- VAULT_PORT_APPLY (R252). A vault port applies up to 32 queued vault atomics or watch requests in order. -/
  | vaultPortApply
  /-- WAIT_COMPARE_RECORD (R256). The owner compares the word and records a watch, parking the team, or lets it continue. -/
  | waitCompareRecord
  /-- WATCH_WRITE_WAKE (R257). A write to a watched line reaches memory and wakes its watchers. -/
  | watchWriteWake
  /-- WATCH_TIMEOUT (R257). A watch's timeout is reached and its watcher wakes. -/
  | watchTimeout
  /-- SPURIOUS_WAKE (R257). A watcher is woken without cause, for instance when its watch is evicted. -/
  | spuriousWake
  /-- WAKE_SERVICE (R258). The owner serves a WAKE or WAKEALL, waking the earliest or every watcher. -/
  | wakeService
  /-- PROMOTION_WRITEBACK (R281). A core writes back its cache for a promoted release and the held acquire reply is released. -/
  | promotionWriteback
  /-- PRESENCE_SET (R226). A write's last byte arrives, sets a line's presence bit and wakes ABSENT teams. -/
  | presenceSet
  /-- WALK_COMPLETE (R242). A page walk finishes and delivers its result to every access that joined it. -/
  | walkComplete
  /-- REMOTE_PACKAGE_LOST (R245). The port invalidates translations to a lost package and traps its accesses REMOTE. -/
  | remotePackageLost
  /-- LINK_SILENCE_LOSS (R387). A port receives no flit for 4,096 ac and declares its neighbour lost. -/
  | linkSilenceLoss
  /-- LINK_REPLAY_LOSS (R387). A flit fails link-level replay 16 times and the neighbour is declared lost. -/
  | linkReplayLoss
  /-- FLIT_REPLAY (R424). A flit that fails its CRC is replayed at link level. -/
  | flitReplay
  /-- IDLE_FLIT (R387). A link end sends an idle C0 flit after 256 ac without sending. -/
  | idleFlit
  /-- FABRIC_LANE_SWAP (R426). A failing fabric lane is swapped for the port's spare lane while running. -/
  | fabricLaneSwap
  /-- TIME_BEACON (R386). The root switch sends a fabric-time beacon every 65,536 ac. -/
  | timeBeacon
  /-- TIME_BEACON_RECEIVE (R386). A package adjusts its fabric time from a received beacon. -/
  | timeBeaconReceive
  /-- JOB_START (R291). A dependence-table entry starts once no earlier conflicting entry remains. -/
  | jobStart
  /-- ENGINE_TRANSFER (R301). An engine moves one line or row part of a job. -/
  | engineTransfer
  /-- UNSOLICITED_WRITE_RETRY (R298). A refused engine vault write is retried every 256 ac, faulting after the 16th. -/
  | unsolicitedWriteRetry
  /-- JOB_COMPLETE (R283). A job's transfers are acknowledged; it writes its completion word and releases. -/
  | jobComplete
  /-- ENGFAULT (R313). A job, fill or task stops at a transfer boundary and raises ENGFAULT in a team. -/
  | engfault
  /-- FILL_START (R296). A stream fill starts and reads its descriptor. -/
  | fillStart
  /-- FILL_ROW_APPEND (R296). A fill appends one row to its FIFO once room is free. -/
  | fillRowAppend
  /-- FILL_COMPLETE (R296). A fill's last step enters the FIFO and it writes back CURSOR and WCOUNT. -/
  | fillComplete
  /-- TASK_SCHEDULER_ROUND (R307). The die's task scheduler takes one entry from each non-empty task queue. -/
  | taskSchedulerRound
  /-- TASK_LAUNCH (R307). A started task is launched as a one-team block on its die. -/
  | taskLaunch
  /-- TASK_COMPLETE (R307). A task's block ends, copy-backs finish and its completion word is written. -/
  | taskComplete
  /-- RENAME_COPYBACK (R309). A renamed buffer is copied back to its original region. -/
  | renameCopyback
  /-- QUEUE_POP_SERVE (R312). An arriving entry serves the oldest waiting blocking pop. -/
  | queuePopServe
  /-- QUEUE_PUSH_ACCEPT (R312). A parked blocking push is accepted when the queue has room. -/
  | queuePushAccept
  /-- GATEWAY_PUSH (R310). A fabric ingest gateway pushes an entry, setting GAP if refused. -/
  | gatewayPush
  /-- OPERAND_ROW_DRAW (R326). The sequencer moves a whole row from a FIFO into its operand buffers. -/
  | operandRowDraw
  /-- MLOOP_STEP (R324). The sequencer executes one K-step once its operand bytes are present. -/
  | mloopStep
  /-- MDRAIN_EXECUTE (R330). The sequencer executes a drain member to the vault or registers. -/
  | mdrainExecute
  /-- MDRAIN_PORT_HANDOFF (R332). After the ticket, a port drain hands its elements to the fabric port. -/
  | mdrainPortHandoff
  /-- TPIO_EXECUTE (R335). The sequencer executes a transport-tile load, store, size or cost member. -/
  | tpioExecute
  /-- BAL_EXECUTE (R339). The sequencer runs BAL's sweeps and writes the count and error. -/
  | balExecute
  /-- BATCH_COMPLETE (R320). A closed batch's members and predecessor complete, releasing at CORE. -/
  | batchComplete
  /-- SEQUENCER_ABANDON (R326). A starved sequencer with no live team abandons its members and the grid records STARVED. -/
  | sequencerAbandon
  /-- SAMPLE_TICK (R366). At every multiple of 2^SAMPLE ac each scheduler writes a stall sample record. -/
  | sampleTick
  /-- CHUNK_AGE_CLOSE (R365). A staging chunk open for 65,536 ac closes. -/
  | chunkAgeClose
  /-- CHUNK_RING_WRITE (R363). An outbound chunk is written to the trace ring and TAIL advanced. -/
  | chunkRingWrite
  /-- PRECISE_STOP (R377). The named team reaches its count; the package holds and reports STOPPED. -/
  | preciseStop
  /-- HOST_COMMAND_PUSH (R388). A 64-byte host command packet is pushed into a host-command queue. -/
  | hostCommandPush
  /-- LAUNCH (R390). Checks a launch record and accepts or refuses the grid. -/
  | launch
  /-- COPY_HOST_TO_DEVICE (R390). Copies bytes from a host endpoint into device memory over C3. -/
  | copyHostToDevice
  /-- COPY_DEVICE_TO_HOST (R390). Copies bytes from device memory to a host endpoint over C3. -/
  | copyDeviceToHost
  /-- COPY_DEVICE_TO_DEVICE (R390). Copies bytes within the device over C3. -/
  | copyDeviceToDevice
  /-- MAP_CONTEXT (R390). Creates or replaces a context with its root and page-request address. -/
  | mapContext
  /-- MAP_POOL (R390). Adds frames to a context's page pool. -/
  | mapPool
  /-- MAP_QUEUE (R390). Configures a cellar queue's kind, capacity and owner. -/
  | mapQueue
  /-- MAP_SPLIT (R390). Sets the HBM split between interleaved and die-local windows. -/
  | mapSplit
  /-- MAP_GROUPS (R390). Loads a context's collective group table. -/
  | mapGroups
  /-- MAP_INVAL (R390). Invalidates a context's translations over a range. -/
  | mapInval
  /-- MAP_ANSWER (R390). Answers a page request, or is discarded and counted in PRLATE if unmatched. -/
  | mapAnswer
  /-- MAP_ADMIT (R390). Readmits a lost package. -/
  | mapAdmit
  /-- SNAPSHOT_START (R390). Starts a capture of declared memory regions. -/
  | snapshotStart
  /-- SNAPSHOT_STOP (R390). Stops a capture. -/
  | snapshotStop
  /-- REPLAY (R390). Arms a precise stop and replays a captured launch. -/
  | replay
  /-- SIGNAL_PREEMPT (R358). Stops placement of a context's blocks until resumed. -/
  | signalPreempt
  /-- SIGNAL_RESUME (R358). Lets the placer place a pre-empted context again. -/
  | signalResume
  /-- SIGNAL_KILL (R360). Aborts every block of a context and discards its state. -/
  | signalKill
  /-- SIGNAL_CONTINUE (R375). Resumes the package after a precise stop. -/
  | signalContinue
  /-- ATTEST (R433). Writes a signed attestation report to the host and reports DONE. -/
  | attest
  /-- ILLCMD (R389). A command with an unknown CMD code reports ILLCMD. -/
  | illcmd
  /-- COLL_POST_COLLECT (R395). COORD collects a member's post and sends a REQUEST once all N match. -/
  | collPostCollect
  /-- COLL_REQUEST_GRANT (R395). The root grants a REQUEST whose resources are free and assigns its rank. -/
  | collRequestGrant
  /-- COLL_REQUEST_AGED (R395). A REQUEST waiting 2^20 ac starts blocking later REQUESTs on its resources. -/
  | collRequestAged
  /-- COLL_GRANT_RECEIVE (R395). A member receives its grant and its entry becomes STARTED. -/
  | collGrantReceive
  /-- COLL_CHUNK_READ (R402). The port reads a bound block-exit chunk once the ticket is held. -/
  | collChunkRead
  /-- COLL_LOCAL_COMPLETE (R394). All send bytes are read and receive bytes written; the entry becomes LOCAL. -/
  | collLocalComplete
  /-- COLL_GLOBAL_COMPLETE (R394). The global-completion notice arrives and the entry is freed. -/
  | collGlobalComplete
  /-- COLL_ERROR_NOTICE (R405). A loss, kill or mismatch makes a member's entry ERROR. -/
  | collErrorNotice
  /-- COLL_PART_FAULT (R398). A translation fault on SEND or RECV stops a collective part and raises ENGFAULT. -/
  | collPartFault
  /-- PACKAGE_START (R427). The package runs its start steps from the start log after power-on. -/
  | packageStart
  /-- START_FAILURE_REPORT (R430). A stopped package sends its start-failure packet every 2^30 ac. -/
  | startFailureReport
  /-- VAULT_SCRUB (R424). The vault is scrubbed every 2^30 ac. -/
  | vaultScrub
  /-- HBM_SCRUB (R424). Each HBM stack is scrubbed every 2^34 ac. -/
  | hbmScrub
  /-- POWER_LOSS (R429). The package loses power and stops at once, leaving a started start-log step with no outcome. -/
  | powerLoss
  /-- COLLECTIVE_DATA_TRANSFER (R396). A started collective moves one transfer of send data, partial-sum records or receive data between the port, the switches and memory. -/
  | collectiveDataTransfer
deriving DecidableEq, Repr

end Sys2Proof
end

