-- ==== Sys2Proof/WellFormed.lean ====
section
/-!
DEFINITION. Well-formed instructions: what a decoded word can be. The fields of every constructor already have the width of the
spec's field, so every value of them is an encoding; what is left is that a reserved row really holds a reserved word.
-/

namespace Sys2Proof

/-- The fields of an instruction word (R51). -/
structure Fields where
  sw : Bool
  op : BitVec 7
  hnt : BitVec 3
  d : RegF
  a : RegF
  b : RegF
deriving DecidableEq, Repr

/-- The header of the fields. -/
abbrev Fields.h (f : Fields) : Hd := ⟨f.sw, f.hnt⟩

/-- The word of the fields (R51): S, OP, HNT, D, A, B from bit 31 down. -/
def assemble (f : Fields) : Word :=
  (BitVec.ofBool f.sw ++ f.op ++ f.hnt ++ f.d ++ f.a ++ f.b : BitVec 32)

/-- OP 0x00, 0x45 to 0x5F and 0x7C to 0x7F are not instructions (R56). -/
def reservedOp (op : Nat) : Bool := op == 0 || (0x45 ≤ op && op ≤ 0x5F) || 0x7C ≤ op

/-- Whether the code bits of B are reserved under this OP (R58), with the code 3 that BRA, MCTL and CWAIT refuse (R112, R116). -/
def reservedSub (op b : Nat) : Bool :=
  match op with
  | 0x1B | 0x1C | 0x1D => 0x0B ≤ b
  | 0x1E => 0x07 ≤ b
  | 0x26 => 0x06 ≤ b
  | 0x29 => 0x7 ≤ b % 16
  | 0x2A => 0x09 ≤ b
  | 0x74 => 0xE ≤ b % 16
  | 0x75 | 0x32 | 0x34 | 0x44 | 0x69 | 0x3C => b % 4 == 3
  | 0x38 => 0x3 ≤ b % 16
  | 0x39 => b % 8 == 7
  | 0x43 => 6 ≤ b % 8
  | _ => false

/-- An instruction is well formed: a reserved row holds a word of that kind (R56, R58). -/
def Instr.wellFormed : Instr → Bool
  | .reservedOpcode w => reservedOp (w.extractLsb' 24 7).toNat
  | .reservedSubOperation w => reservedSub (w.extractLsb' 24 7).toNat (w.extractLsb' 0 7).toNat
  | _ => true

end Sys2Proof
end

