-- ==== Sys2Proof/Decode.lean ====
section
/-!
DEFINITION. Decoding (R51 to R64): total on every word. A reserved opcode and a reserved sub-operation code decode to the rows
that take their trap; nothing falls through to a neighbour. After it, the encoder, from the same tables of the spec.
-/

namespace Sys2Proof

/-- The fields of the word (R51). -/
def fieldsOf (w : Word) : Fields where
  sw := w.getLsbD 31
  op := w.extractLsb' 24 7
  hnt := w.extractLsb' 21 3
  d := w.extractLsb' 14 7
  a := w.extractLsb' 7 7
  b := w.extractLsb' 0 7

/-- The sub-operations of OP Xun (R58). -/
def decodeXun (f : Fields) : Instr :=
  match f.b.toNat with
  | 0 => .xunMov f.h f.d f.a
  | 1 => .xunNot f.h f.d f.a
  | 2 => .xunNeg f.h f.d f.a
  | 3 => .xunAbs f.h f.d f.a
  | 4 => .xunClz f.h f.d f.a
  | 5 => .xunPopc f.h f.d f.a
  | 6 => .xunBrev f.h f.d f.a
  | 7 => .xunSxb f.h f.d f.a
  | 8 => .xunSxh f.h f.d f.a
  | 9 => .xunZxb f.h f.d f.a
  | 10 => .xunZxh f.h f.d f.a
  | _ => .reservedSubOperation (assemble f)

/-- The sub-operations of OP Fun (R58). -/
def decodeFun (f : Fields) : Instr :=
  match f.b.toNat with
  | 0 => .funFneg f.h f.d f.a
  | 1 => .funFabs f.h f.d f.a
  | 2 => .funFrne f.h f.d f.a
  | 3 => .funFflr f.h f.d f.a
  | 4 => .funFcel f.h f.d f.a
  | 5 => .funFtrc f.h f.d f.a
  | 6 => .funItof f.h f.d f.a
  | 7 => .funUtof f.h f.d f.a
  | 8 => .funFtoi f.h f.d f.a
  | 9 => .funFtou f.h f.d f.a
  | 10 => .funFcls f.h f.d f.a
  | _ => .reservedSubOperation (assemble f)

/-- The sub-operations of OP Sfu (R58). -/
def decodeSfu (f : Fields) : Instr :=
  match f.b.toNat with
  | 0 => .sfuRcp f.h f.d f.a
  | 1 => .sfuRsq f.h f.d f.a
  | 2 => .sfuSqrt f.h f.d f.a
  | 3 => .sfuExp2 f.h f.d f.a
  | 4 => .sfuLog2 f.h f.d f.a
  | 5 => .sfuSinp f.h f.d f.a
  | 6 => .sfuCosp f.h f.d f.a
  | 7 => .sfuTanh f.h f.d f.a
  | 8 => .sfuSigm f.h f.d f.a
  | 9 => .sfuExp f.h f.d f.a
  | 10 => .sfuLog f.h f.d f.a
  | _ => .reservedSubOperation (assemble f)

/-- The sub-operations of OP Cvn (R58). -/
def decodeCvn (f : Fields) : Instr :=
  match f.b.toNat with
  | 0 => .cvnPkh f.h f.d f.a
  | 1 => .cvnPkb f.h f.d f.a
  | 2 => .cvnPk6 f.h f.d f.a
  | 3 => .cvnUnph f.h f.d f.a
  | 4 => .cvnUnpb f.h f.d f.a
  | 5 => .cvnUnp6 f.h f.d f.a
  | 6 => .cvnBscl f.h f.d f.a
  | _ => .reservedSubOperation (assemble f)

/-- The sub-operations of OP Brx (R58). -/
def decodeBrx (f : Fields) : Instr :=
  match (f.b.extractLsb' 0 1).toNat with
  | 0 => .brx f.h f.a
  | _ => .brxCall f.h f.a

/-- The sub-operations of OP Vote (R58). -/
def decodeVote (f : Fields) : Instr :=
  match f.b.toNat with
  | 0 => .voteAny f.h f.d f.a
  | 1 => .voteAll f.h f.d f.a
  | 2 => .voteBallot f.h f.d f.a
  | 3 => .voteCnt f.h f.d f.a
  | 4 => .voteUni f.h f.d f.a
  | 5 => .voteFirst f.h f.d f.a
  | _ => .reservedSubOperation (assemble f)

/-- The sub-operations of OP Scan (R58). -/
def decodeScan (f : Fields) : Instr :=
  match (f.b.extractLsb' 0 4).toNat with
  | 0 => .scanAdd f.h f.d f.a (f.b.getLsbD 4)
  | 1 => .scanFadd f.h f.d f.a (f.b.getLsbD 4)
  | 2 => .scanMin f.h f.d f.a (f.b.getLsbD 4)
  | 3 => .scanMax f.h f.d f.a (f.b.getLsbD 4)
  | 4 => .scanAnd f.h f.d f.a (f.b.getLsbD 4)
  | 5 => .scanOr f.h f.d f.a (f.b.getLsbD 4)
  | 6 => .scanXor f.h f.d f.a (f.b.getLsbD 4)
  | _ => .reservedSubOperation (assemble f)

/-- The sub-operations of OP Red (R58). -/
def decodeRed (f : Fields) : Instr :=
  match f.b.toNat with
  | 0 => .redAdd f.h f.d f.a
  | 1 => .redFadd f.h f.d f.a
  | 2 => .redMin f.h f.d f.a
  | 3 => .redMax f.h f.d f.a
  | 4 => .redMaxi f.h f.d f.a
  | 5 => .redMini f.h f.d f.a
  | 6 => .redAnd f.h f.d f.a
  | 7 => .redOr f.h f.d f.a
  | 8 => .redXor f.h f.d f.a
  | _ => .reservedSubOperation (assemble f)

/-- The sub-operations of OP Fence (R58). -/
def decodeFence (f : Fields) : Instr :=
  match (f.b.extractLsb' 0 2).toNat with
  | 0 => .fenceSc f.h (f.b.extractLsb' 4 3)
  | 1 => .fenceAcq f.h (f.b.extractLsb' 4 3)
  | 2 => .fenceRel f.h (f.b.extractLsb' 4 3)
  | _ => .fenceAr f.h (f.b.extractLsb' 4 3)

/-- The sub-operations of OP Spill (R58). -/
def decodeSpill (f : Fields) : Instr :=
  match (f.b.extractLsb' 0 1).toNat with
  | 0 => .spillSpill f.h f.d f.a
  | _ => .spillFill f.h f.d f.a

/-- The sub-operations of OP Bar (R58). -/
def decodeBar (f : Fields) : Instr :=
  match (f.b.extractLsb' 0 2).toNat with
  | 0 => .barArrive f.h f.d f.a
  | 1 => .barWait f.h f.a
  | 2 => .barSync f.h f.d f.a
  | _ => .reservedSubOperation (assemble f)

/-- The sub-operations of OP Baton (R58). -/
def decodeBaton (f : Fields) : Instr :=
  match (f.b.extractLsb' 0 2).toNat with
  | 0 => .batonTake f.h
  | 1 => .batonGive f.h
  | 2 => .batonPass f.h f.a
  | _ => .reservedSubOperation (assemble f)

/-- The sub-operations of OP Mdrain (R58). -/
def decodeMdrain (f : Fields) : Instr :=
  match (f.b.extractLsb' 0 2).toNat with
  | 0 => .mdrainVf32 f.h f.d f.a (f.b.getLsbD 4) (f.b.extractLsb' 2 2)
  | 1 => .mdrainVbf16 f.h f.d f.a (f.b.getLsbD 4) (f.b.extractLsb' 2 2)
  | 2 => .mdrainReg f.h f.d f.a (f.b.extractLsb' 4 3) (f.b.extractLsb' 2 2)
  | _ => .mdrainPort f.h f.d f.a (f.b.getLsbD 4) (f.b.extractLsb' 2 2)

/-- The sub-operations of OP Qop (R58). -/
def decodeQop (f : Fields) : Instr :=
  match (f.b.extractLsb' 0 4).toNat with
  | 0 => .qopPush f.h f.d f.a (f.b.getLsbD 4)
  | 1 => .qopPop f.h f.d f.a (f.b.getLsbD 4)
  | 2 => .qopCount f.h f.d f.a (f.b.getLsbD 4)
  | _ => .reservedSubOperation (assemble f)

/-- The sub-operations of OP Tpio (R58). -/
def decodeTpio (f : Fields) : Instr :=
  match (f.b.extractLsb' 0 3).toNat with
  | 0 => .tpioLdk f.h f.d f.a (f.b.extractLsb' 3 2)
  | 1 => .tpioLda f.h f.a (f.b.extractLsb' 3 2)
  | 2 => .tpioLdb f.h f.a (f.b.extractLsb' 3 2)
  | 3 => .tpioStp f.h f.d f.a (f.b.getLsbD 5) (f.b.extractLsb' 3 2)
  | 4 => .tpioStf f.h f.a (f.b.extractLsb' 3 2)
  | 5 => .tpioCost f.h f.d f.a (f.b.extractLsb' 3 2)
  | 6 => .tpioSize f.h f.a (f.b.extractLsb' 3 2)
  | _ => .reservedSubOperation (assemble f)

/-- The sub-operations of OP Cwait (R58). -/
def decodeCwait (f : Fields) : Instr :=
  match (f.b.extractLsb' 0 2).toNat with
  | 0 => .cwaitTicket f.h f.a
  | 1 => .cwaitLocal f.h f.a
  | 2 => .cwaitGlobal f.h f.a
  | _ => .reservedSubOperation (assemble f)

/-- The sub-operations of OP Rett (R58). -/
def decodeRett (f : Fields) : Instr :=
  match (f.b.extractLsb' 0 1).toNat with
  | 0 => .rett f.h
  | _ => .rettSkip f.h

/-- The sub-operations of OP Sys (R58). -/
def decodeSys (f : Fields) : Instr :=
  match (f.b.extractLsb' 6 1).toNat with
  | 0 => .sysRd f.h f.d (f.b.extractLsb' 0 6)
  | _ => .sysWr f.h f.a (f.b.extractLsb' 0 6)

/-- The sub-operations of OP Ptn (R58). -/
def decodePtn (f : Fields) : Instr :=
  match (f.b.extractLsb' 0 3).toNat with
  | 0 => .ptnT32 f.h
  | 1 => .ptnT16 f.h
  | 2 => .ptnT8 f.h
  | 3 => .ptnT4 f.h
  | 4 => .ptnT2 f.h
  | 5 => .ptnWhole f.h
  | _ => .reservedSubOperation (assemble f)

/-- The sub-operations of OP Mctl (R58). -/
def decodeMctl (f : Fields) : Instr :=
  match (f.b.extractLsb' 0 2).toNat with
  | 0 => .mctlLoad f.h f.d f.a
  | 1 => .mctlClear f.h f.a
  | 2 => .mctlQuery f.h f.d f.a
  | _ => .reservedSubOperation (assemble f)

/-- The sub-operations of OP Setfmt (R58). -/
def decodeSetfmt (f : Fields) (l : Word) : Instr :=
  match (f.b.extractLsb' 0 1).toNat with
  | 0 => .setfmt f.h l
  | _ => .setfmtReg f.h f.a

/-- The sub-operations of OP Wbase (R58). -/
def decodeWbase (f : Fields) (l : Word) : Instr :=
  match (f.b.extractLsb' 0 1).toNat with
  | 0 => .wbase f.h l
  | _ => .wbaseReg f.h f.a

/-- The sub-operations of OP Bra (R58). -/
def decodeBra (f : Fields) (l : Word) : Instr :=
  match (f.b.extractLsb' 0 2).toNat with
  | 0 => .bra f.h l
  | 1 => .braNz f.h f.a l
  | 2 => .braZ f.h f.a l
  | _ => .reservedSubOperation (assemble f)

/-- The sub-operations of OP Brd (R58). -/
def decodeBrd (f : Fields) (l : Word) : Instr :=
  match (f.b.extractLsb' 0 1).toNat with
  | 0 => .brd f.h f.a l
  | _ => .brdZ f.h f.a l

/-- The sub-operations of OP Atom (R58). -/
def decodeAtom (f : Fields) (l : Word) : Instr :=
  match (f.b.extractLsb' 0 4).toNat with
  | 0 => .atomAdd f.h f.d f.a (f.b.extractLsb' 4 3) l
  | 1 => .atomFadd f.h f.d f.a (f.b.extractLsb' 4 3) l
  | 2 => .atomMin f.h f.d f.a (f.b.extractLsb' 4 3) l
  | 3 => .atomMax f.h f.d f.a (f.b.extractLsb' 4 3) l
  | 4 => .atomUmin f.h f.d f.a (f.b.extractLsb' 4 3) l
  | 5 => .atomUmax f.h f.d f.a (f.b.extractLsb' 4 3) l
  | 6 => .atomAnd f.h f.d f.a (f.b.extractLsb' 4 3) l
  | 7 => .atomOr f.h f.d f.a (f.b.extractLsb' 4 3) l
  | 8 => .atomXor f.h f.d f.a (f.b.extractLsb' 4 3) l
  | 9 => .atomExch f.h f.d f.a (f.b.extractLsb' 4 3) l
  | 10 => .atomCas f.h f.d f.a (f.b.extractLsb' 4 3) l
  | 11 => .atomIncb f.h f.d f.a (f.b.extractLsb' 4 3) l
  | 12 => .atomSeal f.h f.d f.a (f.b.extractLsb' 4 3) l
  | 13 => .atomSnap f.h f.d f.a (f.b.extractLsb' 4 3) l
  | _ => .reservedSubOperation (assemble f)

/-- The sub-operations of OP Waddr (R58). -/
def decodeWaddr (f : Fields) (l : Word) : Instr :=
  match (f.b.extractLsb' 0 2).toNat with
  | 0 => .waddrWait f.h f.d f.a (f.b.extractLsb' 4 3) l
  | 1 => .waddrWake f.h f.d f.a (f.b.extractLsb' 4 3) l
  | 2 => .waddrWakeall f.h f.d f.a (f.b.extractLsb' 4 3) l
  | _ => .reservedSubOperation (assemble f)

/-- The opcode map (R56): the instruction of the fields of a word and of the literal that follows it when OP is 0x60 to 0x7F. -/
def decodeFields (f : Fields) (l : Word) : Instr :=
  match f.op.toNat with
  | 0x01 => .iadd f.h f.d f.a f.b
  | 0x02 => .isub f.h f.d f.a f.b
  | 0x03 => .imul f.h f.d f.a f.b
  | 0x04 => .imulh f.h f.d f.a f.b
  | 0x05 => .imulhu f.h f.d f.a f.b
  | 0x06 => .imin f.h f.d f.a f.b
  | 0x07 => .imax f.h f.d f.a f.b
  | 0x08 => .andR f.h f.d f.a f.b
  | 0x09 => .orR f.h f.d f.a f.b
  | 0x0A => .xorR f.h f.d f.a f.b
  | 0x0B => .shl f.h f.d f.a f.b
  | 0x0C => .shr f.h f.d f.a f.b
  | 0x0D => .shra f.h f.d f.a f.b
  | 0x0E => .ilt f.h f.d f.a f.b
  | 0x0F => .iltu f.h f.d f.a f.b
  | 0x10 => .ieq f.h f.d f.a f.b
  | 0x11 => .fadd f.h f.d f.a f.b
  | 0x12 => .fsub f.h f.d f.a f.b
  | 0x13 => .fmul f.h f.d f.a f.b
  | 0x14 => .ffma f.h f.d f.a f.b
  | 0x15 => .fmin f.h f.d f.a f.b
  | 0x16 => .fmax f.h f.d f.a f.b
  | 0x17 => .flt f.h f.d f.a f.b
  | 0x18 => .fle f.h f.d f.a f.b
  | 0x19 => .feq f.h f.d f.a f.b
  | 0x1A => .sel f.h f.d f.a f.b
  | 0x1B => decodeXun f
  | 0x1C => decodeFun f
  | 0x1D => decodeSfu f
  | 0x1E => decodeCvn f
  | 0x1F => .osms f.h f.d f.a
  | 0x20 => .osmn f.h f.d f.a f.b
  | 0x21 => decodeBrx f
  | 0x22 => .sync f.h
  | 0x23 => .ret f.h
  | 0x24 => .exit f.h
  | 0x25 => .nop f.h
  | 0x26 => decodeVote f
  | 0x27 => .shfl f.h f.d f.a f.b
  | 0x28 => .shfx f.h f.d f.a f.b
  | 0x29 => decodeScan f
  | 0x2A => decodeRed f
  | 0x2B => .topk f.h f.d f.a f.b
  | 0x2C => .regrp f.h f.d f.a f.b
  | 0x2D => .drop f.h f.a
  | 0x2E => decodeFence f
  | 0x2F => .txb f.h f.d f.a f.b
  | 0x30 => .expect f.h f.a f.b
  | 0x31 => decodeSpill f
  | 0x32 => decodeBar f
  | 0x33 => .wbar f.h f.a
  | 0x34 => decodeBaton f
  | 0x35 => .mfence f.h f.d
  | 0x36 => .mwait f.h f.a
  | 0x37 => decodeMdrain f
  | 0x38 => decodeQop f
  | 0x39 => decodeTpio f
  | 0x3A => .job f.h f.d f.a f.b
  | 0x3B => .task f.h f.d f.a f.b
  | 0x3C => decodeCwait f
  | 0x3D => .rsnap f.h f.d f.a
  | 0x3E => .trap f.h f.b
  | 0x3F => decodeRett f
  | 0x40 => decodeSys f
  | 0x41 => .mark f.h f.a f.b
  | 0x42 => .brk f.h f.b
  | 0x43 => decodePtn f
  | 0x44 => decodeMctl f
  | 0x60 => .movi f.h f.d l
  | 0x61 => .iaddi f.h f.d f.a l
  | 0x62 => .muli f.h f.d f.a l
  | 0x63 => .andi f.h f.d f.a l
  | 0x64 => .ori f.h f.d f.a l
  | 0x65 => .xori f.h f.d f.a l
  | 0x66 => decodeSetfmt f l
  | 0x67 => decodeWbase f l
  | 0x68 => .mcall f.h f.d f.a f.b l
  | 0x69 => decodeBra f l
  | 0x6A => decodeBrd f l
  | 0x6B => .ssy f.h l
  | 0x6C => .call f.h l
  | 0x6D => .group f.h f.d f.a (f.b.extractLsb' 0 4) l
  | 0x6E => .join f.h f.d f.a (f.b.extractLsb' 0 4) l
  | 0x6F => .spawn f.h f.d f.a (f.b.extractLsb' 0 3) l
  | 0x70 => .ldg f.h f.d f.a f.b l
  | 0x71 => .stg f.h f.d f.a f.b l
  | 0x72 => .ldv f.h f.d f.a f.b l
  | 0x73 => .stv f.h f.d f.a f.b l
  | 0x74 => decodeAtom f l
  | 0x75 => decodeWaddr f l
  | 0x76 => .sfill f.h f.d f.a f.b l
  | 0x77 => .scopy f.h f.d f.a f.b l
  | 0x78 => .mloop f.h f.d f.a f.b l
  | 0x79 => .bal f.h f.d f.a f.b l
  | 0x7A => .cpost f.h f.d f.a f.b l
  | 0x7B => .xpose f.h f.d f.a f.b l
  | _ => .reservedOpcode (assemble f)

/-- The instruction of a word and its literal. -/
def decodeWord (w l : Word) : Instr := decodeFields (fieldsOf w) l

/-- OP alone decides whether a literal follows: OP[6:5] = 0b11 (R52). -/
def hasLiteral (w : Word) : Bool := w.getLsbD 30 && w.getLsbD 29

/-- A word from four bytes, little-endian (R5). -/
def wordOfBytes (b0 b1 b2 b3 : Byte) : Word := b3 ++ b2 ++ b1 ++ b0

/-- Decoding of the bytes at the PC: the instruction and how many bytes it takes; none when bytes are missing. -/
def decodeBytes : List Byte → Option (Instr × Nat)
  | b0 :: b1 :: b2 :: b3 :: rest =>
    let w := wordOfBytes b0 b1 b2 b3
    if hasLiteral w then
      match rest with
      | c0 :: c1 :: c2 :: c3 :: _ => some (decodeWord w (wordOfBytes c0 c1 c2 c3), 8)
      | _ => none
    else some (decodeWord w 0#32, 4)
  | _ => none

/-- The four bytes of a word as memory holds them. -/
def bytesOfWord (w : Word) : List Byte :=
  [w.extractLsb' 0 8, w.extractLsb' 8 8, w.extractLsb' 16 8, w.extractLsb' 24 8]

/-- The instruction read from `nbits` bits `w` numbered as the opcode table numbers them; bits above are 0. Words the
decoder gives to a reserved row are the trap of that row, not an instruction, and answer none. -/
def decodeTableWord (nbits w : Nat) : Option Instr :=
  let v := w % 2 ^ nbits
  match decodeBytes (bytesOfWord (BitVec.ofNat 32 v) ++ bytesOfWord (BitVec.ofNat 32 (v / 2 ^ 32))) with
  | some (.reservedOpcode _, _) => none
  | some (.reservedSubOperation _, _) => none
  | some (i, _) => some i
  | none => none

/-- The fields that encode an instruction, and its literal when it has one. Ignored fields and bits are written 0 (R55). A
step of the machine that no word encodes answers none. -/
def encodeFields : Instr → Option (Fields × Option Word)
  | .iadd h d a b => some (⟨h.sw, 0x01, h.hnt, d, a, b⟩, none)
  | .isub h d a b => some (⟨h.sw, 0x02, h.hnt, d, a, b⟩, none)
  | .imul h d a b => some (⟨h.sw, 0x03, h.hnt, d, a, b⟩, none)
  | .imulh h d a b => some (⟨h.sw, 0x04, h.hnt, d, a, b⟩, none)
  | .imulhu h d a b => some (⟨h.sw, 0x05, h.hnt, d, a, b⟩, none)
  | .imin h d a b => some (⟨h.sw, 0x06, h.hnt, d, a, b⟩, none)
  | .imax h d a b => some (⟨h.sw, 0x07, h.hnt, d, a, b⟩, none)
  | .andR h d a b => some (⟨h.sw, 0x08, h.hnt, d, a, b⟩, none)
  | .orR h d a b => some (⟨h.sw, 0x09, h.hnt, d, a, b⟩, none)
  | .xorR h d a b => some (⟨h.sw, 0x0A, h.hnt, d, a, b⟩, none)
  | .shl h d a b => some (⟨h.sw, 0x0B, h.hnt, d, a, b⟩, none)
  | .shr h d a b => some (⟨h.sw, 0x0C, h.hnt, d, a, b⟩, none)
  | .shra h d a b => some (⟨h.sw, 0x0D, h.hnt, d, a, b⟩, none)
  | .ilt h d a b => some (⟨h.sw, 0x0E, h.hnt, d, a, b⟩, none)
  | .iltu h d a b => some (⟨h.sw, 0x0F, h.hnt, d, a, b⟩, none)
  | .ieq h d a b => some (⟨h.sw, 0x10, h.hnt, d, a, b⟩, none)
  | .fadd h d a b => some (⟨h.sw, 0x11, h.hnt, d, a, b⟩, none)
  | .fsub h d a b => some (⟨h.sw, 0x12, h.hnt, d, a, b⟩, none)
  | .fmul h d a b => some (⟨h.sw, 0x13, h.hnt, d, a, b⟩, none)
  | .ffma h d a b => some (⟨h.sw, 0x14, h.hnt, d, a, b⟩, none)
  | .fmin h d a b => some (⟨h.sw, 0x15, h.hnt, d, a, b⟩, none)
  | .fmax h d a b => some (⟨h.sw, 0x16, h.hnt, d, a, b⟩, none)
  | .flt h d a b => some (⟨h.sw, 0x17, h.hnt, d, a, b⟩, none)
  | .fle h d a b => some (⟨h.sw, 0x18, h.hnt, d, a, b⟩, none)
  | .feq h d a b => some (⟨h.sw, 0x19, h.hnt, d, a, b⟩, none)
  | .sel h d a b => some (⟨h.sw, 0x1A, h.hnt, d, a, b⟩, none)
  | .xunMov h d a => some (⟨h.sw, 0x1B, h.hnt, d, a, 0#7⟩, none)
  | .xunNot h d a => some (⟨h.sw, 0x1B, h.hnt, d, a, 1#7⟩, none)
  | .xunNeg h d a => some (⟨h.sw, 0x1B, h.hnt, d, a, 2#7⟩, none)
  | .xunAbs h d a => some (⟨h.sw, 0x1B, h.hnt, d, a, 3#7⟩, none)
  | .xunClz h d a => some (⟨h.sw, 0x1B, h.hnt, d, a, 4#7⟩, none)
  | .xunPopc h d a => some (⟨h.sw, 0x1B, h.hnt, d, a, 5#7⟩, none)
  | .xunBrev h d a => some (⟨h.sw, 0x1B, h.hnt, d, a, 6#7⟩, none)
  | .xunSxb h d a => some (⟨h.sw, 0x1B, h.hnt, d, a, 7#7⟩, none)
  | .xunSxh h d a => some (⟨h.sw, 0x1B, h.hnt, d, a, 8#7⟩, none)
  | .xunZxb h d a => some (⟨h.sw, 0x1B, h.hnt, d, a, 9#7⟩, none)
  | .xunZxh h d a => some (⟨h.sw, 0x1B, h.hnt, d, a, 10#7⟩, none)
  | .funFneg h d a => some (⟨h.sw, 0x1C, h.hnt, d, a, 0#7⟩, none)
  | .funFabs h d a => some (⟨h.sw, 0x1C, h.hnt, d, a, 1#7⟩, none)
  | .funFrne h d a => some (⟨h.sw, 0x1C, h.hnt, d, a, 2#7⟩, none)
  | .funFflr h d a => some (⟨h.sw, 0x1C, h.hnt, d, a, 3#7⟩, none)
  | .funFcel h d a => some (⟨h.sw, 0x1C, h.hnt, d, a, 4#7⟩, none)
  | .funFtrc h d a => some (⟨h.sw, 0x1C, h.hnt, d, a, 5#7⟩, none)
  | .funItof h d a => some (⟨h.sw, 0x1C, h.hnt, d, a, 6#7⟩, none)
  | .funUtof h d a => some (⟨h.sw, 0x1C, h.hnt, d, a, 7#7⟩, none)
  | .funFtoi h d a => some (⟨h.sw, 0x1C, h.hnt, d, a, 8#7⟩, none)
  | .funFtou h d a => some (⟨h.sw, 0x1C, h.hnt, d, a, 9#7⟩, none)
  | .funFcls h d a => some (⟨h.sw, 0x1C, h.hnt, d, a, 10#7⟩, none)
  | .sfuRcp h d a => some (⟨h.sw, 0x1D, h.hnt, d, a, 0#7⟩, none)
  | .sfuRsq h d a => some (⟨h.sw, 0x1D, h.hnt, d, a, 1#7⟩, none)
  | .sfuSqrt h d a => some (⟨h.sw, 0x1D, h.hnt, d, a, 2#7⟩, none)
  | .sfuExp2 h d a => some (⟨h.sw, 0x1D, h.hnt, d, a, 3#7⟩, none)
  | .sfuLog2 h d a => some (⟨h.sw, 0x1D, h.hnt, d, a, 4#7⟩, none)
  | .sfuSinp h d a => some (⟨h.sw, 0x1D, h.hnt, d, a, 5#7⟩, none)
  | .sfuCosp h d a => some (⟨h.sw, 0x1D, h.hnt, d, a, 6#7⟩, none)
  | .sfuTanh h d a => some (⟨h.sw, 0x1D, h.hnt, d, a, 7#7⟩, none)
  | .sfuSigm h d a => some (⟨h.sw, 0x1D, h.hnt, d, a, 8#7⟩, none)
  | .sfuExp h d a => some (⟨h.sw, 0x1D, h.hnt, d, a, 9#7⟩, none)
  | .sfuLog h d a => some (⟨h.sw, 0x1D, h.hnt, d, a, 10#7⟩, none)
  | .cvnPkh h d a => some (⟨h.sw, 0x1E, h.hnt, d, a, 0#7⟩, none)
  | .cvnPkb h d a => some (⟨h.sw, 0x1E, h.hnt, d, a, 1#7⟩, none)
  | .cvnPk6 h d a => some (⟨h.sw, 0x1E, h.hnt, d, a, 2#7⟩, none)
  | .cvnUnph h d a => some (⟨h.sw, 0x1E, h.hnt, d, a, 3#7⟩, none)
  | .cvnUnpb h d a => some (⟨h.sw, 0x1E, h.hnt, d, a, 4#7⟩, none)
  | .cvnUnp6 h d a => some (⟨h.sw, 0x1E, h.hnt, d, a, 5#7⟩, none)
  | .cvnBscl h d a => some (⟨h.sw, 0x1E, h.hnt, d, a, 6#7⟩, none)
  | .osms h d a => some (⟨h.sw, 0x1F, h.hnt, d, a, 0#7⟩, none)
  | .osmn h d a b => some (⟨h.sw, 0x20, h.hnt, d, a, b⟩, none)
  | .brx h a => some (⟨h.sw, 0x21, h.hnt, 0, a, 0#7⟩, none)
  | .brxCall h a => some (⟨h.sw, 0x21, h.hnt, 0, a, 1#7⟩, none)
  | .sync h => some (⟨h.sw, 0x22, h.hnt, 0, 0, 0#7⟩, none)
  | .ret h => some (⟨h.sw, 0x23, h.hnt, 0, 0, 0#7⟩, none)
  | .exit h => some (⟨h.sw, 0x24, h.hnt, 0, 0, 0#7⟩, none)
  | .nop h => some (⟨h.sw, 0x25, h.hnt, 0, 0, 0#7⟩, none)
  | .voteAny h d a => some (⟨h.sw, 0x26, h.hnt, d, a, 0#7⟩, none)
  | .voteAll h d a => some (⟨h.sw, 0x26, h.hnt, d, a, 1#7⟩, none)
  | .voteBallot h d a => some (⟨h.sw, 0x26, h.hnt, d, a, 2#7⟩, none)
  | .voteCnt h d a => some (⟨h.sw, 0x26, h.hnt, d, a, 3#7⟩, none)
  | .voteUni h d a => some (⟨h.sw, 0x26, h.hnt, d, a, 4#7⟩, none)
  | .voteFirst h d a => some (⟨h.sw, 0x26, h.hnt, d, a, 5#7⟩, none)
  | .shfl h d a b => some (⟨h.sw, 0x27, h.hnt, d, a, b⟩, none)
  | .shfx h d a b => some (⟨h.sw, 0x28, h.hnt, d, a, b⟩, none)
  | .scanAdd h d a e => some (⟨h.sw, 0x29, h.hnt, d, a, (0#2 ++ BitVec.ofBool e ++ 0#4 : BitVec 7)⟩, none)
  | .scanFadd h d a e => some (⟨h.sw, 0x29, h.hnt, d, a, (0#2 ++ BitVec.ofBool e ++ 1#4 : BitVec 7)⟩, none)
  | .scanMin h d a e => some (⟨h.sw, 0x29, h.hnt, d, a, (0#2 ++ BitVec.ofBool e ++ 2#4 : BitVec 7)⟩, none)
  | .scanMax h d a e => some (⟨h.sw, 0x29, h.hnt, d, a, (0#2 ++ BitVec.ofBool e ++ 3#4 : BitVec 7)⟩, none)
  | .scanAnd h d a e => some (⟨h.sw, 0x29, h.hnt, d, a, (0#2 ++ BitVec.ofBool e ++ 4#4 : BitVec 7)⟩, none)
  | .scanOr h d a e => some (⟨h.sw, 0x29, h.hnt, d, a, (0#2 ++ BitVec.ofBool e ++ 5#4 : BitVec 7)⟩, none)
  | .scanXor h d a e => some (⟨h.sw, 0x29, h.hnt, d, a, (0#2 ++ BitVec.ofBool e ++ 6#4 : BitVec 7)⟩, none)
  | .redAdd h d a => some (⟨h.sw, 0x2A, h.hnt, d, a, 0#7⟩, none)
  | .redFadd h d a => some (⟨h.sw, 0x2A, h.hnt, d, a, 1#7⟩, none)
  | .redMin h d a => some (⟨h.sw, 0x2A, h.hnt, d, a, 2#7⟩, none)
  | .redMax h d a => some (⟨h.sw, 0x2A, h.hnt, d, a, 3#7⟩, none)
  | .redMaxi h d a => some (⟨h.sw, 0x2A, h.hnt, d, a, 4#7⟩, none)
  | .redMini h d a => some (⟨h.sw, 0x2A, h.hnt, d, a, 5#7⟩, none)
  | .redAnd h d a => some (⟨h.sw, 0x2A, h.hnt, d, a, 6#7⟩, none)
  | .redOr h d a => some (⟨h.sw, 0x2A, h.hnt, d, a, 7#7⟩, none)
  | .redXor h d a => some (⟨h.sw, 0x2A, h.hnt, d, a, 8#7⟩, none)
  | .topk h d a b => some (⟨h.sw, 0x2B, h.hnt, d, a, b⟩, none)
  | .regrp h d a b => some (⟨h.sw, 0x2C, h.hnt, d, a, b⟩, none)
  | .drop h a => some (⟨h.sw, 0x2D, h.hnt, 0, a, 0#7⟩, none)
  | .fenceSc h c => some (⟨h.sw, 0x2E, h.hnt, 0, 0, (c ++ 0#4 : BitVec 7)⟩, none)
  | .fenceAcq h c => some (⟨h.sw, 0x2E, h.hnt, 0, 0, (c ++ 1#4 : BitVec 7)⟩, none)
  | .fenceRel h c => some (⟨h.sw, 0x2E, h.hnt, 0, 0, (c ++ 2#4 : BitVec 7)⟩, none)
  | .fenceAr h c => some (⟨h.sw, 0x2E, h.hnt, 0, 0, (c ++ 3#4 : BitVec 7)⟩, none)
  | .txb h d a b => some (⟨h.sw, 0x2F, h.hnt, d, a, b⟩, none)
  | .expect h a b => some (⟨h.sw, 0x30, h.hnt, 0, a, b⟩, none)
  | .spillSpill h d a => some (⟨h.sw, 0x31, h.hnt, d, a, 0#7⟩, none)
  | .spillFill h d a => some (⟨h.sw, 0x31, h.hnt, d, a, 1#7⟩, none)
  | .barArrive h d a => some (⟨h.sw, 0x32, h.hnt, d, a, 0#7⟩, none)
  | .barWait h a => some (⟨h.sw, 0x32, h.hnt, 0, a, 1#7⟩, none)
  | .barSync h d a => some (⟨h.sw, 0x32, h.hnt, d, a, 2#7⟩, none)
  | .wbar h a => some (⟨h.sw, 0x33, h.hnt, 0, a, 0#7⟩, none)
  | .batonTake h => some (⟨h.sw, 0x34, h.hnt, 0, 0, 0#7⟩, none)
  | .batonGive h => some (⟨h.sw, 0x34, h.hnt, 0, 0, 1#7⟩, none)
  | .batonPass h a => some (⟨h.sw, 0x34, h.hnt, 0, a, 2#7⟩, none)
  | .mfence h d => some (⟨h.sw, 0x35, h.hnt, d, 0, 0#7⟩, none)
  | .mwait h a => some (⟨h.sw, 0x36, h.hnt, 0, a, 0#7⟩, none)
  | .mdrainVf32 h d a z k => some (⟨h.sw, 0x37, h.hnt, d, a, (0#2 ++ BitVec.ofBool z ++ k ++ 0#2 : BitVec 7)⟩, none)
  | .mdrainVbf16 h d a z k => some (⟨h.sw, 0x37, h.hnt, d, a, (0#2 ++ BitVec.ofBool z ++ k ++ 1#2 : BitVec 7)⟩, none)
  | .mdrainReg h d a c k => some (⟨h.sw, 0x37, h.hnt, d, a, (c ++ k ++ 2#2 : BitVec 7)⟩, none)
  | .mdrainPort h d a z k => some (⟨h.sw, 0x37, h.hnt, d, a, (0#2 ++ BitVec.ofBool z ++ k ++ 3#2 : BitVec 7)⟩, none)
  | .qopPush h d a n => some (⟨h.sw, 0x38, h.hnt, d, a, (0#2 ++ BitVec.ofBool n ++ 0#4 : BitVec 7)⟩, none)
  | .qopPop h d a n => some (⟨h.sw, 0x38, h.hnt, d, a, (0#2 ++ BitVec.ofBool n ++ 1#4 : BitVec 7)⟩, none)
  | .qopCount h d a n => some (⟨h.sw, 0x38, h.hnt, d, a, (0#2 ++ BitVec.ofBool n ++ 2#4 : BitVec 7)⟩, none)
  | .tpioLdk h d a k => some (⟨h.sw, 0x39, h.hnt, d, a, (0#2 ++ k ++ 0#3 : BitVec 7)⟩, none)
  | .tpioLda h a k => some (⟨h.sw, 0x39, h.hnt, 0, a, (0#2 ++ k ++ 1#3 : BitVec 7)⟩, none)
  | .tpioLdb h a k => some (⟨h.sw, 0x39, h.hnt, 0, a, (0#2 ++ k ++ 2#3 : BitVec 7)⟩, none)
  | .tpioStp h d a f k => some (⟨h.sw, 0x39, h.hnt, d, a, (0#1 ++ BitVec.ofBool f ++ k ++ 3#3 : BitVec 7)⟩, none)
  | .tpioStf h a k => some (⟨h.sw, 0x39, h.hnt, 0, a, (0#2 ++ k ++ 4#3 : BitVec 7)⟩, none)
  | .tpioCost h d a k => some (⟨h.sw, 0x39, h.hnt, d, a, (0#2 ++ k ++ 5#3 : BitVec 7)⟩, none)
  | .tpioSize h a k => some (⟨h.sw, 0x39, h.hnt, 0, a, (0#2 ++ k ++ 6#3 : BitVec 7)⟩, none)
  | .job h d a b => some (⟨h.sw, 0x3A, h.hnt, d, a, b⟩, none)
  | .task h d a b => some (⟨h.sw, 0x3B, h.hnt, d, a, b⟩, none)
  | .cwaitTicket h a => some (⟨h.sw, 0x3C, h.hnt, 0, a, 0#7⟩, none)
  | .cwaitLocal h a => some (⟨h.sw, 0x3C, h.hnt, 0, a, 1#7⟩, none)
  | .cwaitGlobal h a => some (⟨h.sw, 0x3C, h.hnt, 0, a, 2#7⟩, none)
  | .rsnap h d a => some (⟨h.sw, 0x3D, h.hnt, d, a, 0#7⟩, none)
  | .trap h c => some (⟨h.sw, 0x3E, h.hnt, 0, 0, c⟩, none)
  | .rett h => some (⟨h.sw, 0x3F, h.hnt, 0, 0, 0#7⟩, none)
  | .rettSkip h => some (⟨h.sw, 0x3F, h.hnt, 0, 0, 1#7⟩, none)
  | .sysRd h d i => some (⟨h.sw, 0x40, h.hnt, d, 0, (0#1 ++ i : BitVec 7)⟩, none)
  | .sysWr h a i => some (⟨h.sw, 0x40, h.hnt, 0, a, (1#1 ++ i : BitVec 7)⟩, none)
  | .mark h a c => some (⟨h.sw, 0x41, h.hnt, 0, a, c⟩, none)
  | .brk h c => some (⟨h.sw, 0x42, h.hnt, 0, 0, c⟩, none)
  | .ptnT32 h => some (⟨h.sw, 0x43, h.hnt, 0, 0, 0#7⟩, none)
  | .ptnT16 h => some (⟨h.sw, 0x43, h.hnt, 0, 0, 1#7⟩, none)
  | .ptnT8 h => some (⟨h.sw, 0x43, h.hnt, 0, 0, 2#7⟩, none)
  | .ptnT4 h => some (⟨h.sw, 0x43, h.hnt, 0, 0, 3#7⟩, none)
  | .ptnT2 h => some (⟨h.sw, 0x43, h.hnt, 0, 0, 4#7⟩, none)
  | .ptnWhole h => some (⟨h.sw, 0x43, h.hnt, 0, 0, 5#7⟩, none)
  | .mctlLoad h d a => some (⟨h.sw, 0x44, h.hnt, d, a, 0#7⟩, none)
  | .mctlClear h a => some (⟨h.sw, 0x44, h.hnt, 0, a, 1#7⟩, none)
  | .mctlQuery h d a => some (⟨h.sw, 0x44, h.hnt, d, a, 2#7⟩, none)
  | .movi h d l => some (⟨h.sw, 0x60, h.hnt, d, 0, 0#7⟩, some l)
  | .iaddi h d a l => some (⟨h.sw, 0x61, h.hnt, d, a, 0#7⟩, some l)
  | .muli h d a l => some (⟨h.sw, 0x62, h.hnt, d, a, 0#7⟩, some l)
  | .andi h d a l => some (⟨h.sw, 0x63, h.hnt, d, a, 0#7⟩, some l)
  | .ori h d a l => some (⟨h.sw, 0x64, h.hnt, d, a, 0#7⟩, some l)
  | .xori h d a l => some (⟨h.sw, 0x65, h.hnt, d, a, 0#7⟩, some l)
  | .setfmt h l => some (⟨h.sw, 0x66, h.hnt, 0, 0, 0#7⟩, some l)
  | .setfmtReg h a => some (⟨h.sw, 0x66, h.hnt, 0, a, 1#7⟩, some 0)
  | .wbase h l => some (⟨h.sw, 0x67, h.hnt, 0, 0, 0#7⟩, some l)
  | .wbaseReg h a => some (⟨h.sw, 0x67, h.hnt, 0, a, 1#7⟩, some 0)
  | .mcall h d a b l => some (⟨h.sw, 0x68, h.hnt, d, a, b⟩, some l)
  | .bra h l => some (⟨h.sw, 0x69, h.hnt, 0, 0, 0#7⟩, some l)
  | .braNz h a l => some (⟨h.sw, 0x69, h.hnt, 0, a, 1#7⟩, some l)
  | .braZ h a l => some (⟨h.sw, 0x69, h.hnt, 0, a, 2#7⟩, some l)
  | .brd h a l => some (⟨h.sw, 0x6A, h.hnt, 0, a, 0#7⟩, some l)
  | .brdZ h a l => some (⟨h.sw, 0x6A, h.hnt, 0, a, 1#7⟩, some l)
  | .ssy h l => some (⟨h.sw, 0x6B, h.hnt, 0, 0, 0#7⟩, some l)
  | .call h l => some (⟨h.sw, 0x6C, h.hnt, 0, 0, 0#7⟩, some l)
  | .group h d a n4 l => some (⟨h.sw, 0x6D, h.hnt, d, a, (0#3 ++ n4 : BitVec 7)⟩, some l)
  | .join h d a n4 l => some (⟨h.sw, 0x6E, h.hnt, d, a, (0#3 ++ n4 : BitVec 7)⟩, some l)
  | .spawn h d a n3 l => some (⟨h.sw, 0x6F, h.hnt, d, a, (0#4 ++ n3 : BitVec 7)⟩, some l)
  | .ldg h d a b l => some (⟨h.sw, 0x70, h.hnt, d, a, b⟩, some l)
  | .stg h d a b l => some (⟨h.sw, 0x71, h.hnt, d, a, b⟩, some l)
  | .ldv h d a b l => some (⟨h.sw, 0x72, h.hnt, d, a, b⟩, some l)
  | .stv h d a b l => some (⟨h.sw, 0x73, h.hnt, d, a, b⟩, some l)
  | .atomAdd h d a xr l => some (⟨h.sw, 0x74, h.hnt, d, a, (xr ++ 0#4 : BitVec 7)⟩, some l)
  | .atomFadd h d a xr l => some (⟨h.sw, 0x74, h.hnt, d, a, (xr ++ 1#4 : BitVec 7)⟩, some l)
  | .atomMin h d a xr l => some (⟨h.sw, 0x74, h.hnt, d, a, (xr ++ 2#4 : BitVec 7)⟩, some l)
  | .atomMax h d a xr l => some (⟨h.sw, 0x74, h.hnt, d, a, (xr ++ 3#4 : BitVec 7)⟩, some l)
  | .atomUmin h d a xr l => some (⟨h.sw, 0x74, h.hnt, d, a, (xr ++ 4#4 : BitVec 7)⟩, some l)
  | .atomUmax h d a xr l => some (⟨h.sw, 0x74, h.hnt, d, a, (xr ++ 5#4 : BitVec 7)⟩, some l)
  | .atomAnd h d a xr l => some (⟨h.sw, 0x74, h.hnt, d, a, (xr ++ 6#4 : BitVec 7)⟩, some l)
  | .atomOr h d a xr l => some (⟨h.sw, 0x74, h.hnt, d, a, (xr ++ 7#4 : BitVec 7)⟩, some l)
  | .atomXor h d a xr l => some (⟨h.sw, 0x74, h.hnt, d, a, (xr ++ 8#4 : BitVec 7)⟩, some l)
  | .atomExch h d a xr l => some (⟨h.sw, 0x74, h.hnt, d, a, (xr ++ 9#4 : BitVec 7)⟩, some l)
  | .atomCas h d a xr l => some (⟨h.sw, 0x74, h.hnt, d, a, (xr ++ 10#4 : BitVec 7)⟩, some l)
  | .atomIncb h d a xr l => some (⟨h.sw, 0x74, h.hnt, d, a, (xr ++ 11#4 : BitVec 7)⟩, some l)
  | .atomSeal h d a xr l => some (⟨h.sw, 0x74, h.hnt, d, a, (xr ++ 12#4 : BitVec 7)⟩, some l)
  | .atomSnap h d a xr l => some (⟨h.sw, 0x74, h.hnt, d, a, (xr ++ 13#4 : BitVec 7)⟩, some l)
  | .waddrWait h d a xr l => some (⟨h.sw, 0x75, h.hnt, d, a, (xr ++ 0#4 : BitVec 7)⟩, some l)
  | .waddrWake h d a xr l => some (⟨h.sw, 0x75, h.hnt, d, a, (xr ++ 1#4 : BitVec 7)⟩, some l)
  | .waddrWakeall h d a xr l => some (⟨h.sw, 0x75, h.hnt, d, a, (xr ++ 2#4 : BitVec 7)⟩, some l)
  | .sfill h d a b l => some (⟨h.sw, 0x76, h.hnt, d, a, b⟩, some l)
  | .scopy h d a b l => some (⟨h.sw, 0x77, h.hnt, d, a, b⟩, some l)
  | .mloop h d a b l => some (⟨h.sw, 0x78, h.hnt, d, a, b⟩, some l)
  | .bal h d a b l => some (⟨h.sw, 0x79, h.hnt, d, a, b⟩, some l)
  | .cpost h d a b l => some (⟨h.sw, 0x7A, h.hnt, d, a, b⟩, some l)
  | .xpose h d a b l => some (⟨h.sw, 0x7B, h.hnt, d, a, b⟩, some l)
  | .reservedOpcode w => some (fieldsOf w, if hasLiteral w then some 0 else none)
  | .reservedSubOperation w => some (fieldsOf w, if hasLiteral w then some 0 else none)
  | .exitRetire => none
  | .fenceDrainEnd => none
  | .expectClear => none
  | .wbarPhaseEnd => none
  | .wbarBlockSave => none
  | .wbarBlockRestore => none
  | .tstatWrite => none
  | .mstatWrite => none
  | .cecountWrite => none
  | .ftmap => none
  | .hostreq => none
  | .jobctlResume => none
  | .jobctlAbandon => none
  | .ivhiInvalidatePage => none
  | .ivhiInvalidateAll => none
  | .mctlLoadCommit => none
  | .instructionFetch => none
  | .longResultLands => none
  | .storeAccepted => none
  | .sfuEntryStart => none
  | .teamPromoted => none
  | .trapEntry => none
  | .blockPlacement => none
  | .blockStart => none
  | .blockEnd => none
  | .gridEnd => none
  | .binLaunch => none
  | .binTimerExpiry => none
  | .vatStart => none
  | .vatComplete => none
  | .atomRequestEnqueue => none
  | .atomServiceApply => none
  | .vaultPortApply => none
  | .waitCompareRecord => none
  | .watchWriteWake => none
  | .watchTimeout => none
  | .spuriousWake => none
  | .wakeService => none
  | .promotionWriteback => none
  | .presenceSet => none
  | .walkComplete => none
  | .remotePackageLost => none
  | .linkSilenceLoss => none
  | .linkReplayLoss => none
  | .flitReplay => none
  | .idleFlit => none
  | .fabricLaneSwap => none
  | .timeBeacon => none
  | .timeBeaconReceive => none
  | .jobStart => none
  | .engineTransfer => none
  | .unsolicitedWriteRetry => none
  | .jobComplete => none
  | .engfault => none
  | .fillStart => none
  | .fillRowAppend => none
  | .fillComplete => none
  | .taskSchedulerRound => none
  | .taskLaunch => none
  | .taskComplete => none
  | .renameCopyback => none
  | .queuePopServe => none
  | .queuePushAccept => none
  | .gatewayPush => none
  | .operandRowDraw => none
  | .mloopStep => none
  | .mdrainExecute => none
  | .mdrainPortHandoff => none
  | .tpioExecute => none
  | .balExecute => none
  | .batchComplete => none
  | .sequencerAbandon => none
  | .sampleTick => none
  | .chunkAgeClose => none
  | .chunkRingWrite => none
  | .preciseStop => none
  | .hostCommandPush => none
  | .launch => none
  | .copyHostToDevice => none
  | .copyDeviceToHost => none
  | .copyDeviceToDevice => none
  | .mapContext => none
  | .mapPool => none
  | .mapQueue => none
  | .mapSplit => none
  | .mapGroups => none
  | .mapInval => none
  | .mapAnswer => none
  | .mapAdmit => none
  | .snapshotStart => none
  | .snapshotStop => none
  | .replay => none
  | .signalPreempt => none
  | .signalResume => none
  | .signalKill => none
  | .signalContinue => none
  | .attest => none
  | .illcmd => none
  | .collPostCollect => none
  | .collRequestGrant => none
  | .collRequestAged => none
  | .collGrantReceive => none
  | .collChunkRead => none
  | .collLocalComplete => none
  | .collGlobalComplete => none
  | .collErrorNotice => none
  | .collPartFault => none
  | .packageStart => none
  | .startFailureReport => none
  | .vaultScrub => none
  | .hbmScrub => none
  | .powerLoss => none
  | .collectiveDataTransfer => none

/-- The words of an instruction: one, or two with the literal; none for a step that no word encodes. -/
def encode (i : Instr) : List Word :=
  match encodeFields i with
  | some (f, some l) => [assemble f, l]
  | some (f, none) => [assemble f]
  | none => []

/-- The instruction of a list of words as `encode` gives it. -/
def decodeWords : List Word → Option Instr
  | [w] => some (decodeWord w 0#32)
  | [w, l] => some (decodeWord w l)
  | _ => none

end Sys2Proof
end

