-- ==== Sys2Proof/Machine/Bits.lean ====
section
/-!
DEFINITION. Bit fields, sign extension and byte order (R5, R27), lists of lanes of a mask (R154), and small list helpers.
-/

namespace Sys2Proof.Machine

/-- `x` taken as an `n`-bit two's-complement value (R27). -/
def sextInt (n x : Nat) : Int :=
  if x % 2 ^ n < 2 ^ (n - 1) then (x % 2 ^ n : Nat) else (x % 2 ^ n : Nat) - (2 ^ n : Nat)

/-- Bits `hi` down to `lo`. -/
def bitsOf (x hi lo : Nat) : Nat := x / 2 ^ lo % 2 ^ (hi + 1 - lo)

/-- 1 or 0. -/
def boolWord (b : Bool) : Word := if b then 1#32 else 0#32

/-- The word of a natural number. -/
abbrev w32 (n : Nat) : Word := BitVec.ofNat 32 n

/-- The word of an integer, modulo 2^32. -/
abbrev wInt (i : Int) : Word := BitVec.ofInt 32 i

/-- The natural number of a list of bytes, little-endian (R5). -/
def leNat : List Byte → Nat
  | [] => 0
  | b :: bs => b.toNat + 256 * leNat bs

/-- `n` bytes of a natural number, little-endian (R5). -/
def leBytes : Nat → Nat → List Byte
  | 0, _ => []
  | n + 1, x => BitVec.ofNat 8 x :: leBytes n (x / 256)

/-- `n` bytes of a natural number, big-endian (R431, R433). -/
def beBytes (n x : Nat) : List Byte := (leBytes n x).reverse

/-- The bit numbers of a 32-bit word that are 1, ascending from `k`. -/
def bitsFrom (w : Nat) : Nat → Nat → List Nat
  | 0, _ => []
  | fuel + 1, k => if w.testBit k then k :: bitsFrom w fuel (k + 1) else bitsFrom w fuel (k + 1)

/-- Word `g` of a mask (R154). -/
def maskWord (m : Mask) (g : Nat) : Nat := m.toNat / 2 ^ (32 * g) % 2 ^ 32

/-- The groups whose mask word is non-empty, ascending: the SUMMARY (R154). -/
def groupsOf (m : Mask) : List Nat := (List.range 32).filter fun g => maskWord m g != 0

/-- The lanes of a mask in ascending order; empty words take no time (R154, R156). -/
def lanesOf (m : Mask) : List Nat :=
  (groupsOf m).flatMap fun g => (bitsFrom (maskWord m g) 32 0).map (32 * g + ·)

/-- The mask of one lane. -/
def laneBit (l : Nat) : Mask := BitVec.ofNat 1024 (2 ^ l)

/-- The mask of a list of lanes. -/
def maskOf (ls : List Nat) : Mask := ls.foldl (fun m l => m ||| laneBit l) 0

/-- Lanes 0 to n − 1. -/
def maskBelow (n : Nat) : Mask := BitVec.ofNat 1024 (2 ^ n - 1)

/-- Number of ones of a natural number below 2^fuel. -/
def popcount (x : Nat) : Nat → Nat
  | 0 => 0
  | fuel + 1 => (if x.testBit fuel then 1 else 0) + popcount x fuel

/-- The number of lanes of a mask. -/
def maskCount (m : Mask) : Nat := ((groupsOf m).map fun g => popcount (maskWord m g) 32).foldl (· + ·) 0

/-- Ceiling of a quotient. -/
def ceilDiv (a b : Nat) : Nat := (a + b - 1) / b

/-- Insertion into a list sorted by `le`, after the elements that are not greater. -/
def insertBy {α : Type} (le : α → α → Bool) (x : α) : List α → List α
  | [] => [x]
  | y :: ys => if le y x then y :: insertBy le x ys else x :: y :: ys

/-- A stable sort by `le`. -/
def sortBy {α : Type} (le : α → α → Bool) (l : List α) : List α := l.foldl (fun acc x => insertBy le x acc) []

/-- The first `n` bytes of a list, padded with 0 up to `n`. -/
def padTo (n : Nat) (l : List Byte) : List Byte := l.take n ++ List.replicate (n - l.length) 0

/-- Bytes `off` to `off + n − 1` of a list as a natural number; missing bytes read 0. -/
def fieldAt (l : List Byte) (off n : Nat) : Nat := leNat ((l.drop off).take n)

/-- A bit of a natural number as a Bool. -/
abbrev bitAt (x k : Nat) : Bool := x.testBit k

/-- One bit of a reflected CRC of the given polynomial. -/
def crcBits (poly : Nat) : Nat → Nat → Nat
  | 0, c => c
  | n + 1, c => crcBits poly n (if c % 2 = 1 then (c / 2) ^^^ poly else c / 2)

/-- The register of a reflected CRC after a list of bytes. -/
def crcBytes (poly : Nat) : List Byte → Nat → Nat
  | [], c => c
  | b :: bs, c => crcBytes poly bs (crcBits poly 8 (c ^^^ b.toNat))

/-- CRC-64/XZ (R378). -/
def crc64 (bs : List Byte) : DWord := BitVec.ofNat 64 (crcBytes 0xC96C5795D7870F42 bs (2 ^ 64 - 1) ^^^ (2 ^ 64 - 1))

/-- CRC-32C (R428). -/
def crc32c (bs : List Byte) : Word := BitVec.ofNat 32 (crcBytes 0x82F63B78 bs (2 ^ 32 - 1) ^^^ (2 ^ 32 - 1))

end Sys2Proof.Machine
end

