-- ==== Sys2Proof/Config.lean ====
section
/-!
DEFINITION. What is fixed for one machine, and the free values: constants without a body, of which nothing can be proved.
-/

namespace Sys2Proof.Config

/-- A value that the spec leaves undefined; the argument is the number of the draw (State.fresh), so that every draw is its
own value. Log entry 1. -/
opaque freeWord : Nat → Word

/-- An undefined choice between yes and no. Log entry 1. -/
opaque freeBool : Nat → Bool

/-- The package index PA[55:42] of the modelled package (R244, R383). Log entry 9. -/
def packageIndex : Nat := 0

/-- The endpoint id of the root switch of the system (R395). Log entry 9. -/
def rootEndpoint : Nat := 32768

/-- The package of a member of a group, by group id and member index: the member lists that the switches hold (R393). Log entry 20. -/
opaque memberPackage : Nat → Nat → Nat

/-- The hash of a destination endpoint by which an I/O die spreads its traffic over its live ports (R382). Log entry 20. -/
opaque portHash : Nat → Nat

/-- The known path delay, in ac, of a time beacon from the root (R386). Log entry 9. -/
opaque beaconDelay : Nat

/-- For how many ac an entry of the reconvergence stack moves between the hardware and the vault (R114). Log entry 11. -/
opaque entryMoveAcs : Nat

/-- Quoril's public P-384 key, which is fused in the package (R432). Log entry 8. -/
opaque vendorKey : Nat × Nat

/-- The fused LMS public key (R432): its identifier and its root, by byte. Log entry 8. -/
opaque lmsIdentifier : Nat → Byte
opaque lmsRootByte : Nat → Byte

/-- The private identity key that the package generates at its first start (R433). Log entry 8. -/
opaque identitySecret : Nat

/-- The endpoint to which the package reports that it is ready (R427). Log entry 51. -/
opaque readyEndpoint : Nat

end Sys2Proof.Config
end

