-- ==== Sys2Proof/Machine/State.lean ====
section
/-!
DEFINITION. The state of the machine as plain data: one package with its teams, blocks, cores, engines, tables and memory, and the
bookkeeping of the parties outside its ports that rows of the opcode table act for. Every field cites the rule that names it.
-/

namespace Sys2Proof.Machine

/-- No step of this machine ends in a fault of the model: every condition the spec describes is a trap, a report or a fault record of
an engine, and each is a next state. The type has no constructor, so nothing raises it; that is safe. -/
inductive Fault where
deriving DecidableEq, Repr

/-- Why a step has no meaning. -/
inductive Refusal where
  /-- Raised by an arm of exec whose instruction has no meaning yet; the machine stops where the hardware goes on, which is safe. -/
  | notModelled (mnemonic : String)
deriving DecidableEq, Repr

/-- A table from keys to values, keys strictly rising; a key that is not listed has the value its reader names. -/
abbrev Sparse (α : Type) := List (Nat × α)

/-! ### Teams -/

/-- A translation register (R238). -/
structure TReg where
  v : Bool := false
  r : Bool := false
  w : Bool := false
  ncm : Bool := false
  frame : BitVec 44 := 0
  psz : BitVec 2 := 0
  base : VAddr := 0
deriving DecidableEq, Repr, Inhabited

/-- An entry of the reconvergence stack (R114). -/
structure REntry where
  pending : Bool
  pc : VAddr
  mask : Mask
  fmt : Word
deriving DecidableEq, Repr

/-- A control word of the writable control store (R111). -/
structure CWord where
  word : Word := 0
  sl : Bool := false
  sb : Bool := false
  sa : Bool := false
  sd : Bool := false
deriving DecidableEq, Repr, Inhabited

/-- The position of an MCALL expansion (R113): the entry's words as they stood at the call, the index of the next control word,
the parameters and the S marker of the MCALL, its PC, and where a POP inside the expansion sends the team once that ends (R218). -/
structure MCall where
  words : List CWord
  idx : Nat
  d : RegF
  a : RegF
  b : RegF
  p : BitVec 24
  sw : Bool
  pc : VAddr := 0
  ret : Option VAddr := none
deriving DecidableEq, Repr

/-- Where the team goes on after an expansion: past the MCALL, or where a POP inside it led (R113, R115, log entry 66). -/
def MCall.after (m : MCall) : VAddr := m.ret.getD (m.pc + 8)

/-- What one lane's access met (R346). `level` is the table level of the entry that ended the walk (R356). -/
structure LaneFault where
  cause : Nat
  faddr : DWord := 0
  lsub : Nat := 0
  ptype : Nat := 0
  kind : Nat := 0
  level : Nat := 0
deriving DecidableEq, Repr

/-- An access of a team to another package that is in flight (R245): the address of its instruction, the position of an expansion in
progress then, and for each lane the package and what the lane meets when that package is lost. -/
structure FarAccess where
  pc : VAddr
  back : Option MCall := none
  lanes : List (Nat × Nat × LaneFault)
deriving DecidableEq, Repr

/-- A partial re-execution by RETT (R351): the mask to restore and TNEXT; whether execution leaves an expansion for TNEXT, and the position
of an expansion that it goes back to. -/
structure Reexec where
  mask : Mask
  next : VAddr
  direct : Bool := false
  back : Option MCall := none
deriving DecidableEq, Repr

/-- A trap that the team is to enter once it has drained (R344). -/
structure TrapReq where
  cause : Nat
  sub : Nat := 0
  lanes : List (Nat × LaneFault) := []
  mask : Mask
  saved : Mask
  tpc : VAddr
  tnext : VAddr
  event : Bool := false
  /-- An event taken at an instruction boundary, rather than raised by an instruction (R353). -/
  boundary : Bool := false
  tjob : Word := 0
  tfaddr : DWord := 0
  collpart : Bool := false
  /-- The die whose job number TJOB gives. -/
  jobDie : Nat := 0
  /-- For a trap of an access in flight (R245): the position of the expansion that issued it. -/
  late : Option (Option MCall) := none
deriving DecidableEq, Repr

/-- The trap state of a team with a handler (R343, R344, R348). -/
structure TrapState where
  tpc : VAddr := 0
  tnext : VAddr := 0
  active : Mask := 0
  fmt : Word := 0
  wbase : Nat := 0
  cdepth : Nat := 0
  rdepth : Nat := 0
  tcause : Word := 0
  tjob : Word := 0
  tfaddr : DWord := 0
  entry : Mask := 0
  lanes : List (Nat × LaneFault) := []
  failed : Mask := 0
  ivlo : Word := 0
  event : Bool := false
  boundary : Bool := false
  wroteTpc : Bool := false
  wroteTnext : Bool := false
  mcall : Option MCall := none
  /-- What a boundary event leaves for after its RETT: a partial re-execution still to come. -/
  reexec : Option Reexec := none
  oldFailed : Mask := 0
  oldFailFetch : Bool := false
  jobDie : Nat := 0
  jobctl : Bool := false
  /-- A trap of an access in flight (R245), and the position of an expansion that the team had reached. -/
  late : Bool := false
  back : Option MCall := none
deriving DecidableEq, Repr

/-- An event waiting to be taken at an instruction boundary (R353). -/
inductive TeamEvent where
  /-- A precise stop (R377). -/
  | stop
  /-- An engine fault (R313): the ac of its raising, the die, the job number, the sub-cause and the transfer's address. -/
  | engfault (ac die : Nat) (num : Word) (sub : Nat) (addr : DWord)
  /-- A fault of a part of a collective (R398): the ac of its raising, the handle, the sub-cause and the address. -/
  | collfault (ac : Nat) (handle : Word) (sub : Nat) (addr : DWord)
  /-- The loss of a package that an access in flight names (R245). -/
  | remote (acc : FarAccess)
deriving DecidableEq, Repr

/-- A register write of a result that is outstanding: the lane, the register's code and the value. -/
structure RegWrite where
  lane : Nat
  reg : Nat
  val : Word
deriving DecidableEq, Repr

/-- An outstanding long result (R20): the producer's PC, the codes of the registers pending, whether they share one entry, the
writes, the translation register write of TXB, how many replies are missing and the ac at which it may land; whether it is a memory
access, and the scope of an acquire that completes when it lands (R275). -/
structure Pend where
  tag : Nat
  pc : VAddr
  regs : List Nat
  shared : Bool := false
  writes : List RegWrite := []
  tw : Option (Nat × TReg) := none
  missing : Nat := 0
  due : Nat := 0
  /-- The ac at which the model's own order of due steps takes it: the typical latency (R222), which binds nothing (log entry 1). -/
  usual : Nat := 0
  mem : Bool := false
  acq : Option Nat := none
  /-- Whether it holds a service credit of the block (R253). -/
  credit : Bool := false
  /-- Bits that its landing sets in TSTAT (R211, R212). -/
  tstat : Word := 0
  far : Option FarAccess := none
deriving DecidableEq, Repr

/-- A store or no-return atomic not yet accepted (R21): how many requests its owner has still to apply, and whether it is an STV or
ATOM.VLT (R261), the ac before which it is not accepted, whether it holds a service credit (R253), and its lanes (R122). -/
structure Token where
  tag : Nat
  left : Nat := 0
  vault : Bool := false
  due : Nat := 0
  /-- As in `Pend`. -/
  usual : Nat := 0
  credit : Bool := false
  lanes : Mask := BitVec.allOnes 1024
  far : Option FarAccess := none
deriving DecidableEq, Repr

/-- Why a team is parked (R176); the stall code of R368 follows from it. -/
inductive Park where
  /-- Not parked. -/
  | run
  /-- Its block's start (R173). -/
  | start
  /-- After an S marker (R21). -/
  | marker
  /-- EXIT's wait (R122). -/
  | exit
  /-- MCTL.LOAD before its write (R112). -/
  | mctl
  /-- The wait of trap entry (R344). -/
  | trap
  /-- FENCE (R260). -/
  | fence (kind scope : Nat)
  /-- EXPECT's wait, with its range in the core's vault (R261). -/
  | expect (off bytes : Nat)
  /-- WBAR before parking (R267). -/
  | wbarDrain (w : Nat)
  /-- WBAR (R267). -/
  | wbar (w : Nat)
  /-- A clear presence bit (R226). -/
  | absent (core line : Nat)
  /-- BAR.WAIT (R266). -/
  | bar (w : Nat) (phase : Bool)
  /-- WADDR.WAIT, from its request to the decision or the wake (R256). -/
  | watch
  /-- A blocking QOP or a TASK on a full queue (R306, R312). -/
  | queue (q : Nat)
  /-- MWAIT (R328). -/
  | mwait (b : Nat)
  /-- BATON.TAKE (R318). -/
  | baton
  /-- CWAIT (R401). -/
  | cwait (cond : Nat) (handle : Word)
  /-- A Vat instruction, from issue to completion (R199). -/
  | vat
  /-- FTMAP, with the register of its counts (R355). -/
  | ftmap (reg : Nat)
  /-- HOSTREQ, with its register, the requests still to be sent (page, level, kind) and the lanes refused so far (R356). -/
  | hostreq (reg : Nat) (todo : List (Nat × Nat × Nat)) (refused : Mask)
  /-- An invalidation by IVHI: of all translations, or of the page of a VA (R348). -/
  | inval (all : Bool) (va : Nat)
  /-- Held by a precise stop (R375). -/
  | held
deriving DecidableEq, Repr

/-- The trace state of a team slot (R364, R365, R370 to R372). -/
structure TeamTrace where
  chunk : List Byte := []
  opened : Nat := 0
  seq : Nat := 0
  outcomes : List Bool := []
  last : Nat := 0
  lastSync : Nat := 0
  count : Nat := 0
  lost : Nat := 0
  dropping : Bool := false
  /-- Packets of the staging chunk that count when it is dropped (R365, R381). -/
  inChunk : Nat := 0
deriving DecidableEq, Repr

/-- The result of a page walk, which the accesses that joined it receive (R236, R242). `page` is VA[56:12]; `psz` is the level of the
leaf, `ptype` and `level` those of the entry that ended a walk without a page. -/
structure WalkRes where
  page : Nat
  ok : Bool := false
  frame : Nat := 0
  psz : Nat := 0
  r : Bool := false
  w : Bool := false
  x : Bool := false
  ncm : Bool := false
  ptype : Nat := 0
  level : Nat := 0
  /-- LSUB of an uncorrectable error in an entry that the walk read (R424); 0 for none. -/
  ecc : Nat := 0
  /-- Whether an entry lay in a package that is lost (R245). -/
  gone : Bool := false
deriving DecidableEq, Repr

/-- A walk in progress on a die (R242): its context, VA page and the teams that wait for it. -/
structure Walk where
  ctx : Nat
  page : Nat
  tids : List Nat
deriving DecidableEq, Repr

/-- A team (R10, R153, R343). Register codes: physical register r of a lane is r; scalar n is 512 + n; shadow n is 544 + n;
translation register n is 560 + n. -/
structure Team where
  /-- The team id of R364: core, scheduler, slot. -/
  tid : Nat := 0
  /-- Whether a team holds this slot. -/
  present : Bool := false
  /-- The key of its block. -/
  blk : Nat := 0
  role : Nat := 0
  lanes : Nat := 0
  nregs : Nat := 0
  /-- The launch record's HANDLER when CTRL.HANDLER is set (R343). -/
  handler : Option VAddr := none
  /-- The launch record's CTRL.TRACE. -/
  traced : Bool := false
  /-- Vector registers, key lane × 512 + physical register; 0 when not listed. -/
  v : Sparse Word := []
  /-- Dead vector registers, same key; live when not listed. -/
  vdead : Sparse Bool := []
  /-- Positions whose registers a renumbering left undefined (R200). -/
  vundef : Mask := 0
  /-- Registers that hold an uncorrectable error (R424), by the keys of `regKey`. -/
  rbad : List Nat := []
  s : Vector Word 24 := Vector.replicate 24 0
  sdead : BitVec 24 := 0
  shadow : Vector Word 8 := Vector.replicate 8 0
  shdead : BitVec 8 := 0
  x : Vector TReg 8 := Vector.replicate 8 {}
  wbase : Nat := 0
  fmt : Word := 0
  tstat : Word := 0
  ptile : BitVec 3 := 0
  pc : VAddr := 0
  live : Mask := 0
  active : Mask := 0
  /-- Return addresses, the newest first (R15). -/
  cstack : List VAddr := []
  /-- Reconvergence entries, the top first (R114). -/
  rstack : List REntry := []
  /-- The ac until which an entry of that stack moves between the hardware and the vault's system area (R114). -/
  rmove : Nat := 0
  barPend : BitVec 64 := 0
  barPhase : BitVec 64 := 0
  /-- Retired-work count (R376). -/
  rwc : BitVec 64 := 0
  hmode : Bool := false
  trap : TrapState := {}
  trapReq : Option TrapReq := none
  events : List TeamEvent := []
  mcall : Option MCall := none
  /-- A partial re-execution by RETT in progress (R351). -/
  reexec : Option Reexec := none
  /-- Lanes that HOSTREQ marked failed, during the re-execution (R351); and whether their fault was one of fetch. -/
  failed : Mask := 0
  failFetch : Bool := false
  pend : List Pend := []
  stores : List Token := []
  park : Park := .run
  /-- What a WADDR.WAIT on which the team is parked meets when the package of its word is lost (R245) or the word is found uncorrectable (R424). -/
  farWait : Option FarAccess := none
  /-- The line of a vault on which it was parked with ABSENT before its last wake, for BLAME (R369). -/
  woke : Option (Nat × Nat) := none
  /-- A parked instruction carried the S marker, whose wait follows the park (R21). -/
  swDue : Bool := false
  /-- The stall code of a team that could not issue when it was last chosen (R176, R368); 0 when it could. -/
  stall : Nat := 0
  /-- Results of walks that the instruction at issue joined (R242), held until it issues. -/
  walked : List WalkRes := []
  /-- The instruction fetched and not yet issued: its word and literal (R53). -/
  ir : Option (Word × Word) := none
  /-- Placement order: age for R177. -/
  age : Nat := 0
  lastIssue : Nat := 0
  promoted : Bool := false
  /-- The ac before which it does not issue: after a wake (R176) and after handler entry (R344). -/
  readyAt : Nat := 0
  tr : TeamTrace := {}
deriving DecidableEq, Repr

/-! ### Blocks, bins, grids, contexts -/

/-- What a block was placed for. -/
inductive BlockKind where
  /-- A block of a grid, with its linear index. -/
  | grid
  /-- A bin-launched block (R175). -/
  | bin
  /-- A task block (R307), with the key of its job. -/
  | task (job : Nat)
deriving DecidableEq, Repr

/-- How far a block is (R160, R173, R269). -/
inductive BlockPhase where
  | starting | running | saved | ended
deriving DecidableEq, Repr

/-- A block (R152, R170, R173). -/
structure Block where
  kind : BlockKind := .grid
  phase : BlockPhase := .ended
  grid : Nat := 0
  lin : Nat := 0
  /-- The linear index of member 0 of its bond, and the bond's size (R161). -/
  bond0 : Nat := 0
  bondSize : Nat := 1
  member : Nat := 0
  core : Nat := 0
  voff : Nat := 0
  vbytes : Nat := 0
  /-- Whether the region is held: from placement to its freeing (R160, R402). -/
  vheld : Bool := false
  matuse : Bool := false
  barriers : Nat := 0
  /-- Barrier words (R264), by index; 0 when not listed. -/
  barw : Sparse Word := []
  /-- Relation descriptors (R201); none: every descriptor is invalid. -/
  rel : Option (List (BitVec 128)) := none
  /-- Control words (R110), by index. -/
  cstore : Sparse CWord := []
  /-- Entry table (R110): start and length. -/
  centry : Sparse (Nat × Nat) := []
  /-- An MCTL.LOAD that waits for the MCALL expansions in progress (R112): team, start, words, entry. -/
  cload : Option (Nat × Nat × List CWord × Nat) := none
  /-- Service credits (R253): reserved and in use. -/
  svcq : Nat := 0
  credits : Nat := 0
  /-- Stores and no-return atomics of teams that have ended which are not yet accepted (R160). -/
  tokens : List Token := []
  placedAt : Nat := 0
  startAt : Nat := 0
  aborted : Bool := false
  /-- The bound chunk of an ended block that waits for its ticket (R402). -/
  chunkWait : Bool := false
deriving DecidableEq, Repr

/-- A block saved at a wide barrier (R269): its key, the block and its teams, the barrier, and the bytes of its record in the save area (R361). A
member of a saved bond that had ended has no team. -/
structure SavedBlock where
  key : Nat
  block : Block
  teams : List Team
  wbar : Nat
  record : List Byte
deriving DecidableEq, Repr

/-- A role entry of a launch record (R166). -/
structure Role where
  entry : VAddr := 0
  lanes : Nat := 0
  regs : Nat := 0
  fmt : Word := 0
deriving DecidableEq, Repr, Inhabited

/-- A bin entry of a launch record (R167). -/
structure BinEntry where
  entry : VAddr := 0
  ring : DWord := 0
  index : Nat := 0
  blanes : Nat := 0
  timer : Nat := 0
  ringlog : Nat := 0
deriving DecidableEq, Repr, Inhabited

/-- A launch record (R164, R165). -/
structure LaunchRec where
  ctrl : Word := 0
  gx : Nat := 0
  gy : Nat := 0
  gz : Nat := 0
  bond : Nat := 0
  barriers : Nat := 0
  wbars : Nat := 0
  mbatch : Nat := 0
  svcq : Nat := 0
  collent : Nat := 0
  vbytes : Nat := 0
  vimgsec : Nat := 0
  nbins : Nat := 0
  reloff : DWord := 0
  handler : DWord := 0
  tracebuf : DWord := 0
  tracebytes : Nat := 0
  cboff : Nat := 0
  cbcoll : DWord := 0
  cbchunk : Nat := 0
  roles : List Role := []
  bins : List BinEntry := []
deriving DecidableEq, Repr, Inhabited

/-- A grid (R152, R162, R354, R390). -/
structure Grid where
  ctx : Nat := 0
  launch : LaunchRec := {}
  /-- Physical addresses of the device copies of RELATIONS and VAULT, and the bytes of the vault image (R390). -/
  relPa : Nat := 0
  vaultPa : Nat := 0
  imgBytes : Nat := 0
  /-- Lowest linear index not yet placed (R171). -/
  nextBlk : Nat := 0
  doneBlks : Nat := 0
  started : Bool := false
  ended : Bool := false
  /-- Saved blocks (R269) that still wait at their barrier, then those to be restored (R270). -/
  saved : List SavedBlock := []
  restore : List SavedBlock := []
  /-- Grid status record, 16 bytes (R354): flags, first cause, aborted blocks, first aborted block. -/
  stFlags : Nat := 0
  fcause : Nat := 0
  nabort : Nat := 0
  fblk : Nat := 0
  /-- The packet of the LAUNCH command that launched it (R389, R391), and its host-command queue; 4096 more for one that a REPLAY runs. -/
  pkt : Packet := 0
  queue : Nat := 0
  /-- The handle of the bound collective (R402). -/
  bound : Option Nat := none
deriving DecidableEq, Repr

/-- A context (R234, R355, R356, R358, R390, R393). -/
structure Ctx where
  valid : Bool := false
  root : Nat := 0
  reqAddr : DWord := 0
  reqEp : Nat := 0
  /-- Frames of the pool (R355): 4 KiB and 64 KiB physical addresses. -/
  pool4 : List Nat := []
  pool64 : List Nat := []
  /-- Group table (R393), by group id. -/
  groups : Sparse DWord := []
  preempted : Bool := false
  /-- The PREEMPTs whose SAVED report is owed (R358, R391). -/
  savePkts : List Packet := []
  killed : Bool := false
  /-- The KILLs in progress: packets and queues (R360, R390). -/
  killPkts : List (Packet × Nat) := []
deriving DecidableEq, Repr

/-- A page-request entry (R356). -/
structure PageReq where
  seq : Nat
  ctx : Nat
  va : Nat
  level : Nat
  kind : Nat
  tid : Nat
deriving DecidableEq, Repr

/-! ### Cores -/

/-- A line of the core cache (R228): its physical address divided by 128, the bytes, which are held and which are written. -/
structure CLine where
  tag : Nat
  data : BitVec 1024 := 0
  valid : BitVec 128 := 0
  written : BitVec 128 := 0
  /-- Bytes of words that hold an uncorrectable error (R424). -/
  bad : BitVec 128 := 0
deriving DecidableEq, Repr

/-- A TLB entry (R241). The entries of a core stand in order of use, the latest first. -/
structure TlbEntry where
  ctx : Nat
  page : Nat
  psz : Nat
  frame : Nat
  r : Bool
  w : Bool
  x : Bool
  ncm : Bool
deriving DecidableEq, Repr

/-- A request to an owner of atomics (R252): an atomic, a watch or a wake. -/
inductive ReqOp where
  /-- The sub-operation code of ATOM, its operands, ORD and SCOPE. -/
  | atom (sub : Nat) (d d1 : Word) (ord scope : Nat)
  /-- WADDR.WAIT: the expected value and the timeout. -/
  | wait (d t : Word)
  /-- WADDR.WAKE. -/
  | wake
  /-- WADDR.WAKEALL. -/
  | wakeall
deriving DecidableEq, Repr

/-- One request (R252 to R254). The address is the byte key of the word in memory. -/
structure Req where
  pkg : Nat := 0
  tid : Nat
  lane : Nat := 0
  addr : Nat
  op : ReqOp
  /-- The pending-write entry to write and its register code, or the token to reduce. -/
  tag : Nat
  reg : Option Nat := none
  /-- The physical address, which names the owner (R251). -/
  pa : Nat := 0
  /-- The block whose credit a WADDR's request holds, when it holds one (R253). -/
  credit : Option Nat := none
  /-- Whether its read of the word returns an undefined value: the word lies in a ring slice of a running grid (R214). -/
  slice : Bool := false
  /-- A WAKE's access to another package, for as long as it is in flight (R245). -/
  far : Option FarAccess := none
  /-- The ac at which it reaches the owner; once enqueued, the ac of that (R252). -/
  arr : Nat := 0
deriving DecidableEq, Repr

/-- A watch (R256). -/
structure Watch where
  addr : Nat
  tid : Nat
  parkAc : Nat
  timeout : Nat
deriving DecidableEq, Repr

/-- A Vat instruction (R198, R206, R217, R218): its team, the ac of its issue, of its earliest start and, once it runs, of its
completion, and the renumbering that it will apply. -/
structure VatJob where
  tid : Nat
  issued : Nat := 0
  start : Nat := 0
  done : Nat := 0
  /-- New position of each lane that stays live. -/
  moves : List (Nat × Nat)
  /-- Register writes at the old positions, made as part of the step. -/
  writes : List RegWrite := []
  /-- Counts to add to the routing counters (R217). -/
  route : List (Nat × Nat) := []
  dense : Bool := false
  /-- The ac from its start to its completion (R219). -/
  cost : Nat := 0
deriving DecidableEq, Repr

/-- A SPAWN or JOIN that delivers its threads to a bin (R211 to R213): its team and the tag of its result, the ac of its issue, whether it is
a JOIN, the members still to be considered with their threads, and the ac from which the next is considered. -/
structure Delivery where
  tid : Nat
  tag : Nat
  issued : Nat
  join : Bool
  todo : List (Nat × List (List Word))
  code : Nat
  stop : Bool := false
  next : Nat := 0
deriving DecidableEq, Repr

/-- A bin of a grid on a core (R174), and the spawning instructions that it serves, one after the other (R213). -/
structure Bin where
  grid : Nat
  be : BinEntry
  regs : Nat
  fifo : List (List Word) := []
  timer : Option Nat := none
  spawns : List Delivery := []
deriving DecidableEq, Repr

/-- A stream fill (R295, R296). -/
structure Fill where
  job : Nat
  desc : Nat
  rst : Bool
  n : Nat
  started : Bool := false
  cursor : Nat := 0
  base : Nat := 0
  rstride : Int := 0
  stepinc : Int := 0
  rows : Nat := 0
  rowbytes : Nat := 0
  wrap : Nat := 0
  wcount : Nat := 0
  flags : Nat := 0
  step : Nat := 0
  row : Nat := 0
deriving DecidableEq, Repr

/-- An accumulator slot (R315, R333): the values by key 64 i + j; a value not listed is 0, or the free value of the base plus the key. -/
structure AccSlot where
  vals : Sparse Word := []
  undef : Option Nat := none
  mode : Bool := false
  afmt : Bool := false
  m : Nat := 0
  n : Nat := 0
  tm : Nat := 0
  tn : Nat := 0
  k : Sparse Word := []
  f : Sparse Word := []
  g : Sparse Word := []
  rowm : Sparse Word := []
  colm : Sparse Word := []
deriving DecidableEq, Repr

/-- What a matrix member does (R319). -/
inductive MemberOp where
  /-- MLOOP (R321): steps, rows, columns, whether to zero, and the format register. -/
  | mloop (count mr nc : Nat) (z : Bool) (fmt : Word)
  /-- MDRAIN to the vault (R330): offset, stride, BF16 or FP32, zero, whether the elements are INT32 (AFMT), SAT. -/
  | drainV (a d : Nat) (bf z int : Bool) (sat : Nat)
  /-- MDRAIN.REG (R331): count, bases, active lanes and the pending tag. -/
  | drainReg (n r0 c0 : Nat) (active : Mask) (tag : Nat)
  /-- MDRAIN.PORT (R332): the handle, element offset, zero. -/
  | drainPort (handle : Word) (d : Nat) (z : Bool)
  | ldk (a d : Nat)
  | lda (a : Nat)
  | ldb (a : Nat)
  | stp (a d : Nat) (bf : Bool)
  | stf (a : Nat)
  /-- TPIO.COST (R336): ε and the pending tag. -/
  | cost (eps : Word) (tag : Nat)
  | size (m n : Nat)
  /-- BAL (R338): limit, tolerance and the pending tag. -/
  | bal (limit : Nat) (tol : Word) (tag : Nat)
deriving DecidableEq, Repr

/-- A member in the queue (R315, R319, R320): its batch, slot and team. -/
structure Member where
  batch : Nat
  slot : Nat
  tid : Nat
  op : MemberOp
  /-- Its PC, and the number of jobs submitted before it, which order it among submissions (R369). -/
  pc : VAddr := 0
  order : Nat := 0
  /-- Steps done of an MLOOP. -/
  done : Nat := 0
  /-- Of each row, one more than the position of the last valid element of its group in progress, 0 for none (R50). -/
  carry : List Nat := []
  /-- MSTAT bits that it sets when it completes (R316). -/
  flags : Word := 0
  /-- Whether the step or the work in progress has started, and the ac at which it ends, or before which it does not start. -/
  started : Bool := false
  due : Nat := 0
deriving DecidableEq, Repr

/-- Rows that the sequencer has drawn for the member it executes: one list per stream, oldest first (R323, R326). -/
structure OperandBufs where
  inA : List Byte := []
  inB : List Byte := []
  scA : List Byte := []
  scB : List Byte := []
deriving DecidableEq, Repr

/-- The matrix engine of a core (R315). -/
structure Matrix where
  owner : Option Nat := none
  acc : Vector AccSlot 4 := Vector.replicate 4 {}
  trowel : Option Nat := none
  takers : List Nat := []
  counter : Nat := 0
  isOpen : Bool := false
  /-- Outstanding closed batches, oldest first (R319, R320). -/
  batches : List Nat := []
  queue : List Member := []
  mstat : Word := 0
  bufs : OperandBufs := {}
  /-- Row counts drawn of each stream for the member. -/
  drawn : Vector Nat 4 := Vector.replicate 4 0
deriving DecidableEq, Repr

/-- An entry of an SFU queue (R142): its team, the tag of its result, its non-empty groups and the ac at which the unit started it. -/
structure SfuEntry where
  tid : Nat
  tag : Nat
  groups : Nat
  start : Option Nat := none
deriving DecidableEq, Repr

/-- The sample staging chunk of a scheduler (R365, R366): the grid it is for, its opening ac, its records, and whether it is closed and
waits for the outbound queue. -/
structure SampleChunk where
  grid : Nat := 0
  opened : Nat := 0
  body : List Byte := []
  closed : Bool := false
deriving DecidableEq, Repr

/-- A core (R223 to R228, R241, R252, R198, R174, R294, R315, R415). Its vault bytes stand in the package's memory. -/
structure Core where
  /-- Lines of the user area whose presence bit is clear (R226), rising. -/
  absent : List Nat := []
  /-- Lines whose last byte of an engine, aperture or remote write has arrived and whose bit is to be set (R226). -/
  arrived : List Nat := []
  /-- Lines whose bit a write has set, with the ac of that, while it is the present one (R227). -/
  setNow : List (Nat × Nat) := []
  /-- Cache lines by set × 8 + way, and the pseudo-LRU bits by set (R228). -/
  lines : Sparse CLine := []
  plru : Sparse (BitVec 7) := []
  tlb : List TlbEntry := []
  /-- Routing counters (R415), by index; 0 when not listed; and the context of the last block placed. -/
  route : Sparse Word := []
  routeCtx : Option Nat := none
  vat : Option VatJob := none
  vatq : List VatJob := []
  /-- The ac from which the Vat is free (R198). -/
  vatFree : Nat := 0
  /-- SFU queues of the four schedulers (R142), issue order. -/
  sfu : Vector (List SfuEntry) 4 := Vector.replicate 4 []
  vport : List Req := []
  vportNext : Nat := 0
  vwatch : List Watch := []
  bins : Sparse Bin := []
  /-- The operand streams (R294): bytes as appended, a row per item, and their fills. -/
  fifo : Vector (List Byte) 4 := Vector.replicate 4 []
  fills : Vector (List Fill) 4 := Vector.replicate 4 []
  /-- Bytes that the stream copy engine has moved, counted so that 256 pass in each ac (R314). -/
  fillBusy : Nat := 0
  mat : Matrix := {}
  /-- Outbound chunks of the four schedulers (R365), each with its grid and, for a trace chunk, its team as in `Job`. -/
  outq : Vector (List (Nat × Nat × List Byte)) 4 := Vector.replicate 4 []
  /-- Sample staging chunk of each scheduler, its chunk SEQ, the slot sampled last; the ac after the last sample of a grid, by
  grid × 4 + scheduler. -/
  sample : Vector SampleChunk 4 := Vector.replicate 4 {}
  sampled : Sparse Nat := []
  sampleSeq : Vector Nat 4 := Vector.replicate 4 0
  sampleSlot : Vector Nat 4 := Vector.replicate 4 15
  /-- The SEQ of the next chunk of a team slot (scheduler × 16 + slot) for a grid (R364), by grid × 64 + slot. -/
  tseq : Sparse Nat := []
  /-- RSNAPs whose snapshot step is still to come (R416, R417): ac, team, vault offset, tag, register. -/
  snaps : List (Nat × Nat × Nat × Nat × Nat) := []
deriving DecidableEq, Repr

/-! ### Clusters, dies, stacks -/

/-- The service team of a cluster (R252, R256, R281). -/
structure Cluster where
  queue : List Req := []
  /-- Requests that arrived and are not yet enqueued, in arrival order (R252). -/
  net : List Req := []
  /-- The ac from which the next request may be applied: one for each ac (R252). -/
  nextApply : Nat := 0
  watches : List Watch := []
  /-- Promotion table (R281): word and releasing core, oldest first. -/
  promo : List (Nat × Nat) := []
  /-- Acquires whose reply a promotion holds: the releasing core (none acquirer when the table was full), and the request with the
  old value (R281). -/
  held : List (Nat × Nat × Option (Req × Word)) := []
  /-- Bytes that the tile copy engine has moved, counted so that 128 pass in each ac (R314). -/
  moveBusy : Nat := 0
deriving DecidableEq, Repr

/-- A region of a footprint (R289): a range of one space, `core + 1` for a vault and 0 for the global space. -/
structure Region where
  space : Nat
  base : Nat
  len : Nat
  rn : Bool := false
deriving DecidableEq, Repr

/-- What a dependence-table entry does. -/
inductive JobKind where
  /-- COPY, GATHER, SCATTER (R301), with the card's fields. -/
  | copy (kind : Nat)
  /-- REQT and XPOSE (R303). -/
  | reqt
  /-- SCOPY (R297). -/
  | scopy
  /-- SFILL: the stream (R296). -/
  | fill (stream : Nat)
  /-- A task (R307). -/
  | task
deriving DecidableEq, Repr

/-- A place of a job's data: a virtual address, or an offset of a vault region that starts at `off` of `core` and is `len` bytes. -/
structure Place where
  vault : Bool := false
  core : Nat := 0
  off : Nat := 0
  len : Nat := 0
deriving DecidableEq, Repr, Inhabited

/-- The renaming of a write region (R309): the buffer's pool and index, the region's and the buffer's addresses, the length. -/
structure Rename where
  pool : Nat
  idx : Nat
  orig : Nat
  buf : Nat
  len : Nat
deriving DecidableEq, Repr

/-- An entry of a die's dependence table (R289 to R291). -/
structure Job where
  key : Nat
  die : Nat
  num : Word
  kind : JobKind
  ctx : Nat
  grid : Nat
  blk : Nat
  /-- The team that submitted it: 4 × its block + its role, wherever it is seated (R313). -/
  uid : Nat
  core : Nat
  pc : VAddr
  reads : List Region
  writes : List Region
  /-- Read regions that it reads in a renaming's buffer, under their own addresses (R309). -/
  origReads : List Region := []
  started : Bool := false
  startable : Nat := 0
  /-- Data addresses and shape (R297, R299). -/
  src : Nat := 0
  dst : Nat := 0
  sscl : Nat := 0
  dscl : Nat := 0
  idx : Nat := 0
  srcPl : Place := {}
  dstPl : Place := {}
  rowbytes : Nat := 0
  nrows : Nat := 0
  sstride : Int := 0
  dstride : Int := 0
  ifmt : Nat := 0
  ofmt : Nat := 0
  sbk : Nat := 0
  sat : Nat := 0
  cscope : Nat := 0
  cw : Bool := false
  cwVault : Bool := false
  cword : Nat := 0
  cval : Word := 0
  /-- Bytes moved so far of the whole job, and the row buffer read but not yet written. -/
  row : Nat := 0
  pos : Nat := 0
  buf : List Byte := []
  /-- The index of the row, once read (R301). -/
  rowIdx : Option Nat := none
  /-- Vault lines it has written (R298): core × 8192 + line. -/
  lines : List Nat := []
  retries : Nat := 0
  retryAt : Nat := 0
  fault : Option (Nat × DWord) := none
  /-- Whether its fault has been raised in a team (R313). -/
  held : Bool := false
  /-- Task data (R305): the descriptor and whether it has been read, entry, arguments, lanes, region bases and renamings. -/
  desc : Nat := 0
  ready : Bool := true
  entry : VAddr := 0
  args : List Word := []
  lanes : Nat := 0
  rbase : List Nat := []
  wbase : List Nat := []
  /-- Renamings of its write regions that are not yet copied back. -/
  renames : List Rename := []
  /-- Buffers that it reads under an earlier task's renaming: pool and index. -/
  ymaps : List (Nat × Nat) := []
  blockKey : Option Nat := none
  blockDone : Bool := false
deriving DecidableEq, Repr

/-- A rename pool tracked by a die (R308). -/
structure Pool where
  addr : Nat
  grid : Nat
  base : Nat
  bufbytes : Nat
  nbuf : Nat
deriving DecidableEq, Repr

/-- A compute die (R290, R307, R308). -/
structure Die where
  jobs : List Job := []
  counter : Nat := 0
  pools : List Pool := []
  /-- The ac from which the next entry may be made: one for each ac (R314). -/
  nextEntry : Nat := 0
  /-- Page walks in progress, 64 at most (R242). -/
  walks : List Walk := []
deriving DecidableEq, Repr

/-- An entry of a cellar queue (R310): 16 bytes, timestamp and gap. -/
structure QEntry where
  data : BitVec 128
  time : BitVec 63
  gap : Bool
  /-- The team that submitted a task entry, as in `Job`, which its faults and its block's end concern (R307, R313). -/
  source : Option Nat := none
deriving DecidableEq, Repr

/-- What a request asks of a cellar queue (R311, R312). -/
inductive QOp where
  /-- A pop: the lanes still to be served and the codes of its six registers. -/
  | pop (lanes regs : List Nat)
  /-- A push: the entries still to be accepted; for TASK the register code of D. -/
  | push (entries : List (BitVec 128)) (task : Option Nat)
  /-- A count: its lanes and the register code. -/
  | count (lanes : List Nat) (code : Nat)
deriving DecidableEq, Repr

/-- A request that has reached a cellar queue (R312): its team, by id and as in `Job`, the ac of its arrival, the tag of its result or acceptance, whether
it is non-blocking, and the timestamp that an ingest gateway supplies (R310). -/
structure QReq where
  tid : Nat
  uid : Nat := 0
  arr : Nat
  tag : Nat
  nb : Bool := false
  time : Option Nat := none
  op : QOp
deriving DecidableEq, Repr

/-- A cellar queue (R310). -/
structure Queue where
  kind : Nat := 0
  cap : Nat := 0
  owner : Nat := 0
  gap : Bool := false
  entries : List QEntry := []
  accepted : Nat := 0
  /-- Requests not yet served to the end, in the order of their arrival (R312). -/
  waiters : List QReq := []
  /-- The command of this host-command queue that runs until its completion (R390). -/
  busy : Option Packet := none
  /-- For each packet of this host-command queue, the size of the VAULT section whose copy a LAUNCH names, where the host loader gives it (R169). -/
  sizes : List (Option Nat) := []
deriving DecidableEq, Repr

/-! ### Collectives -/

/-- State of a posted-collective entry (R394). -/
inductive CollSt where
  | free | posted | started | loc | error
deriving DecidableEq, Repr

/-- A collective descriptor after the addends (R392). -/
structure CollDesc where
  group : Nat := 0
  seq : Nat := 0
  oper : Nat := 0
  dtype : Nat := 0
  rop : Nat := 0
  scope : Nat := 0
  count : Nat := 0
  root : Nat := 0
  send : Nat := 0
  recv : Nat := 0
  sched : Nat := 0
  cflags : Nat := 0
deriving DecidableEq, Repr, Inhabited

/-- An entry of the posted-collective table (R394), with the progress of its data. -/
structure Coll where
  st : CollSt := .free
  gen : Nat := 0
  desc : CollDesc := {}
  ctx : Nat := 0
  grid : Nat := 0
  /-- The posting team: 4 × its block + its role; none for a binding (R398). -/
  uid : Option Nat := none
  member : Nat := 0
  n : Nat := 0
  coord : Nat := 0
  rank : Nat := 0
  err : Nat := 0
  /-- Send bytes taken so far, receive bytes written. -/
  sent : Nat := 0
  recvd : Nat := 0
  /-- Send data taken by the port, by byte index; and the data received from the other members. -/
  sendBuf : Sparse Byte := []
  chunks : List Nat := []
  portTaken : Nat := 0
  /-- Whether some element was handed twice, which leaves the receive values undefined (R403). -/
  dup : Bool := false
  /-- The fault that stopped this member's part (R398), and whether it has been raised in a team. -/
  fault : Option (Nat × DWord) := none
  raised : Bool := false
deriving DecidableEq, Repr

/-- A post that COORD holds (R395). -/
structure Post where
  coord : Nat
  ctx : Nat
  group : Nat
  seq : Nat
  pkg : Nat
  member : Nat
  n : Nat
  oper : Nat
  dtype : Nat
  rop : Nat
  count : Nat
  root : Nat
  sched : Nat
deriving DecidableEq, Repr

/-- A REQUEST at the root (R395): when it arrived, the group and SEQ, the members with their packages, its schedule and whether it
blocks later ones. -/
structure CollReq where
  arrived : Nat
  coord : Nat
  ctx : Nat
  group : Nat
  seq : Nat
  members : List Nat
  sched : Nat
  aged : Bool := false
deriving DecidableEq, Repr

/-- A granted collective in the root's mirror (R395): its rank, the members and the switches of its schedule. -/
structure Grant where
  rank : Nat
  coord : Nat
  ctx : Nat
  group : Nat
  seq : Nat
  members : List Nat
  sched : Nat
  received : Bool := false
deriving DecidableEq, Repr

/-- A packet that leaves the package: the endpoint, the address there, and the bytes. -/
structure OutPacket where
  ep : Nat
  addr : Nat
  bytes : List Byte
deriving DecidableEq, Repr

/-! ### Start, capture and the package -/

/-- A record of the start log (R428). -/
structure StartRec where
  step : Nat
  outcome : Nat
  alt : Nat
  start : Nat
  detail : Word
deriving DecidableEq, Repr

/-- A port of the fabric (R387, R426). -/
structure Port where
  up : Bool := false
  lost : Bool := false
  neighbour : Nat := 0
  lastRx : Nat := 0
  lastTx : Nat := 0
  failed : Nat := 0
  spareUsed : Bool := false
deriving DecidableEq, Repr

/-- What the machine does with power (R427, R429). -/
inductive Power where
  /-- Before or during the start steps. -/
  | starting
  /-- Stopped by a start failure (R429, R430). -/
  | failed
  /-- Running. -/
  | on
  /-- Without power (R429). -/
  | off
deriving DecidableEq, Repr

/-- A precise stop (R377): context, launch, block, role, count, the command's packet, and how far it is. -/
structure StopReq where
  ctx : Nat
  launch : Nat
  lin : Nat
  role : Nat
  count : Nat
  pkt : Packet
  taken : Bool := false
  /-- The team that it named when it was taken. -/
  named : Option Nat := none
  reported : Bool := false
deriving DecidableEq, Repr

/-- The selection of a step that no word encodes: the unit, sub-unit, value and packet that it concerns. It is the model's own (log
entry 1). -/
structure Sel where
  unit : Nat := 0
  sub : Nat := 0
  word : Nat := 0
  pkt : Packet := 0
  /-- The port by which a packet comes or leaves. -/
  port : Nat := 0
deriving DecidableEq, Repr

/-- A soft error (R424, R425). -/
inductive Upset where
  /-- An uncorrectable error in a register: its team, and its key as `regKey` gives it. -/
  | register (tid key : Nat)
  /-- An uncorrectable error in a 64-bit word of a cache line: the core, the line and the word. -/
  | cache (core tag word : Nat)
  /-- An uncorrectable error in a word of memory, by byte key. -/
  | memory (key : Nat)
  /-- A corrected error: the lowest bit of its field of CECOUNT. -/
  | corrected (field : Nat)
deriving DecidableEq, Repr

/-- A step chosen from outside. It is the model's own (log entry 1). -/
inductive Choice where
  /-- A step of the opcode table that no word encodes, with its selection. -/
  | event (i : Instr) (sel : Sel)
  /-- A team issues its next instruction. -/
  | issue (tid : Nat)
  /-- The ac ends. -/
  | tick
  /-- A soft error (log entry 19). -/
  | upset (u : Upset)
deriving DecidableEq, Repr

/-- When an input came, in a capture or a replay: the ac since its start, and the steps that the package itself had made in that ac (R375). -/
structure Moment where
  ac : Nat := 0
  turn : Nat := 0
deriving DecidableEq, Repr

/-- A command of a capture (R378): when it was accepted, its queue, its packet with the size of its VAULT section (R169), and whether it is the
named launch of the REPLAY that runs it (R377). -/
structure Command where
  moment : Moment := {}
  queue : Nat
  pkt : Packet
  size : Option Nat := none
  named : Bool := false
deriving DecidableEq, Repr

/-- A capture (R378): its context, the ac of its start and the step within it, the regions that it declares and those of them whose CRC it
takes, the queue from which the round of the command processor goes on, the commands accepted, the bytes of the regions, the log of external
inputs, the grids launched with the fabric time of that (R386), and for each that ended the CRCs of its output regions. -/
structure Capture where
  isOpen : Bool := false
  ctx : Nat := 0
  began : Nat := 0
  turn : Nat := 0
  next : Nat := 0
  regions : List (Nat × Nat) := []
  outputs : List (Nat × Nat) := []
  commands : List Command := []
  snapshot : List (List Byte) := []
  inputs : List (Moment × Choice) := []
  launches : List (Nat × Nat) := []
  crcs : List (Nat × List DWord) := []
deriving DecidableEq, Repr

/-- A REPLAY that runs (R377, R378): its packet and its queue, the ac of its start and the step within it, the commands and the inputs still to
come; the commands of it that run, by queue, and the queue from which its round of the command processor goes on; the queue of the named launch
once that has been served, and its grid. -/
structure Replay where
  pkt : Packet
  queue : Nat
  began : Nat
  turn : Nat
  cmds : List Command
  inputs : List (Moment × Choice)
  busy : Sparse Packet := []
  next : Nat := 0
  named : Option Nat := none
  grid : Option Nat := none
deriving DecidableEq, Repr

/-- The spare map in force (R426): the core of each cluster whose index its spare core has taken, the rows of each vault and the
pseudo-channels of each stack that spares replace. -/
structure SpareMap where
  cores : Sparse Nat := []
  rows : Sparse (List Nat) := []
  chans : Sparse (List Nat) := []
deriving DecidableEq, Repr

/-- The package and what the model keeps beside it. -/
structure State where
  /-- The ac counter (R12). -/
  ac : Nat
  power : Power
  /-- The team that issues; the other teams, by team id. -/
  team : Team
  teams : Sparse Team
  /-- The ac until which an instruction's passes hold each scheduler's datapath (R156), by core × 4 + scheduler. -/
  busy : Sparse Nat
  /-- The age of the team that issued each scheduler's previous instruction (R177), by core × 4 + scheduler. -/
  issuer : Sparse Nat
  blocks : Sparse Block
  nextBlock : Nat
  grids : Sparse Grid
  nextGrid : Nat
  ctxs : Sparse Ctx
  cores : Sparse Core
  clusters : Sparse Cluster
  dies : Sparse Die
  nextJob : Nat
  queues : Sparse Queue
  /-- The ac from which the queue unit of a base die serves the next lane (R314), by stack. -/
  queueFree : Sparse Nat
  colls : Sparse Coll
  /-- Memory (R5, R223, R230, R244): byte keys as `memKey` gives them. -/
  mem : List Host.Cell
  split : Nat
  launched : Bool
  preq : List PageReq
  nextSeq : Nat
  prlate : Nat
  cecount : Word
  /-- Words marked uncorrectable (R424), by byte key of their 8-byte granule. -/
  bad : List Nat
  lost : List Nat
  ports : Sparse Port
  /-- Fabric time less the ac counter (R386). -/
  ftime : Nat
  posts : List Post
  creqs : List CollReq
  grants : List Grant
  nextRank : Nat
  /-- Schedules that COORD holds (R395): id, switches with their free contexts. -/
  scheds : Sparse (List Nat)
  swCtx : Sparse Nat
  /-- Error notices on their way to this package (R395, R405): entry, generation, code. -/
  notices : List (Nat × Nat × Nat)
  /-- Bytes of the VAULT section of the LAUNCH being served, where the host loader gives them (R169). -/
  imgSize : Option Nat
  out : List OutPacket
  /-- Data from the other members of a started collective, by entry: byte index and member (R396). -/
  inbound : Sparse (Sparse Byte)
  /-- The start log (R428): records of 16 bytes, the newest last. -/
  startLog : List (List Byte)
  startCount : Nat
  /-- The start step in progress as the log names it (R428); 0 before a start, 9 after its last step. -/
  startStep : Nat
  minSvn : Nat
  /-- Whether step 2 read the fuses at its last attempt that ended (R430). -/
  fusesRead : Bool
  spares : SpareMap
  /-- The private identity key, once it has been generated (R433). -/
  idKey : Option Nat
  /-- Digests of the images that run, in load order (R433), and the packet of the start failure being sent. -/
  images : List (List Byte)
  failRec : Option StartRec
  lastFail : Nat
  /-- Captures (R378), by the physical address that names them. -/
  captures : Sparse Capture
  stop : Option StopReq
  replay : Option Replay
  /-- The host-command queue from which the round of the command processor goes on (R388). -/
  cmdNext : Nat
  /-- The model's own steps in this ac so far (R375). -/
  turn : Nat
  /-- Time beacons on their way to this package (R386). -/
  beacons : List Nat
  /-- Watches that a write removed, whose teams are still to be woken (R257). -/
  waking : List Watch
  /-- The model's own: steps chosen from outside, oldest first; the selection of the step; free values drawn; tags given. -/
  agenda : List Choice
  sel : Sel
  fresh : Nat
  nextTag : Nat
  nextAge : Nat
deriving DecidableEq, Repr

/-- The machine at package start, before its start steps: no team, nothing listed in memory. -/
def State.reset : State where
  ac := 0
  power := .starting
  team := {}
  teams := []
  busy := []
  issuer := []
  blocks := []
  nextBlock := 0
  grids := []
  nextGrid := 0
  ctxs := [(0, { valid := true })]
  cores := []
  clusters := []
  dies := []
  nextJob := 0
  queues := [(0, { kind := 3, cap := 256, owner := 0 })]
  queueFree := []
  colls := []
  mem := []
  split := 80000000000
  launched := false
  preq := []
  nextSeq := 0
  prlate := 0
  cecount := 0
  bad := []
  lost := []
  ports := []
  ftime := 0
  posts := []
  creqs := []
  grants := []
  nextRank := 0
  scheds := []
  swCtx := []
  notices := []
  imgSize := none
  out := []
  inbound := []
  startLog := []
  startCount := 0
  startStep := 0
  minSvn := 0
  fusesRead := false
  spares := {}
  idKey := none
  images := []
  failRec := none
  lastFail := 0
  captures := []
  stop := none
  replay := none
  cmdNext := 0
  turn := 0
  beacons := []
  waking := []
  agenda := []
  sel := {}
  fresh := 0
  nextTag := 0
  nextAge := 0

/-- The outcome of a step of this machine. -/
abbrev Out := Host.Outcome State Fault Refusal

end Sys2Proof.Machine
end

