-- ==== Sys2Proof/Machine/Maps.lean ====
section
/-!
DEFINITION. Tables by key, and memory as a list of (byte key, byte) pairs in one canonical form: keys strictly rising and no entry equal
to 0, which is what a key that is not listed reads as (log entry 5).
-/

namespace Sys2Proof.Machine

/-- The value at a key. -/
def mget? {α : Type} : Sparse α → Nat → Option α
  | [], _ => none
  | (j, v) :: m, k => if j = k then some v else mget? m k

/-- The value at a key, or the given value where the key is not listed. -/
def mget {α : Type} (d : α) (m : Sparse α) (k : Nat) : α := (mget? m k).getD d

/-- The table with a value at a key. -/
def mput {α : Type} : Sparse α → Nat → α → Sparse α
  | [], k, v => [(k, v)]
  | (j, u) :: m, k, v =>
    if j = k then (k, v) :: m else if k < j then (k, v) :: (j, u) :: m else (j, u) :: mput m k v

/-- The table without a key. -/
def mdel {α : Type} : Sparse α → Nat → Sparse α
  | [], _ => []
  | (j, u) :: m, k => if j = k then mdel m k else (j, u) :: mdel m k

/-- The table with a value at a key, in the form that lists no key at its default. -/
def mset {α : Type} [DecidableEq α] (d : α) (m : Sparse α) (k : Nat) (v : α) : Sparse α :=
  if v = d then mdel m k else mput m k v

/-- Every value of a table changed. -/
def mmap {α : Type} (f : α → α) (m : Sparse α) : Sparse α := m.map fun p => (p.1, f p.2)

/-- Whether the keys rise strictly and no value is the default. -/
def mcanon {α : Type} [DecidableEq α] (d : α) : Sparse α → Bool
  | [] => true
  | [(_, v)] => v != d
  | (j, v) :: (k, u) :: m => v != d && decide (j < k) && mcanon d ((k, u) :: m)

/-! ### Memory -/

/-- Memory in its canonical form: keys strictly rising, no entry equal to 0. -/
def Memory.wf (m : List Host.Cell) : Bool := mcanon (0 : Byte) m

/-- The byte at a key. -/
def memByte (m : List Host.Cell) (k : Nat) : Byte := mget (0 : Byte) m k

/-- Memory with a byte written. -/
def memPut (m : List Host.Cell) (k : Nat) (b : Byte) : List Host.Cell := mset (0 : Byte) m k b

/-- `n` bytes from a key up. -/
def memBytes (m : List Host.Cell) (k n : Nat) : List Byte := (List.range n).map fun i => memByte m (k + i)

/-- Memory with a list of bytes written from a key up. -/
def memPuts : List Host.Cell → Nat → List Byte → List Host.Cell
  | m, _, [] => m
  | m, k, b :: bs => memPuts (memPut m k b) (k + 1) bs

/-! ### Byte keys -/

/-- The key of a byte of an HBM stack (R230, R231): below 2^42. -/
def hbmKey (stack off : Nat) : Nat := stack * 2 ^ 37 + off

/-- The key of a byte of a core's vault (R223, R225). -/
def vaultKey (core off : Nat) : Nat := 2 ^ 42 + core * 2 ^ 20 + off

/-- The key of a byte of another package's memory, by its physical address (R244). -/
def remoteKey (pa : Nat) : Nat := 2 ^ 57 + pa

/-- The key of a byte of host memory at an endpoint (R390). -/
def hostKey (ep addr : Nat) : Nat := 2 ^ 64 * (ep + 1) + addr % 2 ^ 64

/-- What a physical address names (R230, R244). -/
inductive PaKind where
  /-- HBM of the own package, with its byte key. -/
  | hbm (key : Nat)
  /-- A vault aperture (R225, R244): the key of the core, and the offset. -/
  | vault (core off : Nat)
  /-- HBM of another package: its index and the byte key. -/
  | remote (pkg key : Nat)
  /-- No window. -/
  | none
deriving DecidableEq, Repr

/-- The window of the local part of a physical address (R230, R231). -/
def localWindow (split lpa : Nat) : PaKind :=
  if lpa < 16 * split then .hbm (hbmKey (bitsOf lpa 14 11) (lpa / 2 ^ 15 * 2048 + lpa % 2048))
  else if 0x1C000000000 ≤ lpa ∧ lpa < 0x1C080000000 then
    .vault ((lpa - 0x1C000000000) / 2 ^ 20) ((lpa - 0x1C000000000) % 2 ^ 20)
  else if 0x20000000000 ≤ lpa then
    let d := (lpa - 0x20000000000) / 2 ^ 38
    let x := (lpa - 0x20000000000) % 2 ^ 38
    if d < 8 ∧ x < 2 * (80000000000 - split) then
      .hbm (hbmKey (2 * d + bitsOf x 11 11) (split + x / 4096 * 2048 + x % 2048))
    else .none
  else .none

/-- The key of a core in the tables of cores: its index in the own package (R214), and beyond those for a core of another package. -/
def vaultCore (pkg core : Nat) : Nat := if pkg = Config.packageIndex then core else 4096 * (pkg + 1) + core

/-- What a physical address names, as this package sees it (R230, R244): the windows are the same on every package. -/
def paKind (split pa : Nat) : PaKind :=
  let pkg := pa / 2 ^ 42 % 2 ^ 14
  match localWindow split (pa % 2 ^ 42) with
  | .none => .none
  | .vault core off => .vault (vaultCore pkg core) off
  | x => if pkg = Config.packageIndex then x else .remote pkg (remoteKey (pa % 2 ^ 56))

end Sys2Proof.Machine
end

