-- ==== Sys2Proof/Machine/Access.lean ====
section
/-!
DEFINITION. Reading and writing the parts of the state: the focused team, blocks, grids, contexts, cores, clusters, dies, queues.
-/

namespace Sys2Proof.Machine

/-- The team id of a slot (R364). -/
def tidOf (core sched slot : Nat) : Nat := core * 64 + sched * 16 + slot

/-- Core, scheduler and slot of a team id. -/
def coreOf (tid : Nat) : Nat := tid / 64
def schedOf (tid : Nat) : Nat := tid / 16 % 4
def slotOf (tid : Nat) : Nat := tid % 16

/-- Die and cluster (16 × die + cluster) of a core (R214). -/
def dieOfCore (c : Nat) : Nat := c / 256
def clusterOfCore (c : Nat) : Nat := c / 16

/-- The state with the focused team changed. -/
def State.onTeam (s : State) (f : Team → Team) : State := { s with team := f s.team }

/-- The state with a team of the given id in focus; unchanged when no such team is present. -/
def State.focus (s : State) (tid : Nat) : State :=
  if s.team.present ∧ s.team.tid = tid then s
  else match mget? s.teams tid with
    | some t =>
      let rest := mdel s.teams tid
      { s with team := t, teams := if s.team.present then mput rest s.team.tid s.team else rest }
    | none => s

/-- Whether a team of this id is present. -/
def State.hasTeam (s : State) (tid : Nat) : Bool :=
  (s.team.present && s.team.tid == tid) || (mget? s.teams tid).isSome

/-- The record of a team, when present. -/
def State.teamAt (s : State) (tid : Nat) : Option Team :=
  if s.team.present ∧ s.team.tid = tid then some s.team else mget? s.teams tid

/-- Applies an operation on the focused team to another team, and returns the focus. -/
def State.withTeam (s : State) (tid : Nat) (f : State → State) : State :=
  if s.team.present ∧ s.team.tid = tid then f s
  else match mget? s.teams tid with
    | some _ =>
      let back := s.team.tid
      let had := s.team.present
      let s' := f (s.focus tid)
      if had then s'.focus back else s'
    | none => s

/-- What names a team as long as it lives, wherever it is seated: its block and role. -/
def teamUid (t : Team) : Nat := t.blk * 4 + t.role

/-- Every team present, by id. -/
def State.allTeams (s : State) : List Team :=
  if s.team.present then s.team :: s.teams.map (·.2) else s.teams.map (·.2)

def State.block (s : State) (k : Nat) : Block := mget {} s.blocks k
def State.setBlock (s : State) (k : Nat) (b : Block) : State := { s with blocks := mput s.blocks k b }
def State.onBlock (s : State) (k : Nat) (f : Block → Block) : State := s.setBlock k (f (s.block k))
/-- The block of the focused team. -/
def State.myBlock (s : State) : Block := s.block s.team.blk

def State.grid (s : State) (g : Nat) : Grid := mget {} s.grids g
def State.setGrid (s : State) (g : Nat) (x : Grid) : State := { s with grids := mput s.grids g x }
def State.onGrid (s : State) (g : Nat) (f : Grid → Grid) : State := s.setGrid g (f (s.grid g))
/-- The grid of the focused team, and the context id of it. -/
def State.myGrid (s : State) : Grid := s.grid s.myBlock.grid
def State.myCtx (s : State) : Nat := s.myGrid.ctx

def State.ctx (s : State) (c : Nat) : Ctx := mget {} s.ctxs c
def State.setCtx (s : State) (c : Nat) (x : Ctx) : State := { s with ctxs := mput s.ctxs c x }
def State.onCtx (s : State) (c : Nat) (f : Ctx → Ctx) : State := s.setCtx c (f (s.ctx c))

def State.core (s : State) (c : Nat) : Core := mget {} s.cores c
def State.setCore (s : State) (c : Nat) (x : Core) : State := { s with cores := mput s.cores c x }
def State.onCore (s : State) (c : Nat) (f : Core → Core) : State := s.setCore c (f (s.core c))
/-- The core of the focused team. -/
def State.myCore (s : State) : Nat := coreOf s.team.tid

def State.cluster (s : State) (c : Nat) : Cluster := mget {} s.clusters c
def State.onCluster (s : State) (c : Nat) (f : Cluster → Cluster) : State :=
  { s with clusters := mput s.clusters c (f (s.cluster c)) }

def State.die (s : State) (d : Nat) : Die := mget {} s.dies d
def State.onDie (s : State) (d : Nat) (f : Die → Die) : State := { s with dies := mput s.dies d (f (s.die d)) }

def State.queue (s : State) (q : Nat) : Queue := mget {} s.queues q
def State.onQueue (s : State) (q : Nat) (f : Queue → Queue) : State := { s with queues := mput s.queues q (f (s.queue q)) }

def State.coll (s : State) (i : Nat) : Coll := mget {} s.colls i
def State.onColl (s : State) (i : Nat) (f : Coll → Coll) : State := { s with colls := mput s.colls i (f (s.coll i)) }

def State.port (s : State) (p : Nat) : Port := mget {} s.ports p
def State.onPort (s : State) (p : Nat) (f : Port → Port) : State := { s with ports := mput s.ports p (f (s.port p)) }

/-- Whether a port reaches its neighbour (R387). -/
def Port.live (p : Port) : Bool := p.up && !p.lost

/-- Whether some port of the package reaches a neighbour: every transfer to or from another endpoint needs one (R1, R387). -/
def State.linked (s : State) : Bool := s.ports.any fun p => p.2.live

/-- The port by which a packet of the package itself comes or leaves: that of the selection, or else the lowest that reaches its neighbour; R382
names the ports of a core's traffic alone, and the switches choose the path (log entry 20). -/
def State.livePort (s : State) : Nat :=
  if (s.port s.sel.port).live then s.sel.port else ((s.ports.find? fun p => p.2.live).map (·.1)).getD 0

/-- The ports of the I/O die by which a core's fabric traffic leaves: that of its die's row (R382). -/
def ioPorts (core : Nat) : List Nat := (List.range 18).map (18 * (dieOfCore core / 4) + ·)

/-- Whether a core's traffic reaches an endpoint: the own package, or another by a live port of its I/O die (R1, R382). -/
def State.reaches (s : State) (core ep : Nat) : Bool :=
  ep == Config.packageIndex || (ioPorts core).any fun p => (s.port p).live

/-- The live port of its I/O die that a core's traffic to an endpoint takes (R382). -/
def State.portFor (s : State) (core ep : Nat) : Option Nat :=
  let live := (ioPorts core).filter fun p => (s.port p).live
  if ep = Config.packageIndex then none else live[Config.portHash ep % live.length]?

/-- A core's traffic has gone to an endpoint, or an answer has come back by that port (R387). -/
def State.spokenTo (s : State) (core ep : Nat) : State :=
  match s.portFor core ep with
  | some p => s.onPort p fun x => { x with lastTx := s.ac }
  | none => s
def State.heardFrom (s : State) (core ep : Nat) : State :=
  match s.portFor core ep with
  | some p => s.onPort p fun x => { x with lastRx := s.ac }
  | none => s

/-- The packages of an access in flight: whether all of them are reached, and the traffic to and from them. -/
def State.farReaches (s : State) (core : Nat) (f : FarAccess) : Bool := f.lanes.all fun l => s.reaches core l.2.1
def State.farSpoken (s : State) (core : Nat) (f : Option FarAccess) : State :=
  ((f.map (·.lanes)).getD []).foldl (fun s l => s.spokenTo core l.2.1) s
def State.farHeard (s : State) (core : Nat) (f : Option FarAccess) : State :=
  ((f.map (·.lanes)).getD []).foldl (fun s l => s.heardFrom core l.2.1) s

/-- A packet has come in, or has been sent (R387): its port has carried a flit. -/
def State.heard (s : State) : State := if s.linked then s.onPort s.livePort fun p => { p with lastRx := s.ac } else s
def State.spoken (s : State) : State := if s.linked then s.onPort s.livePort fun p => { p with lastTx := s.ac } else s

/-- Value `k` of a fixed table, or the given value beyond its end. -/
def vget {α : Type} {n : Nat} (d : α) (v : Vector α n) (k : Nat) : α := (v[k]?).getD d

/-- The table with value `k` replaced. -/
def vset {α : Type} {n : Nat} (v : Vector α n) (k : Nat) (x : α) : Vector α n := v.setIfInBounds k x

/-- A tag not given before. -/
def State.takeTag (s : State) : Nat × State := (s.nextTag, { s with nextTag := s.nextTag + 1 })

/-- A free value not drawn before (log entry 1). -/
def State.takeFree (s : State) : Word × State := (Config.freeWord s.fresh, { s with fresh := s.fresh + 1 })

/-- Fabric time (R386): 63 bits. -/
def State.fabricTime (s : State) : Nat := (s.ftime + s.ac) % 2 ^ 63

end Sys2Proof.Machine
end

