-- ==== Sys2Proof/Machine/Trace.lean ====
section
/-!
DEFINITION. Branch-and-mask packets (R364, R365, R370 to R372) as the focused team emits them. An untraced team emits nothing.
-/

namespace Sys2Proof.Machine

/-- A closed chunk (R364): source, SEQ, TSLO and 56 bytes of body. -/
def chunkBytes (src seq tslo : Nat) (body : List Byte) : List Byte :=
  leBytes 3 src ++ leBytes 1 seq ++ leBytes 4 tslo ++ padTo 56 body

/-- Whether the outbound queue of the focused team's scheduler takes a chunk (R365). -/
def outqRoom (s : State) : Bool := decide ((vget [] (s.core (coreOf s.team.tid)).outq (schedOf s.team.tid)).length < 8)

/-- Closes the staging chunk (R365): it enters the outbound queue of 8 chunks; where that is full the chunk is dropped, its packets are
counted, and SEQ goes past it (R381). -/
def traceClose (s : State) : State :=
  let t := s.team
  if t.tr.chunk.isEmpty then s
  else
    let next := fun (r : TeamTrace) => { r with chunk := [], inChunk := 0, seq := (r.seq + 1) % 256 }
    if outqRoom s then
      (s.onCore (coreOf t.tid) fun c => { c with
        outq := vset c.outq (schedOf t.tid)
          (vget [] c.outq (schedOf t.tid) ++ [((s.block t.blk).grid, teamUid t, chunkBytes t.tid t.tr.seq 0 t.tr.chunk)]) }).onTeam
        fun t => { t with tr := next t.tr }
    else s.onTeam fun t => { t with tr := { next t.tr with dropping := true, lost := t.tr.lost + t.tr.inChunk } }

/-- Puts one packet into the staging chunk, or drops it (R365). `cnt` says whether a dropped packet is counted, `per` whether it
counts towards the periodic SYNC (R372). -/
def tracePut (p : List Byte) (cnt per : Bool) (s : State) : State :=
  let k := if cnt then 1 else 0
  let add := fun (s : State) => s.onTeam fun t =>
    { t with tr := { t.tr with
        opened := if t.tr.chunk.isEmpty then s.ac else t.tr.opened
        chunk := t.tr.chunk ++ p
        inChunk := t.tr.inChunk + k
        count := t.tr.count + (if per then 1 else 0) } }
  let put := fun (s : State) =>
    if s.team.tr.dropping then s.onTeam fun t => { t with tr := { t.tr with lost := t.tr.lost + k } } else add s
  if s.team.tr.dropping ∨ s.team.tr.chunk.length + p.length ≤ 56 then put s else put (traceClose s)

/-- The MASK packets of a mask (R371): from each non-empty word, up to three consecutive words ending at a non-empty one. -/
def maskPackets (which : Nat) (m : Mask) : List (List Byte) :=
  let one := fun g c => leBytes 1 (0x60 + c) ++ leBytes 1 which ++ leBytes 1 g ++
    (List.range c).flatMap fun i => leBytes 4 (maskWord m (g + i))
  let rec go : List Nat → Nat → List (List Byte)
    | [], _ => []
    | g :: gs, next =>
      if g < next then go gs next
      else
        let c := if gs.contains (g + 2) then 3 else if gs.contains (g + 1) then 2 else 1
        one g c :: go gs (g + c)
  match groupsOf m with
  | [] => [leBytes 1 0x61 ++ leBytes 1 which ++ leBytes 1 0 ++ leBytes 4 0]
  | gs => go gs 0

/-- The state packets (R370): the active mask, each reconvergence entry from the top, and the saved mask in handler mode. -/
def statePackets (t : Team) : List (List Byte) :=
  let entry := fun (p : Nat × REntry) =>
    (leBytes 1 (0xA0 + if p.2.pending then 1 else 0) ++ leBytes 1 (p.1 + 1) ++ leBytes 7 (p.2.pc.toNat / 4)) ::
      maskPackets (p.1 + 1) p.2.mask
  maskPackets 0 t.active ++ (t.rstack.zipIdx.map fun (e, i) => (i, e)).flatMap entry ++
    if t.hmode then maskPackets 0x7F t.trap.active else []

/-- SYNC and its state packets (R370 to R372). -/
def traceSync (reason : Nat) (s : State) : State :=
  let t := s.team
  let p := leBytes 1 0xF0 ++ leBytes 7 (t.pc.toNat / 4) ++ leBytes 6 s.ac ++
    leBytes 1 (reason + if t.hmode then 8 else 0) ++ leBytes 1 t.rstack.length
  let s := tracePut p true true s
  let s := s.onTeam fun t => { t with tr := { t.tr with last := s.ac, lastSync := s.ac, count := 0 } }
  (statePackets t).foldl (fun s p => tracePut p true false s) s

/-- TIME where the ac differs from the last timestamp (R372): a delta above 65,535 in several packets, the largest first. -/
def traceTime (s : State) : State :=
  let d := s.ac - s.team.tr.last
  let one := fun (s : State) (n : Nat) => tracePut (if n < 256 then leBytes 1 0x41 ++ leBytes 1 n else leBytes 1 0x42 ++ leBytes 2 n)
    false false s
  let s := (List.replicate (d / 65535) 65535 ++ if d % 65535 = 0 then [] else [d % 65535]).foldl one s
  s.onTeam fun t => { t with tr := { t.tr with last := s.ac } }

/-- One packet after its TIME (R372). -/
def traceRaw (p : List Byte) (s : State) : State := tracePut p true true (traceTime s)

/-- Emits the outcomes gathered (R372). -/
def traceFlush (s : State) : State :=
  match s.team.tr.outcomes with
  | [] => s
  | os =>
    let s' := s.onTeam fun t => { t with tr := { t.tr with outcomes := [] } }
    traceRaw (leBytes 1 (0x10 + (os.length - 1)) ++
      leBytes 1 ((os.zipIdx.map fun (b, i) => if b then 2 ^ i else 0).foldl (· + ·) 0)) s'

/-- LOSS (R371): the packets dropped, in as few bytes as hold the count. -/
def lossPacket (n : Nat) : List Byte :=
  let k := if n < 2 ^ 8 then 1 else if n < 2 ^ 16 then 2 else if n < 2 ^ 24 then 3 else 4
  leBytes 1 (0x90 + k) ++ leBytes k (min n (2 ^ 32 - 1))

/-- After drops, once the outbound queue has room again: LOSS with their count, then a SYNC (R365). Outcomes gathered since the drop come
before these, and so are dropped with the rest (R372). -/
def traceResume (s : State) : State :=
  if s.team.tr.dropping && outqRoom s then
    let s := traceFlush s
    let n := s.team.tr.lost
    traceSync 2 (traceRaw (lossPacket n) (s.onTeam fun t => { t with tr := { t.tr with lost := 0, dropping := false } }))
  else s

/-- Packets of the focused team that a discarded chunk held (R363): they count as dropped, and LOSS and a SYNC follow as after a full queue
(R365). -/
def traceDropped (n : Nat) (s : State) : State :=
  traceResume ((traceFlush s).onTeam fun t => { t with tr := { t.tr with lost := t.tr.lost + n, dropping := true } })

/-- A periodic SYNC that is due (R372). -/
def tracePeriodic (s : State) : State :=
  if s.team.tr.count ≥ 256 ∨ s.ac - s.team.tr.lastSync > 65536 then traceSync 0 s else s

/-- What stands before an instruction's packets, with the state before the instruction: a flushed COND, the LOSS and SYNC after drops, a due
SYNC. -/
def tracePre (s : State) : State := if s.team.traced then tracePeriodic (traceResume (traceFlush s)) else s

/-- Emits packets of an instruction. -/
def traceEmit (ps : List (List Byte)) (s : State) : State :=
  if s.team.traced then ps.foldl (fun s p => traceRaw p s) (traceFlush s) else s

/-- One outcome of a branch (R370): a due SYNC precedes the first outcome of a COND. -/
def traceOutcome (taken : Bool) (s : State) : State :=
  if s.team.traced then
    let s := if s.team.tr.outcomes.isEmpty then tracePeriodic (traceResume s) else s
    let s := s.onTeam fun t => { t with tr := { t.tr with outcomes := t.tr.outcomes ++ [taken] } }
    if s.team.tr.outcomes.length ≥ 8 then traceFlush s else s
  else s

/-- The TAKEN packets of a split BRD (R371): the active words with their taken words, at most four codes and three explicit words. -/
def takenPackets (active taken : Mask) : List (List Byte) :=
  let words := (groupsOf active).map fun g => (maskWord active g, maskWord taken g)
  let code := fun (p : Nat × Nat) => if p.2 = 0 then 0 else if p.2 = p.1 then 1 else 2
  let flush := fun (cur : List (Nat × Nat)) =>
    let ex := (cur.filter fun p => code p == 2).map (·.2)
    let codes := (cur.map code) ++ List.replicate (4 - cur.length) 3
    leBytes 1 (0x20 + ex.length) ++ leBytes 1 ((codes.zipIdx.map fun (c, i) => c * 4 ^ i).foldl (· + ·) 0) ++
      ex.flatMap (leBytes 4)
  let rec go : List (Nat × Nat) → List (Nat × Nat) → List (List Byte)
    | [], [] => []
    | [], cur => [flush cur]
    | p :: ps, cur =>
      let ex := (cur.filter fun q => code q == 2).length
      if cur.length ≥ 4 ∨ (code p = 2 ∧ ex ≥ 3) then flush cur :: go ps [p] else go ps (cur ++ [p])
  go words []

/-- A TARGET packet (R371): the signed word distance in as few bytes as hold it. -/
def targetPacket (pc target : VAddr) : List Byte :=
  let d := ((target.toNat : Int) - pc.toNat) / 4
  let fits := fun (n : Nat) => decide (-(2 ^ (8 * n - 1) : Int) ≤ d ∧ d < 2 ^ (8 * n - 1))
  let n := ([1, 2, 3, 4, 5, 6].find? fits).getD 7
  leBytes 1 (0x30 + n) ++ leBytes n (d % (2 ^ (8 * n) : Int)).toNat

/-- The MASK packets after GROUP, REGRP and DROP (R370). -/
def traceMasks (s : State) : State :=
  traceEmit (maskPackets 0 s.team.active ++
    (s.team.rstack.zipIdx.flatMap fun (e, i) => maskPackets (i + 1) e.mask)) s

/-- END (R370) and the close of the chunk (R365). -/
def traceEnd (aborted : Bool) (s : State) : State :=
  if s.team.traced then traceClose (traceEmit [leBytes 1 (0xB0 + if aborted then 1 else 0)] (tracePre s)) else s

/-- The SYNC at a team's start or restore (R370), after the LOSS and SYNC of what was dropped before a save (R365). -/
def traceStart (reason : Nat) (s : State) : State := if s.team.traced then traceSync reason (traceResume s) else s

end Sys2Proof.Machine
end

