-- ==== Sys2Proof/Machine/Ops.lean ====
section
/-!
DEFINITION. The shared operations of a team: names of registers (R12, R345), reading and writing them, outstanding results (R20, R21),
the end of an instruction, POP (R115), taking a trap (R344) and returning from one (R351), ending a team and aborting a block (R352).
-/

namespace Sys2Proof.Machine

/-! ### Trap causes (R347) -/

abbrev cILLOP : Nat := 0x01
abbrev cILLOPND : Nat := 0x02
abbrev cWINDOW : Nat := 0x03
abbrev cHAZARD : Nat := 0x04
abbrev cPOISON : Nat := 0x05
abbrev cALIGN : Nat := 0x06
abbrev cPAGE : Nat := 0x07
abbrev cPROT : Nat := 0x08
abbrev cVRANGE : Nat := 0x09
abbrev cMEMBER : Nat := 0x0A
abbrev cRELORDER : Nat := 0x0B
abbrev cRELDESC : Nat := 0x0C
abbrev cBATONST : Nat := 0x0D
abbrev cENGFAULT : Nat := 0x0E
abbrev cREMOTE : Nat := 0x0F
abbrev cHOSTPAGE : Nat := 0x10
abbrev cECC : Nat := 0x11
abbrev cCOLLERR : Nat := 0x12
abbrev cSWTRAP : Nat := 0x13
abbrev cBRKPT : Nat := 0x14
abbrev cSTOP : Nat := 0x15
abbrev cDOUBLE : Nat := 0x16

/-! ### Names of registers -/

/-- Codes of registers: vector r is r, scalar n is 512 + n, shadow n is 544 + n, translation register n is 560 + n, the special of
field value f is 1024 + f. -/
def regCode (t : Team) (f : Nat) : Nat :=
  if f < 96 then (if t.hmode ∧ 80 ≤ f then t.nregs + (f - 80) else t.wbase + f)
  else if f < 120 then (if t.hmode ∧ f < 104 then 544 + (f - 96) else 512 + (f - 96))
  else 1024 + f

/-- Whether a register field names a vector, a scalar, a special. -/
def isVec (f : RegF) : Bool := decide (f.toNat < 96)
def isScalar (f : RegF) : Bool := decide (96 ≤ f.toNat ∧ f.toNat < 120)
def isSpecial (f : RegF) : Bool := decide (120 ≤ f.toNat)

/-- The window check of R11 and R345 on one register field value. -/
def windowBad (t : Team) (f : Nat) : Bool :=
  decide (f < 96) && !(t.hmode && decide (80 ≤ f)) && decide (t.nregs ≤ t.wbase + f)

/-- The `blk` special (R163, R175, R307). -/
def blkValue (b : Block) : Word :=
  match b.kind with
  | .grid => w32 b.lin
  | .bin => 0xFFFFFFFF#32
  | .task _ => 0xFFFFFFFE#32

/-- The lowest active lane (R155). -/
def lowestLane (m : Mask) : Nat := (lanesOf m).headD 0

/-- The value of a special in a lane (R12, R155); `fmt` reads its reserved bits as 0 (R16). -/
def specialValue (s : State) (f lane : Nat) : Word :=
  match f with
  | 121 => w32 lane
  | 122 => w32 (lane / 32)
  | 123 => w32 (maskCount s.team.live)
  | 124 => w32 s.team.role
  | 125 => blkValue s.myBlock
  | 126 => w32 s.ac
  | 127 => s.team.fmt &&& 0x0FFFFFF0#32
  | _ => 0

/-- The bits of the register with this code in a lane. -/
def regBits (s : State) (code lane : Nat) : Word :=
  if code < 512 then mget 0 s.team.v (lane * 512 + code)
  else if code < 544 then vget 0 s.team.s (code - 512)
  else if code < 560 then vget 0 s.team.shadow (code - 544)
  else specialValue s (code - 1024) lane

/-- Whether the register is dead in a lane (R24). -/
def regDead (t : Team) (code lane : Nat) : Bool :=
  if code < 512 then mget false t.vdead (lane * 512 + code)
  else if code < 544 then t.sdead.getLsbD (code - 512)
  else if code < 560 then t.shdead.getLsbD (code - 544)
  else false

/-- Sets or clears the dead flag of a register in a lane. -/
def setDead (code lane : Nat) (b : Bool) (t : Team) : Team :=
  if code < 512 then { t with vdead := mset false t.vdead (lane * 512 + code) b }
  else if code < 544 then
    { t with sdead := if b then t.sdead ||| BitVec.ofNat 24 (2 ^ (code - 512)) else t.sdead &&& ~~~ (BitVec.ofNat 24 (2 ^ (code - 512))) }
  else if code < 560 then
    { t with shdead := if b then t.shdead ||| BitVec.ofNat 8 (2 ^ (code - 544)) else t.shdead &&& ~~~ (BitVec.ofNat 8 (2 ^ (code - 544))) }
  else t

/-- The key of a register in a lane, for its error mark (R424). -/
def regKey (code lane : Nat) : Nat := if code < 512 then lane * 512 + code else 2 ^ 20 + code

/-- A write of a register ends its error (R424). -/
def cleanReg (code lane : Nat) (t : Team) : Team := { t with rbad := t.rbad.filter (· != regKey code lane) }

/-- Writes a register in a lane and makes it live (R24). -/
def writeReg (code lane : Nat) (val : Word) (t : Team) : Team :=
  setDead code lane false <| cleanReg code lane
    (if code < 512 then { t with v := mset 0 t.v (lane * 512 + code) val }
     else if code < 544 then { t with s := vset t.s (code - 512) val }
     else if code < 560 then { t with shadow := vset t.shadow (code - 544) val }
     else t)

/-- Makes a list of register writes. -/
def writeRegs (ws : List RegWrite) (t : Team) : Team := ws.foldl (fun t w => writeReg w.reg w.lane w.val t) t

/-- The value an instruction reads, and whether it was read as POISON (R25). -/
def readReg (s : State) (code lane : Nat) : Word × Bool :=
  if regDead s.team code lane then (poison, true) else (regBits s code lane, false)

/-- Whether a read of a register meets an uncorrectable error (R424): a dead register is not read. -/
def regBad (t : Team) (code lane : Nat) : Bool := !regDead t code lane && t.rbad.contains (regKey code lane)

/-- Whether a register has a pending write (R20, R22). -/
def isPending (t : Team) (code : Nat) : Bool := t.pend.any fun p => p.regs.contains code

/-- Entries in use of the pending-write record (R20). -/
def pendCount (t : Team) : Nat := (t.pend.map fun p => if p.shared then 1 else p.regs.length).foldl (· + ·) 0

/-- Whether nothing is outstanding (R21). -/
def drained (t : Team) : Bool := t.pend.isEmpty && t.stores.isEmpty

/-! ### Parking -/

/-- Parks the team after its instruction; the wait of an S marker follows the park (R21, R176). -/
def parkAt (p : Park) (s : State) : State := s.onTeam fun t => { t with swDue := t.swDue || t.park == .marker, park := p }

/-- The stall code of a park (R368). -/
def Park.code : Park → Nat
  | .run => 0
  | .held => 0x01
  | .exit | .trap | .fence _ _ | .expect _ _ | .wbarDrain _ => 0x02
  | .ftmap _ | .hostreq _ _ _ | .inval _ _ => 0x03
  | .start => 0x04
  | .marker => 0x06
  | .absent _ _ => 0x07
  | .bar _ _ => 0x08
  | .wbar _ => 0x09
  | .watch => 0x0A
  | .queue _ => 0x0B
  | .mwait _ => 0x0C
  | .baton => 0x0D
  | .cwait _ _ => 0x0E
  | .vat => 0x10
  | .mctl => 0x14

/-- A team at the end of its park: it is ready from the next ac (R176), and stalls as before until then; or it waits on its S marker
(R21). -/
def unparked (ac : Nat) (t : Team) : Team :=
  let t := { t with woke := match t.park with | .absent c l => some (c, l) | _ => none }
  if t.swDue ∧ !drained t then { t with swDue := false, park := .marker }
  else { t with swDue := false, park := .run, stall := t.park.code, readyAt := ac + 1 }

/-- Ends the park of the focused team. -/
def unpark (s : State) : State := s.onTeam (unparked s.ac)

/-! ### Footprints and conflicts -/

/-- Whether two regions share a byte (R291). -/
def Region.overlaps (a b : Region) : Bool :=
  a.space == b.space && a.len != 0 && b.len != 0 && decide (a.base < b.base + b.len ∧ b.base < a.base + a.len)

/-- Whether some region of one list overlaps one of another. -/
def anyOverlap (xs ys : List Region) : Bool := xs.any fun x => ys.any x.overlaps

/-- The original region and the buffer of a renaming (R309), in the global space. -/
def Rename.origRegion (r : Rename) : Region := { space := 0, base := r.orig, len := r.len }
def Rename.bufRegion (r : Rename) : Region := { space := 0, base := r.buf, len := r.len }

/-- The writes of an entry that a later entry waits for: its write regions, a renamed buffer only until its block has ended, and the
original regions that a copy-back will write (R309). -/
def Job.blocking (f : Job) : List Region :=
  (if f.blockDone then f.writes.filter fun w => !(f.renames.any fun r => r.bufRegion == { w with rn := false }) else f.writes) ++
    f.renames.map Rename.origRegion

/-- The regions that an entry declares as read, a renamed one under its own address too: a later writer of it waits for the entry (R291, R309). -/
def Job.readsAll (f : Job) : List Region := f.reads ++ f.origReads

/-- Whether entry `e` conflicts with the earlier entry `f` (R291). -/
def conflicts (e f : Job) : Bool :=
  e.ctx == f.ctx && (anyOverlap e.reads f.blocking || anyOverlap e.writes f.readsAll || anyOverlap e.writes f.blocking)

/-- Whether an earlier entry of a table that conflicts remains (R291). -/
def blockedIn (js : List Job) (e : Job) : Bool := js.any fun f => decide (f.key < e.key) && conflicts e f

/-- The entries of a table after a change that frees some of them: these start from the next ac (R314). -/
def delayFreed (ac : Nat) (old new : List Job) : List Job :=
  new.map fun e => if !e.started ∧ blockedIn old e ∧ !blockedIn new e then { e with startable := max e.startable (ac + 1) } else e

/-! ### Ending teams and blocks -/

/-- The results of walks in progress reach none of the teams that `p` picks (R242). -/
def forgetWalks (p : Nat → Bool) (s : State) : State :=
  { s with dies := mmap (fun (d : Die) => { d with walks := d.walks.map fun (w : Walk) => { w with tids := w.tids.filter fun t => !p t } }) s.dies }

/-- Changes the stores of ended teams that are still to be accepted (R160). -/
def onTokens (f : List Token → List Token) (s : State) : State :=
  { s with blocks := mmap (fun b => { b with tokens := f b.tokens }) s.blocks }

/-- When the last team of a block ends, the block's open batch is closed (R320). -/
def closeOpen (core blk : Nat) (s : State) : State :=
  if s.allTeams.any fun t => t.blk == blk then s
  else s.onCore core fun c =>
    if c.mat.owner = some blk ∧ c.mat.isOpen then
      { c with mat := { c.mat with isOpen := false, batches := c.mat.batches ++ [c.mat.counter], counter := (c.mat.counter + 1) % 2 ^ 16 } }
    else c

/-- Ends the focused team: its slot and registers are free at once (R159), it gives up the trowel (R317). Its stores that are not yet accepted
stay its block's (R160). The spec does not say what becomes of the threads of a SPAWN or JOIN that has issued when its block is aborted: a bin
drops those that it has not taken yet, which is the model's choice (log entry 66). -/
def endTeam (aborted : Bool) (s : State) : State :=
  let s := traceEnd aborted s
  let t := s.team
  let c := coreOf t.tid
  let g := (s.block t.blk).grid
  let s := if aborted ∨ t.stores.isEmpty then s else s.onBlock t.blk fun b => { b with tokens := b.tokens ++ t.stores }
  let s := s.onCore c fun k =>
    let k := { k with
      tseq := if t.traced then mput k.tseq (g * 64 + t.tid % 64) t.tr.seq else k.tseq
      vport := k.vport.filter fun r => !(r.tid == t.tid && aborted)
      vwatch := k.vwatch.filter fun w => w.tid != t.tid
      sfu := k.sfu.map fun (q : List SfuEntry) => q.filter fun e => e.tid != t.tid
      vatq := k.vatq.filter fun j => j.tid != t.tid
      bins := mmap (fun b => { b with spawns := b.spawns.filter fun d => d.tid != t.tid }) k.bins
      vat := k.vat.filter fun j => j.tid != t.tid
      snaps := k.snaps.filter fun j => j.2.1 != t.tid }
    if k.mat.trowel = some t.tid then
      match aborted, k.mat.takers.filter (· != t.tid) with
      | false, u :: us => { k with mat := { k.mat with trowel := some u, takers := us } }
      | _, us => { k with mat := { k.mat with trowel := none, takers := us } }
    else { k with mat := { k.mat with takers := k.mat.takers.filter (· != t.tid) } }
  let taker := (s.core c).mat.trowel
  let s := { s with
    clusters := mmap (fun cl => { cl with
      watches := cl.watches.filter fun w => w.tid != t.tid
      net := cl.net.filter fun r => !(aborted && r.tid == t.tid)
      queue := cl.queue.filter fun r => !(aborted && r.tid == t.tid) }) s.clusters
    queues := mmap (fun q => { q with waiters := q.waiters.filter fun w => !(aborted && w.tid == t.tid) }) s.queues
    waking := s.waking.filter fun w => w.tid != t.tid
    preq := s.preq.filter fun r => r.tid != t.tid }
  let s := closeOpen c t.blk { forgetWalks (· == t.tid) s with team := {} }
  match taker with
  | some u => if u = t.tid then s else s.withTeam u fun s => if s.team.park = .baton then unpark s else s
  | none => s

/-- Ends a team by its id, whatever team is in focus. -/
def endTeamAt (tid : Nat) (s : State) : State :=
  if s.team.present ∧ s.team.tid = tid then endTeam true s
  else
    let back := s.team
    let s' := endTeam true (s.focus tid)
    if s.hasTeam tid then (if back.present then s'.focus back.tid else s') else s

/-- The keys of the blocks of a block's bond that are placed and not ended (R161, R352). -/
def bondKeys (s : State) (k : Nat) : List Nat :=
  let b := s.block k
  match b.kind with
  | .grid => (s.blocks.filter fun (_, c) =>
      c.kind == .grid && c.grid == b.grid && c.bond0 == b.bond0 && c.phase != .ended && c.phase != .saved && !c.aborted).map (·.1)
  | _ => [k]

/-- The first abort of a grid is recorded (R354): flag bit, cause, block and number of blocks. -/
def recordAbort (g flag cause lin n : Nat) (s : State) : State :=
  s.onGrid g fun x => { x with
    stFlags := x.stFlags ||| flag
    fcause := if x.nabort = 0 then cause else x.fcause
    fblk := if x.nabort = 0 then lin else x.fblk
    nabort := min 65535 (x.nabort + n) }

/-- The ids of the teams of a block that have not ended. -/
def teamsOf (s : State) (k : Nat) : List Nat := (s.allTeams.filter fun t => t.blk == k).map (·.tid)

/-- Discards what an aborted block has in the engines (R352): its jobs, fills and tasks release their entries, its members in the
matrix engine are discarded. -/
def dropEngines (k : Nat) (s : State) : State :=
  let b := s.block k
  let s := { s with dies := mmap (fun d =>
    { d with jobs := delayFreed s.ac d.jobs (d.jobs.filter fun j => !(j.blk == k) && !(b.kind == .task j.key)) }) s.dies }
  if b.matuse then
    s.onCore b.core fun c => { c with
      fills := Vector.replicate 4 []
      mat := { c.mat with queue := [], isOpen := false, batches := [], trowel := none, takers := [] } }
  else s

/-- Stops one block: every team of it ends, its engine work is discarded. -/
def stopBlock (k : Nat) (s : State) : State :=
  let s := (teamsOf s k).foldl (fun s tid => endTeamAt tid s) s
  dropEngines k (s.onBlock k fun b => { b with aborted := true, cload := none })

/-- Aborts one block (R352): the blocks of the tasks that it submitted stop with it. -/
def abortOne (k : Nat) (s : State) : State :=
  let tasks := (s.dies.flatMap fun p => p.2.jobs).filterMap fun j => if j.blk = k then j.blockKey else none
  stopBlock k (tasks.foldl (fun s t => stopBlock t s) s)

/-- Aborts a block and every member of its bond (R352), with the status it records (R354): it counts every member of the bond. -/
def abortBlock (k flag cause : Nat) (s : State) : State :=
  let b := s.block k
  let ks := bondKeys s k
  let s := recordAbort b.grid flag cause b.lin (if b.kind = .grid then b.bondSize else 1) s
  ks.foldl (fun s k => abortOne k s) s

/-! ### Traps -/

/-- The packed first word of the trap window of a lane (R346). -/
def faultWord (f : LaneFault) : Word :=
  w32 (f.cause % 64 + f.kind % 4 * 2 ^ 8 + f.ptype % 8 * 2 ^ 12 + f.lsub % 256 * 2 ^ 16)

/-- The fault that a lane of the entry mask has (R346). -/
def laneFaultOf (r : TrapReq) (lane : Nat) : LaneFault :=
  match mget? r.lanes lane with
  | some f => f
  | none => { cause := r.cause }

/-- The 13 registers of the trap window that are undefined at entry, for the lanes given, as free values (R346, log entry 1). -/
def windowUndef (n0 nregs : Nat) (lanes : List Nat) : List RegWrite :=
  lanes.zipIdx.flatMap fun (l, i) => (List.range 13).map fun k => ⟨l, nregs + 3 + k, Config.freeWord (n0 + 13 * i + k)⟩

/-- Trap entry, steps 3 to 6 of R344, once the team has drained: state saved, cause and trap window written, handler mode set, the PC at
the handler. A trap in handler mode or without a handler aborts the block (R352). -/
def enterTrap (s : State) : State :=
  match s.team.trapReq with
  | none => s
  | some r =>
    let t := s.team
    if t.hmode then abortBlock t.blk 1 cDOUBLE s
    else match t.handler with
      | none => abortBlock t.blk 8 r.cause s
      | some h =>
        let s := tracePre s
        let t := s.team
        let lanes := lanesOf r.mask
        let ws := lanes.flatMap fun l =>
          let f := laneFaultOf r l
          [⟨l, t.nregs, f.faddr.extractLsb' 0 32⟩, ⟨l, t.nregs + 1, f.faddr.extractLsb' 32 32⟩, ⟨l, t.nregs + 2, faultWord f⟩]
        let inM := r.late.getD t.mcall
        let tcause := w32 (r.cause % 64 + r.sub % 256 * 2 ^ 8 + ((inM.map (·.idx)).getD 0) % 32 * 2 ^ 16 +
          (if inM.isSome then 2 ^ 21 else 0) + (if r.collpart then 2 ^ 22 else 0))
        let trap : TrapState :=
          { tpc := r.tpc, tnext := r.tnext, active := r.saved, fmt := t.fmt, wbase := t.wbase,
            cdepth := t.cstack.length, rdepth := t.rstack.length, tcause := tcause, tjob := r.tjob, tfaddr := r.tfaddr,
            entry := r.mask, lanes := lanes.map fun l => (l, laneFaultOf r l), ivlo := t.trap.ivlo, event := r.event,
            boundary := r.boundary, mcall := inM, jobDie := r.jobDie, late := r.late.isSome, back := if r.late.isSome then t.mcall else none,
            reexec := if r.boundary then t.reexec else none, oldFailed := if r.boundary then t.failed else 0,
            oldFailFetch := r.boundary && t.failFetch }
        let t := writeRegs (ws ++ windowUndef s.fresh t.nregs lanes) t
        let t := { t with
          tstat := (t.tstat &&& 0xFFC0FFFF#32) ||| w32 (r.cause % 64 * 2 ^ 16)
          trap := trap, hmode := true, active := r.mask, pc := h, mcall := none, trapReq := none, park := .run
          reexec := none, failed := 0, failFetch := false, ir := none, walked := [], readyAt := s.ac + 8, stall := 0, swDue := false }
        let s := { s with team := t, fresh := s.fresh + 13 * lanes.length }
        traceEmit ((leBytes 1 0x50 ++ leBytes 1 r.cause) :: (if r.lanes.isEmpty then [] else maskPackets 0 r.mask)) s

/-- Raises a trap (R344): the team waits until it has drained, then enters it. -/
def raise (r : TrapReq) (s : State) : State :=
  let s := s.onTeam fun t => { t with trapReq := some r, park := .trap }
  if drained s.team then enterTrap s else s

/-- The mask that a trap saves as the active mask (R344, R351). -/
def savedMask (t : Team) : Mask := (t.reexec.map (·.mask)).getD t.active

/-- Where execution goes on after the instruction of `len` bytes at the PC (R344): past the MCALL inside an expansion. -/
def nextPc (t : Team) (len : Nat) : VAddr := ((t.mcall.map MCall.after).getD (t.pc + BitVec.ofNat 57 len))

/-- Ends the instruction with a trap of an instruction cause (R27, R347). -/
def trapI (cause len : Nat) (s : State) (sub : Nat := 0) : State :=
  let t := s.team
  raise { cause := cause, sub := sub, mask := savedMask t, saved := savedMask t, tpc := t.pc, tnext := nextPc t len } s

/-- Ends the instruction with a trap of a lane cause: the lowest code among the faulting lanes (R128). -/
def trapLanes (lanes : List (Nat × LaneFault)) (len : Nat) (s : State) : State :=
  let t := s.team
  let cause := (lanes.map fun p => p.2.cause).foldl min 63
  raise { cause := cause, lanes := lanes, mask := maskOf (lanes.map (·.1)), saved := savedMask t, tpc := t.pc, tnext := nextPc t len } s

/-- A lane cause of an access or check made once for the whole team: every active lane faults alike (R128). -/
def trapAll (f : LaneFault) (len : Nat) (s : State) : State :=
  trapLanes ((lanesOf s.team.active).map fun l => (l, f)) len s

/-- Raises an event at an instruction boundary (R353): resumed at the next instruction. -/
def raiseEvent (cause sub : Nat) (s : State) (tjob : Word := 0) (tf : DWord := 0) (coll : Bool := false) (die : Nat := 0) : State :=
  let t := s.team
  raise { cause := cause, sub := sub, mask := t.active, saved := t.active, tpc := t.pc, tnext := t.pc, event := true,
          boundary := true, tjob := tjob, tfaddr := tf, collpart := coll, jobDie := die } s

/-! ### The end of an instruction -/

/-- The next control word of an expansion, past one of `len` bytes, or its end, where the S marker of the MCALL falls due (R113). -/
def stepExpansion (len : Nat) (m : MCall) (t : Team) : Team × Bool :=
  if m.idx + len / 4 < m.words.length then ({ t with mcall := some { m with idx := m.idx + len / 4 } }, false)
  else ({ t with mcall := none, pc := m.after }, m.sw)

/-- Moves past an instruction of `len` bytes: the end of a partial re-execution, which goes on at TNEXT where that was written (R351, R348);
else the next control word inside an MCALL expansion (R113); else the PC plus the length. Answers whether an S marker of the MCALL falls
due. -/
def advance (len : Nat) (t : Team) : Team × Bool :=
  let t := { t with stall := 0, ir := none, walked := [], failed := 0, failFetch := false }
  match t.reexec with
  | some r =>
    let t := { t with active := r.mask, reexec := none }
    (match t.mcall, r.direct with
      | some m, false => stepExpansion len m t
      | _, _ => ({ t with pc := r.next, mcall := r.back }, false))
  | none =>
    match t.mcall with
    | some m => stepExpansion len m t
    | none => ({ t with pc := t.pc + BitVec.ofNat 57 len }, false)

/-- Parks the team after an S marker until nothing is outstanding (R21). -/
def markerPark (sw : Bool) (s : State) : State :=
  if sw ∧ s.team.present ∧ s.team.park = .run ∧ !drained s.team then s.onTeam fun t => { t with park := .marker } else s

/-- Completes an instruction of `len` bytes that continues in sequence. -/
def finish (h : Hd) (len : Nat) (s : State) : State :=
  let (t, m) := advance len s.team
  markerPark (h.sw || m) { s with team := t }

/-- Completes an instruction that sets the PC itself (a control transfer; it stands in no expansion, R112). -/
def finishAt (h : Hd) (pc : VAddr) (s : State) : State :=
  markerPark h.sw (s.onTeam fun t => { t with pc := pc, stall := 0, ir := none, walked := [], failed := 0, failFetch := false })

/-- The bookkeeping of an issue: retired work (R376), the scheduler's choice (R177) and the passes (R156). An instruction that traps in its
own checks takes one pass, which is the model's choice (log entry 47). -/
def begin (passes : Nat) (s : State) : State :=
  let s := s.onTeam fun t => { t with rwc := t.rwc + 1, lastIssue := s.ac, promoted := false, stall := 0, ir := none }
  { s with busy := mput s.busy (s.team.tid / 16) (s.ac + passes), issuer := mput s.issuer (s.team.tid / 16) s.team.age }

/-- Passes of an instruction that works lane by lane (R156). -/
def passesOf (t : Team) : Nat := max 1 (groupsOf t.active).length

/-- The team could not issue: it stalls with this code and its instruction waits (R176). -/
def stallOn (code : Nat) (s : State) : State := s.onTeam fun t => { t with stall := code }

/-- Adds an outstanding result (R20). -/
def addPend (p : Pend) (s : State) : State := s.onTeam fun t => { t with pend := t.pend ++ [p] }

/-- Adds a store or no-return atomic that is to be accepted (R21). -/
def addToken (k : Token) (s : State) : State := s.onTeam fun t => { t with stores := t.stores ++ [k] }

/-- The team parks at its wide barrier (R267); its staging chunk closes (R365). -/
def parkWbar (w : Nat) (s : State) : State :=
  let s := if s.team.traced then traceClose (traceFlush s) else s
  s.onTeam fun t => { t with park := .wbar w }

/-- After a result landed or a store was accepted: a team parked on the S marker goes on once nothing is outstanding (R21, R176), and one
that waits at WBAR parks there (R267). -/
def settle (s : State) : State :=
  if drained s.team then
    match s.team.park with
    | .marker => unpark s
    | .wbarDrain w => parkWbar w s
    | _ => s
  else s

/-! ### Divergence -/

/-- POP (R115): the topmost entry whose mask holds a live lane; none when the stack has no such entry. -/
def popStack (live : Mask) : List REntry → Option (REntry × List REntry)
  | [] => none
  | e :: es => if e.mask &&& live = 0 then popStack live es else some (e, es)

/-- The reconvergence stack changes: for as long as an entry moves between the 32 in hardware and the vault's system area, the team stalls
(R114). -/
def restack (ac : Nat) (es : List REntry) (t : Team) : Team :=
  { t with
    rstack := es
    rmove := if es.length ≠ t.rstack.length ∧ (32 < es.length ∨ 32 < t.rstack.length) then ac + 1 + Config.entryMoveAcs else t.rmove }

/-- POP applied to the focused team. -/
def doPop (s : State) : Option State :=
  match popStack s.team.live s.team.rstack with
  | none => none
  | some (e, es) => some (s.onTeam fun t => restack s.ac es { t with active := e.mask &&& t.live, fmt := e.fmt, pc := e.pc })

/-- RETT's return (R351), in handler mode: the part of the state it restores before the resumption. -/
def leaveHandler (ac : Nat) (t : Team) : Team :=
  let k := t.trap
  { restack ac (t.rstack.drop (t.rstack.length - k.rdepth)) t with
    cstack := t.cstack.drop (t.cstack.length - k.cdepth)
    fmt := k.fmt, wbase := k.wbase, hmode := false, mcall := k.mcall }

/-- Whether the control word at the position of an expansion has a literal (R52). -/
def cwordLong (m : MCall) : Bool :=
  let w := ((m.words[m.idx]?).getD {}).word
  w.getLsbD 30 && w.getLsbD 29

/-- The resumption of R351 at TNEXT: inside an expansion the next control word, or past the MCALL. -/
def resumeNext (k : TrapState) (s : State) : State :=
  let t := { s.team with active := k.active }
  match k.late, k.mcall with
  | true, _ => { s with team := { t with pc := k.tnext, mcall := if k.wroteTnext then none else k.back } }
  | false, none => { s with team := { t with pc := k.tnext } }
  | false, some m =>
    if k.wroteTnext then { s with team := { t with pc := k.tnext, mcall := none } }
    else if k.boundary then { s with team := { t with pc := k.tnext } }
    else
      let step := if cwordLong m then 2 else 1
      if m.idx + step < m.words.length then { s with team := { t with pc := m.pc, mcall := some { m with idx := m.idx + step } } }
      else markerPark m.sw { s with team := { t with pc := k.tnext, mcall := none } }

/-- RETT and RETT.SKIP (R351). -/
def returnTrap (skip : Bool) (s : State) : State :=
  let k := s.team.trap
  let t := { leaveHandler s.ac s.team with stall := 0, ir := none, walked := [] }
  if k.event then
    resumeNext k { s with team := { t with reexec := k.reexec, failed := k.oldFailed, failFetch := k.oldFailFetch } }
  else if skip then resumeNext k { s with team := t }
  else
    let t := { t with
      active := k.entry, pc := k.tpc, failed := k.failed, failFetch := k.lanes.any (fun p => p.2.kind == 3)
      mcall := if k.wroteTpc then none else t.mcall
      reexec := if k.entry = k.active ∧ !k.late then none
        else some { mask := k.active, next := k.tnext, direct := k.wroteTnext || k.late, back := if k.wroteTnext then none else k.back } }
    { s with team := t }

end Sys2Proof.Machine
end

