-- ==== Sys2Proof/Machine/Operands.lean ====
section
/-!
DEFINITION. Operand forms: shapes of register fields (R13, R144, R212), the checks of R26 in their order, hints (R23, R24, R54), and the
two ways an instruction runs: once for the team (R14), or in each active lane.
-/

namespace Sys2Proof.Machine

/-- A register operand: the field value, how many registers it names, whether its base is allowed for that shape, whether it is read and
whether it is written. -/
structure Opnd where
  f : Nat
  n : Nat := 1
  ok : Bool := true
  rd : Bool := true
  wr : Bool := false
deriving DecidableEq, Repr

/-- Whether a field may be the base of a pair (R13): an even scalar, or v0 to v94. -/
def pairOk (f : RegF) : Bool := decide (f.toNat < 95) || (isScalar f && f.toNat % 2 == 0)

/-- Whether a field may be the base of a quad (R144): s0, s4 … s20, or v0 to v92. -/
def quadOk (f : RegF) : Bool := decide (f.toNat ≤ 92) || (isScalar f && f.toNat % 4 == 0)

/-- Whether a run of `n` registers from a field stays within its bank (R26). -/
def runOk (f : RegF) (n : Nat) : Bool :=
  decide (f.toNat + n ≤ 96) || (isScalar f && decide (f.toNat + n ≤ 120))

/-- An operand that is read. -/
def src (f : RegF) : Opnd := { f := f.toNat }
/-- A pair that is read. -/
def srcPair (f : RegF) : Opnd := { f := f.toNat, n := 2, ok := pairOk f }
/-- An operand that is written. -/
def dst (f : RegF) : Opnd := { f := f.toNat, rd := false, wr := true }
/-- A pair that is written. -/
def dstPair (f : RegF) : Opnd := { f := f.toNat, n := 2, ok := pairOk f, rd := false, wr := true }
/-- An operand that is read and written. -/
def srcDst (f : RegF) : Opnd := { f := f.toNat, wr := true }

/-- The field values that an operand names. -/
def Opnd.fields (o : Opnd) : List Nat := (List.range o.n).map (o.f + ·)

/-- Whether a field value of an operand that is read is dead in some lane of the mask; a register that is not per lane is looked at once. -/
def deadIn (s : State) (f : Nat) (lanes : List Nat) : Bool :=
  let c := regCode s.team f
  if c < 512 then lanes.any fun l => regDead s.team c l else regDead s.team c 0

/-- Sets TSTAT.POISONED (R25). -/
def setPoisoned (t : Team) : Team := { t with tstat := t.tstat ||| 1#32 }

/-- The checks of R26 in order, over the operands in the order A, B, D, for the lanes that execute; `x` is the translation register that
the instruction names. Answers the trap cause, if any, and the state with POISONED set where a dead register was read. -/
def checkOps (s : State) (lanes : List Nat) (ops : List Opnd) (x : Option Nat := none) : State × Option Nat :=
  if ops.any fun o => !o.ok then (s, some cILLOPND)
  else if ops.any fun o => o.fields.any (windowBad s.team) then (s, some cWINDOW)
  else if ops.any fun o => o.fields.any fun f => isPending s.team (regCode s.team f) then (s, some cHAZARD)
  else if (x.map fun k => isPending s.team (560 + k)).getD false then (s, some cHAZARD)
  else
    let dead := ops.any fun o => o.rd && o.fields.any fun f => deadIn s f lanes
    let s := if dead then s.onTeam setPoisoned else s
    if dead ∧ s.team.tstat.getLsbD 1 then (s, some cPOISON)
    else if ops.any fun o => o.wr && decide (120 ≤ o.f) then (s, some cILLOPND)
    else (s, none)

/-- The hint codes that mark A, and B, as last use (R54). -/
def lastA (hnt : BitVec 3) : Bool := hnt = 1 ∨ hnt = 3 ∨ hnt = 7
def lastB (hnt : BitVec 3) : Bool := hnt = 2 ∨ hnt = 3 ∨ hnt = 6

/-- Makes the registers of a field dead in the given lanes (R24). -/
def killField (f : Nat) (n : Nat) (lanes : List Nat) (t : Team) : Team :=
  (List.range n).foldl (fun t k =>
    let c := regCode t (f + k)
    if c < 512 then lanes.foldl (fun t l => setDead c l true t) t else setDead c 0 true t) t

/-- The last-use hints of an instruction whose A names `na` registers and B `nb`; 0 where the field is no register operand. A register of
the destination stays live until its write, which follows. -/
def applyHints (h : Hd) (a : RegF) (na : Nat) (b : RegF) (nb : Nat) (lanes : List Nat) (t : Team) : Team :=
  let t := if lastA h.hnt then killField a.toNat na lanes t else t
  if lastB h.hnt then killField b.toNat nb lanes t else t

/-- The lanes that an instruction executes in: lane 0 alone stands for a uniform instruction, which executes once (R14). -/
def execLanes (s : State) (uniform : Bool) : List Nat := if uniform then [lowestLane s.team.active] else lanesOf s.team.active

/-- Whether an instruction reads, in a lane, a register with an uncorrectable error (R424). -/
def badOps (s : State) (ops : List Opnd) (lane : Nat) : Bool :=
  ops.any fun o => o.rd && o.fields.any fun f => regBad s.team (regCode s.team f) lane

/-- The fault of a register that holds an uncorrectable error (R346, R424). -/
def regEcc (kind : Nat) : LaneFault := { cause := cECC, lsub := 1, kind := kind }

/-- Runs an instruction after its checks of R26, with the check of R14 that a uniform instruction has no vector source, and the trap of a
register that holds an error: `k` goes on with the state after the checks. A memory instruction that works lane by lane (`mem`) traps on an
error in the lanes that read it (R128), which `k` sees to; any other instruction as a whole (R351, log entry 19). -/
def withOps (len : Nat) (uniform : Bool) (ops : List Opnd) (s : State) (k : State → State) (x : Option Nat := none) (mem : Bool := false) :
    State :=
  match checkOps s (lanesOf s.team.active) ops x with
  | (s, some c) => trapI c len (begin 1 s)
  | (s, none) =>
    if uniform ∧ ops.any (fun o => o.rd && decide (o.f < 96)) then trapI cILLOPND len (begin 1 s)
    else if !mem ∧ (lanesOf s.team.active).any (badOps s ops) then trapAll (regEcc 0) len (begin 1 s)
    else k s

/-- Passes of an instruction (R156). -/
def passes (s : State) (uniform : Bool) : Nat := if uniform then 1 else passesOf s.team

/-- The value that an instruction reads from a field in a lane, and whether it is POISON by R25. -/
def rd (s : State) (f : RegF) (lane : Nat) : Word × Bool := readReg s (regCode s.team f.toNat) lane

/-- The value alone. -/
def rdv (s : State) (f : RegF) (lane : Nat) : Word := (rd s f lane).1

/-- The value that a member of a tile or a class offers: a special is broadcast (R14, R185, R204), as a uniform instruction reads it (R155). -/
def rdc (s : State) (f : RegF) (lane : Nat) : Word := rdv s f (if isSpecial f then lowestLane s.team.active else lane)

/-- The value of register `k` of a group that starts at a field. -/
def rdn (s : State) (f : RegF) (k lane : Nat) : Word := (readReg s (regCode s.team (f.toNat + k)) lane).1

/-- A 64-bit pair (R13). -/
def rdPair (s : State) (f : RegF) (lane : Nat) : DWord := rdn s f 1 lane ++ rdn s f 0 lane

/-- A value read once for the team: a scalar or special. -/
def rdu (s : State) (f : RegF) : Word := rdv s f (lowestLane s.team.active)

/-- The writes of one register field in the executing lanes; a register that is not per lane is written once. -/
def writesOf (s : State) (f : Nat) (lanes : List Nat) (val : Nat → Word) : List RegWrite :=
  let c := regCode s.team f
  if c < 512 then lanes.map fun l => ⟨l, c, val l⟩
  else match lanes with
    | l :: _ => [⟨0, c, val l⟩]
    | [] => []

/-- A short instruction that computes D from A and B in each executing lane (R101): the operand checks, the hints, the write, the end. -/
def shortOp (h : Hd) (len : Nat) (d a b : RegF) (na nb : Nat) (f : Word × Bool → Word × Bool → Word) (s : State) : State :=
  let u := isScalar d
  let ops := (if na = 0 then [] else [src a]) ++ (if nb = 0 then [] else [src b]) ++ [dst d]
  withOps len u ops s fun s =>
    let lanes := execLanes s u
    let ws := writesOf s d.toNat lanes fun l => f (rd s a l) (rd s b l)
    let s := begin (passes s u) s
    finish h len (s.onTeam fun t => writeRegs ws (applyHints h a na b nb lanes t))

/-- A field of the format register, read at issue (R16, R107). -/
def fmtField (s : State) (hi lo : Nat) : Nat := bitsOf s.team.fmt.toNat hi lo

/-- RM, VEC, SAT, NF and SBLK (R16). -/
def fmtRm (s : State) : Nat := fmtField s 27 26
def fmtVec (s : State) : Nat := fmtField s 25 24
def fmtSat (s : State) : Nat := fmtField s 9 8
def fmtNf (s : State) : Nat := fmtField s 7 4
def fmtSblk (s : State) : Nat := fmtField s 13 12

/-- The writes of `n` registers from a field: `val k lane` for register k. -/
def writesOfN (s : State) (f n : Nat) (lanes : List Nat) (val : Nat → Nat → Word) : List RegWrite :=
  (List.range n).flatMap fun k => writesOf s (f + k) lanes (val k)

/-- A short instruction over register groups: A names `na` registers, and D `nd`; the value of register k of D in a lane follows from the
state at issue. -/
def shortGroup (h : Hd) (d a b : RegF) (na nb nd : Nat) (ops : List Opnd) (legal : State → Bool) (val : State → Nat → Nat → Word)
    (s : State) : State :=
  let u := isScalar d
  withOps 4 u ops s fun s =>
    if !legal s then trapI cILLOPND 4 (begin 1 s)
    else
      let lanes := execLanes s u
      let ws := writesOfN s d.toNat nd lanes (val s)
      let s := begin (passes s u) s
      finish h 4 (s.onTeam fun t => writeRegs ws (applyHints h a na b nb lanes t))

/-- Tile size of a PTILE code (R181). -/
def tileSize (c : Nat) : Nat :=
  match c with
  | 0 => 32
  | 1 => 16
  | 2 => 8
  | 3 => 4
  | 4 => 2
  | _ => 1024

/-- The members of each tile of size `z` among ascending lanes (R182). -/
def tilesOf (z : Nat) : List Nat → List (List Nat)
  | [] => []
  | l :: ls =>
    match tilesOf z ls with
    | [] => [[l]]
    | [] :: ts => [l] :: ts
    | (m :: ms) :: ts => if l / z = m / z then (l :: m :: ms) :: ts else [l] :: (m :: ms) :: ts

/-- The delay of a cross-lane result after the last pass (R195): tiles of at most 32 lanes, else the second figure plus the third for
each non-empty word. -/
def crossDelay (s : State) (whole : Bool) (small base step : Nat) : Nat :=
  if whole ∨ tileSize s.team.ptile.toNat = 1024 then base + step * (groupsOf s.team.active).length else small

/-- A long instruction issues with these register fields of D: waits for free entries of the pending-write record (R20), else the result
is added to the record, to land `delay` ac after the last pass. -/
def issueLong (len : Nat) (h : Hd) (p : Nat) (shared : Bool) (regs : List Nat) (writes : List RegWrite) (delay : Nat)
    (after : Team → Team) (s : State) : State :=
  let need := if shared then 1 else regs.length
  if pendCount s.team + need > 16 then stallOn 0x06 s
  else
    let pc := s.team.pc
    let s := begin p s
    let (tag, s) := s.takeTag
    let s := s.onTeam after
    let s := addPend { tag := tag, pc := pc, regs := regs, shared := shared, writes := writes, due := s.ac + (p - 1) + delay } s
    finish h len s

/-- The register codes of a group of fields. -/
def codesOf (s : State) (f : RegF) (n : Nat) : List Nat := (List.range n).map fun k => regCode s.team (f.toNat + k)

end Sys2Proof.Machine
end

