-- ==== Sys2Proof/Machine/Flags.lean ====
section
/-!
DEFINITION. The status words and how software writes them: TSTAT (R17, R18), MSTAT (R316), CECOUNT (R425).
-/

namespace Sys2Proof.Machine

/-- TSTAT after a SYS write (R18): bit 1 as written, bits 0, 3 and 4 cleared where a 1 is written, all else kept. -/
def tstatWrite (old w : Word) : Word :=
  ((old &&& ~~~ 2#32) ||| (w &&& 2#32)) &&& ~~~ (w &&& 0x19#32)

/-- The sticky bits of TSTAT. -/
def tstatSpawnFull : Word := 8#32
def tstatRegrpDense : Word := 16#32

/-- MSTAT after a SYS write (R316): bits 0 to 2 cleared where a 1 is written. -/
def mstatWrite (old w : Word) : Word := old &&& ~~~ (w &&& 7#32)

/-- CECOUNT after a SYS write (R425): every field whose bits are written as 1 is cleared. A field counts as written when all of its
eight bits are 1 (log entry 10). -/
def cecountWrite (old w : Word) : Word :=
  let keep := fun (k : Nat) => if w.extractLsb' (8 * k) 8 = 0xFF#8 then 0#8 else old.extractLsb' (8 * k) 8
  keep 3 ++ keep 2 ++ keep 1 ++ keep 0

end Sys2Proof.Machine
end

