-- ==== Sys2Proof/Machine/Xlate.lean ====
section
/-!
DEFINITION. Physical memory as the parties reach it (R230, R244), writes that reach memory and remove the watches of their lines (R257), page walks (R234 to
R236), the TLB (R241), translation registers (R238, R239) and the outcome of one lane's access (R128, R237).
-/

namespace Sys2Proof.Machine

/-! ### Memory -/

/-- The granule of error protection of a byte key (R424): 64 bits of a vault, 32 bytes elsewhere. -/
def granule (k : Nat) : Nat := if 2 ^ 42 ≤ k ∧ k < 2 ^ 57 then k / 8 * 8 else k / 32 * 32

/-- Whether `n` bytes from a key touch a word marked uncorrectable (R424). -/
def badAt (s : State) (k n : Nat) : Bool := s.bad.any fun g => decide (granule k ≤ g ∧ g < k + n)

/-- Whether a write of `n` bytes touches the line of a watch (R257). -/
def Watch.hitBy (k n : Nat) (w : Watch) : Bool := decide (k / 128 ≤ w.addr / 128 ∧ w.addr / 128 ≤ (k + n - 1) / 128)

/-- A write that reaches memory: its bytes; the watches of the lines that it touches leave their tables, and their teams are to be woken
(R257); the words that it writes lose their error marks (R424). -/
def State.store (s : State) (k : Nat) (bytes : List Byte) : State :=
  let n := bytes.length
  { s with
    mem := memPuts s.mem k bytes
    bad := s.bad.filter fun g => !(decide (granule k ≤ g ∧ g < k + n))
    waking := s.waking ++ (s.clusters.flatMap fun c => c.2.watches.filter (Watch.hitBy k n)) ++
      (s.cores.flatMap fun c => c.2.vwatch.filter (Watch.hitBy k n))
    clusters := mmap (fun c => { c with watches := c.watches.filter fun w => !Watch.hitBy k n w }) s.clusters
    cores := mmap (fun c => { c with vwatch := c.vwatch.filter fun w => !Watch.hitBy k n w }) s.cores }

/-- Bytes of memory from a key. -/
def State.load (s : State) (k n : Nat) : List Byte := memBytes s.mem k n

/-- The byte key of a physical address, when a window holds it. -/
def paKey (s : State) (pa : Nat) : Option Nat :=
  match paKind s.split pa with
  | .hbm k => some k
  | .vault c off => some (vaultKey c off)
  | .remote _ k => some k
  | .none => none

/-- The package that a physical address names (R244), and whether it is lost (R245). -/
def paPkg (pa : Nat) : Nat := pa / 2 ^ 42 % 2 ^ 14
def paLost (s : State) (pa : Nat) : Bool := s.lost.contains (paPkg pa)

/-- Bytes at a physical address; 0 where no window holds it (log entry 13). -/
def readPa (s : State) (pa n : Nat) : List Byte :=
  match paKey s pa with
  | some k => s.load k n
  | none => List.replicate n 0

/-- A range in pieces that do not cross a multiple of 2,048, the granule of the interleave (R231). -/
def paPieces : Nat → Nat → Nat → List (Nat × Nat)
  | 0, _, _ => []
  | f + 1, pa, n => if n = 0 then [] else (pa, min n (2048 - pa % 2048)) :: paPieces f (pa + min n (2048 - pa % 2048)) (n - min n (2048 - pa % 2048))

/-- Bytes of any range of physical addresses. -/
def readRange (s : State) (pa n : Nat) : List Byte := (paPieces (n / 2048 + 2) pa n).flatMap fun p => readPa s p.1 p.2

/-! ### Presence bits -/

/-- Sets the bit of a line of a core's user area, and wakes the teams that wait for it (R226). -/
def presenceSet (core line : Nat) (s : State) : State :=
  let s := s.onCore core fun c => { c with
    absent := c.absent.filter (· != line)
    arrived := c.arrived.filter (· != line)
    setNow := (line, s.ac) :: c.setNow.filter fun p => p.2 == s.ac && p.1 != line }
  let wake := fun (t : Team) => if t.park = .absent core line then unparked s.ac t else t
  { s with team := wake s.team, teams := mmap wake s.teams }

/-- The lines of a range of a vault. -/
def linesIn (off n : Nat) : List Nat := if n = 0 then [] else (List.range ((off + n - 1) / 128 - off / 128 + 1)).map (off / 128 + ·)

/-- The lines of a write to a vault that sets their bits in the same step (R226). -/
def presenceWrite (core off n : Nat) (s : State) : State := (linesIn off n).foldl (fun s l => presenceSet core l s) s

/-- The data of a write by an engine, through the aperture or from another package has arrived in these bytes of a vault: the lines whose
bits are to be set (R226). -/
def vaultArrive (core off n : Nat) (s : State) : State :=
  s.onCore core fun c =>
    let add := (linesIn off n).filter fun l => !c.arrived.contains l
    { c with arrived := c.arrived ++ add }

/-- A store at a physical address that bypasses every cache. -/
def writePa (pa : Nat) (bytes : List Byte) (s : State) : State :=
  match paKind s.split pa with
  | .hbm k => s.store k bytes
  | .vault c off => vaultArrive c off bytes.length (s.store (vaultKey c off) bytes)
  | .remote _ k => s.store k bytes
  | .none => s

/-! ### Walks -/

/-- The size of a page by the level of its leaf (R234, R238). -/
def pageSize (psz : Nat) : Nat :=
  match psz with
  | 0 => 2 ^ 12
  | 1 => 2 ^ 16
  | 2 => 2 ^ 21
  | _ => 2 ^ 30

/-- The region that an entry at a level covers (R356). -/
def levelSize (level : Nat) : Nat :=
  match level with
  | 4 => 2 ^ 39
  | 5 => 2 ^ 48
  | n => pageSize n

/-- The physical address of the entry that a VA selects in a table of a level: the low bit of its index and the entries (R234). -/
def entryPa (table level va : Nat) : Nat :=
  let n := if level = 0 then 16 else if level = 1 then 32 else 512
  table + 8 * (va / levelSize level % n)

/-- LSUB of the error that a read of 8 bytes of memory meets (R424), 0 for none. -/
def wordEcc (s : State) (pa : Nat) : Nat :=
  match paKind s.split pa with
  | .hbm k => if badAt s k 8 then 4 else 0
  | .vault c off => if badAt s (vaultKey c off) 8 then 2 else 0
  | _ => 0

/-- The walk of R236 from a table at level `level` − 1 down; the fuel is the level. -/
def walkFrom (s : State) (va : Nat) : Nat → Nat → WalkRes
  | 0, _ => { page := va / 4096 }
  | level + 1, table =>
    let at_ := entryPa table level va
    let e := leNat (readPa s at_ 8)
    let frame := bitsOf e 55 12
    let fail : WalkRes := { page := va / 4096, ptype := bitsOf e 11 9, level := level }
    if paLost s at_ then { page := va / 4096, gone := true }
    else if wordEcc s at_ ≠ 0 then { page := va / 4096, ecc := wordEcc s at_ }
    else match bitsOf e 11 9 with
    | 1 => if level = 0 then fail else walkFrom s va level (frame * 4096)
    | 2 =>
      if 4 ≤ level ∨ frame * 4096 % pageSize level ≠ 0 then fail
      else { page := va / 4096, ok := true, frame := frame, psz := level, r := bitAt e 4, w := bitAt e 5, x := bitAt e 6, ncm := bitAt e 7 }
    | _ => fail

/-- The physical addresses of the entries that a walk reads, from a table at level `level` − 1 down. -/
def walkPas (s : State) (va : Nat) : Nat → Nat → List Nat
  | 0, _ => []
  | level + 1, table =>
    let e := leNat (readPa s (entryPa table level va) 8)
    entryPa table level va :: if bitsOf e 11 9 = 1 ∧ level ≠ 0 then walkPas s va level (bitsOf e 55 12 * 4096) else []

/-- Whether a core's traffic reaches the memory at a physical address: an access to a lost package is refused, not held up (R1, R245, R382). -/
def paReaches (s : State) (core pa : Nat) : Bool := paLost s pa || s.reaches core (paPkg pa)

/-- An access of a core has gone to a physical address and its answer has come back: the port has carried both (R387). -/
def paCarried (core pa : Nat) (s : State) : State := (s.spokenTo core (paPkg pa)).heardFrom core (paPkg pa)

/-- Whether the tables of a walk are reached from a core. -/
def walkReaches (s : State) (core ctx va : Nat) : Bool := (walkPas s va 6 (s.ctx ctx).root).all (paReaches s core)

/-- The walk of a VA in a context (R234). -/
def walk (s : State) (ctx va : Nat) : WalkRes := walkFrom s va 6 (s.ctx ctx).root

/-! ### The TLB -/

/-- Whether a TLB entry holds the page of a VA in a context. -/
def TlbEntry.hits (e : TlbEntry) (ctx va : Nat) : Bool := e.ctx == ctx && e.page == va / pageSize e.psz

/-- The set of an entry (R241). -/
def TlbEntry.set (e : TlbEntry) : Nat := e.page % 64

/-- Inserts a leaf into a core's TLB; a full set gives up its least recently used entry. -/
def tlbInsert (e : TlbEntry) (tlb : List TlbEntry) : List TlbEntry :=
  let same := tlb.filter fun f => f.set == e.set
  let tlb := if same.length < 8 then tlb
    else match same.getLast? with
      | some old => tlb.filter (· != old)
      | none => tlb
  e :: tlb

/-- The leaf of a walk as a TLB entry. -/
def leafEntry (ctx va : Nat) (r : WalkRes) : TlbEntry :=
  { ctx := ctx, page := va / pageSize r.psz, psz := r.psz, frame := r.frame, r := r.r, w := r.w, x := r.x, ncm := r.ncm }

/-- Moves the entry that a lookup found to the front: the order of use. -/
def tlbTouch (c ctx va : Nat) (s : State) : State :=
  match (s.core c).tlb.find? fun e => e.hits ctx va with
  | some e => s.onCore c fun k => { k with tlb := e :: k.tlb.filter (· != e) }
  | none => s

/-! ### One access -/

/-- What an access needs (R237, R255): the KIND of R346. -/
inductive Need where
  | load | store | atomic | fetch
deriving DecidableEq, Repr

/-- KIND (R346). -/
def Need.kind : Need → Nat
  | .load => 0
  | .store => 1
  | .atomic => 2
  | .fetch => 3

/-- Whether permissions allow an access (R237). -/
def Need.allowed (n : Need) (r w x : Bool) : Bool :=
  match n with
  | .load => r
  | .store => w
  | .atomic => r && w
  | .fetch => x

/-- The outcome of translating one access. -/
inductive Xl where
  | ok (pa : Nat) (ncm : Bool)
  | fault (f : LaneFault)
  /-- A walk is needed: the VA. -/
  | wait (va : Nat)
deriving DecidableEq, Repr

/-- The outcome of the leaf or the failed walk that a VA ends in. -/
def walkOutcome (need : Need) (va : Nat) (r : WalkRes) : Xl :=
  let f : LaneFault := { cause := cPAGE, faddr := BitVec.ofNat 64 va, kind := need.kind }
  if r.gone then .fault { f with cause := cREMOTE }
  else if r.ecc ≠ 0 then .fault { f with cause := cECC, lsub := r.ecc }
  else if !r.ok then .fault { f with ptype := r.ptype, level := r.level }
  else if !need.allowed r.r r.w r.x then .fault { f with cause := cPROT }
  else .ok (r.frame * 4096 + va % pageSize r.psz) r.ncm

/-- What the TLB of the team's core, then the walks that the team has joined, say of a VA (R239, R242); none: a walk is needed. -/
def leafOf (s : State) (va : Nat) : Option WalkRes :=
  match (s.core s.myCore).tlb.find? fun e => e.hits s.myCtx va with
  | some e =>
    some { page := va / 4096, ok := true, frame := e.frame, psz := e.psz, r := e.r, w := e.w, x := e.x, ncm := e.ncm }
  | none => s.team.walked.find? fun r => r.page == va / 4096

/-- Translation of an access without a translation register (R239). -/
def xlateVa (s : State) (need : Need) (va : Nat) : Xl :=
  match leafOf s va with
  | some r => walkOutcome need va r
  | none => .wait va

/-- The limit of a translation register (R238). -/
def TReg.limit (x : TReg) : Nat := if x.v then pageSize x.psz.toNat - x.base.toNat % pageSize x.psz.toNat else 0

/-- The virtual address of an access through a translation register (R126, R239). -/
def xrVa (x : TReg) (off : Int) : Nat := (x.base + BitVec.ofInt 57 off).toNat

/-- The offset of a lane (R239): ZEXT(A) + SEXT(DISP). -/
def laneOff (a : Word) (disp : Int) : Int := (a.toNat : Int) + disp

/-- Checks of the physical address that a translation gave (R225, R230, R245): a vault aperture takes no atomic but WADDR's request. -/
def paCheck (s : State) (need : Need) (va : Nat) (x : Xl) : Xl :=
  match x with
  | .ok pa ncm =>
    let f : LaneFault := { cause := cPROT, faddr := BitVec.ofNat 64 va, kind := need.kind }
    if paLost s pa then .fault { f with cause := cREMOTE }
    else match paKind s.split pa with
      | .none => .fault f
      | .vault _ off => if 0xF0000 ≤ off ∨ need = .atomic then .fault f else .ok pa true
      | .hbm _ => .ok pa ncm
      | .remote _ _ => .ok pa true
  | y => y

/-- Whether an access hits in a translation register (R239). -/
def xrHit (x : TReg) (off : Int) (w : Nat) : Bool := x.v && decide (0 ≤ off ∧ off + w ≤ x.limit)

/-- The outcome of an access of `w` bytes through a translation register at an offset (R128, R237, R239). -/
def accessVa (s : State) (need : Need) (x : TReg) (off : Int) (w : Nat) : Xl :=
  let va := xrVa x off
  let f : LaneFault := { cause := cALIGN, faddr := BitVec.ofNat 64 va, kind := need.kind }
  if va % w ≠ 0 then .fault f
  else if xrHit x off w then
    if need.allowed x.r x.w false then
      paCheck s need va (.ok (x.frame.toNat * 4096 + x.base.toNat % pageSize x.psz.toNat + off.toNat) x.ncm)
    else .fault { f with cause := cPROT }
  else paCheck s need va (xlateVa s need va)

/-- The translation register of a field value. -/
def xreg (t : Team) (k : Nat) : TReg := vget {} t.x k

/-- One lane's access; a lane marked failed by HOSTREQ takes HOSTPAGE without access (R351). -/
def laneAccess (s : State) (need : Need) (x : TReg) (off : Int) (w lane : Nat) : Xl :=
  if s.team.failed.getLsbD lane ∧ !s.team.failFetch then
    .fault { cause := cHOSTPAGE, faddr := BitVec.ofNat 64 (xrVa x off), kind := need.kind }
  else accessVa s need x off w

/-- Outcomes of lanes: those that go on with their physical address and NCM, those that fault, and the VAs that need a walk. -/
def oksOf (xs : List (Nat × Xl)) : List (Nat × Nat × Bool) :=
  xs.filterMap fun p => match p.2 with | .ok pa ncm => some (p.1, pa, ncm) | _ => none
def faultsOf (xs : List (Nat × Xl)) : List (Nat × LaneFault) :=
  xs.filterMap fun p => match p.2 with | .fault f => some (p.1, f) | _ => none
def waitsOf (xs : List (Nat × Xl)) : List Nat :=
  xs.filterMap fun p => match p.2 with | .wait va => some va | _ => none

/-- The team waits on walks of these VAs (R242): it joins a walk in progress or takes a free walker, and stalls with TRANSL. The size of the page
is not known before the walk ends; that a miss joins the walk of its 4 KiB page of the VA is the model's choice (log entry 67). -/
def waitWalks (vas : List Nat) (s : State) : State :=
  let d := dieOfCore s.myCore
  let join := fun (ws : List Walk) (va : Nat) =>
    if ws.any fun w => w.ctx == s.myCtx && w.page == va / 4096 then
      ws.map fun w => if w.ctx = s.myCtx ∧ w.page = va / 4096 ∧ !w.tids.contains s.team.tid
        then { w with tids := w.tids ++ [s.team.tid] } else w
    else if ws.length < 64 then ws ++ [{ ctx := s.myCtx, page := va / 4096, tids := [s.team.tid] }]
    else ws
  stallOn 0x05 (s.onDie d fun x => { x with walks := vas.foldl join x.walks })

/-- A walk of a die completes: a leaf enters the TLB of every core that joined, and every access that joined receives the result (R241,
R242). It goes on as long as the tables that it reads are reached (R1). -/
def walkComplete (d n : Nat) (s : State) : State :=
  match (s.die d).walks[n]? with
  | none => s
  | some w =>
    let va := w.page * 4096
    if !walkReaches s (256 * d) w.ctx va then s
    else
    let r := walk s w.ctx va
    let s := (walkPas s va 6 (s.ctx w.ctx).root).foldl (fun s pa => paCarried (256 * d) pa s) s
    let s := s.onDie d fun x => { x with walks := x.walks.eraseIdx n }
    let s := if r.ok then
        (w.tids.map coreOf).eraseDups.foldl (fun s c => s.onCore c fun k => { k with tlb := tlbInsert (leafEntry w.ctx va r) k.tlb }) s
      else s
    w.tids.foldl (fun s tid => s.withTeam tid fun s => s.onTeam fun t =>
      { t with walked := r :: t.walked }) s

/-- Uses of the TLB by lanes that missed in the register. -/
def touchTlb (x : TReg) (w : Nat) (offs : List Int) (s : State) : State :=
  offs.foldl (fun s off => if xrHit x off w then s else tlbTouch s.myCore s.myCtx (xrVa x off) s) s

/-! ### Invalidation (R243) -/

/-- Clears V in every translation register of a team that `p` picks, and in those that a TXB is still to write; results of walks that `q`
picks are walked again. -/
def dropXlate (p : TReg → Bool) (q : WalkRes → Bool) (t : Team) : Team :=
  let off := fun (r : TReg) => if p r then { r with v := false } else r
  { t with
    x := t.x.map off
    pend := t.pend.map fun e => { e with tw := e.tw.map fun k => (k.1, off k.2) }
    walked := t.walked.filter fun r => !q r }

/-- Removes the TLB entries of a context that `cov` covers, by the VA of the page and its size, and clears V in every translation register
of its resident teams (R243). -/
def invalidate (ctx : Nat) (cov : Nat → Nat → Bool) (s : State) : State :=
  let fix := fun (t : Team) =>
    if (s.grid (s.block t.blk).grid).ctx = ctx then dropXlate (fun _ => true) (fun _ => true) t else t
  { s with
    cores := mmap (fun c =>
      { c with tlb := c.tlb.filter fun e => !(e.ctx == ctx && cov (e.page * pageSize e.psz) (pageSize e.psz)) }) s.cores
    team := fix s.team
    teams := mmap fix s.teams }

/-- Removes every translation whose frame names a package (R245). -/
def invalidatePkg (pkg : Nat) (s : State) : State :=
  let fix := dropXlate (fun r => paPkg (r.frame.toNat * 4096) == pkg) (fun r => r.gone || paPkg (r.frame * 4096) == pkg)
  { s with
    cores := mmap (fun c => { c with tlb := c.tlb.filter fun e => !(paPkg (e.frame * 4096) == pkg) }) s.cores
    team := fix s.team
    teams := mmap fix s.teams }

/-- WALK_COMPLETE (R242): the selection names the die and the walk. -/
def execWalkComplete (s : State) : Out := .next (walkComplete s.sel.unit s.sel.sub s)
/-- PRESENCE_SET (R226): the selection names the core and the line whose write has arrived. -/
def execPresenceSet (s : State) : Out :=
  .next (if (s.core s.sel.unit).arrived.contains s.sel.sub then presenceSet s.sel.unit s.sel.sub s else s)

end Sys2Proof.Machine
end

