-- ==== Sys2Proof/Machine/Cache.lean ====
section
/-!
DEFINITION. The core cache (R228, R229) and the cache actions of releases and acquires (R275).
-/

namespace Sys2Proof.Machine

/-- The mask of `n` bytes from byte `o` of a line. -/
def lineMask (o n : Nat) : BitVec 128 := BitVec.ofNat 128 ((2 ^ n - 1) * 2 ^ o)

/-- Bytes of a line. -/
def lineBytes (x : BitVec 1024) (o n : Nat) : List Byte := leBytes n (x.toNat / 2 ^ (8 * o))

/-- The 1024-bit mask of a byte mask. -/
def byteMask (m : BitVec 128) : BitVec 1024 :=
  BitVec.ofNat 1024 (((List.range 128).map fun i => if m.getLsbD i then 255 * 2 ^ (8 * i) else 0).foldl (· + ·) 0)

/-- A line with the bytes under a mask taken from another. -/
def mergeLine (old new : BitVec 1024) (m : BitVec 128) : BitVec 1024 := (old &&& ~~~ byteMask m) ||| (new &&& byteMask m)

/-- A line with bytes placed at an offset. -/
def placeBytes (o : Nat) (bs : List Byte) : BitVec 1024 := BitVec.ofNat 1024 (leNat bs * 2 ^ (8 * o))

/-- The set of a line (R228). -/
def lineSet (tag : Nat) : Nat := tag % 256

/-- The way that holds a line. -/
def findWay (c : Core) (tag : Nat) : Option Nat :=
  (List.range 8).find? fun w =>
    match mget? c.lines (lineSet tag * 8 + w) with
    | some l => l.tag == tag
    | none => false

/-- The line at a tag, when held. -/
def findLine (c : Core) (tag : Nat) : Option CLine :=
  match findWay c tag with
  | some w => mget? c.lines (lineSet tag * 8 + w)
  | none => none

/-- A bit of the tree set or cleared. -/
def treeSet (b : BitVec 7) (i : Nat) (v : Bool) : BitVec 7 :=
  if v then b ||| BitVec.ofNat 7 (2 ^ i) else b &&& ~~~ BitVec.ofNat 7 (2 ^ i)

/-- Tree pseudo-LRU (R228): every node on the way's path points away from it. -/
def plruTouch (b : BitVec 7) (w : Nat) : BitVec 7 :=
  let hi := w / 4
  let mid := w / 2 % 2
  treeSet (treeSet (treeSet b 0 (hi == 0)) (1 + hi) (mid == 0)) (3 + 2 * hi + mid) (w % 2 == 0)

/-- The way that the nodes point to. -/
def plruVictim (b : BitVec 7) : Nat :=
  let hi := if b.getLsbD 0 then 1 else 0
  let mid := if b.getLsbD (1 + hi) then 1 else 0
  let lo := if b.getLsbD (3 + 2 * hi + mid) then 1 else 0
  4 * hi + 2 * mid + lo

/-- Marks a way as used. -/
def touchWay (core tag w : Nat) (s : State) : State :=
  s.onCore core fun c => { c with plru := mput c.plru (lineSet tag) (plruTouch (mget 0 c.plru (lineSet tag)) w) }

/-- Runs of set bits of a byte mask below `n`, from byte `i` on: start and length. -/
def maskRuns (m : BitVec 128) : Nat → Nat → Option (Nat × Nat) → List (Nat × Nat)
  | 0, _, cur => cur.toList
  | fuel + 1, i, cur =>
    if m.getLsbD i then maskRuns m fuel (i + 1) (match cur with | some (a, n) => some (a, n + 1) | none => some (i, 1))
    else cur.toList ++ maskRuns m fuel (i + 1) none

/-- Marks the words of a line of memory whose bytes are under a mask (R424). -/
def markBad (pa : Nat) (m : BitVec 128) (s : State) : State :=
  match paKey s pa with
  | some k =>
    let hit := ((List.range 16).filter fun i => m &&& lineMask (8 * i) 8 != 0).map fun i => granule (k + 8 * i)
    { s with bad := s.bad ++ (hit.filter fun g => !s.bad.contains g).eraseDups }
  | none => s

/-- Writes the written bytes of a line to memory (R228); the line stays held. A written byte that holds an error marks its word there, so
that it is its reader that traps (R424, log entry 19). -/
def writeBackLine (core idx : Nat) (s : State) : State :=
  match mget? (s.core core).lines idx with
  | none => s
  | some l =>
    if l.written = 0 then s
    else
      let s := (maskRuns l.written 128 0 none).foldl (fun s (a, n) => writePa (l.tag * 128 + a) (lineBytes l.data a n) s) s
      let s := markBad (l.tag * 128) (l.bad &&& l.written) s
      s.onCore core fun c => { c with lines := mput c.lines idx { l with written := 0 } }

/-- Every written byte of a core's cache goes to memory (R275). -/
def writeBackAll (core : Nat) (s : State) : State :=
  ((s.core core).lines.map (·.1)).foldl (fun s i => writeBackLine core i s) s

/-- Invalidates the unwritten bytes of the lines that `p` picks (R275, R283). -/
def invalidateLines (core : Nat) (p : Nat → Bool) (s : State) : State :=
  s.onCore core fun c =>
    let keep := fun (x : Nat × CLine) =>
      if p x.2.tag then (if x.2.written = 0 then none else some (x.1, { x.2 with valid := x.2.written, bad := x.2.bad &&& x.2.written }))
      else some x
    { c with lines := c.lines.filterMap keep }

/-- Every unwritten byte of every line is invalidated (R275). -/
def invalidateCache (core : Nat) (s : State) : State := invalidateLines core (fun _ => true) s

/-- Writes a line back and invalidates it (R249). -/
def flushLine (core pa : Nat) (s : State) : State :=
  match findWay (s.core core) (pa / 128) with
  | none => s
  | some w =>
    let i := lineSet (pa / 128) * 8 + w
    (writeBackLine core i s).onCore core fun c => { c with lines := mdel c.lines i }

/-- A way for a line that is not held: the lowest free one, else the victim's after its write-back (R228). -/
def allocLine (core tag : Nat) (s : State) : Nat × State :=
  let base := lineSet tag * 8
  let c := s.core core
  match (List.range 8).find? fun w => (mget? c.lines (base + w)).isNone with
  | some w => (w, s.onCore core fun c => { c with lines := mput c.lines (base + w) { tag := tag } })
  | none =>
    let w := plruVictim (mget 0 c.plru (lineSet tag))
    let s := writeBackLine core (base + w) s
    (w, s.onCore core fun c => { c with lines := mput c.lines (base + w) { tag := tag } })

/-- The line in the cache, allocated when it is not held. -/
def holdLine (core tag : Nat) (s : State) : Nat × State :=
  match findWay (s.core core) tag with
  | some w => (w, s)
  | none => allocLine core tag s

/-- A cached load of `n` bytes that stay within a line (R228). An error in bytes that are not written makes the line be invalidated and
refilled (R424). -/
def cacheLoad (core pa n : Nat) (s : State) : List Byte × State :=
  let tag := pa / 128
  let (w, s) := holdLine core tag s
  let i := lineSet tag * 8 + w
  let l := mget { tag := tag } (s.core core).lines i
  let m := lineMask (pa % 128) n
  let l := if l.valid &&& m = m ∧ l.bad &&& ~~~ l.written &&& m = 0 then l
    else { l with data := mergeLine (placeBytes 0 (readPa s (tag * 128) 128)) l.data l.written, valid := BitVec.allOnes 128,
                  bad := l.bad &&& l.written }
  let s := s.onCore core fun c => { c with lines := mput c.lines i l }
  (lineBytes l.data (pa % 128) n, touchWay core tag w s)

/-- A cached store within a line (R228). -/
def cacheStore (core pa : Nat) (bs : List Byte) (s : State) : State :=
  let tag := pa / 128
  let (w, s) := holdLine core tag s
  let i := lineSet tag * 8 + w
  let l := mget { tag := tag } (s.core core).lines i
  let m := lineMask (pa % 128) bs.length
  let l := { l with data := mergeLine l.data (placeBytes (pa % 128) bs) m, valid := l.valid ||| m, written := l.written ||| m,
                    bad := l.bad &&& ~~~ m }
  touchWay core tag w (s.onCore core fun c => { c with lines := mput c.lines i l })

/-- A load that bypasses the cache: memory's bytes, save those that the core's cache holds as written (R229). -/
def bypassLoad (s : State) (core pa n : Nat) : List Byte :=
  let mem := readPa s pa n
  match findLine (s.core core) (pa / 128) with
  | none => mem
  | some l => lineBytes (mergeLine (placeBytes (pa % 128) mem) l.data l.written) (pa % 128) n

/-- A store that bypasses the cache: memory, and the bytes of any copy held (R229). -/
def bypassStore (core pa : Nat) (bs : List Byte) (s : State) : State :=
  let s := writePa pa bs s
  match findWay (s.core core) (pa / 128) with
  | none => s
  | some w =>
    let i := lineSet (pa / 128) * 8 + w
    s.onCore core fun c =>
      let l := mget { tag := pa / 128 } c.lines i
      let data := mergeLine l.data (placeBytes (pa % 128) bs) (l.valid &&& lineMask (pa % 128) bs.length)
      { c with lines := mput c.lines i { l with data := data, bad := l.bad &&& ~~~ lineMask (pa % 128) bs.length } }

/-- Whether a physical address is cacheable for the core of its package (R228, R230, R244). -/
def cacheable (s : State) (pa : Nat) (ncm : Bool) : Bool :=
  match paKind s.split pa with
  | .hbm _ => !ncm
  | _ => false

/-- A load of `n` bytes at a physical address by a team of a core: through the cache, or past it. -/
def loadPa (core pa n : Nat) (ncm past : Bool) (s : State) : List Byte × State :=
  match paKind s.split pa with
  | .hbm _ => if ncm ∨ past then (bypassLoad s core pa n, s) else cacheLoad core pa n s
  | _ => (readPa s pa n, s)

/-- A store at a physical address by a team of a core. -/
def storePa (core pa : Nat) (ncm past : Bool) (bs : List Byte) (s : State) : State :=
  match paKind s.split pa with
  | .hbm _ => if ncm ∨ past then bypassStore core pa bs s else cacheStore core pa bs s
  | _ => writePa pa bs s

/-- The uncorrectable error that a load of a team meets (R424), by its LSUB: 3 in a written byte of its cache, 4 in HBM where its own cache
does not hold the bytes, 2 in a vault. -/
def eccOf (s : State) (core pa n : Nat) : Option Nat :=
  match paKind s.split pa with
  | .hbm k =>
    let m := lineMask (pa % 128) n
    (match findLine (s.core core) (pa / 128) with
      | some l =>
        if l.bad &&& l.written &&& m ≠ 0 then some 3
        else if l.written &&& m = m ∨ !badAt s k n then none
        else some 4
      | none => if badAt s k n then some 4 else none)
  | .vault c off => if badAt s (vaultKey c off) n then some 2 else none
  | _ => none

/-- The release actions of a scope on a core's cache (R275): CLUS and wider write everything back. -/
def releaseCache (core scope : Nat) (s : State) : State := if 2 ≤ scope then writeBackAll core s else s

/-- The acquire actions of a scope (R275): CLUS and wider invalidate what is not written. -/
def acquireCache (core scope : Nat) (s : State) : State := if 2 ≤ scope then invalidateCache core s else s

/-- Whether every memory access that the team has issued is performed, applied or landed (R275). -/
def memDrained (t : Team) : Bool := t.stores.isEmpty && t.pend.all fun p => !p.mem

/-- Whether an acquire of the team is still to complete: covered accesses wait (R275). -/
def acqPending (t : Team) : Bool := t.pend.any fun p => p.acq.isSome

end Sys2Proof.Machine
end

