-- ==== Sys2Proof/Machine/Memory.lean ====
section
/-!
DEFINITION. LDG, STG, LDV, STV (R126 to R130), TXB (R125, R240), EXPECT (R261), SPILL and FILL (R262, R263), and the landing of results and
acceptance of stores (R20, R21).
-/

namespace Sys2Proof.Machine

/-! ### Fields of memory literals (R61 to R64) -/

/-- DISP, ORD, SCOPE and the fields of B of a memory instruction. -/
def litDisp (l : Word) : Int := sextInt 24 l.toNat
def litOrd (l : Word) : Nat := bitsOf l.toNat 31 30
def litScope (l : Word) : Nat := bitsOf l.toNat 29 27
def widthOf (b : RegF) : Nat := 2 ^ bitsOf b.toNat 3 2
def sxOf (b : RegF) : Bool := bitAt b.toNat 1
def ncOf (b : RegF) : Bool := bitAt b.toNat 0
def xrOf (b : RegF) : Nat := bitsOf b.toNat 6 4

/-- The checks of R64. -/
def ordOk (store : Bool) (l : Word) : Bool :=
  decide (litScope l < 6) && (if store then litOrd l == 0 || litOrd l == 2 else decide (litOrd l < 2))

/-- The data operand: a register, or a pair for width 8. -/
def dataOpnd (store : Bool) (d : RegF) (w : Nat) : Opnd :=
  match store, w with
  | true, 8 => srcPair d
  | true, _ => src d
  | false, 8 => dstPair d
  | false, _ => dst d

/-- Registers of the data. -/
def dataRegs (w : Nat) : Nat := if w = 8 then 2 else 1

/-- The value of register `k` of a load (R127). -/
def loadWord (w : Nat) (sx : Bool) (bytes : List Byte) (k : Nat) : Word :=
  let n := leNat bytes
  if k = 1 then w32 (n / 2 ^ 32)
  else if sx ∧ w < 4 then wInt (sextInt (8 * w) n) else w32 n

/-- The bytes that a store takes from D in a lane. -/
def storeBytes (s : State) (d : RegF) (w lane : Nat) : List Byte :=
  leBytes w (if w = 8 then (rdPair s d lane).toNat else (rdv s d lane).toNat)

/-! ### Common parts -/

/-- Hints of a memory instruction: in full when no lane faults, else only on vector registers in the lanes that complete (R24, R344). -/
def memHints (h : Hd) (a : RegF) (lanes : List Nat) (faulted : Bool) (t : Team) : Team :=
  if !faulted then applyHints h a 1 a 0 lanes t
  else if lastA h.hnt ∧ isVec a then killField a.toNat 1 lanes t else t

/-- The end of a memory instruction: in sequence, or with the trap of its faulting lanes (R128). -/
def endMem (h : Hd) (u : Bool) (faults : List (Nat × LaneFault)) (s : State) : State :=
  match faults with
  | [] => finish h 8 s
  | (_, f) :: _ => if u then trapAll f 8 s else trapLanes faults 8 s

/-- Whether the snapshot of an RSNAP of the team still waits on a word of these bytes (R222, R416). -/
def snapWaits (s : State) (k n : Nat) : Bool :=
  s.cores.any fun c => c.2.snaps.any fun r =>
    r.2.1 == s.team.tid && decide (k < vaultKey c.1 r.2.2.1 + 256 ∧ vaultKey c.1 r.2.2.1 < k + n)

/-- Whether a request of the team to an owner of atomics, or the snapshot of an RSNAP, still waits on a word of these bytes: the lane's later
access to them waits until it is applied (R222, R416). -/
def atomWaits (s : State) (k n : Nat) : Bool :=
  let mine := fun (r : Req) => r.tid == s.team.tid && decide (k < r.addr + 4 ∧ r.addr < k + n)
  (s.clusters.any fun c => c.2.queue.any mine || c.2.net.any mine) || (s.cores.any fun c => c.2.vport.any mine) || snapWaits s k n

/-- The waits of a memory instruction before it makes an access (R275): an acquire that is still to complete, and for a release the
accesses that it covers. -/
def orderWaits (s : State) (rel : Bool) : Bool := acqPending s.team || (rel && !memDrained s.team)

/-- The typical latency of a global access (R222): the model's own order of due steps uses it, and nothing else does (log entry 1). -/
def usualPa (s : State) (ncm past : Bool) (pa : Nat) : Nat :=
  match paKind s.split pa with
  | .vault c _ => if c / 256 = s.myCore / 256 then 80 else 200
  | .hbm _ => if !ncm ∧ !past ∧ (findLine (s.core s.myCore) (pa / 128)).isSome then 30 else 400
  | _ => 400

/-- The longest of the typical latencies of the lanes. -/
def usualPas (s : State) (past : Bool) (oks : List (Nat × Nat × Bool)) : Nat :=
  oks.foldl (fun m o => max m (usualPa s o.2.2 past o.2.1)) 0

/-- The typical latency of a vault access (R222). -/
def usualVault (s : State) (r : Block) : Nat := if r.core = s.myCore ∧ r.voff = s.myBlock.voff then 14 else 40

/-- The result of a load enters the record and the instruction ends. -/
def endLoad (h : Hd) (u : Bool) (p : Nat) (d : RegF) (w : Nat) (writes : List RegWrite) (hints : Team → Team) (acq : Option Nat)
    (faults : List (Nat × LaneFault)) (any : Bool) (usual : Nat) (far : Option FarAccess) (s : State) : State :=
  let regs := codesOf s d (dataRegs w)
  let pc := s.team.pc
  let s := (begin p (s.farSpoken s.myCore far)).onTeam hints
  if any then
    let (tag, s) := s.takeTag
    endMem h u faults (addPend { tag := tag, pc := pc, regs := regs, writes := writes, due := s.ac + (p - 1), usual := s.ac + (p - 1) + usual, mem := true, acq := acq,
                                    far := far } s)
  else endMem h u faults s

/-- A store's token, and the end of the instruction. -/
def endStore (h : Hd) (u : Bool) (p : Nat) (hints : Team → Team) (vault : Bool) (faults : List (Nat × LaneFault)) (any : Bool)
    (usual : Nat) (far : Option FarAccess) (s : State) : State :=
  let s := (begin p (s.farSpoken s.myCore far)).onTeam hints
  if any then
    let (tag, s) := s.takeTag
    endMem h u faults (addToken { tag := tag, vault := vault, due := s.ac + (p - 1), usual := s.ac + (p - 1) + usual / 2,
                                  lanes := s.team.active, far := far } s)
  else endMem h u faults s

/-! ### Global space -/

/-- The outcomes of the lanes of a global access. -/
def globalLanes (s : State) (need : Need) (xr : Nat) (a : RegF) (disp : Int) (w : Nat) (lanes : List Nat) : List (Nat × Xl) :=
  lanes.map fun l => (l, laneAccess s need (xreg s.team xr) (laneOff (rdv s a l) disp) w l)

/-- The offsets of the lanes. -/
def laneOffs (s : State) (a : RegF) (disp : Int) (lanes : List Nat) : List Int := lanes.map fun l => laneOff (rdv s a l) disp

/-- Turns the lanes whose load meets an uncorrectable error into faults (R424). -/
def eccLanes (s : State) (kind xr : Nat) (a : RegF) (disp : Int) (w : Nat) (xs : List (Nat × Xl)) : List (Nat × Xl) :=
  xs.map fun (l, x) =>
    match x with
    | .ok pa _ =>
      match eccOf s s.myCore pa w with
      | some k =>
        (l, .fault { cause := cECC, faddr := BitVec.ofNat 64 (xrVa (xreg s.team xr) (laneOff (rdv s a l) disp)), lsub := k, kind := kind })
      | none => (l, x)
    | _ => (l, x)

/-- Turns the lanes that read a register with an error into faults (R128, R424); a uniform instruction reads once for all. -/
def badLanes (s : State) (u : Bool) (kind : Nat) (ops : List Opnd) (xs : List (Nat × Xl)) : List (Nat × Xl) :=
  xs.map fun (l, x) => if badOps s ops l ∨ (u ∧ (lanesOf s.team.active).any (badOps s ops)) then (l, .fault (regEcc kind)) else (l, x)

/-- The lanes of an access that go to another package, with what each meets when that package is lost while it is in flight (R245). -/
def farOf (s : State) (u : Bool) (need : Need) (xr : Nat) (a : RegF) (disp : Int) (oks : List (Nat × Nat × Bool)) : Option FarAccess :=
  let one := fun (o : Nat × Nat × Bool) =>
    if paPkg o.2.1 = Config.packageIndex then []
    else
      let f : LaneFault := { cause := cREMOTE, kind := need.kind,
                             faddr := BitVec.ofNat 64 (xrVa (xreg s.team xr) (laneOff (rdv s a o.1) disp)) }
      (if u then lanesOf s.team.active else [o.1]).map fun l => (l, paPkg o.2.1, f)
  match oks.flatMap one with
  | [] => none
  | ls => some { pc := s.team.pc, back := s.team.mcall, lanes := ls }

/-- Whether a lane's access waits for an atomic of its own. -/
def okAtomWaits (s : State) (w : Nat) (oks : List (Nat × Nat × Bool)) : Bool :=
  oks.any fun o => match paKey s o.2.1 with
    | some k => atomWaits s k w
    | none => false

/-- The loads of the lanes in ascending order, through the cache or past it. -/
def loadLanes (core w : Nat) (past : Bool) (oks : List (Nat × Nat × Bool)) (s : State) : List (Nat × List Byte) × State :=
  oks.foldl (fun acc o =>
    let (bs, s) := loadPa core o.2.1 w o.2.2 past acc.2
    (acc.1 ++ [(o.1, bs)], s)) ([], s)

/-- The virtual address of a lane's access. -/
def laneVa (s : State) (xr : Nat) (a : RegF) (disp : Int) (l : Nat) : Nat := xrVa (xreg s.team xr) (laneOff (rdv s a l) disp)

/-- Whether `n` bytes at a VA of a context touch a ring slice of a grid of it that runs (R214): one slice for each of 2,048 cores. -/
def inSlice (s : State) (ctx va n : Nat) : Bool :=
  s.grids.any fun g => g.2.ctx == ctx && g.2.started && !g.2.ended && g.2.launch.bins.any fun b =>
    decide (b.ring.toNat < va + n ∧ va < b.ring.toNat + 2048 * (128 + 64 * 2 ^ b.ringlog))

/-- What a read of a running grid's ring slice returns: a free value (R214, log entry 1). -/
def sliceFree (s : State) (lane k : Nat) : Word := Config.freeWord (s.fresh + 2 * lane + k)

/-- LDG (R126 to R128). -/
def doLdg (h : Hd) (d a b : RegF) (l : Word) (s : State) : State :=
  let w := widthOf b
  let u := isScalar d
  withOps 8 u [src a, dataOpnd false d w] s (x := some (xrOf b)) (mem := true) fun s =>
    if !ordOk false l then trapI cILLOPND 8 (begin 1 s)
    else
      let lanes := execLanes s u
      let xs := globalLanes s .load (xrOf b) a (litDisp l) w lanes
      if orderWaits s false then stallOn 0x02 s
      else if !(waitsOf xs).isEmpty then waitWalks (waitsOf xs) s
      else
        let xs := badLanes s u 0 [src a] (eccLanes s 0 (xrOf b) a (litDisp l) w xs)
        let oks := oksOf xs
        if okAtomWaits s w oks then stallOn 0x02 s
        else if !oks.isEmpty ∧ pendCount s.team + dataRegs w > 16 then stallOn 0x06 s
        else
          let acq := litOrd l == 1
          let s0 := s
          let (vals, s) := loadLanes s.myCore w (ncOf b || acq) oks (touchTlb (xreg s.team (xrOf b)) w (laneOffs s a (litDisp l) lanes) s)
          let s := if acq ∧ !oks.isEmpty then acquireCache s.myCore (litScope l) s else s
          let ws := vals.flatMap fun (ln, bs) => writesOfN s0 d.toNat (dataRegs w) [ln] fun k _ =>
            if inSlice s0 s0.myCtx (laneVa s0 (xrOf b) a (litDisp l) ln) w then sliceFree s0 ln k else loadWord w (sxOf b) bs k
          endLoad h u (passes s u) d w ws (memHints h a (oks.map (·.1)) (!(faultsOf xs).isEmpty))
            none (faultsOf xs) (!oks.isEmpty) (usualPas s0 (ncOf b || acq) oks) (farOf s0 u .load (xrOf b) a (litDisp l) oks)
            { s with fresh := s.fresh + if oks.any fun o => inSlice s0 s0.myCtx (laneVa s0 (xrOf b) a (litDisp l) o.1) w then 2048 else 0 }

/-- The stores of the lanes in ascending order (R127). -/
def storeLanes (s0 : State) (core w : Nat) (d : RegF) (past : Bool) (oks : List (Nat × Nat × Bool)) (s : State) : State :=
  oks.foldl (fun s o => storePa core o.2.1 o.2.2 past (storeBytes s0 d w o.1) s) s

/-- STG (R126 to R128). -/
def doStg (h : Hd) (d a b : RegF) (l : Word) (s : State) : State :=
  let w := widthOf b
  let u := isScalar d
  withOps 8 u [src a, dataOpnd true d w] s (x := some (xrOf b)) (mem := true) fun s =>
    if !ordOk true l then trapI cILLOPND 8 (begin 1 s)
    else
      let lanes := execLanes s u
      let xs := badLanes s u 1 [src a, dataOpnd true d w] (globalLanes s .store (xrOf b) a (litDisp l) w lanes)
      let rel := litOrd l == 2
      if orderWaits s rel then stallOn 0x02 s
      else if !(waitsOf xs).isEmpty then waitWalks (waitsOf xs) s
      else
        let oks := oksOf xs
        if okAtomWaits s w oks then stallOn 0x02 s
        else
          let s0 := s
          let s := touchTlb (xreg s.team (xrOf b)) w (laneOffs s a (litDisp l) lanes) s
          let s := if rel ∧ !oks.isEmpty then releaseCache s.myCore (litScope l) s else s
          let s := storeLanes s0 s.myCore w d (ncOf b || (rel && decide (2 ≤ litScope l))) oks s
          endStore h u (passes s u) (memHints h a (oks.map (·.1)) (!(faultsOf xs).isEmpty)) false (faultsOf xs) (!oks.isEmpty)
            (usualPas s0 (ncOf b || rel) oks) (farOf s0 u .store (xrOf b) a (litDisp l) oks) s

/-! ### Vault space -/

/-- The block of a bond member (R130, R404). -/
def bondBlock (s : State) (k : Nat) : Option Block :=
  let b := s.myBlock
  if k = b.member then some b
  else (s.blocks.find? fun (_, c) => c.kind == .grid && c.grid == b.grid && c.bond0 == b.bond0 && c.member == k).map (·.2)

/-- DISP of a vault access (R62). -/
def vaultDisp (b : RegF) (l : Word) : Int := if bitAt b.toNat 6 then sextInt 23 l.toNat else litDisp l

/-- The region of a vault access: the block's own, or a member's. -/
def vaultRegion (s : State) (b : RegF) (l : Word) : Option Block :=
  if bitAt b.toNat 6 then
    if s.myBlock.bondSize ≤ bitsOf l.toNat 26 23 then none else bondBlock s (bitsOf l.toNat 26 23)
  else some s.myBlock

/-- One lane's access of `w` bytes at an offset of a region (R130): the offset in the core's vault, or a fault. -/
def vaultLane (r : Block) (kind : Nat) (off : Int) (w : Nat) : Nat ⊕ LaneFault :=
  let f : LaneFault := { cause := cALIGN, faddr := BitVec.ofInt 64 off, kind := kind }
  if off % w ≠ 0 then .inr f
  else if off < 0 ∨ (r.vbytes : Int) < off + w then .inr { f with cause := cVRANGE }
  else .inl (r.voff + off.toNat)

/-- Outcomes of the lanes of a vault access. -/
def vaultLanes (s : State) (r : Block) (kind : Nat) (a : RegF) (disp : Int) (w : Nat) (lanes : List Nat) :
    List (Nat × (Nat ⊕ LaneFault)) :=
  lanes.map fun l =>
    if s.team.failed.getLsbD l ∧ !s.team.failFetch then
      (l, .inr { cause := cHOSTPAGE, kind := kind })
    else
      match vaultLane r kind (laneOff (rdv s a l) disp) w with
      | .inl off =>
        if kind ≠ 1 ∧ badAt s (vaultKey r.core off) w then
          (l, .inr { cause := cECC, faddr := BitVec.ofInt 64 (laneOff (rdv s a l) disp), lsub := 2, kind := kind })
        else (l, .inl off)
      | x => (l, x)

/-- As `badLanes`, for a vault access. -/
def badVault (s : State) (u : Bool) (kind : Nat) (ops : List Opnd) (xs : List (Nat × (Nat ⊕ LaneFault))) : List (Nat × (Nat ⊕ LaneFault)) :=
  xs.map fun (l, x) => if badOps s ops l ∨ (u ∧ (lanesOf s.team.active).any (badOps s ops)) then (l, .inr (regEcc kind)) else (l, x)

/-- Lanes that go on, with their vault offset, and lanes that fault. -/
def vOks (xs : List (Nat × (Nat ⊕ LaneFault))) : List (Nat × Nat) :=
  xs.filterMap fun p => match p.2 with | .inl o => some (p.1, o) | .inr _ => none
def vFaults (xs : List (Nat × (Nat ⊕ LaneFault))) : List (Nat × LaneFault) :=
  xs.filterMap fun p => match p.2 with | .inl _ => none | .inr f => some (p.1, f)

/-- The first absent line of a vault that the given ranges touch (R226). -/
def absentLine (s : State) (core : Nat) (ranges : List (Nat × Nat)) : Option Nat :=
  (ranges.flatMap fun r => linesIn r.1 r.2).find? fun l => (s.core core).absent.contains l

/-- The team parks on a clear presence bit (R226); the instruction waits and is issued again. -/
def parkAbsent (core line : Nat) (s : State) : State := s.onTeam fun t => { t with park := .absent core line }

/-- LDV (R130). -/
def doLdv (h : Hd) (d a b : RegF) (l : Word) (s : State) : State :=
  let w := widthOf b
  let u := isScalar d
  withOps 8 u [src a, dataOpnd false d w] s (mem := true) fun s =>
    if !ordOk false l then trapI cILLOPND 8 (begin 1 s)
    else match vaultRegion s b l with
      | none => trapI cMEMBER 8 (begin 1 s)
      | some r =>
        let lanes := execLanes s u
        let xs := badVault s u 0 [src a] (vaultLanes s r 0 a (vaultDisp b l) w lanes)
        let oks := vOks xs
        if orderWaits s false then stallOn 0x02 s
        else match absentLine s r.core (oks.map fun o => (o.2, w)) with
          | some line => parkAbsent r.core line s
          | none =>
            if oks.any fun o => atomWaits s (vaultKey r.core o.2) w then stallOn 0x02 s
            else if !oks.isEmpty ∧ pendCount s.team + dataRegs w > 16 then stallOn 0x06 s
            else
              let ws := oks.flatMap fun (ln, off) =>
                let bs := s.load (vaultKey r.core off) w
                writesOfN s d.toNat (dataRegs w) [ln] fun k _ => loadWord w (sxOf b) bs k
              let s := if litOrd l = 1 ∧ !oks.isEmpty then acquireCache s.myCore (litScope l) s else s
              endLoad h u (passes s u) d w ws (memHints h a (oks.map (·.1)) (!(vFaults xs).isEmpty))
                none (vFaults xs) (!oks.isEmpty) (usualVault s r) none s

/-- STV (R130). -/
def doStv (h : Hd) (d a b : RegF) (l : Word) (s : State) : State :=
  let w := widthOf b
  let u := isScalar d
  withOps 8 u [src a, dataOpnd true d w] s (mem := true) fun s =>
    if !ordOk true l then trapI cILLOPND 8 (begin 1 s)
    else match vaultRegion s b l with
      | none => trapI cMEMBER 8 (begin 1 s)
      | some r =>
        let lanes := execLanes s u
        let xs := badVault s u 1 [src a, dataOpnd true d w] (vaultLanes s r 1 a (vaultDisp b l) w lanes)
        let oks := vOks xs
        let rel := litOrd l == 2
        if orderWaits s rel then stallOn 0x02 s
        else if oks.any fun o => atomWaits s (vaultKey r.core o.2) w then stallOn 0x02 s
        else
          let s0 := s
          let s := if rel ∧ !oks.isEmpty then releaseCache s.myCore (litScope l) s else s
          let s := oks.foldl (fun s o =>
            presenceSet r.core (o.2 / 128) (s.store (vaultKey r.core o.2) (storeBytes s0 d w o.1))) s
          endStore h u (passes s u) (memHints h a (oks.map (·.1)) (!(vFaults xs).isEmpty)) true (vFaults xs) (!oks.isEmpty) (usualVault s r) none s

/-! ### TXB -/

/-- What TXB answers for its base (R240): the register, or a fault. -/
def txbOutcome (s : State) (base : VAddr) (need : Nat) (r : WalkRes) : TReg ⊕ LaneFault :=
  let f : LaneFault := { cause := cPAGE, faddr := base.zeroExtend 64, ptype := r.ptype, level := r.level }
  if !s.team.failFetch ∧ s.team.failed ≠ 0 then .inr { f with cause := cHOSTPAGE, ptype := 0 }
  else if r.gone then .inr { f with cause := cREMOTE }
  else if r.ecc ≠ 0 then .inr { f with cause := cECC, lsub := r.ecc }
  else if !r.ok then .inr f
  else if (bitAt need 0 ∧ !r.r) ∨ (bitAt need 1 ∧ !r.w) then .inr { f with cause := cPROT, ptype := 0 }
  else .inl { v := true, r := r.r, w := r.w, ncm := r.ncm, frame := BitVec.ofNat 44 r.frame, psz := BitVec.ofNat 2 r.psz, base := base }

/-- TXB (R125, R240). -/
def doTxb (h : Hd) (d a b : RegF) (s : State) : State :=
  let k := d.toNat % 8
  withOps 4 false [srcPair a, src b] s (x := some k) fun s =>
    if 8 ≤ d.toNat ∨ !isScalar a ∨ isVec b then trapI cILLOPND 4 (begin 1 s)
    else
      let base : VAddr := (rdPair s a (lowestLane s.team.active)).extractLsb' 0 57
      match leafOf s base.toNat with
      | none => if s.team.failed ≠ 0 ∧ !s.team.failFetch
          then trapAll { cause := cHOSTPAGE, faddr := base.zeroExtend 64 } 4 (begin 1 s) else waitWalks [base.toNat] s
      | some r =>
        match txbOutcome s base (rdu s b).toNat r with
        | .inr f => trapAll f 4 (begin 1 s)
        | .inl x =>
          if pendCount s.team + 1 > 16 then stallOn 0x06 s
          else
            let pc := s.team.pc
            let s := (begin 1 (tlbTouch s.myCore s.myCtx base.toNat s)).onTeam (applyHints h a 2 b 1 [])
            let (tag, s) := s.takeTag
            finish h 4 (addPend { tag := tag, pc := pc, regs := [560 + k], tw := some (k, x), due := s.ac, usual := s.ac + 30 } s)

/-! ### EXPECT -/

/-- EXPECT (R261): after its checks it waits, with DRAIN, for the team's STVs and ATOM.VLTs. -/
def doExpect (h : Hd) (a b : RegF) (s : State) : State :=
  withOps 4 false [src a, src b] s fun s =>
    if isVec a ∨ isVec b then trapI cILLOPND 4 (begin 1 s)
    else
      let off := (rdu s a).toNat
      let n := (rdu s b).toNat
      let r := s.myBlock
      let f : LaneFault := { cause := cALIGN, faddr := BitVec.ofNat 64 off }
      if off % 128 ≠ 0 then trapAll f 4 (begin 1 s)
      else if n % 128 ≠ 0 then trapAll { f with faddr := 0 } 4 (begin 1 s)
      else if r.vbytes < off + n then trapAll { f with cause := cVRANGE } 4 (begin 1 s)
      else
        let s := (begin 1 s).onTeam (applyHints h a 1 b 1 [])
        if n = 0 then finish h 4 s
        else parkAt (.expect (r.voff + off) n) (finish h 4 s)

/-- Whether an STV, an ATOM.VLT or an RSNAP of the team is still to be performed (R261, R416). -/
def vaultBusy (s : State) : Bool :=
  s.team.stores.any (·.vault) || ((s.core s.myCore).vport.any fun r => r.tid == s.team.tid) ||
    (s.core s.myCore).snaps.any fun k => k.2.1 == s.team.tid

/-- The drain of EXPECT ends: the bits are cleared in one ac, lines whose write arrives in that ac end present (R227, R261). -/
def expectClear (tid : Nat) (s : State) : State :=
  s.withTeam tid fun s =>
    match s.team.park with
    | .expect off n =>
      if vaultBusy s then s
      else
        let s := s.onCore s.myCore fun c =>
          let add := (linesIn off n).filter fun l => !c.absent.contains l && !c.setNow.contains (l, s.ac)
          { c with absent := c.absent ++ add }
        unpark s
    | _ => s

/-! ### SPILL and FILL -/

/-- The value of a position of a spilled register: an undefined one is a free value. A position from LANES up has no register, and the spec gives
the bits of a RAW slot only as its register's: that 0 is stored there is the model's choice (log entry 69). -/
def spillBits (s : State) (code p : Nat) : Word :=
  if s.team.vundef.getLsbD p then Config.freeWord (s.fresh + p) else regBits s code p

/-- The bytes of the first form that fits (R232, R233). -/
def spillSlot (s : State) (code g : Nat) : List Byte :=
  let live := lanesOf s.team.live
  let base := regBits s code (live.headD 0)
  let delta := fun (l : Nat) => (regBits s code l - base).toInt
  let fits := fun (lo hi : Int) => live.all fun l => decide (lo ≤ delta l ∧ delta l ≤ hi)
  let at_ := fun (p : Nat) => if s.team.live.getLsbD p then delta p else 0
  let head := fun (form : Nat) (b : Word) => leBytes 4 form ++ leBytes 4 b.toNat
  if fits 0 0 then head 1 base
  else if fits (-128) 127 then head 2 base ++ (List.range (32 * g)).flatMap fun p => leBytes 1 (at_ p % 256).toNat
  else if fits (-32768) 32767 then head 3 base ++ (List.range (32 * g)).flatMap fun p => leBytes 2 (at_ p % 65536).toNat
  else head 4 (spillBits s code 0) ++ (List.range (32 * g)).flatMap fun p => leBytes 4 (spillBits s code p).toNat

/-- The value that FILL gives a position, from a slot's bytes; none for a form that is none (R232). -/
def fillValue (bytes : List Byte) (p : Nat) : Option Word :=
  let base := w32 (fieldAt bytes 4 4)
  match fieldAt bytes 0 1 with
  | 1 => some base
  | 2 => some (base + wInt (sextInt 8 (fieldAt bytes (8 + p) 1)))
  | 3 => some (base + wInt (sextInt 16 (fieldAt bytes (8 + 2 * p) 2)))
  | 4 => some (w32 (fieldAt bytes (8 + 4 * p) 4))
  | _ => none

/-- The bytes that a form moves (R233). -/
def formBytes (form g : Nat) : Nat :=
  match form with
  | 1 => 8
  | 2 => 8 + 32 * g
  | 3 => 8 + 64 * g
  | _ => 8 + 128 * g

/-- SPILL and FILL up to the move: the checks of R262, then the work on the slot's offset in the core's vault. -/
def withSlot (fill : Bool) (d a : RegF) (s : State) (k : Nat → State → State) : State :=
  withOps 4 false [src a, { f := d.toNat, rd := false, wr := fill }] s fun s =>
    if !isVec d ∨ isVec a then trapI cILLOPND 4 (begin 1 s)
    else
      let off := (rdu s a).toNat
      let r := s.myBlock
      let f : LaneFault := { cause := cALIGN, faddr := BitVec.ofNat 64 off, kind := if fill then 0 else 1 }
      if off % 8 ≠ 0 then trapAll f 4 (begin 1 s)
      else if r.vbytes < off + 8 + 128 * ceilDiv s.team.lanes 32 then trapAll { f with cause := cVRANGE } 4 (begin 1 s)
      else if orderWaits s false then stallOn 0x02 s
      else k (r.voff + off) s

/-- SPILL (R263). -/
def doSpill (h : Hd) (d a : RegF) (s : State) : State :=
  withSlot false d a s fun off s =>
    let g := ceilDiv s.team.lanes 32
    let bytes := spillSlot s (regCode s.team d.toNat) g
    let c := s.myCore
    if (lanesOf s.team.live).any fun l => s.team.rbad.contains (regKey (regCode s.team d.toNat) l) then trapAll (regEcc 1) 4 (begin 1 s)
    else if atomWaits s (vaultKey c off) bytes.length then stallOn 0x13 s
    else
      let p := passesOf s.team
      let s := { s with fresh := s.fresh + 32 * g }
      let s := presenceWrite c off bytes.length (s.store (vaultKey c off) bytes)
      let s := (begin p s).onTeam (applyHints h a 1 a 0 [])
      let (tag, s) := s.takeTag
      finish h 4 (addToken { tag := tag, vault := true, due := s.ac + (p - 1) + 14 + ceilDiv bytes.length 64 } s)

/-- FILL (R263). -/
def doFill (h : Hd) (d a : RegF) (s : State) : State :=
  withSlot true d a s fun off s =>
    let g := ceilDiv s.team.lanes 32
    let n := 8 + 128 * g
    let c := s.myCore
    match absentLine s c [(off, n)] with
    | some line => parkAbsent c line s
    | none =>
      if atomWaits s (vaultKey c off) n then stallOn 0x13 s
      else if badAt s (vaultKey c off) n then
        trapAll { cause := cECC, faddr := BitVec.ofNat 64 (rdu s a).toNat, lsub := 2 } 4 (begin 1 s)
      else
        let bytes := s.load (vaultKey c off) n
        if (fillValue bytes 0).isNone then trapI cILLOPND 4 (begin 1 s)
        else
          let code := regCode s.team d.toNat
          let ws := (List.range s.team.lanes).map fun p =>
            (⟨p, code, if s.team.live.getLsbD p then (fillValue bytes p).getD 0 else Config.freeWord (s.fresh + p)⟩ : RegWrite)
          if pendCount s.team + 1 > 16 then stallOn 0x06 s
          else
            let p := passesOf s.team
            let pc := s.team.pc
            let s := (begin p { s with fresh := s.fresh + s.team.lanes }).onTeam (applyHints h a 1 a 0 [])
            let (tag, s) := s.takeTag
            let due := s.ac + (p - 1) + 14 + ceilDiv (formBytes (fieldAt bytes 0 1) g) 64
            finish h 4 (addPend { tag := tag, pc := pc, regs := [code], writes := ws, mem := true, due := due } s)

/-! ### Landing and acceptance -/

/-- A credit returns to a block that has a record (R253). -/
def creditBack (k : Nat) (s : State) : State :=
  if (mget? s.blocks k).isSome then s.onBlock k fun b => { b with credits := b.credits - 1 } else s

/-- Whether a result stands behind an earlier entry of its scheduler's SFU queue: they complete in issue order (R142). -/
def sfuBehind (s : State) (tag : Nat) : Bool :=
  let q := vget [] (s.core s.myCore).sfu (schedOf s.team.tid)
  (q.drop 1).any fun e => e.tag == tag

/-- The result under a tag of the focused team is written and leaves the record (R20, R24); an acquire completes with it (R275). -/
def landPend (tag : Nat) (s : State) : State :=
  match s.team.pend.find? fun p => p.tag == tag with
  | none => s
  | some p =>
    if p.missing ≠ 0 ∨ s.ac < p.due ∨ sfuBehind s tag ∨ !p.far.all (s.farReaches s.myCore) then s
    else
      let s := s.farHeard s.myCore p.far
      let s := match p.acq with
        | some sc => acquireCache s.myCore sc s
        | none => s
      let s := if p.credit then creditBack s.team.blk s else s
      let s := s.onCore s.myCore fun c => { c with sfu := c.sfu.map fun (q : List SfuEntry) => q.filter fun e => e.tag != tag }
      settle (s.onTeam fun t =>
        let t := writeRegs p.writes { t with pend := t.pend.filter fun q => q.tag != tag, tstat := t.tstat ||| p.tstat }
        match p.tw with
        | some (k, x) => { t with x := vset t.x k x }
        | none => t)

/-- The store or no-return atomic under a tag has been accepted (R21). -/
def acceptStore (tag : Nat) (s : State) : State :=
  match s.team.stores.find? fun k => k.tag == tag with
  | none => s
  | some k =>
    if k.left ≠ 0 ∨ s.ac < k.due ∨ !k.far.all (s.farReaches s.myCore) then s
    else
      let s := s.farHeard s.myCore k.far
      let s := if k.credit then creditBack s.team.blk s else s
      settle (s.onTeam fun t => { t with stores := t.stores.filter fun q => q.tag != tag })

/-- As `acceptStore`, for a store of a team that has ended (R160). -/
def acceptLeft (tag : Nat) (s : State) : State :=
  let due := fun (b : Block) (k : Token) => k.tag == tag && k.left == 0 && decide (k.due ≤ s.ac) && k.far.all (s.farReaches b.core)
  s.blocks.foldl (fun s b =>
    match b.2.tokens.find? (due b.2) with
    | none => s
    | some k =>
      let s := (s.farHeard b.2.core k.far).onBlock b.1 fun x => { x with tokens := x.tokens.filter fun q => q.tag != tag }
      if k.credit then creditBack b.1 s else s) s

/-! ### Meanings -/

/-- LDG (R126, R127). -/
def execLdg (h : Hd) (d a b : RegF) (l : Word) (s : State) : Out := .next (doLdg h d a b l s)
/-- STG (R126, R127). -/
def execStg (h : Hd) (d a b : RegF) (l : Word) (s : State) : Out := .next (doStg h d a b l s)
/-- LDV (R130). -/
def execLdv (h : Hd) (d a b : RegF) (l : Word) (s : State) : Out := .next (doLdv h d a b l s)
/-- STV (R130). -/
def execStv (h : Hd) (d a b : RegF) (l : Word) (s : State) : Out := .next (doStv h d a b l s)
/-- TXB (R125). -/
def execTxb (h : Hd) (d a b : RegF) (s : State) : Out := .next (doTxb h d a b s)
/-- EXPECT (R261). -/
def execExpect (h : Hd) (a b : RegF) (s : State) : Out := .next (doExpect h a b s)
/-- SPILL.SPILL (R262, R263). -/
def execSpillSpill (h : Hd) (d a : RegF) (s : State) : Out := .next (doSpill h d a s)
/-- SPILL.FILL (R262, R263). -/
def execSpillFill (h : Hd) (d a : RegF) (s : State) : Out := .next (doFill h d a s)
/-- EXPECT_CLEAR (R261): the selection names the team. -/
def execExpectClear (s : State) : Out := .next (expectClear s.sel.unit s)
/-- LONG_RESULT_LANDS (R20): the selection names the team and the tag of the result. -/
def execLongResultLands (s : State) : Out := .next (s.withTeam s.sel.unit (landPend s.sel.sub))
/-- STORE_ACCEPTED (R21): the selection names the team and the tag of the store, which may be one of a team that has ended (R160). -/
def execStoreAccepted (s : State) : Out := .next (acceptLeft s.sel.sub (s.withTeam s.sel.unit (acceptStore s.sel.sub)))

end Sys2Proof.Machine
end

