-- ==== Sys2Proof/Machine/Float.lean ====
section
/-!
DEFINITION. Number formats and rounding (chapter 02): exact values, decoding (R29, R32), rounding into FP32, FP16 and BF16 (R39), the
tapered formats (R34 to R38), narrow packing (R42), exact sums rounded once (R43).
-/

namespace Sys2Proof.Machine

/-- An exact value (R27): a NaN, an infinity, or ± m × 2^e; with m = 0 it is a signed zero. -/
inductive Num where
  | nan
  | inf (neg : Bool)
  | fin (neg : Bool) (m : Nat) (e : Int)
deriving DecidableEq, Repr

/-- A binary format (R29): exponent bits, fraction bits, bias. -/
structure Fmt where
  eb : Nat
  fb : Nat
  bias : Nat
deriving DecidableEq, Repr

def fp32 : Fmt := ⟨8, 23, 127⟩
def fp16 : Fmt := ⟨5, 10, 15⟩
def bf16 : Fmt := ⟨8, 7, 127⟩

/-- The sign bit, the infinity and the largest finite value of a format. -/
def Fmt.signBit (f : Fmt) : Nat := 2 ^ (f.eb + f.fb)
def Fmt.infBits (f : Fmt) : Nat := (2 ^ f.eb - 1) * 2 ^ f.fb
def Fmt.maxBits (f : Fmt) : Nat := f.infBits - 1
/-- CANON_NAN in a format (R40): 0x7FC0_0000, 0x7E00, 0x7FC0. -/
def Fmt.nanBits (f : Fmt) : Nat := f.infBits + 2 ^ (f.fb - 1)

/-- Exact decoding (R32). -/
def decodeFp (f : Fmt) (bits : Nat) : Num :=
  let neg := bits.testBit (f.eb + f.fb)
  let ex := bits / 2 ^ f.fb % 2 ^ f.eb
  let fr := bits % 2 ^ f.fb
  if ex = 2 ^ f.eb - 1 then (if fr = 0 then .inf neg else .nan)
  else if ex = 0 then .fin neg fr (1 - (f.bias : Int) - f.fb)
  else .fin neg (2 ^ f.fb + fr) ((ex : Int) - f.bias - f.fb)

/-- Rounding modes (R16). -/
abbrev modeRne : Nat := 0
abbrev modeRtz : Nat := 1
abbrev modeRdn : Nat := 2
abbrev modeRup : Nat := 3

/-- Whether a mantissa rounds up, from the parity of what is kept and the rest against one half. -/
def roundsUp (mode : Nat) (neg odd : Bool) (rest half : Nat) : Bool :=
  match mode with
  | 0 => decide (half < rest) || (rest == half && rest != 0 && odd)
  | 1 => false
  | 2 => neg && rest != 0
  | _ => !neg && rest != 0

/-- The integer nearest to m × 2^e in a mode, m × 2^e read without its sign. -/
def roundInt (mode : Nat) (neg : Bool) (m : Nat) (e : Int) : Nat :=
  if 0 ≤ e then m * 2 ^ e.toNat
  else
    let sh := min (-e).toNat (m.log2 + 3)
    let q := m / 2 ^ sh
    if roundsUp mode neg (q % 2 == 1) (m % 2 ^ sh) (2 ^ sh / 2) then q + 1 else q

/-- ROUND(x, mode) into a format (R39), as bits. -/
def roundFp (f : Fmt) (mode : Nat) (x : Num) : Nat :=
  match x with
  | .nan => f.nanBits
  | .inf neg => (if neg then f.signBit else 0) + f.infBits
  | .fin neg m e =>
    let sg := if neg then f.signBit else 0
    if m = 0 then sg
    else
      let top : Int := (m.log2 : Int) + e
      let q : Int := max top (1 - (f.bias : Int)) - f.fb
      let mant := roundInt mode neg m (e - q)
      let bits : Nat := (q + f.fb + f.bias - 1).toNat * 2 ^ f.fb + mant
      if bits < f.infBits then sg + bits
      else
        match mode with
        | 0 => sg + f.infBits
        | 1 => sg + f.maxBits
        | 2 => sg + (if neg then f.infBits else f.maxBits)
        | _ => sg + (if neg then f.maxBits else f.infBits)

/-- Decoding and rounding FP32 words. -/
def dec32 (w : Word) : Num := decodeFp fp32 w.toNat
def enc32 (mode : Nat) (x : Num) : Word := w32 (roundFp fp32 mode x)
/-- RNE into FP32. -/
def rne32 (x : Num) : Word := enc32 0 x

def Num.isNan : Num → Bool
  | .nan => true
  | _ => false

def Num.neg : Num → Bool
  | .nan => false
  | .inf n => n
  | .fin n _ _ => n

def Num.isZero : Num → Bool
  | .fin _ 0 _ => true
  | _ => false

/-- The negated value. -/
def Num.negate : Num → Num
  | .nan => .nan
  | .inf n => .inf (!n)
  | .fin n m e => .fin (!n) m e

def Num.abs : Num → Num
  | .nan => .nan
  | .inf _ => .inf false
  | .fin _ m e => .fin false m e

/-- The signed mantissa of a finite value at exponent `q`, not above its own. -/
def scaledTo (q : Int) (neg : Bool) (m : Nat) (e : Int) : Int :=
  let v : Nat := m * 2 ^ (e - q).toNat
  if neg then -(v : Int) else v

/-- A finite value from a signed mantissa; a zero takes the given sign. -/
def finOf (v : Int) (e : Int) (zneg : Bool) : Num :=
  if v = 0 then .fin zneg 0 0 else .fin (decide (v < 0)) v.natAbs e

/-- x + y exactly (R133): a zero sum of opposite signs has the sign given. -/
def Num.add (x y : Num) (zneg : Bool := false) : Num :=
  match x, y with
  | .nan, _ => .nan
  | _, .nan => .nan
  | .inf a, .inf b => if a = b then .inf a else .nan
  | .inf a, .fin _ _ _ => .inf a
  | .fin _ _ _, .inf b => .inf b
  | .fin a m e, .fin b n k =>
    if m = 0 ∧ n = 0 then .fin (if a = b then a else zneg) 0 0
    else
      let q := min e k
      finOf (scaledTo q a m e + scaledTo q b n k) q zneg

/-- x × y exactly (R133). -/
def Num.mul (x y : Num) : Num :=
  match x, y with
  | .nan, _ => .nan
  | _, .nan => .nan
  | .inf a, .inf b => .inf (a != b)
  | .inf a, .fin b n _ => if n = 0 then .nan else .inf (a != b)
  | .fin a m _, .inf b => if m = 0 then .nan else .inf (a != b)
  | .fin a m e, .fin b n k => .fin (a != b) (m * n) (e + k)

/-- x × 2^k. -/
def Num.scale (x : Num) (k : Int) : Num :=
  match x with
  | .fin n m e => .fin n m (e + k)
  | _ => x

/-- EXACT_SUM (R27): a zero is −0 only when every term is −0; no term gives +0. -/
def exactSum (ts : List Num) : Num :=
  if ts.any Num.isNan then .nan
  else
    let pos := ts.any fun t => t == .inf false
    let neg := ts.any fun t => t == .inf true
    if pos ∧ neg then .nan
    else if pos then .inf false
    else if neg then .inf true
    else
      let q := ts.foldl (fun q t => match t with | .fin _ m e => if m = 0 then q else min q e | _ => q) (0 : Int)
      let v := ts.foldl (fun v t => match t with | .fin n m e => if m = 0 then v else v + scaledTo q n m e | _ => v) (0 : Int)
      finOf v q (!ts.isEmpty && ts.all fun t => t.neg)

/-- x < y and x = y on exact values (R135): −0 equals +0, and a comparison with a NaN is false. -/
def Num.lt (x y : Num) : Bool :=
  match x, y with
  | .nan, _ => false
  | _, .nan => false
  | .inf a, .inf b => a && !b
  | .inf a, .fin _ _ _ => a
  | .fin _ _ _, .inf b => !b
  | .fin a m e, .fin b n k => decide (scaledTo (min e k) a m e < scaledTo (min e k) b n k)

def Num.eq (x y : Num) : Bool :=
  match x, y with
  | .nan, _ => false
  | _, .nan => false
  | .inf a, .inf b => a == b
  | .inf _, .fin _ _ _ => false
  | .fin _ _ _, .inf _ => false
  | .fin a m e, .fin b n k => decide (scaledTo (min e k) a m e = scaledTo (min e k) b n k)

/-- A quotient of natural numbers as m × 2^e, rounded to odd below at least 40 bits, so that one further rounding is exact. -/
def quotOdd (neg : Bool) (n d : Nat) (e : Int) : Num :=
  let sh := d.log2 + 42 - min n.log2 (d.log2 + 41)
  let q := n * 2 ^ sh / d
  let st := if n * 2 ^ sh % d = 0 then 0 else 1
  .fin neg (2 * q + st) (e - sh - 1)

/-- p / q under IEEE 754-2019 (R148), rounded to odd so that RNE of it is RNE of the exact quotient. -/
def Num.div (x y : Num) : Num :=
  match x, y with
  | .nan, _ => .nan
  | _, .nan => .nan
  | .inf _, .inf _ => .nan
  | .inf a, .fin b _ _ => .inf (a != b)
  | .fin a _ _, .inf b => .fin (a != b) 0 0
  | .fin a m e, .fin b n k =>
    if n = 0 then (if m = 0 then .nan else .inf (a != b))
    else if m = 0 then .fin (a != b) 0 0
    else quotOdd (a != b) m n (e - k)

/-! ### Tapered and narrow formats -/

/-- The number of leading bits of the `n`-bit code equal to its top bit. -/
def runLength (m : Nat) (top : Bool) : Nat → Nat
  | 0 => 0
  | n + 1 => if m.testBit n = top then 1 + runLength m top n else 0

/-- TAPDEC (R35): `n` is 7 for TAP8 and 5 for TAP6. -/
def tapDec (n c : Nat) : Num :=
  let s := c.testBit n
  let m := c % 2 ^ n
  if m = 0 then (if s then .nan else .fin false 0 0)
  else
    let top := m.testBit (n - 1)
    let k := runLength m top n
    let r : Int := if top then (k : Int) - 1 else -(k : Int)
    let i := n - 1 - k
    let e : Int := if k + 1 < n + 0 ∧ m.testBit (i - 1) then 1 else 0
    let w := i - 1
    let f := m % 2 ^ w
    .fin s (2 ^ w + f) (2 * r + e - w)

/-- TAPENC (R38). -/
def tapEnc (n sat : Nat) (x : Num) : Nat :=
  match x with
  | .nan => 2 ^ n
  | .inf s => if sat = 1 then 2 ^ n else (if s then 2 ^ n else 0) + (2 ^ n - 1)
  | .fin s m e =>
    let sg := if s then 2 ^ n else 0
    if m = 0 then 0
    else
      let top : Int := (m.log2 : Int) + e
      let lim : Int := 2 * ((n : Int) - 1)
      if lim ≤ top then sg + (2 ^ n - 1)
      else if top < -lim ∨ (top = -lim ∧ m = 2 ^ m.log2) then sg + 1
      else
        let r : Int := top / 2
        let eb : Nat := (top % 2).toNat
        let fl := m.log2
        let frac := m - 2 ^ fl
        let reg : Nat := if 0 ≤ r then (2 ^ (r.toNat + 1) - 1) * 2 else 1
        let len : Nat := (if 0 ≤ r then r.toNat + 2 else (-r).toNat + 1) + 1 + fl
        let code := (reg * 2 + eb) * 2 ^ fl + frac
        if len ≤ n then sg + code * 2 ^ (n - len)
        else
          let d := len - n
          let c := code / 2 ^ d
          sg + (if roundsUp 0 false (c % 2 == 1) (code % 2 ^ d) (2 ^ d / 2) then c + 1 else c)

/-- Packing into INT8 (R42): the nearest integer, ties to even, within −128 to 127; a NaN gives 0. -/
def packInt8 (x : Num) : Nat :=
  match x with
  | .nan => 0
  | .inf n => if n then 128 else 127
  | .fin n m e =>
    let v := roundInt 0 n m e
    if n then (if 128 ≤ v then 128 else (256 - v) % 256) else min v 127

/-- Packing into FP16 or BF16 (R42): a finite value beyond the range becomes the largest finite value; SAT decides on infinities. -/
def packHalf (f : Fmt) (mode sat : Nat) (x : Num) : Nat :=
  match x with
  | .inf n => (if n then f.signBit else 0) + (if sat = 1 then f.infBits else f.maxBits)
  | .nan => f.nanBits
  | .fin n _ _ =>
    let b := roundFp f mode x
    if b % f.signBit = f.infBits then (if n then f.signBit else 0) + f.maxBits else b

/-- The formats by MA code (R16): 0 FP32, 1 BF16, 2 FP16, 3 TAP8, 4 TAP6, 5 INT8. Decoding is exact (R32, R33). -/
def decodeMa (code bits : Nat) : Num :=
  match code with
  | 0 => decodeFp fp32 bits
  | 1 => decodeFp bf16 bits
  | 2 => decodeFp fp16 bits
  | 3 => tapDec 7 bits
  | 4 => tapDec 5 bits
  | _ => let v := sextInt 8 bits; .fin (decide (v < 0)) v.natAbs 0

/-- Rounding into a format by MA code: FP32 by R39, the others by R42. -/
def encodeMa (code mode sat : Nat) (x : Num) : Nat :=
  match code with
  | 0 => roundFp fp32 mode x
  | 1 => packHalf bf16 mode sat x
  | 2 => packHalf fp16 mode sat x
  | 3 => tapEnc 7 sat x
  | 4 => tapEnc 5 sat x
  | _ => packInt8 x

/-- Bits of one element of an MA code (R29). -/
def maBits (code : Nat) : Nat :=
  match code with
  | 0 => 32
  | 1 => 16
  | 2 => 16
  | 4 => 6
  | _ => 8

/-- Whether an MA code is a narrow format (R303). -/
def maNarrow (code : Nat) : Bool := code == 3 || code == 4 || code == 5

/-- big(NF) of R147. -/
def bigOf (nf : Nat) : Nat := match nf with | 3 => 4096 | 4 => 256 | _ => 127

/-- The narrow NaN result (R42). -/
def narrowNan (nf : Nat) : Nat := match nf with | 3 => 0x80 | 4 => 0x20 | _ => 0

/-- Whether a finite magnitude m × 2^e is at most b × 2^k. -/
def magLe (m : Nat) (e : Int) (b : Nat) (k : Int) : Bool :=
  let q := min e k
  decide (m * 2 ^ (e - q).toNat ≤ b * 2 ^ (k - q).toNat)

/-- The scale of a block by the rule of BSCL (R147), before its limit: 0xFF for a NaN or an infinity, 127 for zero, else the least n, not
below 0, with max |v| ≤ big(NF) × 2^(n − 127). -/
def blockScale (nf : Nat) (vs : List Num) : Nat :=
  if vs.any fun v => match v with | .fin _ _ _ => false | _ => true then 0xFF
  else
    let need := vs.map fun v => match v with
      | .fin _ m e =>
        if m = 0 then none
        else
          let b := bigOf nf
          let est : Int := (m.log2 : Int) + e - b.log2 + 127
          let n := if magLe m e b (est - 1 - 127) then est - 1 else if magLe m e b (est - 127) then est else est + 1
          some (max 0 n).toNat
      | _ => none
    match need.filterMap id with
    | [] => 127
    | ns => ns.foldl max 0

/-! ### Elements of a vector format (R31, R131) -/

/-- The element format of a VEC code (R16). -/
def vecFmt (vec : Nat) : Fmt := match vec with | 1 => bf16 | 2 => fp16 | _ => fp32

/-- The element operands of a word: one, or two halves; a packed operand read as POISON is a NaN in both (R25). -/
def elems (vec : Nat) (x : Word × Bool) : List Num :=
  if vec = 0 then [dec32 x.1]
  else if x.2 then [.nan, .nan]
  else [decodeFp (vecFmt vec) (x.1.toNat % 65536), decodeFp (vecFmt vec) (x.1.toNat / 65536)]

/-- The raw bits of the elements; an operand read as POISON is a NaN in each half (R25). -/
def elemBits (vec : Nat) (x : Word × Bool) : List Nat :=
  if vec = 0 then [x.1.toNat]
  else if x.2 then [(vecFmt vec).nanBits, (vecFmt vec).nanBits]
  else [x.1.toNat % 65536, x.1.toNat / 65536]

/-- The word of element results. -/
def joinElems (vec : Nat) (rs : List Nat) : Word :=
  if vec = 0 then w32 (rs.headD 0) else w32 (rs.headD 0 % 65536 + (rs.drop 1).headD 0 % 65536 * 65536)

end Sys2Proof.Machine
end

