-- ==== Sys2Proof/Machine/Sfu.lean ====
section
/-!
DEFINITION. The special functions of R141: the exact mathematical value rounded once into FP32 by RNE. Where the exact value is a dyadic
number it is given exactly; elsewhere it is irrational and is computed in fixed point with 256 fraction bits, far closer than any FP32
rounding boundary lies to it (log entry 12).
-/

namespace Sys2Proof.Machine

/-- Fraction bits of the fixed point. -/
abbrev fixP : Nat := 256
abbrev fixOne : Nat := 2 ^ 256

/-- ln 2 and π, truncated to 256 fraction bits. -/
def fixLn2 : Nat := 0xb17217f7d1cf79abc9e3b39803f2f6af40f343267298b62d8a0d175b8baafa2b
def fixPi : Nat := 0x3243f6a8885a308d313198a2e03707344a4093822299f31d0082efa98ec4e6c89

/-- The integer square root by bits: the largest r of the form built so far with r² ≤ n. -/
def isqrtGo (n : Nat) : Nat → Nat → Nat
  | 0, r => r
  | k + 1, r => if (r + 2 ^ k) * (r + 2 ^ k) ≤ n then isqrtGo n k (r + 2 ^ k) else isqrtGo n k r

/-- The integer square root. -/
def isqrt (n : Nat) : Nat := isqrtGo n (n.log2 / 2 + 1) 0

/-- A sum of the series whose terms are t, t·r/(k), t·r²/(k(k+1)) …: the exponential series from the term and index given. -/
def expSeries (r : Nat) : Nat → Nat → Nat → Nat
  | 0, _, _ => 0
  | fuel + 1, k, t => t + expSeries r fuel (k + 1) (t * r / fixOne / k)

/-- e^r for 0 ≤ r < 1 in fixed point. -/
def fixExp (r : Nat) : Nat := expSeries r 72 1 fixOne

/-- The alternating sine series of θ: the term, the square of θ, the next index. -/
def sinSeries (sq : Nat) : Nat → Nat → Nat → Int
  | 0, _, _ => 0
  | fuel + 1, k, t => (t : Int) - sinSeries sq fuel (k + 2) (t * sq / fixOne / ((k + 1) * (k + 2)))

/-- sin θ for 0 ≤ θ < 2 in fixed point. -/
def fixSin (th : Nat) : Nat := (sinSeries (th * th / fixOne) 40 1 th).toNat

/-- The series of artanh: z + z³/3 + … -/
def artanhSeries (sq : Nat) : Nat → Nat → Nat → Nat
  | 0, _, _ => 0
  | fuel + 1, k, t => t / k + artanhSeries sq fuel (k + 2) (t * sq / fixOne)

/-- ln y for 1 ≤ y < 2 in fixed point: 2 artanh((y − 1)/(y + 1)). -/
def fixLn (y : Nat) : Nat :=
  let z := (y - fixOne) * fixOne / (y + fixOne)
  2 * artanhSeries (z * z / fixOne) 84 1 z

/-- A positive dyadic number as a fixed-point number, truncated. -/
def toFix (m : Nat) (e : Int) : Nat :=
  let k := e + fixP
  if 0 ≤ k then m * 2 ^ k.toNat else m / 2 ^ (-k).toNat

/-- A fixed-point number as a value; its last bit set, since the exact value is no such number. -/
def ofFix (neg : Bool) (v : Nat) (e : Int) : Num := .fin neg (2 * v + 1) (e - fixP - 1)

/-- 2^x (R141). -/
def exp2Num (x : Num) : Num :=
  match x with
  | .nan => .nan
  | .inf n => if n then .fin false 0 0 else .inf false
  | .fin n m e =>
    if m = 0 then .fin false 1 0
    else
      let top : Int := (m.log2 : Int) + e
      if 9 < top then (if n then .fin false 1 (-400) else .fin false 1 400)
      else
        let v : Int := if n then -(toFix m e : Int) else toFix m e
        let k := v / (fixOne : Int)
        let f := (v % (fixOne : Int)).toNat
        if f = 0 then .fin false 1 k
        else ofFix false (fixExp (f * fixLn2 / fixOne)) k

/-- e^x (R141). -/
def expNum (x : Num) : Num :=
  match x with
  | .nan => .nan
  | .inf n => if n then .fin false 0 0 else .inf false
  | .fin n m e =>
    if m = 0 then .fin false 1 0
    else
      let top : Int := (m.log2 : Int) + e
      if 9 < top then (if n then .fin false 1 (-400) else .fin false 1 400)
      else
        let v : Int := if n then -(toFix m e : Int) else toFix m e
        let k := v / (fixLn2 : Int)
        ofFix false (fixExp ((v - k * fixLn2).toNat)) k

/-- ln of a positive value, as a signed fixed-point number. -/
def lnFix (m : Nat) (e : Int) : Int :=
  let top : Int := (m.log2 : Int) + e
  let y := toFix m (-(m.log2 : Int))
  top * (fixLn2 : Int) + fixLn y

/-- log2 and ln (R141): powers of two are exact for log2, and 1 gives +0. -/
def logNum (two : Bool) (x : Num) : Num :=
  match x with
  | .nan => .nan
  | .inf n => if n then .nan else .inf false
  | .fin n m e =>
    if m = 0 then .inf true
    else if n then .nan
    else
      let top : Int := (m.log2 : Int) + e
      if m = 2 ^ m.log2 ∧ (two ∨ top = 0) then finOf top 0 false
      else
        let v := lnFix m e
        let w : Int := if two then v * fixOne / (fixLn2 : Int) else v
        ofFix (decide (w < 0)) w.natAbs 0

/-- sin πt for t = a × 2^−q modulo 2, as a signed value; integers are handled by the callers. -/
def sinPi (a : Nat) (q : Nat) : Num :=
  let one := 2 ^ q
  let a := a % (2 * one)
  let neg := decide (one ≤ a)
  let a := a % one
  let a := if one < 2 * a then one - a else a
  if 2 * a = one then .fin neg 1 0
  else ofFix neg (fixSin (a * fixPi / one)) 0

/-- SINP (R141). -/
def sinpNum (x : Num) : Num :=
  match x with
  | .nan => .nan
  | .inf _ => .nan
  | .fin n m e =>
    if m = 0 then .fin n 0 0
    else if 0 ≤ e then .fin n 0 0
    else
      let q := (-e).toNat
      if m % 2 ^ q = 0 then .fin n 0 0
      else
        let r := sinPi m q
        if n then r.negate else r

/-- COSP (R141): cos πx = sin π(|x| + 1/2). -/
def cospNum (x : Num) : Num :=
  match x with
  | .nan => .nan
  | .inf _ => .nan
  | .fin _ m e =>
    if m = 0 then .fin false 1 0
    else
      let q := (-(min e (-1))).toNat
      let a := m * 2 ^ (e + q).toNat
      let b := a + 2 ^ (q - 1)
      if b % 2 ^ q = 0 then .fin false 0 0
      else sinPi b q

/-- tanh (R141). -/
def tanhNum (x : Num) : Num :=
  match x with
  | .nan => .nan
  | .inf n => .fin n 1 0
  | .fin n m e =>
    if m = 0 then .fin n 0 0
    else
      let top : Int := (m.log2 : Int) + e
      if 5 ≤ top then .fin n (2 ^ 60 - 1) (-60)
      else
        -- e^(−2x) = 2^−k × e^r with 0 ≤ r < ln 2
        let v := 2 * toFix m e
        let k := v / fixLn2 + 1
        let p := fixExp (k * fixLn2 - v) / 2 ^ k
        ofFix n ((fixOne - p) * fixOne / (fixOne + p)) 0

/-- The logistic function (R141). -/
def sigmNum (x : Num) : Num :=
  match x with
  | .nan => .nan
  | .inf n => if n then .fin false 0 0 else .fin false 1 0
  | .fin n m e =>
    if m = 0 then .fin false 1 (-1)
    else
      let top : Int := (m.log2 : Int) + e
      if 7 ≤ top then (if n then .fin false 1 (-400) else .fin false (2 ^ 60 - 1) (-60))
      else
        let v := toFix m e
        let k := v / fixLn2 + 1
        -- e^−|x| = p × 2^−k
        let p := fixExp (k * fixLn2 - v)
        if n then ofFix false (p * fixOne / (fixOne + p / 2 ^ k)) (-(k : Int))
        else ofFix false (fixOne * fixOne / (fixOne + p / 2 ^ k)) 0

/-- RCP (R141). -/
def rcpNum (x : Num) : Num := Num.div (.fin false 1 0) x

/-- √x and 1/√x of a positive value, rounded to odd. -/
def sqrtOdd (m : Nat) (e : Int) : Num :=
  let (m, e) := if e % 2 = 0 then (m, e) else (2 * m, e - 1)
  let n := m * 2 ^ 80
  let r := isqrt n
  .fin false (2 * r + if r * r = n then 0 else 1) (e / 2 - 41)

def rsqOdd (m : Nat) (e : Int) : Num :=
  let (m, e) := if e % 2 = 0 then (m, e) else (2 * m, e - 1)
  let n := 2 ^ 140 / m
  let r := isqrt n
  .fin false (2 * r + if r * r * m = 2 ^ 140 then 0 else 1) (-(e / 2) - 71)

/-- SQRT (R141). -/
def sqrtNum (x : Num) : Num :=
  match x with
  | .nan => .nan
  | .inf n => if n then .nan else .inf false
  | .fin n m e => if m = 0 then .fin n 0 0 else if n then .nan else sqrtOdd m e

/-- RSQ (R141). -/
def rsqNum (x : Num) : Num :=
  match x with
  | .nan => .nan
  | .inf n => if n then .nan else .fin false 0 0
  | .fin n m e => if m = 0 then .inf n else if n then .nan else rsqOdd m e

/-- The SFU function of a sub-operation code on FP32 words (R141). -/
def sfuFn (code : Nat) (w : Word) : Word :=
  let x := dec32 w
  rne32 (match code with
    | 0 => rcpNum x
    | 1 => rsqNum x
    | 2 => sqrtNum x
    | 3 => exp2Num x
    | 4 => logNum true x
    | 5 => sinpNum x
    | 6 => cospNum x
    | 7 => tanhNum x
    | 8 => sigmNum x
    | 9 => expNum x
    | _ => logNum false x)

/-- FP32 operations with RNE by name, as the pseudocode of R148 to R151, R336 and R337 uses them. -/
def fAdd (a b : Word) : Word := rne32 ((dec32 a).add (dec32 b))
def fSub (a b : Word) : Word := rne32 ((dec32 a).add (dec32 b).negate)
def fMul (a b : Word) : Word := rne32 ((dec32 a).mul (dec32 b))
def fDiv (a b : Word) : Word := rne32 ((dec32 a).div (dec32 b))
def fExp2 (a : Word) : Word := sfuFn 3 a
def fLog2 (a : Word) : Word := sfuFn 4 a
def fOne : Word := 0x3F800000#32
def fNegInf : Word := 0xFF800000#32
def fPosInf : Word := 0x7F800000#32

/-- FMIN and FMAX on the bits of one element (R134): −0 below +0, a NaN gives the canonical NaN. -/
def fMinBits (f : Fmt) (gt : Bool) (a b : Nat) : Nat :=
  let x := decodeFp f a
  let y := decodeFp f b
  if x.isNan ∨ y.isNan then f.nanBits
  else
    let less := x.lt y || (x.isZero && y.isZero && x.neg && !y.neg)
    if gt then (if less then b else a) else (if less then a else b)

def fMax (a b : Word) : Word := w32 (fMinBits fp32 true a.toNat b.toNat)

end Sys2Proof.Machine
end

