-- ==== Sys2Proof/Machine/Atomic.lean ====
section
/-!
DEFINITION. ATOM (R246 to R250), the atomic service teams and vault ports (R251 to R254), WADDR and its watches (R255 to R258), promotion
(R281).
-/

namespace Sys2Proof.Machine

/-! ### The word -/

/-- f(old, D, D+1) of R247, by sub-operation code. -/
def atomFn (sub : Nat) (old d d1 : Word) : Word :=
  match sub with
  | 0 => old + d
  | 1 => fAdd old d
  | 2 => if old.toInt ≤ d.toInt then old else d
  | 3 => if old.toInt ≤ d.toInt then d else old
  | 4 => if old.toNat ≤ d.toNat then old else d
  | 5 => if old.toNat ≤ d.toNat then d else old
  | 6 => old &&& d
  | 7 => old ||| d
  | 8 => old ^^^ d
  | 9 => d
  | 10 => if old = d1 then d else old
  | 11 => if old.toNat < d1.toNat ∧ !old.getLsbD 31 then old + 1 else old
  | 12 => old ||| 0x80000000#32
  | _ => 0

/-- Whether a sub-operation reads D, and D+1 (R247). -/
def atomReadsD (sub : Nat) : Bool := decide (sub ≤ 10)
def atomReadsD1 (sub : Nat) : Bool := sub == 10 || sub == 11

/-- The owner cluster of a physical address (R251); a cluster of another package under a key of its own. -/
def ownerCluster (pa : Nat) : Nat :=
  let h := bitsOf pa 18 12 ^^^ bitsOf pa 25 19 ^^^ bitsOf pa 32 26 ^^^ bitsOf pa 39 33 ^^^ bitsOf pa 41 40
  if paPkg pa = Config.packageIndex then h else 128 * (paPkg pa + 1) + h

/-- SPACE and NORET (R63, R255). -/
def litVault (l : Word) : Bool := bitAt l.toNat 26
def litNoRet (l : Word) : Bool := bitAt l.toNat 25

/-! ### Requests -/

/-- Sends a request to a service team, or to the vault port of a core (R251, R252). -/
def sendCluster (c : Nat) (r : Req) (s : State) : State := s.onCluster c fun x => { x with net := x.net ++ [r] }
def sendPort (core : Nat) (r : Req) (s : State) : State := s.onCore core fun x => { x with vport := x.vport ++ [r] }

/-- The keys of R252, as one list that is compared from the front: arrival, package (the owner's own first), die, core, scheduler and
slot, lane. -/
def reqKey (r : Req) : List Nat := [r.arr, r.pkg, r.tid / 16384, r.tid / 64 % 256, r.tid % 64, r.lane]

/-- Lexicographic comparison of lists of numbers. -/
def lexLe : List Nat → List Nat → Bool
  | [], _ => true
  | _ :: _, [] => false
  | a :: as, b :: bs => decide (a < b) || (a == b && lexLe as bs)

/-- The reply of one lane's request: its register is written when the result lands, or the token of a no-return atomic falls by one
(R250, R254). `due` is the ac before which the result does not land. -/
def reply (r : Req) (old : Word) (due : Nat) (s : State) : State :=
  let fall := fun (k : Token) => if k.tag = r.tag then { k with left := k.left - 1, due := max k.due due } else k
  match r.reg with
  | some code =>
    s.withTeam r.tid fun s => s.onTeam fun t => { t with pend := t.pend.map fun p =>
      if p.tag = r.tag then { p with missing := p.missing - 1, due := max p.due due, writes := p.writes ++ [⟨r.lane, code, old⟩] } else p }
  | none => onTokens (·.map fall) (s.withTeam r.tid fun s => s.onTeam fun t => { t with stores := t.stores.map fall })

/-! ### ATOM -/

/-- The operands of an ATOM (R246 to R248). -/
def atomOpnds (sub : Nat) (nr : Bool) (d a : RegF) : List Opnd :=
  [src a] ++
    (if sub = 10 then [{ f := d.toNat, n := 2, ok := pairOk d, wr := !nr }]
     else if sub = 11 then [{ f := d.toNat, n := 2, ok := pairOk d, rd := false, wr := !nr }, { f := d.toNat + 1 }]
     else if sub ≤ 9 then [{ f := d.toNat, wr := !nr }]
     else if nr then [] else [dst d])

/-- The pass in which a lane's request is sent (R156, R252). -/
def passIndex (s : State) (u : Bool) (lane : Nat) : Nat := if u then 0 else (groupsOf s.team.active).idxOf (lane / 32)

/-- The requests of the lanes of an ATOM: lane, byte key and physical address. -/
def atomReqs (s : State) (u : Bool) (sub : Nat) (d : RegF) (l : Word) (tag : Nat) (oks : List (Nat × Nat × Nat)) (slice : Nat → Bool) : List Req :=
  oks.map fun o =>
    { tid := s.team.tid, lane := if u then 0 else o.1, addr := o.2.1, pa := o.2.2, tag := tag
      op := .atom sub (rdv s d o.1) (if atomReadsD1 sub then rdn s d 1 o.1 else 0) (litOrd l) (litScope l)
      slice := slice o.1, reg := if litNoRet l then none else some (regCode s.team d.toNat), arr := s.ac + 1 + passIndex s u o.1 }

/-- Whether an ATOM or a global WADDR finds no free credit (R253). A block that reserves no service slots, as the block of a bin or of a task
does, needs none (log entry 31). -/
def noCredit (s : State) : Bool := s.myBlock.kind == .grid && decide (s.myBlock.svcq ≤ s.myBlock.credits)

/-- The issue of an ATOM whose lanes have been checked (R249, R250, R253): `send` sends a request to its owner. -/
def issueAtom (h : Hd) (u : Bool) (sub : Nat) (d a : RegF) (l : Word) (vault : Bool) (oks : List (Nat × Nat × Nat))
    (faults : List (Nat × LaneFault)) (far : Option FarAccess) (slice : Nat → Bool) (send : Req → State → State) (delay : Nat) (s : State) : State :=
  let nr := litNoRet l
  if oks.isEmpty then endMem h u faults (begin (passes s u) s)
  else if noCredit s then stallOn 0x12 s
  else if !nr ∧ pendCount s.team + 1 > 16 then stallOn 0x06 s
  else
    let p := passes s u
    let pc := s.team.pc
    let code := regCode s.team d.toNat
    let (tag, s) := s.takeTag
    let reqs := atomReqs s u sub d l tag oks slice
    let s := if 2 ≤ litOrd l then releaseCache s.myCore (litScope l) s else s
    let s := if vault then s else oks.foldl (fun s o => flushLine s.myCore o.2.2 s) s
    let hints := memHints h a (oks.map (·.1)) (!faults.isEmpty)
    let s := (begin p ((s.farSpoken s.myCore far).onBlock s.team.blk fun b => { b with credits := b.credits + 1 })).onTeam hints
    let acq := if litOrd l = 1 ∨ litOrd l = 3 then some (litScope l) else none
    let due := s.ac + (p - 1) + delay
    let usual := if vault then due else s.ac + (p - 1) + 400
    let s := if nr then addToken { tag := tag, left := oks.length, vault := vault, due := due, usual := usual, credit := true,
                                   lanes := s.team.active, far := far } s
      else addPend { tag := tag, pc := pc, regs := [code], missing := oks.length, due := due, usual := usual, mem := true, acq := acq, credit := true, far := far } s
    endMem h u faults (reqs.foldl (fun s r => send r s) s)

/-- ATOM (R246 to R250). -/
def doAtom (h : Hd) (sub : Nat) (d a : RegF) (xr : BitVec 3) (l : Word) (s : State) : State :=
  let u := isScalar d
  let nr := litNoRet l
  let vlt := litVault l
  withOps 8 u (atomOpnds sub nr d a) s (x := if vlt then none else some xr.toNat) (mem := true) fun s =>
    if 6 ≤ litScope l ∨ (nr ∧ (litOrd l = 1 ∨ litOrd l = 3)) ∨ (u ∧ isVec a) then trapI cILLOPND 8 (begin 1 s)
    else
      let lanes := execLanes s u
      if orderWaits s (decide (2 ≤ litOrd l)) then stallOn 0x02 s
      else if vlt then
        let b := s.myBlock
        let xs := badVault s u 2 (atomOpnds sub nr d a) (vaultLanes s b 2 a (litDisp l) 4 lanes)
        match absentLine s b.core ((vOks xs).map fun o => (o.2, 4)) with
        | some line => parkAbsent b.core line s
        | none =>
          if (vOks xs).any fun o => snapWaits s (vaultKey b.core o.2) 4 then stallOn 0x02 s
          else issueAtom h u sub d a l true ((vOks xs).map fun o => (o.1, vaultKey b.core o.2, 0)) (vFaults xs) none (fun _ => false)
            (sendPort b.core) 16 s
      else
        let xs := globalLanes s .atomic xr.toNat a (litDisp l) 4 lanes
        if !(waitsOf xs).isEmpty then waitWalks (waitsOf xs) s
        else
          let xs := badLanes s u 2 (atomOpnds sub nr d a) (eccLanes s 2 xr.toNat a (litDisp l) 4 xs)
          let oks := (oksOf xs).map fun o => (o.1, (paKey s o.2.1).getD 0, o.2.1)
          issueAtom h u sub d a l false oks (faultsOf xs) (farOf s u .atomic xr.toNat a (litDisp l) (oksOf xs))
            (fun ln => inSlice s s.myCtx (laneVa s xr.toNat a (litDisp l) ln) 4) (fun r => sendCluster (ownerCluster r.pa) r) 0
            (touchTlb (xreg s.team xr.toNat) 4 (laneOffs s a (litDisp l) lanes) s)

/-! ### WADDR -/

/-- A vault aperture's core, by its key, and offset, when a physical address lies there (R225). -/
def apertureOf (s : State) (pa : Nat) : Option (Nat × Nat) :=
  match paKind s.split pa with
  | .vault c off => some (c, off)
  | _ => none

/-- What a WADDR meets in each lane when its access ends in a trap: the package of its word and the address (R245, R424). -/
def waddrFar (s : State) (pkg : Nat) (addr : DWord) : FarAccess :=
  { pc := s.team.pc, back := s.team.mcall, lanes := (lanesOf s.team.active).map fun l => (l, pkg, { cause := cREMOTE, faddr := addr }) }

/-- The request of a WADDR: a WAIT's expected value and timeout; the access of a WAKE to another package (R255, R245). -/
def waddrReq (s : State) (op : Nat) (d : RegF) (key pa : Nat) (credit : Option Nat) (slice : Bool) (far : FarAccess) : Req :=
  let lane := lowestLane s.team.active
  { tid := s.team.tid, addr := key, tag := s.nextTag, pa := pa, arr := s.ac + 1, credit := credit, slice := slice
    op := if op = 0 then ReqOp.wait (rdn s d 0 lane) (rdn s d 1 lane) else if op = 1 then ReqOp.wake else ReqOp.wakeall
    far := if op = 0 ∨ credit.isNone ∨ paPkg pa = Config.packageIndex then none else some far }

/-- The end of a WADDR whose request has been sent: a WAIT parks. -/
def waddrEnd (h : Hd) (op : Nat) (a : RegF) (far : FarAccess) (s : State) : State :=
  let s := finish h 8 ((begin 1 (s.takeTag).2).onTeam (applyHints h a 1 a 0 []))
  if op = 0 then parkAt .watch (s.onTeam fun t => { t with farWait := some far }) else s

/-- WADDR up to its request (R255). A WAIT reads its word, and traps ECC where that is marked (R424). -/
def doWaddr (h : Hd) (op : Nat) (d a : RegF) (xr : BitVec 3) (l : Word) (s : State) : State :=
  let vlt := litVault l
  let wait := op == 0
  withOps 8 false ([src a] ++ if wait then [srcPair d] else []) s (x := if vlt then none else some xr.toNat) fun s =>
    if isVec a ∨ (wait ∧ !isScalar d) then trapI cILLOPND 8 (begin 1 s)
    else if orderWaits s false then stallOn 0x02 s
    else
      let off := laneOff (rdu s a) (litDisp l)
      if vlt then
        let b := s.myBlock
        match vaultLane b 0 off 4 with
        | .inr f => trapAll f 8 (begin 1 s)
        | .inl o =>
          match absentLine s b.core [(o, 4)] with
          | some line => parkAbsent b.core line s
          | none =>
            let key := vaultKey b.core o
            let va := BitVec.ofNat 64 (off.toNat)
            if snapWaits s key 4 then stallOn 0x02 s
            else if wait ∧ badAt s key 4 then trapAll { cause := cECC, faddr := va, lsub := 2 } 8 (begin 1 s)
            else
              let far := waddrFar s Config.packageIndex va
              waddrEnd h op a far (sendPort b.core (waddrReq s op d key 0 none false far) s)
      else
        match laneAccess s .load (xreg s.team xr.toNat) off 4 (lowestLane s.team.active) with
        | .wait va => waitWalks [va] s
        | .fault f => trapAll f 8 (begin 1 s)
        | .ok pa _ =>
          let va := xrVa (xreg s.team xr.toNat) off
          match (if wait then eccOf s s.myCore pa 4 else none) with
          | some k => trapAll { cause := cECC, faddr := BitVec.ofNat 64 va, lsub := k } 8 (begin 1 s)
          | none =>
            if noCredit s then stallOn 0x12 s
            else
              let far := waddrFar s (paPkg pa) (BitVec.ofNat 64 va)
              let r := waddrReq s op d ((paKey s pa).getD 0) pa (some s.team.blk) (inSlice s s.myCtx va 4) far
              let s := touchTlb (xreg s.team xr.toNat) 4 [off] (s.spokenTo s.myCore (paPkg pa))
              let s := s.onBlock s.team.blk fun b => { b with credits := b.credits + 1 }
              waddrEnd h op a far (match apertureOf s pa with
                | some (c, _) => sendPort c r s
                | none => sendCluster (ownerCluster pa) r s)

/-! ### Service -/

/-- Whether a request reaches its owner, and its answer the core that sent it (R1, R382). -/
def reqReaches (s : State) (r : Req) : Bool := paReaches s (coreOf r.tid) r.pa

/-- Arrived requests enter a service team's queue of 256 in the order of R252. -/
def enqueue (c : Nat) (s : State) : State :=
  let x := s.cluster c
  let here := fun (r : Req) => decide (r.arr ≤ s.ac) && reqReaches s r
  let ready := sortBy (fun a b => lexLe (reqKey a) (reqKey b)) (x.net.filter here)
  let room := 256 - x.queue.length
  let go := (ready.take room).map fun r => { r with arr := s.ac }
  s.onCluster c fun x => { x with net := (x.net.filter fun r => !here r) ++ ready.drop room, queue := x.queue ++ go }

/-- The head of a queue that may be served in this ac: one request for each ac, from the ac after it was enqueued (R252). -/
def headReady (s : State) (c : Nat) : Option Req :=
  match (s.cluster c).queue with
  | r :: _ => if r.arr < s.ac ∧ (s.cluster c).nextApply ≤ s.ac ∧ reqReaches s r then some r else none
  | [] => none

/-- The head of a queue is served. -/
def popHead (c : Nat) (r : Req) (s : State) : State :=
  paCarried (coreOf r.tid) r.pa (s.onCluster c fun x => { x with queue := x.queue.drop 1, nextApply := s.ac + 1 })

/-- A word of memory. -/
def wordAt (s : State) (k : Nat) : Word := w32 (leNat (s.load k 4))

/-- The word that a request reads: a free value in a ring slice of a running grid (R214, log entry 1). -/
def reqWord (r : Req) (s : State) : Word := if r.slice then Config.freeWord s.fresh else wordAt s r.addr

/-- The free value of such a read is drawn. -/
def reqDrawn (r : Req) (s : State) : State := { s with fresh := s.fresh + if r.slice then 1 else 0 }

/-- The request's write to the word: an INCB on a sealed word stores nothing (R247). -/
def applyAtom (r : Req) (sub : Nat) (d d1 : Word) (s : State) : State :=
  let old := reqWord r s
  let new := atomFn sub old d d1
  let s := reqDrawn r s
  if sub = 11 ∧ old.getLsbD 31 then s else s.store r.addr (leBytes 4 new.toNat)

/-- Whether an ATOM records a release for promotion, and whether it acquires at DIE or wider (R281). -/
def promRelease (ord scope : Nat) : Bool := decide (2 ≤ ord) && decide (scope ≤ 1)
def promAcquire (ord scope : Nat) : Bool := (ord == 1 || ord == 3) && decide (3 ≤ scope)

/-- The service team applies the atomic at its head (R247, R281): a full promotion table first promotes its oldest entry. A copy of the line
that the issuing core's cache took meanwhile loses its unwritten bytes, so that the lane's later loads see the atomic (R222). -/
def serviceAtom (c : Nat) (s : State) : State :=
  let x := s.cluster c
  match headReady s c with
  | some r =>
    match r.op with
    | .atom sub d d1 ord scope =>
      let core := coreOf r.tid
      let old := reqWord r s
      let known := x.promo.any fun e => e.1 == r.addr
      if promRelease ord scope ∧ !known ∧ 32 ≤ x.promo.length then
        match x.promo with
        | (w, k) :: _ =>
          if x.held.any fun e => e.2.1 == w then s else s.onCluster c fun x => { x with held := x.held ++ [(k, w, none)] }
        | [] => s
      else
        let s := invalidateLines core (fun tag => tag == r.pa / 128) (popHead c r (applyAtom r sub d d1 s))
        let s := if promRelease ord scope then
            s.onCluster c fun x => { x with promo := (x.promo.filter fun e => e.1 != r.addr) ++ [(r.addr, core)] }
          else s
        match x.promo.find? fun e => e.1 == r.addr with
        | some (w, k) =>
          if promAcquire ord scope ∧ k ≠ core then s.onCluster c fun x => { x with held := x.held ++ [(k, w, some (r, old))] }
          else reply r old s.ac s
        | none => reply r old s.ac s
    | _ => s
  | none => s

/-- A core writes its cache back for a promoted release; the entry goes, and the reply that it held is released (R281). -/
def promotionWriteback (c : Nat) (s : State) : State :=
  match (s.cluster c).held with
  | [] => s
  | (core, w, who) :: rest =>
    let s := writeBackAll core s
    let s := s.onCluster c fun x => { x with held := rest, promo := x.promo.filter fun e => !(e.1 == w && e.2 == core) }
    match who with
    | some (r, old) => reply r old s.ac s
    | none => s

/-- The wake of a watcher. -/
def wakeWatcher (tid : Nat) (s : State) : State := s.withTeam tid fun s => if s.team.park = .watch then unpark s else s

/-- Whether the owner of the word that a team watches reaches the team (R1). -/
def watcherReached (s : State) (tid : Nat) : Bool :=
  s.allTeams.all fun t => t.tid != tid || (t.farWait.map (s.farReaches (coreOf tid))).getD true

/-- The watchers that a service has taken from its table are woken; those that it does not reach are to be woken once it does. -/
def wakeGone (gone : List Watch) (s : State) : State :=
  let (near, cut) := gone.partition fun w => watcherReached s w.tid
  near.foldl (fun s w => wakeWatcher w.tid s) { s with waking := s.waking ++ cut }

/-- The credit of a WADDR's request returns with its service (R253). -/
def reqCredit (r : Req) (s : State) : State :=
  match r.credit with
  | some k => creditBack k s
  | none => s

/-- The word of a WAIT was marked uncorrectable after its issue: the parked team traps ECC, as that of a read that finds it so (R424). -/
def waitEcc (tid lsub : Nat) (s : State) : State :=
  s.withTeam tid fun s =>
    match s.team.park, s.team.farWait with
    | .watch, some x =>
      let t := s.team
      raise { cause := cECC, lanes := x.lanes.map fun l => (l.1, { l.2.2 with cause := cECC, lsub := lsub })
              mask := maskOf (x.lanes.map (·.1)), saved := savedMask t, tpc := x.pc, tnext := t.pc, boundary := true, late := some x.back } s
    | _, _ => s

/-- The comparison of a WAIT, in a table that has room (R256). -/
def compareRecord (r : Req) (d t : Word) (room : Bool) (record : Watch → State → State) (s : State) : State :=
  let s := reqCredit r s
  if badAt s r.addr 4 then waitEcc r.tid (if 2 ^ 42 ≤ r.addr ∧ r.addr < 2 ^ 57 then 2 else 4) s
  else if reqWord r s ≠ d ∨ !room then wakeWatcher r.tid (reqDrawn r s)
  else record { addr := r.addr, tid := r.tid, parkAc := s.ac, timeout := t.toNat } (reqDrawn r s)

/-- The watchers that a WAKE, or a WAKEALL, wakes: the earliest, or all of the word (R258). -/
def wakeList (ws : List Watch) (addr : Nat) (all : Bool) : List Watch :=
  let hit := ws.filter fun w => w.addr == addr
  if all then hit else hit.take 1

/-- Removes watches of teams. -/
def dropWatches (gone : List Watch) (ws : List Watch) : List Watch := ws.filter fun w => !gone.contains w

/-- A WAIT at the head of a service team's queue (R256). -/
def serviceWait (c : Nat) (s : State) : State :=
  match headReady s c with
  | some r =>
    match r.op with
    | .wait d t =>
      compareRecord r d t (decide ((s.cluster c).watches.length < 256))
        (fun w s => s.onCluster c fun x => { x with watches := x.watches ++ [w] }) (popHead c r s)
    | _ => s
  | none => s

/-- A WAKE or WAKEALL at the head of a service team's queue (R258). -/
def serviceWake (c : Nat) (s : State) : State :=
  match headReady s c with
  | some r =>
    let go := fun (all : Bool) =>
      let gone := wakeList (s.cluster c).watches r.addr all
      let s := reqCredit r (popHead c r s)
      wakeGone gone (s.onCluster c fun x => { x with watches := dropWatches gone x.watches })
    match r.op with
    | .wake => go false
    | .wakeall => go true
    | _ => s
  | none => s

/-- One request at a vault port (R252, R256, R258, R271). -/
def portApply (core : Nat) (s : State) (r : Req) : State :=
  match r.op with
  | .atom sub d d1 _ _ =>
    let old := reqWord r s
    let s := applyAtom r sub d d1 s
    reply r old (s.ac + 15) s
  | .wait d t =>
    compareRecord r d t (decide ((s.core core).vwatch.length < 64))
      (fun w s => s.onCore core fun x => { x with vwatch := x.vwatch ++ [w] }) s
  | op =>
    let gone := wakeList (s.core core).vwatch r.addr (op == .wakeall)
    let s := reqCredit r s
    gone.foldl (fun s w => wakeWatcher w.tid s) (s.onCore core fun x => { x with vwatch := dropWatches gone x.vwatch })

/-- A vault port applies up to 32 of its arrived requests in one ac (R252). -/
def vaultPort (core : Nat) (s : State) : State :=
  let k := s.core core
  let ready := sortBy (fun a b => lexLe (reqKey a) (reqKey b)) (k.vport.filter fun r => r.arr ≤ s.ac)
  if ready.isEmpty ∨ s.ac < k.vportNext then s
  else
    let s := s.onCore core fun x => { x with
      vport := ready.drop 32 ++ x.vport.filter fun r => s.ac < r.arr
      vportNext := s.ac + 1 }
    (ready.take 32).foldl (portApply core) s

/-! ### Watches -/

/-- Every watch whose condition holds and whose team its owner reaches is removed and its team woken. -/
def wakeWhere (p : Watch → Bool) (s : State) : State :=
  let p := fun (w : Watch) => p w && watcherReached s w.tid
  let gone := (s.clusters.flatMap fun c => c.2.watches.filter p) ++ (s.cores.flatMap fun c => c.2.vwatch.filter p)
  let s := { s with
    clusters := mmap (fun c => { c with watches := c.watches.filter fun w => !p w }) s.clusters
    cores := mmap (fun c => { c with vwatch := c.vwatch.filter fun w => !p w }) s.cores }
  gone.foldl (fun s w => wakeWatcher w.tid s) s

/-- The teams whose watches of a line a write has removed are woken (R257), once their owner reaches them. -/
def wakeWritten (line : Nat) (s : State) : State :=
  let on := fun (w : Watch) => w.addr / 128 == line && watcherReached s w.tid
  (s.waking.filter on).foldl (fun s w => wakeWatcher w.tid s) { s with waking := s.waking.filter fun w => !on w }

/-- Whether a watch has reached its timeout (R257). -/
def watchDue (ac : Nat) (w : Watch) : Bool := w.timeout != 0 && decide (w.parkAc + 1024 * w.timeout ≤ ac)

/-! ### Meanings -/

/-- ATOM.ADD (R247). -/
def execAtomAdd (h : Hd) (d a : RegF) (xr : BitVec 3) (l : Word) (s : State) : Out := .next (doAtom h 0 d a xr l s)
/-- ATOM.FADD (R247). -/
def execAtomFadd (h : Hd) (d a : RegF) (xr : BitVec 3) (l : Word) (s : State) : Out := .next (doAtom h 1 d a xr l s)
/-- ATOM.MIN (R247). -/
def execAtomMin (h : Hd) (d a : RegF) (xr : BitVec 3) (l : Word) (s : State) : Out := .next (doAtom h 2 d a xr l s)
/-- ATOM.MAX (R247). -/
def execAtomMax (h : Hd) (d a : RegF) (xr : BitVec 3) (l : Word) (s : State) : Out := .next (doAtom h 3 d a xr l s)
/-- ATOM.UMIN (R247). -/
def execAtomUmin (h : Hd) (d a : RegF) (xr : BitVec 3) (l : Word) (s : State) : Out := .next (doAtom h 4 d a xr l s)
/-- ATOM.UMAX (R247). -/
def execAtomUmax (h : Hd) (d a : RegF) (xr : BitVec 3) (l : Word) (s : State) : Out := .next (doAtom h 5 d a xr l s)
/-- ATOM.AND (R247). -/
def execAtomAnd (h : Hd) (d a : RegF) (xr : BitVec 3) (l : Word) (s : State) : Out := .next (doAtom h 6 d a xr l s)
/-- ATOM.OR (R247). -/
def execAtomOr (h : Hd) (d a : RegF) (xr : BitVec 3) (l : Word) (s : State) : Out := .next (doAtom h 7 d a xr l s)
/-- ATOM.XOR (R247). -/
def execAtomXor (h : Hd) (d a : RegF) (xr : BitVec 3) (l : Word) (s : State) : Out := .next (doAtom h 8 d a xr l s)
/-- ATOM.EXCH (R247). -/
def execAtomExch (h : Hd) (d a : RegF) (xr : BitVec 3) (l : Word) (s : State) : Out := .next (doAtom h 9 d a xr l s)
/-- ATOM.CAS (R247). -/
def execAtomCas (h : Hd) (d a : RegF) (xr : BitVec 3) (l : Word) (s : State) : Out := .next (doAtom h 10 d a xr l s)
/-- ATOM.INCB (R247). -/
def execAtomIncb (h : Hd) (d a : RegF) (xr : BitVec 3) (l : Word) (s : State) : Out := .next (doAtom h 11 d a xr l s)
/-- ATOM.SEAL (R247). -/
def execAtomSeal (h : Hd) (d a : RegF) (xr : BitVec 3) (l : Word) (s : State) : Out := .next (doAtom h 12 d a xr l s)
/-- ATOM.SNAP (R247). -/
def execAtomSnap (h : Hd) (d a : RegF) (xr : BitVec 3) (l : Word) (s : State) : Out := .next (doAtom h 13 d a xr l s)
/-- WADDR.WAIT (R255). -/
def execWaddrWait (h : Hd) (d a : RegF) (xr : BitVec 3) (l : Word) (s : State) : Out := .next (doWaddr h 0 d a xr l s)
/-- WADDR.WAKE (R255). -/
def execWaddrWake (h : Hd) (d a : RegF) (xr : BitVec 3) (l : Word) (s : State) : Out := .next (doWaddr h 1 d a xr l s)
/-- WADDR.WAKEALL (R255). -/
def execWaddrWakeall (h : Hd) (d a : RegF) (xr : BitVec 3) (l : Word) (s : State) : Out := .next (doWaddr h 2 d a xr l s)
/-- VAULT_PORT_APPLY (R252): the selection names the core. -/
def execVaultPortApply (s : State) : Out := .next (vaultPort s.sel.unit s)
/-- ATOM_REQUEST_ENQUEUE (R252): the selection names the cluster. -/
def execAtomRequestEnqueue (s : State) : Out := .next (enqueue s.sel.unit s)
/-- ATOM_SERVICE_APPLY (R247): the selection names the cluster. -/
def execAtomServiceApply (s : State) : Out := .next (serviceAtom s.sel.unit s)
/-- WAIT_COMPARE_RECORD (R256): the selection names the cluster. -/
def execWaitCompareRecord (s : State) : Out := .next (serviceWait s.sel.unit s)
/-- WAKE_SERVICE (R258): the selection names the cluster. -/
def execWakeService (s : State) : Out := .next (serviceWake s.sel.unit s)
/-- PROMOTION_WRITEBACK (R281): the selection names the cluster. -/
def execPromotionWriteback (s : State) : Out := .next (promotionWriteback s.sel.unit s)
/-- WATCH_WRITE_WAKE (R257): the selection names the line, as its byte key divided by 128. -/
def execWatchWriteWake (s : State) : Out := .next (wakeWritten s.sel.word s)
/-- WATCH_TIMEOUT (R257): the selection names the team. -/
def execWatchTimeout (s : State) : Out := .next (wakeWhere (fun w => w.tid == s.sel.unit && watchDue s.ac w) s)
/-- SPURIOUS_WAKE (R257): the selection names the team. -/
def execSpuriousWake (s : State) : Out := .next (wakeWhere (fun w => w.tid == s.sel.unit) s)

end Sys2Proof.Machine
end

