-- ==== Sys2Proof/Machine/Relational.lean ====
section
/-!
DEFINITION. Teams as relations (chapter 09): GROUP, REGRP and DROP through the Vat, JOIN and SPAWN into bins.
-/

namespace Sys2Proof.Machine

/-! ### Descriptors -/

/-- Relation descriptor `i` of the block as a number; 0, of an invalid kind, when the table holds none (R201). -/
def relDesc (s : State) (i : Nat) : Nat :=
  match s.myBlock.rel with
  | some l => ((l[i]?).getD 0).toNat
  | none => 0

def relKind (x : Nat) : Nat := bitsOf x 7 6
def relKw (x : Nat) : Bool := bitAt x 5

/-- The used pairs of a combine descriptor: column and operator (R202). A column of 96 to 127, which is no register name of R202 and which
R205 does not refuse, names the physical register at the window base plus the column (log entry 64). -/
def combinePairs (x : Nat) : List (Nat × Nat) :=
  (List.range (bitsOf x 3 0)).map fun i => (bitsOf x (38 + 8 * i) (32 + 8 * i), bitsOf x (99 + 4 * i) (96 + 4 * i))

/-- The checks of a combine descriptor against D and A (R205). -/
def combineOk (x d a : Nat) : Bool :=
  let ps := combinePairs x
  relKind x == 1 && decide (bitsOf x 3 0 ≤ 8) && (ps.all fun p => decide (p.2 ≤ 0xB)) && decide ((ps.map (·.1)).Nodup) &&
    (ps.all fun p => p.1 != d && !(relKw x && p.1 == a))

/-- The value of a column under an operator over the members of a key, ascending lane index (R203). -/
def combineVal (op : Nat) (vals : List Word) : Word :=
  let first := vals.headD 0
  let pick := fun (gt : Bool) =>
    if vals.any fun v => (dec32 v).isNan then canonNan
    else vals.foldl (fun acc v => w32 (fMinBits fp32 gt acc.toNat v.toNat)) first
  match op with
  | 1 => vals.foldl (· + ·) 0
  | 2 => rne32 (exactSum (vals.map dec32))
  | 3 => vals.foldl (fun a b => if a.toInt ≤ b.toInt then a else b) first
  | 4 => vals.foldl (fun a b => if a.toInt ≤ b.toInt then b else a) first
  | 5 => pick false
  | 6 => pick true
  | 7 => vals.foldl (· &&& ·) 0xFFFFFFFF#32
  | 8 => vals.foldl (· ||| ·) 0
  | 9 => vals.foldl (· ^^^ ·) 0
  | 10 => w32 vals.length
  | 11 => vals.getLastD 0
  | _ => first

/-! ### The Vat -/

/-- Registers of a lane that the Vat moves (R219). -/
def vatRegs (t : Team) : Nat := t.nregs + if t.handler.isSome then 16 else 0

/-- The groups that hold a position whose occupant changes (R219). -/
def changedGroups (live : Mask) (moves : List (Nat × Nat)) : Nat :=
  let changed := (moves.filter fun m => m.1 != m.2).flatMap fun m => [m.1, m.2]
  let gone := (lanesOf live).filter fun l => !(moves.any fun m => m.1 == l)
  ((changed ++ gone).map (· / 32)).eraseDups.length

/-- Puts a Vat instruction among the waiting ones: in order of issue, then of scheduler (R198). -/
def vatInsert (j : VatJob) (q : List VatJob) : List VatJob :=
  insertBy (fun a b => decide (a.issued < b.issued) || (a.issued == b.issued && decide (schedOf a.tid ≤ schedOf b.tid))) j q

/-- Issues a Vat instruction whose checks have passed: the team parks until it completes (R199). -/
def issueVat (h : Hd) (len : Nat) (base step : Nat) (moves : List (Nat × Nat)) (writes : List RegWrite) (route : List (Nat × Nat))
    (dense : Bool) (hints : Team → Team) (s : State) : State :=
  let g := (groupsOf s.team.active).length
  let cost := base + step * g + vatRegs s.team * changedGroups s.team.live moves
  let p := passesOf s.team
  let j : VatJob := { tid := s.team.tid, issued := s.ac, start := s.ac + p - 1, moves := moves, writes := writes, route := route
                      dense := dense, cost := cost }
  let s := (begin p s).onTeam hints
  let s := s.onCore s.myCore fun c => { c with vatq := vatInsert j c.vatq }
  parkAt .vat (finish h len s)

/-- The wait and the refusal that GROUP, REGRP and DROP begin with (R199, R352). -/
def withVat (len : Nat) (s : State) (k : State → State) : State :=
  if !s.team.pend.isEmpty then stallOn 0x06 s
  else if s.team.hmode then trapI cILLOPND len (begin 1 s)
  else k s

/-- The Vat of a core takes the next waiting instruction (R198). -/
def vatStart (c : Nat) (s : State) : State :=
  let k := s.core c
  match k.vat, k.vatq with
  | none, j :: rest =>
    if s.ac < j.start ∨ s.ac < k.vatFree then s
    else s.setCore c { k with vat := some { j with done := s.ac + j.cost }, vatq := rest }
  | _, _ => s

/-- A mask after a renumbering (R200). -/
def moveMask (moves : List (Nat × Nat)) (m : Mask) : Mask := maskOf ((moves.filter fun p => m.getLsbD p.1).map (·.2))

/-- The entries of a register table by lane after a renumbering. -/
def moveRegs {α : Type} (moves : List (Nat × Nat)) (v : Sparse α) : Sparse α :=
  moves.foldl (fun acc m =>
    (v.filter fun e => e.1 / 512 == m.1).foldl (fun acc e => mput acc (m.2 * 512 + e.1 % 512) e.2) acc) []

/-- The error marks of registers after a renumbering: those of vector registers move with their lanes, the others stay (R200, R424). -/
def moveBad (moves : List (Nat × Nat)) (bad : List Nat) : List Nat :=
  bad.filter (fun k => decide (2 ^ 20 ≤ k)) ++
    moves.flatMap fun m => (bad.filter fun k => k / 512 == m.1 && decide (k < 2 ^ 20)).map fun k => m.2 * 512 + k % 512

/-- An access in flight after a renumbering: its lanes that stay live. -/
def moveFar (moves : List (Nat × Nat)) (f : FarAccess) : FarAccess :=
  { f with lanes := f.lanes.filterMap fun l => (mget? moves l.1).map fun p => (p, l.2) }

/-- A store that is not yet accepted, after a renumbering: it is one of the lanes at their new positions (R122). -/
def moveToken (moves : List (Nat × Nat)) (k : Token) : Token :=
  { k with lanes := moveMask moves k.lanes, far := k.far.map (moveFar moves) }

/-- A WAKE in flight, after a renumbering of its team. -/
def moveReqs (tid : Nat) (moves : List (Nat × Nat)) (s : State) : State :=
  let fix := fun (r : Req) => if r.tid = tid then { r with far := r.far.map (moveFar moves) } else r
  { s with clusters := mmap (fun c => { c with net := c.net.map fix, queue := c.queue.map fix }) s.clusters }

/-- A waiting event after a renumbering. -/
def moveEvent (moves : List (Nat × Nat)) : TeamEvent → TeamEvent
  | .remote f => .remote (moveFar moves f)
  | e => e

/-- The renumbering of R200 on a team. -/
def renumber (moves : List (Nat × Nat)) (t : Team) : Team :=
  let live := moveMask moves t.live
  { t with
    v := moveRegs moves t.v
    vdead := moveRegs moves t.vdead
    rbad := moveBad moves t.rbad
    stores := t.stores.map (moveToken moves)
    events := t.events.map (moveEvent moves)
    vundef := maskBelow t.lanes &&& ~~~ live
    active := moveMask moves t.active
    live := live
    rstack := t.rstack.map fun e => { e with mask := moveMask moves e.mask } }

/-- POP inside an expansion: the PC that it sets takes effect at the end of the expansion, whose words go on as if fetched at the MCALL's PC
(R113). The spec does not say what becomes of the expansion there; that the popped path runs the rest of its words is the model's choice (log
entry 66). -/
def popInside (old : Team) (t : Team) : Team :=
  match t.mcall with
  | some m => { t with pc := old.pc, mcall := some { m with ret := some t.pc } }
  | none => t

/-- The team goes on after its renumbering: with POP when no live lane is active (R218); the MASKs of the renumbering come before the trap
of a POP that finds no entry (R370). That an expansion goes on after a POP inside it, and ends at the popped PC, is the model's choice (log
entry 66). -/
def vatGoOn (s : State) : State :=
  if s.team.active ≠ 0 then traceMasks s
  else match doPop s with
    | some s' => traceMasks (s'.onTeam (popInside s.team))
    | none => trapI cILLOPND 4 (traceMasks s)

/-- The effect of a Vat instruction on its team, in one step; a team without live lanes ends. -/
def vatApply (j : VatJob) (s : State) : State :=
  let s := (moveReqs j.tid j.moves s).onTeam fun t =>
    let t := renumber j.moves (writeRegs j.writes t)
    { t with tstat := if j.dense then t.tstat ||| tstatRegrpDense else t.tstat }
  if s.team.live = 0 then endTeam false (traceMasks (s.onTeam fun t => { t with park := .run }))
  else vatGoOn (unpark s)

/-- The instruction on the Vat of a core completes (R200, R206, R217, R218). -/
def vatComplete (c : Nat) (s : State) : State :=
  match (s.core c).vat with
  | none => s
  | some j =>
    if s.ac < j.done then s
    else
      let s := s.onCore c fun k =>
        let route := j.route.foldl (fun r p => mset 0 r p.1 (mget 0 r p.1 + w32 p.2)) k.route
        { k with vat := none, vatFree := s.ac + 1, route := route }
      s.withTeam j.tid fun s => vatApply j (tracePre s)

/-! ### GROUP, REGRP, DROP -/

/-- The classes of members by equal key: the key and the lanes, ascending, in order of first occurrence (R206). -/
def classesOf (keys : List (Nat × Nat)) : List (Nat × List Nat) :=
  ((keys.map (·.2)).eraseDups).map fun k => (k, (keys.filter fun p => p.2 == k).map (·.1))

/-- The key of a member of GROUP, from its low and high words: a special is broadcast (R204). -/
def groupKey (s : State) (kw : Bool) (d a : RegF) (l : Nat) : Nat :=
  (rdc s d l).toNat + if kw then (rdc s a l).toNat * 2 ^ 32 else 0

/-- The key of a member of JOIN, from its low and high words. -/
def keyOf (s : State) (kw : Bool) (d a : RegF) (l : Nat) : Nat :=
  (rdv s d l).toNat + if kw then (rdv s a l).toNat * 2 ^ 32 else 0

/-- Whether a lane reads a column whose register holds an uncorrectable error (R424). -/
def colsBad (s : State) (cols : List Nat) (lanes : List Nat) : Bool :=
  cols.any fun c => lanes.any fun l => regBad s.team (s.team.wbase + c) l

/-- The value of a column of the window in a lane; a dead register reads POISON (R25, R203). -/
def colVal (s : State) (c l : Nat) : Word := (readReg s (s.team.wbase + c) l).1

/-- GROUP (R204 to R206). -/
def doGroup (h : Hd) (d a : RegF) (n4 : BitVec 4) (l : Word) (s : State) : State :=
  withVat 8 s fun s =>
    let x := relDesc s n4.toNat
    let kw := relKw x
    withOps 8 false ((if kw then [src a] else []) ++ [src d]) s fun s =>
      let pairs := combinePairs x
      let members := lanesOf s.team.active
      if !combineOk x d.toNat a.toNat then trapI cRELDESC 8 (begin 1 s)
      else if pairs.any fun p => decide (s.team.nregs ≤ s.team.wbase + p.1) then trapI cWINDOW 8 (begin 1 s)
      else
        let dead := pairs.any fun p => p.2 != 10 && members.any fun m => regDead s.team (s.team.wbase + p.1) m
        let s := if dead then s.onTeam setPoisoned else s
        if dead ∧ s.team.tstat.getLsbD 1 then trapI cPOISON 8 (begin 1 s)
        else if colsBad s ((pairs.filter fun p => p.2 != 10).map (·.1)) members then trapAll (regEcc 0) 8 (begin 1 s)
        else
          let classes := classesOf (members.map fun m => (m, groupKey s kw d a m))
          let ranked := if bitAt l.toNat 0 then classes else sortBy (fun p q => p.1 ≤ q.1) classes
          let others := (lanesOf s.team.live).filter fun m => !s.team.active.getLsbD m
          let moves := (ranked.map fun p => p.2.headD 0).zipIdx ++ (others.zipIdx.map fun p => (p.1, ranked.length + p.2))
          let writes := classes.flatMap fun p => pairs.map fun q =>
            (⟨p.2.headD 0, s.team.wbase + q.1, combineVal q.2 (p.2.map fun m => colVal s q.1 m)⟩ : RegWrite)
          issueVat h 8 12 4 moves writes [] false (applyHints h a (if kw then 1 else 0) a 0 members) s

/-- The runs of REGRP (R217): the new position of each lane, its index in the run, the counts, and whether runs were packed densely. -/
def regrpRuns (lanes : Nat) : List (Nat × List Nat) → Nat → Bool → List (Nat × Nat) × List (Nat × Nat) × Bool
  | [], _, dense => ([], [], dense)
  | (k, ms) :: rest, pos, dense =>
    let left := ((rest.map fun p => p.2.length).foldl (· + ·) 0) + ms.length
    let start := if dense then pos else 32 * ceilDiv pos 32
    let dense' := dense || decide (lanes < start + left)
    let start := if lanes < start + left then pos else start
    let (mv, rt, dn) := regrpRuns lanes rest (start + ms.length) dense'
    ((ms.zipIdx.map fun p => (p.1, start + p.2)) ++ mv, (k, ms.length) :: rt, dn)

/-- REGRP (R216, R217). B, when it names `lane` or `gidx`, is read once, in the lowest active lane, which is the model's choice (log entry 46). -/
def doRegrp (h : Hd) (d a b : RegF) (s : State) : State :=
  withVat 4 s fun s =>
    withOps 4 false [src a, src b, dst d] s fun s =>
      let c := (rdu s b).toNat
      let members := lanesOf s.team.active
      let key := fun l => (rdv s a l).toNat
      if !isVec a ∨ !isVec d ∨ isVec b ∨ c < 1 ∨ 64 < c ∨ s.team.active ≠ s.team.live ∨ members.any (fun l => decide (c ≤ key l)) then
        trapI cILLOPND 4 (begin 1 s)
      else
        let runs := ((List.range c).map fun k => (k, members.filter fun l => key l == k)).filter fun p => !p.2.isEmpty
        let (moves, route, dense) := regrpRuns s.team.lanes runs 0 false
        let writes := runs.flatMap fun p => p.2.zipIdx.map fun q => (⟨q.1, regCode s.team d.toNat, w32 q.2⟩ : RegWrite)
        issueVat h 4 8 2 moves writes route dense (applyHints h a 1 b 1 members) s

/-- DROP (R218): a scalar or special A is broadcast. -/
def doDrop (h : Hd) (a : RegF) (s : State) : State :=
  withVat 4 s fun s =>
    withOps 4 false [src a] s fun s =>
      let stay := (lanesOf s.team.live).filter fun l => !(s.team.active.getLsbD l && rdc s a l != 0)
      issueVat h 4 4 0 stay.zipIdx [] [] false (applyHints h a 1 a 0 (lanesOf s.team.active)) s

/-! ### Bins -/

/-- The key of a bin of a grid on a core, and the bin (R174). -/
def binKey (g i : Nat) : Nat := g * 4 + i
def binAt (s : State) (c k : Nat) : Bin :=
  (mget? (s.core c).bins k).getD { grid := k / 4, be := (((s.grid (k / 4)).launch.bins)[k % 4]?).getD {}, regs := 0 }
def setBin (c k : Nat) (b : Bin) (s : State) : State := s.onCore c fun x => { x with bins := mput x.bins k b }

/-- The bin of a grid on a core whose ENTRY is a target (R210, R213). -/
def findBin (s : State) (c g : Nat) (target : VAddr) : Option Nat :=
  ((s.grid g).launch.bins.zipIdx.find? fun p => p.1.entry == target && (mget? (s.core c).bins (binKey g p.2)).isSome).map fun p =>
    binKey g p.2

/-- Threads that a bin's FIFO holds at most (R174). -/
def binCap (b : Bin) : Nat := 32 * b.be.blanes

/-- The physical address of a byte of a bin's ring slice on a core, when a page maps it and memory takes it: no window of the system area of
a vault (R223), no lost package (R245), none that no port reaches (R1). The permissions of the page are not looked at (log entry 14). -/
def ringPa (s : State) (c : Nat) (b : Bin) (off : Nat) : Option Nat :=
  let va := (b.be.ring.toNat + c * (128 + 64 * 2 ^ b.be.ringlog) + off) % 2 ^ 57
  let r := walk s (s.grid b.grid).ctx va
  match paCheck s .load va (if r.ok then .ok (r.frame * 4096 + va % pageSize r.psz) r.ncm else .wait va) with
  | .ok pa _ => if paReaches s c pa then some pa else none
  | _ => none

/-- A 64-bit counter of the slice. -/
def ringWord (s : State) (c : Nat) (b : Bin) (off : Nat) : Nat :=
  match ringPa s c b off with
  | some pa => leNat (readPa s pa 8)
  | none => 0

def ringHead (s : State) (c : Nat) (b : Bin) : Nat := ringWord s c b 0
def ringTail (s : State) (c : Nat) (b : Bin) : Nat := ringWord s c b 8
/-- Threads in the slice. -/
def ringCount (s : State) (c : Nat) (b : Bin) : Nat := (ringTail s c b + 2 ^ 64 - ringHead s c b) % 2 ^ 64

/-- Free slots of the slice (R214, R359); none when its counters are not mapped (log entry 14). -/
def ringFree (s : State) (c : Nat) (b : Bin) : Nat :=
  if (ringPa s c b 0).isNone ∨ (ringPa s c b 8).isNone then 0 else (2 ^ b.be.ringlog - binCap b) - ringCount s c b

/-- Writes bytes of the slice; those of a slot whose page is not mapped are dropped (log entry 14). -/
def ringWrite (c : Nat) (b : Bin) (off : Nat) (bs : List Byte) (s : State) : State :=
  match ringPa s c b off with
  | some pa => writePa pa bs s
  | none => s

/-- The bytes of a thread's slot (R214), and the thread of a slot. -/
def slotBytes (ws : List Word) : List Byte := padTo 64 (leBytes 4 ws.length ++ ws.flatMap fun w => leBytes 4 w.toNat)
def slotThread (bs : List Byte) : List Word := (List.range (fieldAt bs 0 4 % 16)).map fun i => w32 (fieldAt bs (4 + 4 * i) 4)

/-- Takes the oldest thread of the slice into the FIFO (R174); the timer starts when the bin was empty of them. -/
def refillOne (c k : Nat) (s : State) : State :=
  let b := binAt s c k
  let head := ringHead s c b
  if b.fifo.length < binCap b ∧ 0 < ringCount s c b then
    match ringPa s c b (128 + 64 * (head % 2 ^ b.be.ringlog)) with
    | some pa =>
      ringWrite c b 0 (leBytes 8 (head + 1)) (setBin c k
        { b with fifo := b.fifo ++ [slotThread (readPa s pa 64)], timer := some (b.timer.getD (s.ac + b.be.timer)) } s)
    | none => s
  else s

/-- Refills the FIFO, oldest first. -/
def refill (c k : Nat) (s : State) : State := (List.range (binCap (binAt s c k))).foldl (fun s _ => refillOne c k s) s

/-- SPACE(bin) (R211). -/
def binSpace (s : State) (c k : Nat) : Nat :=
  let b := binAt s c k
  (binCap b - b.fifo.length) + ringFree s c b

/-- The bin accepts a thread (R213): the FIFO while it has room and the slice is empty, else the slice's tail. -/
def binAccept (c k : Nat) (ws : List Word) (s : State) : State :=
  let b := binAt s c k
  let n := ringCount s c b
  let b := if b.fifo.isEmpty ∧ n = 0 then { b with timer := some (s.ac + b.be.timer) } else b
  if b.fifo.length < binCap b ∧ n = 0 then setBin c k { b with fifo := b.fifo ++ [ws] } s
  else
    let tail := ringTail s c b
    ringWrite c b 8 (leBytes 8 (tail + 1)) (ringWrite c b (128 + 64 * (tail % 2 ^ b.be.ringlog)) (slotBytes ws) (setBin c k b s))

/-! ### SPAWN and JOIN -/

/-- Puts a spawning instruction among those that a bin serves: by the ac in which it reaches the bin, then by scheduler and slot (R213). The spec
does not say when an instruction reaches a bin: that it is the ac of its issue is the model's choice (log entry 66). -/
def spawnInsert (d : Delivery) (q : List Delivery) : List Delivery :=
  insertBy (fun a b => decide (a.issued < b.issued) || (a.issued == b.issued && decide (a.tid ≤ b.tid))) d q

/-- What D holds in a lane whose threads a bin accepted, and in one whose threads it did not (R211, R212). -/
def Delivery.value (d : Delivery) (ths : List (List Word)) (ok : Bool) : Word :=
  match d.join, ok with
  | true, true => w32 ths.length
  | true, false => 0xFFFFFFFF#32
  | false, true => 1
  | false, false => 0

/-- The next member of the first spawning instruction of a bin is considered, once its ac has come (R211, R212): its threads enter the bin
when all of them have room and no earlier member was refused. D's result is complete with the last member, and with it
TSTAT.SPAWNFULL (R28). A wait for the bin adds to the instruction's ac, and so does each thread that goes to the ring (R219): the latency of a
global store, of which R222 gives several, is taken as 200 ac, which is the model's choice (log entry 66). -/
def deliverOne (c k : Nat) (s : State) : State :=
  let s := refill c k s
  let b := binAt s c k
  match b.spawns with
  | [] => s
  | d :: rest =>
    if s.ac < d.next then s
    else match d.todo with
      | [] =>
        let done := fun (p : Pend) => if p.tag = d.tag then
            { p with missing := 0, due := max p.due (max d.next s.ac), tstat := if d.stop then tstatSpawnFull else 0 } else p
        (setBin c k { b with spawns := rest } s).withTeam d.tid fun s => s.onTeam fun t => { t with pend := t.pend.map done }
      | (l, ths) :: todo =>
        let ok := !d.stop && decide ((if d.join then ths.length else 1) ≤ binSpace s c k)
        let s := if ok then ths.foldl (fun s t => binAccept c k t s) s else s
        let ring := ths.length - ((binAt s c k).fifo.length - b.fifo.length)
        let next := max d.next s.ac + if ok then ths.length + 200 * ring else 0
        let d' := { d with todo := todo, stop := !ok, next := next }
        let add := fun (p : Pend) => if p.tag = d.tag then { p with writes := p.writes ++ [⟨l, d.code, d.value ths ok⟩] } else p
        let b := binAt s c k
        (setBin c k { b with spawns := d' :: rest } s).withTeam d.tid fun s => s.onTeam fun t => { t with pend := t.pend.map add }

/-- A bin serves its spawning instructions for one ac. -/
def deliverBin (c : Nat) (s : State) (k : Nat) : State :=
  let n := ((binAt s c k).spawns.map fun d => d.todo.length + 1).foldl (· + ·) 0
  (List.range n).foldl (fun s _ => deliverOne c k s) s

/-- Every bin serves its spawning instructions in the ac that ends (R213). -/
def deliverAll (s : State) : State :=
  s.cores.foldl (fun s c => (c.2.bins.filter fun b => !b.2.spawns.isEmpty).foldl (fun s b => deliverBin c.1 s b.1) s) s

/-- SPAWN and JOIN issue: D's result is outstanding, and the bin delivers the threads from `delay` ac after the last pass (R213, R219). -/
def issueSpawn (h : Hd) (d : RegF) (join : Bool) (k : Nat) (ths : List (Nat × List (List Word))) (delay : Nat) (hints : Team → Team)
    (s : State) : State :=
  if pendCount s.team + 1 > 16 then stallOn 0x06 s
  else
    let code := regCode s.team d.toNat
    let pc := s.team.pc
    let p := passesOf s.team
    let c := s.myCore
    let s := (begin p s).onTeam hints
    let (tag, s) := s.takeTag
    let s := addPend { tag := tag, pc := pc, regs := [code], missing := 1, due := s.ac + (p - 1) + delay } s
    let e : Delivery := { tid := s.team.tid, tag := tag, issued := s.ac, join := join, todo := ths, code := code, next := s.ac + (p - 1) + delay }
    let b := binAt s c k
    finish h 8 (setBin c k { b with spawns := spawnInsert e b.spawns } s)

/-- SPAWN (R212). -/
def doSpawn (h : Hd) (d a : RegF) (n3 : BitVec 3) (l : Word) (s : State) : State :=
  let n := n3.toNat + 1
  withOps 8 false [{ f := a.toNat, n := n, ok := isVec a && decide (a.toNat + n ≤ 96) }, { dst d with ok := isVec d }] s fun s =>
    if s.team.hmode then trapI cILLOPND 8 (begin 1 s)
    else match findBin s s.myCore s.myBlock.grid (s.team.pc + BitVec.ofInt 57 (4 * l.toInt)) with
      | none => trapI cILLOPND 8 (begin 1 s)
      | some k =>
        if orderWaits s true then stallOn 0x02 s
        else
          let members := lanesOf s.team.active
          issueSpawn h d false k (members.map fun m => (m, [(List.range n).map fun i => rdn s a i m]))
            (8 + 2 * (groupsOf s.team.active).length) (applyHints h a n a 0 members) s

/-- The rows of a relation (R208): each row's words. -/
def relRows (s : State) (base nrows words : Nat) : List (List Word) :=
  (List.range nrows).map fun r => (List.range words).map fun i => w32 (leNat (s.load (base + 16 + 4 * words * r + 4 * i) 4))

/-- The key of a row. -/
def rowKey (kw : Bool) (row : List Word) : Nat := (row.headD 0).toNat + if kw then (row.getD 1 0).toNat * 2 ^ 32 else 0

/-- Whether the keys never fall. -/
def rising : List Nat → Bool
  | a :: b :: rest => decide (a ≤ b) && rising (b :: rest)
  | _ => true

/-- The rows of the relation of JOIN (R208, R210), or why it does not go on: its header and rows are plain vault loads, which wait for the
team's own accesses and park on an absent line. -/
inductive RelRead where
  | rows (rows : List (List Word))
  | trap (f : LaneFault)
  | order
  | absent (line : Nat)
  | wait
deriving DecidableEq, Repr

/-- Reads the relation at an offset of a region. -/
def readRel (s : State) (r : Block) (rel words : Nat) (kw : Bool) : RelRead :=
  let f : LaneFault := { cause := cALIGN, faddr := BitVec.ofNat 64 rel }
  let base := vaultKey r.core (r.voff + rel)
  if rel % 16 ≠ 0 then .trap f
  else if r.vbytes < rel + 16 then .trap { f with cause := cVRANGE }
  else if orderWaits s true then .wait
  else match absentLine s r.core [(r.voff + rel, 16)] with
    | some line => .absent line
    | none =>
      if atomWaits s base 16 then .wait
      else
        let nrows := leNat (s.load base 2)
        let n := 16 + 4 * words * nrows
        if badAt s base 16 then .trap { f with cause := cECC, lsub := 2 }
        else if r.vbytes < rel + n then .trap { f with cause := cVRANGE }
        else match absentLine s r.core [(r.voff + rel, n)] with
          | some line => .absent line
          | none =>
            if atomWaits s base n then .wait
            else if badAt s base n then .trap { f with cause := cECC, lsub := 2 }
            else
              let rows := relRows s base nrows words
              if rising (rows.map (rowKey kw)) then .rows rows else .order

/-- JOIN (R207 to R211). Its left columns are no operand fields, and R210 names no step for their checks: a pending one traps HAZARD (R22)
after the window check, and a dead one is read, as POISON, after every other check, which is the model's choice (log entry 63). A column of
96 to 127 is taken as in `combinePairs` (log entry 64). -/
def doJoin (h : Hd) (d a : RegF) (n4 : BitVec 4) (l : Word) (s : State) : State :=
  let x := relDesc s n4.toNat
  let kw := relKw x
  withOps 8 false ((if kw then [src a] else []) ++ [srcDst d]) s fun s =>
    let nleft := bitsOf x 22 20
    let nright := bitsOf x 26 24
    let words := bitsOf x 19 16 + 1
    let rcols := (List.range nright).map fun i => bitsOf x (99 + 8 * i) (96 + 8 * i)
    let lcols := (List.range nleft).map fun i => bitsOf x (70 + 8 * i) (64 + 8 * i)
    if !isVec d ∨ s.team.hmode then trapI cILLOPND 8 (begin 1 s)
    else if relKind x ≠ 2 ∨ 4 < nleft ∨ 4 < nright ∨ (kw ∧ words = 1) ∨ rcols.any (fun w => decide (words ≤ w)) then
      trapI cRELDESC 8 (begin 1 s)
    else if lcols.any fun c => decide (s.team.nregs ≤ s.team.wbase + c) then trapI cWINDOW 8 (begin 1 s)
    else if lcols.any fun c => isPending s.team (s.team.wbase + c) then trapI cHAZARD 8 (begin 1 s)
    else if bitAt x 4 ∧ s.myBlock.bondSize ≤ bitsOf x 11 8 then trapI cMEMBER 8 (begin 1 s)
    else match findBin s s.myCore s.myBlock.grid (s.team.pc + BitVec.ofInt 57 (4 * l.toInt)) with
      | none => trapI cILLOPND 8 (begin 1 s)
      | some k =>
        let r := if bitAt x 4 then (bondBlock s (bitsOf x 11 8)).getD {} else s.myBlock
        match readRel s r (bitsOf x 63 32) words kw with
        | .trap f => trapAll f 8 (begin 1 s)
        | .absent line => parkAbsent r.core line s
        | .wait => stallOn 0x02 s
        | .order => trapI cRELORDER 8 (begin 1 s)
        | .rows rows =>
          let members := lanesOf s.team.active
          let dead := lcols.any fun c => members.any fun m => regDead s.team (s.team.wbase + c) m
          let s := if dead then s.onTeam setPoisoned else s
          if dead ∧ s.team.tstat.getLsbD 1 then trapI cPOISON 8 (begin 1 s)
          else if colsBad s lcols members then trapAll (regEcc 0) 8 (begin 1 s)
          else
            let ths := members.map fun m =>
              let head := rdv s d m :: (if kw then [rdv s a m] else []) ++ lcols.map fun c => colVal s c m
              (m, (rows.filter fun row => rowKey kw row == keyOf s kw d a m).map fun row => head ++ rcols.map fun w => row.getD w 0)
            issueSpawn h d true k ths (16 + 2 * (groupsOf s.team.active).length + ceilDiv rows.length 4)
              (applyHints h a (if kw then 1 else 0) a 0 members) s

/-! ### Meanings -/

/-- GROUP (R204). -/
def execGroup (h : Hd) (d a : RegF) (n4 : BitVec 4) (l : Word) (s : State) : Out := .next (doGroup h d a n4 l s)
/-- JOIN (R209). -/
def execJoin (h : Hd) (d a : RegF) (n4 : BitVec 4) (l : Word) (s : State) : Out := .next (doJoin h d a n4 l s)
/-- SPAWN (R212). -/
def execSpawn (h : Hd) (d a : RegF) (n3 : BitVec 3) (l : Word) (s : State) : Out := .next (doSpawn h d a n3 l s)
/-- REGRP (R216). -/
def execRegrp (h : Hd) (d a b : RegF) (s : State) : Out := .next (doRegrp h d a b s)
/-- DROP (R218). -/
def execDrop (h : Hd) (a : RegF) (s : State) : Out := .next (doDrop h a s)
/-- VAT_START (R198): the selection names the core. -/
def execVatStart (s : State) : Out := .next (vatStart s.sel.unit s)
/-- VAT_COMPLETE (R200): the selection names the core. -/
def execVatComplete (s : State) : Out := .next (vatComplete s.sel.unit s)

end Sys2Proof.Machine
end

