-- ==== Sys2Proof/Machine/Blocks.lean ====
section
/-!
DEFINITION. What the ends of blocks and commands share: report packets (R389, R391), the grid status record (R354), the freeing of a block's
vault region (R160, R161, R226).
-/

namespace Sys2Proof.Machine

/-! ### Packets -/

/-- The bytes of a packet, and `n` of them from an offset as a number. -/
def pktBytes (p : Packet) : List Byte := leBytes 64 p.toNat
def pktField (p : Packet) (off n : Nat) : Nat := fieldAt (pktBytes p) off n

/-- The packet of a list of bytes. -/
def pktOf (bs : List Byte) : Packet := BitVec.ofNat 512 (leNat (padTo 64 bs))

/-- Fields of a command packet (R389). -/
def cmdOf (p : Packet) : Nat := pktField p 0 1
def subOf (p : Packet) : Nat := pktField p 1 1
def ctxOf (p : Packet) : Nat := pktField p 2 2
def tagOf (p : Packet) : Nat := pktField p 4 4
def reportAddr (p : Packet) : Nat := pktField p 8 8
def reportEp (p : Packet) : Nat := pktField p 16 2
def waitFlag (p : Packet) : Bool := bitAt (pktField p 18 2) 0
/-- A field of the body, by its offset in it (R390). -/
def body (p : Packet) (off n : Nat) : Nat := pktField p (20 + off) n

/-- A packet leaves the package by a port; with no port up it does not (R1, R385, log entry 20). -/
def sendOut (ep addr : Nat) (bs : List Byte) (s : State) : State :=
  if s.linked then { s.spoken with out := s.out ++ [{ ep := ep, addr := addr, bytes := bs }] } else s

/-- STATUS of a report (R391). -/
abbrev stACCEPTED : Nat := 0
abbrev stDONE : Nat := 1
abbrev stREFUSED : Nat := 2
abbrev stSAVED : Nat := 3
abbrev stILLCMD : Nat := 4
abbrev stFAULT : Nat := 5
abbrev stSTOPPED : Nat := 6

/-- The report of a command (R391): TAG, STATUS, CMD, CTX, the 16 bytes of GSTATUS and what follows; none for a REPORT of 0. -/
def report (p : Packet) (status ctx : Nat) (gst : List Byte) (s : State) : State :=
  if reportAddr p = 0 then s
  else sendOut (reportEp p) (reportAddr p)
    (padTo 64 (leBytes 4 (tagOf p) ++ leBytes 1 status ++ leBytes 1 (cmdOf p) ++ leBytes 2 ctx ++ gst)) s

/-- The report of a command that failed on a device-side access (R391). -/
def reportFault (p : Packet) (va cause : Nat) (s : State) : State :=
  report p stFAULT (ctxOf p) (leBytes 8 va ++ leBytes 1 cause) s

/-- The grid status record (R354). -/
def statusBytes (g : Grid) : List Byte :=
  leBytes 1 g.stFlags ++ leBytes 1 g.fcause ++ leBytes 2 g.nabort ++ leBytes 8 g.fblk ++ leBytes 4 0

/-! ### Regions -/

/-- Sets the presence bits of a range of a vault (R226); teams parked on them wake. -/
def presenceAll (core off n : Nat) (s : State) : State :=
  ((linesIn off n).filter fun l => (s.core core).absent.contains l || (s.core core).arrived.contains l).foldl (fun s l => presenceSet core l s) s

/-- The keys of the blocks of a block's bond that still have a record (R161). -/
def bondAll (s : State) (k : Nat) : List Nat :=
  let b := s.block k
  match b.kind with
  | .grid => (s.blocks.filter fun (_, c) => c.kind == .grid && c.grid == b.grid && c.bond0 == b.bond0).map (·.1)
  | _ => [k]

/-- Frees the region and the record of an ended block, once its chunk has been read and every member of its bond has ended (R160, R402). -/
def freeBlock (k : Nat) (s : State) : State :=
  match mget? s.blocks k with
  | none => s
  | some b =>
    if b.phase ≠ .ended ∨ b.chunkWait ∨ (bondAll s k).any (fun j => (s.block j).phase != .ended) then s
    else presenceAll b.core b.voff b.vbytes { s with blocks := mdel s.blocks k }

/-- Frees what can be freed of a block's bond. -/
def freeBond (k : Nat) (s : State) : State := (bondAll s k).foldl (fun s j => freeBlock j s) s

end Sys2Proof.Machine
end

