-- ==== Sys2Proof/Machine/Engines.lean ====
section
/-!
DEFINITION. The engines (chapter 15): footprints and the dependence table (R289 to R293), submission (R283), the data of a job and its
transfers (R297, R298, R301, R303), stream fills (R294 to R296), engine faults (R313), and the instructions SFILL, SCOPY, JOB and XPOSE.
-/

namespace Sys2Proof.Machine

/-! ### The dependence table -/

/-- The entry of a die's table with a key. -/
def jobAt (s : State) (d key : Nat) : Option Job := (s.die d).jobs.find? fun j => j.key == key

/-- Replaces an entry. -/
def setJob (d : Nat) (j : Job) (s : State) : State :=
  s.onDie d fun x => { x with jobs := x.jobs.map fun k => if k.key = j.key then j else k }

/-- Whether an earlier entry that conflicts remains (R291). -/
def blocked (s : State) (d : Nat) (j : Job) : Bool := blockedIn (s.die d).jobs j

/-- Removes an entry: those that it held back start from the next ac (R314). -/
def removeJob (d key : Nat) (s : State) : State :=
  s.onDie d fun x => { x with jobs := delayFreed s.ac x.jobs (x.jobs.filter fun e => e.key != key) }

/-- Replaces an entry by one that may hold fewer entries back: those start from the next ac (R314). -/
def easeJob (d : Nat) (j : Job) (s : State) : State :=
  s.onDie d fun x => { x with jobs := delayFreed s.ac x.jobs (x.jobs.map fun k => if k.key = j.key then j else k) }

/-- Whether the table of a die has room (R290). -/
def tableRoom (s : State) (d : Nat) : Bool := decide ((s.die d).jobs.length < 512)

/-- The ac at which the next entry of a die is made (R314), and its job number (R290). -/
def entryAc (s : State) (d : Nat) : Nat := max s.ac (s.die d).nextEntry
def entryNum (s : State) (d : Nat) : Nat := ((s.die d).counter + 1) % 2 ^ 32

/-- Makes an entry in a die's table (R290). -/
def enterJob (d : Nat) (j : Job) (s : State) : State :=
  let j := { j with key := s.nextJob, die := d, num := w32 (entryNum s d), startable := entryAc s d }
  { s with nextJob := s.nextJob + 1 }.onDie d fun x =>
    { x with jobs := x.jobs ++ [j], counter := entryNum s d, nextEntry := entryAc s d + 1 }

/-- An entry of the focused team before its data. -/
def jobOf (s : State) (kind : JobKind) (reads writes : List Region) : Job :=
  { key := 0, die := 0, num := 0, kind := kind, ctx := s.myCtx, grid := s.myBlock.grid, blk := s.team.blk, uid := teamUid s.team
    core := s.myCore, pc := s.team.pc, reads := reads, writes := writes }

/-! ### Submission (R283) -/

/-- The physical ranges of a range of virtual addresses, page by page; a page that is not mapped is left out. -/
def paRanges (s : State) (ctx : Nat) : Nat → Nat → Nat → List (Nat × Nat)
  | 0, _, _ => []
  | fuel + 1, va, n =>
    if n = 0 then []
    else
      let k := min n (4096 - va % 4096)
      let r := walk s ctx (va % 2 ^ 57)
      let rest := paRanges s ctx fuel (va + k) (n - k)
      if r.ok then (r.frame * 4096 + va % pageSize r.psz, k) :: rest else rest

/-- The physical ranges of the global regions of a list. -/
def regionRanges (s : State) (ctx : Nat) (rs : List Region) : List (Nat × Nat) :=
  (rs.filter fun r => r.space == 0).flatMap fun r => paRanges s ctx (r.len / 4096 + 2) r.base r.len

/-- Writes back the written bytes of a core's cache in a physical range, which grows to whole aligned groups of 8 bytes: a store of 4 or 8 bytes
that it cuts reaches memory as one (R285). -/
def writeBackRange (core : Nat) (s : State) (r : Nat × Nat) : State :=
  ((s.core core).lines).foldl (fun s (idx, l) =>
    let lo := max (r.1 / 8 * 8) (l.tag * 128)
    let hi := min ((r.1 + r.2 + 7) / 8 * 8) (l.tag * 128 + 128)
    if lo < hi then
      let m := l.written &&& lineMask (lo - l.tag * 128) (hi - lo)
      let s := (maskRuns m 128 0 none).foldl (fun s (a, n) => writePa (l.tag * 128 + a) (lineBytes l.data a n) s) s
      s.onCore core fun c => { c with lines := mput c.lines idx { l with written := l.written &&& ~~~ m } }
    else s) s

/-- Invalidates the unwritten bytes that a core's cache holds of the lines of write regions. -/
def dropWrites (core ctx : Nat) (writes : List Region) (s : State) : State :=
  let ws := regionRanges s ctx writes
  invalidateLines core (fun tag => ws.any fun r => decide (r.1 < tag * 128 + 128 ∧ tag * 128 < r.1 + r.2)) s

/-- The cache actions of a submission: written bytes of its read regions go to memory, unwritten bytes of the lines of its write regions
are invalidated. R283 does not say what becomes of the bytes of a write region that the cache holds as written: they go to memory too, before the
job's own writes, which is the model's choice (log entry 68). -/
def submitCache (core ctx : Nat) (reads writes : List Region) (s : State) : State :=
  dropWrites core ctx writes ((regionRanges s ctx (reads ++ writes)).foldl (writeBackRange core) s)

/-! ### Accesses of an engine -/

/-- Sub-causes of ENGFAULT (R313). -/
abbrev efPAGE : Nat := 1
abbrev efPROT : Nat := 2
abbrev efALIGN : Nat := 3
abbrev efOUTSIDE : Nat := 4
abbrev efUNOPENED : Nat := 5
abbrev efECC : Nat := 6
abbrev efREMOTE : Nat := 7
abbrev efVRANGE : Nat := 8
abbrev efDESC : Nat := 9

/-- The sub-cause of a fault of translation. -/
def engSub (cause : Nat) : Nat :=
  if cause = cPAGE then efPAGE else if cause = cREMOTE then efREMOTE else if cause = cECC then efECC else efPROT

/-- Translation of an engine's access through the context's tables (R301): the physical address or a sub-cause. -/
def engXl (s : State) (ctx : Nat) (need : Need) (va : Nat) : Nat ⊕ Nat :=
  match paCheck s need va (walkOutcome need va (walk s ctx va)) with
  | .ok pa _ => .inl pa
  | .fault f => .inr (engSub f.cause)
  | .wait _ => .inr efPAGE

/-- Whether `n` bytes of a space lie in the regions (R293). -/
def insideAll (rs : List Region) (space a n : Nat) : Bool :=
  (List.range n).all fun i => rs.any fun r => r.space == space && decide (r.base ≤ a + i ∧ a + i < r.base + r.len)

/-- Whether the access of an engine for a core at an address of a place waits: its tables or its data lie in a package that is not reached now
(R1). -/
def engCut (s : State) (core ctx : Nat) (pl : Place) (a : Nat) : Bool :=
  !pl.vault && (!walkReaches s core ctx a || match engXl s ctx .load a with
    | .inl pa => !paReaches s core pa
    | .inr _ => false)

/-- What an engine's access for a core has carried over the ports (R387). -/
def engCarried (core ctx : Nat) (pl : Place) (a : Nat) (s : State) : State :=
  if pl.vault then s
  else
    let s := (walkPas s a 6 (s.ctx ctx).root).foldl (fun s pa => paCarried core pa s) s
    match engXl s ctx .load a with
    | .inl pa => paCarried core pa s
    | .inr _ => s

/-- The bytes that an engine reads at a VA of a context: those of a running grid's ring slice are undefined (R214, log entry 1). -/
def sliceBytes (s : State) (ctx a n : Nat) (bs : List Byte) : List Byte :=
  if inSlice s ctx a n then (List.range n).map fun i => (Config.freeWord (s.fresh + i)).extractLsb' 0 8 else bs
def sliceDrawn (ctx a n : Nat) (s : State) : State := { s with fresh := s.fresh + if inSlice s ctx a n then n else 0 }

/-- A read of an engine at an address of a place, within regions: its bytes, or a sub-cause. -/
def engRead (s : State) (ctx : Nat) (regions : List Region) (pl : Place) (a n : Nat) : List Byte ⊕ Nat :=
  if pl.vault then
    if !insideAll regions (pl.core + 1) (pl.off + a) n then .inr efOUTSIDE
    else if pl.len < a + n then .inr efVRANGE
    else if badAt s (vaultKey pl.core (pl.off + a)) n then .inr efECC
    else .inl (s.load (vaultKey pl.core (pl.off + a)) n)
  else if !insideAll regions 0 a n then .inr efOUTSIDE
  else match engXl s ctx .load a with
    | .inr e => .inr e
    | .inl pa =>
      match paKey s pa with
      | some k => if badAt s k n then .inr efECC else .inl (sliceBytes s ctx a n (s.load k n))
      | none => .inr efPROT

/-- What a write of an engine comes to. -/
inductive EngWrite where
  | ok (s : State)
  | fault (sub : Nat)
  /-- Unsolicited (R298). -/
  | refused (s : State)

/-- Whether a write of a job to a line of a vault is solicited, or goes to the submitting block's own region (R298). -/
def solicited (s : State) (j : Job) (core off : Nat) : Bool :=
  let b := s.block j.blk
  (b.core == core && decide (b.voff ≤ off ∧ off < b.voff + b.vbytes)) || (s.core core).absent.contains (off / 128) ||
    j.lines.contains (core * 8192 + off / 128)

/-- Whether a write finds a line of another package's vault open: only that package knows, so the answer is free (log entry 57). -/
def farOpen (s : State) (core : Nat) : Bool := decide (4096 ≤ core) && Config.freeBool s.fresh

/-- A write of a job into a vault line; `last` says that no further byte of the job goes to it. -/
def vaultPut (d : Nat) (j : Job) (core off : Nat) (bs : List Byte) (last : Bool) (s : State) : EngWrite :=
  let open_ := solicited s j core off || farOpen s core
  let s := if 4096 ≤ core then { s with fresh := s.fresh + 1 } else s
  if !open_ then .refused s
  else
    let s := s.store (vaultKey core off) bs
    let s := if last then vaultArrive core off bs.length s else s
    let line := core * 8192 + off / 128
    .ok (setJob d { j with lines := if j.lines.contains line then j.lines else j.lines ++ [line] } s)

/-- A write of a job to memory. The job lies on its submitter's core (R273): what that core's cache holds of the bytes is older, and goes (R276,
R277). -/
def engStore (core pa : Nat) (bs : List Byte) (s : State) : State :=
  let m := lineMask (pa % 128) bs.length
  (writePa pa bs s).onCore core fun c => { c with lines := mmap (fun l =>
    if l.tag = pa / 128 then { l with valid := l.valid &&& ~~~ m, written := l.written &&& ~~~ m, bad := l.bad &&& ~~~ m } else l) c.lines }

/-- A write of an engine at an address of a place, within regions when `fp` says so. -/
def engWrite (d : Nat) (j : Job) (fp : Bool) (pl : Place) (a : Nat) (bs : List Byte) (last : Bool) (s : State) : EngWrite :=
  if pl.vault then
    if fp ∧ !insideAll j.writes (pl.core + 1) (pl.off + a) bs.length then .fault efOUTSIDE
    else if pl.len < a + bs.length then .fault efVRANGE
    else vaultPut d j pl.core (pl.off + a) bs last s
  else if fp ∧ !insideAll j.writes 0 a bs.length then .fault efOUTSIDE
  else match engXl s j.ctx .store a with
    | .inr e => .fault e
    | .inl pa =>
      match paKind s.split pa with
      | .vault core off => vaultPut d j core off bs last s
      | _ => .ok (engStore j.core pa bs s)

/-! ### The requantising transpose (R303) -/

/-- Elements of a scale by SBK. -/
def scaleBlock (sbk : Nat) : Nat := if sbk = 2 then 32 else 16

/-- Bytes of a row of `n` elements of an MA code. -/
def rowBytesOf (fmt n : Nat) : Nat := n * maBits fmt / 8

/-- Whether a side is scaled. -/
def scaledSide (fmt sbk : Nat) : Bool := maNarrow fmt && sbk != 0

/-- The shape rules of R303. -/
def shapeOk (ifmt ofmt sbk r c : Nat) : Bool :=
  decide (ifmt ≤ 5 ∧ ofmt ≤ 5 ∧ sbk ≤ 2 ∧ 1 ≤ r ∧ r ≤ 64 ∧ 1 ≤ c ∧ c ≤ 64) &&
    !(scaledSide ifmt sbk && c % scaleBlock sbk != 0) && !(scaledSide ofmt sbk && r % scaleBlock sbk != 0) &&
    !(ifmt == 4 && c % 4 != 0) && !(ofmt == 4 && r % 4 != 0)

/-- Scale bytes of a row of `n` elements. -/
def scaleBytes (fmt sbk n : Nat) : Nat := if scaledSide fmt sbk then n / scaleBlock sbk else 0

/-- Element `i` of an array of an MA code (R30). -/
def elemAt (fmt : Nat) (bs : List Byte) (i : Nat) : Nat := leNat bs / 2 ^ (maBits fmt * i) % 2 ^ maBits fmt

/-- An array of codes of an MA code as bytes (R30). -/
def packElems (fmt : Nat) (cs : List Nat) : List Byte :=
  leBytes (rowBytesOf fmt cs.length) ((cs.zipIdx.map fun (c, i) => c * 2 ^ (maBits fmt * i)).foldl (· + ·) 0)

/-- A value under its block scale; scale 0xFF gives a NaN. -/
def scaleValue (x : Num) (e : Nat) : Num := if e = 0xFF then .nan else x.scale ((e : Int) - 127)

/-- The elements of one destination row and its scale bytes. -/
def reqtRow (ofmt sbk sat : Nat) (vs : List Num) : List Byte × List Byte :=
  if scaledSide ofmt sbk then
    let sb := scaleBlock sbk
    let blocks := (List.range (vs.length / sb)).map fun p => (vs.drop (p * sb)).take sb
    let out := blocks.map fun b =>
      let e := blockScale ofmt b
      let e := if b.any fun v => match v with | .fin _ _ _ => false | _ => true then 0xFF else min 0xFE e
      (e, b.map fun v => if e = 0xFF then narrowNan ofmt else encodeMa ofmt 0 sat (v.scale (127 - (e : Int))))
    (packElems ofmt (out.flatMap (·.2)), out.map fun p => BitVec.ofNat 8 p.1)
  else (packElems ofmt (vs.map (encodeMa ofmt 0 sat)), [])

/-- The output of a tile: every destination row, each followed by its scales. -/
def reqtOut (ifmt ofmt sbk sat r c : Nat) (tile : List Byte) : List Byte :=
  let rb := rowBytesOf ifmt c
  let sbn := scaleBytes ifmt sbk c
  let row := fun (i : Nat) => (tile.drop (i * rb)).take rb
  let scales := tile.drop (r * rb)
  let val := fun (i j : Nat) =>
    let x := decodeMa ifmt (elemAt ifmt (row i) j)
    if sbn = 0 then x else scaleValue x (fieldAt scales (i * sbn + j / scaleBlock sbk) 1)
  (List.range c).flatMap fun j =>
    let (es, ss) := reqtRow ofmt sbk sat ((List.range r).map fun i => val i j)
    es ++ ss

/-! ### Rows of a job -/

/-- An address with a row's distance, in a place. -/
def stepAddr (pl : Place) (a : Nat) (k : Int) : Nat := (((a : Int) + k) % (2 ^ (if pl.vault then 64 else 57) : Int)).toNat

/-- The groups that a job reads whole before it writes: its rows, or the one tile of REQT. -/
def Job.groups (j : Job) : Nat :=
  match j.kind with
  | .reqt => 1
  | _ => j.nrows

/-- Whether the rows of a job are picked by an index on the source side, and on the destination side (R301). -/
def Job.gathers (j : Job) : Bool := j.kind == .copy 2
def Job.scatters (j : Job) : Bool := j.kind == .copy 3

/-- The spans that a group reads: addresses in the source place and lengths. -/
def Job.readSpans (j : Job) (r idx : Nat) : List (Nat × Nat) :=
  match j.kind with
  | .reqt =>
    let sb := scaleBytes j.ifmt j.sbk j.rowbytes
    (List.range j.nrows).map (fun (i : Nat) => (stepAddr j.srcPl j.src ((i : Int) * j.sstride), rowBytesOf j.ifmt j.rowbytes)) ++
      if sb = 0 then [] else (List.range j.nrows).map fun (i : Nat) => (stepAddr j.srcPl j.sscl (i * sb), sb)
  | _ => [(stepAddr j.srcPl j.src ((if j.gathers then idx else r) * j.sstride), j.rowbytes)]

/-- The spans that a group writes. -/
def Job.writeSpans (j : Job) (r idx : Nat) : List (Nat × Nat) :=
  match j.kind with
  | .reqt =>
    let sb := scaleBytes j.ofmt j.sbk j.nrows
    (List.range j.rowbytes).flatMap fun (c : Nat) =>
      (stepAddr j.dstPl j.dst (c * j.dstride), rowBytesOf j.ofmt j.nrows) ::
        if sb = 0 then [] else [(stepAddr j.dstPl j.dscl (c * sb), sb)]
  | _ => [(stepAddr j.dstPl j.dst ((if j.scatters then idx else r) * j.dstride), j.rowbytes)]

/-- Bytes of a list of spans. -/
def spanBytes (l : List (Nat × Nat)) : Nat := (l.map (·.2)).foldl (· + ·) 0

/-- The transfer at a position of a list of spans: the part that one line and one span cover (R301). -/
def pieceAt : List (Nat × Nat) → Nat → Option (Nat × Nat)
  | [], _ => none
  | (a, n) :: rest, p => if p < n then some (a + p, min (n - p) (128 - (a + p) % 128)) else pieceAt rest (p - n)

/-- What is left of a list of spans after a position. -/
def spansFrom : List (Nat × Nat) → Nat → List (Nat × Nat)
  | [], _ => []
  | (a, n) :: rest, p => if p < n then (a + p, n - p) :: rest else spansFrom rest (p - n)

/-- The index of a row as memory now holds it (R301). -/
def peekIdx (s : State) (j : Job) (r : Nat) : Option Nat :=
  match engXl s j.ctx .load ((j.idx + 4 * r) % 2 ^ 57) with
  | .inl pa => some (leNat (readPa s pa 4))
  | .inr _ => none

/-- The spans that the job has still to write after position `p` of its group. -/
def restSpans (s : State) (j : Job) (p : Nat) : List (Nat × Nat) :=
  spansFrom (j.writeSpans j.row (j.rowIdx.getD 0)) p ++
    (List.range (j.groups - (j.row + 1))).flatMap fun i =>
      let r := j.row + 1 + i
      if j.scatters then (match peekIdx s j r with | some k => j.writeSpans r k | none => []) else j.writeSpans r 0

/-- Whether no span touches the line of an address. -/
def lineDone (spans : List (Nat × Nat)) (a : Nat) : Bool :=
  !(spans.any fun p => decide (p.1 < a / 128 * 128 + 128 ∧ a / 128 * 128 < p.1 + p.2))

/-! ### Transfers -/

/-- A fault of a job at a transfer boundary (R313). -/
def faultJob (d : Nat) (j : Job) (sub addr : Nat) (s : State) : State :=
  setJob d { j with fault := some (sub, BitVec.ofNat 64 addr), retryAt := 0, retries := 0 } s

/-- A refused write: the first retry comes after 256 ac; a refusal after the 16th is a fault (R298). -/
def refuseJob (d : Nat) (j : Job) (addr : Nat) (s : State) : State :=
  if 16 ≤ j.retries then faultJob d j efUNOPENED addr s else setJob d { j with retryAt := s.ac + 256 } s

/-- Whether the tile copy engine of a cluster is free for a transfer in this ac (R314). -/
def tileFree (s : State) (j : Job) : Bool := decide ((s.cluster (clusterOfCore j.core)).moveBusy < (s.ac + 1) * 128)

/-- Charges a transfer to it. -/
def chargeTile (j : Job) (n : Nat) (s : State) : State :=
  s.onCluster (clusterOfCore j.core) fun c => { c with moveBusy := max c.moveBusy (s.ac * 128) + n }

/-- The bytes of a transfer that count for the rate (R314): what is written, and for REQT what is read and 4 ac for each destination row. -/
def tileCost (j : Job) (write : Bool) (a n : Nat) : Nat :=
  match j.kind, write with
  | .reqt, true => if (List.range j.rowbytes).any fun (c : Nat) => stepAddr j.dstPl j.dst (c * j.dstride) == a then 512 else 0
  | .reqt, false => n
  | _, true => n
  | _, false => 0

/-- A read of a job: its fault, or what follows with the bytes; it waits while its data is not reached. -/
def jobRead (d : Nat) (j : Job) (pl : Place) (a n : Nat) (s : State) (k : List Byte → State → State) : State :=
  if engCut s j.core j.ctx pl a then s
  else match engRead s j.ctx j.reads pl a n with
    | .inr e => faultJob d j e a s
    | .inl bs => k bs (engCarried j.core j.ctx pl a (if pl.vault then s else sliceDrawn j.ctx a n s))

/-- One transfer of a started job: the index of its row, a part of what its group reads, or of what it writes (R301). -/
def transfer (d : Nat) (j : Job) (s : State) : State :=
  if j.groups ≤ j.row then s
  else if (j.gathers || j.scatters) ∧ j.rowIdx.isNone then
    let a := (j.idx + 4 * j.row) % 2 ^ 57
    if a % 4 ≠ 0 then faultJob d j efALIGN a s
    else jobRead d j {} a 4 s fun bs s => setJob d { j with rowIdx := some (leNat bs) } s
  else
    let idx := j.rowIdx.getD 0
    match pieceAt (j.readSpans j.row idx) j.buf.length with
    | some (a, n) => jobRead d j j.srcPl a n s fun bs s => setJob d { j with buf := j.buf ++ bs } (chargeTile j (tileCost j false a n) s)
    | none =>
      let out := match j.kind with
        | .reqt => reqtOut j.ifmt j.ofmt j.sbk j.sat j.nrows j.rowbytes j.buf
        | _ => j.buf
      let spans := j.writeSpans j.row idx
      match pieceAt spans j.pos with
      | none => s
      | some (a, n) =>
        if engCut s j.core j.ctx j.dstPl a then s
        else match engWrite d j true j.dstPl a ((out.drop j.pos).take n) (lineDone (restSpans s j (j.pos + n)) a) s with
        | .fault e => faultJob d j e a s
        | .refused s => refuseJob d j a s
        | .ok s =>
          let j := (jobAt s d j.key).getD j
          let s := engCarried j.core j.ctx j.dstPl a s
          let s := chargeTile j (tileCost j true a n) s
          let j := { j with retryAt := 0, retries := 0 }
          if j.pos + n < spanBytes spans then setJob d { j with pos := j.pos + n } s
          else setJob d { j with row := j.row + 1, pos := 0, buf := [], rowIdx := none } s

/-- Whether every line that a job completed has its presence bit: its transfers are acknowledged (R283, R301). -/
def linesSet (s : State) (j : Job) : Bool :=
  j.lines.all fun l => !((s.core (l / 8192)).arrived.contains (l % 8192))

/-- The completion word and the end of a copying job (R283, R297, R301); the word of a job whose block is saved finds no region of its own and is
refused as R298 says. -/
def completeJob (d : Nat) (j : Job) (s : State) : State :=
  if !j.cw then removeJob d j.key s
  else if j.cwVault then
    let b := s.block j.blk
    if (mget? s.blocks j.blk).isNone then refuseJob d j j.cword s
    else removeJob d j.key (presenceSet b.core ((b.voff + j.cword) / 128) (s.store (vaultKey b.core (b.voff + j.cword)) (leBytes 4 j.cval.toNat)))
  else if engCut s j.core j.ctx {} j.cword then s
  else match engWrite d j false {} j.cword (leBytes 4 j.cval.toNat) true s with
    | .fault e => faultJob d j e j.cword s
    | .refused s => refuseJob d j j.cword s
    | .ok s => removeJob d j.key (engCarried j.core j.ctx {} j.cword s)

/-- Whether an entry is a job of the tile copy engine. -/
def Job.isTile (j : Job) : Bool :=
  match j.kind with
  | .copy _ | .reqt | .scopy => true
  | _ => false

/-- Started jobs of the tile copy engine of a core's cluster, and those that wait (R314). -/
def tileStarted (s : State) (core : Nat) : Nat :=
  ((s.die (dieOfCore core)).jobs.filter fun j => j.isTile && j.started && clusterOfCore j.core == clusterOfCore core).length
def tileQueued (s : State) (core : Nat) : Nat :=
  ((s.die (dieOfCore core)).jobs.filter fun j => j.isTile && !j.started && clusterOfCore j.core == clusterOfCore core).length

/-- A job of the tile copy engine starts (R291, R314). -/
def startJob (d key : Nat) (s : State) : State :=
  match jobAt s d key with
  | none => s
  | some j =>
    if !j.isTile ∨ j.started ∨ s.ac < j.startable ∨ blocked s d j ∨ 8 ≤ tileStarted s j.core then s
    else setJob d { j with started := true } s

/-- Whether a started job may go on. -/
def Job.runs (j : Job) : Bool := j.isTile && j.started && j.fault.isNone

/-- The next transfer of a job. -/
def stepJob (d key : Nat) (s : State) : State :=
  match jobAt s d key with
  | none => s
  | some j => if j.runs ∧ j.retryAt = 0 ∧ tileFree s j then transfer d j s else s

/-- The retry of a refused write (R298). -/
def retryJob (d key : Nat) (s : State) : State :=
  match jobAt s d key with
  | none => s
  | some j =>
    if !j.runs ∨ j.retryAt = 0 ∨ s.ac < j.retryAt then s
    else
      let j := { j with retries := j.retries + 1, retryAt := 0 }
      if j.groups ≤ j.row then completeJob d j (setJob d j s) else transfer d j (setJob d j s)

/-- A job whose transfers are all made completes. -/
def finishJob (d key : Nat) (s : State) : State :=
  match jobAt s d key with
  | none => s
  | some j => if j.runs ∧ j.retryAt = 0 ∧ j.groups ≤ j.row ∧ linesSet s j then completeJob d j s else s

/-! ### Engine faults (R313) -/

/-- The order in which the events of a team are taken (R353); the loss of a package that an earlier instruction's access met comes first. -/
def eventKey : TeamEvent → List Nat
  | .remote _ => []
  | .stop => [0]
  | .engfault ac _ num _ _ => [1, ac, 0, num.toNat]
  | .collfault ac handle _ _ => [1, ac, 1, handle.toNat]

/-- Lexicographic order of the keys. -/
def keyLe : List Nat → List Nat → Bool
  | [], _ => true
  | _ :: _, [] => false
  | a :: as, b :: bs => decide (a < b) || (a == b && keyLe as bs)

/-- A waiting list of events with one more. -/
def insertEvent (e : TeamEvent) (es : List TeamEvent) : List TeamEvent := insertBy (fun a b => keyLe (eventKey a) (eventKey b)) e es

/-- An engine event reaches the focused team: it ends an ABSENT or WAITADDR park (R353). -/
def addEvent (e : TeamEvent) (s : State) : State :=
  let s := s.onTeam fun t => { t with events := insertEvent e t.events }
  match s.team.park with
  | .absent c l => s.onTeam fun t => { t with park := .run, stall := t.park.code, readyAt := s.ac + 1, woke := some (c, l) }
  | .watch =>
    let tid := s.team.tid
    unpark { s with
      clusters := mmap (fun c => { c with watches := c.watches.filter fun w => w.tid != tid }) s.clusters
      cores := mmap (fun c => { c with vwatch := c.vwatch.filter fun w => w.tid != tid }) s.cores }
  | _ => s

/-- An event reaches a team that is saved with its block at a wide barrier (R269). -/
def savedEvent (u : Nat) (e : TeamEvent) (b : SavedBlock) : SavedBlock :=
  { b with teams := b.teams.map fun t => if teamUid t = u then { t with events := insertEvent e t.events } else t }

/-- The saved blocks of a grid. -/
def savedOf (s : State) (g : Nat) : List SavedBlock := (s.grid g).saved ++ (s.grid g).restore

/-- Whether the team of a uid is saved with its block. -/
def uidSaved (s : State) (g u : Nat) : Bool := (savedOf s g).any fun b => b.teams.any fun t => teamUid t == u

/-- An event reaches a saved team. -/
def addSaved (g u : Nat) (e : TeamEvent) (s : State) : State :=
  s.onGrid g fun x => { x with saved := x.saved.map (savedEvent u e), restore := x.restore.map (savedEvent u e) }

/-- The team that takes a fault of a block's engine work, by uid: the submitter, or the live team of lowest role; resident or saved. -/
def faultTeam (s : State) (g uid : Nat) : Option Nat :=
  let ts := (s.allTeams ++ (savedOf s g).flatMap (·.teams)).filter fun t => t.blk == uid / 4
  if ts.any fun t => teamUid t == uid then some uid
  else (sortBy (fun a b => a.role ≤ b.role) ts).head?.map teamUid

/-- An event reaches the team of a uid. -/
def eventTo (g u : Nat) (e : TeamEvent) (s : State) : State :=
  if uidSaved s g u then addSaved g u e s
  else match s.allTeams.find? fun t => teamUid t == u with
    | some t => s.withTeam t.tid (addEvent e)
    | none => s

/-- ENGFAULT of an entry: raised in a team, or an abort of the block when no team of it is left. -/
def raiseJobFault (d key : Nat) (s : State) : State :=
  match jobAt s d key with
  | none => s
  | some j =>
    match j.fault, j.held with
    | some (sub, addr), false =>
      let s := setJob d { j with held := true } s
      match faultTeam s j.grid j.uid with
      | some u => eventTo j.grid u (.engfault s.ac d j.num sub addr) s
      | none => abortBlock j.blk 16 cENGFAULT s
    | _, _ => s

/-! ### Stream fills -/

/-- The stream descriptor (R294). -/
structure StreamDesc where
  cursor : Nat
  base : Nat
  rstride : Int
  stepinc : Int
  rows : Nat
  rowbytes : Nat
  wrap : Nat
  wcount : Nat
  fmt : Nat
  flags : Nat
deriving DecidableEq, Repr

/-- A descriptor from its 64 bytes. -/
def streamDesc (b : List Byte) : StreamDesc :=
  { cursor := fieldAt b 0 8, base := fieldAt b 8 8, rstride := sextInt 32 (fieldAt b 16 4), stepinc := sextInt 32 (fieldAt b 20 4)
    rows := fieldAt b 24 2, rowbytes := fieldAt b 26 2, wrap := fieldAt b 28 2, wcount := fieldAt b 30 2
    fmt := fieldAt b 32 1, flags := fieldAt b 33 1 }

/-- The rules of R294 for a stream. -/
def streamOk (stream : Nat) (x : StreamDesc) : Bool :=
  let withMeta := bitAt x.flags 1
  decide (1 ≤ x.rows ∧ x.rows ≤ 64 ∧ 1 ≤ x.rowbytes ∧ x.rowbytes ≤ 512) &&
    if stream < 2 then
      decide (x.fmt ≤ 5) && x.rowbytes == rowBytesOf x.fmt 32 + (if withMeta then 16 else 0) && (stream == 0 || !withMeta)
    else x.fmt == 0x0F && decide (x.rowbytes ≤ 8) && !withMeta

/-- CURSOR and WCOUNT after one step (R296). -/
def stepCursor (base : Nat) (stepinc : Int) (wrap : Nat) (cw : Nat × Nat) : Nat × Nat :=
  let w := (cw.2 + 1) % 2 ^ 16
  if wrap ≠ 0 ∧ w = wrap then (base, 0) else ((((cw.1 : Int) + stepinc) % (2 ^ 64 : Int)).toNat, w)

/-- CURSOR and WCOUNT after `n` steps. -/
def runCursor (base : Nat) (stepinc : Int) (wrap : Nat) : Nat → Nat × Nat → Nat × Nat
  | 0, cw => cw
  | n + 1, cw => runCursor base stepinc wrap n (stepCursor base stepinc wrap cw)

/-- The addresses of the rows of one step, in its place (R296). -/
def stepRows (pl : Place) (x : StreamDesc) (cur : Nat) : List Nat := (List.range x.rows).map fun (r : Nat) => stepAddr pl cur (r * x.rstride)

/-- The least and the greatest of the numbers of a list, taken together with a range found before. -/
def spanOf (acc : Option (Nat × Nat)) (l : List Nat) : Option (Nat × Nat) :=
  l.foldl (fun acc a => match acc with
    | none => some (a, a)
    | some (lo, hi) => some (min lo a, max hi a)) acc

/-- The lowest and the highest row address of `n` steps. -/
def runSpan (pl : Place) (x : StreamDesc) : Nat → Nat × Nat → Option (Nat × Nat) → Option (Nat × Nat)
  | 0, _, acc => acc
  | n + 1, cw, acc => runSpan pl x n (stepCursor x.base x.stepinc x.wrap cw) (spanOf acc (stepRows pl x cw.1))

/-- The start of a fill under RST. -/
def fillStart (x : StreamDesc) (rst : Bool) (cw : Nat × Nat) : Nat × Nat := if rst then (x.base, 0) else cw

/-- CURSOR and WCOUNT that the fills queued on a stream with a descriptor will leave (R295). -/
def projected (x : StreamDesc) (desc : Nat) (fs : List Fill) : Nat × Nat :=
  fs.foldl (fun cw f =>
    if f.desc ≠ desc then cw
    else if f.started then runCursor f.base f.stepinc f.wrap (f.n - f.step) (f.cursor, f.wcount)
    else runCursor x.base x.stepinc x.wrap f.n (fillStart x f.rst cw)) (x.cursor, x.wcount)

/-- The read region of a fill (R295): from the lowest to the highest byte that its steps read. -/
def fillRegion (b : Block) (x : StreamDesc) (n : Nat) (cw : Nat × Nat) : Region :=
  let pl : Place := { vault := bitAt x.flags 0 }
  match runSpan pl x n cw none with
  | none => { space := 0, base := 0, len := 0 }
  | some (lo, hi) => { space := if pl.vault then b.core + 1 else 0, base := (if pl.vault then b.voff else 0) + lo, len := hi + x.rowbytes - lo }

/-- The fills of a stream of a core. -/
def fillsOf (s : State) (core st : Nat) : List Fill := vget [] (s.core core).fills st
def setFills (core st : Nat) (fs : List Fill) (s : State) : State := s.onCore core fun c => { c with fills := vset c.fills st fs }

/-- The entry of a fill. -/
def fillJob (s : State) (core : Nat) (f : Fill) : Option Job := jobAt s (dieOfCore core) f.job

/-- The fill at the head of a stream starts: it reads its descriptor (R296). -/
def startFill (core st : Nat) (s : State) : State :=
  match fillsOf s core st with
  | [] => s
  | f :: rest =>
    match fillJob s core f with
    | none => s
    | some j =>
      if f.started ∨ j.fault.isSome ∨ s.ac < j.startable ∨ blocked s (dieOfCore core) j then s
      else
        let b := s.block j.blk
        let k := vaultKey core (b.voff + f.desc)
        if badAt s k 64 then faultJob (dieOfCore core) j efECC f.desc s
        else
          let x := streamDesc (s.load k 64)
          if !streamOk st x then faultJob (dieOfCore core) j efDESC f.desc s
          else
            let (cur, wc) := fillStart x f.rst (x.cursor, x.wcount)
            setJob (dieOfCore core) { j with started := true }
              (setFills core st ({ f with
                started := true, cursor := cur, base := x.base, rstride := x.rstride, stepinc := x.stepinc, rows := x.rows
                rowbytes := x.rowbytes, wrap := x.wrap, wcount := wc, flags := x.flags } :: rest) s)

/-- The fill at the head of a stream appends its next row once the FIFO has room (R296). -/
def appendRow (core st : Nat) (s : State) : State :=
  match fillsOf s core st with
  | [] => s
  | f :: rest =>
    match fillJob s core f with
    | none => s
    | some j =>
      let q := vget [] (s.core core).fifo st
      if !f.started ∨ j.fault.isSome ∨ f.n ≤ f.step ∨ 8192 < q.length + f.rowbytes ∨ (s.ac + 1) * 256 ≤ (s.core core).fillBusy then s
      else
        let b := s.block j.blk
        let pl : Place := { vault := bitAt f.flags 0, core := core, off := b.voff, len := b.vbytes }
        let a := stepAddr pl f.cursor (f.row * f.rstride)
        let spans := [(a, f.rowbytes)]
        let rec go : Nat → Nat → List Byte → List Byte ⊕ (Nat × Nat)
          | 0, _, acc => .inl acc
          | fuel + 1, p, acc =>
            match pieceAt spans p with
            | none => .inl acc
            | some (x, n) =>
              match engRead { s with fresh := s.fresh + p } j.ctx j.reads pl x n with
              | .inr e => .inr (e, x)
              | .inl bs => go fuel (p + n) (acc ++ bs)
        if engCut s core j.ctx pl a ∨ engCut s core j.ctx pl (a + f.rowbytes - 1) then s
        else match go 6 0 [] with
        | .inr (e, x) => faultJob (dieOfCore core) j e x s
        | .inl bs =>
          let s := engCarried core j.ctx pl a (if pl.vault then s else sliceDrawn j.ctx a f.rowbytes s)
          let s := s.onCore core fun c => { c with
            fifo := vset c.fifo st (q ++ bs)
            fillBusy := max c.fillBusy (s.ac * 256) + f.rowbytes }
          let f := if f.row + 1 < f.rows then { f with row := f.row + 1 }
            else
              let (cur, wc) := stepCursor f.base f.stepinc f.wrap (f.cursor, f.wcount)
              { f with row := 0, step := f.step + 1, cursor := cur, wcount := wc }
          setFills core st (f :: rest) s

/-- A fill whose last step is in the FIFO completes: CURSOR and WCOUNT go back to the descriptor (R296). -/
def completeFill (core st : Nat) (s : State) : State :=
  match fillsOf s core st with
  | [] => s
  | f :: rest =>
    match fillJob s core f with
    | none => s
    | some j =>
      if !f.started ∨ j.fault.isSome ∨ f.step < f.n then s
      else
        let k := vaultKey core ((s.block j.blk).voff + f.desc)
        let s := (s.store k (leBytes 8 f.cursor)).store (k + 30) (leBytes 2 f.wcount)
        removeJob (dieOfCore core) f.job (setFills core st rest s)

/-! ### SFILL, SCOPY, XPOSE -/

/-- A fault that an operand of an engine instruction gives the whole team: no access is made, so KIND is 0 (R346). -/
def opndFault (cause : Nat) (v : Nat) : LaneFault := { cause := cause, faddr := BitVec.ofNat 64 v }

/-- SFILL (R295). -/
def doSfill (h : Hd) (a b : RegF) (l : Word) (s : State) : State :=
  let nstep := bitsOf l.toNat 15 0
  let st := bitsOf l.toNat 18 17
  withOps 8 false ([src a] ++ if nstep = 0 then [src b] else []) s fun s =>
    let blk := s.myBlock
    let n := if nstep = 0 then (rdu s b).toNat else nstep
    let off := (rdu s a).toNat
    if isVec a ∨ (nstep = 0 ∧ isVec b) ∨ !blk.matuse ∨ n = 0 ∨ 65535 < n then trapI cILLOPND 8 (begin 1 s)
    else if off % 64 ≠ 0 then trapAll (opndFault cALIGN off) 8 (begin 1 s)
    else if blk.vbytes < off + 64 then trapAll (opndFault cVRANGE off) 8 (begin 1 s)
    else if orderWaits s true then stallOn 0x02 s
    else
      let c := s.myCore
      let fs := fillsOf s c st
      if 4 ≤ fs.length ∨ !tableRoom s (dieOfCore c) then stallOn 0x0F s
      else
        let x := streamDesc (s.load (vaultKey c (blk.voff + off)) 64)
        let rst := bitAt l.toNat 16
        let region := fillRegion blk x n (fillStart x rst (projected x off fs))
        let s := (begin 1 s).onTeam (applyHints h a 1 b (if nstep = 0 then 1 else 0) [])
        let s := submitCache c s.myCtx [region] [] s
        let f : Fill := { job := s.nextJob, desc := off, rst := rst, n := n }
        finish h 8 (setFills c st (fs ++ [f]) (enterJob (dieOfCore c) (jobOf s (.fill st) [region] []) s))

/-- A job of the tile copy engine is submitted (R283, R290): it waits for an engine or table entry. -/
def submitTile (s : State) (k : State → State) : State :=
  if orderWaits s true then stallOn 0x02 s
  else if !tableRoom s (dieOfCore s.myCore) ∨ 32 ≤ tileQueued s s.myCore then stallOn 0x12 s
  else k s

/-- The vault region of a block as a place, and as a range of a footprint. -/
def blockPlace (b : Block) : Place := { vault := true, core := b.core, off := b.voff, len := b.vbytes }
def placeRegion (pl : Place) (a n : Nat) : Region :=
  if pl.vault then { space := pl.core + 1, base := pl.off + a, len := n } else { space := 0, base := a, len := n }

/-- SCOPY (R297). -/
def doScopy (h : Hd) (d a b : RegF) (l : Word) (s : State) : State :=
  let dir := bitsOf l.toNat 31 30
  let cw := bitAt l.toNat 22
  let n := bitsOf l.toNat 19 0
  withOps 8 false ([if dir < 2 then srcPair a else src a] ++ (if cw then [src b] else []) ++ [src d]) s fun s =>
    let blk := s.myBlock
    let mem := bitsOf l.toNat 26 23
    if isVec d ∨ isVec a ∨ (cw ∧ isVec b) ∨ (dir < 2 ∧ !isScalar a) ∨ 6 ≤ bitsOf l.toNat 29 27 then trapI cILLOPND 8 (begin 1 s)
    else if 2 ≤ dir ∧ blk.bondSize ≤ mem then trapI cMEMBER 8 (begin 1 s)
    else if n < 128 ∨ 983040 < n ∨ n % 128 ≠ 0 then trapI cILLOPND 8 (begin 1 s)
    else
      let m := (bondBlock s mem).getD {}
      let own := (rdu s d).toNat
      let other := if dir < 2 then (rdPair s a (lowestLane s.team.active)).toNat % 2 ^ 57 else (rdu s a).toNat
      let cwo := if cw then (rdu s b).toNat else 0
      match [(own, 128), (other, 128), (cwo, 4)].find? fun p => p.1 % p.2 != 0 with
      | some p => trapAll (opndFault cALIGN p.1) 8 (begin 1 s)
      | none =>
        let ranges := [(own, n, blk.vbytes)] ++ (if 2 ≤ dir then [(other, n, m.vbytes)] else []) ++ if cw then [(cwo, 4, blk.vbytes)] else []
        match ranges.find? fun p => decide (p.2.2 < p.1 + p.2.1) with
        | some p => trapAll (opndFault cVRANGE p.1) 8 (begin 1 s)
        | none =>
          submitTile s fun s =>
            let ownPl := blockPlace blk
            let othPl : Place := if 2 ≤ dir then blockPlace m else {}
            let toOwn := dir = 0 ∨ dir = 3
            let (sp, sa, dp, da) := if toOwn then (othPl, other, ownPl, own) else (ownPl, own, othPl, other)
            let reads := [placeRegion sp sa n]
            let writes := [placeRegion dp da n]
            let s := (begin 1 s).onTeam (applyHints h a (if dir < 2 then 2 else 1) b (if cw then 1 else 0) [])
            let s := submitCache s.myCore s.myCtx reads writes s
            let j := { jobOf s .scopy reads writes with
              src := sa, dst := da, srcPl := sp, dstPl := dp, rowbytes := 128, nrows := n / 128, sstride := 128, dstride := 128
              cscope := bitsOf l.toNat 29 27, cw := cw, cwVault := true, cword := cwo, cval := 1 }
            finish h 8 (enterJob (dieOfCore s.myCore) j s)

/-- XPOSE (R304). -/
def doXpose (h : Hd) (d a b : RegF) (l : Word) (s : State) : State :=
  withOps 8 false [src a, src b, src d] s fun s =>
    let blk := s.myBlock
    let ifmt := bitsOf l.toNat 3 0
    let ofmt := bitsOf l.toNat 7 4
    let sbk := bitsOf l.toNat 9 8
    let shape := (rdu s b).toNat
    let r := bitsOf shape 6 0
    let c := bitsOf shape 14 8
    if isVec a ∨ isVec b ∨ isVec d ∨ !shapeOk ifmt ofmt sbk r c then trapI cILLOPND 8 (begin 1 s)
    else
      let sa := (rdu s a).toNat
      let da := (rdu s d).toNat
      match [sa, da].find? fun v => v % 4 != 0 with
      | some v => trapAll (opndFault cALIGN v) 8 (begin 1 s)
      | none =>
        let sn := r * (rowBytesOf ifmt c + scaleBytes ifmt sbk c)
        let dn := c * (rowBytesOf ofmt r + scaleBytes ofmt sbk r)
        match [(sa, sn), (da, dn)].find? fun p => decide (blk.vbytes < p.1 + p.2) with
        | some p => trapAll (opndFault cVRANGE p.1) 8 (begin 1 s)
        | none =>
          submitTile s fun s =>
            let pl := blockPlace blk
            let reads := [placeRegion pl sa sn]
            let writes := [placeRegion pl da dn]
            let s := (begin 1 s).onTeam (applyHints h a 1 b 1 [])
            let j := { jobOf s .reqt reads writes with
              src := sa, dst := da, srcPl := pl, dstPl := pl, rowbytes := c, nrows := r
              sstride := rowBytesOf ifmt c, dstride := rowBytesOf ofmt r
              sscl := sa + r * rowBytesOf ifmt c, dscl := da + c * rowBytesOf ofmt r
              ifmt := ifmt, ofmt := ofmt, sbk := sbk, sat := bitsOf l.toNat 10 10 }
            finish h 8 (enterJob (dieOfCore s.myCore) j s)

/-! ### JOB -/

/-- The bytes that a core reads at a global address as an LDG would, in pieces of 64 (R302): the bytes, the fault, or the walks that it
waits for; `cut`: no port reaches the memory that holds them (R1). -/
inductive CardRead where
  | ok (bytes : List Byte) (s : State)
  | fault (f : LaneFault)
  | wait (vas : List Nat)
  | cut

/-- Reads a card or descriptor. -/
def readCard (va n : Nat) (s : State) : CardRead :=
  let vas := (List.range (n / 64)).map fun i => (va + 64 * i) % 2 ^ 57
  if !s.team.failFetch ∧ s.team.failed ≠ 0 then .fault { cause := cHOSTPAGE, faddr := BitVec.ofNat 64 va }
  else
    let xs := vas.map fun v => (v, paCheck s .load v (xlateVa s .load v))
    match faultsOf xs, waitsOf xs with
    | (_, f) :: _, _ => .fault f
    | [], w :: ws => .wait (w :: ws)
    | [], [] =>
      let oks := oksOf xs
      match oks.findSome? fun o => (eccOf s s.myCore o.2.1 64).map fun k => (o.1, k) with
      | some (v, k) => .fault { cause := cECC, faddr := BitVec.ofNat 64 v, lsub := k }
      | none =>
        if !oks.all fun o => paReaches s s.myCore o.2.1 then .cut
        else
          let s := vas.foldl (fun s v => tlbTouch s.myCore s.myCtx v s) s
          let (bs, s) := oks.foldl (fun (acc : List Byte × State) o =>
            let (b, s) := loadPa s.myCore o.2.1 64 o.2.2 false (paCarried s.myCore o.2.1 acc.2)
            let b := sliceBytes s s.myCtx o.1 64 b
            (acc.1 ++ b, sliceDrawn s.myCtx o.1 64 s)) (([] : List Byte), s)
          .ok bs s

/-- Region entry `i` of a list that starts at `at_`: base, bytes, space, RN (R300). -/
def regionEntry (card : List Byte) (at_ i : Nat) : Nat × Nat × Nat × Bool :=
  (fieldAt card (at_ + 16 * i) 8, fieldAt card (at_ + 16 * i + 8) 4, fieldAt card (at_ + 16 * i + 12) 1,
    bitAt (fieldAt card (at_ + 16 * i + 13) 1) 0)

/-- The used region entries. -/
def regionEntries (card : List Byte) (at_ n : Nat) : List (Nat × Nat × Nat × Bool) := (List.range n).map (regionEntry card at_)

/-- The checks of R299, R300 and R303 on a job card. -/
def cardOk (card : List Byte) : Bool :=
  let kind := fieldAt card 0 1
  let nread := fieldAt card 2 1
  let nwrite := fieldAt card 3 1
  let rb := fieldAt card 60 4
  let nr := fieldAt card 64 4
  decide (1 ≤ kind ∧ kind ≤ 4 ∧ fieldAt card 1 1 ≤ 5 ∧ nread ≤ 4 ∧ 1 ≤ nwrite ∧ nwrite ≤ 4) &&
    ((regionEntries card 128 nread ++ regionEntries card 192 nwrite).all fun e => e.2.1 != 0 && decide (e.2.2.1 ≤ 1) && !e.2.2.2) &&
    if kind = 4 then shapeOk (fieldAt card 5 1) (fieldAt card 6 1) (fieldAt card 7 1) nr rb
    else decide (1 ≤ rb ∧ rb ≤ 65536 ∧ 1 ≤ nr ∧ nr ≤ 2 ^ 24)

/-- The entry that a job card makes, with SEXT(B) added to its addresses (R299, R302). -/
def cardJob (s : State) (card : List Byte) (add : Int) : Job :=
  let blk := s.myBlock
  let flags := fieldAt card 4 1
  let pl := fun (v : Bool) => if v then blockPlace blk else ({} : Place)
  let sp := pl (bitAt flags 0)
  let dp := pl (bitAt flags 1)
  let region := fun (e : Nat × Nat × Nat × Bool) =>
    let p := pl (e.2.2.1 == 1)
    placeRegion p (stepAddr p e.1 add) e.2.1
  let reads := (regionEntries card 128 (fieldAt card 2 1)).map region
  let writes := (regionEntries card 192 (fieldAt card 3 1)).map region
  let kind := fieldAt card 0 1
  { jobOf s (if kind = 4 then .reqt else .copy kind) reads writes with
    src := stepAddr sp (fieldAt card 8 8) add, dst := stepAddr dp (fieldAt card 16 8) add
    sscl := stepAddr sp (fieldAt card 24 8) add, dscl := stepAddr dp (fieldAt card 32 8) add
    idx := fieldAt card 40 8 % 2 ^ 57, srcPl := sp, dstPl := dp, rowbytes := fieldAt card 60 4, nrows := fieldAt card 64 4
    sstride := sextInt 32 (fieldAt card 68 4), dstride := sextInt 32 (fieldAt card 72 4)
    ifmt := fieldAt card 5 1, ofmt := fieldAt card 6 1, sbk := fieldAt card 7 1, sat := bitsOf flags 3 3, cscope := fieldAt card 1 1
    cw := bitAt flags 2, cword := fieldAt card 48 8 % 2 ^ 57, cval := w32 (fieldAt card 56 4) }

/-- The first own-vault region or address of a job that extends beyond VBYTES (R302). The spec gives no length with an own-vault SRC, DST or scale
address: that its first byte alone is looked at, and its rows only as they are moved, is the model's choice (log entry 69). -/
def cardRange (b : Block) (j : Job) : Option Nat :=
  let regions := (j.reads ++ j.writes).filterMap fun r => if r.space = 0 then none else some (r.base - b.voff, r.len)
  let scales := if j.kind = .reqt then
      (if j.srcPl.vault ∧ scaledSide j.ifmt j.sbk then [(j.sscl, 1)] else []) ++
        if j.dstPl.vault ∧ scaledSide j.ofmt j.sbk then [(j.dscl, 1)] else []
    else []
  let addrs := (if j.srcPl.vault then [(j.src, 1)] else []) ++ (if j.dstPl.vault then [(j.dst, 1)] else []) ++ scales
  ((regions ++ addrs).find? fun p => decide (b.vbytes < p.1 + p.2)).map (·.1)

/-- JOB (R302). -/
def doJob (h : Hd) (d a b : RegF) (s : State) : State :=
  withOps 4 false [srcPair a, src b, dst d] s fun s =>
    if !isScalar d ∨ !isScalar a ∨ isVec b then trapI cILLOPND 4 (begin 1 s)
    else
      let va := (rdPair s a (lowestLane s.team.active)).toNat % 2 ^ 57
      if va % 64 ≠ 0 then trapAll { cause := cALIGN, faddr := BitVec.ofNat 64 va } 4 (begin 1 s)
      else if orderWaits s true then stallOn 0x02 s
      else match readCard va 256 s with
        | .fault f => trapAll f 4 (begin 1 s)
        | .wait vas => waitWalks vas s
        | .cut => stallOn 0x12 s
        | .ok card s' =>
          let j := cardJob s card (sextInt 32 (rdu s b).toNat)
          if !cardOk card then trapI cILLOPND 4 (begin 1 s')
          else if j.cw ∧ j.cword % 4 ≠ 0 then trapAll (opndFault cALIGN j.cword) 4 (begin 1 s')
          else match cardRange s.myBlock j with
            | some v => trapAll (opndFault cVRANGE v) 4 (begin 1 s')
            | none =>
              submitTile s' fun s =>
                if pendCount s.team + 1 > 16 then stallOn 0x06 s
                else
                  let pc := s.team.pc
                  let die := dieOfCore s.myCore
                  let code := regCode s.team d.toNat
                  let due := entryAc s die
                  let num := w32 (entryNum s die)
                  let s := (begin 1 s).onTeam (applyHints h a 2 b 1 [])
                  let s := enterJob die j (submitCache s.myCore s.myCtx j.reads j.writes s)
                  let (tag, s) := s.takeTag
                  finish h 4 (addPend { tag := tag, pc := pc, regs := [code], writes := [⟨0, code, num⟩], due := due } s)

/-! ### Decisions of a handler (R357) -/

/-- The entry of a job number on a die. -/
def jobByNum (s : State) (d : Nat) (num : Word) : Option Job := (s.die d).jobs.find? fun j => j.num == num

/-- Resume: the job repeats the faulting transfer. -/
def resumeJob (d : Nat) (num : Word) (s : State) : State :=
  match jobByNum s d num with
  | some j => if j.fault.isSome then setJob d { j with fault := none, held := false, retryAt := 0, retries := 0 } s else s
  | none => s

/-- Abandon: the job releases its entry; a fill leaves its stream. -/
def abandonJob (d : Nat) (num : Word) (s : State) : State :=
  match jobByNum s d num with
  | some j =>
    if j.fault.isNone then s
    else
      let s := removeJob d j.key s
      match j.kind with
      | .fill st => setFills j.core st ((fillsOf s j.core st).filter fun f => f.job != j.key) s
      | _ => s
  | none => s

/-! ### Meanings -/

/-- SFILL (R295). -/
def execSfill (h : Hd) (a b : RegF) (l : Word) (s : State) : Out := .next (doSfill h a b l s)
/-- SCOPY (R297). -/
def execScopy (h : Hd) (d a b : RegF) (l : Word) (s : State) : Out := .next (doScopy h d a b l s)
/-- XPOSE (R304). -/
def execXpose (h : Hd) (d a b : RegF) (l : Word) (s : State) : Out := .next (doXpose h d a b l s)
/-- JOB (R302). -/
def execJob (h : Hd) (d a b : RegF) (s : State) : Out := .next (doJob h d a b s)
/-- JOB_START (R291): the selection names the die and the entry. -/
def execJobStart (s : State) : Out := .next (startJob s.sel.unit s.sel.sub s)
/-- ENGINE_TRANSFER (R301): the selection names the die and the entry. -/
def execEngineTransfer (s : State) : Out := .next (stepJob s.sel.unit s.sel.sub s)
/-- UNSOLICITED_WRITE_RETRY (R298): the selection names the die and the entry. -/
def execUnsolicitedWriteRetry (s : State) : Out := .next (retryJob s.sel.unit s.sel.sub s)
/-- JOB_COMPLETE (R283): the selection names the die and the entry. -/
def execJobComplete (s : State) : Out := .next (finishJob s.sel.unit s.sel.sub s)
/-- ENGFAULT (R313): the selection names the die and the entry. -/
def execEngfault (s : State) : Out := .next (raiseJobFault s.sel.unit s.sel.sub s)
/-- FILL_START (R296): the selection names the core and the stream. -/
def execFillStart (s : State) : Out := .next (startFill s.sel.unit s.sel.sub s)
/-- FILL_ROW_APPEND (R296): the selection names the core and the stream. -/
def execFillRowAppend (s : State) : Out := .next (appendRow s.sel.unit s.sel.sub s)
/-- FILL_COMPLETE (R296): the selection names the core and the stream. -/
def execFillComplete (s : State) : Out := .next (completeFill s.sel.unit s.sel.sub s)

end Sys2Proof.Machine
end

