-- ==== Sys2Proof/Machine/Collective.lean ====
section
/-!
DEFINITION. Ticketed collectives (R392 to R406): CPOST and CWAIT, the posted-collective table, the posts at COORD, the requests and grants
of the root switch, the data of a started collective, and its errors.
-/

namespace Sys2Proof.Machine

/-! ### Descriptors (R392, R393) -/

/-- Error codes (R400). -/
abbrev ceHANDLE : Nat := 1
abbrev ceDESC : Nat := 2
abbrev ceMISMATCH : Nat := 3
abbrev ceTABLE : Nat := 4
abbrev ceNOGROUP : Nat := 5
abbrev ceLOST : Nat := 6
abbrev ceCANCELLED : Nat := 7
abbrev cePORT : Nat := 8
abbrev ceABANDONED : Nat := 9

/-- Whether an operation reduces. -/
def isReduction (oper : Nat) : Bool := oper == 1 || oper == 2

/-- ROP as an operation reads it: 0 where it ignores a value in range. -/
def ropOf (oper rop : Nat) : Nat := if isReduction oper ∨ 2 < rop then rop else 0

/-- ROOT as an operation reads it: 0 but for BROADCAST. -/
def rootOf (oper root : Nat) : Nat := if oper = 4 then root else 0

/-- A descriptor with addends on SEQ and on the buffers; what the operation ignores is 0, so that descriptors compare by what they mean. -/
def collDesc (bs : List Byte) (seqAdd : Nat) (off : Int) : CollDesc :=
  let flags := fieldAt bs 36 1 % 4
  let oper := fieldAt bs 4 1
  let addr := fun (at_ : Nat) => (((fieldAt bs at_ 8 : Int) + off) % (2 ^ 57 : Int)).toNat
  { group := fieldAt bs 0 2, seq := (fieldAt bs 2 2 + seqAdd) % 2 ^ 16, oper := oper, dtype := fieldAt bs 5 1
    rop := ropOf oper (fieldAt bs 6 1), scope := fieldAt bs 7 1, count := fieldAt bs 8 4, root := rootOf oper (fieldAt bs 12 2)
    send := if flags = 0 then addr 16 else 0, recv := addr 24, sched := fieldAt bs 32 4, cflags := flags }

/-- CFLAGS. -/
def CollDesc.isBound (d : CollDesc) : Bool := bitAt d.cflags 0
def CollDesc.isPort (d : CollDesc) : Bool := bitAt d.cflags 1

/-- Element bytes of a DTYPE. -/
def elemSize (dtype : Nat) : Nat :=
  match dtype with
  | 0 => 1
  | 2 => 2
  | _ => 4

/-- Send and receive elements of a member (R393); the port takes COUNT of a BROADCAST at every member (R403, log entry 34). -/
def sendElems (d : CollDesc) (n k : Nat) : Nat :=
  match d.oper with
  | 2 => n * d.count
  | 4 => if k = d.root ∨ d.isPort then d.count else 0
  | 5 => n * d.count
  | _ => d.count
def recvElems (d : CollDesc) (n : Nat) : Nat := if d.oper = 3 ∨ d.oper = 5 then n * d.count else d.count

/-- The elements that a member may hand to the port (R332, R403): COUNT of a BROADCAST at every member. -/
def portElems (d : CollDesc) (n k : Nat) : Nat := sendElems { d with cflags := d.cflags ||| 2 } n k

/-- Send and receive bytes. -/
def sendBytes (d : CollDesc) (n k : Nat) : Nat := sendElems d n k * elemSize d.dtype
def recvBytes (d : CollDesc) (n : Nat) : Nat := recvElems d n * elemSize d.dtype

/-- A refused overlap of the two buffers (R393). -/
def buffersClash (d : CollDesc) (n k : Nat) : Bool :=
  let sb := sendBytes d n k
  let rb := recvBytes d n
  !d.isBound && !d.isPort && decide (0 < sb ∧ 0 < rb ∧ d.send < d.recv + rb ∧ d.recv < d.send + sb) &&
    !((d.oper == 1 || d.oper == 4) && d.send == d.recv)

/-- The fields that CPOST checks (R399, step 4), but for the overlap of the buffers. -/
def fieldsOk (d : CollDesc) : Bool :=
  decide (1 ≤ d.oper ∧ d.oper ≤ 5 ∧ d.dtype ≤ 3 ∧ d.rop ≤ 2 ∧ d.scope ≤ 5 ∧ d.count ≠ 0) && !(isReduction d.oper && d.dtype == 0) &&
    !(d.isBound && d.isPort)

/-- The group entry of a context (R393): COORD, K and N. -/
def groupEntry (s : State) (ctx g : Nat) : Nat × Nat × Nat :=
  let e := (mget 0 (s.ctx ctx).groups g).toNat
  (bitsOf e 63 48, bitsOf e 45 32, bitsOf e 14 0)

/-! ### The table (R394) -/

/-- The handle of an entry (R399). -/
def handleOf (i gen : Nat) : Word := w32 (i + gen * 64)
def handleIdx (h : Word) : Nat := bitsOf h.toNat 5 0
def handleGen (h : Word) : Nat := bitsOf h.toNat 21 6

/-- A team that waits in CWAIT for an entry looks at it again (R401). -/
def collWake (i ac : Nat) (t : Team) : Team :=
  match t.park with
  | .cwait _ h => if handleIdx h = i then { t with park := .run, stall := t.park.code, readyAt := ac + 1 } else t
  | _ => t

/-- Wakes the waiters of an entry. -/
def wakeColl (i : Nat) (s : State) : State := { s with team := collWake i s.ac s.team, teams := mmap (collWake i s.ac) s.teams }

/-- What names a collective at the switches (R395): COORD, the group and SEQ. -/
def Coll.key (c : Coll) : Nat × Nat × Nat := (c.coord, c.desc.group, c.desc.seq)
def Post.key (p : Post) : Nat × Nat × Nat := (p.coord, p.group, p.seq)
def CollReq.key (r : CollReq) : Nat × Nat × Nat := (r.coord, r.group, r.seq)
def Grant.key (g : Grant) : Nat × Nat × Nat := (g.coord, g.group, g.seq)

/-- The resources of a collective return to the root's mirror (R395), and its post and request leave COORD and the root. -/
def withdraw (c : Coll) (s : State) : State :=
  { s with
    grants := s.grants.filter fun g => g.key != c.key
    creqs := s.creqs.filter fun r => r.key != c.key
    posts := s.posts.filter fun p => !(p.key == c.key && p.pkg == Config.packageIndex) }

/-- Blocks whose chunks wait in an entry give them up (R402). -/
def dropChunks (i : Nat) (s : State) : State :=
  let ks := (s.coll i).chunks
  let s := s.onColl i fun c => { c with chunks := [] }
  ks.foldl (fun s k => freeBond k (s.onBlock k fun b => { b with chunkWait := false })) s

/-- Frees an entry: its generation advances (R394). What it holds at COORD and the root returns, but for an entry in LOCAL, which returns it
at its global completion (R395). -/
def freeColl (i : Nat) (s : State) : State :=
  let c := s.coll i
  let s := dropChunks i (if c.st = .loc then s else withdraw c s)
  wakeColl i { s with colls := mput s.colls i { gen := (c.gen + 1) % 2 ^ 16 }, inbound := mdel s.inbound i }

/-- Writes undefined values over the first `n` bytes of a receive buffer. -/
def scrambleBytes (c : Coll) (n : Nat) (s : State) : State :=
  let s' := (List.range n).foldl (fun s i =>
    match engXl s c.ctx .store ((c.desc.recv + i) % 2 ^ 57) with
    | .inl pa => writePa pa [(Config.freeWord (s.fresh + i)).extractLsb' 0 8] s
    | .inr _ => s) s
  { s' with fresh := s'.fresh + n }

/-- Writes undefined values over the receive buffer of an aborted collective (R405). -/
def scrambleRecv (c : Coll) (s : State) : State := scrambleBytes c (recvBytes c.desc c.n) s

/-- An entry becomes ERROR (R394, R405). -/
def errColl (i code : Nat) (s : State) : State :=
  let c := s.coll i
  let s := if c.st = .started ∧ (code = ceLOST ∨ code = ceCANCELLED) then scrambleRecv c s else s
  let s := dropChunks i (withdraw c s)
  wakeColl i (s.onColl i fun c => { c with st := .error, err := code, fault := none, raised := false })

/-- The entry that holds a (group, SEQ) of a context, and the lowest free one. -/
def findColl (s : State) (ctx group seq : Nat) : Option Nat :=
  (List.range 64).find? fun i => (s.coll i).st != .free && (s.coll i).ctx == ctx && (s.coll i).desc.group == group && (s.coll i).desc.seq == seq
def freeEntry (s : State) : Option Nat := (List.range 64).find? fun i => (s.coll i).st == .free

/-- Entries of a grid that are not FREE. -/
def gridEntries (s : State) (g : Nat) : List Nat := (List.range 64).filter fun i => (s.coll i).st != .free && (s.coll i).grid == g

/-- Steps 4 to 8 of R399: the code of the trap, or the entry found or filled. -/
def fillColl (ctx g : Nat) (uid : Option Nat) (d : CollDesc) (s : State) : Nat ⊕ (Nat × State) :=
  let (coord, k, n) := groupEntry s ctx d.group
  if !fieldsOk d ∨ buffersClash d n k then .inl ceDESC
  else if n = 0 then .inl ceNOGROUP
  else if d.oper = 4 ∧ n ≤ d.root then .inl ceDESC
  else match findColl s ctx d.group d.seq with
    | some i => if (s.coll i).desc = d then .inr (i, s) else .inl ceMISMATCH
    | none =>
      if (s.grid g).launch.collent ≤ (gridEntries s g).length then .inl ceTABLE
      else match freeEntry s with
        | none => .inl ceTABLE
        | some i =>
          let c : Coll := { st := .posted, gen := (s.coll i).gen, desc := d, ctx := ctx, grid := g, uid := uid, member := k, n := n, coord := coord }
          .inr (i, { s with colls := mput s.colls i c })

/-! ### CPOST and CWAIT -/

/-- CPOST (R399): a release at DEV (R398). -/
def doCpost (h : Hd) (d a b : RegF) (l : Word) (s : State) : State :=
  withOps 8 false [srcPair a, src b, dst d] s fun s =>
    if !isScalar d ∨ !isScalar a ∨ isVec b then trapI cILLOPND 8 (begin 1 s)
    else
      let va := (rdPair s a (lowestLane s.team.active)).toNat % 2 ^ 57
      if va % 64 ≠ 0 then trapAll { cause := cALIGN, faddr := BitVec.ofNat 64 va } 8 (begin 1 s)
      else if orderWaits s true then stallOn 0x02 s
      else match readCard va 64 s with
        | .fault f => trapAll f 8 (begin 1 s)
        | .wait vas => waitWalks vas s
        | .cut => stallOn 0x12 s
        | .ok bs s' =>
          let x := collDesc bs ((rdu s b).toNat % 2 ^ 16) l.toInt
          match fillColl s.myCtx s.myBlock.grid (some (teamUid s.team)) x s' with
          | .inl code => trapI cCOLLERR 8 (begin 1 s') code
          | .inr (i, s) =>
            if pendCount s'.team + 1 > 16 then stallOn 0x06 s'
            else
              let pc := s.team.pc
              let code := regCode s.team d.toNat
              let val := handleOf i (s.coll i).gen
              let s := releaseCache s.myCore 4 ((begin 1 s).onTeam (applyHints h a 2 b 1 []))
              let (tag, s) := s.takeTag
              finish h 8 (addPend { tag := tag, pc := pc, regs := [code], writes := [⟨0, code, val⟩], due := s.ac } s)

/-- Whether an entry meets a CWAIT's condition (R401). -/
def cwaitMet (cond : Nat) (c : Coll) : Bool := (cond == 0 && c.st == .started) || (decide (cond ≤ 1) && c.st == .loc)

/-- CWAIT (R401): conditions 0 TICKET, 1 LOCAL, 2 GLOBAL. -/
def doCwait (h : Hd) (a : RegF) (cond : Nat) (s : State) : State :=
  withOps 4 false [src a] s fun s =>
    if isVec a then trapI cILLOPND 4 (begin 1 s)
    else
      let w := rdu s a
      let i := handleIdx w
      let c := s.coll i
      let go := fun (scope : Nat) (s : State) =>
        let s := if cond = 0 then s else acquireCache s.myCore scope s
        finish h 4 ((begin 1 s).onTeam (applyHints h a 1 a 0 []))
      if cond ≠ 0 ∧ acqPending s.team then stallOn 0x02 s
      else if c.gen ≠ handleGen w then go 5 s
      else if c.st = .free ∨ c.grid ≠ s.myBlock.grid then trapI cCOLLERR 4 (begin 1 s) ceHANDLE
      else if c.st = .error then trapI cCOLLERR 4 (freeColl i (begin 1 s)) c.err
      else if cwaitMet cond c then go c.desc.scope s
      else s.onTeam fun t => { t with park := .cwait cond w }

/-! ### Tickets (R395) -/

/-- The post of an entry. -/
def postOf (i : Nat) (s : State) : Post :=
  let c := s.coll i
  { coord := c.coord, ctx := c.ctx, group := c.desc.group, seq := c.desc.seq, pkg := Config.packageIndex, member := c.member, n := c.n, oper := c.desc.oper
    dtype := c.desc.dtype, rop := c.desc.rop, count := c.desc.count, root := c.desc.root, sched := c.desc.sched }

/-- The post of another package, from a packet of the selection (log entry 20). -/
def foreignPost (p : Packet) : Post :=
  { coord := pktField p 14 2, ctx := 0, group := pktField p 0 2, seq := pktField p 2 2, pkg := pktField p 4 2, member := pktField p 6 2, n := pktField p 8 2
    oper := pktField p 10 1, dtype := pktField p 11 1, rop := ropOf (pktField p 10 1) (pktField p 12 1), count := pktField p 16 4
    root := rootOf (pktField p 10 1) (pktField p 20 2)
    sched := pktField p 24 4 }

/-- What COORD compares. -/
def Post.fields (p : Post) : List Nat := [p.oper, p.dtype, p.rop, p.count, p.root, p.sched]

/-- A notice to every entry of this package that waits on a collective. -/
def noticeAll (key : Nat × Nat × Nat) (code : Nat) (s : State) : State :=
  let is := (List.range 64).filter fun i => (s.coll i).st == .posted && (s.coll i).key == key
  { s with notices := s.notices ++ is.map fun i => (i, (s.coll i).gen, code) }

/-- COORD takes a post; with the posts of all members it compares them and sends one REQUEST. -/
def collectPost (p : Post) (s : State) : State :=
  if s.posts.any fun q => q.key == p.key && q.pkg == p.pkg then s
  else
    let posts := s.posts ++ [p]
    let mine := posts.filter fun q => q.key == p.key
    if mine.length < (mine.headD p).n then { s with posts := posts }
    else
      let s := { s with posts := posts.filter fun q => q.key != p.key }
      if mine.any fun q => q.fields != p.fields then noticeAll p.key ceMISMATCH s
      else match mget? s.scheds p.sched with
        | none => noticeAll p.key ceDESC s
        | some _ =>
          let r : CollReq :=
            { arrived := s.ac, coord := p.coord, ctx := p.ctx, group := p.group, seq := p.seq, members := mine.map (·.pkg), sched := p.sched }
          { s with creqs := s.creqs ++ [r] }

/-- COLL_POST_COLLECT: an entry's post, or one of another package; each passes a port (R1, R387). -/
def postCollect (s : State) : State :=
  if !s.linked then s
  else if s.sel.unit = 0 then
    let c := s.coll s.sel.sub
    let known := s.creqs.any (fun r => r.key == c.key) || s.grants.any (fun r => r.key == c.key) ||
      s.posts.any (fun q => q.key == c.key && q.pkg == Config.packageIndex) || s.notices.any (fun m => m.1 == s.sel.sub && m.2.1 == c.gen)
    if c.st = .posted ∧ !known then collectPost (postOf s.sel.sub s) s.spoken else s
  else
    let p := foreignPost s.sel.pkt
    if p.pkg = Config.packageIndex ∨ s.lost.contains p.pkg then s else collectPost p s.heard

/-- The switches of a schedule. -/
def switchesOf (s : State) (sched : Nat) : List Nat := mget [] s.scheds sched

/-- Whether the root's mirror has every resource of a request free (R395). -/
def reqFits (s : State) (r : CollReq) : Bool :=
  (r.members.all fun m => decide ((s.grants.filter fun g => g.members.contains m).length < 16)) &&
    (switchesOf s r.sched).all fun w =>
      decide ((s.grants.filter fun g => (switchesOf s g.sched).contains w).length < mget 0 s.swCtx w)

/-- Whether two requests name a common resource. -/
def reqShares (s : State) (a b : CollReq) : Bool :=
  (a.members.any b.members.contains) || (switchesOf s a.sched).any (switchesOf s b.sched).contains

/-- Whether a request has waited 2^20 ac (R395). -/
def reqAged (s : State) (r : CollReq) : Bool := decide (r.arrived + 2 ^ 20 ≤ s.ac)

/-- Whether an earlier request that has waited 2^20 ac names resources of request `i`. -/
def reqBlocked (s : State) (i : Nat) (r : CollReq) : Bool := (s.creqs.take i).any fun q => reqAged s q && reqShares s q r

/-- The root may grant request `i`: it fits and is not blocked, and no earlier one is so. -/
def mayGrant (s : State) (i : Nat) : Bool :=
  let may := fun (p : CollReq × Nat) => reqFits s p.1 && !reqBlocked s p.2 p.1
  match s.creqs[i]? with
  | none => false
  | some r => may (r, i) && !((s.creqs.take i).zipIdx.any may)

/-- COLL_REQUEST_GRANT: the request takes its resources and the next rank. -/
def grantReq (i : Nat) (s : State) : State :=
  match s.creqs[i]? with
  | none => s
  | some r =>
    if !mayGrant s i then s
    else
      let g : Grant := { rank := s.nextRank, coord := r.coord, ctx := r.ctx, group := r.group, seq := r.seq, members := r.members, sched := r.sched }
      { s with creqs := s.creqs.eraseIdx i, grants := s.grants ++ [g], nextRank := (s.nextRank + 1) % 2 ^ 48 }

/-- COLL_REQUEST_AGED: a request that has waited 2^20 ac. -/
def ageReq (i : Nat) (s : State) : State :=
  match s.creqs[i]? with
  | none => s
  | some r => if reqAged s r then { s with creqs := s.creqs.set i { r with aged := true } } else s

/-- COLL_GRANT_RECEIVE: the package receives its next grant by a port (R1, R387); grants come in ascending rank (R396). -/
def receiveGrant (s : State) : State :=
  match (if s.linked then s.grants.find? fun g => g.members.contains Config.packageIndex && !g.received else none) with
  | none => s
  | some g =>
    let s := { s.heard with grants := s.grants.map fun x => if x.rank = g.rank then { x with received := true } else x }
    match (List.range 64).find? fun i => (s.coll i).st == .posted && (s.coll i).key == g.key with
    | none => s
    | some i => wakeColl i (s.onColl i fun c => { c with st := .started, rank := g.rank })

/-! ### Data (R396, R397) -/

/-- The bytes of element `e` of a member's send data, when this package has them. -/
def contrib (s : State) (i : Nat) (c : Coll) (j e : Nat) : Option (List Byte) :=
  let es := elemSize c.desc.dtype
  let at_ := fun (b : Nat) =>
    if j = c.member then mget? c.sendBuf (e * es + b) else mget? (mget [] s.inbound i) ((e * es + b) * 2 ^ 14 + j)
  let bs := (List.range es).filterMap at_
  if bs.length = es then some bs else none

/-- A reduction of the members' elements (R393, R397). -/
def reduceElems (dtype rop : Nat) (vs : List Nat) : Nat :=
  match dtype with
  | 3 =>
    let ws : List Word := vs.map w32
    (match rop with
      | 0 => ws.foldl (· + ·) 0
      | 1 => ws.foldl (fun (a b : Word) => if a.toInt ≤ b.toInt then a else b) (ws.headD 0)
      | _ => ws.foldl (fun (a b : Word) => if a.toInt ≤ b.toInt then b else a) (ws.headD 0)).toNat
  | _ =>
    let f := if dtype = 2 then bf16 else fp32
    match rop with
    | 0 => roundFp f 0 (exactSum (vs.map (decodeFp f)))
    | _ => vs.foldl (fun a b => fMinBits f (rop == 2) a b) (vs.headD 0)

/-- The bytes of receive element `e` (R393), when every contribution is there. -/
def recvElem (s : State) (i : Nat) (c : Coll) (e : Nat) : Option (List Byte) :=
  let d := c.desc
  let es := elemSize d.dtype
  if c.dup then some ((List.range es).map fun b => (Config.freeWord (s.fresh + e * es + b)).extractLsb' 0 8)
  else match d.oper with
    | 3 => contrib s i c (e / d.count) (e % d.count)
    | 4 => contrib s i c d.root e
    | 5 => contrib s i c (e / d.count) (c.member * d.count + e % d.count)
    | o =>
      let vs := (List.range c.n).filterMap fun j => contrib s i c j (if o = 2 then c.member * d.count + e else e)
      if vs.length = c.n then some (leBytes es (reduceElems d.dtype d.rop (vs.map leNat))) else none

/-- A fault of a part of a collective (R398). -/
def faultColl (i sub addr : Nat) (s : State) : State :=
  s.onColl i fun c => { c with fault := some (sub, BitVec.ofNat 64 addr), raised := false }

/-- Puts bytes of this member's send data at a byte index. -/
def putSend (at_ : Nat) (bs : List Byte) (c : Coll) : Coll :=
  { c with sendBuf := (bs.zipIdx).foldl (fun m (b, k) => mput m (at_ + k) b) c.sendBuf }

/-- Whether an entry moves data: it is STARTED and its part has not faulted (R396, R398). -/
def Coll.moves (c : Coll) : Bool := c.st == .started && c.fault.isNone

/-- Whether an entry has a transfer of send data from memory to make. -/
def sendReady (c : Coll) : Bool :=
  c.moves && !c.desc.isBound && !c.desc.isPort && decide (c.sent < sendBytes c.desc c.n c.member)

/-- Whether a matrix member has its elements ready for the port of an entry (R332, R403). -/
def portHas (s : State) (i : Nat) : Bool :=
  s.cores.any fun p => match p.2.mat.queue with
    | x :: _ => (match x.op with
      | .drainPort h _ _ => handleIdx h == i && handleGen h == (s.coll i).gen && x.started && decide (x.due ≤ s.ac)
      | _ => false)
    | [] => false

/-- Whether an entry has send data ready, of whatever source (R396). -/
def sendHas (s : State) (i : Nat) : Bool :=
  let c := s.coll i
  sendReady c || (c.moves && (!c.chunks.isEmpty || (c.desc.isPort && portHas s i)))

/-- Whether memory that a transfer of a part walks or moves lies in another package that is not lost (R1, R244). -/
def partFar (s : State) (ctx a : Nat) : Bool :=
  (walkPas s a 6 (s.ctx ctx).root ++ (match engXl s ctx .load a with
    | .inl pa => [pa]
    | .inr _ => [])).any fun pa => paPkg pa != Config.packageIndex && !paLost s pa
/-- Such a transfer waits while no port reaches a neighbour, and passes one (R1, R387). -/
def partCut (s : State) (ctx a : Nat) : Bool := partFar s ctx a && !s.linked
def partCarried (ctx a : Nat) (s : State) : State := if partFar s ctx a then s.heard.spoken else s

/-- Send data of a collective with other members leaves by a port (R387). -/
def sentOut (i : Nat) (s : State) : State := if (s.coll i).n = 1 then s else s.spoken

/-- Whether the send side serves an entry now: a lower rank that has data ready goes first (R396), and members elsewhere are reached by a
port (R1). -/
def sendTurn (s : State) (i : Nat) : Bool :=
  ((s.coll i).n == 1 || s.linked) && !((List.range 64).any fun j => sendHas s j && decide ((s.coll j).rank < (s.coll i).rank))

/-- One transfer of SEND into the port. -/
def sendTransfer (i : Nat) (s : State) : State :=
  let c := s.coll i
  if !sendReady c ∨ !sendTurn s i then s
  else match pieceAt [(c.desc.send, sendBytes c.desc c.n c.member)] c.sent with
    | none => s
    | some (a, n) =>
      if partCut s c.ctx (a % 2 ^ 57) then s
      else match engXl s c.ctx .load (a % 2 ^ 57) with
      | .inr e => faultColl i e a s
      | .inl pa =>
        match paKey s pa with
        | none => faultColl i efPROT a s
        | some k =>
          if badAt s k n then faultColl i efECC a s
          else (sentOut i (partCarried c.ctx (a % 2 ^ 57) s)).onColl i fun c => { putSend c.sent (s.load k n) c with sent := c.sent + n }

/-- The bytes of a transfer of RECV, when all its elements are there. -/
def recvPiece (s : State) (i : Nat) (c : Coll) (n : Nat) : Option (List Byte) :=
  let es := elemSize c.desc.dtype
  let bs := (List.range n).filterMap fun b => (recvElem s i c ((c.recvd + b) / es)).bind fun l => l[(c.recvd + b) % es]?
  if bs.length = n then some bs else none

/-- Whether an entry has a transfer of receive data ready. -/
def recvReady (s : State) (i : Nat) : Bool :=
  let c := s.coll i
  c.moves && (match pieceAt [(c.desc.recv, recvBytes c.desc c.n)] c.recvd with
    | some (_, n) => (recvPiece s i c n).isSome
    | none => false)

/-- One transfer into RECV; a lower rank that is ready goes first (R396). -/
def recvTransfer (i : Nat) (s : State) : State :=
  let c := s.coll i
  if !c.moves ∨ (List.range 64).any (fun j => decide ((s.coll j).rank < c.rank) && recvReady s j) then s
  else match pieceAt [(c.desc.recv, recvBytes c.desc c.n)] c.recvd with
    | none => s
    | some (a, n) =>
      match recvPiece s i c n with
      | none => s
      | some bs =>
        if partCut s c.ctx (a % 2 ^ 57) then s
        else match engXl s c.ctx .store (a % 2 ^ 57) with
        | .inr e => faultColl i e a s
        | .inl pa => (writePa pa bs (partCarried c.ctx (a % 2 ^ 57) s)).onColl i fun c => { c with recvd := c.recvd + n }

/-- Send data of another member arrives: member and first byte index in the value, 64 bytes in the packet. -/
def inboundTransfer (i : Nat) (s : State) : State :=
  let c := s.coll i
  let j := s.sel.word % 2 ^ 14
  let b := s.sel.word / 2 ^ 14
  if c.st ≠ .started ∨ j = c.member ∨ c.n ≤ j ∨ !s.linked then s
  else { s.heard with inbound := mput s.inbound i (((pktBytes s.sel.pkt).zipIdx).foldl (fun m (x, k) => mput m ((b + k) * 2 ^ 14 + j) x) (mget [] s.inbound i)) }

/-- Local completion (R394): every send byte read, every receive byte written. -/
def localDone (c : Coll) : Bool :=
  c.st == .started && c.fault.isNone && decide (sendBytes c.desc c.n c.member ≤ c.sent ∧ recvBytes c.desc c.n ≤ c.recvd) && c.chunks.isEmpty
def completeLocal (i : Nat) (s : State) : State :=
  let c := s.coll i
  if localDone c then
    wakeColl i { s.onColl i fun c => { c with st := .loc } with
      fresh := s.fresh + (if c.dup then recvBytes c.desc c.n else 0) }
  else s

/-- A bound chunk that waits is read by the port once the entry is STARTED (R402): its block's region may then be freed. An uncorrectable word in
it is a fault of the part, at its offset (R398, R424). -/
def readChunk (i k : Nat) (s : State) : State :=
  let c := s.coll i
  if !c.moves ∨ !c.chunks.contains k ∨ !sendTurn s i then s
  else
    let b := s.block k
    let l := (s.grid c.grid).launch
    let key := vaultKey b.core (b.voff + l.cboff)
    let bs := s.load key l.cbchunk
    if badAt s key l.cbchunk then faultColl i efECC l.cboff s
    else
    let s := (sentOut i s).onColl i fun c => { putSend (b.lin * l.cbchunk) bs c with sent := c.sent + l.cbchunk, chunks := c.chunks.filter (· != k) }
    freeBond k (s.onBlock k fun b => { b with chunkWait := false })

/-! ### The port of MDRAIN (R332, R403) -/

/-- The check of MDRAIN.PORT on its handle (R332). -/
def portOk (s : State) (g : Nat) (h : Word) (d : Nat) : Bool :=
  let c := s.coll (handleIdx h)
  c.gen == handleGen h && c.st != .free && c.grid == g && c.desc.dtype == 1 && decide (d + 4096 ≤ portElems c.desc c.n c.member)

/-- Whether the port takes elements of a handle now, and whether the entry can take none any more. -/
def portReady (s : State) (h : Word) : Bool := (s.coll (handleIdx h)).gen == handleGen h && (s.coll (handleIdx h)).moves
def portGone (s : State) (h : Word) : Bool :=
  (s.coll (handleIdx h)).gen != handleGen h || (s.coll (handleIdx h)).st == .error || (s.coll (handleIdx h)).st == .loc

/-- The port accepts elements from an index up. An element handed twice makes the receive values undefined, those already written too (R403). -/
def portPut (h : Word) (at_ : Nat) (ws : List Word) (s : State) : State :=
  let c := s.coll (handleIdx h)
  let twice := (List.range ws.length).any fun k => (mget? c.sendBuf (4 * (at_ + k))).isSome
  let s := if twice ∧ !c.dup then scrambleBytes c c.recvd s else s
  (sentOut (handleIdx h) s).onColl (handleIdx h) fun c =>
    { putSend (4 * at_) (ws.flatMap fun w => leBytes 4 w.toNat) c with
      portTaken := c.portTaken + ws.length, sent := c.sent + 4 * ws.length, dup := c.dup || twice }

/-! ### Errors (R398, R405) -/

/-- COLL_ERROR_NOTICE: a notice makes an entry ERROR; MISMATCH and an unknown schedule come before the ticket. One that comes from elsewhere passes a
port (R1, R387); a loss is seen at the package's own ports too. -/
def errorNotice (i code : Nat) (s : State) : State :=
  if code ≠ ceLOST ∧ !s.linked then s
  else
  let c := s.coll i
  let s := if code = ceLOST then s else s.heard
  let s := { s with notices := s.notices.filter fun m => !(m.1 == i && m.2.1 == c.gen && m.2.2 == code) }
  let ok := (c.st = .posted ∧ (code = ceMISMATCH ∨ code = ceDESC)) ∨
    ((c.st = .posted ∨ c.st = .started) ∧ (code = ceLOST ∨ code = ceCANCELLED ∨ code = ceABANDONED))
  if ok then errColl i code s else s

/-- The team that takes a fault of a part (R398): the posting team, else the live team of lowest role in the lowest-indexed resident block
of the grid. -/
def collTeam (s : State) (c : Coll) : Option Nat :=
  let mine := s.allTeams.filter fun t => (s.block t.blk).grid == c.grid && (s.block t.blk).kind == .grid
  match c.uid.bind fun u => s.allTeams.find? fun t => teamUid t == u with
  | some t => some t.tid
  | none => (sortBy (fun a b => keyLe [(s.block a.blk).lin, a.role] [(s.block b.blk).lin, b.role]) mine).head?.map (·.tid)

/-- COLL_PART_FAULT (R398): ENGFAULT in the posting team, resident or saved, or else in another; the part is abandoned when the grid has no
resident block. -/
def raiseCollFault (i : Nat) (s : State) : State :=
  let c := s.coll i
  match c.fault, c.raised with
  | some (sub, addr), false =>
    let e : TeamEvent := .collfault s.ac (handleOf i c.gen) sub addr
    let done := fun (s : State) => s.onColl i fun c => { c with raised := true }
    match c.uid.filter (uidSaved s c.grid) with
    | some u => addSaved c.grid u e (done s)
    | none =>
      match collTeam s c with
      | some tid => (done s).withTeam tid (addEvent e)
      | none => errColl i ceABANDONED s
  | _, _ => s

/-- JOBCTL on a part of a collective (R357, R398). -/
def resumeColl (h : Word) (s : State) : State :=
  if (s.coll (handleIdx h)).gen = handleGen h then s.onColl (handleIdx h) fun c => { c with fault := none, raised := false } else s
def abandonColl (h : Word) (s : State) : State :=
  let c := s.coll (handleIdx h)
  if c.gen = handleGen h ∧ c.fault.isSome then errColl (handleIdx h) ceABANDONED s else s

/-- The entries of a killed context are freed; a collective that had started is aborted, which leaves RECV undefined (R405). -/
def killColls (ctx : Nat) (s : State) : State :=
  ((List.range 64).filter fun i => (s.coll i).st != .free && (s.coll i).ctx == ctx).foldl (fun s i =>
    freeColl i (if (s.coll i).st = .started then scrambleRecv (s.coll i) s else s)) s

/-- The resources of a granted collective return to the root's mirror (R395). -/
def returnGrant (rank : Nat) (s : State) : State := { s with grants := s.grants.filter fun g => g.rank != rank }

/-- COLL_GLOBAL_COMPLETE (R394, R395), whose notice comes by a port (R1, R387): an entry in LOCAL is freed and its resources return; those of a
collective whose entry a grid's end has freed, or whose members are all other packages, return by the rank that the selection names. -/
def globalComplete (s : State) : State :=
  if !s.linked then s
  else if s.sel.sub = 0 then
    let c := s.coll s.sel.unit
    if c.st = .loc then returnGrant c.rank (freeColl s.sel.unit s.heard) else s
  else if (List.range 64).any fun i => (s.coll i).moves && (s.coll i).rank == s.sel.word then s
  else
    let gone := fun (g : Grant) => g.rank == s.sel.word && (g.received || !g.members.contains Config.packageIndex)
    { s.heard with grants := s.grants.filter fun g => !gone g }

/-- Bytes at a virtual address of a context, as a part of the package that is no core reads them. -/
def readVa (s : State) (ctx va n : Nat) : Option (List Byte) :=
  let bs := (List.range n).filterMap fun i =>
    match engXl s ctx .load ((va + i) % 2 ^ 57) with
    | .inl pa => (readPa s pa 1).head?
    | .inr _ => none
  if bs.length = n then some bs else none

/-- The bound collective is posted with the grid's first block (R402). -/
def postBound (g : Nat) (s : State) : State :=
  let x := s.grid g
  if x.launch.cbcoll = 0 then s
  else match readVa s x.ctx x.launch.cbcoll.toNat 64 with
    | none => s
    | some bs =>
      match fillColl x.ctx g none (collDesc bs 0 0) s with
      | .inl _ => s
      | .inr (i, s) => s.onGrid g fun x => { x with bound := some (handleOf i (s.coll i).gen).toNat }

/-- The chunk of an ended block is handed to its bound collective (R402): it waits for the port; a member of a broadcast that is not the
root sends none. -/
def chunkFire (k : Nat) (s : State) : State :=
  let b := s.block k
  match b.kind, (s.grid b.grid).bound with
  | .grid, some h =>
    let i := handleIdx (w32 h)
    let c := s.coll i
    if c.gen ≠ handleGen (w32 h) ∨ (c.st ≠ .posted ∧ c.st ≠ .started) ∨ (c.desc.oper = 4 ∧ c.member ≠ c.desc.root) then s
    else (s.onColl i fun c => { c with chunks := c.chunks ++ [k] }).onBlock k fun b => { b with chunkWait := true }
  | _, _ => s

/-! ### Meanings -/

/-- CPOST (R399). -/
def execCpost (h : Hd) (d a b : RegF) (l : Word) (s : State) : Out := .next (doCpost h d a b l s)
/-- CWAIT.TICKET (R401). -/
def execCwaitTicket (h : Hd) (a : RegF) (s : State) : Out := .next (doCwait h a 0 s)
/-- CWAIT.LOCAL (R401). -/
def execCwaitLocal (h : Hd) (a : RegF) (s : State) : Out := .next (doCwait h a 1 s)
/-- CWAIT.GLOBAL (R401). -/
def execCwaitGlobal (h : Hd) (a : RegF) (s : State) : Out := .next (doCwait h a 2 s)
/-- COLL_POST_COLLECT (R395): the selection names an entry (unit 0), or another package's post in its packet. -/
def execCollPostCollect (s : State) : Out := .next (postCollect s)
/-- COLL_REQUEST_GRANT (R395): the selection names the request. -/
def execCollRequestGrant (s : State) : Out := .next (grantReq s.sel.sub s)
/-- COLL_REQUEST_AGED (R395): the selection names the request. -/
def execCollRequestAged (s : State) : Out := .next (ageReq s.sel.sub s)
/-- COLL_GRANT_RECEIVE (R395, R396). -/
def execCollGrantReceive (s : State) : Out := .next (receiveGrant s)
/-- COLL_CHUNK_READ (R402): the selection names the entry and the block. -/
def execCollChunkRead (s : State) : Out := .next (readChunk s.sel.unit s.sel.sub s)
/-- COLL_LOCAL_COMPLETE (R394): the selection names the entry. -/
def execCollLocalComplete (s : State) : Out := .next (completeLocal s.sel.unit s)
/-- COLL_GLOBAL_COMPLETE (R394): the selection names the entry, or with sub-unit 1 the rank of a collective whose entry is free. -/
def execCollGlobalComplete (s : State) : Out := .next (globalComplete s)
/-- COLL_ERROR_NOTICE (R405): the selection names the entry and the code. -/
def execCollErrorNotice (s : State) : Out := .next (errorNotice s.sel.unit s.sel.word s)
/-- COLL_PART_FAULT (R398): the selection names the entry. -/
def execCollPartFault (s : State) : Out := .next (raiseCollFault s.sel.unit s)
/-- COLLECTIVE_DATA_TRANSFER (R396): the selection names the entry and the transfer: 0 of SEND, 1 of RECV, 2 from another member. -/
def execCollectiveDataTransfer (s : State) : Out :=
  .next (match s.sel.sub with
    | 0 => sendTransfer s.sel.unit s
    | 1 => recvTransfer s.sel.unit s
    | _ => inboundTransfer s.sel.unit s)

end Sys2Proof.Machine
end

