-- ==== Sys2Proof/Machine/Control.lean ====
section
/-!
DEFINITION. Control flow (R114 to R122), the writable control store (R110 to R113), words that are not instructions (R59), instruction
fetch (R53), EXIT's retirement (R122) and promotion (R177).
-/

namespace Sys2Proof.Machine

/-! ### Branches, divergence and calls -/

/-- The target of a branch (R60). -/
def branchTarget (pc : VAddr) (l : Word) : VAddr := pc + BitVec.ofInt 57 (4 * l.toInt)

/-- BRA (R116): `c` says whether it is taken. The untaken form continues in sequence. -/
def goBra (h : Hd) (l : Word) (taken : Bool) (s : State) : State :=
  finishAt h (if taken then branchTarget s.team.pc l else s.team.pc + 8) s

/-- BRA.NZ and BRA.Z (R116). -/
def doBraIf (h : Hd) (a : RegF) (l : Word) (z : Bool) (s : State) : State :=
  withOps 8 false [src a] s fun s =>
    if isVec a then trapI cILLOPND 8 (begin 1 s)
    else
      let taken := (rdu s a == 0) == z
      goBra h l taken (traceOutcome taken ((begin 1 s).onTeam (applyHints h a 1 a 0 [])))

/-- The lanes that a BRD sends to its target (R117). -/
def brdTaken (s : State) (a : RegF) (z : Bool) : Mask :=
  maskOf ((lanesOf s.team.active).filter fun l => (rdv s a l == 0) == z)

/-- BRD (R117). -/
def doBrd (h : Hd) (a : RegF) (l : Word) (z : Bool) (s : State) : State :=
  withOps 8 false [src a] s fun s =>
    let m := s.team.active
    let t := brdTaken s a z
    if t ≠ m ∧ t ≠ 0 ∧ 64 ≤ s.team.rstack.length then trapI cILLOPND 8 (begin 1 s)
    else
      let s := (begin (passesOf s.team) s).onTeam (applyHints h a 1 a 0 (lanesOf m))
      let target := branchTarget s.team.pc l
      if t = m then finishAt h target (traceOutcome true s)
      else if t = 0 then finishAt h (s.team.pc + 8) (traceOutcome false s)
      else
        let s := traceEmit (takenPackets m t) (tracePre s)
        let e : REntry := { pending := true, pc := target, mask := t, fmt := s.team.fmt }
        finishAt h (s.team.pc + 8) (s.onTeam fun k => restack s.ac (e :: k.rstack) { k with active := m &&& ~~~ t })

/-- SSY (R118). -/
def doSsy (h : Hd) (l : Word) (s : State) : State :=
  if 64 ≤ s.team.rstack.length then trapI cILLOPND 8 (begin 1 s)
  else
    let s := begin 1 s
    let e : REntry := { pending := false, pc := branchTarget s.team.pc l, mask := s.team.active, fmt := s.team.fmt }
    finishAt h (s.team.pc + 8) (s.onTeam fun k => restack s.ac (e :: k.rstack) k)

/-- SYNC (R119): POP. -/
def doSync (h : Hd) (s : State) : State :=
  match doPop s with
  | none => trapI cILLOPND 4 (begin 1 s)
  | some s' => finishAt h s'.team.pc (begin 1 s')

/-- CALL (R120). -/
def doCall (h : Hd) (l : Word) (s : State) : State :=
  if 16 ≤ s.team.cstack.length then trapI cILLOPND 8 (begin 1 s)
  else
    let s := begin 1 s
    let target := branchTarget s.team.pc l
    finishAt h target (s.onTeam fun t => { t with cstack := (t.pc + 8) :: t.cstack })

/-- RET (R120). -/
def doRet (h : Hd) (s : State) : State :=
  match s.team.cstack with
  | [] => trapI cILLOPND 4 (begin 1 s)
  | pc :: rest =>
    let s := traceEmit [targetPacket s.team.pc pc] (tracePre (begin 1 s))
    finishAt h pc (s.onTeam fun t => { t with cstack := rest })

/-- BRX (R121). -/
def doBrx (h : Hd) (a : RegF) (call : Bool) (s : State) : State :=
  withOps 4 false [srcPair a] s fun s =>
    if !isScalar a then trapI cILLOPND 4 (begin 1 s)
    else
      let v := rdPair s a (lowestLane s.team.active)
      if 2 ^ 57 ≤ v.toNat then trapI cILLOPND 4 (begin 1 s)
      else if v.toNat % 4 ≠ 0 then trapAll { cause := cALIGN } 4 (begin 1 s)
      else if call ∧ 16 ≤ s.team.cstack.length then trapI cILLOPND 4 (begin 1 s)
      else
        let pc : VAddr := v.extractLsb' 0 57
        let s := (begin 1 s).onTeam (applyHints h a 2 a 0 [])
        let s := traceEmit [targetPacket s.team.pc pc] (tracePre s)
        finishAt h pc (s.onTeam fun t => { t with cstack := if call then (t.pc + 4) :: t.cstack else t.cstack })

/-! ### EXIT -/

/-- EXIT (R122): the team parks until everything earlier has landed and been accepted. In handler mode it traps (R352). The wait of an S
marker follows where the team goes on (R21, R57). -/
def doExit (h : Hd) (s : State) : State :=
  if s.team.hmode then trapI cILLOPND 4 (begin 1 s)
  else ((begin 1 s).onTeam fun t => { t with park := .exit, swDue := h.sw })

/-- Whether EXIT goes on waiting: for a result of the team, or for a store or atomic of its active lanes (R122). -/
def exitWaits (t : Team) : Bool := !t.pend.isEmpty || t.stores.any fun k => k.lanes &&& t.active != 0

/-- The focused team without its active lanes. -/
def dropActive (t : Team) : Team :=
  { t with
    live := t.live &&& ~~~ t.active
    active := 0
    rstack := t.rstack.map fun e => { e with mask := e.mask &&& ~~~ t.active }
    park := .run }

/-- Retires the active lanes (R122): the team ends, or POP. Where POP finds no entry the trap leaves the lanes as they are (R344). An access
in flight that a lost package ended traps first, and EXIT is issued again after it (R245). -/
def exitRetire (s : State) : State :=
  if s.team.park ≠ .exit ∨ exitWaits s.team then s
  else if s.team.events.any fun e => match e with | .remote _ => true | _ => false then
    s.onTeam fun t => { t with park := .run, swDue := false }
  else
    let t := dropActive s.team
    if t.live = 0 then endTeam false { s with team := { s.team with live := 0, park := .run } }
    else match doPop { s with team := t } with
      | some s' => s'.onTeam fun t => unparked s.ac { t with ir := none, park := .exit }
      | none => trapI cILLOPND 4 (s.onTeam fun t => { t with park := .run })

/-! ### The control store -/

/-- The descriptor word of MCTL (R112): entry, start, length. -/
def mctlDesc (w : Word) : Nat × Nat × Nat := (bitsOf w.toNat 4 0, bitsOf w.toNat 13 5, bitsOf w.toNat 19 14)

/-- A control word from its 8 bytes (R111). -/
def cwordOf (bytes : List Byte) : CWord :=
  let f := fieldAt bytes 4 1
  { word := w32 (fieldAt bytes 0 4), sl := bitAt f 3, sb := bitAt f 2, sa := bitAt f 1, sd := bitAt f 0 }

/-- Whether an instruction word may stand in the control store (R112). -/
def cwordOk (c : CWord) : Bool :=
  let op := bitsOf c.word.toNat 30 24
  let code := fun (f : Nat) => f % 4 == 3
  !(reservedOp op) &&
  !(decide (0x21 ≤ op ∧ op ≤ 0x24) || op == 0x3E || op == 0x3F || op == 0x44 || decide (0x68 ≤ op ∧ op ≤ 0x6C)) &&
  !(c.sd && code (bitsOf c.word.toNat 20 14)) && !(c.sa && code (bitsOf c.word.toNat 13 7)) && !(c.sb && code (bitsOf c.word.toNat 6 0))

/-- The validation of a sequence of control words (R112): literals follow their RRL words and are not looked at. -/
def cwordsOk : List CWord → Bool
  | [] => true
  | c :: rest =>
    cwordOk c &&
      if hasLiteral c.word then
        match rest with
        | [] => false
        | _ :: rest' => cwordsOk rest'
      else cwordsOk rest

/-- MCTL.LOAD (R112): after its checks it waits for the expansions of the block. -/
def doMctlLoad (h : Hd) (d a : RegF) (s : State) : State :=
  withOps 4 false [src a, src d] s fun s =>
    if isVec a ∨ isVec d then trapI cILLOPND 4 (begin 1 s)
    else
      let (entry, start, len) := mctlDesc (rdu s d)
      let off := (rdu s a).toNat
      let b := s.myBlock
      let f : LaneFault := { cause := cALIGN, faddr := BitVec.ofNat 64 off }
      if len = 0 ∨ 32 < len ∨ 512 < start + len then trapI cILLOPND 4 (begin 1 s)
      else if off % 8 ≠ 0 then trapAll f 4 (begin 1 s)
      else if b.vbytes < off + 8 * len then trapAll { f with cause := cVRANGE } 4 (begin 1 s)
      else if orderWaits s false then stallOn 0x02 s
      else match absentLine s b.core [(b.voff + off, 8 * len)] with
        | some line => parkAbsent b.core line s
        | none =>
          if atomWaits s (vaultKey b.core (b.voff + off)) (8 * len) then stallOn 0x02 s
          else if badAt s (vaultKey b.core (b.voff + off)) (8 * len) then trapAll { f with cause := cECC, lsub := 2 } 4 (begin 1 s)
          else
            let ws := (List.range len).map fun i => cwordOf (s.load (vaultKey b.core (b.voff + off + 8 * i)) 8)
            if !cwordsOk ws then trapI cILLOPND 4 (begin 1 s)
            else if b.cload.isSome then stallOn 0x14 s
            else
              let s := (begin 1 s).onTeam (applyHints h a 1 a 0 [])
              let s := s.onBlock s.team.blk fun b => { b with cload := some (s.team.tid, start, ws, entry) }
              parkAt .mctl (finish h 4 s)

/-- Whether an MCALL expansion of a team is in progress (R113): a trap interrupts it, and RETT resumes it (log entry 27). -/
def expanding (t : Team) : Bool :=
  t.mcall.isSome || (t.hmode && (t.trap.mcall.isSome || t.trap.back.isSome)) || t.reexec.any fun r => r.back.isSome

/-- The write of an MCTL.LOAD once no expansion of the block is in progress (R112), in one step. -/
def mctlCommit (tid : Nat) (s : State) : State :=
  s.withTeam tid fun s =>
    let b := s.myBlock
    match s.team.park, b.cload with
    | .mctl, some (who, start, ws, entry) =>
      if who ≠ tid ∨ s.allTeams.any (fun t => t.blk == s.team.blk && expanding t) then s
      else
        let cstore := (ws.zipIdx).foldl (fun m (w, i) => mput m (start + i) w) b.cstore
        unpark (s.setBlock s.team.blk { b with cstore := cstore, centry := mput b.centry entry (start, ws.length), cload := none })
    | _, _ => s

/-- MCTL.CLEAR (R112). -/
def doMctlClear (h : Hd) (a : RegF) (s : State) : State :=
  withOps 4 false [src a] s fun s =>
    if isVec a then trapI cILLOPND 4 (begin 1 s)
    else
      let e := (rdu s a).toNat % 32
      let s := (begin 1 s).onTeam (applyHints h a 1 a 0 [])
      finish h 4 (s.onBlock s.team.blk fun b => { b with centry := mdel b.centry e })

/-- MCTL.QUERY (R112). -/
def doMctlQuery (h : Hd) (d a : RegF) (s : State) : State :=
  withOps 4 false [src a, dst d] s fun s =>
    if isVec a ∨ isVec d then trapI cILLOPND 4 (begin 1 s)
    else
      let e := (rdu s a).toNat % 32
      let v := match mget? s.myBlock.centry e with
        | some (start, len) => w32 (e + start * 2 ^ 5 + len * 2 ^ 14)
        | none => 0
      let ws := writesOf s d.toNat [0] fun _ => v
      finish h 4 ((begin 1 s).onTeam fun t => writeRegs ws (applyHints h a 1 a 0 [] t))

/-- MCALL (R113): the expansion starts on the entry's words as they stand. -/
def doMcall (h : Hd) (d a b : RegF) (l : Word) (s : State) : State :=
  match mget? s.myBlock.centry (bitsOf l.toNat 4 0) with
  | none => trapI cILLOPND 8 (begin 1 s)
  | some (start, len) =>
    let ws := (List.range len).map fun i => mget {} s.myBlock.cstore (start + i)
    (begin 1 s).onTeam fun t =>
      { t with mcall := some { words := ws, idx := 0, d := d, a := a, b := b, p := l.extractLsb' 8 24, sw := h.sw, pc := t.pc } }

/-- A field of a control word with its parameter (R113); none where it leaves its bank. -/
def substField (m : MCall) (flag : Bool) (v : RegF) : Option RegF :=
  if !flag then some v
  else
    let p := (if v.toNat % 4 = 0 then m.d else if v.toNat % 4 = 1 then m.a else m.b).toNat
    let o := v.toNat / 4
    if (p ≤ 95 ∧ 95 < p + o) ∨ (96 ≤ p ∧ p ≤ 119 ∧ 119 < p + o) ∨ (120 ≤ p ∧ o ≠ 0) then none
    else some (BitVec.ofNat 7 (p + o))

/-- The next expanded instruction: its word and literal (R113); none where a substitution is refused. -/
def expandNext (m : MCall) : Option (Word × Word) :=
  let c := (m.words[m.idx]?).getD {}
  let f := fieldsOf c.word
  match substField m c.sd f.d, substField m c.sa f.a, substField m c.sb f.b with
  | some d, some a, some b =>
    let w := assemble { f with d := d, a := a, b := b }
    let l := ((m.words[m.idx + 1]?).getD {}).word
    some (w, if hasLiteral w then (if c.sl then l + m.p.signExtend 32 else l) else 0)
  | _, _, _ => none

/-! ### Fetch -/

/-- One word fetched at an address: the word and the state, or the trap that it raises, or the walk it waits for (R53, R237); `cut`: no
port reaches the memory that holds it (R1). -/
inductive FetchRes where
  | ok (w : Word) (s : State)
  | fault (f : LaneFault)
  | wait (va : Nat)
  | cut

/-- Fetches the word at a VA. -/
def fetchWord (va : VAddr) (s : State) : FetchRes :=
  match paCheck s .fetch va.toNat (xlateVa s .fetch va.toNat) with
  | .wait v => .wait v
  | .fault f => .fault f
  | .ok pa ncm =>
    match eccOf s s.myCore pa 4 with
    | some k => .fault { cause := cECC, faddr := va.zeroExtend 64, kind := 3, lsub := k }
    | none =>
      if !paReaches s s.myCore pa then .cut
      else
        let s := paCarried s.myCore pa (tlbTouch s.myCore s.myCtx va.toNat s)
        if inSlice s s.myCtx va.toNat 4 then .ok s.takeFree.1 s.takeFree.2
        else
          let (bs, s) := loadPa s.myCore pa 4 ncm false s
          .ok (w32 (leNat bs)) s

/-- A team waits for a word (R53). -/
def fetchWait (va : Nat) (s : State) : State := stallOn 0x04 (waitWalks [va] s)

/-- Fetches the next instruction of the focused team (R53), or takes it from the expansion in progress (R113). -/
def fetchNext (s : State) : State :=
  if !s.team.present ∨ s.team.ir.isSome ∨ s.team.park ≠ .run then s
  else match s.team.mcall with
    | some m =>
      match expandNext m with
      | some ir => s.onTeam fun t => { t with ir := some ir }
      | none => trapI cILLOPND 8 (begin 1 s)
    | none =>
      let pc := s.team.pc
      if s.team.failFetch ∧ s.team.failed ≠ 0 then
        let a := match fetchWord pc s with
          | .ok _ _ => pc + 4
          | _ => pc
        trapAll { cause := cHOSTPAGE, faddr := a.zeroExtend 64, kind := 3 } (if a = pc then 4 else 8) (begin 1 s)
      else match fetchWord pc s with
        | .wait va => fetchWait va s
        | .cut => stallOn 0x04 s
        | .fault f => trapAll f 4 s
        | .ok w s1 =>
          if hasLiteral w then
            match fetchWord (pc + 4) s1 with
            | .wait va => fetchWait va s
            | .cut => stallOn 0x04 s
            | .fault f => trapAll f 8 s
            | .ok l s2 => s2.onTeam fun t => { t with ir := some (w, l) }
          else s1.onTeam fun t => { t with ir := some (w, 0) }

/-- A word that is no instruction (R59): ILLOP, after the literal where the opcode carries one. -/
def doReserved (cause : Nat) (w : Word) (s : State) : State := trapI cause (if hasLiteral w then 8 else 4) (begin 1 s)

/-- The cause of a reserved sub-operation (R58): BRA, MCTL and CWAIT name ILLOPND for their code 3 (R112, R116, R401). The spec does not say
whether A or D is a register operand there; the model takes this trap before any check of R26 (log entry 63). -/
def reservedCause (w : Word) : Nat :=
  let op := bitsOf w.toNat 30 24
  if op = 0x69 ∨ op = 0x44 ∨ op = 0x3C then cILLOPND else cILLOP

/-- Promotion (R177): a ready team that has not issued for 4,096 ac. -/
def promote (s : State) : State :=
  if s.team.present ∧ s.team.park = .run ∧ s.team.lastIssue + 4096 ≤ s.ac then s.onTeam fun t => { t with promoted := true } else s

/-! ### Meanings -/

/-- BRA (R116). -/
def execBra (h : Hd) (l : Word) (s : State) : Out := .next (goBra h l true (begin 1 s))
/-- BRA.NZ (R116). -/
def execBraNz (h : Hd) (a : RegF) (l : Word) (s : State) : Out := .next (doBraIf h a l false s)
/-- BRA.Z (R116). -/
def execBraZ (h : Hd) (a : RegF) (l : Word) (s : State) : Out := .next (doBraIf h a l true s)
/-- BRD (R117). -/
def execBrd (h : Hd) (a : RegF) (l : Word) (s : State) : Out := .next (doBrd h a l false s)
/-- BRD.Z (R117). -/
def execBrdZ (h : Hd) (a : RegF) (l : Word) (s : State) : Out := .next (doBrd h a l true s)
/-- SSY (R118). -/
def execSsy (h : Hd) (l : Word) (s : State) : Out := .next (doSsy h l s)
/-- SYNC (R119). -/
def execSync (h : Hd) (s : State) : Out := .next (doSync h s)
/-- CALL (R120). -/
def execCall (h : Hd) (l : Word) (s : State) : Out := .next (doCall h l s)
/-- RET (R120). -/
def execRet (h : Hd) (s : State) : Out := .next (doRet h s)
/-- BRX (R121). -/
def execBrx (h : Hd) (a : RegF) (s : State) : Out := .next (doBrx h a false s)
/-- BRX.CALL (R121). -/
def execBrxCall (h : Hd) (a : RegF) (s : State) : Out := .next (doBrx h a true s)
/-- EXIT (R122). -/
def execExit (h : Hd) (s : State) : Out := .next (doExit h s)
/-- MCTL.LOAD (R112). -/
def execMctlLoad (h : Hd) (d a : RegF) (s : State) : Out := .next (doMctlLoad h d a s)
/-- MCTL.CLEAR (R112). -/
def execMctlClear (h : Hd) (a : RegF) (s : State) : Out := .next (doMctlClear h a s)
/-- MCTL.QUERY (R112). -/
def execMctlQuery (h : Hd) (d a : RegF) (s : State) : Out := .next (doMctlQuery h d a s)
/-- MCALL (R113). -/
def execMcall (h : Hd) (d a b : RegF) (l : Word) (s : State) : Out := .next (doMcall h d a b l s)
/-- A word with OP 0x00 or a reserved OP (R59). -/
def execReservedOpcode (w : Word) (s : State) : Out := .next (doReserved cILLOP w s)
/-- A word with a reserved sub-operation code (R58). -/
def execReservedSubOperation (w : Word) (s : State) : Out := .next (doReserved (reservedCause w) w s)
/-- EXIT_RETIRE (R122): the selection names the team. -/
def execExitRetire (s : State) : Out := .next (s.withTeam s.sel.unit exitRetire)
/-- MCTL_LOAD_COMMIT (R112): the selection names the team. -/
def execMctlLoadCommit (s : State) : Out := .next (mctlCommit s.sel.unit s)
/-- INSTRUCTION_FETCH (R53): the selection names the team. -/
def execInstructionFetch (s : State) : Out := .next (s.withTeam s.sel.unit fetchNext)
/-- TEAM_PROMOTED (R177): the selection names the team. -/
def execTeamPromoted (s : State) : Out := .next (s.withTeam s.sel.unit promote)
/-- TRAP_ENTRY (R344): the selection names the team; it enters its trap once it has drained. -/
def execTrapEntry (s : State) : Out :=
  .next (s.withTeam s.sel.unit fun s => if s.team.park = .trap ∧ drained s.team then enterTrap s else s)

end Sys2Proof.Machine
end

