-- ==== Sys2Proof/Machine/CrossLane.lean ====
section
/-!
DEFINITION. Cross-lane instructions (chapter 08): votes, shuffles, scans, reductions, ranking and TOPK over partition tiles. PTN stands in
Integer.lean.
-/

namespace Sys2Proof.Machine

/-- A fold of R190: the value of the empty list and the combination of the listed values. -/
def foldAdd (l : List Word) : Word := l.foldl (· + ·) 0
def foldFadd (l : List Word) : Word := rne32 (exactSum (l.map dec32))
def foldMin (l : List Word) : Word := l.foldl (fun a b => if a.toInt ≤ b.toInt then a else b) 0x7FFFFFFF#32
def foldMax (l : List Word) : Word := l.foldl (fun a b => if a.toInt ≤ b.toInt then b else a) 0x80000000#32
def foldAnd (l : List Word) : Word := l.foldl (· &&& ·) 0xFFFFFFFF#32
def foldOr (l : List Word) : Word := l.foldl (· ||| ·) 0
def foldXor (l : List Word) : Word := l.foldl (· ^^^ ·) 0

/-- The place of a value in the order of R191, greatest first: a NaN, then the ordered bits of FP32. -/
def rankKey (w : Word) : Nat :=
  if (dec32 w).isNan then 2 ^ 33
  else if w.getLsbD 31 then 2 ^ 32 - 1 - w.toNat else w.toNat + 2 ^ 31

/-- Lanes with their values in the order of R191; ties go to the lower lane. -/
def rankSort (l : List (Nat × Word)) : List (Nat × Word) := sortBy (fun x y => rankKey y.2 ≤ rankKey x.2) l

/-- A chosen value: a NaN is written as the canonical NaN (R192). -/
def rankValue (w : Word) : Word := if (dec32 w).isNan then canonNan else w

/-- RED.MAXI's choice and RED.MINI's (R192). -/
def rankMax (l : List (Nat × Word)) : Nat × Word := (rankSort l).headD (0, 0)
def rankMin (l : List (Nat × Word)) : Nat × Word :=
  match l.find? fun p => (dec32 p.2).isNan with
  | some p => p
  | none => (sortBy (fun x y => rankKey x.2 ≤ rankKey y.2) l).headD (0, 0)

/-- The tiles of an instruction: the whole team under a scalar D (R182, R185). -/
def opTiles (s : State) (whole : Bool) : List (List Nat) :=
  if whole then [lanesOf s.team.active] else tilesOf (tileSize s.team.ptile.toNat) (lanesOf s.team.active)

/-- The position of a lane in its tile; its lane index under a scalar D (R182, R192). -/
def posOf (s : State) (whole : Bool) (l : Nat) : Nat := if whole then l else l % tileSize s.team.ptile.toNat

/-- VOTE and RED (R184, R185, R195): for each tile the values that a receiving lane takes, `nd` registers of D. A scalar D takes what lane 0
of the list would. A scalar or special A is broadcast: every member offers the same value (R14, R185), for `lane` and `gidx` the one that a
uniform instruction reads (R155, log entry 46). -/
def doTile (h : Hd) (d a : RegF) (nd : Nat) (small base step : Nat)
    (f : State → Bool → List (Nat × Word) → Nat → Nat → Word) (s : State) : State :=
  withOps 4 false [src a, if nd = 2 then dstPair d else dst d] s fun s =>
    let sc := isScalar d
    let lanes := lanesOf s.team.active
    let ws := (opTiles s sc).flatMap fun tile =>
      let vals := tile.map fun l => (l, rdc s a l)
      writesOfN s d.toNat nd (if sc then tile.take 1 else tile) fun k l => f s sc vals k l
    issueLong 4 h (passesOf s.team) false (codesOf s d nd) ws (crossDelay s sc small base step)
      (applyHints h a 1 a 0 lanes) s

/-- The ballot of a receiving lane, and of the whole team by groups (R186). -/
def ballot (sc : Bool) (vals : List (Nat × Word)) (l : Nat) : Word :=
  w32 ((vals.filter fun p => p.2 ≠ 0 ∧ (sc ∨ p.1 / 32 = l / 32)).foldl
    (fun acc p => acc ||| 2 ^ (if sc then p.1 / 32 else p.1 % 32)) 0)

/-- The values of a VOTE, by code (R186). -/
def voteFn (code : Nat) (_s : State) (sc : Bool) (vals : List (Nat × Word)) (_k l : Nat) : Word :=
  let yes := vals.filter fun p => p.2 ≠ 0
  match code with
  | 0 => boolWord (!yes.isEmpty)
  | 1 => boolWord (decide (yes.length = vals.length))
  | 2 => ballot sc vals l
  | 3 => w32 yes.length
  | 4 => boolWord (vals.all fun p => p.2 == (vals.headD (0, 0)).2)
  | _ => (vals.headD (0, 0)).2

def doVote (h : Hd) (d a : RegF) (code : Nat) (s : State) : State := doTile h d a 1 4 6 2 (voteFn code) s

/-- A folding RED (R189). -/
def doRed (h : Hd) (d a : RegF) (fadd : Bool) (f : List Word → Word) (s : State) : State :=
  doTile h d a 1 (if fadd then 6 else 4) (if fadd then 10 else 6) 2 (fun _ _ vals _ _ => f (vals.map (·.2))) s

/-- RED.MAXI and RED.MINI (R192). -/
def doRank (h : Hd) (d a : RegF) (f : List (Nat × Word) → Nat × Word) (s : State) : State :=
  doTile h d a 2 4 6 2 (fun s sc vals k _ =>
    let c := f vals
    if k = 0 then rankValue c.2 else w32 (posOf s sc c.1)) s

/-- SHFL and SHFX (R187). -/
def doShf (h : Hd) (d a b : RegF) (x : Bool) (s : State) : State :=
  withOps 4 false [src a, src b, dst d] s fun s =>
    if isScalar d then trapI cILLOPND 4 (begin 1 s)
    else
      let lanes := lanesOf s.team.active
      let z := tileSize s.team.ptile.toNat
      let ws := writesOf s d.toNat lanes fun l =>
        let q := (rdv s b l).toNat % z
        let from_ := l / z * z + if x then (l % z) ^^^ q else q
        if s.team.active.getLsbD from_ then rdc s a from_ else rdc s a l
      issueLong 4 h (passesOf s.team) false (codesOf s d 1) ws (crossDelay s false 4 6 2) (applyHints h a 1 b 1 lanes) s

/-- SCAN (R188). -/
def doScan (h : Hd) (d a : RegF) (e fadd : Bool) (f : List Word → Word) (s : State) : State :=
  withOps 4 false [src a, dst d] s fun s =>
    if isScalar d then trapI cILLOPND 4 (begin 1 s)
    else
      let lanes := lanesOf s.team.active
      let ws := (opTiles s false).flatMap fun tile =>
        writesOf s d.toNat tile fun l => f ((tile.filter fun m => if e then m < l else m ≤ l).map fun m => rdc s a m)
      issueLong 4 h (passesOf s.team) false (codesOf s d 1) ws
        (crossDelay s false (if fadd then 6 else 4) (if fadd then 10 else 6) 2) (applyHints h a 1 a 0 lanes) s

/-- TOPK (R193, R194). TOPK is not uniform and asks for one k: that a B naming `lane` or `gidx` is read once, in the lowest active lane, is the
model's choice (log entry 46). -/
def doTopk (h : Hd) (d a b : RegF) (s : State) : State :=
  withOps 4 false [src a, src b, dstPair d] s fun s =>
    if isScalar d ∨ isVec b then trapI cILLOPND 4 (begin 1 s)
    else
      let k := (rdu s b).toNat
      let z := tileSize s.team.ptile.toNat
      if k < 1 ∨ 8 < k ∨ z < k then trapI cILLOPND 4 (begin 1 s)
      else
        let lanes := lanesOf s.team.active
        let ws := (opTiles s false).flatMap fun tile =>
          let c := rankSort (tile.map fun l => (l, rdc s a l))
          writesOfN s d.toNat 2 tile fun r l =>
            let p := l % z
            if p < k ∧ p < c.length then
              let w := c.getD p (0, 0)
              if r = 0 then rankValue w.2 else w32 (w.1 % z)
            else if r = 0 then fNegInf else 0xFFFFFFFF#32
        issueLong 4 h (passesOf s.team) false (codesOf s d 2) ws (crossDelay s false 10 14 4) (applyHints h a 1 b 1 lanes) s

/-! ### Meanings -/

/-- VOTE.ANY (R186). -/
def execVoteAny (h : Hd) (d a : RegF) (s : State) : Out := .next (doVote h d a 0 s)
/-- VOTE.ALL (R186). -/
def execVoteAll (h : Hd) (d a : RegF) (s : State) : Out := .next (doVote h d a 1 s)
/-- VOTE.BALLOT (R186). -/
def execVoteBallot (h : Hd) (d a : RegF) (s : State) : Out := .next (doVote h d a 2 s)
/-- VOTE.CNT (R186). -/
def execVoteCnt (h : Hd) (d a : RegF) (s : State) : Out := .next (doVote h d a 3 s)
/-- VOTE.UNI (R186). -/
def execVoteUni (h : Hd) (d a : RegF) (s : State) : Out := .next (doVote h d a 4 s)
/-- VOTE.FIRST (R186). -/
def execVoteFirst (h : Hd) (d a : RegF) (s : State) : Out := .next (doVote h d a 5 s)
/-- SHFL (R187). -/
def execShfl (h : Hd) (d a b : RegF) (s : State) : Out := .next (doShf h d a b false s)
/-- SHFX (R187). -/
def execShfx (h : Hd) (d a b : RegF) (s : State) : Out := .next (doShf h d a b true s)
/-- SCAN.ADD (R188, R190). -/
def execScanAdd (h : Hd) (d a : RegF) (e : Bool) (s : State) : Out := .next (doScan h d a e false foldAdd s)
/-- SCAN.FADD (R188, R190). -/
def execScanFadd (h : Hd) (d a : RegF) (e : Bool) (s : State) : Out := .next (doScan h d a e true foldFadd s)
/-- SCAN.MIN (R188, R190). -/
def execScanMin (h : Hd) (d a : RegF) (e : Bool) (s : State) : Out := .next (doScan h d a e false foldMin s)
/-- SCAN.MAX (R188, R190). -/
def execScanMax (h : Hd) (d a : RegF) (e : Bool) (s : State) : Out := .next (doScan h d a e false foldMax s)
/-- SCAN.AND (R188, R190). -/
def execScanAnd (h : Hd) (d a : RegF) (e : Bool) (s : State) : Out := .next (doScan h d a e false foldAnd s)
/-- SCAN.OR (R188, R190). -/
def execScanOr (h : Hd) (d a : RegF) (e : Bool) (s : State) : Out := .next (doScan h d a e false foldOr s)
/-- SCAN.XOR (R188, R190). -/
def execScanXor (h : Hd) (d a : RegF) (e : Bool) (s : State) : Out := .next (doScan h d a e false foldXor s)
/-- RED.ADD (R189, R190). -/
def execRedAdd (h : Hd) (d a : RegF) (s : State) : Out := .next (doRed h d a false foldAdd s)
/-- RED.FADD (R189, R190). -/
def execRedFadd (h : Hd) (d a : RegF) (s : State) : Out := .next (doRed h d a true foldFadd s)
/-- RED.MIN (R189, R190). -/
def execRedMin (h : Hd) (d a : RegF) (s : State) : Out := .next (doRed h d a false foldMin s)
/-- RED.MAX (R189, R190). -/
def execRedMax (h : Hd) (d a : RegF) (s : State) : Out := .next (doRed h d a false foldMax s)
/-- RED.AND (R189, R190). -/
def execRedAnd (h : Hd) (d a : RegF) (s : State) : Out := .next (doRed h d a false foldAnd s)
/-- RED.OR (R189, R190). -/
def execRedOr (h : Hd) (d a : RegF) (s : State) : Out := .next (doRed h d a false foldOr s)
/-- RED.XOR (R189, R190). -/
def execRedXor (h : Hd) (d a : RegF) (s : State) : Out := .next (doRed h d a false foldXor s)
/-- RED.MAXI (R192). -/
def execRedMaxi (h : Hd) (d a : RegF) (s : State) : Out := .next (doRank h d a rankMax s)
/-- RED.MINI (R192). -/
def execRedMini (h : Hd) (d a : RegF) (s : State) : Out := .next (doRank h d a rankMin s)
/-- TOPK (R193, R194). -/
def execTopk (h : Hd) (d a b : RegF) (s : State) : Out := .next (doTopk h d a b s)

end Sys2Proof.Machine
end

