-- ==== Sys2Proof/Machine/Queues.lean ====
section
/-!
DEFINITION. Cellar queues (R310 to R312): QOP, the requests that reach a queue and their service, pushes from the fabric.
-/

namespace Sys2Proof.Machine

/-! ### Entries -/

/-- Whether a queue has room for an entry. -/
def queueRoom (q : Queue) : Bool := decide (q.entries.length < q.cap)

/-- A queue accepts an entry: its timestamp and the gap bit, which is cleared (R310). -/
def acceptEntry (q : Nat) (data : BitVec 128) (time : Nat) (source : Option Nat) (s : State) : State :=
  s.onQueue q fun x => { x with
    entries := x.entries ++ [{ data := data, time := BitVec.ofNat 63 time, gap := x.gap, source := source }]
    gap := false, accepted := (x.accepted + 1) % 2 ^ 32 }

/-- The six words that a pop writes for an entry, and those of an empty queue (R311, R312). -/
def entryWords (e : QEntry) : List Word :=
  let t := e.time.toNat + (if e.gap then 2 ^ 63 else 0)
  (List.range 4).map (fun k => w32 (e.data.toNat / 2 ^ (32 * k))) ++ [w32 t, w32 (t / 2 ^ 32)]

/-- The writes of an entry into six registers of a lane. -/
def entryWrites (regs : List Nat) (lane : Nat) (e : QEntry) : List RegWrite :=
  (regs.zip (entryWords e)).map fun p => ⟨lane, p.1, p.2⟩

/-- The writes of a lane that finds the queue empty: D..D+3 are kept. -/
def emptyWrites (regs : List Nat) (lane : Nat) : List RegWrite := (regs.drop 4).map fun r => ⟨lane, r, 0xFFFFFFFF#32⟩

/-- The team id that stands for an ingest gateway: after every team in the key order of R252. -/
def gatewayTid : Nat := 2 ^ 22

/-- A request reaches a queue: its place follows the ac of its arrival and, in one ac, the key order of R252 (R312). -/
def reachQueue (q : Nat) (r : QReq) (s : State) : State :=
  s.onQueue q fun x => { x with waiters := insertBy (fun a b => keyLe [a.arr, a.tid] [b.arr, b.tid]) r x.waiters }

/-- The request of the focused team that has issued an instruction of `p` passes. -/
def requestOf (s : State) (p tag : Nat) (nb : Bool) (op : QOp) : QReq :=
  { tid := s.team.tid, uid := teamUid s.team, arr := s.ac + (p - 1), tag := tag, nb := nb, op := op }

/-! ### QOP (R311) -/

/-- Whether a field may be the base of six registers (R311). -/
def sixOk (f : RegF) : Bool := decide (f.toNat ≤ 90) || (isScalar f && f.toNat % 4 == 0 && decide (f.toNat + 6 ≤ 120))

/-- The checks that QOP and TASK share: the queue number and, by kind and owner, PROT. -/
def withQueue (len : Nat) (a : RegF) (kinds : List Nat) (block : Bool) (s : State) (k : Nat → State → State) : State :=
  let q := (rdu s a).toNat
  if isVec a ∨ 4096 ≤ q ∨ (block ∧ s.team.hmode) then trapI cILLOPND len (begin 1 s)
  else if !kinds.contains (s.queue q).kind ∨ (s.queue q).owner ≠ s.myCtx then trapAll { cause := cPROT } len (begin 1 s)
  else k q s

/-- The entry that a lane pushes. -/
def pushData (s : State) (d : RegF) (lane : Nat) : BitVec 128 := rdn s d 3 lane ++ rdn s d 2 lane ++ rdn s d 1 lane ++ rdn s d 0 lane

/-- A blocking form parks its team (R312). -/
def parkQueue (q : Nat) (nb : Bool) (s : State) : State := if nb then s else parkAt (.queue q) s

/-- QOP.PUSH (R311, R312): a release at DEV. -/
def doPush (h : Hd) (d a : RegF) (nb : Bool) (s : State) : State :=
  let u := isScalar d
  withOps 4 u [src a, { f := d.toNat, n := 4, ok := quadOk d }] s fun s =>
    withQueue 4 a [1] (!nb) s fun q s =>
      if orderWaits s true then stallOn 0x02 s
      else
        let lanes := execLanes s u
        let es := lanes.map (pushData s d)
        let p := passes s u
        let s := releaseCache s.myCore 4 ((begin p s).onTeam (applyHints h a 1 a 0 lanes))
        let (tag, s) := s.takeTag
        let s := reachQueue q (requestOf s p tag nb (.push es none)) (addToken { tag := tag, left := 1, due := s.ac + (p - 1) } s)
        parkQueue q nb (finish h 4 s)

/-- QOP.POP (R311, R312): an acquire at DEV. -/
def doPop6 (h : Hd) (d a : RegF) (nb : Bool) (s : State) : State :=
  let u := isScalar d
  withOps 4 u [src a, { f := d.toNat, n := 6, ok := sixOk d, rd := false, wr := true }] s fun s =>
    withQueue 4 a [1] (!nb) s fun q s =>
      if acqPending s.team then stallOn 0x02 s
      else if pendCount s.team + 6 > 16 then stallOn 0x06 s
      else
        let lanes := execLanes s u
        let regs := codesOf s d 6
        let p := passes s u
        let pc := s.team.pc
        let (tag, s) := ((begin p s).onTeam (applyHints h a 1 a 0 lanes)).takeTag
        let s := addPend { tag := tag, pc := pc, regs := regs, missing := lanes.length, due := s.ac + (p - 1), acq := some 4 } s
        parkQueue q nb (finish h 4 (reachQueue q (requestOf s p tag nb (.pop lanes regs)) s))

/-- QOP.COUNT (R311). -/
def doCount (h : Hd) (d a : RegF) (s : State) : State :=
  let u := isScalar d
  withOps 4 u [src a, dst d] s fun s =>
    withQueue 4 a [1, 2] false s fun q s =>
      if pendCount s.team + 1 > 16 then stallOn 0x06 s
      else
        let lanes := execLanes s u
        let p := passes s u
        let pc := s.team.pc
        let code := regCode s.team d.toNat
        let (tag, s) := ((begin p s).onTeam (applyHints h a 1 a 0 lanes)).takeTag
        let s := addPend { tag := tag, pc := pc, regs := [code], missing := 1, due := s.ac + (p - 1) } s
        finish h 4 (reachQueue q (requestOf s p tag true (.count (if u then [0] else lanes) code)) s)

/-! ### The queue unit (R312, R314) -/

/-- Whether a request goes on now: a push that finds room, a pop that finds an entry, a non-blocking form and a count always. -/
def reqGoes (x : Queue) (r : QReq) : Bool :=
  match r.op with
  | .pop _ _ => r.nb || !x.entries.isEmpty
  | .push _ _ => r.nb || queueRoom x
  | .count _ _ => true

/-- The request of a queue that is served next: of those that had arrived before this ac, the first that goes on. -/
def nextReq (ac : Nat) (x : Queue) : Option QReq := x.waiters.find? fun r => decide (r.arr < ac) && reqGoes x r

/-- Whether the unit of the queue's base die serves a request now: one lane for each ac, in the order of R252 over its queues (R314). -/
def unitTurn (s : State) (q : Nat) (r : QReq) : Bool :=
  decide (mget 0 s.queueFree (q / 256) ≤ s.ac) && s.queues.all fun p =>
    p.1 == q || p.1 / 256 != q / 256 || match nextReq s.ac p.2 with
      | some o => !keyLe [o.arr, o.tid] [r.arr, r.tid]
      | none => true

/-- The served request with what is left of it; nothing left of it when `op` is none. -/
def keepReq (q : Nat) (r : QReq) (op : Option QOp) (s : State) : State :=
  s.onQueue q fun x => { x with waiters := x.waiters.filterMap fun w =>
    if w.tag = r.tag ∧ w.tid = r.tid then op.map fun o => { w with op := o } else some w }

/-- The writes and counts of a served request reach the result of its team. -/
def servePend (r : QReq) (f : Pend → Pend) (s : State) : State :=
  s.withTeam r.tid fun s => s.onTeam fun t => { t with pend := t.pend.map fun p => if p.tag = r.tag then f p else p }

/-- A request has been served to the end: its result lands, or its acceptance is complete, and a team parked on it is woken (R312). A push of a team
that has ended is one of the stores that its block still waits for (R160). -/
def endReq (q : Nat) (r : QReq) (s : State) : State :=
  let served := fun (k : Token) => if k.tag = r.tag then { k with left := 0 } else k
  onTokens (·.map served) (s.withTeam r.tid fun s =>
    if !(s.team.pend.any (·.tag == r.tag) || s.team.stores.any (·.tag == r.tag)) then s
    else
      let s := s.onTeam fun t => { t with stores := t.stores.map served }
      let s := acceptStore r.tag (landPend r.tag s)
      if s.team.park = .queue q then unpark s else s)

/-- The unit takes the next entry of a push (R310, R312, R314): it accepts it, or refuses that of a non-blocking push that finds no room, which
sets GAP. -/
def servePush (q : Nat) (r : QReq) (es : List (BitVec 128)) (task : Option Nat) (s : State) : State :=
  match es with
  | [] => endReq q r (keepReq q r none s)
  | e :: es =>
    let s := if queueRoom (s.queue q) then
        let s := acceptEntry q e (r.time.getD s.fabricTime) (task.map fun _ => r.uid) s
        let n := w32 (s.queue q).accepted
        match task with
        | some code => servePend r (fun p => { p with missing := 0, writes := [⟨0, code, n⟩], due := min p.due s.ac }) s
        | none => s
      else s.onQueue q fun x => { x with gap := true }
    if es.isEmpty then endReq q r (keepReq q r none s) else keepReq q r (some (.push es task)) s

/-- Whether some lane of a pop has had an entry: a lane without one has no write of the first register (R312). -/
def popFound (regs : List Nat) (ws : List RegWrite) : Bool := ws.any fun w => regs.head? == some w.reg

/-- The unit serves the next lane of a pop with the oldest entry (R314); a lane of a non-blocking pop that finds none keeps D..D+3 (R312). The pop
is an acquire when some lane has an entry. -/
def serveLane (q : Nat) (r : QReq) (lanes regs : List Nat) (s : State) : State :=
  match lanes with
  | [] => endReq q r (keepReq q r none s)
  | l :: ls =>
    let x := s.queue q
    let ws := match x.entries with
      | [] => emptyWrites regs l
      | e :: _ => entryWrites regs l e
    let s := (keepReq q r (if ls.isEmpty then none else some (.pop ls regs)) s).onQueue q fun x => { x with entries := x.entries.drop 1 }
    let s := servePend r (fun p =>
      let ws := p.writes ++ ws
      { p with missing := ls.length, writes := ws, due := min p.due s.ac
               acq := if ls.isEmpty ∧ !popFound regs ws then none else p.acq }) s
    if ls.isEmpty then endReq q r s else s

/-- One lane of a request is served. -/
def serveReq (q : Nat) (r : QReq) (s : State) : State :=
  let s := { s with queueFree := mput s.queueFree (q / 256) (s.ac + 1) }
  match r.op with
  | .push es task => servePush q r es task s
  | .pop ls regs => serveLane q r ls regs s
  | .count ls code =>
    let n := w32 (s.queue q).entries.length
    endReq q r (servePend r (fun p => { p with missing := 0, writes := ls.map fun l => ⟨l, code, n⟩, due := min p.due s.ac }) (keepReq q r none s))

/-- Whether a request is a push. -/
def QReq.isPush (r : QReq) : Bool :=
  match r.op with
  | .push _ _ => true
  | _ => false

/-- The next request of a queue is served when it is a push, or no push, as `push` says. -/
def serveQueue (push : Bool) (q : Nat) (s : State) : State :=
  match nextReq s.ac (s.queue q) with
  | none => s
  | some r => if r.isPush = push ∧ unitTurn s q r then serveReq q r s else s

/-- A TASK whose entry finds its queue full parks its team (R306). -/
def parkTasks (s : State) : State :=
  s.queues.foldl (fun s x =>
    if queueRoom x.2 then s
    else x.2.waiters.foldl (fun s r =>
      match r.op with
      | .push _ (some _) =>
        if s.ac < r.arr then s
        else s.withTeam r.tid fun s =>
          if s.team.park = .run ∧ s.team.pend.any (·.tag == r.tag) then s.onTeam fun t => { t with park := .queue x.1 } else s
      | _ => s) s) s

/-- A push from a fabric ingest gateway, with its own timestamp, reaches a general queue through a port; refused, it sets GAP (R310). -/
def gatewayPush (q : Nat) (s : State) : State :=
  if (s.queue q).kind ≠ 1 ∨ !s.linked then s
  else
    let (tag, s) := s.heard.takeTag
    reachQueue q { tid := gatewayTid, arr := s.ac, tag := tag, nb := true, time := some s.sel.word,
                   op := .push [s.sel.pkt.extractLsb' 0 128] none } s

/-! ### Meanings -/

/-- QOP.PUSH (R311). -/
def execQopPush (h : Hd) (d a : RegF) (n : Bool) (s : State) : Out := .next (doPush h d a n s)
/-- QOP.POP (R311). -/
def execQopPop (h : Hd) (d a : RegF) (n : Bool) (s : State) : Out := .next (doPop6 h d a n s)
/-- QOP.COUNT (R311). -/
def execQopCount (h : Hd) (d a : RegF) (s : State) : Out := .next (doCount h d a s)
/-- QUEUE_POP_SERVE (R312): the selection names the queue, whose next request is a pop or a count. -/
def execQueuePopServe (s : State) : Out := .next (serveQueue false s.sel.unit s)
/-- QUEUE_PUSH_ACCEPT (R312): the selection names the queue, whose next request is a push. -/
def execQueuePushAccept (s : State) : Out := .next (serveQueue true s.sel.unit s)
/-- GATEWAY_PUSH (R310): the selection names the queue, the timestamp and, in its packet, the entry. -/
def execGatewayPush (s : State) : Out := .next (gatewayPush s.sel.unit s)

end Sys2Proof.Machine
end

