-- ==== Sys2Proof/Machine/Saved.lean ====
section
/-!
DEFINITION. The record of a saved block in the context's save area (R361): its bytes, field by field.
-/

namespace Sys2Proof.Machine

/-- The 128 bits of a translation register (R238). -/
def tregBits (x : TReg) : Nat :=
  x.base.toNat + x.psz.toNat * 2 ^ 74 + x.frame.toNat * 2 ^ 76 + x.ncm.toNat * 2 ^ 120 + x.w.toNat * 2 ^ 121 + x.r.toNat * 2 ^ 122 +
    x.v.toNat * 2 ^ 123

/-- A mask in its hierarchical form: SUMMARY, then the 32 words (R11). -/
def maskBytes (m : Mask) : List Byte :=
  let words := (List.range 32).map (maskWord m)
  leBytes 4 ((words.zipIdx.map fun p => if p.1 = 0 then 0 else 2 ^ p.2).foldl (· + ·) 0) ++ words.flatMap (leBytes 4)

/-- An entry of the reconvergence stack. -/
def rentryBytes (e : REntry) : List Byte :=
  leBytes 8 (e.pc.toNat + e.pending.toNat * 2 ^ 63) ++ maskBytes e.mask ++ leBytes 4 e.fmt.toNat

/-- A number rounded up to a multiple of 128. -/
def up128 (n : Nat) : Nat := (n + 127) / 128 * 128

/-- Bytes filled up with 0 to a multiple of 128. -/
def pad128 (bs : List Byte) : List Byte := padTo (up128 bs.length) bs

/-- The fixed part of a team record, 704 bytes, and its reconvergence stack, the bottom entry first. -/
def teamHead (t : Team) : List Byte :=
  leBytes 8 t.pc.toNat ++ leBytes 4 t.tstat.toNat ++ leBytes 4 t.fmt.toNat ++ leBytes 1 t.wbase ++ leBytes 1 t.ptile.toNat ++ leBytes 1 t.role ++
    leBytes 1 t.nregs ++ leBytes 2 t.lanes ++ leBytes 1 t.cstack.length ++ leBytes 1 t.rstack.length ++ leBytes 4 t.sdead.toNat ++ leBytes 4 0 ++
    leBytes 8 t.barPend.toNat ++ leBytes 8 t.barPhase.toNat ++ t.s.toList.flatMap (fun w => leBytes 4 w.toNat) ++
    t.shadow.toList.flatMap (fun w => leBytes 4 w.toNat) ++ t.x.toList.flatMap (fun x => leBytes 16 (tregBits x)) ++
    padTo 128 (t.cstack.reverse.flatMap fun a => leBytes 8 a.toNat) ++ maskBytes t.live ++ maskBytes t.active ++ leBytes 8 t.rwc.toNat ++
    t.rstack.reverse.flatMap rentryBytes

/-- The register file of a team record: register r of lane l at 4 × (r × LANES + l); then the dead flags, bit r × LANES + l. -/
def teamRegs (t : Team) : List Byte :=
  let at_ := (List.range (vatRegs t)).flatMap fun r => (List.range t.lanes).map fun l => l * 512 + r
  let dead := (at_.zipIdx.map fun p => if mget false t.vdead p.1 then 2 ^ p.2 else 0).foldl (· + ·) 0
  at_.flatMap (fun k => leBytes 4 (mget 0 t.v k).toNat) ++ leBytes ((at_.length + 7) / 8) dead

/-- A team record. -/
def teamRecord (t : Team) : List Byte := pad128 (pad128 (teamHead t) ++ teamRegs t)

/-- Where the first team record stands, and the copy of the vault region after the team records. -/
def recordTroff : Nat := 384
def recordVoff (ts : List Team) : Nat := recordTroff + (ts.map fun t => (teamRecord t).length).foldl (· + ·) 0

/-- The record of a block with its teams, in ascending role, and the bytes of its region. -/
def savedRecord (b : Block) (ts : List Team) (vault : List Byte) : List Byte :=
  padTo recordTroff
    (leBytes 8 b.lin ++ leBytes 4 b.vbytes ++ leBytes 1 ts.length ++ leBytes 1 b.member ++ leBytes 2 b.bondSize ++
      (List.range 64).flatMap (fun i => leBytes 4 (mget 0 b.barw i).toNat) ++ leBytes 4 recordTroff ++ leBytes 4 (recordVoff ts) ++
      leBytes 8 (recordVoff ts + b.vbytes)) ++
    ts.flatMap teamRecord ++ vault

/-- The copy of the vault region that a record holds: VBYTES bytes at VOFF. -/
def savedVault (sb : SavedBlock) : List Byte := (sb.record.drop (fieldAt sb.record 276 4)).take (fieldAt sb.record 8 4)

end Sys2Proof.Machine
end

