-- ==== Sys2Proof/Machine/Sync.lean ====
section
/-!
DEFINITION. FENCE (R259, R260), block barriers (R264 to R266), WBAR and the end of its phase (R267, R268, R270).
-/

namespace Sys2Proof.Machine

/-! ### FENCE -/

/-- FENCE (R259, R260): kinds 0 SC, 1 acquire, 2 release, 3 both. -/
def doFence (h : Hd) (kind : Nat) (c : BitVec 3) (s : State) : State :=
  if 6 ≤ c.toNat then trapI cILLOPND 4 (begin 1 s)
  else parkAt (.fence kind c.toNat) (finish h 4 (begin 1 s))

/-- The fence's actions complete and the team goes on (R260, R275). -/
def fenceEnd (s : State) : State :=
  match s.team.park with
  | .fence kind scope =>
    let rel := kind ≠ 1
    let acq := kind ≠ 2
    if (rel ∧ !memDrained s.team) ∨ s.team.pend.any (fun p => p.mem || p.acq.isSome) then s
    else
      let s := if rel then releaseCache s.myCore scope s else s
      let s := if acq then acquireCache s.myCore scope s else s
      unpark s
  | _ => s

/-! ### Block barriers -/

/-- Fields of a barrier word (R264). -/
def barPhaseOf (w : Word) : Bool := w.getLsbD 31
def barTarget (w : Word) : Nat := bitsOf w.toNat 30 16
def barArrived (w : Word) : Nat := bitsOf w.toNat 15 0
def barWord (phase : Bool) (target arrived : Nat) : Word :=
  w32 ((if phase then 2 ^ 31 else 0) + target % 2 ^ 15 * 2 ^ 16 + arrived % 2 ^ 16)

/-- The barrier word of the team's block. -/
def barAt (s : State) (i : Nat) : Word := mget 0 s.myBlock.barw i

/-- Sets or clears bit `i` of a barrier record (R265). -/
def recSet (r : BitVec 64) (i : Nat) (v : Bool) : BitVec 64 :=
  if v then r ||| BitVec.ofNat 64 (2 ^ i) else r &&& ~~~ BitVec.ofNat 64 (2 ^ i)

/-- A team parked on word `i` of a block wakes when its phase completes (R266). -/
def barWake (ac k i : Nat) (t : Team) : Team :=
  match t.park with
  | .bar w _ => if t.blk = k ∧ w = i then unparked ac { t with barPend := recSet t.barPend i false } else t
  | _ => t

/-- ARRIVE on word `i` (R266). -/
def barArrive (i tgt : Nat) (s : State) : State :=
  let w := barAt s i
  let ph := barPhaseOf w
  let target := if barTarget w = 0 then tgt else barTarget w
  let n := barArrived w + 1
  let s := s.onTeam fun t => { t with barPend := recSet t.barPend i true, barPhase := recSet t.barPhase i ph }
  let k := s.team.blk
  if n = target then
    let s := s.onBlock k fun b => { b with barw := mset 0 b.barw i (barWord (!ph) target 0) }
    { s with team := barWake s.ac k i s.team, teams := mmap (barWake s.ac k i) s.teams }
  else s.onBlock k fun b => { b with barw := mset 0 b.barw i (barWord ph target n) }

/-- WAIT on word `i`, at the end of the instruction (R266). -/
def barWait (i : Nat) (s : State) : State :=
  let ph := s.team.barPhase.getLsbD i
  if !s.team.barPend.getLsbD i ∨ barPhaseOf (barAt s i) ≠ ph then s.onTeam fun t => { t with barPend := recSet t.barPend i false }
  else parkAt (.bar i ph) s

/-- BAR (R266): `arr` and `wt` say which parts it has. -/
def doBar (h : Hd) (d a : RegF) (arr wt : Bool) (s : State) : State :=
  withOps 4 false ([src a] ++ if arr then [src d] else []) s fun s =>
    if isVec a ∨ (arr ∧ isVec d) ∨ (wt ∧ s.team.hmode) then trapI cILLOPND 4 (begin 1 s)
    else
      let i := (rdu s a).toNat
      if s.myBlock.barriers ≤ i then trapI cILLOPND 4 (begin 1 s)
      else
        let tgt := (rdu s d).toNat % 2 ^ 15
        let old := barTarget (barAt s i)
        if arr ∧ (tgt = 0 ∨ (old ≠ 0 ∧ old ≠ tgt)) then trapI cILLOPND 4 (begin 1 s)
        else if arr ∧ orderWaits s true then stallOn 0x02 s
        else
          let s := (begin 1 s).onTeam (applyHints h a 1 a 0 [])
          let s := if arr then barArrive i tgt s else s
          let s := finish h 4 s
          if wt then barWait i s else s

/-! ### Wide barriers -/

/-- WBAR (R267, R268). The spec does not say whether a teammate that has issued WBAR on another id and still drains counts as parked there; that it
does, so that this WBAR traps, is the model's choice (log entry 69). -/
def doWbar (h : Hd) (a : RegF) (s : State) : State :=
  withOps 4 false [src a] s fun s =>
    let b := s.myBlock
    let w := (rdu s a).toNat
    let other := s.allTeams.any fun t => t.blk == s.team.blk && t.tid != s.team.tid &&
      match t.park with
      | .wbar v => v != w
      | .wbarDrain v => v != w
      | _ => false
    if isVec a ∨ s.myGrid.launch.wbars ≤ w ∨ b.kind ≠ .grid ∨ other ∨ s.team.hmode then trapI cILLOPND 4 (begin 1 s)
    else
      let s := (begin 1 s).onTeam (applyHints h a 1 a 0 [])
      let s := finish { h with sw := false } 4 s
      if drained s.team then parkWbar w s else parkAt (.wbarDrain w) s

/-- Whether a block has arrived at a wide barrier (R268): every team that has not ended is parked there. -/
def arrivedAt (s : State) (k w : Nat) : Bool :=
  let ts := s.allTeams.filter fun t => t.blk == k
  !ts.isEmpty && ts.all fun t => t.park == .wbar w

/-- The blocks of a grid that are placed and not ended. -/
def gridBlocks (s : State) (g : Nat) : List (Nat × Block) :=
  s.blocks.filter fun (_, b) => b.kind == .grid && b.grid == g && b.phase != .ended && b.phase != .saved

/-- The number of blocks of a grid. -/
def gridSize (g : Grid) : Nat := g.launch.gx * g.launch.gy * g.launch.gz

/-- Whether the phase of a wide barrier ends (R268). -/
def phaseEnds (s : State) (g w : Nat) : Bool :=
  let x := s.grid g
  let here := gridBlocks s g
  decide (gridSize x ≤ x.nextBlk) && x.restore.isEmpty && (here.all fun (k, b) => b.phase == .running && arrivedAt s k w) &&
    (x.saved.all fun b => b.wbar == w) && !(here.isEmpty && x.saved.isEmpty)

/-- The end of a phase (R268, R270): a release at DEV of every arrived block's core and an acquire of those that resume; resident blocks
go on, saved blocks are to be placed again. -/
def phaseEnd (g w : Nat) (s : State) : State :=
  if !phaseEnds s g w then s
  else
    let here := gridBlocks s g
    let x := s.grid g
    let cores := (here.map fun p => p.2.core) ++ x.saved.map fun b => b.block.core
    let s := cores.foldl (fun s c => writeBackAll c s) s
    let s := (here.map fun p => p.2.core).foldl (fun s c => invalidateCache c s) s
    let keys := here.map (·.1)
    let wake := fun (t : Team) => if keys.contains t.blk then unparked s.ac t else t
    let s := { s with team := wake s.team, teams := mmap wake s.teams }
    s.onGrid g fun x => { x with saved := [], restore := sortBy (fun a b => a.block.lin ≤ b.block.lin) x.saved }

/-! ### Meanings -/

/-- FENCE.SC (R259). -/
def execFenceSc (h : Hd) (c : BitVec 3) (s : State) : Out := .next (doFence h 0 c s)
/-- FENCE.ACQ (R259). -/
def execFenceAcq (h : Hd) (c : BitVec 3) (s : State) : Out := .next (doFence h 1 c s)
/-- FENCE.REL (R259). -/
def execFenceRel (h : Hd) (c : BitVec 3) (s : State) : Out := .next (doFence h 2 c s)
/-- FENCE.AR (R259). -/
def execFenceAr (h : Hd) (c : BitVec 3) (s : State) : Out := .next (doFence h 3 c s)
/-- BAR.ARRIVE (R266). -/
def execBarArrive (h : Hd) (d a : RegF) (s : State) : Out := .next (doBar h d a true false s)
/-- BAR.WAIT (R266); D is not used. -/
def execBarWait (h : Hd) (a : RegF) (s : State) : Out := .next (doBar h a a false true s)
/-- BAR.SYNC (R266). -/
def execBarSync (h : Hd) (d a : RegF) (s : State) : Out := .next (doBar h d a true true s)
/-- WBAR (R267). -/
def execWbar (h : Hd) (a : RegF) (s : State) : Out := .next (doWbar h a s)
/-- FENCE_DRAIN_END (R260): the selection names the team. -/
def execFenceDrainEnd (s : State) : Out := .next (s.withTeam s.sel.unit fenceEnd)
/-- WBAR_PHASE_END (R268): the selection names the grid and the barrier id. -/
def execWbarPhaseEnd (s : State) : Out := .next (phaseEnd s.sel.unit s.sel.sub s)

end Sys2Proof.Machine
end

