-- ==== Sys2Proof/Machine/Placement.lean ====
section
/-!
DEFINITION. The placer (R170 to R175): reservations, the placement, start and end of blocks, bin launches, saving and restoring blocks at a
wide barrier (R269, R270), the end of a grid (R162) and the saved context (R358, R359).
-/

namespace Sys2Proof.Machine

/-! ### Launch records -/

/-- Fields of CTRL (R165). -/
def LaunchRec.prio (l : LaunchRec) : Nat := bitsOf l.ctrl.toNat 1 0
def LaunchRec.weight (l : LaunchRec) : Nat := bitsOf l.ctrl.toNat 3 2
def LaunchRec.hasHandler (l : LaunchRec) : Bool := bitAt l.ctrl.toNat 4
def LaunchRec.traced (l : LaunchRec) : Bool := bitAt l.ctrl.toNat 5
def LaunchRec.matuse (l : LaunchRec) : Bool := bitAt l.ctrl.toNat 6
def LaunchRec.sampleExp (l : LaunchRec) : Nat := bitsOf l.ctrl.toNat 20 16

/-- The declared roles with their indices (R166). -/
def LaunchRec.declared (l : LaunchRec) : List (Role × Nat) := l.roles.zipIdx.filter fun p => p.1.lanes != 0
/-- The lowest-indexed declared role. -/
def LaunchRec.firstRole (l : LaunchRec) : Role := ((l.declared.head?).map (·.1)).getD {}

/-! ### Seats -/

/-- A team before it starts (R153): its registers, masks and PC; it waits for its block's start. -/
def newTeam (l : LaunchRec) (blk role lanes nregs : Nat) (fmt : Word) (entry : VAddr) : Team :=
  { present := true, blk := blk, role := role, lanes := lanes, nregs := nregs, fmt := fmt, pc := entry, traced := l.traced
    handler := if l.hasHandler then some (l.handler.extractLsb' 0 57) else none
    live := maskBelow lanes, active := maskBelow lanes, park := .start }

/-- Registers that a team takes of its scheduler's file (R158). -/
def teamCost (t : Team) : Nat := t.lanes * vatRegs t

/-- The seat that a team takes on a core (R172): the lowest scheduler with a free slot and enough registers, and its lowest free slot. -/
def findSeat (ts : List Team) (core cost : Nat) : Option Nat :=
  (List.range 4).findSome? fun sc =>
    let mine := ts.filter fun t => coreOf t.tid == core && schedOf t.tid == sc
    if mine.length < 16 ∧ (mine.map teamCost).foldl (· + ·) 0 + cost ≤ 32768 then
      ((List.range 16).find? fun sl => !(mine.any fun t => slotOf t.tid == sl)).map (tidOf core sc ·)
    else none

/-- Seats a team on a core; its chunks of the grid go on counting in the slot (R364). -/
def seatTeam (core : Nat) (t : Team) (s : State) : Option State :=
  (findSeat s.allTeams core (teamCost t)).map fun tid =>
    let n := mget 0 (s.core core).tseq ((s.block t.blk).grid * 64 + tid % 64)
    let t := { t with tid := tid, age := s.nextAge, tr := { t.tr with seq := n } }
    { s with teams := mput s.teams tid t, nextAge := s.nextAge + 1 }

/-- Seats teams in order, all or none. -/
def seatTeams (core : Nat) (ts : List Team) (s : State) : Option State := ts.foldl (fun o t => o.bind (seatTeam core t)) (some s)

/-- The context of a placed block: another context than the last one's clears the routing counters (R415). -/
def routeContext (core ctx : Nat) (s : State) : State :=
  s.onCore core fun c => { c with routeCtx := some ctx, route := if c.routeCtx = some ctx then c.route else [] }

/-! ### Reservations (R170) -/

/-- Blocks on a core that hold resources, and the sum of one of them. -/
def coreBlocks (s : State) (core : Nat) : List Block := (s.blocks.map (·.2)).filter fun b => b.core == core && b.phase != .ended
def sumOf {α : Type} (f : α → Nat) (l : List α) : Nat := (l.map f).foldl (· + ·) 0

/-- The lowest offset at which a region fits (R224). -/
def vaultGap (s : State) (core n : Nat) : Option Nat :=
  let held := (s.blocks.map (·.2)).filter fun b => b.core == core && b.vbytes != 0
  if n = 0 then some 0
  else (sortBy (fun a b => a ≤ b) (0 :: held.map fun b => b.voff + b.vbytes)).find? fun o =>
    decide (o + n ≤ 983040) && held.all fun b => decide (b.voff + b.vbytes ≤ o ∨ o + n ≤ b.voff)

/-- Bins that a grid still has to reserve on a core. -/
def binNeed (s : State) (g core : Nat) : Nat :=
  if (s.core core).bins.any fun p => p.2.grid == g then 0 else (s.grid g).launch.nbins

/-- Whether what a grid block takes of a core and its cluster is free, but for seats and vault. -/
def coreRoom (s : State) (g core : Nat) : Bool :=
  let l := (s.grid g).launch
  let cl := (s.blocks.map (·.2)).filter fun b => clusterOfCore b.core == clusterOfCore core && b.phase != .ended
  decide (sumOf (·.barriers) (coreBlocks s core) + l.barriers ≤ 256) && (!l.matuse || (s.core core).mat.owner.isNone) &&
    decide (sumOf (·.svcq) cl + l.svcq ≤ 256) && decide ((s.core core).bins.length + binNeed s g core ≤ 16)

/-- Whether what a grid takes of the package with its first block is free. -/
def gridRoom (s : State) (g : Nat) : Bool :=
  let x := s.grid g
  let held := (s.grids.map (·.2)).filter fun y => y.started && !y.ended
  x.started || (decide (sumOf (·.launch.wbars) held + x.launch.wbars ≤ 64) && decide (sumOf (·.launch.collent) held + x.launch.collent ≤ 64))

/-- Reserves a grid's bins on a core (R174). -/
def takeBins (g core : Nat) (s : State) : State :=
  if binNeed s g core = 0 then s
  else
    let l := (s.grid g).launch
    (l.bins.zipIdx).foldl (fun s p => setBin core (binKey g p.2) { grid := g, be := p.1, regs := l.firstRole.regs } s) s

/-- Claims a core's matrix engine (R170, R315): every accumulator value is undefined. -/
def claimMatrix (core blk : Nat) (s : State) : State :=
  let slot := fun (k : Nat) => ({ undef := some (s.fresh + 4096 * k) } : AccSlot)
  { s.onCore core fun c => { c with
      mat := { owner := some blk, acc := Vector.ofFn fun i => slot i.val }
      fifo := Vector.replicate 4 [], fills := Vector.replicate 4 [] } with fresh := s.fresh + 16384 }

/-- The ac that a block's start takes (R173). -/
def startDelay (l : LaunchRec) (img : Nat) : Nat := 8 + ceilDiv img 64 + if l.reloff = 0xFFFFFFFFFFFFFFFF#64 then 0 else 16

/-! ### Placement (R171, R172) -/

/-- Places a block of a grid on a core when everything it takes is free; `b` names it, `ts` are its teams. -/
def placeOn (g core : Nat) (b : Block) (key : Nat) (ts : List Team) (s : State) : Option State :=
  let l := (s.grid g).launch
  if !coreRoom s g core then none
  else (vaultGap s core l.vbytes).bind fun off =>
    let b := { b with core := core, voff := off, vheld := true, placedAt := s.ac }
    (seatTeams core ts (s.setBlock key b)).map fun s =>
      let s := routeContext core (s.grid g).ctx (takeBins g core s)
      if l.matuse then claimMatrix core key s else s

/-- A block of a grid as the launch record describes it. -/
def gridBlock (s : State) (g lin bond0 member : Nat) : Block :=
  let x := s.grid g
  let l := x.launch
  { kind := .grid, phase := .starting, grid := g, lin := lin, bond0 := bond0, bondSize := l.bond, member := member, vbytes := l.vbytes
    matuse := l.matuse, barriers := l.barriers, svcq := l.svcq, startAt := s.ac + startDelay l x.imgBytes }

/-- Its teams, in ascending role. -/
def gridTeams (s : State) (g key : Nat) : List Team :=
  let l := (s.grid g).launch
  l.declared.map fun p => newTeam l key p.2 p.1.lanes p.1.regs p.1.fmt p.1.entry

/-- The cores of a cluster. -/
def clusterCores (cl : Nat) : List Nat := (List.range 16).map fun i => 16 * cl + i

/-- Places a grid's next bond (R161) in a cluster, member by member on the lowest core that fits. -/
def placeBondIn (g cl : Nat) (s : State) : Option State :=
  let x := s.grid g
  (List.range x.launch.bond).foldl (fun o m => o.bind fun s =>
    (clusterCores cl).findSome? fun c =>
      let key := s.nextBlock
      placeOn g c (gridBlock s g (x.nextBlk + m) x.nextBlk m) key (gridTeams s g key) { s with nextBlock := key + 1 }) (some s)

/-- Places a grid's next block or bond in the lowest cluster that fits; the first one posts the bound collective (R402). -/
def placeNext (g : Nat) (s : State) : Option State :=
  if !gridRoom s g then none
  else ((List.range 128).findSome? fun cl => placeBondIn g cl s).map fun s =>
    let first := !(s.grid g).started
    let s := s.onGrid g fun x => { x with nextBlk := x.nextBlk + x.launch.bond, started := true }
    if first then postBound g s else s

/-- A saved block in its new place (R270): its region takes every byte of the saved copy, its teams go on after the WBAR, and they acquire at DEV
on their new core (R268, R274). Its translation registers come back as they were saved: R243 clears V in resident teams alone, and that an
invalidation made meanwhile leaves them is the model's choice (log entry 33). -/
def restoreLive (g core : Nat) (sb : SavedBlock) (s : State) : Option State :=
  let key := sb.key
  let ts := sb.teams.map fun t => { unparked s.ac t with readyAt := s.ac + 1 }
  (placeOn g core { sb.block with phase := .running, cstore := [], centry := [], cload := none, credits := 0 } key ts s).map fun s =>
    let b := s.block key
    let s := s.store (vaultKey core b.voff) (savedVault sb)
    let s := acquireCache core 4 (presenceAll core b.voff b.vbytes s)
    (teamsOf s key).foldl (fun s tid => s.withTeam tid (traceStart 3)) s

/-- A member of a saved bond that had ended, which held its region alone (R160, R404), in its new place. -/
def restoreEnded (core : Nat) (sb : SavedBlock) (s : State) : Option State :=
  (vaultGap s core sb.block.vbytes).map fun off =>
    let s := s.setBlock sb.key { sb.block with phase := .ended, core := core, voff := off, vheld := true }
    presenceAll core off sb.block.vbytes (s.store (vaultKey core off) (savedVault sb))

/-- A saved block is restored on a core. R243 clears the translation registers of resident teams alone, and the spec does not say whether those of a
block saved meanwhile count: that they come back with V as it was saved is the model's choice (log entry 33). -/
def restoreOn (g core : Nat) (sb : SavedBlock) (s : State) : Option State :=
  if sb.teams.isEmpty then restoreEnded core sb s else restoreLive g core sb s

/-- The saved blocks of the next bond to be restored, and the others. -/
def nextRestore (x : Grid) : List SavedBlock × List SavedBlock :=
  match x.restore with
  | [] => ([], [])
  | b :: _ => x.restore.partition fun c => c.block.bond0 == b.block.bond0

/-- Restores a grid's next saved block or bond in the lowest cluster that fits. -/
def restoreNext (g : Nat) (s : State) : Option State :=
  let (bs, rest) := nextRestore (s.grid g)
  if bs.isEmpty then none
  else ((List.range 128).findSome? fun cl => bs.foldl (fun o b => o.bind fun s => (clusterCores cl).findSome? fun c => restoreOn g c b s) (some s)).map
    fun s => s.onGrid g fun x => { x with restore := rest }

/-- Whether the placer may place for a context (R358, R360). -/
def placeable (s : State) (ctx : Nat) : Bool := !(s.ctx ctx).preempted && !(s.ctx ctx).killed

/-- Whether a collective of the package is started and not complete locally (R171). -/
def collStarted (s : State) : Bool := s.colls.any fun p => p.2.st == .started

/-- The grids with blocks left to place, in the placer's order (R171). -/
def gridOrder (s : State) : List Nat :=
  let cand := s.grids.filter fun p => !p.2.ended && placeable s p.2.ctx && (decide (p.2.nextBlk < gridSize p.2) || !p.2.restore.isEmpty)
  let key := fun (p : Nat × Grid) => [3 - p.2.launch.prio, if collStarted s then p.2.launch.weight else 0, p.1]
  (sortBy (fun a b => keyLe (key a) (key b)) cand).map (·.1)

/-- A grid's next block or bond is placed: a saved one, or else the next of its grid (R270). Answers whether it is a saved one. -/
def placeOrRestore (g : Nat) (s : State) : Option (Bool × State) :=
  if (s.grid g).restore.isEmpty then (placeNext g s).map (false, ·) else (restoreNext g s).map (true, ·)

/-- What the placer places next of the grids' blocks: whether it is a restored one, and the state after. -/
def nextPlacement (s : State) : Option (Bool × State) := (gridOrder s).findSome? fun g => placeOrRestore g s

/-! ### Bins (R174, R175) -/

/-- A one-team block of a bin or a task, seated on a core (R175, R307). -/
def placeSmall (core : Nat) (b : Block) (t : Team) (s : State) : Option State :=
  let key := s.nextBlock
  let l := (s.grid b.grid).launch
  let b := { b with phase := .starting, core := core, placedAt := s.ac, startAt := s.ac + startDelay l 0 }
  (seatTeam core { t with blk := key } ({ s with nextBlock := key + 1 }.setBlock key b)).map (routeContext core (s.grid b.grid).ctx)

/-- The registers of threads: word i of thread l in vi of lane l. -/
def threadRegs (ths : List (List Word)) : Sparse Word :=
  ths.zipIdx.foldl (fun m p => p.1.zipIdx.foldl (fun m q => mset 0 m (p.2 * 512 + q.2) q.1) m) []

/-- A bin launches its oldest threads (R174), and its timer restarts while threads remain in it or in its ring; none when no scheduler of the core
fits the team. -/
def launchBin (c k : Nat) (s : State) : Option State :=
  let b := binAt s c k
  let l := (s.grid b.grid).launch
  let ths := b.fifo.take (binCap b)
  let rest := b.fifo.drop (binCap b)
  let t := newTeam l 0 0 ths.length l.firstRole.regs l.firstRole.fmt b.be.entry
  let left := !rest.isEmpty || ringCount s c b != 0
  (placeSmall c { kind := .bin, grid := b.grid } { t with v := threadRegs ths } s).map fun s =>
    refill c k (setBin c k { b with fifo := rest, timer := if left then some (s.ac + b.be.timer) else none } s)

/-- Whether a bin has what it launches on: a full batch, or an expired timer with a thread waiting. -/
def binFull (s : State) (c k : Nat) : Bool := decide (binCap (binAt s c k) ≤ (binAt s c k).fifo.length)
def binExpired (s : State) (c k : Nat) : Bool :=
  let b := binAt s c k
  !b.fifo.isEmpty && (b.timer.map fun t => decide (t ≤ s.ac)).getD false

/-- A step of a bin whose context may be placed: it refills, and launches when `due` holds. -/
def binStep (due : State → Nat → Nat → Bool) (c k : Nat) (s : State) : State :=
  if (mget? (s.core c).bins k).isNone ∨ !placeable s (s.grid (binAt s c k).grid).ctx then s
  else
    let s := refill c k s
    if due s c k then (launchBin c k s).getD s else s

/-- The bins that would launch now: core and key. -/
def readyBins (s : State) : List (Nat × Nat) :=
  (s.cores.flatMap fun p => p.2.bins.map fun q => (p.1, q.1)).filter fun p =>
    let s' := refill p.1 p.2 s
    (binFull s' p.1 p.2 || binExpired s' p.1 p.2) && placeable s (s.grid (binAt s p.1 p.2).grid).ctx && (launchBin p.1 p.2 s').isSome

/-! ### Tasks as they wait for a core (R307) -/

/-- Where a task that may start would be seated: the lowest core of the die that fits. -/
def taskSeat (s : State) (d : Nat) (j : Job) : Option Nat :=
  let l := (s.grid j.grid).launch
  let cost := teamCost (newTeam l 0 0 j.lanes l.firstRole.regs 0 0)
  ((List.range 256).map fun i => 256 * d + i).find? fun c => (findSeat s.allTeams c cost).isSome

/-- Whether a task may be launched now. -/
def taskReady (s : State) (d : Nat) (j : Job) : Bool :=
  j.kind == .task && j.ready && !j.started && j.fault.isNone && decide (j.startable ≤ s.ac) && !blocked s d j && placeable s j.ctx

/-- The tasks that would launch now. -/
def readyTasks (s : State) : List (Nat × Nat) :=
  s.dies.flatMap fun p => (p.2.jobs.filter fun j => taskReady s p.1 j && (taskSeat s p.1 j).isSome).map fun j => (p.1, j.key)

/-- One step of the placer for the grids' blocks, after the bins and tasks that wait (R171, R175, R307). -/
def placeStep (restored : Bool) (s : State) : State :=
  match nextPlacement s with
  | some (r, s') => if r = restored ∧ (readyBins s).isEmpty ∧ (readyTasks s).isEmpty then s' else s
  | none => s

/-! ### Block start (R173) -/

/-- Free bytes for the rest of a region, which no image gives (R94). -/
def freeBytes (n0 n : Nat) : List Byte := (List.range n).map fun i => (Config.freeWord (n0 + i)).extractLsb' 0 8

/-- The descriptor block of a grid (R201). -/
def loadRel (s : State) (x : Grid) : Option (List (BitVec 128)) :=
  if x.launch.reloff = 0xFFFFFFFFFFFFFFFF#64 then none
  else some ((List.range 16).map fun i => BitVec.ofNat 128 (leNat (readRange s (x.relPa + x.launch.reloff.toNat + 16 * i) 16)))

/-- The vault region of a starting block: its image, and undefined bytes after it (R94). A byte of the device copy that stands in a word with an
uncorrectable error is copied as it is stored, and nothing is reported; the spec does not say what the copy does there (log entry 19). -/
def fillRegion0 (k : Nat) (s : State) : State :=
  let b := s.block k
  let x := s.grid b.grid
  let img := if b.kind = .grid then readRange s x.vaultPa x.imgBytes else []
  let rest := freeBytes s.fresh (b.vbytes - img.length)
  { s.store (vaultKey b.core b.voff) (img ++ rest) with fresh := s.fresh + rest.length }

/-- Whether a block runs a task. -/
def Block.isTask (b : Block) : Bool :=
  match b.kind with
  | .task _ => true
  | _ => false

/-- The steps of a block's start but for its teams (R173). A task sees the writes of what its footprint orders before it (R283): its core's cache
gives up what it holds unwritten. -/
def prepareBlock (k : Nat) (s : State) : State :=
  let b := s.block k
  let s := fillRegion0 k s
  let s := s.onBlock k fun b => { b with phase := .running, barw := [], centry := [], cstore := [], rel := loadRel s (s.grid b.grid) }
  presenceAll b.core b.voff b.vbytes (if b.isTask then acquireCache b.core 4 s else s)

/-- Whether a team has issued in the ac, or a sample of it has been taken: a team that starts then issues from the next ac on, so that the teams of
an ac issue in the key order of R252 and before its samples (R366, log entry 1). -/
def acBegun (s : State) : Bool :=
  (s.allTeams.any fun t => t.lastIssue == s.ac && mget? s.issuer (t.tid / 16) == some t.age) ||
    s.cores.any fun c => c.2.sampled.any fun p => p.2 == s.ac + 1

/-- The teams of a block start. -/
def startTeams (late : Bool) (k : Nat) (s : State) : State :=
  (teamsOf s k).foldl (fun s tid => s.withTeam tid fun s =>
    traceStart 1 (s.onTeam fun t => { t with park := .run, lastIssue := s.ac, readyAt := if late then s.ac + 1 else t.readyAt })) s

/-- A placed block whose start is due starts, and with it every member of its bond (R161, R404): once the steps of all of them have completed,
every team of them may issue. -/
def startBlock (k : Nat) (s : State) : State :=
  let b := s.block k
  if b.phase ≠ .starting ∨ s.ac < b.startAt ∨ b.aborted then s
  else
    let ks := (bondAll s k).filter fun j => (s.block j).phase == .starting && !(s.block j).aborted
    let late := acBegun s
    ks.foldl (fun s j => startTeams late j s) (ks.foldl (fun s j => prepareBlock j s) s)

/-! ### The end of a context's blocks (R358, R359, R390) -/

/-- A bin spills its waiting threads before the oldest of its ring (R359); one whose slice is not mapped keeps them (log entry 14). -/
def spillBin (c k : Nat) (s : State) : State :=
  let b := binAt s c k
  let n := b.fifo.length
  let head := ringHead s c b
  let at_ := fun (i : Nat) => (head + 2 ^ 64 - n + i) % 2 ^ b.be.ringlog
  if (0 :: 8 :: (List.range n).map fun i => 128 + 64 * at_ i).any fun off => (ringPa s c b off).isNone then s
  else
  let s := (b.fifo.zipIdx).foldl (fun s p => ringWrite c b (128 + 64 * at_ p.2) (slotBytes p.1) s) s
  setBin c k { b with fifo := [], timer := none } (ringWrite c b 0 (leBytes 8 ((head + 2 ^ 64 - n) % 2 ^ 64)) s)

/-- Whether a context has a block that has not ended. -/
def ctxBlocks (s : State) (ctx : Nat) : Bool := s.blocks.any fun p => p.2.phase != .ended && (s.grid p.2.grid).ctx == ctx

/-- The bins of a context: core and key. -/
def ctxBins (s : State) (ctx : Nat) : List (Nat × Nat) :=
  s.cores.flatMap fun p => (p.2.bins.filter fun q => (s.grid q.2.grid).ctx == ctx).map fun q => (p.1, q.1)

/-- A pre-empted context whose last block has ended is saved: its bins spill, and SAVED is reported (R358). -/
def contextSaved (ctx : Nat) (s : State) : State :=
  let ps := (s.ctx ctx).savePkts
  if ps.isEmpty ∨ ctxBlocks s ctx then s
  else
    let s := (ctxBins s ctx).foldl (fun s q => spillBin q.1 q.2 s) s
    ps.foldl (fun s p => report p stSAVED ctx [] s) (s.onCtx ctx fun c => { c with savePkts := [] })

/-- The running command of a host-command queue completes (R390); 4096 more names the queue among the commands that a REPLAY runs. -/
def queueDone (q : Nat) (s : State) : State :=
  if 4096 ≤ q then { s with replay := s.replay.map fun r => { r with busy := mdel r.busy (q - 4096) } }
  else s.onQueue q fun x => { x with busy := none }

/-- A killed context whose last block has ended: KILL completes and reports DONE (R360, R390). -/
def killDone (ctx : Nat) (s : State) : State :=
  let ps := (s.ctx ctx).killPkts
  if ps.isEmpty ∨ ctxBlocks s ctx then s
  else ps.foldl (fun s p => report p.1 stDONE ctx [] (queueDone p.2 s)) (s.onCtx ctx fun c => { c with killed := false, killPkts := [] })

/-! ### Block end (R160) -/

/-- Task-queue entries that a block submitted, and those of a grid. -/
def queuedBy (s : State) (p : QEntry → Bool) : Bool := s.queues.any fun q => q.2.kind == 2 && q.2.entries.any p

/-- The grid slot of a task entry (R306), and its context. -/
def entryGrid (e : QEntry) : Nat := bitsOf e.data.toNat 95 80
def entryCtx (e : QEntry) : Nat := bitsOf e.data.toNat 79 64

/-- Whether the matrix engine of a core has no member and no batch left (R320). -/
def matrixIdle (s : State) (c : Nat) : Bool := (s.core c).mat.queue.isEmpty && (s.core c).mat.batches.isEmpty && !(s.core c).mat.isOpen

/-- Whether a block has nothing outstanding: no team, no store or atomic that is not accepted, no job and no task. -/
def blockIdle (s : State) (k : Nat) : Bool :=
  let b := s.block k
  (teamsOf s k).isEmpty && b.tokens.isEmpty && !(s.dies.any fun d => d.2.jobs.any fun j => j.blk == k) &&
    !queuedBy s (fun e => (e.source.map (· / 4)) == some k) &&
    (!b.matuse || matrixIdle s b.core)

/-- Releases a core's matrix engine with its operand streams (R160, R315). -/
def freeMatrix (core : Nat) (s : State) : State :=
  s.onCore core fun c => { c with mat := {}, fifo := Vector.replicate 4 [], fills := Vector.replicate 4 [] }

/-- A block ends: its core's written bytes go to memory, its chunk fires, its resources are free. -/
def endBlock (k : Nat) (s : State) : State :=
  match mget? s.blocks k with
  | none => s
  | some b =>
    if (b.phase ≠ .running ∧ !(b.phase == .starting && b.aborted)) ∨ !blockIdle s k then s
    else
      let s := chunkFire k (writeBackAll b.core s)
      let s := if b.matuse then freeMatrix b.core s else s
      let s := s.onBlock k fun b => { b with phase := .ended, barw := [], cstore := [], centry := [], rel := none }
      let s := match b.kind with
        | .grid => s.onGrid b.grid fun x => { x with doneBlks := x.doneBlks + 1 }
        | .task j =>
          match jobAt s (dieOfCore b.core) j with
          | some x => easeJob (dieOfCore b.core) { x with blockDone := true } s
          | none => s
        | .bin => s
      let ctx := (s.grid b.grid).ctx
      killDone ctx (contextSaved ctx (freeBond k s))

/-! ### Saving at a wide barrier (R269) -/

/-- The blocks of a grid that may be saved: every member of the bond has arrived at one barrier or has ended. A member that has ended but whose
chunk waits for its ticket keeps its region in place (R402). -/
def savable (s : State) (k : Nat) : Bool :=
  let one := fun (w j : Nat) =>
    let b := s.block j
    (b.phase == .running && arrivedAt s j w && !b.aborted) || (b.phase == .ended && !b.chunkWait)
  (List.range 16).any fun w => arrivedAt s k w && (bondAll s k).all (one w)

/-- The barrier at which a block's teams are parked. -/
def wbarOf (ts : List Team) : Nat :=
  match (ts.head?.map (·.park)).getD .run with
  | .wbar w => w
  | _ => 0

/-- A block that gives up its matrix engine when it is saved: the members, batches and fills that are left are discarded, and the fills' entries
leave the table; the spec does not say what becomes of them (log entry 33). -/
def saveMatrix (k : Nat) (s : State) : State :=
  let isFill := fun (j : Job) => match j.kind with
    | .fill _ => true
    | _ => false
  let s := freeMatrix (s.block k).core s
  { s with dies := mmap (fun d => { d with jobs := delayFreed s.ac d.jobs (d.jobs.filter fun j => !(j.blk == k && isFill j)) }) s.dies }

/-- Saves one block (R269) that has arrived at barrier `w`, or a member of its bond that has ended: its teams, barrier words and vault region go to
its record, and every resource that it held is free. Its jobs and tasks stay in their tables. -/
def saveBlock (w k : Nat) (s : State) : State :=
  let b := s.block k
  let ts := sortBy (fun a b => a.role ≤ b.role) (s.allTeams.filter fun t => t.blk == k)
  let sb : SavedBlock := { key := k, block := { b with phase := .saved, vheld := false }, teams := ts, wbar := w
                           record := savedRecord b ts (s.load (vaultKey b.core b.voff) b.vbytes) }
  let keep := fun (t : Team) => if t.blk = k then { ({} : Team) with present := false } else t
  let s := ts.foldl (fun s t => s.onCore b.core fun c =>
    { c with tseq := if t.traced then mput c.tseq (b.grid * 64 + t.tid % 64) t.tr.seq else c.tseq }) s
  let ids := ts.map (·.tid)
  let s := { forgetWalks ids.contains s with team := keep s.team, teams := s.teams.filter fun p => p.2.blk != k }
  let s := if b.matuse ∧ b.phase = .running then saveMatrix k s else s
  let s := { s with blocks := mdel s.blocks k }
  presenceAll b.core b.voff b.vbytes (s.onGrid b.grid fun x => { x with saved := x.saved ++ [sb] })

/-- The placer saves the savable bond of highest linear index of a grid whose next block, saved or not, does not fit. -/
def saveStep (g : Nat) (s : State) : State :=
  let x := s.grid g
  if !placeable s x.ctx ∨ x.ended ∨ (gridSize x ≤ x.nextBlk ∧ x.restore.isEmpty) ∨ (placeOrRestore g s).isSome then s
  else
    let ks := (gridBlocks s g).filter fun p => savable s p.1
    match (sortBy (fun a b => b.2.lin ≤ a.2.lin) ks).head? with
    | none => s
    | some p =>
      let w := wbarOf (s.allTeams.filter fun t => t.blk == p.1)
      (bondAll s p.1).foldl (fun s k => saveBlock w k s) s

/-! ### The end of a grid (R162, R288, R406) -/

/-- The bins of a grid: core and key. -/
def gridBins (s : State) (g : Nat) : List (Nat × Nat) :=
  s.cores.flatMap fun p => (p.2.bins.filter fun q => q.2.grid == g).map fun q => (p.1, q.1)

/-- Whether a grid has nothing left. -/
def gridIdle (s : State) (g : Nat) : Bool :=
  let x := s.grid g
  decide (gridSize x ≤ x.nextBlk) && x.saved.isEmpty && x.restore.isEmpty &&
    !(s.blocks.any fun p => p.2.grid == g && p.2.phase != .ended) &&
    ((gridBins s g).all fun q => (binAt s q.1 q.2).fifo.isEmpty && ringCount s q.1 (binAt s q.1 q.2) == 0) &&
    !(s.dies.any fun d => d.2.jobs.any fun j => j.grid == g) && !queuedBy s (fun e => entryGrid e == g % 65536) &&
    (gridEntries s g).all fun i => (s.coll i).st == .loc || (s.coll i).st == .error

/-- At the end of a grid, each capture that holds its launch takes the CRC of each output region (R378). -/
def captureCrc (g : Nat) (s : State) : State :=
  let crcs := fun (c : Capture) => c.outputs.map fun r => crc64 ((readVa s c.ctx r.1 r.2).getD [])
  { s with captures := mmap (fun c => if c.launches.any fun l => l.1 == g then { c with crcs := c.crcs ++ [(g, crcs c)] } else c) s.captures }

/-- A grid ends: its bins, rename pools and entries are freed and its completion is reported (R308, R391, R394). -/
def endGrid (g : Nat) (s : State) : State :=
  match mget? s.grids g with
  | none => s
  | some x =>
    if x.ended ∨ !gridIdle s g then s
    else
      let s := (gridEntries s g).foldl (fun s i => freeColl i s) s
      let s := { s with
        cores := mmap (fun c => { c with bins := c.bins.filter fun q => q.2.grid != g }) s.cores
        dies := mmap (fun d => { d with pools := d.pools.filter fun p => p.grid != g }) s.dies }
      let s := s.onGrid g fun x => { x with ended := true }
      let s := captureCrc g s
      let s := report x.pkt stDONE x.ctx (statusBytes x) (if waitFlag x.pkt then queueDone x.queue s else s)
      match s.replay with
      | some r => if r.grid = some g then report r.pkt stDONE x.ctx [] (queueDone r.queue { s with replay := none, stop := none }) else s
      | none => s

/-! ### Meanings -/

/-- BLOCK_PLACEMENT (R171). -/
def execBlockPlacement (s : State) : Out := .next (placeStep false s)
/-- BLOCK_START (R173): the selection names the block. -/
def execBlockStart (s : State) : Out := .next (startBlock s.sel.unit s)
/-- BLOCK_END (R160): the selection names the block. -/
def execBlockEnd (s : State) : Out := .next (endBlock s.sel.unit s)
/-- GRID_END (R162): the selection names the grid. -/
def execGridEnd (s : State) : Out := .next (endGrid s.sel.unit s)
/-- BIN_LAUNCH (R174): the selection names the core and the bin. -/
def execBinLaunch (s : State) : Out := .next (binStep binFull s.sel.unit s.sel.sub s)
/-- BIN_TIMER_EXPIRY (R174): the selection names the core and the bin. -/
def execBinTimerExpiry (s : State) : Out := .next (binStep binExpired s.sel.unit s.sel.sub s)
/-- WBAR_BLOCK_SAVE (R269): the selection names the grid. -/
def execWbarBlockSave (s : State) : Out := .next (saveStep s.sel.unit s)
/-- WBAR_BLOCK_RESTORE (R270). -/
def execWbarBlockRestore (s : State) : Out := .next (placeStep true s)

end Sys2Proof.Machine
end

