-- ==== Sys2Proof/Machine/Matrix.lean ====
section
/-!
DEFINITION. The matrix engine (R315 to R332): the trowel, batches and members, MLOOP and its steps, MFENCE and MWAIT, MDRAIN, and the
sequencer.
-/

namespace Sys2Proof.Machine

/-! ### Slots -/

/-- Accumulator slot `k` of a core, and the slot changed. -/
def accSlot (s : State) (c k : Nat) : AccSlot := vget {} (s.core c).mat.acc k
def onMat (c : Nat) (f : Matrix → Matrix) (s : State) : State := s.onCore c fun x => { x with mat := f x.mat }
def onSlot (c k : Nat) (f : AccSlot → AccSlot) (s : State) : State := onMat c (fun m => { m with acc := vset m.acc k (f (vget {} m.acc k)) }) s

/-- Element (i, j) of an accumulator: an undefined one is a free value (R315). -/
def accVal (a : AccSlot) (i j : Nat) : Word :=
  match mget? a.vals (64 * i + j) with
  | some w => w
  | none => (a.undef.map fun b => Config.freeWord (b + 64 * i + j)).getD 0

/-- An accumulator with element (i, j) written. -/
def accPut (a : AccSlot) (i j : Nat) (w : Word) : AccSlot :=
  { a with vals := if a.undef.isSome then mput a.vals (64 * i + j) w else mset 0 a.vals (64 * i + j) w }

/-- An accumulator whose every element is zero. -/
def accZero (a : AccSlot) : AccSlot := { a with vals := [], undef := none }

/-! ### Members (R319, R320) -/

/-- Fields of a format register value (R16). -/
def fmtMa (f : Word) : Nat := bitsOf f.toNat 23 20
def fmtMb (f : Word) : Nat := bitsOf f.toNat 19 16
def fmtMacc (f : Word) : Nat := bitsOf f.toNat 15 14
def fmtSb (f : Word) : Nat := bitsOf f.toNat 13 12
def fmtSpar (f : Word) : Nat := bitsOf f.toNat 11 10

/-- The trap of R319's first two steps. -/
def memberTrap (s : State) : Option Nat :=
  if !s.myBlock.matuse then some cILLOPND
  else if (s.core s.myCore).mat.trowel ≠ some s.team.tid then some cBATONST
  else none

/-- Outstanding batches (R319). -/
def outstanding (m : Matrix) : Nat := m.batches.length + if m.isOpen then 1 else 0

/-- Whether a member waits at issue with BATCH. -/
def memberWaits (m : Matrix) : Bool := decide (64 ≤ m.queue.length) || (!m.isOpen && decide (4 ≤ outstanding m))

/-- Whether a store of the team to the vault is still to be performed, for which a submission to the engine waits (R320). -/
def vaultPending (t : Team) : Bool := t.stores.any (·.vault) || t.pend.any fun p => p.mem && p.missing != 0

/-! ### Timing of members (R325, R340) -/

/-- The ac of one step: the slower of the formats. -/
def stepAc (fmt : Word) : Nat :=
  let one := fun (f : Nat) => if f = 0 then 128 else if f = 1 ∨ f = 2 then 32 else 16
  max (one (fmtMa fmt)) (one (fmtMb fmt))

/-- Kept elements of a group, steps of a unit and spans of a unit by SPAR (R48, R323). -/
def sparOf (fmt : Word) : Nat × Nat × Nat :=
  match fmtSpar fmt with
  | 1 => (3, 3, 12)
  | 2 => (4, 1, 3)
  | 3 => (6, 3, 6)
  | _ => (0, 1, 1)

/-- Scale bytes of a row and span; 0 without scales. -/
def scalePer (fmt : Word) : Nat := if fmtSb fmt = 1 then 2 else if fmtSb fmt = 2 then 1 else 0

/-- Bytes of one row of a stream for a format (R323). -/
def rowBytes (fmt : Word) (st : Nat) : Nat :=
  match st with
  | 0 => rowBytesOf (fmtMa fmt) 32 + if fmtSpar fmt = 0 then 0 else 16
  | 1 => rowBytesOf (fmtMb fmt) 32
  | _ => scalePer fmt

/-- Rows of a stream that one step of `inA`, or one unit of another stream, draws. -/
def rowsPer (fmt : Word) (mr nc st : Nat) : Nat :=
  let spans := (sparOf fmt).2.2
  match st with
  | 0 => mr
  | 1 => spans * nc
  | 2 => if scalePer fmt = 0 then 0 else spans * mr
  | _ => if scalePer fmt = 0 then 0 else spans * nc

/-- The index of the current step of `inA`, or of the current unit, after `done` steps, and how many there are. -/
def stepIdx (fmt : Word) (st done : Nat) : Nat := if st = 0 then done else done / (sparOf fmt).2.1

/-- The buffered bytes of a stream. -/
def bufOf (b : OperandBufs) (st : Nat) : List Byte :=
  match st with
  | 0 => b.inA
  | 1 => b.inB
  | 2 => b.scA
  | _ => b.scB

def setBuf (b : OperandBufs) (st : Nat) (x : List Byte) : OperandBufs :=
  match st with
  | 0 => { b with inA := x }
  | 1 => { b with inB := x }
  | 2 => { b with scA := x }
  | _ => { b with scB := x }

/-- Whether the next step of an MLOOP has every byte that it draws. -/
def stepReady (m : Matrix) (fmt : Word) (mr nc : Nat) : Bool :=
  (List.range 4).all fun st => decide (rowsPer fmt mr nc st * rowBytes fmt st ≤ (bufOf m.bufs st).length)

/-- The next step of the head member starts when its bytes are there (R326). -/
def armStep (ac : Nat) (m : Matrix) : Matrix :=
  match m.queue with
  | x :: xs =>
    match x.op with
    | .mloop count mr nc _ fmt =>
      if !x.started ∧ x.done < count ∧ stepReady m fmt mr nc then
        { m with queue := { x with started := true, due := max x.due ac + stepAc fmt } :: xs }
      else m
    | _ => m
  | [] => m

/-! ### Transport arithmetic (R336, R337, R339) -/

/-- State of a transport slot. -/
def tK (a : AccSlot) (i j : Nat) : Word := mget fNegInf a.k (64 * i + j)
def tF (a : AccSlot) (i : Nat) : Word := mget 0 a.f i
def tG (a : AccSlot) (j : Nat) : Word := mget 0 a.g j
def tRow (a : AccSlot) (i : Nat) : Word := mget fNegInf a.rowm i
def tCol (a : AccSlot) (j : Nat) : Word := mget fNegInf a.colm j

/-- PLAN(i, j). -/
def planVal (a : AccSlot) (i j : Nat) : Word := fExp2 (fAdd (fAdd (tK a i j) (tF a i)) (tG a j))

/-- LSE2 (R337). -/
def lse2 (vs : List Word) : Word :=
  if vs.any fun v => (dec32 v).isNan then canonNan
  else
    let mx := vs.foldl fMax fNegInf
    if mx = fNegInf ∨ mx = fPosInf then mx
    else fAdd mx (fLog2 (vs.foldl (fun s v => fAdd s (fExp2 (fSub v mx))) 0))

/-- The log-sum of row i, and of column j. -/
def rowLse (a : AccSlot) (i : Nat) : Word := lse2 ((List.range a.tn).map fun j => fAdd (tK a i j) (tG a j))
def colLse (a : AccSlot) (j : Nat) : Word := lse2 ((List.range a.tm).map fun i => fAdd (tK a i j) (tF a i))

/-- ROWS: the slot, and whether a row was infeasible. -/
def balRows (a : AccSlot) : AccSlot × Bool :=
  (List.range a.tm).foldl (fun (acc : AccSlot × Bool) i =>
    let b := acc.1
    if tRow b i = fNegInf then ({ b with f := mset 0 b.f i fNegInf }, acc.2)
    else
      let t := rowLse b i
      if t = fNegInf then (b, true) else ({ b with f := mset 0 b.f i (fSub (tRow b i) t) }, acc.2)) (a, false)

/-- COLS. -/
def balCols (a : AccSlot) : AccSlot × Bool :=
  (List.range a.tn).foldl (fun (acc : AccSlot × Bool) j =>
    let b := acc.1
    if tCol b j = fNegInf then ({ b with g := mset 0 b.g j fNegInf }, acc.2)
    else
      let u := colLse b j
      if u = fNegInf then (b, true) else ({ b with g := mset 0 b.g j (fSub (tCol b j) u) }, acc.2)) (a, false)

/-- FABS (R136). -/
def fAbsW (w : Word) : Word := w &&& 0x7FFFFFFF#32

/-- ERR. -/
def balErr (a : AccSlot) : Word :=
  (List.range a.tm).foldl (fun e i => fMax e (fAbsW (fSub (fExp2 (fAdd (tF a i) (rowLse a i))) (fExp2 (tRow a i))))) 0

/-- The sweeps of BAL (R339): the slot, the sweeps made, the error, and whether a row or column was infeasible. -/
def balLoop (tol : Word) : Nat → AccSlot → Nat → Word → Bool → AccSlot × Nat × Word × Bool
  | 0, a, sw, e, inf => (a, sw, e, inf)
  | n + 1, a, sw, e, inf =>
    if (dec32 e).lt (dec32 tol) then (a, sw, e, inf)
    else
      let (b, i1) := balRows a
      let (c, i2) := balCols b
      balLoop tol n c (sw + 1) (balErr c) (inf || i1 || i2)

/-- BAL on a slot. -/
def balRun (limit : Nat) (tol : Word) (a : AccSlot) : AccSlot × Nat × Word × Bool := balLoop tol limit a 0 (balErr a) false

/-! ### The sequencer -/

/-- The ac that a member takes once it is at the head (R340); of an MLOOP, the part before its first step. -/
def memberAc (a : AccSlot) (op : MemberOp) : Nat :=
  match op with
  | .mloop _ _ _ z _ => if z then 4 else 0
  | .drainV _ _ bf _ _ _ => (if bf then 32 else 64) + 8
  | .drainReg n _ _ _ _ => 8 + n
  | .drainPort _ _ _ => 0
  | .ldk _ _ => ceilDiv (4 * a.tm * a.tn) 256 + 8
  | .stp _ _ bf => ceilDiv ((if bf then 2 else 4) * a.tm * a.tn) 256 + 8
  | .lda _ => 16
  | .ldb _ => 16
  | .stf _ => 16
  | .size _ _ => 16
  | .cost _ _ => 4096 + 16
  | .bal limit tol _ => 32 + 256 * (1 + 3 * (balRun limit tol a).2.1)

/-- The member that is now at the head of a core's queue begins, with empty operand buffers. -/
def armHead (c : Nat) (s : State) : State :=
  match (s.core c).mat.queue with
  | [] => s
  | x :: xs =>
    let due := s.ac + memberAc (accSlot s c x.slot) x.op
    onMat c (fun m => armStep s.ac { m with queue := { x with due := due } :: xs, bufs := {}, drawn := Vector.replicate 4 0 }) s

/-- The head member completes: its MSTAT bits are set (R316) and the next one begins. -/
def memberDone (c : Nat) (s : State) : State :=
  match (s.core c).mat.queue with
  | [] => s
  | x :: xs => armHead c (onMat c (fun m => { m with queue := xs, mstat := m.mstat ||| x.flags }) s)

/-- A member enters the queue: it opens a batch when none is open (R320). -/
def enqueueMember (slot : Nat) (op : MemberOp) (pc : VAddr) (s : State) : State :=
  let c := s.myCore
  let first := (s.core c).mat.queue.isEmpty
  let x : Member := { batch := (s.core c).mat.counter, slot := slot, tid := s.team.tid, op := op, pc := pc, order := s.nextJob }
  let s := onMat c (fun m => { m with isOpen := true, queue := m.queue ++ [x] }) s
  if first then armHead c s else s

/-- A member whose checks all pass: it waits for a batch or a place in the queue (R319), or for earlier vault stores (R320). -/
def issueMember (h : Hd) (len p slot : Nat) (op : MemberOp) (hints : Team → Team) (s : State) : State :=
  if memberWaits (s.core s.myCore).mat then stallOn 0x0C s
  else if vaultPending s.team then stallOn 0x02 s
  else finish h len (enqueueMember slot op s.team.pc ((begin p s).onTeam hints))

/-- A member with a result: its registers take an entry, or one each, of the pending-write record (R20, R331). -/
def issueMemberReg (h : Hd) (len p slot : Nat) (op : Nat → MemberOp) (regs : List Nat) (shared : Bool) (hints : Team → Team) (s : State) : State :=
  if memberWaits (s.core s.myCore).mat then stallOn 0x0C s
  else if pendCount s.team + (if shared then 1 else regs.length) > 16 then stallOn 0x06 s
  else if vaultPending s.team then stallOn 0x02 s
  else
    let pc := s.team.pc
    let (tag, s) := ((begin p s).onTeam hints).takeTag
    let s := addPend { tag := tag, pc := pc, regs := regs, shared := shared, missing := 1, due := s.ac } s
    finish h len (enqueueMember slot (op tag) pc s)

/-- The result of a member reaches the team that issued it: the writes follow from the registers under the tag. -/
def memberResult (tid tag : Nat) (ws : List Nat → List RegWrite) (s : State) : State :=
  s.withTeam tid fun s => landPend tag (s.onTeam fun t => { t with pend := t.pend.map fun p =>
    if p.tag = tag then { p with missing := 0, writes := ws p.regs, due := min p.due s.ac } else p })

/-! ### BATON (R317, R318) -/

/-- Hands the trowel to a team, which is woken when it waits for it. -/
def giveTrowel (c : Nat) (tid : Nat) (s : State) : State :=
  let s := onMat c (fun m => { m with trowel := some tid, takers := m.takers.filter (· != tid) }) s
  s.withTeam tid fun s => if s.team.park = .baton then unpark s else s

/-- The holder gives the trowel up: the taker that parked earliest has it. -/
def dropTrowel (c : Nat) (s : State) : State :=
  match (s.core c).mat.takers with
  | u :: _ => giveTrowel c u s
  | [] => onMat c (fun m => { m with trowel := none }) s

/-- BATON.TAKE: an acquire at CORE scope, which needs no cache action. -/
def doBatonTake (h : Hd) (s : State) : State :=
  if !s.myBlock.matuse ∨ s.team.hmode then trapI cILLOPND 4 (begin 1 s)
  else
    let c := s.myCore
    let me := s.team.tid
    match (s.core c).mat.trowel with
    | none => onMat c (fun m => { m with trowel := some me }) (finish h 4 (begin 1 s))
    | some u =>
      if u = me then finish h 4 (begin 1 s)
      else parkAt .baton (finish h 4 (onMat c (fun m => { m with takers := m.takers ++ [me] }) (begin 1 s)))

/-- BATON.GIVE: a release at CORE scope. -/
def doBatonGive (h : Hd) (s : State) : State :=
  match memberTrap s with
  | some k => trapI k 4 (begin 1 s)
  | none => if orderWaits s true then stallOn 0x02 s else dropTrowel s.myCore (finish h 4 (begin 1 s))

/-- BATON.PASS. -/
def doBatonPass (h : Hd) (a : RegF) (s : State) : State :=
  withOps 4 false [src a] s fun s =>
    let to_ := (s.allTeams.find? fun t => t.blk == s.team.blk && t.role == (rdu s a).toNat).map (·.tid)
    match !s.myBlock.matuse || isVec a, to_ with
    | false, some u =>
      match memberTrap s with
      | some k => trapI k 4 (begin 1 s)
      | none =>
        if orderWaits s true then stallOn 0x02 s
        else
          let s := finish h 4 ((begin 1 s).onTeam (applyHints h a 1 a 0 []))
          if u = s.team.tid then s else giveTrowel s.myCore u s
    | _, _ => trapI cILLOPND 4 (begin 1 s)

/-! ### MLOOP (R321, R322) -/

/-- The checks of R322, steps 1 to 6. -/
def mloopOk (slot : AccSlot) (fmt : Word) (z : Bool) (count : Nat) : Bool :=
  let ma := fmtMa fmt
  let mb := fmtMb fmt
  decide (ma ≤ 5 ∧ mb ≤ 5 ∧ fmtMacc fmt ≤ 1 ∧ fmtSb fmt ≤ 2) &&
    !(fmtMacc fmt == 1 && !(ma == 5 && mb == 5 && fmtSb fmt == 0)) && !(fmtSb fmt != 0 && !(maNarrow ma && maNarrow mb)) &&
    (z || (!slot.mode && slot.afmt == (fmtMacc fmt == 1))) && !((fmtSpar fmt == 1 || fmtSpar fmt == 3) && count % 3 != 0)

/-- MLOOP. -/
def doMloop (h : Hd) (a : RegF) (l : Word) (s : State) : State :=
  withOps 8 false [src a] s fun s =>
    match memberTrap s with
    | some k => trapI k 8 (begin 1 s)
    | none =>
      let k := bitsOf l.toNat 1 0
      let z := bitAt l.toNat 2
      let mr := bitsOf l.toNat 13 8 + 1
      let nc := bitsOf l.toNat 19 14 + 1
      let fmt := s.team.fmt
      let count := (rdu s a).toNat
      if isVec a ∨ !mloopOk (accSlot s s.myCore k) fmt z count then trapI cILLOPND 8 (begin 1 s)
      else if memberWaits (s.core s.myCore).mat then stallOn 0x0C s
      else if vaultPending s.team then stallOn 0x02 s
      else
        let s := if z then onSlot s.myCore k (fun x => { x with mode := false, afmt := fmtMacc fmt == 1 }) s else s
        issueMember h 8 1 k (.mloop count mr nc z fmt) (applyHints h a 1 a 0 []) s

/-! ### MFENCE, MWAIT (R327, R328) -/

/-- MFENCE. -/
def doMfence (h : Hd) (d : RegF) (s : State) : State :=
  withOps 4 false [dst d] s fun s =>
    match memberTrap s with
    | some k => trapI k 4 (begin 1 s)
    | none =>
      let c := s.myCore
      let m := (s.core c).mat
      if !isScalar d then trapI cILLOPND 4 (begin 1 s)
      else if !m.isOpen ∧ 4 ≤ outstanding m then stallOn 0x0C s
      else if pendCount s.team + 1 > 16 then stallOn 0x06 s
      else
        let ws := writesOf s d.toNat [0] fun _ => w32 m.counter
        let s := onMat c (fun m => { m with isOpen := false, batches := m.batches ++ [m.counter], counter := (m.counter + 1) % 2 ^ 16 }) s
        issueLong 4 h 1 false (codesOf s d 1) ws 2 id s

/-- MWAIT: an acquire at CORE scope, which needs no cache action. -/
def doMwait (h : Hd) (a : RegF) (s : State) : State :=
  withOps 4 false [src a] s fun s =>
    let m := (s.core s.myCore).mat
    let b := (rdu s a).toNat % 2 ^ 16
    if isVec a ∨ !s.myBlock.matuse ∨ (m.isOpen ∧ m.counter = b) then trapI cILLOPND 4 (begin 1 s)
    else
      let s := finish h 4 ((begin 1 s).onTeam (applyHints h a 1 a 0 []))
      if m.batches.contains b then parkAt (.mwait b) s else s

/-! ### MDRAIN (R329 to R332) -/

/-- A drain after R319 and the check of its slot and of A. -/
def withDrain (a : RegF) (k : Nat) (s : State) (go : AccSlot → State → State) : State :=
  match memberTrap s with
  | some c => trapI c 4 (begin 1 s)
  | none =>
    let x := accSlot s s.myCore k
    if x.mode ∨ isVec a then trapI cILLOPND 4 (begin 1 s) else go x s

/-- MDRAIN.VF32 and MDRAIN.VBF16 (R330). R16 gives ILLOPND for a reserved SAT code, and neither it nor R330 places that among R330's ordered checks:
that it comes with the check of D, before ALIGN and VRANGE, is the model's choice (log entry 69). -/
def doDrainV (h : Hd) (bf : Bool) (d a : RegF) (z : Bool) (k : Nat) (s : State) : State :=
  withOps 4 false [src a, src d] s fun s =>
    withDrain a k s fun x s =>
      let off := (rdu s a).toNat
      let st := (rdu s d).toNat
      let w := if bf then 2 else 4
      if isVec d ∨ (bf ∧ 2 ≤ fmtSat s) then trapI cILLOPND 4 (begin 1 s)
      else if off % 128 ≠ 0 then trapAll (opndFault cALIGN off) 4 (begin 1 s)
      else if st % 128 ≠ 0 ∨ st < 64 * w then trapAll (opndFault cALIGN 0) 4 (begin 1 s)
      else if s.myBlock.vbytes < off + 63 * st + 64 * w then trapAll (opndFault cVRANGE off) 4 (begin 1 s)
      else issueMember h 4 1 k (.drainV off st bf z x.afmt (fmtSat s)) (applyHints h a 1 a 0 []) s

/-- MDRAIN.REG (R331): that D names a run of vector registers is a shape check of R26, ahead of the others. -/
def doDrainReg (h : Hd) (d a : RegF) (c : BitVec 3) (k : Nat) (s : State) : State :=
  let n := 2 ^ c.toNat
  withOps 4 false [src a, { f := d.toNat, n := n, ok := isVec d && decide (d.toNat + n ≤ 96), rd := false, wr := true }] s fun s =>
    withDrain a k s fun _ s =>
      let v := (rdu s a).toNat
      if 64 < bitsOf v 5 0 + n then trapI cILLOPND 4 (begin 1 s)
      else
        issueMemberReg h 4 (passesOf s.team) k (.drainReg n (bitsOf v 13 8) (bitsOf v 5 0) s.team.active) (codesOf s d n) true
          (applyHints h a 1 a 0 []) s

/-- MDRAIN.PORT (R332). -/
def doDrainPort (h : Hd) (d a : RegF) (z : Bool) (k : Nat) (s : State) : State :=
  withOps 4 false [src a, src d] s fun s =>
    withDrain a k s fun x s =>
      let e := (rdu s d).toNat
      if isVec d then trapI cILLOPND 4 (begin 1 s)
      else if e % 64 ≠ 0 then trapAll (opndFault cALIGN 0) 4 (begin 1 s)
      else if x.afmt then trapI cILLOPND 4 (begin 1 s)
      else if !portOk s s.myBlock.grid (rdu s a) e then trapI cCOLLERR 4 (begin 1 s) cePORT
      else issueMember h 4 1 k (.drainPort (rdu s a) e z) (applyHints h a 1 a 0 []) s

/-! ### Steps of an MLOOP (R323 to R326) -/

/-- A sequencer takes the next whole row of a stream into its buffers, for the current or the next step or unit of its member. -/
def drawRow (c st : Nat) (s : State) : State :=
  let m := (s.core c).mat
  match m.queue with
  | x :: _ =>
    match x.op with
    | .mloop count mr nc _ fmt =>
      let rb := rowBytes fmt st
      let per := rowsPer fmt mr nc st
      let units := if st = 0 then count else count / (sparOf fmt).2.1
      let most := min (units * per) ((stepIdx fmt st x.done + 2) * per)
      let q := vget [] (s.core c).fifo st
      if 4 ≤ st ∨ most ≤ vget 0 m.drawn st ∨ q.length < rb ∨ rb = 0 then s
      else
        let s := s.onCore c fun y => { y with fifo := vset y.fifo st (q.drop rb) }
        onMat c (fun m => armStep s.ac { m with
          bufs := setBuf m.bufs st (bufOf m.bufs st ++ q.take rb), drawn := vset m.drawn st (vget 0 m.drawn st + 1) }) s
    | _ => s
  | [] => s

/-- The value of A at a kept or dense position and the logical position, for one row of a step: none for an invalid element; with the
group position carried on, and whether an element was invalid (R48 to R50). -/
def rowTerms (fmt : Word) (row : List Byte) (j0 : Nat) : Nat → Nat → Nat → List (Option (Nat × Num)) × Nat × Bool
  | 0, _, carry => ([], carry, false)
  | n + 1, e, carry =>
    let (keep, _, _) := sparOf fmt
    let v := decodeMa (fmtMa fmt) (elemAt (fmtMa fmt) (row.take (rowBytesOf (fmtMa fmt) 32)) e)
    if keep = 0 then
      let (ts, c, bad) := rowTerms fmt row j0 n (e + 1) carry
      (some (e, v) :: ts, c, bad)
    else
      let j := j0 + e
      let carry := if j % keep = 0 then 0 else carry
      let pos := leNat (row.drop (rowBytesOf (fmtMa fmt) 32)) / 16 ^ e % 16
      if pos < 12 ∧ carry ≤ pos then
        let (ts, c, bad) := rowTerms fmt row j0 n (e + 1) (pos + 1)
        (some (12 * (j / keep) + pos, v) :: ts, c, bad)
      else
        let (ts, c, _) := rowTerms fmt row j0 n (e + 1) carry
        (none :: ts, c, true)

/-- B at a logical position of the unit, in column j. -/
def bVal (m : Matrix) (fmt : Word) (nc k j : Nat) : Num :=
  let rb := rowBytes fmt 1
  decodeMa (fmtMb fmt) (elemAt (fmtMb fmt) ((m.bufs.inB.drop ((k / 32 * nc + j) * rb)).take rb) (k % 32))

/-- A scale byte at a logical position, of row or column r of `rows`. -/
def scaleAt (buf : List Byte) (fmt : Word) (rows k r : Nat) : Nat :=
  let per := scalePer fmt
  fieldAt buf ((k / 32 * rows + r) * per + k % 32 / (32 / per)) 1

/-- One term of R45. -/
def termAt (m : Matrix) (fmt : Word) (mr nc i j k : Nat) (v : Num) : Num :=
  let p := v.mul (bVal m fmt nc k j)
  if scalePer fmt = 0 then p
  else scaleValue (scaleValue p (scaleAt m.bufs.scA fmt mr k i)) (scaleAt m.bufs.scB fmt nc k j)

/-- The value of an INT8 term. -/
def intOf (x : Num) : Int :=
  match x with
  | .fin neg m e => if neg then -((m * 2 ^ e.toNat : Nat) : Int) else ((m * 2 ^ e.toNat : Nat) : Int)
  | _ => 0

/-- Element (i, j) after a step (R45, R46). -/
def stepElem (m : Matrix) (fmt : Word) (mr nc i j : Nat) (old : Word) (ts : List (Option (Nat × Num))) : Word :=
  let terms := ts.map fun t => match t with
    | some (k, v) => termAt m fmt mr nc i j k v
    | none => .fin false 0 0
  if fmtMacc fmt = 1 then wInt (old.toInt + (terms.map intOf).foldl (· + ·) 0)
  else rne32 (exactSum (dec32 old :: terms))

/-- The accumulator after a step, the carried positions and the MSTAT bits. -/
def stepSlot (m : Matrix) (fmt : Word) (mr nc t : Nat) (carry : List Nat) (a : AccSlot) : AccSlot × List Nat × Word :=
  let rb := rowBytes fmt 0
  (List.range mr).foldl (fun (acc : AccSlot × List Nat × Word) i =>
    let row := (m.bufs.inA.drop (i * rb)).take rb
    let (ts, cy, bad) := rowTerms fmt row (32 * (t % (sparOf fmt).2.1)) 32 0 (carry.getD i 0)
    let (b, nan) := (List.range nc).foldl (fun (x : AccSlot × Bool) j =>
      let w := stepElem m fmt mr nc i j (accVal x.1 i j) ts
      (accPut x.1 i j w, x.2 || (fmtMacc fmt == 0 && w == canonNan))) (acc.1, false)
    (b, acc.2.1 ++ [cy], acc.2.2 ||| (if bad then 1 else 0) ||| if nan then 4 else 0)) (a, [], 0)

/-- The buffers after a step: its row of `inA` is used up, and with the last step of a unit the unit's other streams. -/
def usedBufs (b : OperandBufs) (fmt : Word) (mr nc done : Nat) : OperandBufs :=
  let cut := fun (st : Nat) (x : List Byte) => x.drop (rowsPer fmt mr nc st * rowBytes fmt st)
  let b := { b with inA := cut 0 b.inA }
  if done % (sparOf fmt).2.1 = 0 then { b with inB := cut 1 b.inB, scA := cut 2 b.scA, scB := cut 3 b.scB } else b

/-- MLOOP_STEP: the step in progress ends; the last one completes the member. -/
def mloopStep (c : Nat) (s : State) : State :=
  let m := (s.core c).mat
  match m.queue with
  | x :: xs =>
    match x.op with
    | .mloop count mr nc z fmt =>
      if s.ac < x.due then s
      else if count = 0 then memberDone c (if z then onSlot c x.slot accZero s else s)
      else if !x.started then s
      else
        let a := accSlot s c x.slot
        let (a, carry, fl) := stepSlot m fmt mr nc x.done x.carry (if z ∧ x.done = 0 then accZero a else a)
        let y := { x with done := x.done + 1, carry := carry, flags := x.flags ||| fl, started := false, due := s.ac }
        let s := onMat c (fun m => { m with queue := y :: xs, bufs := usedBufs m.bufs fmt mr nc y.done }) (onSlot c x.slot (fun _ => a) s)
        if count ≤ y.done then memberDone c s else onMat c (armStep s.ac) s
    | _ => s
  | [] => s

/-- A member that waits at a step boundary for bytes of a stream. -/
def starvedOn (s : State) (c : Nat) : Option (List Nat) :=
  let m := (s.core c).mat
  match m.queue with
  | x :: _ =>
    match x.op with
    | .mloop count mr nc _ fmt =>
      if x.started ∨ count ≤ x.done ∨ stepReady m fmt mr nc then none
      else some ((List.range 4).filter fun st => decide ((bufOf m.bufs st).length < rowsPer fmt mr nc st * rowBytes fmt st))
    | _ => none
  | [] => none

/-- SEQUENCER_ABANDON (R326): no team of the block is left, and no fill is queued on a starved stream that has no whole row. -/
def abandonSeq (c : Nat) (s : State) : State :=
  match starvedOn s c, (s.core c).mat.owner with
  | some sts, some k =>
    let fmt := match ((s.core c).mat.queue.head?).map (·.op) with
      | some (.mloop _ _ _ _ f) => f
      | _ => 0
    let dry := sts.any fun st => (fillsOf s c st).isEmpty && decide ((vget [] (s.core c).fifo st).length < rowBytes fmt st)
    if !dry ∨ !(teamsOf s k).isEmpty then s
    else
      let free := fun (i : Nat) (a : AccSlot) => { a with vals := [], undef := some (s.fresh + 4096 * i) }
      let s := onMat c (fun m => { m with queue := [], acc := m.acc.mapIdx free }) s
      { s.onGrid (s.block k).grid fun x => { x with stFlags := x.stFlags ||| 2 } with fresh := s.fresh + 16384 }
  | _, _ => s

/-! ### Drains and batches -/

/-- The bytes of an element that a drain writes to the vault (R330). -/
def drainBytes (bf int : Bool) (sat : Nat) (w : Word) : List Byte :=
  if bf then leBytes 2 (packHalf bf16 0 sat (if int then .fin (w.getLsbD 31) w.toInt.natAbs 0 else dec32 w)) else leBytes 4 w.toNat

/-- Bytes written by a member into its block's region: the presence bits of their lines are set (R226, R340). -/
def memberStore (c off : Nat) (bs : List Byte) (s : State) : State := presenceWrite c off bs.length (s.store (vaultKey c off) bs)

/-- MDRAIN_EXECUTE (R330, R331). -/
def drainExecute (c : Nat) (s : State) : State :=
  match (s.core c).mat.queue with
  | x :: _ =>
    if s.ac < x.due then s
    else
      let a := accSlot s c x.slot
      let b := s.block (((s.core c).mat.owner).getD 0)
      match x.op with
      | .drainV off st bf z int sat =>
        let s := (List.range 64).foldl (fun s r =>
          memberStore c (b.voff + off + r * st) ((List.range 64).flatMap fun j => drainBytes bf int sat (accVal a r j)) s) s
        memberDone c (if z then onSlot c x.slot accZero s else s)
      | .drainReg n r0 c0 act tag =>
        let lanes := (lanesOf act).filter fun l => decide (r0 + l < 64)
        memberDone c (memberResult x.tid tag (fun regs => (regs.take n).zipIdx.flatMap fun p => lanes.map fun l =>
          ⟨l, p.1, accVal a (r0 + l) (c0 + p.2)⟩) s)
      | _ => s
  | [] => s

/-- MDRAIN_PORT_HANDOFF (R332): after the ticket the elements are handed over; an entry that can take none completes the member. -/
def portHandoff (c : Nat) (s : State) : State :=
  match (s.core c).mat.queue with
  | x :: xs =>
    match x.op with
    | .drainPort hd e z =>
      let zero := fun (s : State) => if z then onSlot c x.slot accZero s else s
      if portGone s hd then memberDone c (zero s)
      else if !portReady s hd then s
      else if !x.started then onMat c (fun m => { m with queue := { x with started := true, due := s.ac + 64 } :: xs }) s
      else if s.ac < x.due ∨ !sendTurn s (handleIdx hd) then s
      else
        let a := accSlot s c x.slot
        memberDone c (zero (portPut hd e ((List.range 4096).map fun i => accVal a (i / 64) (i % 64)) s))
    | _ => s
  | [] => s

/-- BATCH_COMPLETE (R320): the oldest closed batch, once its members have completed; its waiters wake. -/
def batchDone (c : Nat) (s : State) : State :=
  let m := (s.core c).mat
  match m.batches with
  | [] => s
  | b :: rest =>
    if m.queue.any fun x => x.batch == b then s
    else
      let s := onMat c (fun m => { m with batches := rest }) s
      let wake := fun (t : Team) => if t.park = .mwait b ∧ coreOf t.tid = c then unparked s.ac t else t
      { s with team := wake s.team, teams := mmap wake s.teams }

/-! ### Meanings -/

/-- BATON.TAKE (R318). -/
def execBatonTake (h : Hd) (s : State) : Out := .next (doBatonTake h s)
/-- BATON.GIVE (R318). -/
def execBatonGive (h : Hd) (s : State) : Out := .next (doBatonGive h s)
/-- BATON.PASS (R318). -/
def execBatonPass (h : Hd) (a : RegF) (s : State) : Out := .next (doBatonPass h a s)
/-- MLOOP (R321). -/
def execMloop (h : Hd) (a : RegF) (l : Word) (s : State) : Out := .next (doMloop h a l s)
/-- MFENCE (R327). -/
def execMfence (h : Hd) (d : RegF) (s : State) : Out := .next (doMfence h d s)
/-- MWAIT (R328). -/
def execMwait (h : Hd) (a : RegF) (s : State) : Out := .next (doMwait h a s)
/-- MDRAIN.VF32 (R330). -/
def execMdrainVf32 (h : Hd) (d a : RegF) (z : Bool) (k : BitVec 2) (s : State) : Out := .next (doDrainV h false d a z k.toNat s)
/-- MDRAIN.VBF16 (R330). -/
def execMdrainVbf16 (h : Hd) (d a : RegF) (z : Bool) (k : BitVec 2) (s : State) : Out := .next (doDrainV h true d a z k.toNat s)
/-- MDRAIN.REG (R331). -/
def execMdrainReg (h : Hd) (d a : RegF) (c : BitVec 3) (k : BitVec 2) (s : State) : Out := .next (doDrainReg h d a c k.toNat s)
/-- MDRAIN.PORT (R332). -/
def execMdrainPort (h : Hd) (d a : RegF) (z : Bool) (k : BitVec 2) (s : State) : Out := .next (doDrainPort h d a z k.toNat s)
/-- OPERAND_ROW_DRAW (R326): the selection names the core and the stream. -/
def execOperandRowDraw (s : State) : Out := .next (drawRow s.sel.unit s.sel.sub s)
/-- MLOOP_STEP (R324): the selection names the core. -/
def execMloopStep (s : State) : Out := .next (mloopStep s.sel.unit s)
/-- MDRAIN_EXECUTE (R330): the selection names the core. -/
def execMdrainExecute (s : State) : Out := .next (drainExecute s.sel.unit s)
/-- MDRAIN_PORT_HANDOFF (R332): the selection names the core. -/
def execMdrainPortHandoff (s : State) : Out := .next (portHandoff s.sel.unit s)
/-- BATCH_COMPLETE (R320): the selection names the core. -/
def execBatchComplete (s : State) : Out := .next (batchDone s.sel.unit s)
/-- SEQUENCER_ABANDON (R326): the selection names the core. -/
def execSequencerAbandon (s : State) : Out := .next (abandonSeq s.sel.unit s)

end Sys2Proof.Machine
end

