-- ==== Sys2Proof/Machine/Transport.lean ====
section
/-!
DEFINITION. Transport tiles (R333 to R339): TPIO and BAL, at their issue and as the sequencer executes them.
-/

namespace Sys2Proof.Machine

/-! ### Issue -/

/-- TPIO after R319, with the checks of R335 that its sub-operations share: the operands are no vectors and the slot is in transport mode. -/
def withTile (vec : Bool) (k : Nat) (s : State) (go : AccSlot → State → State) : State :=
  match memberTrap s with
  | some c => trapI c 4 (begin 1 s)
  | none =>
    let x := accSlot s s.myCore k
    if vec ∨ !x.mode then trapI cILLOPND 4 (begin 1 s) else go x s

/-- The checks of an own-vault range: its offset, its end; then the member is issued. -/
def issueRange (h : Hd) (p : Nat) (a : RegF) (k off ext : Nat) (op : MemberOp) (s : State) : State :=
  if s.myBlock.vbytes < off + ext then trapAll (opndFault cVRANGE off) 4 (begin 1 s)
  else issueMember h 4 p k op (applyHints h a 1 a 0 []) s

/-- TPIO.LDK and TPIO.STP: rows of `w × n` bytes at a stride. -/
def doTileRows (h : Hd) (d a : RegF) (k w : Nat) (op : Nat → Nat → MemberOp) (s : State) : State :=
  withOps 4 false [src a, src d] s fun s =>
    withTile (isVec a || isVec d) k s fun x s =>
      let off := (rdu s a).toNat
      let st := (rdu s d).toNat
      if off % 4 ≠ 0 then trapAll (opndFault cALIGN off) 4 (begin 1 s)
      else if st % 4 ≠ 0 ∨ st < w * x.n then trapAll (opndFault cALIGN 0) 4 (begin 1 s)
      else issueRange h 1 a k off ((x.m - 1) * st + w * x.n) (op off st) s

/-- TPIO.LDA, TPIO.LDB and TPIO.STF: words in sequence. -/
def doTileWords (h : Hd) (a : RegF) (k : Nat) (count : AccSlot → Nat) (op : Nat → MemberOp) (s : State) : State :=
  withOps 4 false [src a] s fun s =>
    withTile (isVec a) k s fun x s =>
      let off := (rdu s a).toNat
      if off % 4 ≠ 0 then trapAll (opndFault cALIGN off) 4 (begin 1 s)
      else issueRange h 1 a k off (4 * count x) (op off) s

/-- TPIO.COST. -/
def doTileCost (h : Hd) (d a : RegF) (k : Nat) (s : State) : State :=
  withOps 4 false [src a, dst d] s fun s =>
    withTile (isVec a || isVec d) k s fun _ s =>
      issueMemberReg h 4 1 k (.cost (rdu s a)) (codesOf s d 1) false (applyHints h a 1 a 0 []) s

/-- TPIO.SIZE: transport mode and the shape are set at issue. -/
def doTileSize (h : Hd) (a : RegF) (k : Nat) (s : State) : State :=
  withOps 4 false [src a] s fun s =>
    match memberTrap s with
    | some c => trapI c 4 (begin 1 s)
    | none =>
      let m := bitsOf (rdu s a).toNat 6 0
      let n := bitsOf (rdu s a).toNat 14 8
      if isVec a ∨ m < 1 ∨ 64 < m ∨ n < 1 ∨ 64 < n then trapI cILLOPND 4 (begin 1 s)
      else if memberWaits (s.core s.myCore).mat then stallOn 0x0C s
      else if vaultPending s.team then stallOn 0x02 s
      else
        let s := onSlot s.myCore k (fun x => { x with mode := true, m := m, n := n }) s
        issueMember h 4 1 k (.size m n) (applyHints h a 1 a 0 []) s

/-- BAL (R338). -/
def doBal (h : Hd) (d a b : RegF) (l : Word) (s : State) : State :=
  withOps 8 false [src a, src b, dstPair d] s fun s =>
    match memberTrap s with
    | some c => trapI c 8 (begin 1 s)
    | none =>
      let k := bitsOf l.toNat 1 0
      let limit := (rdu s a).toNat
      if !isScalar d ∨ isVec a ∨ isVec b ∨ 255 < limit ∨ !(accSlot s s.myCore k).mode then trapI cILLOPND 8 (begin 1 s)
      else issueMemberReg h 8 1 k (.bal limit (rdu s b)) (codesOf s d 2) false (applyHints h a 1 b 1 []) s

/-! ### Execution -/

/-- A word of the block's region; one marked uncorrectable reads as a free value, with ENGFAULT (R424, log entry 70). -/
def tileWord (s : State) (c base off : Nat) : Word :=
  if badAt s (vaultKey c (base + off)) 4 then Config.freeWord (s.fresh + off) else w32 (leNat (s.load (vaultKey c (base + off)) 4))

/-- The offsets of the words that a load reads. -/
def tileOffs (op : MemberOp) (a : AccSlot) : List Nat :=
  match op with
  | .ldk off st => (List.range (a.tm * a.tn)).map fun x => off + x / a.tn * st + 4 * (x % a.tn)
  | .lda off => (List.range a.tm).map fun i => off + 4 * i
  | .ldb off => (List.range a.tn).map fun j => off + 4 * j
  | _ => []

/-- The first word of a load that is marked uncorrectable raises ENGFAULT ECC in the member's team, or in the block's live team of lowest role, or
aborts the block (R313, R424). The spec gives a sequencer no job number: TJOB is a free value, JOBCTL finds no job, and the member goes on
(log entry 70). -/
def tileEcc (c blk base : Nat) (x : Member) (a : AccSlot) (s : State) : State :=
  match (tileOffs x.op a).find? fun off => badAt s (vaultKey c (base + off)) 4 with
  | none => s
  | some off =>
    let uid := ((s.allTeams.find? fun t => t.tid == x.tid && t.blk == blk).map teamUid).getD (4 * blk)
    let (num, s) := { s with fresh := s.fresh + 2 ^ 20 }.takeFree
    match faultTeam s (s.block blk).grid uid with
    | some u => eventTo (s.block blk).grid u (.engfault s.ac 256 num efECC (BitVec.ofNat 64 off)) s
    | none => abortBlock blk 16 cENGFAULT s

/-- The cost of a plan (R336). -/
def planCost (eps : Word) (a : AccSlot) : Word :=
  (List.range (a.tm * a.tn)).foldl (fun c x =>
    let i := x / a.tn
    let j := x % a.tn
    let p := planVal a i j
    if p = 0 then c else fAdd c (fMul p (rne32 ((dec32 eps).negate.mul (dec32 (tK a i j)))))) 0

/-- An element of a plan as STP writes it (R336). -/
def planBytes (bf : Bool) (w : Word) : List Byte := if bf then leBytes 2 (roundFp bf16 0 (dec32 w)) else leBytes 4 w.toNat

/-- The slot after a load or SIZE. -/
def tileLoad (s : State) (c base : Nat) (op : MemberOp) (a : AccSlot) : AccSlot :=
  match op with
  | .ldk off st => { a with k := (List.range (a.tm * a.tn)).foldl (fun m x =>
      mset fNegInf m (64 * (x / a.tn) + x % a.tn) (tileWord s c base (off + x / a.tn * st + 4 * (x % a.tn)))) a.k }
  | .lda off => { a with rowm := (List.range a.tm).foldl (fun m i => mset fNegInf m i (tileWord s c base (off + 4 * i))) a.rowm }
  | .ldb off => { a with colm := (List.range a.tn).foldl (fun m j => mset fNegInf m j (tileWord s c base (off + 4 * j))) a.colm }
  | .size m n => { a with tm := m, tn := n, k := [], f := [], g := [], rowm := [], colm := [] }
  | _ => a

/-- TPIO_EXECUTE (R335, R336). -/
def tileExecute (c : Nat) (s : State) : State :=
  match (s.core c).mat.queue with
  | [] => s
  | x :: _ =>
    if s.ac < x.due then s
    else
      let a := accSlot s c x.slot
      let blk := ((s.core c).mat.owner).getD 0
      let base := (s.block blk).voff
      let load := tileEcc c blk base x a (memberDone c (onSlot c x.slot (tileLoad s c base x.op) s))
      match x.op with
      | .ldk _ _ => load
      | .lda _ => load
      | .ldb _ => load
      | .size _ _ => memberDone c (onSlot c x.slot (tileLoad s c base x.op) s)
      | .stp off st bf =>
        memberDone c ((List.range a.tm).foldl (fun s i =>
          memberStore c (base + off + i * st) ((List.range a.tn).flatMap fun j => planBytes bf (planVal a i j)) s) s)
      | .stf off =>
        memberDone c (memberStore c (base + off) (((List.range a.tm).flatMap fun i => leBytes 4 (tF a i).toNat) ++
          (List.range a.tn).flatMap fun j => leBytes 4 (tG a j).toNat) s)
      | .cost eps tag => memberDone c (memberResult x.tid tag (fun regs => regs.map fun r => ⟨0, r, planCost eps a⟩) s)
      | _ => s

/-- BAL_EXECUTE (R339). -/
def balExecute (c : Nat) (s : State) : State :=
  match (s.core c).mat.queue with
  | x :: xs =>
    match x.op with
    | .bal limit tol tag =>
      if s.ac < x.due then s
      else
        let (a, sw, e, inf) := balRun limit tol (accSlot s c x.slot)
        let s := onMat c (fun m => { m with queue := { x with flags := if inf then 2 else 0 } :: xs }) (onSlot c x.slot (fun _ => a) s)
        memberDone c (memberResult x.tid tag (fun regs => (regs.zip [w32 sw, e]).map fun p => ⟨0, p.1, p.2⟩) s)
    | _ => s
  | [] => s

/-! ### Meanings -/

/-- TPIO.LDK (R334). -/
def execTpioLdk (h : Hd) (d a : RegF) (k : BitVec 2) (s : State) : Out := .next (doTileRows h d a k.toNat 4 .ldk s)
/-- TPIO.LDA (R334). -/
def execTpioLda (h : Hd) (a : RegF) (k : BitVec 2) (s : State) : Out := .next (doTileWords h a k.toNat (·.m) .lda s)
/-- TPIO.LDB (R334). -/
def execTpioLdb (h : Hd) (a : RegF) (k : BitVec 2) (s : State) : Out := .next (doTileWords h a k.toNat (·.n) .ldb s)
/-- TPIO.STP (R334, R336). -/
def execTpioStp (h : Hd) (d a : RegF) (f : Bool) (k : BitVec 2) (s : State) : Out :=
  .next (doTileRows h d a k.toNat (if f then 2 else 4) (fun o st => .stp o st f) s)
/-- TPIO.STF (R334). -/
def execTpioStf (h : Hd) (a : RegF) (k : BitVec 2) (s : State) : Out := .next (doTileWords h a k.toNat (fun x => x.m + x.n) .stf s)
/-- TPIO.COST (R336). -/
def execTpioCost (h : Hd) (d a : RegF) (k : BitVec 2) (s : State) : Out := .next (doTileCost h d a k.toNat s)
/-- TPIO.SIZE (R335). -/
def execTpioSize (h : Hd) (a : RegF) (k : BitVec 2) (s : State) : Out := .next (doTileSize h a k.toNat s)
/-- BAL (R338). -/
def execBal (h : Hd) (d a b : RegF) (l : Word) (s : State) : Out := .next (doBal h d a b l s)
/-- TPIO_EXECUTE (R335): the selection names the core. -/
def execTpioExecute (s : State) : Out := .next (tileExecute s.sel.unit s)
/-- BAL_EXECUTE (R339): the selection names the core. -/
def execBalExecute (s : State) : Out := .next (balExecute s.sel.unit s)

end Sys2Proof.Machine
end

