-- ==== Sys2Proof/Machine/Traps.lean ====
section
/-!
DEFINITION. TRAP and RETT (R350, R351), the system registers and SYS (R348, R349), page faults in a handler (R355, R356), invalidations
(R243, R348), and the decisions of JOBCTL (R357).
-/

namespace Sys2Proof.Machine

/-! ### TRAP, BRK and RETT -/

/-- A trap that an instruction raises on purpose (R350, R374), after its passes: it resumes after the instruction. -/
def softTrap (p cause code : Nat) (s : State) : State :=
  let s := begin p s
  let t := s.team
  raise { cause := cause, sub := code, mask := t.active, saved := savedMask t, tpc := t.pc, tnext := nextPc t 4, event := true } s

/-- The addresses that RETT checks: those that it goes to (R351), and those that the handler has written (R348). -/
def rettTargets (k : TrapState) (skip : Bool) : List VAddr :=
  (if k.event ∨ skip then [k.tnext] else if k.entry = k.active then [k.tpc] else [k.tpc, k.tnext]) ++
    (if k.wroteTpc then [k.tpc] else []) ++ (if k.wroteTnext then [k.tnext] else [])

/-- JOBCTL's decision on the job or part that an ENGFAULT names (R357, R398). -/
def decideJob (resume : Bool) (s : State) : State :=
  let k := s.team.trap
  if k.tcause.toNat % 64 ≠ cENGFAULT then s
  else if bitAt k.tcause.toNat 22 then (if resume then resumeColl k.tjob s else abandonColl k.tjob s)
  else if resume then resumeJob k.jobDie k.tjob s else abandonJob k.jobDie k.tjob s

/-- A write of 1 or 2 to JOBCTL. -/
def jobctl (resume : Bool) (s : State) : State :=
  (decideJob resume s).onTeam fun t => { t with trap := { t.trap with jobctl := true } }

/-- RETT and RETT.SKIP (R351): without a write of JOBCTL the faulted job resumes (R357). -/
def doRett (h : Hd) (skip : Bool) (s : State) : State :=
  if !s.team.hmode then trapI cILLOPND 4 (begin 1 s)
  else if (rettTargets s.team.trap skip).any fun v => v.toNat % 4 != 0 then trapAll { cause := cALIGN } 4 (begin 1 s)
  else
    let s := begin 1 s
    let s := if s.team.trap.jobctl then s else decideJob true s
    let s := traceEmit [targetPacket s.team.pc (returnTrap skip s).team.pc] (tracePre s)
    markerPark h.sw (returnTrap skip s)

/-! ### Page faults (R355, R356) -/

/-- The physical address of the entry of a level that the walk of a VA reaches, when it reaches that level and meets no error. -/
def entryFrom (s : State) (va level : Nat) : Nat → Nat → Option Nat
  | 0, _ => none
  | l + 1, table =>
    if paLost s (entryPa table l va) ∨ wordEcc s (entryPa table l va) ≠ 0 then none
    else if l = level then some (entryPa table l va)
    else
      let e := leNat (readPa s (entryPa table l va) 8)
      if bitsOf e 11 9 = 1 then entryFrom s va level l (bitsOf e 55 12 * 4096) else none

/-- Pages of the entry mask's lanes that `p` picks, each once: level and base. -/
def faultPages (t : Team) (p : LaneFault → Bool) : List (Nat × Nat) :=
  ((t.trap.lanes.filter fun x => x.2.cause == cPAGE && p x.2).map fun x =>
    (x.2.level, x.2.faddr.toNat / levelSize x.2.level * levelSize x.2.level)).eraseDups

/-- Writes bytes into memory line by line past a core's cache, in whose copies they also appear. -/
def zeroFrame (core pa n : Nat) (s : State) : State :=
  (List.range (n / 128)).foldl (fun s i => bypassStore core (pa + 128 * i) (List.replicate 128 0) s) s

/-- The frames of a context's pool for a level, and the pool without its first. -/
def poolFrames (c : Ctx) (level : Nat) : List Nat := if level = 0 then c.pool4 else c.pool64
def poolDrop (c : Ctx) (level : Nat) : Ctx := if level = 0 then { c with pool4 := c.pool4.tail } else { c with pool64 := c.pool64.tail }

/-- FTMAP on one candidate: how many it mapped and left unmapped, and the state. The leaf is written with a release at DEV (R355, R275). -/
def ftmapPage (page : Nat × Nat) (s : State) : Nat × Nat × State :=
  let ctx := s.myCtx
  match entryFrom s page.2 page.1 6 (s.ctx ctx).root with
  | none => (0, 1, s)
  | some pa =>
    let e := leNat (readPa s pa 8)
    if bitsOf e 11 9 = 2 then (0, 0, s)
    else if bitsOf e 11 9 ≠ 3 then (0, 1, s)
    else match poolFrames (s.ctx ctx) page.1 with
      | [] => (0, 1, s)
      | f :: _ =>
        let s := zeroFrame s.myCore f (pageSize page.1) (s.onCtx ctx fun c => poolDrop c page.1)
        let keep := e - bitsOf e 55 12 * 2 ^ 12 - bitsOf e 11 9 * 2 ^ 9
        (1, 0, bypassStore s.myCore pa (leBytes 8 (keep + f / 4096 * 2 ^ 12 + 2 * 2 ^ 9)) (releaseCache s.myCore 4 s))

/-- The end of a park that writes a register: D receives its value and the team goes on. -/
def endRead (reg : Nat) (w : Word) (s : State) : State := unpark (s.onTeam (writeReg reg 0 w))

/-- FTMAP (R355): every candidate in one step, once their tables are reached (R1), then D. -/
def ftmapRun (s : State) : State :=
  match s.team.park with
  | .ftmap reg =>
    let pages := faultPages s.team fun f => f.ptype == 3 && decide (f.level ≤ 1)
    if pages.any fun p => !walkReaches s s.myCore s.myCtx p.2 then s
    else
    let (m, u, s) := pages.foldl (fun (acc : Nat × Nat × State) p =>
      let (m, u, s) := ftmapPage p acc.2.2
      (acc.1 + m, acc.2.1 + u, s)) (0, 0, s)
    endRead reg (w32 (m % 2 ^ 16 + u % 2 ^ 16 * 2 ^ 16)) s
  | _ => s

/-- The requests of a read of HOSTREQ: the base, level and kind of every page still unmapped (R356). -/
def hostPages (s : State) : List (Nat × Nat × Nat) :=
  let ps := faultPages s.team fun f => !(walk s s.myCtx f.faddr.toNat).ok
  ps.map fun p =>
    let mine := s.team.trap.lanes.filter fun x => x.2.cause == cPAGE && x.2.level == p.1 && x.2.faddr.toNat / levelSize p.1 * levelSize p.1 == p.2
    (p.2, p.1, (mine.map fun x => x.2.kind).foldl max 0)

/-- Sends a page request (R356, R391). -/
def sendRequest (s : State) (r : Nat × Nat × Nat) : State :=
  let ctx := s.myCtx
  let q : PageReq := { seq := s.nextSeq, ctx := ctx, va := r.1, level := r.2.1, kind := r.2.2, tid := s.team.tid }
  let c := s.ctx ctx
  sendOut c.reqEp c.reqAddr.toNat
    (padTo 64 (leBytes 4 s.nextSeq ++ leBytes 2 ctx ++ leBytes 1 r.2.2 ++ leBytes 1 r.2.1 ++ leBytes 8 r.1))
    { s with preq := s.preq ++ [q], nextSeq := (s.nextSeq + 1) % 2 ^ 32 }

/-- HOSTREQ (R356): requests go out while the page-request table has room; with every one answered D receives the lanes refused. -/
def hostreqRun (s : State) : State :=
  match s.team.park with
  | .hostreq reg todo refused =>
    let n := 256 - s.preq.length
    let s' := (todo.take n).foldl sendRequest s
    let rest := todo.drop n
    if rest.isEmpty ∧ !(s'.preq.any fun q => q.tid == s.team.tid) then endRead reg (w32 (maskCount refused)) s'
    else s'.onTeam fun t => { t with park := .hostreq reg rest refused }
  | _ => s

/-- An answer reaches the team of a request: lanes of a refused page are marked failed (R351, R356). -/
def answerTeam (q : PageReq) (mapped : Bool) (s : State) : State :=
  if mapped then s
  else s.withTeam q.tid fun s => s.onTeam fun t =>
    let hit := maskOf ((t.trap.lanes.filter fun x => x.2.cause == cPAGE && x.2.level == q.level &&
      x.2.faddr.toNat / levelSize q.level * levelSize q.level == q.va).map (·.1))
    match t.park with
    | .hostreq reg todo refused =>
      { t with trap := { t.trap with failed := t.trap.failed ||| hit }, park := .hostreq reg todo (refused ||| hit) }
    | _ => t

/-! ### Invalidation (R243, R348) -/

/-- The invalidation that an IVHI write waits for, when it is of the given kind. -/
def invalRun (all : Bool) (s : State) : State :=
  match s.team.park with
  | .inval a va =>
    if a ≠ all then s
    else unpark (invalidate s.myCtx (fun base size => all || decide (base ≤ va ∧ va < base + size)) s)
  | _ => s

/-! ### System registers (R348, R376, R425) -/

/-- Whether the core's matrix engine belongs to the team's block. -/
def ownMatrix (s : State) : Bool := s.myBlock.matuse

/-- Word 0 of the grid status (R354). -/
def gstatWord (g : Grid) : Word := w32 (g.stFlags % 256 + g.fcause % 256 * 2 ^ 8 + g.nabort % 65536 * 2 ^ 16)

/-- The value of a register that a read only returns. -/
def sysValue (s : State) (idx : Nat) : Option Word :=
  let t := s.team
  let k := t.trap
  let only := fun (w : Word) => if t.hmode then some w else none
  match idx with
  | 0x00 => some t.tstat
  | 0x01 => only (w32 k.tpc.toNat)
  | 0x02 => only (w32 (k.tpc.toNat / 2 ^ 32))
  | 0x03 => only (w32 k.tnext.toNat)
  | 0x04 => only (w32 (k.tnext.toNat / 2 ^ 32))
  | 0x05 => only k.tcause
  | 0x06 => only k.tjob
  | 0x0A => some (w32 s.prlate)
  | 0x0B => some (w32 (s.myCtx % 65536))
  | 0x0C => some (w32 s.myBlock.voff)
  | 0x0D => some (gstatWord s.myGrid)
  | 0x0E => only (k.tfaddr.extractLsb' 0 32)
  | 0x0F => only (k.tfaddr.extractLsb' 32 32)
  | 0x10 => some (t.rwc.extractLsb' 0 32)
  | 0x11 => some (t.rwc.extractLsb' 32 32)
  | 0x12 => only s.cecount
  | 0x13 => only k.ivlo
  | 0x18 => some (if ownMatrix s then (s.core s.myCore).mat.mstat else 0)
  | _ => none

/-- SYS.RD (R349). -/
def doSysRd (h : Hd) (d : RegF) (i : BitVec 6) (s : State) : State :=
  withOps 4 true [dst d] s fun s =>
    if !isScalar d then trapI cILLOPND 4 (begin 1 s)
    else
      let code := regCode s.team d.toNat
      match sysValue s i.toNat with
      | some w => finish h 4 ((begin 1 s).onTeam (writeReg code 0 w))
      | none =>
        if s.team.hmode ∧ i = 0x08#6 then parkAt (.ftmap code) (finish h 4 (begin 1 s))
        else if s.team.hmode ∧ i = 0x09#6 then parkAt (.hostreq code (hostPages s) 0) (finish h 4 (begin 1 s))
        else trapI cILLOPND 4 (begin 1 s)

/-- A half of a saved address with a word written to it. -/
def putLow (v : VAddr) (w : Word) : VAddr := v.extractLsb' 32 25 ++ w
def putHigh (v : VAddr) (w : Word) : VAddr := w.extractLsb' 0 25 ++ v.extractLsb' 0 32

/-- The trap state after a write to a register of the handler. -/
def sysTrap (k : TrapState) (idx : Nat) (w : Word) : Option TrapState :=
  match idx with
  | 0x01 => some { k with tpc := putLow k.tpc w, wroteTpc := true }
  | 0x02 => some { k with tpc := putHigh k.tpc w, wroteTpc := true }
  | 0x03 => some { k with tnext := putLow k.tnext w, wroteTnext := true }
  | 0x04 => some { k with tnext := putHigh k.tnext w, wroteTnext := true }
  | 0x13 => some { k with ivlo := w &&& 0xFFFFF000#32 }
  | _ => none

/-- TSTAT_WRITE, MSTAT_WRITE and CECOUNT_WRITE on the focused team's registers (R18, R316, R425). -/
def tstatPut (w : Word) (s : State) : State := s.onTeam fun t => { t with tstat := tstatWrite t.tstat w }
def mstatPut (w : Word) (s : State) : State :=
  if ownMatrix s then s.onCore s.myCore fun c => { c with mat := { c.mat with mstat := mstatWrite c.mat.mstat w } } else s
def cecountPut (w : Word) (s : State) : State := { s with cecount := cecountWrite s.cecount w }

/-- SYS.WR (R349). -/
def doSysWr (h : Hd) (a : RegF) (i : BitVec 6) (s : State) : State :=
  withOps 4 true [src a] s fun s =>
    let w := rdu s a
    let hint := applyHints h a 1 a 0 []
    let go := fun (s : State) => finish h 4 ((begin 1 s).onTeam hint)
    if i = 0x00#6 then go (tstatPut w s)
    else if i = 0x18#6 then go (mstatPut w s)
    else if !s.team.hmode then trapI cILLOPND 4 (begin 1 s)
    else if i = 0x07#6 then go (if w = 1 then jobctl true s else if w = 2 then jobctl false s else s)
    else if i = 0x12#6 then go (cecountPut w s)
    else if i = 0x14#6 then
      parkAt (.inval (w.getLsbD 31) (s.team.trap.ivlo.toNat + bitsOf w.toNat 24 0 * 2 ^ 32)) (go s)
    else match sysTrap s.team.trap i.toNat w with
      | some k => go (s.onTeam fun t => { t with trap := k })
      | none => trapI cILLOPND 4 (begin 1 s)

/-! ### Meanings -/

/-- TRAP (R350). -/
def execTrap (_h : Hd) (c : BitVec 7) (s : State) : Out := .next (softTrap 1 cSWTRAP c.toNat s)
/-- RETT (R351). -/
def execRett (h : Hd) (s : State) : Out := .next (doRett h false s)
/-- RETT.SKIP (R351). -/
def execRettSkip (h : Hd) (s : State) : Out := .next (doRett h true s)
/-- SYS.RD (R349). -/
def execSysRd (h : Hd) (d : RegF) (i : BitVec 6) (s : State) : Out := .next (doSysRd h d i s)
/-- SYS.WR (R349). -/
def execSysWr (h : Hd) (a : RegF) (i : BitVec 6) (s : State) : Out := .next (doSysWr h a i s)
/-- TSTAT_WRITE (R18): what a SYS write of TSTAT does; the selection names the team and the value. -/
def execTstatWrite (s : State) : Out := .next (s.withTeam s.sel.unit (tstatPut (w32 s.sel.word)))
/-- MSTAT_WRITE (R316): what a SYS write of MSTAT does; the selection names the team and the value. -/
def execMstatWrite (s : State) : Out := .next (s.withTeam s.sel.unit (mstatPut (w32 s.sel.word)))
/-- CECOUNT_WRITE (R425): what a SYS write of CECOUNT does, in handler mode alone; the selection names the team and the value. -/
def execCecountWrite (s : State) : Out :=
  .next (s.withTeam s.sel.unit fun s => if s.team.hmode then cecountPut (w32 s.sel.word) s else s)
/-- FTMAP (R355): the selection names the team that reads it. -/
def execFtmap (s : State) : Out := .next (s.withTeam s.sel.unit ftmapRun)
/-- HOSTREQ (R356): the selection names the team that reads it. -/
def execHostreq (s : State) : Out := .next (s.withTeam s.sel.unit hostreqRun)
/-- JOBCTL_RESUME (R357): what a SYS write of 1 to JOBCTL does; the selection names the team. -/
def execJobctlResume (s : State) : Out := .next (s.withTeam s.sel.unit fun s => if s.team.hmode then jobctl true s else s)
/-- JOBCTL_ABANDON (R357): what a SYS write of 2 to JOBCTL does; the selection names the team. -/
def execJobctlAbandon (s : State) : Out := .next (s.withTeam s.sel.unit fun s => if s.team.hmode then jobctl false s else s)
/-- IVHI_INVALIDATE_PAGE (R348): the selection names the team that wrote IVHI. -/
def execIvhiInvalidatePage (s : State) : Out := .next (s.withTeam s.sel.unit (invalRun false))
/-- IVHI_INVALIDATE_ALL (R348): the selection names the team that wrote IVHI. -/
def execIvhiInvalidateAll (s : State) : Out := .next (s.withTeam s.sel.unit (invalRun true))

end Sys2Proof.Machine
end

