-- ==== Sys2Proof/Machine/Debug.lean ====
section
/-!
DEFINITION. MARK and BRK (R374), stall samples (R366 to R369), the trace ring (R363, R365), precise stops (R375, R377), and how parties of
the package that are no core reach memory through a context's tables.
-/

namespace Sys2Proof.Machine

/-! ### Accesses of the package's own parties -/

/-- A range of virtual addresses cut at the boundaries of lines. -/
def linePieces : Nat → Nat → Nat → List (Nat × Nat)
  | 0, _, _ => []
  | f + 1, a, n =>
    if n = 0 then [] else
      let k := min n (128 - a % 128)
      (a % 2 ^ 57, k) :: linePieces f (a + k) (n - k)

/-- The pieces of a range of `n` bytes. -/
def piecesOf (va n : Nat) : List (Nat × Nat) := linePieces (n / 128 + 2) va n

/-- The checks of an access of such a party to `n` bytes: a physical address, or the cause of the failure. -/
def devCheck (s : State) (need : Need) (va n : Nat) (x : Xl) : Nat ⊕ Nat :=
  match paCheck s need va x with
  | .ok pa _ =>
    match paKey s pa with
    | some k => if need = .load ∧ badAt s k n then .inr cECC else .inl pa
    | none => .inl pa
  | .fault f => .inr f.cause
  | .wait _ => .inr cPAGE

/-- Translation through a context's tables, without a TLB: a physical address, or the cause of the failure (R363, R390). -/
def devXl (s : State) (ctx : Nat) (need : Need) (va n : Nat) : Nat ⊕ Nat := devCheck s need va n (walkOutcome need va (walk s ctx va))

/-- A read of `n` bytes at a physical address: the bytes, or the first failure, with the physical address. -/
def devPhys (s : State) (pa n : Nat) : List Byte ⊕ (Nat × Nat) :=
  (piecesOf pa n).foldr (fun x rest =>
    match devCheck s .load x.1 x.2 (.ok x.1 false), rest with
    | .inr c, _ => .inr (x.1, c)
    | .inl _, .inl bs => .inl (readPa s x.1 x.2 ++ bs)
    | .inl _, .inr f => .inr f) (.inl [])

/-- The physical pieces of a range, or the first failure: its virtual address and its cause. -/
def devRange (s : State) (ctx : Nat) (need : Need) : List (Nat × Nat) → List (Nat × Nat) ⊕ (Nat × Nat)
  | [] => .inl []
  | (va, n) :: ps =>
    match devXl s ctx need va n with
    | .inr c => .inr (va, c)
    | .inl pa =>
      match devRange s ctx need ps with
      | .inl rest => .inl ((pa, n) :: rest)
      | .inr f => .inr f

/-- A read of `n` bytes: the bytes, or the first failure. -/
def devRead (s : State) (ctx va n : Nat) : List Byte ⊕ (Nat × Nat) :=
  match devRange s ctx .load (piecesOf va n) with
  | .inl ps => .inl (ps.flatMap fun p => readPa s p.1 p.2)
  | .inr f => .inr f

/-- Writes bytes piece by piece. -/
def writePieces : List (Nat × Nat) → List Byte → State → State
  | [], _, s => s
  | (pa, n) :: ps, bs, s => writePieces ps (bs.drop n) (writePa pa (bs.take n) s)

/-- A write, whole or not at all. -/
def devWrite (ctx va : Nat) (bs : List Byte) (s : State) : State ⊕ (Nat × Nat) :=
  match devRange s ctx .store (piecesOf va bs.length) with
  | .inl ps => .inl (writePieces ps bs s)
  | .inr f => .inr f

/-- The physical pieces of a range in a context's memory that no check of an access stops. -/
def vaPieces (s : State) (ctx va n : Nat) : List Nat :=
  (piecesOf va n).filterMap fun x =>
    let r := walk s ctx x.1
    if r.ok then some (r.frame * 4096 + x.1 % pageSize r.psz) else none

/-- Whether memory of a range lies in another package that is not lost, and whether no port reaches it (R1, R244, R382). -/
def pasFar (s : State) (pas : List Nat) : Bool := pas.any fun pa => paPkg pa != Config.packageIndex && !paLost s pa
def vaCut (s : State) (ctx va n : Nat) : Bool := !s.linked && pasFar s (vaPieces s ctx va n)

/-! ### MARK and BRK (R374) -/

/-- MARK: the packet with its tag and value. -/
def doMark (h : Hd) (a : RegF) (c : BitVec 7) (s : State) : State :=
  withOps 4 true [src a] s fun s =>
    let w := rdu s a
    let s := if s.team.traced then traceEmit [leBytes 1 0x70 ++ leBytes 1 c.toNat ++ leBytes 4 w.toNat] (tracePre s) else s
    finish h 4 ((begin 1 s).onTeam (applyHints h a 1 a 0 []))

/-! ### Stall samples -/

/-- The stall code of a parked team (R368). -/
def parkCode (s : State) (t : Team) : Nat :=
  match t.park with
  | .mwait _ => if (starvedOn s (coreOf t.tid)).isSome then 0x0F else t.park.code
  | _ => t.park.code

/-- Whether a team issued in this ac. -/
def issuedNow (s : State) (t : Team) : Bool := t.lastIssue == s.ac && t.rwc != 0

/-- Whether a precise stop holds a team (R375, R377). -/
def heldByStop (s : State) (tid : Nat) : Bool :=
  match s.stop with
  | some q => q.taken && q.named != some tid
  | none => false

/-- Whether another team of a team's scheduler issued in this ac. -/
def otherIssued (s : State) (t : Team) : Bool := s.allTeams.any fun u => u.tid != t.tid && u.tid / 16 == t.tid / 16 && issuedNow s u

/-- The stall code of a team of the sampled grid: the lowest that holds (R368, R369). A ready team has NOTSEL in the ac in which its scheduler chose
another team, and PIPE while the passes of an earlier choice hold the datapath. -/
def stallCode (s : State) (t : Team) : Nat :=
  if issuedNow s t then 0
  else
    let run := fun (b : Bool) (n : Nat) => if t.park = .run ∧ b then n else 0
    let cs := [run (heldByStop s t.tid) 0x01, parkCode s t, run true t.stall, run (decide (s.ac < t.rmove)) 0x13].filter (· != 0)
    match cs with
    | [] => if s.ac < t.readyAt then 0x15 else if otherIssued s t then 0x16 else if s.ac < mget 0 s.busy (t.tid / 16) then 0x15 else 0x16
    | c :: rest => rest.foldl min c

/-- The shape that a slot has at the issue of the members after a list of members of the queue (R335). -/
def shapeAfter (s : State) (core slot : Nat) (before : List Member) : Nat × Nat :=
  let a := accSlot s core slot
  (before.reverse.findSome? fun y => match y.op with
    | .size m n => if y.slot = slot then some (m, n) else none
    | _ => none).getD (a.tm, a.tn)

/-- Whether a member of a matrix engine, behind others in its queue, writes a line of its block's region (R330, R337). -/
def memberCovers (s : State) (core line : Nat) (before : List Member) (x : Member) : Bool :=
  let (m, n) := shapeAfter s core x.slot before
  let base := (s.block (((s.core core).mat.owner).getD 0)).voff
  let hits := fun (off n : Nat) => decide (0 < n ∧ base + off < (line + 1) * 128 ∧ line * 128 < base + off + n)
  match x.op with
  | .drainV off st bf _ _ _ => (List.range 64).any fun r => hits (off + r * st) (64 * if bf then 2 else 4)
  | .stp off st bf => (List.range m).any fun r => hits (off + r * st) (n * if bf then 2 else 4)
  | .stf off => hits off (4 * (m + n))
  | _ => false

/-- The PC of the earliest submitted job, fill or member whose write region covers a line of a vault (R369); 0 when there is none. -/
def absentBlame (s : State) (core line : Nat) : VAddr :=
  let r : Region := { space := core + 1, base := line * 128, len := 128 }
  let jobs : List (Nat × VAddr) :=
    (s.dies.flatMap fun d => d.2.jobs.filter fun j => j.writes.any r.overlaps).map fun (j : Job) => (2 * j.key + 1, j.pc)
  let q := (s.core core).mat.queue
  let mems : List (Nat × VAddr) := (q.zipIdx.filter fun x => memberCovers s core line (q.take x.2) x.1).map fun x => (2 * x.1.order, x.1.pc)
  ((sortBy (fun a b => a.1 ≤ b.1) (jobs ++ mems)).head?.map (·.2)).getD 0

/-- BLAME (R369): in the ac of its wake a team still records ABSENT, for the line on which it was parked. -/
def sampleBlame (s : State) (t : Team) (code : Nat) : Nat :=
  match code, t.park with
  | 6, _ => ((t.pend.head?.map fun (p : Pend) => p.pc).getD 0).toNat
  | 7, .absent c l => (absentBlame s c l).toNat
  | 7, _ => ((t.woke.map fun x => absentBlame s x.1 x.2).getD 0).toNat
  | _, _ => 0

/-- A sample record (R367). -/
def sampleBytes (pc issued blame delta tid reason : Nat) : List Byte :=
  leBytes 4 (pc % 2 ^ 32 / 4 * 4 + issued) ++ leBytes 4 blame ++ leBytes 4 delta ++ leBytes 3 tid ++ leBytes 1 reason

/-- The address of a field of a grid's trace ring (R363). -/
def ringVa (x : Grid) (off : Nat) : Nat := (x.launch.tracebuf.toNat + off) % 2 ^ 57

/-- Adds to LOSTSM (R363); a count that cannot be written is lost. -/
def addLost (g n : Nat) (s : State) : State :=
  let x := s.grid g
  match devRead s x.ctx (ringVa x 16) 8 with
  | .inr _ => s
  | .inl bs =>
    match devWrite x.ctx (ringVa x 16) (leBytes 8 (leNat bs + n)) s with
    | .inl s' => s'
    | .inr _ => s

/-- A closed sample chunk enters the outbound queue when there is room (R365). -/
def pushSample (core sched : Nat) (s : State) : State :=
  let c := s.core core
  let ch := vget {} c.sample sched
  let q := vget [] c.outq sched
  if !ch.closed ∨ 8 ≤ q.length then s
  else
    let n := vget 0 c.sampleSeq sched
    s.setCore core { c with
      outq := vset c.outq sched (q ++ [(ch.grid, 0, chunkBytes (tidOf core sched 0 + 2 ^ 23) n (ch.opened % 2 ^ 32) ch.body)])
      sample := vset c.sample sched {}
      sampleSeq := vset c.sampleSeq sched ((n + 1) % 256) }

/-- Closes a sample chunk that holds records. -/
def closeSample (core sched : Nat) (s : State) : State :=
  pushSample core sched (s.onCore core fun c =>
    let ch := vget {} c.sample sched
    { c with sample := vset c.sample sched { ch with closed := !ch.body.isEmpty } })

/-- One record of a scheduler for a grid (R365, R366). -/
def putSample (core sched g : Nat) (s : State) : State :=
  let ch := vget {} (s.core core).sample sched
  let s := if ch.closed then pushSample core sched s
    else if ch.body.length = 48 ∨ (!ch.body.isEmpty ∧ ch.grid ≠ g) then closeSample core sched s else s
  let ch := vget {} (s.core core).sample sched
  let slot := (vget 15 (s.core core).sampleSlot sched + 1) % 16
  let tid := tidOf core sched slot
  let mine := s.allTeams.filter fun t => t.tid / 16 == core * 4 + sched && (s.block t.blk).grid == g
  let opened := if ch.body.isEmpty then s.ac else ch.opened
  let d := (s.ac - opened) % 2 ^ 32
  let rec_ := if mine.isEmpty then sampleBytes 0 0 0 d (tidOf core sched 0) 0x1F
    else match mine.find? fun t => t.tid == tid with
      | none => sampleBytes 0 0 0 d (tidOf core sched 0) 0x1E
      | some t =>
        let code := stallCode s t
        sampleBytes t.pc.toNat (if issuedNow s t then 1 else 0) (sampleBlame s t code % 2 ^ 32) d tid code
  let s := s.onCore core fun c => { c with
    sampleSlot := vset c.sampleSlot sched slot, sampled := mput c.sampled (g * 4 + sched) (s.ac + 1) }
  if ch.closed then addLost g 1 s
  else s.onCore core fun c => { c with sample := vset c.sample sched { grid := g, opened := opened, body := ch.body ++ rec_ } }

/-- Whether a scheduler of a core owes a sample of a grid in this ac. -/
def sampleDue (s : State) (core sched g : Nat) : Bool :=
  let l := (s.grid g).launch
  let k := l.sampleExp
  l.traced && k != 0 && s.ac % 2 ^ k == 0 && mget 0 (s.core core).sampled (g * 4 + sched) != s.ac + 1 &&
    s.blocks.any fun p => p.2.grid == g && p.2.core == core && p.2.phase != .ended && p.2.phase != .saved

/-! ### The outbound queue and the ring -/

/-- The length of the packet at the head of a chunk's body (R371). -/
def packetLen (b : Nat) : Nat :=
  let n := b % 16
  match b / 16 with
  | 1 => 2
  | 2 => 2 + 4 * n
  | 3 => 1 + n
  | 4 => 1 + n
  | 5 => 2
  | 6 => 3 + 4 * n
  | 7 => 6
  | 9 => 1 + n
  | 10 => 9
  | 15 => 16
  | _ => 1

/-- The packets of a body other than PAD and TIME (R365). -/
def packetCount : Nat → List Byte → Nat
  | 0, _ => 0
  | _, [] => 0
  | f + 1, b :: bs =>
    (if b = 0 ∨ b.toNat / 16 = 4 then 0 else 1) + packetCount f (bs.drop (packetLen b.toNat - 1))

/-- The records of a sample chunk's body. -/
def recordCount (body : List Byte) : Nat :=
  ((List.range 3).filter fun i => ((body.drop (16 * i)).take 16).any (· != 0)).length

/-- A saved block whose team `u` loses `n` packets (R363): it emits LOSS when it goes on. -/
def savedDropped (u n : Nat) (b : SavedBlock) : SavedBlock :=
  { b with teams := b.teams.map fun t =>
      if teamUid t = u then { t with tr := { t.tr with lost := t.tr.lost + n, dropping := true } } else t }

/-- A chunk that cannot be written (R363): its records count in LOSTSM, or its packets as dropped for its team, wherever that stands. -/
def discardChunk (g u : Nat) (bs : List Byte) (s : State) : State :=
  if 2 ^ 23 ≤ fieldAt bs 0 3 then addLost g (recordCount (bs.drop 8)) s
  else
    let n := packetCount 56 (bs.drop 8)
    match s.allTeams.find? fun t => teamUid t == u with
    | some t => s.withTeam t.tid (traceDropped n)
    | none => s.onGrid g fun x => { x with saved := x.saved.map (savedDropped u n), restore := x.restore.map (savedDropped u n) }

/-- The oldest outbound chunk of a scheduler is written to the ring, discarded, or waits while the ring is full (R363) or not reached (R1); a sample chunk that
waits follows into the queue (R365). -/
def ringStep (core sched : Nat) (s : State) : State :=
  let c := s.core core
  match vget [] c.outq sched with
  | [] => s
  | (g, u, bs) :: rest =>
    let x := s.grid g
    let cap := (x.launch.tracebytes - 64) / 64
    let popped := s.setCore core { c with outq := vset c.outq sched rest }
    let bad := pushSample core sched (discardChunk g u bs popped)
    match devRead s x.ctx (ringVa x 0) 8, devRead s x.ctx (ringVa x 8) 8, devRange s x.ctx .store (piecesOf (ringVa x 8) 16) with
    | .inl hb, .inl tb, .inl _ =>
      let tail := leNat tb
      if cap ≤ (tail + 2 ^ 64 - leNat hb) % 2 ^ 64 ∨ vaCut s x.ctx (ringVa x 0) 24 ∨ vaCut s x.ctx (ringVa x (64 + 64 * (tail % cap))) 64 then s
      else match devWrite x.ctx (ringVa x (64 + 64 * (tail % cap))) bs popped with
        | .inr _ => bad
        | .inl s' =>
          match devWrite x.ctx (ringVa x 8) (leBytes 8 (tail + 1)) s' with
          | .inl s' => pushSample core sched s'
          | .inr _ => bad
    | _, _, _ => bad

/-- Whether a staging chunk has been open for 65,536 ac (R365). -/
def teamAged (s : State) (t : Team) : Bool := t.traced && !t.tr.chunk.isEmpty && decide (t.tr.opened + 65536 ≤ s.ac)
def sampleAged (s : State) (ch : SampleChunk) : Bool := !ch.body.isEmpty && !ch.closed && decide (ch.opened + 65536 ≤ s.ac)

/-- A staging chunk of a team, or the sample chunk of its scheduler, that has been open for 65,536 ac closes (R365): after the outcomes that the team
has gathered, which close it where they do not fit. -/
def ageClose (tid : Nat) (sample : Bool) (s : State) : State :=
  if sample then
    let ch := vget {} (s.core (coreOf tid)).sample (schedOf tid)
    if sampleAged s ch then closeSample (coreOf tid) (schedOf tid) s else s
  else s.withTeam tid fun s =>
    let s' := traceFlush s
    if !teamAged s s.team then s else if teamAged s' s'.team then traceClose s' else s'

/-! ### Precise stops (R377) and waiting events (R353) -/

/-- The team that the precise stop names. -/
def stopTeam (s : State) : Option Team :=
  match s.stop, s.replay with
  | some q, some r => s.allTeams.find? fun t =>
      t.role == q.role && (s.grid (s.block t.blk).grid).ctx == q.ctx && (s.block t.blk).kind == .grid && some (s.block t.blk).grid == r.grid && (s.block t.blk).lin == q.lin
  | _, _ => none

/-- PRECISE_STOP: the named team reaches its count, and the other teams are held; then, once it has entered its trap or is held, the
stop is reported. -/
def preciseStop (s : State) : State :=
  match s.stop, stopTeam s with
  | some q, some t =>
    if !q.taken then
      if t.rwc.toNat = q.count ∧ t.park = .run ∧ t.trapReq.isNone then
        let s := { s with stop := some { q with taken := true, named := some t.tid } }
        s.withTeam t.tid fun s =>
          if t.handler.isSome then addEvent .stop s else s.onTeam fun t => { t with park := .held }
      else s
    else if q.reported then s
    else
      let inTrap := t.hmode && t.trap.tcause.toNat % 64 == cSTOP && !t.events.contains .stop
      if !inTrap ∧ t.park ≠ .held then s
      else
        let pc := if inTrap then t.trap.tnext else t.pc
        let s := if inTrap then s.withTeam t.tid fun s => if s.team.traced then traceClose (traceFlush s) else s else s
        report q.pkt stSTOPPED q.ctx (leBytes 8 q.count ++ leBytes 8 pc.toNat) { s with stop := some { q with reported := true } }
  | _, _ => s

/-- Whether the focused team takes a waiting event before its next issue (R353); the trap of an access in flight (R245) waits for the end of a
partial re-execution. -/
def eventDue (s : State) : Bool :=
  !s.team.hmode && s.team.park == .run && s.team.trapReq.isNone &&
    match s.team.events with
    | [] => false
    | .remote _ :: _ => s.team.reexec.isNone
    | _ => true

/-- The trap of an access that was in flight when its package was lost (R245): the lanes re-execute it after RETT, and the team goes on where it
had come. -/
def raiseRemote (x : FarAccess) (s : State) : State :=
  let t := s.team
  raise { cause := cREMOTE, lanes := x.lanes.map fun l => (l.1, l.2.2), mask := maskOf (x.lanes.map (·.1)), saved := savedMask t, tpc := x.pc,
          tnext := t.pc, boundary := true, late := some x.back } s

/-- The focused team takes its first waiting event (R353). -/
def takeEvent (s : State) : State :=
  match s.team.events with
  | [] => s
  | e :: rest =>
    let s := s.onTeam fun t => { t with events := rest, stall := 0, ir := none, walked := [] }
    match e with
    | .stop => raiseEvent cSTOP 0 s
    | .engfault _ die num sub addr => raiseEvent cENGFAULT sub s num addr false die
    | .collfault _ handle sub addr => raiseEvent cENGFAULT sub s handle addr true
    | .remote x => raiseRemote x s

/-! ### Meanings -/

/-- MARK (R374). -/
def execMark (h : Hd) (a : RegF) (c : BitVec 7) (s : State) : Out := .next (doMark h a c s)
/-- BRK (R374). -/
def execBrk (_h : Hd) (c : BitVec 7) (s : State) : Out := .next (softTrap 1 cBRKPT c.toNat s)
/-- SAMPLE_TICK (R366): the selection names the core and the scheduler, and the grid. -/
def execSampleTick (s : State) : Out :=
  let u := s.sel.unit
  .next (if sampleDue s (u / 4) (u % 4) s.sel.sub then putSample (u / 4) (u % 4) s.sel.sub s else s)
/-- CHUNK_AGE_CLOSE (R365): the selection names the team slot, and with 1 its scheduler's sample chunk. -/
def execChunkAgeClose (s : State) : Out := .next (ageClose s.sel.unit (s.sel.sub == 1) s)
/-- CHUNK_RING_WRITE (R363): the selection names the core and the scheduler. -/
def execChunkRingWrite (s : State) : Out := .next (ringStep (s.sel.unit / 4) (s.sel.unit % 4) s)
/-- PRECISE_STOP (R377). -/
def execPreciseStop (s : State) : Out := .next (preciseStop s)

end Sys2Proof.Machine
end

