-- ==== Sys2Proof/Machine/Floating.lean ====
section
/-!
DEFINITION. Vector FP operations (R131 to R135), the FP unary family (R136 to R139), the special functions and their queue (R140 to R142),
narrow packing (R143 to R147), the online softmax pair (R148 to R151).
-/

namespace Sys2Proof.Machine

/-! ### Vector FP -/

/-- FADD, FSUB, FMUL, FFMA on the bits of one element (R132, R133). -/
def feAdd (f : Fmt) (m x y _z : Nat) : Nat := roundFp f m ((decodeFp f x).add (decodeFp f y) (m == 2))
def feSub (f : Fmt) (m x y _z : Nat) : Nat := roundFp f m ((decodeFp f x).add (decodeFp f y).negate (m == 2))
def feMul (f : Fmt) (m x y _z : Nat) : Nat := roundFp f m ((decodeFp f x).mul (decodeFp f y))
def feFma (f : Fmt) (m x y z : Nat) : Nat :=
  roundFp f m (((decodeFp f x).mul (decodeFp f y)).add (decodeFp f z) (m == 2))
/-- FMIN and FMAX (R134). -/
def feMin (f : Fmt) (_m x y _z : Nat) : Nat := fMinBits f false x y
def feMax (f : Fmt) (_m x y _z : Nat) : Nat := fMinBits f true x y
/-- The comparisons (R135). -/
def feLt (f : Fmt) (_m x y _z : Nat) : Nat := if (decodeFp f x).lt (decodeFp f y) then 1 else 0
def feLe (f : Fmt) (_m x y _z : Nat) : Nat :=
  if (decodeFp f x).lt (decodeFp f y) || (decodeFp f x).eq (decodeFp f y) then 1 else 0
def feEq (f : Fmt) (_m x y _z : Nat) : Nat := if (decodeFp f x).eq (decodeFp f y) then 1 else 0

/-- An element function over the elements of three words (R131). -/
def onElems (vec m : Nat) (f : Fmt → Nat → Nat → Nat → Nat → Nat) (x y z : Word × Bool) : Word :=
  let xs := elemBits vec x
  let ys := elemBits vec y
  let zs := elemBits vec z
  joinElems vec ((List.range xs.length).map fun i => f (vecFmt vec) m (xs.getD i 0) (ys.getD i 0) (zs.getD i 0))

/-- A vector FP instruction (R131): `fma` says whether D is its third source. -/
def doFp (h : Hd) (d a b : RegF) (fma : Bool) (f : Fmt → Nat → Nat → Nat → Nat → Nat) (s : State) : State :=
  shortGroup h d a b 1 1 1 [src a, src b, if fma then srcDst d else dst d] (fun s => fmtVec s != 3)
    (fun s _ l => onElems (fmtVec s) (fmtRm s) f (rd s a l) (rd s b l) (if fma then rd s d l else (0, false))) s

/-! ### FUN -/

/-- FNEG, FABS (R136). -/
def fuNeg (f : Fmt) (_m x : Nat) : Nat := if (decodeFp f x).isNan then f.nanBits else x ^^^ f.signBit
def fuAbs (f : Fmt) (_m x : Nat) : Nat := if (decodeFp f x).isNan then f.nanBits else x % f.signBit
/-- FRNE, FFLR, FCEL, FTRC (R137), by rounding mode. -/
def fuRound (mode : Nat) (f : Fmt) (_m x : Nat) : Nat :=
  match decodeFp f x with
  | .nan => f.nanBits
  | .inf _ => x
  | .fin n m e => roundFp f 0 (.fin n (roundInt mode n m e) 0)
/-- The width of the integer side of an element format (R138). -/
def intWidth (f : Fmt) : Nat := f.eb + f.fb + 1
/-- ITOF and UTOF (R138). -/
def fuItof (f : Fmt) (m x : Nat) : Nat :=
  let v := sextInt (intWidth f) x
  roundFp f m (.fin (decide (v < 0)) v.natAbs 0)
def fuUtof (f : Fmt) (m x : Nat) : Nat := roundFp f m (.fin false x 0)
/-- FTOI and FTOU (R138). -/
def fuFtoi (f : Fmt) (_m x : Nat) : Nat :=
  let w := intWidth f
  match decodeFp f x with
  | .nan => 0
  | .inf n => if n then 2 ^ (w - 1) else 2 ^ (w - 1) - 1
  | .fin n m e =>
    let v := roundInt 1 n m e
    if n then (2 ^ w - min v (2 ^ (w - 1))) % 2 ^ w else min v (2 ^ (w - 1) - 1)
def fuFtou (f : Fmt) (_m x : Nat) : Nat :=
  match decodeFp f x with
  | .nan => 0
  | .inf n => if n then 0 else 2 ^ intWidth f - 1
  | .fin n m e => if n then 0 else min (roundInt 1 n m e) (2 ^ intWidth f - 1)
/-- FCLS (R139). -/
def fuCls (f : Fmt) (_m x : Nat) : Nat :=
  let n := x.testBit (f.eb + f.fb)
  let ex := x / 2 ^ f.fb % 2 ^ f.eb
  let fr := x % 2 ^ f.fb
  if ex = 2 ^ f.eb - 1 then
    if fr = 0 then (if n then 2 ^ 0 else 2 ^ 7) else if fr.testBit (f.fb - 1) then 2 ^ 9 else 2 ^ 8
  else if ex = 0 then
    if fr = 0 then (if n then 2 ^ 3 else 2 ^ 4) else (if n then 2 ^ 2 else 2 ^ 5)
  else if n then 2 ^ 1 else 2 ^ 6

/-- The word that a FUN instruction makes of an operand (R136 to R139). `k` says what its elements are: 0 floating-point values, 1 bits
read as they stand (R25), 2 integers. A packed operand read as POISON is a NaN in both elements (R25), which rounds to the canonical NaN of
the element format (R27, R40). -/
def funWord (k vec rm : Nat) (f : Fmt → Nat → Nat → Nat) (x : Word × Bool) : Word :=
  if k = 2 ∧ vec ≠ 0 ∧ x.2 then joinElems vec [(vecFmt vec).nanBits, (vecFmt vec).nanBits]
  else joinElems vec ((elemBits vec (if k = 1 then (x.1, false) else x)).map (f (vecFmt vec) rm))

/-- A FUN instruction on operands of a kind. -/
def doFun (h : Hd) (d a : RegF) (k : Nat) (f : Fmt → Nat → Nat → Nat) (s : State) : State :=
  shortGroup h d a a 1 0 1 [src a, dst d] (fun s => fmtVec s != 3)
    (fun s _ l => funWord k (fmtVec s) (fmtRm s) f (rd s a l)) s

/-! ### SFU -/

/-- Issue of an instruction that takes an SFU queue entry (R142). -/
def issueSfu (h : Hd) (u : Bool) (regs : List Nat) (writes : List RegWrite) (after : Team → Team) (s : State) : State :=
  let c := s.myCore
  let q := schedOf s.team.tid
  if (vget [] (s.core c).sfu q).length ≥ 8 then stallOn 0x11 s
  else if pendCount s.team + regs.length > 16 then stallOn 0x06 s
  else
    let p := passes s u
    let pc := s.team.pc
    let tid := s.team.tid
    let s := begin p s
    let (tag, s) := s.takeTag
    let s := addPend { tag := tag, pc := pc, regs := regs, writes := writes, missing := 1 } (s.onTeam after)
    let s := s.onCore c fun k =>
      { k with sfu := vset k.sfu q (vget [] k.sfu q ++ [{ tid := tid, tag := tag, groups := p }]) }
    finish h 4 s

/-- The first entry of an SFU queue that has not started, when the unit is free for it: its position (R142). -/
def sfuReady (ac : Nat) : List SfuEntry → Nat → Option Nat
  | [], _ => none
  | e :: es, i =>
    match e.start with
    | none => some i
    | some st => if st + 4 * e.groups ≤ ac then sfuReady ac es (i + 1) else none

/-- Starts the next entry of the SFU queue of a scheduler (R142): its results land 18 ac later plus 4 for each non-empty group. -/
def sfuStart (c q : Nat) (s : State) : State :=
  let l := vget [] (s.core c).sfu q
  match sfuReady s.ac l 0 with
  | none => s
  | some i =>
    match l[i]? with
    | none => s
    | some e =>
      let s := s.onCore c fun k => { k with sfu := vset k.sfu q (l.set i { e with start := some s.ac }) }
      s.withTeam e.tid fun s => s.onTeam fun t =>
        { t with pend := t.pend.map fun p => if p.tag = e.tag then { p with missing := 0, due := s.ac + 18 + 4 * e.groups } else p }

/-- An SFU function (R140, R141). -/
def doSfu (h : Hd) (d a : RegF) (code : Nat) (s : State) : State :=
  let u := isScalar d
  withOps 4 u [src a, dst d] s fun s =>
    let lanes := execLanes s u
    issueSfu h u (codesOf s d 1) (writesOf s d.toNat lanes fun l => sfuFn code (rdv s a l)) (applyHints h a 1 a 0 lanes) s

/-! ### CVN -/

/-- The SAT code is not reserved (R42). -/
def satOk (s : State) : Bool := decide (fmtSat s < 2)
/-- NF names a narrow format (R144). -/
def nfNarrow (s : State) : Bool := maNarrow (fmtNf s)

/-- PKH and PKB (R145). -/
def doPk (h : Hd) (d a : RegF) (f : Fmt) (s : State) : State :=
  shortGroup h d a a 2 0 1 [srcPair a, dst d] satOk (fun s _ l =>
    let p := fun k => packHalf f (fmtRm s) (fmtSat s) (dec32 (rdn s a k l))
    w32 (p 0 + p 1 * 65536)) s

/-- UNPH and UNPB (R145), by VEC code. -/
def doUnp (h : Hd) (d a : RegF) (vec : Nat) (s : State) : State :=
  shortGroup h d a a 1 0 2 [src a, dstPair d] (fun _ => true)
    (fun s k l => rne32 ((elems vec (rd s a l)).getD k .nan)) s

/-- Quads that are read and written (R144). -/
def srcQuad (f : RegF) : Opnd := { f := f.toNat, n := 4, ok := quadOk f }
def dstQuad (f : RegF) : Opnd := { f := f.toNat, n := 4, ok := quadOk f, rd := false, wr := true }

/-- One code of PK6 (R146). -/
def pk6Code (nf sat sblk sc : Nat) (v : Word) : Nat :=
  if sblk ≠ 0 ∧ sc = 255 then narrowNan nf
  else encodeMa nf 0 sat ((dec32 v).scale (if sblk = 0 then 0 else 127 - (sc : Int)))

/-- PK6 (R146). -/
def doPk6 (h : Hd) (d a : RegF) (s : State) : State :=
  shortGroup h d a a 4 0 1 [srcQuad a, if fmtSblk s = 0 then dst d else srcDst d]
    (fun s => nfNarrow s && satOk s && fmtSblk s != 3) (fun s _ l =>
    let sc := if fmtSblk s = 0 then 0 else (rdv s d l).toNat % 256
    let c := fun k => pk6Code (fmtNf s) (fmtSat s) (fmtSblk s) sc (rdn s a k l)
    let w := maBits (fmtNf s)
    w32 (c 0 + c 1 * 2 ^ w + c 2 * 2 ^ (2 * w) + c 3 * 2 ^ (3 * w))) s

/-- UNP6 (R146). -/
def doUnp6 (h : Hd) (d a : RegF) (s : State) : State :=
  shortGroup h d a a 1 0 4 [src a, dstQuad d] nfNarrow
    (fun s k l => rne32 (decodeMa (fmtNf s) ((rdv s a l).toNat / 2 ^ (k * maBits (fmtNf s)) % 2 ^ maBits (fmtNf s)))) s

/-- BSCL (R147): one scale for each tile. -/
def doBscl (h : Hd) (d a : RegF) (s : State) : State :=
  withOps 4 false [src a, dst d] s fun s =>
    if isScalar d ∨ !nfNarrow s then trapI cILLOPND 4 (begin 1 s)
    else
      let lanes := lanesOf s.team.active
      let ws := (tilesOf (tileSize s.team.ptile.toNat) lanes).flatMap fun tile =>
        let e := blockScale (fmtNf s) (tile.map fun l => dec32 (rdv s a l))
        writesOf s d.toNat tile fun _ => w32 e
      issueLong 4 h (passesOf s.team) false (codesOf s d 1) ws (crossDelay s false 4 6 2) (applyHints h a 1 a 0 lanes) s

/-! ### Online softmax -/

/-- OSMS on m, s and x (R150). -/
def osmsFn (m sm x : Word) : Word × Word :=
  if (dec32 m).isNan ∨ (dec32 sm).isNan ∨ (dec32 x).isNan then (canonNan, canonNan)
  else if x = fNegInf then (m, sm)
  else if (dec32 x).eq (dec32 m) then (m, fAdd sm fOne)
  else if (dec32 m).lt (dec32 x) then (x, fAdd (fMul sm (fExp2 (fSub m x))) fOne)
  else (m, fAdd sm (fExp2 (fSub x m)))

/-- OSMN on x, m and s (R151). -/
def osmnFn (x m sm : Word) : Word := fDiv (fExp2 (fSub x m)) sm

/-- OSMS (R150). -/
def doOsms (h : Hd) (d a : RegF) (s : State) : State :=
  let u := isScalar d
  withOps 4 u [src a, { f := d.toNat, n := 2, ok := pairOk d, wr := true }] s fun s =>
    let lanes := execLanes s u
    let r := fun l => osmsFn (rdn s d 0 l) (rdn s d 1 l) (rdv s a l)
    issueSfu h u (codesOf s d 2) (writesOfN s d.toNat 2 lanes fun k l => if k = 0 then (r l).1 else (r l).2)
      (applyHints h a 1 a 0 lanes) s

/-- OSMN (R151). -/
def doOsmn (h : Hd) (d a b : RegF) (s : State) : State :=
  let u := isScalar d
  withOps 4 u [src a, srcPair b, dst d] s fun s =>
    let lanes := execLanes s u
    issueSfu h u (codesOf s d 1)
      (writesOf s d.toNat lanes fun l => osmnFn (rdv s a l) (rdn s b 0 l) (rdn s b 1 l)) (applyHints h a 1 b 2 lanes) s

/-! ### Meanings -/

/-- FADD (R132, R133). -/
def execFadd (h : Hd) (d a b : RegF) (s : State) : Out := .next (doFp h d a b false feAdd s)
/-- FSUB (R132, R133). -/
def execFsub (h : Hd) (d a b : RegF) (s : State) : Out := .next (doFp h d a b false feSub s)
/-- FMUL (R132, R133). -/
def execFmul (h : Hd) (d a b : RegF) (s : State) : Out := .next (doFp h d a b false feMul s)
/-- FFMA (R132, R133). -/
def execFfma (h : Hd) (d a b : RegF) (s : State) : Out := .next (doFp h d a b true feFma s)
/-- FMIN (R134). -/
def execFmin (h : Hd) (d a b : RegF) (s : State) : Out := .next (doFp h d a b false feMin s)
/-- FMAX (R134). -/
def execFmax (h : Hd) (d a b : RegF) (s : State) : Out := .next (doFp h d a b false feMax s)
/-- FLT (R135). -/
def execFlt (h : Hd) (d a b : RegF) (s : State) : Out := .next (doFp h d a b false feLt s)
/-- FLE (R135). -/
def execFle (h : Hd) (d a b : RegF) (s : State) : Out := .next (doFp h d a b false feLe s)
/-- FEQ (R135). -/
def execFeq (h : Hd) (d a b : RegF) (s : State) : Out := .next (doFp h d a b false feEq s)
/-- FUN.FNEG (R136 to R139). -/
def execFunFneg (h : Hd) (d a : RegF) (s : State) : Out := .next (doFun h d a 0 fuNeg s)
/-- FUN.FABS (R136 to R139). -/
def execFunFabs (h : Hd) (d a : RegF) (s : State) : Out := .next (doFun h d a 0 fuAbs s)
/-- FUN.FRNE (R136 to R139). -/
def execFunFrne (h : Hd) (d a : RegF) (s : State) : Out := .next (doFun h d a 0 (fuRound 0) s)
/-- FUN.FFLR (R136 to R139). -/
def execFunFflr (h : Hd) (d a : RegF) (s : State) : Out := .next (doFun h d a 0 (fuRound 2) s)
/-- FUN.FCEL (R136 to R139). -/
def execFunFcel (h : Hd) (d a : RegF) (s : State) : Out := .next (doFun h d a 0 (fuRound 3) s)
/-- FUN.FTRC (R136 to R139). -/
def execFunFtrc (h : Hd) (d a : RegF) (s : State) : Out := .next (doFun h d a 0 (fuRound 1) s)
/-- FUN.ITOF (R136 to R139). -/
def execFunItof (h : Hd) (d a : RegF) (s : State) : Out := .next (doFun h d a 2 fuItof s)
/-- FUN.UTOF (R136 to R139). -/
def execFunUtof (h : Hd) (d a : RegF) (s : State) : Out := .next (doFun h d a 2 fuUtof s)
/-- FUN.FTOI (R136 to R139). -/
def execFunFtoi (h : Hd) (d a : RegF) (s : State) : Out := .next (doFun h d a 0 fuFtoi s)
/-- FUN.FTOU (R136 to R139). -/
def execFunFtou (h : Hd) (d a : RegF) (s : State) : Out := .next (doFun h d a 0 fuFtou s)
/-- FUN.FCLS (R136 to R139). -/
def execFunFcls (h : Hd) (d a : RegF) (s : State) : Out := .next (doFun h d a 1 fuCls s)
/-- SFU.RCP (R141). -/
def execSfuRcp (h : Hd) (d a : RegF) (s : State) : Out := .next (doSfu h d a 0 s)
/-- SFU.RSQ (R141). -/
def execSfuRsq (h : Hd) (d a : RegF) (s : State) : Out := .next (doSfu h d a 1 s)
/-- SFU.SQRT (R141). -/
def execSfuSqrt (h : Hd) (d a : RegF) (s : State) : Out := .next (doSfu h d a 2 s)
/-- SFU.EXP2 (R141). -/
def execSfuExp2 (h : Hd) (d a : RegF) (s : State) : Out := .next (doSfu h d a 3 s)
/-- SFU.LOG2 (R141). -/
def execSfuLog2 (h : Hd) (d a : RegF) (s : State) : Out := .next (doSfu h d a 4 s)
/-- SFU.SINP (R141). -/
def execSfuSinp (h : Hd) (d a : RegF) (s : State) : Out := .next (doSfu h d a 5 s)
/-- SFU.COSP (R141). -/
def execSfuCosp (h : Hd) (d a : RegF) (s : State) : Out := .next (doSfu h d a 6 s)
/-- SFU.TANH (R141). -/
def execSfuTanh (h : Hd) (d a : RegF) (s : State) : Out := .next (doSfu h d a 7 s)
/-- SFU.SIGM (R141). -/
def execSfuSigm (h : Hd) (d a : RegF) (s : State) : Out := .next (doSfu h d a 8 s)
/-- SFU.EXP (R141). -/
def execSfuExp (h : Hd) (d a : RegF) (s : State) : Out := .next (doSfu h d a 9 s)
/-- SFU.LOG (R141). -/
def execSfuLog (h : Hd) (d a : RegF) (s : State) : Out := .next (doSfu h d a 10 s)
/-- CVN.PKH (R145). -/
def execCvnPkh (h : Hd) (d a : RegF) (s : State) : Out := .next (doPk h d a fp16 s)
/-- CVN.PKB (R145). -/
def execCvnPkb (h : Hd) (d a : RegF) (s : State) : Out := .next (doPk h d a bf16 s)
/-- CVN.PK6 (R146). -/
def execCvnPk6 (h : Hd) (d a : RegF) (s : State) : Out := .next (doPk6 h d a s)
/-- CVN.UNPH (R145). -/
def execCvnUnph (h : Hd) (d a : RegF) (s : State) : Out := .next (doUnp h d a 2 s)
/-- CVN.UNPB (R145). -/
def execCvnUnpb (h : Hd) (d a : RegF) (s : State) : Out := .next (doUnp h d a 1 s)
/-- CVN.UNP6 (R146). -/
def execCvnUnp6 (h : Hd) (d a : RegF) (s : State) : Out := .next (doUnp6 h d a s)
/-- CVN.BSCL (R147). -/
def execCvnBscl (h : Hd) (d a : RegF) (s : State) : Out := .next (doBscl h d a s)
/-- OSMS (R150). -/
def execOsms (h : Hd) (d a : RegF) (s : State) : Out := .next (doOsms h d a s)
/-- OSMN (R151). -/
def execOsmn (h : Hd) (d a b : RegF) (s : State) : Out := .next (doOsmn h d a b s)
/-- SFU_ENTRY_START (R142): the selection names the core and the scheduler; no entry ready changes nothing. -/
def execSfuEntryStart (s : State) : Out := .next (sfuStart s.sel.unit s.sel.sub s)

end Sys2Proof.Machine
end

