-- ==== Sys2Proof/Machine/Crypto.lean ====
section
/-!
DEFINITION. The algorithms that the security unit runs (R431 to R433): SHA-256 and SHA-384 (FIPS 180-4), ECDSA on P-384 (FIPS 186-5), and the
LMS signature of RFC 8554 with LMS_SHA256_M32_H20 and LMOTS_SHA256_N32_W8. The spec names them and does not spell them out (log entry 8).
-/

namespace Sys2Proof.Machine

/-- The number that some bytes hold, big-endian. -/
def beNat (bs : List Byte) : Nat := leNat bs.reverse

/-! ### The SHA-2 family -/

/-- The largest `r` built from the bits below `k` with `r ^ e ≤ n`. -/
def rootBits (e n : Nat) : Nat → Nat → Nat
  | 0, r => r
  | k + 1, r => rootBits e n k (if (r + 2 ^ k) ^ e ≤ n then r + 2 ^ k else r)

/-- Whether a number has no divisor from 2 up to `k + 1`, itself excepted. -/
def noDivisor (p : Nat) : Nat → Bool
  | 0 => true
  | k + 1 => (p == k + 2 || p % (k + 2) != 0) && noDivisor p k

/-- The primes below 410: the 80 that the constants come from. -/
def shaPrimes : List Nat := ((List.range 410).drop 2).filter fun p => noDivisor p 20

/-- The first `w` bits of the fraction of the `e`-th root of a prime. -/
def rootFraction (w e p : Nat) : Nat := rootBits e (p * 2 ^ (e * w)) (w + 6) 0 % 2 ^ w

/-- What tells the two functions apart: the width of a word, the number of rounds, the amounts of Σ0, Σ1, σ0 and σ1, whose last is a
shift in σ0 and σ1, and the initial value. -/
structure ShaKind where
  w : Nat
  rounds : Nat
  big0 : List Nat
  big1 : List Nat
  small0 : List Nat
  small1 : List Nat
  iv : List Nat

/-- SHA-256. -/
def sha256Kind : ShaKind :=
  { w := 32, rounds := 64, big0 := [2, 13, 22], big1 := [6, 11, 25], small0 := [7, 18, 3], small1 := [17, 19, 10]
    iv := (shaPrimes.take 8).map (rootFraction 32 2) }

/-- SHA-384, whose initial value comes from the ninth to the sixteenth prime. -/
def sha384Kind : ShaKind :=
  { w := 64, rounds := 80, big0 := [28, 34, 39], big1 := [14, 18, 41], small0 := [1, 8, 7], small1 := [19, 61, 6]
    iv := ((shaPrimes.drop 8).take 8).map (rootFraction 64 2) }

/-- A rotation to the right of a word of `w` bits. -/
def rotRight (w n x : Nat) : Nat := x / 2 ^ n + x % 2 ^ n * 2 ^ (w - n)

/-- Σ: three rotations. -/
def bigSigma (w : Nat) (ns : List Nat) (x : Nat) : Nat := ns.foldl (fun a n => a ^^^ rotRight w n x) 0

/-- σ: two rotations and a shift. -/
def smallSigma (w : Nat) (ns : List Nat) (x : Nat) : Nat :=
  (ns.take 2).foldl (fun a n => a ^^^ rotRight w n x) (x / 2 ^ (ns[2]?).getD 0)

/-- The message schedule, newest word first: `n` more words after those given. -/
def shaSchedule (k : ShaKind) : Nat → List Nat → List Nat
  | 0, ws => ws
  | n + 1, ws =>
    let at_ := fun (i : Nat) => (ws[i]?).getD 0
    shaSchedule k n ((smallSigma k.w k.small1 (at_ 1) + at_ 6 + smallSigma k.w k.small0 (at_ 14) + at_ 15) % 2 ^ k.w :: ws)

/-- One round on the eight working words, with its constant and its word of the schedule. -/
def shaRound (k : ShaKind) (v : List Nat) (c : Nat × Nat) : List Nat :=
  match v with
  | [a, b, c', d, e, f, g, h] =>
    let t1 := h + bigSigma k.w k.big1 e + ((e &&& f) ^^^ ((2 ^ k.w - 1 - e) &&& g)) + c.1 + c.2
    let t2 := bigSigma k.w k.big0 a + ((a &&& b) ^^^ (a &&& c') ^^^ (b &&& c'))
    [(t1 + t2) % 2 ^ k.w, a, b, c', (d + t1) % 2 ^ k.w, e, f, g]
  | v => v

/-- One block, as its 16 words. -/
def shaBlock (k : ShaKind) (h : List Nat) (ws : List Nat) : List Nat :=
  let sched := (shaSchedule k (k.rounds - 16) ws.reverse).reverse
  let v := (((shaPrimes.take k.rounds).map (rootFraction k.w 3)).zip sched).foldl (shaRound k) h
  h.zipWith (fun x y => (x + y) % 2 ^ k.w) v

/-- Blocks of a padded message, of `n` bytes each. -/
def chunksOf (n : Nat) : Nat → List Byte → List (List Byte)
  | 0, _ => []
  | f + 1, bs => bs.take n :: chunksOf n f (bs.drop n)

/-- The words of the digest of a message. -/
def shaWords (k : ShaKind) (msg : List Byte) : List Nat :=
  let block := 2 * k.w
  let zeros := (2 * block - (msg.length + 1 + k.w / 4) % block) % block
  let padded := msg ++ 0x80#8 :: List.replicate zeros 0 ++ beBytes (k.w / 4) (8 * msg.length)
  (chunksOf block (padded.length / block) padded).foldl
    (fun h b => shaBlock k h ((chunksOf (k.w / 8) 16 b).map beNat)) k.iv

/-- SHA-256: 32 bytes. -/
def sha256 (msg : List Byte) : List Byte := (shaWords sha256Kind msg).flatMap (beBytes 4)

/-- SHA-384: 48 bytes. -/
def sha384 (msg : List Byte) : List Byte := ((shaWords sha384Kind msg).take 6).flatMap (beBytes 8)

/-! ### P-384 -/

/-- The field's prime, the group's order, the curve's constant and the base point. -/
def p384 : Nat := 2 ^ 384 - 2 ^ 128 - 2 ^ 96 + 2 ^ 32 - 1
def n384 : Nat := 0xffffffffffffffffffffffffffffffffffffffffffffffffc7634d81f4372ddf581a0db248b0a77aecec196accc52973
def b384 : Nat := 0xb3312fa7e23ee7e4988e056be3f82d19181d9c6efe8141120314088f5013875ac656398d8a2ed19d2a85c8edd3ec2aef
def g384 : Nat × Nat :=
  (0xaa87ca22be8b05378eb1c71ef320ad746e1d3b628ba79b9859f741e082542a385502f25dbf55296c3a545e3872760ab7,
    0x3617de4a96262c6f5d9e98bf9292dc29f8f41dbd289a147ce9da3113b5f0b8c00a60b1ce1d7e819d7a431d7c90ea0e5f)

/-- A power modulo `m`, by the exponent's low `k` bits. -/
def powMod (m : Nat) : Nat → Nat → Nat → Nat
  | 0, _, _ => 1 % m
  | k + 1, b, e => (if e % 2 = 1 then b else 1) * powMod m k (b * b % m) (e / 2) % m

/-- The inverse modulo a prime of 384 bits. -/
def invMod (m x : Nat) : Nat := powMod m 384 (x % m) (m - 2)

/-- A point; none is the point at infinity. -/
abbrev Point := Option (Nat × Nat)

/-- The third point of a line of slope `l` through points of abscissas `x1`, `x2`, mirrored. -/
def chord (l x1 y1 x2 : Nat) : Point :=
  let x := (l * l + 2 * p384 - x1 - x2) % p384
  some (x, (l * (x1 + p384 - x) + p384 - y1) % p384)

/-- The sum of two points. -/
def addPoint : Point → Point → Point
  | none, q => q
  | q, none => q
  | some (x1, y1), some (x2, y2) =>
    if x1 = x2 then
      if (y1 + y2) % p384 = 0 then none
      else chord ((3 * x1 * x1 + p384 - 3) * invMod p384 (2 * y1) % p384) x1 y1 x2
    else chord ((y2 + p384 - y1) * invMod p384 (x2 + p384 - x1) % p384) x1 y1 x2

/-- A multiple of a point, by the low `k` bits of the factor. -/
def mulPoint : Nat → Nat → Point → Point
  | 0, _, _ => none
  | k + 1, n, q => addPoint (if n % 2 = 1 then q else none) (mulPoint k (n / 2) (addPoint q q))

/-- Whether a point lies on the curve. -/
def onCurve (q : Nat × Nat) : Bool :=
  decide (q.1 < p384 ∧ q.2 < p384 ∧ q.2 * q.2 % p384 = (q.1 * q.1 * q.1 + (p384 - 3) * q.1 + b384) % p384)

/-- An ECDSA signature `(r, s)` over a message verifies under a public key. -/
def ecdsaVerifies (key : Nat × Nat) (msg : List Byte) (r s : Nat) : Bool :=
  let w := invMod n384 s
  let e := beNat (sha384 msg)
  onCurve key && decide (0 < r ∧ r < n384 ∧ 0 < s ∧ s < n384) &&
    match addPoint (mulPoint 384 (e * w % n384) (some g384)) (mulPoint 384 (r * w % n384) (some key)) with
    | some q => q.1 % n384 == r
    | none => false

/-- The signature under a private key with the secret number `k` of this signing. -/
def ecdsaSign (d k : Nat) (msg : List Byte) : Nat × Nat :=
  let r := ((mulPoint 384 k (some g384)).getD (0, 0)).1 % n384
  (r, invMod n384 k * (beNat (sha384 msg) + r * d) % n384)

/-- The public key of a private key. -/
def publicKey (d : Nat) : Nat × Nat := (mulPoint 384 d (some g384)).getD (0, 0)

/-! ### LMS -/

/-- One Winternitz chain, from step `j` on for `n` steps: `pre` is the identifier, the leaf and the chain's number. -/
def otsChain (pre : List Byte) : Nat → Nat → List Byte → List Byte
  | 0, _, y => y
  | n + 1, j, y => otsChain pre n (j + 1) (sha256 (pre ++ beBytes 1 j ++ y))

/-- The candidate for the one-time public key that a one-time signature gives: `y` holds the 34 chain values of 32 bytes. -/
def otsCandidate (ident : List Byte) (q : Nat) (c y msg : List Byte) : List Byte :=
  let leaf := ident ++ beBytes 4 q
  let digest := sha256 (leaf ++ beBytes 2 0x8181 ++ c ++ msg)
  let sum := (digest.map fun (b : Byte) => 255 - b.toNat).foldl (· + ·) 0
  let coefs := (digest ++ beBytes 2 sum).map (·.toNat)
  let ends := (coefs.zip (chunksOf 32 34 y)).zipIdx.flatMap fun x => otsChain (leaf ++ beBytes 2 x.2) (255 - x.1.1) x.1.1 x.1.2
  sha256 (leaf ++ beBytes 2 0x8080 ++ ends)

/-- The root that a node's value and its path give. -/
def lmsRoot (ident : List Byte) : Nat → List (List Byte) → List Byte → List Byte
  | _, [], v => v
  | node, p :: ps, v =>
    let pair := if node % 2 = 1 then p ++ v else v ++ p
    lmsRoot ident (node / 2) ps (sha256 (ident ++ beBytes 4 (node / 2) ++ beBytes 2 0x8383 ++ pair))

/-- An LMS signature of 1,772 bytes over a message verifies under a public key, its identifier of 16 bytes and its root of 32. -/
def lmsVerifies (ident root msg sig : List Byte) : Bool :=
  let field := fun (off n : Nat) => (sig.drop off).take n
  let q := beNat (field 0 4)
  let node := 2 ^ 20 + q
  let leaf := sha256 (ident ++ beBytes 4 node ++ beBytes 2 0x8282 ++ otsCandidate ident q (field 8 32) (field 40 1088) msg)
  sig.length == 1772 && beNat (field 4 4) == 4 && beNat (field 1128 4) == 8 && decide (q < 2 ^ 20) &&
    lmsRoot ident node (chunksOf 32 20 (field 1132 640)) leaf == root

end Sys2Proof.Machine
end

