-- ==== Sys2Proof/Machine/Routing.lean ====
section
/-!
DEFINITION. RSNAP (R415 to R417).
-/

namespace Sys2Proof.Machine

/-- RSNAP: after its checks, its result is outstanding and its snapshot step falls 2 ac after its pass (R416, R417). -/
def doRsnap (h : Hd) (d a : RegF) (s : State) : State :=
  withOps 4 true [src a, dst d] s fun s =>
    if !isScalar d then trapI cILLOPND 4 (begin 1 s)
    else
      let off := (rdu s a).toNat
      let f : LaneFault := { cause := cALIGN, faddr := BitVec.ofNat 64 off }
      if off % 128 ≠ 0 then trapAll f 4 (begin 1 s)
      else if s.myBlock.vbytes < off + 256 then trapAll { f with cause := cVRANGE } 4 (begin 1 s)
      else if orderWaits s false ∨ atomWaits s (vaultKey s.myCore (s.myBlock.voff + off)) 256 then stallOn 0x02 s
      else if pendCount s.team + 1 > 16 then stallOn 0x06 s
      else
        let reg := regCode s.team d.toNat
        let at_ := s.myBlock.voff + off
        let pc := s.team.pc
        let s := begin 1 s
        let (tag, s) := s.takeTag
        let s := s.onTeam (applyHints h a 1 a 0 [])
        let s := addPend { tag := tag, pc := pc, regs := [reg], missing := 1, due := s.ac + 10, mem := true } s
        finish h 4 (s.onCore s.myCore fun c => { c with snaps := c.snaps ++ [(s.ac + 2, s.team.tid, at_, tag, reg)] })

/-- One snapshot step (R416): the counters are taken and cleared, the words are stored, and D's result is known. -/
def snapOne (core : Nat) (x : Nat × Nat × Nat × Nat × Nat) (s : State) : State :=
  let (_, tid, at_, tag, reg) := x
  let route := (s.core core).route
  let vals := (List.range 64).map fun k => mget 0 route k
  let s := s.onCore core fun c => { c with route := [] }
  let s := presenceWrite core at_ 256 (s.store (vaultKey core at_) (vals.flatMap fun w => leBytes 4 w.toNat))
  let sum := w32 ((vals.map (·.toNat)).foldl (· + ·) 0)
  s.withTeam tid fun s => s.onTeam fun t => { t with
    pend := t.pend.map fun p => if p.tag = tag then { p with writes := [⟨0, reg, sum⟩], missing := 0 } else p }

/-- The snapshot steps of a core that fall in this ac, in scheduler and slot order (R417). -/
def snapCore (s : State) (core : Nat) : State :=
  let due := (s.core core).snaps.filter fun x => decide (x.1 ≤ s.ac)
  let s := s.onCore core fun c => { c with snaps := c.snaps.filter fun x => decide (s.ac < x.1) }
  (sortBy (fun a b => a.2.1 ≤ b.2.1) due).foldl (fun s x => snapOne core x s) s

/-- Every snapshot step of the ac that ends. -/
def snapAll (s : State) : State := (s.cores.map (·.1)).foldl snapCore s

/-- RSNAP (R416). -/
def execRsnap (h : Hd) (d a : RegF) (s : State) : Out := .next (doRsnap h d a s)

end Sys2Proof.Machine
end

