-- ==== Sys2Proof/Machine/HostCmd.lean ====
section
/-!
DEFINITION. The command processor and the commands of the host (R169, R388 to R391, R402, R433), captures and replay (R378).
-/

namespace Sys2Proof.Machine

/-! ### The command processor (R388, R390) -/

/-- The packet at the head of a host-command queue that may be served: no command of it runs, and a whole packet is queued. -/
def queueHead (q : Queue) : Option Packet :=
  if q.kind = 3 ∧ q.busy.isNone ∧ 4 ≤ q.entries.length then
    some (pktOf ((q.entries.take 4).flatMap fun e => leBytes 16 e.data.toNat))
  else none

/-- Now, as an ac and a step since a start (R375). -/
def momentOf (s : State) (began turn : Nat) : Moment :=
  { ac := s.ac - began, turn := if s.ac = began then s.turn - turn else s.turn }

/-- Whether a moment of a capture has come in a replay: of the same ac, once the package has made as many steps of its own in it (R375). -/
def Replay.hasCome (r : Replay) (s : State) (m : Moment) : Bool :=
  let now := momentOf s r.began r.turn
  decide (m.ac < now.ac) || (m.ac == now.ac && decide (m.turn ≤ now.turn))

/-- The commands of a replay that are due (R375, R378): of each queue the first, when none of it runs and its moment has come. -/
def replayReady (s : State) (r : Replay) : List (Nat × Packet) :=
  let first := fun (k : Nat) => (r.cmds.find? fun c => c.queue == k).bind fun c =>
    if (mget? r.busy k).isNone ∧ r.hasCome s c.moment then some (4096 + k, c.pkt) else none
  (sortBy (fun a b => a ≤ b) (r.cmds.map (·.queue)).eraseDups).filterMap first

/-- SIGNAL.3, which ends a precise stop (R375, R390): the one command that a package takes from the host while it replays. -/
def isContinue (p : Packet) : Bool := cmdOf p == 6 && subOf p == 3

/-- The head that a round takes, from queue `next` on. -/
def pickRound (next : Nat) (ready : List (Nat × Packet)) : Option (Nat × Packet) :=
  match ready.find? fun x => decide (next ≤ x.1) with
  | some x => some x
  | none => ready.head?

/-- The command that is served next: its queue, 4096 more for one of a replay, and its packet. The queues are served in rounds, ascending. -/
def nextCommand (s : State) : Option (Nat × Packet) :=
  let ready := s.queues.filterMap fun x => (queueHead x.2).map fun p => (x.1, p)
  match s.replay with
  | some r =>
    match pickRound (4096 + r.next) (replayReady s r) with
    | some x => some x
    | none => pickRound s.cmdNext (ready.filter fun x => isContinue x.2)
  | none => pickRound s.cmdNext ready

/-- The first command of a queue in a replay. -/
def Replay.first (r : Replay) (k : Nat) : Option Command := r.cmds.find? fun c => c.queue == k

/-- A replay without the first command of a queue, which runs; it may be the named launch. -/
def Replay.take (k : Nat) (p : Packet) (r : Replay) : Replay :=
  let named := ((r.first k).map (·.named)).getD false
  { r with busy := mput r.busy k p, cmds := r.cmds.eraseP fun c => c.queue == k, next := k + 1, named := if named then some k else r.named }

/-- Takes the command out of its queue: it runs. -/
def takeCommand (q : Nat) (p : Packet) (s : State) : State :=
  if 4096 ≤ q then
    { s with replay := s.replay.map (Replay.take (q - 4096) p)
             imgSize := (s.replay.bind fun r => r.first (q - 4096)).bind (·.size) }
  else
    { s.onQueue q fun x => { x with busy := some p, entries := x.entries.drop 4, sizes := x.sizes.drop 1 } with
      cmdNext := q + 1, imgSize := (s.queue q).sizes.headD none }

/-- The last SUB of a CMD (R390, R433). -/
def lastSub (cmd : Nat) : Nat :=
  match cmd with
  | 2 => 2
  | 3 => 7
  | 4 => 1
  | 6 => 3
  | 7 => 255
  | _ => 0

/-- Whether CMD and SUB name a command (R389, R390). -/
def knownSub (p : Packet) : Bool := decide (1 ≤ cmdOf p ∧ cmdOf p ≤ 7 ∧ subOf p ≤ lastSub (cmdOf p))

/-- A command completes with a report. -/
def endCommand (q : Nat) (p : Packet) (status : Nat) (s : State) : State := report p status (ctxOf p) [] (queueDone q s)

/-- A command completes with FAULT (R391). -/
def failCommand (q : Nat) (p : Packet) (f : Nat × Nat) (s : State) : State := reportFault p f.1 f.2 (queueDone q s)

/-- The physical addresses that a command reads or writes as it is served (R390): those of a record and of the descriptor that it names, of the data
that it copies, of a table, of a capture's region list and of its regions. -/
def commandPas (s : State) (p : Packet) : List Nat :=
  let regions := fun (ctx : Nat) (rs : List (Nat × Nat)) => rs.flatMap fun r => vaPieces s ctx r.1 r.2
  match cmdOf p, subOf p with
  | 1, _ => vaPieces s (ctxOf p) (body p 0 8) 256 ++ (match devRead s (ctxOf p) (body p 0 8) 256 with
    | .inl b => vaPieces s (ctxOf p) (fieldAt b 56 8) 64
    | .inr _ => [])
  | 2, 0 => vaPieces s (ctxOf p) (body p 8 8) (body p 16 8)
  | 2, 1 => vaPieces s (ctxOf p) (body p 0 8) (body p 16 8)
  | 2, _ => vaPieces s (ctxOf p) (body p 0 8) (body p 16 8) ++ vaPieces s (ctxOf p) (body p 8 8) (body p 16 8)
  | 3, 4 => (piecesOf (body p 0 8) (8 * body p 8 4)).map (·.1)
  | 4, 0 => (piecesOf (body p 0 8) (16 * body p 8 4)).map (·.1) ++ (match devPhys s (body p 0 8) (16 * body p 8 4) with
    | .inl t => regions (ctxOf p) ((List.range (body p 8 4)).map fun i => (fieldAt t (16 * i) 8, fieldAt t (16 * i + 8) 8))
    | .inr _ => [])
  | 5, 0 => regions (mget {} s.captures (body p 0 8)).ctx (mget {} s.captures (body p 0 8)).regions
  | _, _ => []

/-- Whether some memory of a command lies in another package that is not lost: its bytes pass a port (R1, R244). -/
def commandFar (s : State) (p : Packet) : Bool := pasFar s (commandPas s p)

/-- Serves the next command when it is the one of this row: `need` says whether its context must exist. A context id out of range, or that
names no context, is refused (R389, R390). -/
def serve (cmd sub : Nat) (need : Bool) (run : Nat → Packet → State → State) (s : State) : State :=
  match nextCommand s with
  | none => s
  | some (q, p) =>
    if cmdOf p ≠ cmd ∨ (cmd ≠ 7 ∧ subOf p ≠ sub) ∨ (commandFar s p ∧ !s.linked) then s
    else
      let s := takeCommand q p (if commandFar s p then s.heard.spoken else s)
      if need ∧ (ctxOf p = 0 ∨ !(s.ctx (ctxOf p)).valid) then endCommand q p stREFUSED s
      else if !need ∧ ctxOf p = 0 ∧ !(cmd = 3 ∧ sub = 0) then endCommand q p stREFUSED s
      else run q p s

/-- ILLCMD (R389): a CMD that names no command; a SUB out of its range is refused (R390). -/
def illegalCommand (s : State) : State :=
  match nextCommand s with
  | none => s
  | some (q, p) =>
    if knownSub p then s
    else endCommand q p (if 1 ≤ cmdOf p ∧ cmdOf p ≤ 7 then stREFUSED else stILLCMD) (takeCommand q p s)

/-- Changes the captures that are open. -/
def onCaptures (f : Capture → Capture) (s : State) : State :=
  { s with captures := mmap (fun c => if c.isOpen then f c else c) s.captures }

/-- A packet that the host pushes by a port into a host-command queue is accepted whole or not at all (R388, R1); while the package replays, its
commands come from the capture (R375). A LAUNCH comes with the size of the VAULT section whose copy it names, which the host loader knows
(R169). An open capture takes the command with its moment and queue (R378). -/
def pushCommand (q : Nat) (p : Packet) (size : Option Nat) (s : State) : State :=
  let x := s.queue q
  if s.power ≠ .on ∨ x.kind ≠ 3 ∨ !s.linked ∨ (s.replay.isSome ∧ !isContinue p) then s
  else if x.cap < x.entries.length + 4 then s.onQueue q fun x => { x with gap := true }
  else
    let s := (List.range 4).foldl (fun s i => acceptEntry q (p.extractLsb' (128 * i) 128) s.fabricTime none s) s.heard
    onCaptures (fun c => { c with commands := c.commands ++ [{ moment := momentOf s c.began c.turn, queue := q, pkt := p, size := size }] })
      (s.onQueue q fun x => { x with sizes := x.sizes ++ [size] })

/-! ### LAUNCH (R164 to R169, R402) -/

/-- A launch record. -/
def launchRec (b : List Byte) : LaunchRec :=
  let f := fun (o n : Nat) => fieldAt b o n
  { ctrl := w32 (f 0 4), gx := f 4 2, gy := f 6 2, gz := f 8 2, bond := f 10 1, barriers := f 11 1, wbars := f 12 1, mbatch := f 13 1
    svcq := f 14 1, collent := f 15 1, vbytes := f 16 4, vimgsec := f 20 2, nbins := f 22 1, reloff := BitVec.ofNat 64 (f 24 8)
    handler := BitVec.ofNat 64 (f 32 8), tracebuf := BitVec.ofNat 64 (f 40 8), tracebytes := f 48 4, cboff := f 52 4
    cbcoll := BitVec.ofNat 64 (f 56 8), cbchunk := f 64 4
    roles := (List.range 4).map fun i =>
      { entry := BitVec.ofNat 57 (f (96 + 16 * i) 8), lanes := f (104 + 16 * i) 2, regs := f (106 + 16 * i) 1, fmt := w32 (f (108 + 16 * i) 4) }
    bins := (List.range (min 4 (f 22 1))).map fun i =>
      { entry := BitVec.ofNat 57 (f (160 + 24 * i) 8), ring := BitVec.ofNat 64 (f (168 + 24 * i) 8), index := f (176 + 24 * i) 1
        blanes := f (177 + 24 * i) 1, timer := f (178 + 24 * i) 2, ringlog := f (180 + 24 * i) 1 } }

/-- Whether some bytes are all 0. -/
def zeroBytes (b : List Byte) (off n : Nat) : Bool := ((b.drop off).take n).all (· == 0)

/-- A role entry within R166. -/
def roleOk (b : List Byte) (l : LaunchRec) (i : Nat) : Bool :=
  let r := (l.roles[i]?).getD {}
  if r.lanes = 0 then zeroBytes b (96 + 16 * i) 16
  else decide (r.lanes ≤ 1024 ∧ 32 ≤ r.regs ∧ r.regs ≤ 248 ∧ r.regs % 8 = 0 ∧ fieldAt b (96 + 16 * i) 8 < 2 ^ 57 ∧ r.entry.toNat % 4 = 0)

/-- A bin entry within R167 and R359; an ENTRY that is no multiple of 4 or is no virtual address is out of range, which is the model's choice (log
entry 65). -/
def binOk (b : List Byte) (l : LaunchRec) (i : Nat) : Bool :=
  match l.bins[i]? with
  | none => zeroBytes b (160 + 24 * i) 24
  | some e => decide (fieldAt b (160 + 24 * i) 8 < 2 ^ 57 ∧ e.entry.toNat % 4 = 0 ∧ e.ring.toNat % 128 = 0 ∧ e.index ≤ 15 ∧ 1 ≤ e.blanes ∧
      e.blanes ≤ 8 ∧ 1 ≤ e.timer ∧ 6 ≤ e.ringlog ∧ e.ringlog ≤ 24 ∧ 64 * e.blanes ≤ 2 ^ e.ringlog)

/-- Whether a list has no value twice. -/
def noRepeat : List Nat → Bool
  | [] => true
  | x :: xs => !xs.contains x && noRepeat xs

/-- The fields of CTRL with those that depend on them (R164, R165). A HANDLER that is no multiple of 4, where no instruction can stand, is out of
range; TRACEBYTES is not looked at without TRACE. Both are the model's choice (log entry 65). -/
def ctrlOk (l : LaunchRec) : Bool :=
  let k := l.sampleExp
  (k == 0 || decide (6 ≤ k ∧ k ≤ 16)) && (if l.hasHandler then l.handler.toNat % 4 == 0 else l.handler == 0) &&
    (if l.traced then decide (l.tracebuf.toNat % 16 = 0 ∧ l.tracebytes % 16 = 0 ∧ 4096 ≤ l.tracebytes) else l.tracebuf == 0) &&
    l.mbatch == (if l.matuse then 4 else 0) && l.svcq == 2 * l.declared.length

/-- The fields of the record but for its bound collective (R164 to R169); `img` is the size of the VAULT section, when it is known. -/
def launchOk (b : List Byte) (l : LaunchRec) (img : Option Nat) : Bool :=
  let n := l.gx * l.gy * l.gz
  ctrlOk l && decide (n ≠ 0 ∧ n ≤ 2 ^ 32 ∧ 1 ≤ l.bond ∧ l.bond ≤ 16 ∧ n % l.bond = 0 ∧ l.barriers ≤ 64 ∧ l.wbars ≤ 16 ∧ l.collent ≤ 64 ∧
      l.vbytes % 128 = 0 ∧ l.vbytes ≤ 983040 ∧ l.nbins ≤ 4 ∧ l.cbchunk % 128 = 0) &&
    !l.declared.isEmpty && (List.range 4).all (roleOk b l) && (List.range 4).all (binOk b l) &&
    noRepeat (l.bins.map (·.index)) && noRepeat (l.bins.map fun (e : BinEntry) => e.entry.toNat) &&
    (l.vimgsec == 0 || (match img with | some k => decide (k ≤ l.vbytes) | none => false))

/-- The bound collective of a launch (R402). -/
def boundOk (s : State) (ctx : Nat) (l : LaunchRec) (bs : List Byte) : Bool :=
  let d := collDesc bs 0 0
  let (_, k, n) := groupEntry s ctx d.group
  d.isBound && !d.isPort && decide (l.cboff + l.cbchunk ≤ l.vbytes) &&
    ((d.oper == 4 && d.root != k) || sendBytes d n k == l.gx * l.gy * l.gz * l.cbchunk)

/-- Whether a command of queue `q` is the named launch of a replay (R377). -/
def isNamed (r : Replay) (q : Nat) : Bool := decide (4096 ≤ q) && r.named == some (q - 4096)

/-- A named launch that is refused ends its REPLAY. -/
def replayRefused (q : Nat) (s : State) : State :=
  match s.replay with
  | some r => if isNamed r q then endCommand r.queue r.pkt stREFUSED { s with replay := none, stop := none } else s
  | none => s

/-- A launch that is accepted (R390): its grid, which the placer places from now on; an open capture takes its fabric time (R378, R386). -/
def acceptLaunch (q : Nat) (p : Packet) (l : LaunchRec) (img : Nat) (s : State) : State :=
  let g := s.nextGrid
  let x : Grid := { ctx := ctxOf p, launch := l, relPa := body p 8 8, vaultPa := body p 16 8, imgBytes := img, pkt := p, queue := q }
  let s := { s.setGrid g x with nextGrid := g + 1, launched := true }
  let s := { s with replay := s.replay.map fun r => if isNamed r q then { r with grid := some g } else r }
  let s := onCaptures (fun c => { c with launches := c.launches ++ [(g, s.fabricTime)] }) s
  report p stACCEPTED (ctxOf p) [] (if waitFlag p then s else queueDone q s)

/-- LAUNCH (R169, R390). -/
def doLaunch (q : Nat) (p : Packet) (s : State) : State :=
  let ctx := ctxOf p
  let va := body p 0 8
  let refuse := fun (s : State) => replayRefused q (endCommand q p stREFUSED s)
  if va % 64 ≠ 0 then refuse s
  else match devRead s ctx va 256 with
    | .inr f => replayRefused q (failCommand q p f s)
    | .inl b =>
      let l := launchRec b
      let img := if l.vimgsec = 0 then none else s.imgSize
      if !launchOk b l img then refuse s
      else if l.cbcoll = 0 then acceptLaunch q p l (img.getD 0) s
      else match devRead s ctx l.cbcoll.toNat 64 with
        | .inr f => replayRefused q (failCommand q p f s)
        | .inl bs => if boundOk s ctx l bs then acceptLaunch q p l (img.getD 0) s else refuse s

/-! ### COPY (R390) -/

/-- One transfer of a COPY of kind `k` (0 host to device, 1 device to host, 2 device to device), of `n` bytes at an offset. -/
def copyPiece (k ctx ep src dst n : Nat) (s : State) : State ⊕ (Nat × Nat) :=
  let read := if k = 0 then .inl (s.load (hostKey ep src) n) else devRead s ctx src n
  match read with
  | .inr f => .inr f
  | .inl bs => if k = 1 then .inl (s.store (hostKey ep dst) bs) else devWrite ctx dst bs s

/-- The transfers of a COPY, of 128 bytes each, up to the first that fails. -/
def copyLoop (k ctx ep : Nat) : Nat → Nat → Nat → Nat → State → State × Option (Nat × Nat)
  | 0, _, _, _, s => (s, none)
  | f + 1, src, dst, n, s =>
    if n = 0 then (s, none)
    else
      let m := min n 128
      match copyPiece k ctx ep src dst m s with
      | .inr e => (s, some e)
      | .inl s => copyLoop k ctx ep f (src + m) (dst + m) (n - m) s

/-- Whether an endpoint is a host's (R383). -/
def hostEp (ep : Nat) : Bool := decide (16384 ≤ ep ∧ ep < 32768)

/-- COPY; one to or from an endpoint that is no host's is refused. Its data keeps a port busy (R387). -/
def doCopy (k q : Nat) (p : Packet) (s : State) : State :=
  let n := body p 16 8
  if k < 2 ∧ !hostEp (body p 24 2) then endCommand q p stREFUSED s
  else match copyLoop k (ctxOf p) (body p 24 2) (n / 128 + 1) (body p 0 8) (body p 8 8) n
      (if k = 0 then s.heard else if k = 1 then s.spoken else s) with
  | (s, none) => endCommand q p stDONE s
  | (s, some f) => failCommand q p f s

/-! ### MAP (R390) -/

/-- The lowest context id that names no context. -/
def freshCtx (s : State) : Option Nat := ((List.range 65535).map (· + 1)).find? fun c => !(s.ctx c).valid

/-- MAP.CONTEXT: a context is created or replaced, and its id reported; a root that is no table's address (R234), or an endpoint that is no host's
(R383), is refused. -/
def doMapContext (q : Nat) (p : Packet) (s : State) : State :=
  if body p 0 8 % 4096 ≠ 0 ∨ 2 ^ 56 ≤ body p 0 8 ∨ !hostEp (body p 16 2) then endCommand q p stREFUSED s
  else match if ctxOf p = 0 then freshCtx s else some (ctxOf p) with
  | none => endCommand q p stREFUSED s
  | some c =>
    let old := s.ctx c
    let new : Ctx := { valid := true, root := body p 0 8, reqAddr := BitVec.ofNat 64 (body p 8 8), reqEp := body p 16 2
                       preempted := old.preempted, savePkts := old.savePkts, killed := old.killed, killPkts := old.killPkts }
    report p stDONE c [] (queueDone q (s.setCtx c new))

/-- MAP.POOL: frames are added to the context's pool (R355); one that is no frame of its size is refused. -/
def doMapPool (q : Nat) (p : Packet) (s : State) : State :=
  let size := body p 12 1
  if 1 < size ∨ body p 0 8 % pageSize size ≠ 0 then endCommand q p stREFUSED s
  else
    let fs := (List.range (body p 8 4)).map fun i => body p 0 8 + i * pageSize size
    endCommand q p stDONE (s.onCtx (ctxOf p) fun c =>
      if size = 0 then { c with pool4 := c.pool4 ++ fs } else { c with pool64 := c.pool64 ++ fs })

/-- MAP.QUEUE: an empty queue is configured (R310). -/
def doMapQueue (q : Nat) (p : Packet) (s : State) : State :=
  let k := body p 0 2
  let lg := body p 3 1
  if 4096 ≤ k ∨ 3 < body p 2 1 ∨ lg < 4 ∨ 16 < lg ∨ !(s.queue k).entries.isEmpty then endCommand q p stREFUSED s
  else endCommand q p stDONE (s.onQueue k fun x => { x with kind := body p 2 1, cap := 2 ^ lg, owner := body p 4 2 })

/-- MAP.SPLIT (R230). -/
def doMapSplit (q : Nat) (p : Packet) (s : State) : State :=
  let v := body p 0 8
  if s.launched ∨ 80000000000 < v ∨ v % 4096 ≠ 0 then endCommand q p stREFUSED s else endCommand q p stDONE { s with split := v }

/-- Schedules and the contexts of switches, which are prepared off line (R393): the selection names a schedule and, in its packet, up to 16
switches with their contexts. -/
def loadSchedule (s : State) : State :=
  if s.sel.pkt = 0 then s
  else
    let ws := ((List.range 16).map fun i => (pktField s.sel.pkt (4 * i) 2, pktField s.sel.pkt (4 * i + 2) 2)).filter fun w => w.2 != 0
    { s with scheds := mput s.scheds s.sel.sub (ws.map (·.1)), swCtx := ws.foldl (fun m w => mput m w.1 w.2) s.swCtx }

/-- MAP.GROUPS: the context's group table is loaded (R393). -/
def doMapGroups (q : Nat) (p : Packet) (s : State) : State :=
  let n := body p 8 4
  if 65536 < n then endCommand q p stREFUSED s
  else match devPhys s (body p 0 8) (8 * n) with
    | .inr f => failCommand q p f s
    | .inl bs =>
      let es := (List.range n).map fun i => (i, BitVec.ofNat 64 (fieldAt bs (8 * i) 8))
      endCommand q p stDONE (loadSchedule (s.onCtx (ctxOf p) fun c => { c with groups := es.filter fun e => e.2 != 0 }))

/-- MAP.INVAL: the context's translations of the pages of a range, or all (R243). -/
def doMapInval (q : Nat) (p : Packet) (s : State) : State :=
  let va := body p 0 8
  let n := body p 8 8
  endCommand q p stDONE (invalidate (ctxOf p) (fun base size => n == 0 || decide (base < va + n ∧ va < base + size)) s)

/-- MAP.ANSWER: an answer to a page request, matched by context and SEQ; one that matches none counts in PRLATE (R356). -/
def doMapAnswer (q : Nat) (p : Packet) (s : State) : State :=
  if 1 < body p 4 1 then endCommand q p stREFUSED s
  else match s.preq.find? fun r => r.ctx == ctxOf p && r.seq == body p 0 4 with
    | none => endCommand q p stDONE { s with prlate := (s.prlate + 1) % 2 ^ 32 }
    | some r =>
      let s := { s with preq := s.preq.filter (· != r) }
      endCommand q p stDONE (answerTeam r (body p 4 1 == 0) s)

/-- MAP.ADMIT: a lost package is readmitted (R245, R387); no translation that names it is left from the time of its loss. -/
def doMapAdmit (q : Nat) (p : Packet) (s : State) : State :=
  let k := body p 0 2
  if 16384 ≤ k then endCommand q p stREFUSED s
  else
    let back := fun (x : Port) => if x.lost ∧ x.neighbour = k then { x with lost := false, up := true, failed := 0, lastRx := s.ac, lastTx := s.ac } else x
    endCommand q p stDONE { invalidatePkg k s with lost := s.lost.filter (· != k), ports := mmap back s.ports }

/-! ### Captures and replay (R378) -/

/-- The bytes of each region of a context, or the first failure. -/
def readRegions (s : State) (ctx : Nat) : List (Nat × Nat) → List (List Byte) ⊕ (Nat × Nat)
  | [] => .inl []
  | (va, n) :: rs =>
    match devRead s ctx va n, readRegions s ctx rs with
    | .inl b, .inl bs => .inl (b :: bs)
    | .inr f, _ => .inr f
    | _, .inr f => .inr f

/-- Closes the captures that are open. -/
def closeCaptures (s : State) : State := onCaptures (fun c => { c with isOpen := false }) s

/-- The packets that wait in a host-command queue, with their sizes. -/
def queuedPackets (q : Nat) (x : Queue) : List Command :=
  (List.range (x.entries.length / 4)).map fun i =>
    { queue := q, pkt := pktOf (((x.entries.drop (4 * i)).take 4).flatMap fun e => leBytes 16 e.data.toNat), size := (x.sizes[i]?).getD none }

/-- The commands that already wait when a capture starts: they run in it, so they are its first (R378). -/
def queuedCommands (s : State) : List Command := (s.queues.filter fun x => x.2.kind == 3).flatMap fun x => queuedPackets x.1 x.2

/-- SNAPSHOT.0: a capture starts with the bytes of the declared regions; the address of its region list names it. Which of the regions are output
regions the host's tool declares: the regions whose bits the selection sets, or else all (log entry 42). -/
def doSnapshotStart (q : Nat) (p : Packet) (s : State) : State :=
  let n := body p 8 4
  if 4096 ≤ q then endCommand q p stREFUSED s
  else match devPhys s (body p 0 8) (16 * n) with
    | .inr f => failCommand q p f s
    | .inl t =>
      let rs := (List.range n).map fun i => (fieldAt t (16 * i) 8, fieldAt t (16 * i + 8) 8)
      match readRegions s (ctxOf p) rs with
      | .inr f => failCommand q p f s
      | .inl bs =>
        let out := (rs.zipIdx.filter fun r => s.sel.pkt == 0 || s.sel.pkt.getLsbD r.2).map (·.1)
        let s := closeCaptures s
        let c : Capture := { isOpen := true, ctx := ctxOf p, began := s.ac, turn := s.turn, next := s.cmdNext, regions := rs, outputs := out
                             commands := queuedCommands s, snapshot := bs }
        endCommand q p stDONE { s with captures := mput s.captures (body p 0 8) c }

/-- SNAPSHOT.1: the capture stops. -/
def doSnapshotStop (q : Nat) (p : Packet) (s : State) : State := endCommand q p stDONE (closeCaptures s)

/-- The captured commands up to launch `n` of them, which is the named one; none when there is no such launch. -/
def upToLaunch : Nat → List Command → Option (List Command)
  | _, [] => none
  | n, c :: cs =>
    if cmdOf c.pkt = 1 then
      match n with
      | 0 => some [{ c with named := true }]
      | n + 1 => (upToLaunch n cs).map (c :: ·)
    else (upToLaunch n cs).map (c :: ·)

/-- Writes the snapshot back, region by region. -/
def restoreRegions (ctx : Nat) : List ((Nat × Nat) × List Byte) → State → State ⊕ (Nat × Nat)
  | [], s => .inl s
  | (r, bs) :: rest, s =>
    match devWrite ctx r.1 bs s with
    | .inl s => restoreRegions ctx rest s
    | .inr f => .inr f

/-- REPLAY: the snapshot of the capture that it names is restored, the captured commands run up to the named launch, and the precise stop is
armed (R377, R378). -/
def doReplay (q : Nat) (p : Packet) (s : State) : State :=
  let c := mget {} s.captures (body p 0 8)
  match upToLaunch (body p 8 4) c.commands with
  | none => endCommand q p stREFUSED s
  | some cmds =>
    if 4 ≤ body p 20 1 ∨ s.replay.isSome ∨ 4096 ≤ q then endCommand q p stREFUSED s
    else match restoreRegions c.ctx (c.regions.zip c.snapshot) s with
      | .inr f => failCommand q p f s
      | .inl s => { closeCaptures s with
          replay := some { pkt := p, queue := q, began := s.ac, turn := s.turn, next := c.next, cmds := cmds, inputs := c.inputs }
          stop := some { ctx := ctxOf p, launch := body p 8 4, lin := body p 12 8, role := body p 20 1, count := body p 24 8, pkt := p } }

/-! ### SIGNAL (R358, R360, R375, R405) -/

/-- PREEMPT (R358). -/
def doPreempt (q : Nat) (p : Packet) (s : State) : State :=
  contextSaved (ctxOf p) ((endCommand q p stDONE s).onCtx (ctxOf p) fun c => { c with preempted := true, savePkts := c.savePkts ++ [p] })

/-- RESUME. -/
def doResume (q : Nat) (p : Packet) (s : State) : State :=
  endCommand q p stDONE ((contextSaved (ctxOf p) s).onCtx (ctxOf p) fun c => { c with preempted := false })

/-- A grid of a killed context (R360): KILLED, and its blocks, placed or saved, counted as aborted, with every member of their bonds (R354). -/
def killGrid (g : Nat) (s : State) : State :=
  let x := s.grid g
  let live := s.blocks.filter fun p => p.2.grid == g && p.2.phase != .ended && !p.2.aborted
  let kept := x.saved ++ x.restore
  let (bonded, lone) := live.partition fun p => p.2.kind == .grid
  let bonds := ((bonded.map fun p => (p.2.bond0, p.2.bondSize)) ++ kept.map fun b => (b.block.bond0, b.block.bondSize)).eraseDups
  let lins := bonds.map (·.1)
  let n := lone.length + (bonds.map (·.2)).sum
  let s := s.onGrid g fun x => { x with stFlags := x.stFlags ||| 4, saved := [], restore := [], nextBlk := max x.nextBlk (gridSize x) }
  let s := if n = 0 then s else recordAbort g 4 0 ((lins.head?.map fun l => lins.foldl min l).getD 0) n s
  (live.map (·.1)).foldl (fun s k => abortOne k s) s

/-- KILL (R360, R405): every block of the context is aborted; its page requests, bins, tasks and collective entries are discarded. -/
def doKill (q : Nat) (p : Packet) (s : State) : State :=
  let ctx := ctxOf p
  let s := s.onCtx ctx fun c => { c with killed := true, killPkts := c.killPkts ++ [(p, q)] }
  let gs := (s.grids.filter fun g => g.2.ctx == ctx && !g.2.ended).map (·.1)
  let s := gs.foldl (fun s g => killGrid g s) s
  let s := { s with
    preq := s.preq.filter fun r => r.ctx != ctx
    cores := mmap (fun c => { c with bins := c.bins.filter fun b => !gs.contains b.2.grid }) s.cores
    dies := mmap (fun d => { d with jobs := d.jobs.filter fun j => j.ctx != ctx }) s.dies
    queues := mmap (fun x => if x.kind = 2 then { x with entries := x.entries.filter fun e => entryCtx e != ctx } else x) s.queues }
  killDone ctx (killColls ctx s)

/-- CONTINUE after a precise stop (R375): the teams that it holds are ready from the next ac (R176). -/
def doContinue (q : Nat) (p : Packet) (s : State) : State :=
  let wake := fun (t : Team) =>
    if t.park = .held ∨ (t.park = .run ∧ heldByStop s t.tid) then
      { t with park := .run, stall := Park.held.code, readyAt := max t.readyAt (s.ac + 1) }
    else t
  endCommand q p stDONE { s with stop := none, team := wake s.team, teams := mmap wake s.teams }

/-! ### ATTEST (R433) -/

/-- The spare map as bytes: the three kinds in turn, each as its length, its units in ascending order and, of each, what is replaced. The spec gives no
layout (log entry 8). -/
def spareBytes (m : SpareMap) : List Byte :=
  let many := fun (l : Sparse (List Nat)) =>
    leBytes 4 l.length ++ l.flatMap fun e => leBytes 4 e.1 ++ leBytes 4 e.2.length ++ e.2.flatMap (leBytes 4)
  leBytes 4 m.cores.length ++ m.cores.flatMap (fun e => leBytes 4 e.1 ++ leBytes 4 e.2) ++ many m.rows ++ many m.chans

/-- The private identity key, and the secret number of the next signature, a free value of 384 bits. -/
def identityOf (s : State) : Nat := s.idKey.getD 0
def signSecret (s : State) : Nat :=
  leNat ((List.range 12).flatMap fun i => leBytes 4 (Config.freeWord (s.fresh + i)).toNat) % (n384 - 1) + 1

/-- The attestation report. -/
def attestation (nonce : List Byte) (s : State) : List Byte :=
  let key := publicKey (identityOf s)
  let b := nonce ++ leBytes 4 s.startCount ++ leBytes 2 s.images.length ++ leBytes 2 0 ++ beBytes 48 key.1 ++ beBytes 48 key.2 ++
    sha384 (spareBytes s.spares) ++ s.images.flatMap (padTo 48)
  let sig := ecdsaSign (identityOf s) (signSecret s) b
  b ++ beBytes 48 sig.1 ++ beBytes 48 sig.2

/-- ATTEST: the report is written to the host's buffer, and DONE carries its length. -/
def doAttest (q : Nat) (p : Packet) (s : State) : State :=
  let r := attestation ((pktBytes p).drop 20 |>.take 32) s
  let s := { s.store (hostKey (reportEp p) (body p 32 8)) r with fresh := s.fresh + 12 }
  report p stDONE (ctxOf p) (leBytes 4 r.length) (queueDone q s)

/-- A command that moves data to or from the host starts once a port is up (R1). -/
def serveLinked (cmd sub : Nat) (need : Bool) (run : Nat → Packet → State → State) (s : State) : State :=
  if s.linked then serve cmd sub need run s else s

/-! ### Meanings -/

/-- HOST_COMMAND_PUSH (R388): the selection names the queue, the packet and, for a LAUNCH with a VAULT section, 1 and the section's size. -/
def execHostCommandPush (s : State) : Out :=
  .next (pushCommand s.sel.unit s.sel.pkt (if s.sel.sub = 1 then some s.sel.word else none) s)
/-- LAUNCH (R390): the command served next. -/
def execLaunch (s : State) : Out := .next (serve 1 0 true doLaunch s)
/-- COPY_HOST_TO_DEVICE (R390). -/
def execCopyHostToDevice (s : State) : Out := .next (serveLinked 2 0 true (doCopy 0) s)
/-- COPY_DEVICE_TO_HOST (R390). -/
def execCopyDeviceToHost (s : State) : Out := .next (serveLinked 2 1 true (doCopy 1) s)
/-- COPY_DEVICE_TO_DEVICE (R390). -/
def execCopyDeviceToDevice (s : State) : Out := .next (serve 2 2 true (doCopy 2) s)
/-- MAP_CONTEXT (R390). -/
def execMapContext (s : State) : Out := .next (serve 3 0 false doMapContext s)
/-- MAP_POOL (R390). -/
def execMapPool (s : State) : Out := .next (serve 3 1 true doMapPool s)
/-- MAP_QUEUE (R390). -/
def execMapQueue (s : State) : Out := .next (serve 3 2 false doMapQueue s)
/-- MAP_SPLIT (R390). -/
def execMapSplit (s : State) : Out := .next (serve 3 3 false doMapSplit s)
/-- MAP_GROUPS (R390, R393). -/
def execMapGroups (s : State) : Out := .next (serve 3 4 true doMapGroups s)
/-- MAP_INVAL (R243, R390). -/
def execMapInval (s : State) : Out := .next (serve 3 5 true doMapInval s)
/-- MAP_ANSWER (R356, R390). -/
def execMapAnswer (s : State) : Out := .next (serve 3 6 false doMapAnswer s)
/-- MAP_ADMIT (R387, R390). -/
def execMapAdmit (s : State) : Out := .next (serve 3 7 false doMapAdmit s)
/-- SNAPSHOT_START (R378, R390). -/
def execSnapshotStart (s : State) : Out := .next (serve 4 0 true doSnapshotStart s)
/-- SNAPSHOT_STOP (R378, R390). -/
def execSnapshotStop (s : State) : Out := .next (serve 4 1 false doSnapshotStop s)
/-- REPLAY (R377, R378, R390). -/
def execReplay (s : State) : Out := .next (serve 5 0 true doReplay s)
/-- SIGNAL_PREEMPT (R358). -/
def execSignalPreempt (s : State) : Out := .next (serve 6 0 true doPreempt s)
/-- SIGNAL_RESUME (R358). -/
def execSignalResume (s : State) : Out := .next (serve 6 1 true doResume s)
/-- SIGNAL_KILL (R360). -/
def execSignalKill (s : State) : Out := .next (serve 6 2 true doKill s)
/-- SIGNAL_CONTINUE (R375). -/
def execSignalContinue (s : State) : Out := .next (serve 6 3 false doContinue s)
/-- ATTEST (R433). -/
def execAttest (s : State) : Out := .next (serveLinked 7 0 false doAttest s)
/-- ILLCMD (R389). -/
def execIllcmd (s : State) : Out := .next (illegalCommand s)

end Sys2Proof.Machine
end

