-- ==== Sys2Proof/Machine/Integer.lean ====
section
/-!
DEFINITION. Integer register operations (R101, R102), immediates (R103), the integer unary family (R104), SEL (R105), the format register
and the window (R106 to R109), PTN (R181) and NOP (R123).
-/

namespace Sys2Proof.Machine

/-! ### The functions of R101, R102 and R104 -/

/-- IMULH: bits [63:32] of the signed product. -/
def mulhS (a b : Word) : Word := ((a.signExtend 64) * (b.signExtend 64)).extractLsb' 32 32
/-- IMULHU: bits [63:32] of the unsigned product. -/
def mulhU (a b : Word) : Word := ((a.zeroExtend 64) * (b.zeroExtend 64)).extractLsb' 32 32
/-- The smaller and the larger as signed integers. -/
def minS (a b : Word) : Word := if a.toInt ≤ b.toInt then a else b
def maxS (a b : Word) : Word := if a.toInt ≤ b.toInt then b else a
/-- Shifts by the whole of B (R102): a count of 32 or more shifts everything out. -/
def shl (a b : Word) : Word := if b.toNat < 32 then a <<< b.toNat else 0
def shr (a b : Word) : Word := if b.toNat < 32 then a >>> b.toNat else 0
def shra (a b : Word) : Word := a.sshiftRight (min b.toNat 32)
/-- Number of leading zero bits, 0 to 32. -/
def clz (a : Word) : Word := w32 (32 - if a.toNat = 0 then 0 else a.toNat.log2 + 1)
/-- Number of one bits. -/
def popc (a : Word) : Word := w32 (popcount a.toNat 32)
/-- Bit reversal. -/
def brev (a : Word) : Word := (List.range 32).foldl (fun acc i => if a.getLsbD i then acc ||| w32 (2 ^ (31 - i)) else acc) 0
/-- ABS: 0x8000_0000 gives itself. -/
def absW (a : Word) : Word := if a.getLsbD 31 then -a else a

/-- An integer operation on values, whatever was read as POISON. -/
abbrev onVal (f : Word → Word → Word) (x y : Word × Bool) : Word := f x.1 y.1

/-- SEL (R105): D is read third; A where the old D is not 0, else B. -/
def doSel (h : Hd) (d a b : RegF) (s : State) : State :=
  let u := isScalar d
  withOps 4 u [src a, src b, srcDst d] s fun s =>
    let lanes := execLanes s u
    let ws := writesOf s d.toNat lanes fun l => if rdv s d l ≠ 0 then rdv s a l else rdv s b l
    let s := begin (passes s u) s
    finish h 4 (s.onTeam fun t => writeRegs ws (applyHints h a 1 b 1 lanes t))

/-- The source of SETFMT.REG and WBASE.REG: a scalar or special, read once; a vector traps ILLOPND (R106, R108). -/
def withScalarA (len : Nat) (h : Hd) (a : RegF) (s : State) (k : Word → (Team → Team) → State → State) : State :=
  withOps len false [src a] s fun s =>
    if isVec a then trapI cILLOPND len (begin 1 s)
    else k (rdu s a) (applyHints h a 1 a 0 []) s

/-- SETFMT (R106): every value is accepted. -/
def doSetfmt (h : Hd) (w : Word) (hint : Team → Team) (s : State) : State :=
  finish h 8 ((begin 1 s).onTeam fun t => { hint t with fmt := w })

/-- WBASE (R108): a base that is not a multiple of 8 or not below NREGS traps ILLOPND. In handler mode the base is the user's. -/
def doWbase (h : Hd) (w : Word) (hint : Team → Team) (s : State) : State :=
  if w.toNat % 8 ≠ 0 ∨ s.team.nregs ≤ w.toNat then trapI cILLOPND 8 (begin 1 s)
  else finish h 8 ((begin 1 s).onTeam fun t => { hint t with wbase := w.toNat })

/-- PTN (R181): one pass. -/
def doPtn (h : Hd) (c : BitVec 3) (s : State) : State := finish h 4 ((begin 1 s).onTeam fun t => { t with ptile := c })

/-! ### Meanings -/

/-- IADD (R101). -/
def execIadd (h : Hd) (d a b : RegF) (s : State) : Out := .next (shortOp h 4 d a b 1 1 (onVal (fun x y => x + y)) s)
/-- ISUB (R101). -/
def execIsub (h : Hd) (d a b : RegF) (s : State) : Out := .next (shortOp h 4 d a b 1 1 (onVal (fun x y => x - y)) s)
/-- IMUL (R101). -/
def execImul (h : Hd) (d a b : RegF) (s : State) : Out := .next (shortOp h 4 d a b 1 1 (onVal (fun x y => x * y)) s)
/-- IMULH (R101). -/
def execImulh (h : Hd) (d a b : RegF) (s : State) : Out := .next (shortOp h 4 d a b 1 1 (onVal (mulhS)) s)
/-- IMULHU (R101). -/
def execImulhu (h : Hd) (d a b : RegF) (s : State) : Out := .next (shortOp h 4 d a b 1 1 (onVal (mulhU)) s)
/-- IMIN (R101). -/
def execImin (h : Hd) (d a b : RegF) (s : State) : Out := .next (shortOp h 4 d a b 1 1 (onVal (minS)) s)
/-- IMAX (R101). -/
def execImax (h : Hd) (d a b : RegF) (s : State) : Out := .next (shortOp h 4 d a b 1 1 (onVal (maxS)) s)
/-- AND (R101). -/
def execAndR (h : Hd) (d a b : RegF) (s : State) : Out := .next (shortOp h 4 d a b 1 1 (onVal (fun x y => x &&& y)) s)
/-- OR (R101). -/
def execOrR (h : Hd) (d a b : RegF) (s : State) : Out := .next (shortOp h 4 d a b 1 1 (onVal (fun x y => x ||| y)) s)
/-- XOR (R101). -/
def execXorR (h : Hd) (d a b : RegF) (s : State) : Out := .next (shortOp h 4 d a b 1 1 (onVal (fun x y => x ^^^ y)) s)
/-- SHL (R102). -/
def execShl (h : Hd) (d a b : RegF) (s : State) : Out := .next (shortOp h 4 d a b 1 1 (onVal (shl)) s)
/-- SHR (R102). -/
def execShr (h : Hd) (d a b : RegF) (s : State) : Out := .next (shortOp h 4 d a b 1 1 (onVal (shr)) s)
/-- SHRA (R102). -/
def execShra (h : Hd) (d a b : RegF) (s : State) : Out := .next (shortOp h 4 d a b 1 1 (onVal (shra)) s)
/-- ILT (R101). -/
def execIlt (h : Hd) (d a b : RegF) (s : State) : Out := .next (shortOp h 4 d a b 1 1 (onVal (fun x y => boolWord (decide (x.toInt < y.toInt)))) s)
/-- ILTU (R101). -/
def execIltu (h : Hd) (d a b : RegF) (s : State) : Out := .next (shortOp h 4 d a b 1 1 (onVal (fun x y => boolWord (decide (x.toNat < y.toNat)))) s)
/-- IEQ (R101). -/
def execIeq (h : Hd) (d a b : RegF) (s : State) : Out := .next (shortOp h 4 d a b 1 1 (onVal (fun x y => boolWord (decide (x = y)))) s)
/-- SEL (R105). -/
def execSel (h : Hd) (d a b : RegF) (s : State) : Out := .next (doSel h d a b s)
/-- XUN.MOV (R104). -/
def execXunMov (h : Hd) (d a : RegF) (s : State) : Out := .next (shortOp h 4 d a a 1 0 (onVal fun a _ => a) s)
/-- XUN.NOT (R104). -/
def execXunNot (h : Hd) (d a : RegF) (s : State) : Out := .next (shortOp h 4 d a a 1 0 (onVal fun a _ => ~~~ a) s)
/-- XUN.NEG (R104). -/
def execXunNeg (h : Hd) (d a : RegF) (s : State) : Out := .next (shortOp h 4 d a a 1 0 (onVal fun a _ => -a) s)
/-- XUN.ABS (R104). -/
def execXunAbs (h : Hd) (d a : RegF) (s : State) : Out := .next (shortOp h 4 d a a 1 0 (onVal fun a _ => absW a) s)
/-- XUN.CLZ (R104). -/
def execXunClz (h : Hd) (d a : RegF) (s : State) : Out := .next (shortOp h 4 d a a 1 0 (onVal fun a _ => clz a) s)
/-- XUN.POPC (R104). -/
def execXunPopc (h : Hd) (d a : RegF) (s : State) : Out := .next (shortOp h 4 d a a 1 0 (onVal fun a _ => popc a) s)
/-- XUN.BREV (R104). -/
def execXunBrev (h : Hd) (d a : RegF) (s : State) : Out := .next (shortOp h 4 d a a 1 0 (onVal fun a _ => brev a) s)
/-- XUN.SXB (R104). -/
def execXunSxb (h : Hd) (d a : RegF) (s : State) : Out := .next (shortOp h 4 d a a 1 0 (onVal fun a _ => (a.extractLsb' 0 8).signExtend 32) s)
/-- XUN.SXH (R104). -/
def execXunSxh (h : Hd) (d a : RegF) (s : State) : Out := .next (shortOp h 4 d a a 1 0 (onVal fun a _ => (a.extractLsb' 0 16).signExtend 32) s)
/-- XUN.ZXB (R104). -/
def execXunZxb (h : Hd) (d a : RegF) (s : State) : Out := .next (shortOp h 4 d a a 1 0 (onVal fun a _ => (a.extractLsb' 0 8).zeroExtend 32) s)
/-- XUN.ZXH (R104). -/
def execXunZxh (h : Hd) (d a : RegF) (s : State) : Out := .next (shortOp h 4 d a a 1 0 (onVal fun a _ => (a.extractLsb' 0 16).zeroExtend 32) s)
/-- MOVI (R103). -/
def execMovi (h : Hd) (d : RegF) (l : Word) (s : State) : Out := .next (shortOp h 8 d d d 0 0 (fun _ _ => l) s)
/-- IADDI (R103). -/
def execIaddi (h : Hd) (d a : RegF) (l : Word) (s : State) : Out := .next (shortOp h 8 d a a 1 0 (onVal fun a _ => a + l) s)
/-- MULI (R103). -/
def execMuli (h : Hd) (d a : RegF) (l : Word) (s : State) : Out := .next (shortOp h 8 d a a 1 0 (onVal fun a _ => a * l) s)
/-- ANDI (R103). -/
def execAndi (h : Hd) (d a : RegF) (l : Word) (s : State) : Out := .next (shortOp h 8 d a a 1 0 (onVal fun a _ => a &&& l) s)
/-- ORI (R103). -/
def execOri (h : Hd) (d a : RegF) (l : Word) (s : State) : Out := .next (shortOp h 8 d a a 1 0 (onVal fun a _ => a ||| l) s)
/-- XORI (R103). -/
def execXori (h : Hd) (d a : RegF) (l : Word) (s : State) : Out := .next (shortOp h 8 d a a 1 0 (onVal fun a _ => a ^^^ l) s)
/-- SETFMT (R106). -/
def execSetfmt (h : Hd) (l : Word) (s : State) : Out := .next (doSetfmt h l id s)
/-- SETFMT.REG (R106). -/
def execSetfmtReg (h : Hd) (a : RegF) (s : State) : Out := .next (withScalarA 8 h a s (doSetfmt h))
/-- WBASE (R108). -/
def execWbase (h : Hd) (l : Word) (s : State) : Out := .next (doWbase h l id s)
/-- WBASE.REG (R108). -/
def execWbaseReg (h : Hd) (a : RegF) (s : State) : Out := .next (withScalarA 8 h a s (doWbase h))
/-- NOP (R123). -/
def execNop (h : Hd) (s : State) : Out := .next (finish h 4 (begin 1 s))
/-- PTN.T32 (R181). -/
def execPtnT32 (h : Hd) (s : State) : Out := .next (doPtn h 0 s)
/-- PTN.T16 (R181). -/
def execPtnT16 (h : Hd) (s : State) : Out := .next (doPtn h 1 s)
/-- PTN.T8 (R181). -/
def execPtnT8 (h : Hd) (s : State) : Out := .next (doPtn h 2 s)
/-- PTN.T4 (R181). -/
def execPtnT4 (h : Hd) (s : State) : Out := .next (doPtn h 3 s)
/-- PTN.T2 (R181). -/
def execPtnT2 (h : Hd) (s : State) : Out := .next (doPtn h 4 s)
/-- PTN.WHOLE (R181). -/
def execPtnWhole (h : Hd) (s : State) : Out := .next (doPtn h 5 s)

end Sys2Proof.Machine
end

