-- ==== Sys2Proof/Machine/Package.lean ====
section
/-!
DEFINITION. The package as a whole: its start and its start log (R427 to R432), power (R429, R430), scrubs (R424, R425), links and lost
packages (R245, R387, R405, R424, R426), and fabric time (R386).
-/

namespace Sys2Proof.Machine

/-! ### Lost packages (R245, R387, R405) -/

/-- Whether a package is a member of a group of `n` members (R393, log entry 20). -/
def groupHas (group n pkg : Nat) : Bool := (List.range n).any fun k => Config.memberPackage group k == pkg

/-- The collectives of which a lost package is a member (R405): their posts at COORD are discarded, requests and grants are withdrawn, and this
package's entries, posted or started, get the notice LOST. -/
def lostMember (pkg : Nat) (s : State) : State :=
  let gone := fun (group n : Nat) => groupHas group n pkg
  let hit := fun (i : Nat) =>
    let c := s.coll i
    (c.st == .posted || c.st == .started) && (gone c.desc.group c.n ||
      (s.posts.any fun p => p.pkg == pkg && p.key == c.key) || (s.creqs.any fun r => r.members.contains pkg && r.key == c.key) ||
      s.grants.any fun g => g.members.contains pkg && g.key == c.key)
  let dead := fun (p : Post) => gone p.group p.n || s.posts.any fun q => q.pkg == pkg && q.key == p.key
  { s with
    posts := s.posts.filter fun p => !dead p
    creqs := s.creqs.filter fun r => !r.members.contains pkg
    grants := s.grants.filter fun g => !g.members.contains pkg
    notices := s.notices ++ ((List.range 64).filter hit).map fun i => (i, (s.coll i).gen, ceLOST) }

/-- The part of an access in flight that goes to a package, and what is left of it without that (R245). -/
def FarAccess.part (x : FarAccess) (pkg : Nat) : Option FarAccess :=
  match x.lanes.filter fun l => l.2.1 == pkg with
  | [] => none
  | ls => some { x with lanes := ls }
def FarAccess.rest (x : FarAccess) (pkg : Nat) : Option FarAccess :=
  match x.lanes.filter fun l => l.2.1 != pkg with
  | [] => none
  | ls => some { x with lanes := ls }

/-- The accesses of a team to a package that are in flight, oldest first: results, stores, and the WADDR.WAIT on which it is parked. -/
def farParts (pkg : Nat) (t : Team) : List FarAccess :=
  (t.pend.map (·.far) ++ t.stores.map (·.far) ++ [if t.park = .watch then t.farWait else none]).filterMap fun x => x.bind (·.part pkg)

/-- A team without its accesses to a package (R245): a load that is lost writes no register, and no reply is waited for. `n` counts the requests of
a tag that are gone. -/
def dropFar (pkg : Nat) (n : Nat → Nat) (t : Team) : Team :=
  let lost := fun (x : Option FarAccess) (w : RegWrite) =>
    match x.bind (·.part pkg) with
    | some y => decide (512 ≤ w.reg) || y.lanes.any fun l => l.1 == w.lane
    | none => false
  { t with
    pend := t.pend.map fun p =>
      { p with writes := p.writes.filter fun w => !lost p.far w, missing := p.missing - n p.tag, far := p.far.bind (·.rest pkg) }
    stores := t.stores.map fun k => { k with left := k.left - n k.tag, far := k.far.bind (·.rest pkg) } }

/-- The requests that have not been answered and whose owner is a package. -/
def requestsTo (s : State) (pkg : Nat) : List Req :=
  ((s.clusters.flatMap fun c => c.2.net ++ c.2.queue ++ c.2.held.filterMap fun h => h.2.2.map (·.1)) ++ s.cores.flatMap fun c => c.2.vport).filter
    fun r => paPkg r.pa == pkg

/-- Those requests leave their queues; a WADDR's credit returns (R253). -/
def dropRequests (pkg : Nat) (s : State) : State :=
  let keep := fun (r : Req) => paPkg r.pa != pkg
  let gone := requestsTo s pkg
  let s := { s with
    clusters := mmap (fun c => { c with
      net := c.net.filter keep, queue := c.queue.filter keep
      held := c.held.map fun h => (h.1, h.2.1, h.2.2.filter fun x => keep x.1) }) s.clusters
    cores := mmap (fun c => { c with vport := c.vport.filter keep }) s.cores }
  gone.foldl (fun s r => reqCredit r s) s

/-- The stores of ended teams to a lost package are no longer waited for (R245). -/
def dropLeft (pkg : Nat) (gone : List Req) (s : State) : State :=
  onTokens (·.map fun k => { k with left := k.left - (gone.filter fun r => r.tag == k.tag).length, far := k.far.bind (·.rest pkg) }) s

/-- The accesses of one team to a lost package trap REMOTE at its next instruction boundary, in handler mode as DOUBLE (R245, R352). -/
def loseAccesses (pkg : Nat) (gone : List Req) (tid : Nat) (s : State) : State :=
  s.withTeam tid fun s =>
    let n := fun tag => (gone.filter fun r => r.tid == tid && r.tag == tag).length
    let wakes := (gone.filter fun r => r.tid == tid && r.credit == some s.team.blk).filterMap fun r => r.far.bind (·.part pkg)
    let xs := farParts pkg s.team ++ wakes
    let s := s.onTeam (dropFar pkg n)
    if xs.isEmpty then s
    else if s.team.hmode then abortBlock s.team.blk 1 cDOUBLE s
    else xs.foldl (fun s x => addEvent (.remote x) s) s

/-- The translation registers of teams saved at wide barriers that name a package lose their V, in the team and in its record (R245). -/
def invalidateSaved (pkg : Nat) (s : State) : State :=
  let off := dropXlate (fun r => paPkg (r.frame.toNat * 4096) == pkg) (fun r => r.gone || paPkg (r.frame * 4096) == pkg)
  let fix := fun (b : SavedBlock) =>
    let ts := b.teams.map off
    { b with teams := ts, record := savedRecord b.block ts (savedVault b) }
  { s with grids := mmap (fun x => { x with saved := x.saved.map fix, restore := x.restore.map fix }) s.grids }

/-- A package is lost (R245): in one step its translations are invalidated, its accesses in flight trap, and from now on they are refused. -/
def losePackage (pkg : Nat) (s : State) : State :=
  if s.lost.contains pkg ∨ pkg = Config.packageIndex then s
  else
    let gone := requestsTo s pkg
    let s := dropRequests pkg (lostMember pkg (invalidateSaved pkg (invalidatePkg pkg { s with lost := s.lost ++ [pkg] })))
    (s.allTeams.map (·.tid)).foldl (fun s tid => loseAccesses pkg gone tid s) (dropLeft pkg gone s)

/-- A port declares its neighbour lost (R387). -/
def loseLink (p : Nat) (s : State) : State :=
  losePackage (s.port p).neighbour (s.onPort p fun x => { x with lost := true, up := false })

/-- LINK_SILENCE_LOSS: no flit for 4,096 ac. -/
def linkSilence (p : Nat) (s : State) : State :=
  if (s.port p).up ∧ !(s.port p).lost ∧ (s.port p).lastRx + 4096 ≤ s.ac then loseLink p s else s

/-- LINK_REPLAY_LOSS: one flit has failed its replay 16 times in a row. -/
def linkReplay (p : Nat) (s : State) : State :=
  if (s.port p).up ∧ !(s.port p).lost ∧ 16 ≤ (s.port p).failed then loseLink p s else s

/-- FLIT_REPLAY: a flit is sent again; the value says whether it failed once more. -/
def flitReplay (p : Nat) (fails : Bool) (s : State) : State :=
  if !(s.port p).up ∨ (s.port p).lost ∨ 16 ≤ (s.port p).failed then s
  else s.onPort p fun x => { x with failed := if fails then x.failed + 1 else 0, lastTx := s.ac }

/-- IDLE_FLIT: an end of a link sends an idle flit; this package's end after 256 ac without sending, or the neighbour's. -/
def idleFlit (p : Nat) (theirs : Bool) (s : State) : State :=
  if !(s.port p).up ∨ (s.port p).lost then s
  else if theirs then s.onPort p fun x => { x with lastRx := s.ac }
  else if (s.port p).lastTx + 256 ≤ s.ac then s.onPort p fun x => { x with lastTx := s.ac } else s

/-- FABRIC_LANE_SWAP (R426): the port's spare lane replaces a failing one. -/
def laneSwap (p : Nat) (s : State) : State :=
  if p < 36 ∧ (s.port p).up ∧ !(s.port p).spareUsed then s.onPort p fun x => { x with spareUsed := true } else s

/-! ### Fabric time (R386) -/

/-- Whether the package takes beacons: it runs, or it joins fabric time (step 7). -/
def takesTime (s : State) : Bool := s.linked && (s.power == .on || (s.power == .starting && s.startStep == 7))

/-- TIME_BEACON: the root switch sends its time to this package. -/
def sendBeacon (t : Nat) (s : State) : State := if takesTime s then { s with beacons := s.beacons ++ [t % 2 ^ 63] } else s

/-- The package adjusts its copy by the beacon's path delay. -/
def takeBeacon (s : State) : State :=
  match s.beacons with
  | [] => s
  | t :: rest => { s.heard with beacons := rest, ftime := (t + Config.beaconDelay + 2 ^ 63 - s.ac % 2 ^ 63) % 2 ^ 63 }

/-- TIME_BEACON_RECEIVE. -/
def receiveBeacon (s : State) : State := if takesTime s then takeBeacon s else s

/-! ### Errors (R424, R425) -/

/-- Counts a corrected error in a field of CECOUNT (R425). -/
def countError (lo : Nat) (s : State) : State :=
  let n := bitsOf s.cecount.toNat (lo + 7) lo
  if n = 255 then s else { s with cecount := s.cecount + w32 (2 ^ lo) }

/-- A scrub's finding at a byte key: 1 a corrected error, 2 an uncorrectable word, which it marks; anything else nothing. -/
def scrub (lo key found : Nat) (s : State) : State :=
  match found with
  | 1 => countError lo s
  | 2 => if s.bad.contains (granule key) then s else { s with bad := s.bad ++ [granule key] }
  | _ => s

/-! ### The start log (R428) -/

/-- The bytes of a start-log record. -/
def startBytes (r : StartRec) : List Byte :=
  let b := leBytes 2 r.step ++ leBytes 1 r.outcome ++ leBytes 1 r.alt ++ leBytes 4 r.start ++ leBytes 4 r.detail.toNat
  b ++ leBytes 4 (crc32c b).toNat

/-- The record that 16 bytes hold; none when their CRC does not match. -/
def readStart (b : List Byte) : Option StartRec :=
  if fieldAt b 12 4 = (crc32c (b.take 12)).toNat then
    some { step := fieldAt b 0 2, outcome := fieldAt b 2 1, alt := fieldAt b 3 1, start := fieldAt b 4 4, detail := w32 (fieldAt b 8 4) }
  else none

/-- Writes a record: the log is a ring of 65,536. -/
def logStart (b : List Byte) (s : State) : State := { s with startLog := (s.startLog ++ [b]).drop (s.startLog.length + 1 - 65536) }

/-- The record of the attempt in progress gets its outcome. -/
def logOutcome (r : StartRec) (s : State) : State := { s with startLog := s.startLog.dropLast ++ [startBytes r] }

/-- What a write that loses power may leave: 16 bytes whose CRC does not match. -/
def tornBytes (p : Packet) : List Byte :=
  let b := (leBytes 64 p.toNat).take 12
  b ++ leBytes 4 (~~~ crc32c b).toNat

/-- The latest record of a step. -/
def latestRec (s : State) (step : Nat) : Option StartRec := (s.startLog.filterMap readStart).reverse.find? fun r => r.step == step

/-! ### The start (R427, R429) -/

/-- The alternates of a step beyond its primary procedure, and whether it may be skipped (R427). -/
def alternates (step : Nat) : Nat := if step = 1 then 1 else if step = 4 then 3 else if 0x600 ≤ step then 1 else 0
def skippable (step : Nat) : Bool := decide (0x600 ≤ step)

/-- The step after a step (R427): step 6 runs for each of the 36 ports. -/
def stepAfter (step : Nat) : Nat :=
  if step = 5 then 0x600 else if step = 0x600 + 35 then 7 else step + 1

/-- What a start does with a step (R429): the alternate to run, or none when no alternate is left. -/
def nextAlt (s : State) (step : Nat) : Option Nat :=
  match latestRec s step with
  | none => some 0
  | some r =>
    if r.outcome = 1 then some r.alt
    else if r.outcome = 3 ∨ alternates step ≤ r.alt then none
    else some (r.alt + 1)

/-- The attempt in progress: the latest record says that the step has started in this start. -/
def attempt (s : State) : Option StartRec :=
  (s.startLog.getLast?.bind readStart).filter fun r => r.step == s.startStep && r.outcome == 0 && r.start == s.startCount % 2 ^ 32

/-! ### Firmware (R431, R432) -/

/-- The byte key of a byte of a firmware image slot, A 0 and B 1 (R427, R431). -/
def slotKey (slot off : Nat) : Nat := 2 ^ 58 + slot * 2 ^ 40 + off

/-- The header of the image of a slot. -/
def imageHeader (s : State) (slot : Nat) : List Byte := s.load (slotKey slot 0) 1936

/-- Whether the image of a slot runs (R431, R432): its magic and security version, its digest, and its two signatures. -/
def imageRuns (s : State) (slot : Nat) : Bool :=
  let hdr := imageHeader s slot
  let signed := hdr.take 60
  let sig := fun (off n : Nat) => (hdr.drop off).take n
  decide (fieldAt hdr 0 4 = 0x57464451 ∧ s.minSvn ≤ fieldAt hdr 4 4) &&
    sig 12 48 == sha384 (s.load (slotKey slot 1936) (fieldAt hdr 8 4)) &&
    ecdsaVerifies Config.vendorKey signed (beNat (sig 60 52)) (beNat (sig 112 52)) &&
    lmsVerifies ((List.range 16).map Config.lmsIdentifier) ((List.range 32).map Config.lmsRootByte) signed (sig 164 1772)

/-- The image of a slot runs: its digest is kept for attestation, and the fused minimum rises to its SVN (R432, R433). -/
def runImage (slot : Nat) (s : State) : State :=
  let hdr := imageHeader s slot
  { s with images := s.images ++ [(hdr.drop 12).take 48], minSvn := max s.minSvn (fieldAt hdr 4 4) }

/-! ### Spares (R426) -/

/-- Puts a spare in the place of a failing part: a core of a cluster, a row of a vault, a pseudo-channel of a stack; none where no spare is
left. -/
def mapSpare (kind unit item : Nat) (m : SpareMap) : Option SpareMap :=
  match kind with
  | 1 => if (mget? m.cores unit).isSome then none else some { m with cores := mput m.cores unit item }
  | 2 => if 32 ≤ (mget [] m.rows unit).length then none else some { m with rows := mput m.rows unit (mget [] m.rows unit ++ [item]) }
  | 3 => if 2 ≤ (mget [] m.chans unit).length then none else some { m with chans := mput m.chans unit (mget [] m.chans unit ++ [item]) }
  | _ => some m

/-- Whether a step maps spares of a kind: step 2 those that fuses name, steps 3, 4 and 5 those of the parts that they find failing. -/
def stepMaps (step kind : Nat) : Bool := step == 2 || (step == 3 && kind == 2) || (step == 4 && kind == 3) || (step == 5 && kind == 1)

/-- The spare map after an attempt, whose failing parts the selection's packet lists: kind, unit and item, up to eight. -/
def stepSpares (step : Nat) (s : State) : Option SpareMap :=
  (List.range 8).foldl (fun m i =>
    let f := fun (off n : Nat) => pktField s.sel.pkt (8 * i + off) n
    if stepMaps step (f 0 1) then m.bind (mapSpare (f 0 1) (f 2 2) (f 4 4)) else m) (some s.spares)

/-! ### Start steps (R427) -/

/-- Whether an attempt passes: step 1 as R432 says, step 7 once a beacon has come, and the others as the selection says, with a spare for each
failing part. -/
def stepPasses (step alt : Nat) (s : State) : Bool :=
  if step = 1 then imageRuns s alt else s.sel.word == 1 && (step != 7 || !s.beacons.isEmpty) && (stepSpares step s).isSome

/-- The ready report (R427), whose bytes and endpoint the spec leaves open (log entry 51). -/
def readyReport (s : State) : State :=
  sendOut Config.readyEndpoint 0 ((List.range 16).flatMap fun i => leBytes 4 (Config.freeWord (s.fresh + i)).toNat) { s with fresh := s.fresh + 16 }

/-- What a passed step leaves. -/
def stepPassed (step alt : Nat) (s : State) : State :=
  let s := if step = 1 then runImage alt s else { s with spares := (stepSpares step s).getD s.spares }
  let s := if 0x600 ≤ step then s.onPort (step - 0x600) fun x => { x with up := true, lastRx := s.ac, lastTx := s.ac, neighbour := s.sel.sub } else s
  let s := if step = 7 then takeBeacon s else s
  if step = 8 then readyReport { s with power := .on, startStep := 9 } else { s with startStep := stepAfter step }

/-- A start begins: its number, no port trained and no spare mapped; at the first start the identity key is generated (R433). -/
def beginStart (s : State) : State :=
  { s with
    power := .starting, startCount := s.startCount + 1, startStep := 1, ports := [], images := [], spares := {}
    idKey := some (s.idKey.getD (Config.identitySecret % (n384 - 1) + 1)) }

/-- One part of the start: a start begins; a step's attempt begins, is skipped, or stops the start; an attempt ends, and its record gets its
outcome. A failed attempt ends the start, and the next start takes the next alternate (R429). -/
def packageStart (s : State) : State :=
  if s.power = .off ∨ (s.power = .starting ∧ s.startStep = 0) then beginStart s
  else if s.power ≠ .starting then s
  else
    let step := s.startStep
    let rec_ := fun (outcome alt : Nat) => startBytes { step := step, outcome := outcome, alt := alt, start := s.startCount % 2 ^ 32, detail := 0 }
    match attempt s with
    | some r =>
      let ok := stepPasses step r.alt s
      let s := logOutcome { r with outcome := if ok then 1 else 2, detail := w32 s.sel.unit } s
      let s := if step = 2 then { s with fusesRead := s.sel.word == 1 } else s
      if ok then stepPassed step r.alt s else { s with startStep := 0 }
    | none =>
      match nextAlt s step with
      | some alt => logStart (rec_ 0 alt) s
      | none =>
        if skippable step then { logStart (rec_ 3 (((latestRec s step).map (·.alt)).getD 0)) s with startStep := stepAfter step }
        else { s with power := .failed, failRec := latestRec s step, lastFail := 0, ports := [], beacons := [] }

/-! ### Failure and power (R429, R430) -/

/-- The 64 bytes of the start-failure packet (R430): PKG is 0xFFFF when step 2 could not read the fuses. -/
def failPacket (s : State) (r : StartRec) : List Byte :=
  padTo 64 (leBytes 2 (if r.step = 2 ∧ !s.fusesRead then 0xFFFF else Config.packageIndex) ++ leBytes 2 r.step ++ leBytes 1 r.alt ++ leBytes 3 0 ++
    leBytes 4 s.startCount ++ leBytes 4 r.detail.toNat)

/-- START_FAILURE_REPORT: port 0 is trained, whatever the start has recorded of it, or else port 18, as the selection's bits say, and the packet
goes out once every 2^30 ac. -/
def failureReport (s : State) : State :=
  match s.power, s.failRec with
  | .failed, some r =>
    if s.lastFail ≠ 0 ∧ s.ac < s.lastFail - 1 + 2 ^ 30 then s
    else
      let up := fun (p : Nat) (s : State) => s.onPort p fun x => { x with up := true, lastRx := s.ac, lastTx := s.ac }
      let s := if (s.port 0).up ∨ (s.port 18).up then s
        else if bitAt s.sel.word 0 then up 0 s else if bitAt s.sel.word 1 then up 18 s else s
      if (s.port 0).up ∨ (s.port 18).up then sendOut 0xFFFF 0 (failPacket s r) { s with lastFail := s.ac + 1 } else s
  | _, _ => s

/-- POWER_LOSS (R429): what flash, fuses and memory outside the package hold stays. A record that a start is writing may be torn (R428). -/
def powerLoss (s : State) : State :=
  { State.reset with
    power := .off
    mem := s.mem.filter fun c => decide (2 ^ 57 ≤ c.1)
    startLog :=
      if s.sel.word = 1 ∧ s.power = .starting then
        (if (attempt s).isSome then s.startLog.dropLast else s.startLog.drop (s.startLog.length - 65535)) ++ [tornBytes s.sel.pkt]
      else s.startLog
    startCount := s.startCount, minSvn := s.minSvn, fusesRead := s.fusesRead, idKey := s.idKey, out := s.out, agenda := s.agenda, sel := s.sel
    fresh := s.fresh, nextTag := s.nextTag, nextAge := s.nextAge }

/-! ### Meanings -/

/-- REMOTE_PACKAGE_LOST (R245): the selection names the package. -/
def execRemotePackageLost (s : State) : Out := .next (losePackage s.sel.unit s)
/-- LINK_SILENCE_LOSS (R387): the selection names the port. -/
def execLinkSilenceLoss (s : State) : Out := .next (linkSilence s.sel.unit s)
/-- LINK_REPLAY_LOSS (R387): the selection names the port. -/
def execLinkReplayLoss (s : State) : Out := .next (linkReplay s.sel.unit s)
/-- FLIT_REPLAY (R424): the selection names the port, and value 1 says that the replay failed. -/
def execFlitReplay (s : State) : Out := .next (flitReplay s.sel.unit (s.sel.word == 1) s)
/-- IDLE_FLIT (R387): the selection names the port, and 1 the neighbour's end. -/
def execIdleFlit (s : State) : Out := .next (idleFlit s.sel.unit (s.sel.sub == 1) s)
/-- FABRIC_LANE_SWAP (R426): the selection names the port. -/
def execFabricLaneSwap (s : State) : Out := .next (laneSwap s.sel.unit s)
/-- TIME_BEACON (R386): the selection gives the root's time. -/
def execTimeBeacon (s : State) : Out := .next (sendBeacon s.sel.word s)
/-- TIME_BEACON_RECEIVE (R386). -/
def execTimeBeaconReceive (s : State) : Out := .next (receiveBeacon s)
/-- VAULT_SCRUB (R424): the selection names the core and the byte, and what the scrub finds there. -/
def execVaultScrub (s : State) : Out := .next (scrub 8 (vaultKey s.sel.unit s.sel.sub) s.sel.word s)
/-- HBM_SCRUB (R424): the selection names the stack and the byte, and what the scrub finds there. -/
def execHbmScrub (s : State) : Out := .next (scrub 24 (hbmKey s.sel.unit s.sel.sub) s.sel.word s)
/-- PACKAGE_START (R427, R429): the selection says how an attempt ends: value 1 for a pass, detail, for a port its neighbour, and the failing
parts. -/
def execPackageStart (s : State) : Out := .next (packageStart s)
/-- START_FAILURE_REPORT (R430): the selection says which ports train. -/
def execStartFailureReport (s : State) : Out := .next (failureReport s)
/-- POWER_LOSS (R429): value 1 says that the record being written is torn. -/
def execPowerLoss (s : State) : Out := .next (powerLoss s)

end Sys2Proof.Machine
end

