-- ==== Sys2Proof/Machine/Tasks.lean ====
section
/-!
DEFINITION. Tasks (R305 to R309): TASK, the rounds of a die's task scheduler, renaming, launch, copy-back and completion.
-/

namespace Sys2Proof.Machine

/-! ### Descriptors (R305) -/

/-- LANES of a descriptor. -/
def taskLanes (b : List Byte) : Nat := fieldAt b 24 2

/-- The used read and write region entries of a descriptor. -/
def taskReads (b : List Byte) : List (Nat × Nat × Nat × Bool) := regionEntries b 64 (fieldAt b 26 1)
def taskWrites (b : List Byte) : List (Nat × Nat × Nat × Bool) := regionEntries b 128 (fieldAt b 27 1)

/-- Whether a team of these lanes fits one scheduler under a grid (R306). -/
def taskFits (s : State) (g lanes : Nat) : Bool :=
  let l := (s.grid g).launch
  decide (teamCost (newTeam l 0 0 lanes l.firstRole.regs 0 0) ≤ 32768)

/-- The checks of R305 and R306 on a descriptor, but for CWORD. -/
def taskOk (s : State) (g : Nat) (b : List Byte) : Bool :=
  decide (fieldAt b 0 8 % 4 = 0 ∧ 1 ≤ taskLanes b ∧ taskLanes b ≤ 1024 ∧ fieldAt b 26 1 ≤ 4 ∧ 1 ≤ fieldAt b 27 1 ∧ fieldAt b 27 1 ≤ 4 ∧
      fieldAt b 28 1 ≤ 5) &&
    ((taskReads b).all fun e => e.2.1 != 0 && e.2.2.1 == 0 && !e.2.2.2) && ((taskWrites b).all fun e => e.2.1 != 0 && e.2.2.1 == 0) &&
    taskFits s g (taskLanes b)

/-- Whether the completion word of a descriptor is misplaced. -/
def taskCwordBad (b : List Byte) : Bool := bitAt (fieldAt b 29 1) 0 && fieldAt b 32 8 % 4 != 0

/-- A used region as one of a footprint. -/
def taskRegion (e : Nat × Nat × Nat × Bool) : Region := { space := 0, base := e.1 % 2 ^ 57, len := e.2.1, rn := e.2.2.2 }

/-! ### TASK (R306) -/

/-- The entry that TASK pushes. -/
def taskEntry (s : State) (va : Nat) : BitVec 128 :=
  BitVec.ofNat 128 (va + s.myCtx * 2 ^ 64 + s.myBlock.grid % 65536 * 2 ^ 80 + s.myCore * 2 ^ 96)

/-- TASK's entry reaches its queue, with D to land when the queue accepts it (R306, R312). -/
def pushTask (h : Hd) (d a b : RegF) (q va : Nat) (s : State) : State :=
  if pendCount s.team + 1 > 16 then stallOn 0x06 s
  else
    let pc := s.team.pc
    let code := regCode s.team d.toNat
    let e := taskEntry s va
    let (tag, s) := ((begin 1 s).onTeam (applyHints h a 2 b 1 [])).takeTag
    let s := addPend { tag := tag, pc := pc, regs := [code], missing := 1, due := s.ac } s
    finish h 4 (reachQueue q (requestOf s 1 tag false (.push [e] (some code))) s)

/-- TASK (R306): a release at CORE towards its job (R274), which needs no cache action beyond those of the submission. -/
def doTask (h : Hd) (d a b : RegF) (s : State) : State :=
  withOps 4 false [srcPair a, src b, dst d] s fun s =>
    let q := (rdu s b).toNat
    if !isScalar d ∨ !isScalar a ∨ isVec b ∨ 4096 ≤ q then trapI cILLOPND 4 (begin 1 s)
    else
      let va := (rdPair s a (lowestLane s.team.active)).toNat % 2 ^ 57
      if va % 64 ≠ 0 then trapAll { cause := cALIGN, faddr := BitVec.ofNat 64 va } 4 (begin 1 s)
      else if orderWaits s true then stallOn 0x02 s
      else match readCard va 192 s with
        | .fault f => trapAll f 4 (begin 1 s)
        | .wait vas => waitWalks vas s
        | .cut => stallOn 0x12 s
        | .ok card s' =>
          if !taskOk s s.myBlock.grid card then trapI cILLOPND 4 (begin 1 s')
          else if taskCwordBad card then trapAll (opndFault cALIGN (fieldAt card 32 8)) 4 (begin 1 s')
          else if (s.queue q).kind ≠ 2 ∨ (s.queue q).owner ≠ s.myCtx then trapAll { cause := cPROT } 4 (begin 1 s')
          else
            let rs := (taskReads card).map taskRegion
            let ws := (taskWrites card).map taskRegion
            pushTask h d a b q va (submitCache s.myCore s.myCtx rs ws s')

/-! ### Renaming (R308, R309) -/

/-- The pool descriptor at an address: base, bytes of a buffer, number of buffers, when it is well formed and readable. -/
def poolDesc (s : State) (ctx addr : Nat) : Option (Nat × Nat × Nat) :=
  (readVa s ctx addr 16).bind fun b =>
    let base := fieldAt b 0 8
    let bytes := fieldAt b 8 4
    let n := fieldAt b 12 4
    if base % 128 = 0 ∧ bytes % 128 = 0 ∧ 1 ≤ n ∧ n ≤ 64 then some (base % 2 ^ 57, bytes, n) else none

/-- The pool that a task names on its die, tracked from its first naming on; a ninth is not. -/
def poolOf (d g ctx addr : Nat) (s : State) : Option Pool × State :=
  if addr = 0 then (none, s)
  else match (s.die d).pools.find? fun p => p.addr == addr with
    | some p => (some p, s)
    | none =>
      if 8 ≤ (s.die d).pools.length then (none, s)
      else match (if engCut s (256 * d) ctx {} addr then none else poolDesc s ctx addr) with
        | none => (none, s)
        | some (base, bytes, n) =>
          let p : Pool := { addr := addr, grid := g, base := base, bufbytes := bytes, nbuf := n }
          (some p, s.onDie d fun x => { x with pools := x.pools ++ [p] })

/-- Whether a buffer of a pool is in use: by a renaming that is not copied back, or by a reader. -/
def bufUsed (s : State) (d addr i : Nat) : Bool :=
  (s.die d).jobs.any fun j => j.renames.any (fun r => r.pool == addr && r.idx == i) || j.ymaps.contains (addr, i)

/-- Earlier entries of the context. -/
def earlier (s : State) (d : Nat) (j : Job) : List Job := (s.die d).jobs.filter fun f => decide (f.key < j.key) && f.ctx == j.ctx

/-- Renames write region `w` of an entry when it may be: the region that the entry writes, and the renaming. -/
def renameWrite (s : State) (d : Nat) (j : Job) (pool : Option Pool) (taken : List Nat) (w : Region) : Option Rename :=
  let clash := (earlier s d j).any fun f => anyOverlap [w] f.readsAll || anyOverlap [w] f.blocking
  if !w.rn ∨ !clash then none
  else pool.bind fun p =>
    if p.bufbytes < w.len then none
    else ((List.range p.nbuf).find? fun i => !bufUsed s d p.addr i && !taken.contains i).map fun i =>
      { pool := p.addr, idx := i, orig := w.base, buf := p.base + i * p.bufbytes, len := w.len }

/-- Renames the write regions of an entry in order. -/
def renameWrites (s : State) (d : Nat) (j : Job) (pool : Option Pool) : List Region → List Nat → List (Region × Option Rename)
  | [], _ => []
  | w :: ws, taken =>
    match renameWrite s d j pool taken w with
    | some r => ({ w with base := r.buf }, some r) :: renameWrites s d j pool ws (r.idx :: taken)
    | none => (w, none) :: renameWrites s d j pool ws taken

/-- The renaming under which an entry reads a region: that of the latest earlier writer of it, when it names exactly this region. -/
def readRenamed (s : State) (d : Nat) (j : Job) (r : Region) : Option Rename :=
  (((earlier s d j).filter fun f => anyOverlap [r] f.blocking).getLast?).bind fun f => f.renames.find? fun x => x.orig == r.base && x.len == r.len

/-- The data of a task entry from its descriptor, with its renamings (R305, R309). -/
def taskFill (d : Nat) (j : Job) (card : List Byte) (s : State) : State :=
  let (pool, s) := poolOf d j.grid j.ctx (fieldAt card 48 8 % 2 ^ 57) s
  let rs := ((taskReads card).map taskRegion).map fun r => (r, readRenamed s d j r)
  let ws := renameWrites s d j pool ((taskWrites card).map taskRegion) []
  let reads := rs.map fun p => match p.2 with | some x => { p.1 with base := x.buf } | none => p.1
  setJob d { j with
    ready := true, fault := none, entry := BitVec.ofNat 57 (fieldAt card 0 8), args := (List.range 4).map fun i => w32 (fieldAt card (8 + 4 * i) 4)
    lanes := taskLanes card, reads := reads, origReads := rs.filterMap fun p => p.2.map fun _ => p.1, writes := ws.map (·.1), rbase := reads.map (·.base), wbase := ws.map fun p => p.1.base
    renames := ws.filterMap (·.2), ymaps := rs.filterMap fun p => p.2.map fun x => (x.pool, x.idx)
    cscope := fieldAt card 28 1, cw := bitAt (fieldAt card 29 1) 0, cword := fieldAt card 32 8 % 2 ^ 57, cval := w32 (fieldAt card 40 4) } s

/-- The scheduler reads the descriptor of an entry; a failure faults the task in its submitting team (R307). -/
def taskRead (d key : Nat) (s : State) : State :=
  match jobAt s d key with
  | none => s
  | some j =>
    if j.kind ≠ .task ∨ j.ready ∨ j.fault.isSome then s
    else
      if (List.range 3).any fun i => engCut s (256 * d) j.ctx {} ((j.desc + 64 * i) % 2 ^ 57) then s
      else
      let pieces := (List.range 3).map fun i => ((j.desc + 64 * i) % 2 ^ 57, engXl s j.ctx .load ((j.desc + 64 * i) % 2 ^ 57))
      match pieces.findSome? fun p => match p.2 with | .inr e => some (p.1, e) | .inl _ => none with
      | some (a, e) => faultJob d j e a s
      | none =>
        let card := pieces.flatMap fun p => match p.2 with | .inl pa => readPa s pa 64 | .inr _ => []
        let bad := pieces.any fun p => match p.2 with
          | .inl pa => ((paKey s pa).map fun k => badAt s k 64).getD false
          | .inr _ => false
        if bad then faultJob d j efECC j.desc s
        else if !taskOk s j.grid card ∨ taskCwordBad card then faultJob d j efDESC j.desc s
        else taskFill d j card (engCarried (256 * d) j.ctx {} j.desc s)

/-! ### The task scheduler (R307) -/

/-- The grid of a queue entry: the one that holds the slot and has not ended. -/
def slotGrid (s : State) (e : QEntry) : Nat :=
  ((s.grids.find? fun p => p.1 % 65536 == entryGrid e && !p.2.ended).map (·.1)).getD (entryGrid e)

/-- Takes the oldest entry of a task queue into the die's table. The entry of an aborted block is discarded. -/
def takeTask (d q : Nat) (s : State) : State :=
  match (s.queue q).entries with
  | [] => s
  | e :: rest =>
    let uid := e.source.getD 0
    if (s.queue q).kind ≠ 2 ∨ !placeable s (entryCtx e) ∨ !tableRoom s d then s
    else
      let s := s.onQueue q fun x => { x with entries := rest }
      if (s.block (uid / 4)).aborted then s
      else
        let key := s.nextJob
        let j : Job := { key := 0, die := d, num := 0, kind := .task, ctx := entryCtx e, grid := slotGrid s e, blk := uid / 4, uid := uid
                         core := bitsOf e.data.toNat 111 96, pc := 0, reads := [], writes := [], ready := false
                         desc := bitsOf e.data.toNat 63 0 % 2 ^ 57 }
        taskRead d key (enterJob d j s)

/-- One round: an entry of each non-empty task queue of the die's stacks, in ascending number. -/
def taskRound (d : Nat) (s : State) : State :=
  if 8 ≤ d then s else (((List.range 512).map fun i => 512 * d + i).filter fun q => !(s.queue q).entries.isEmpty).foldl (fun s q => takeTask d q s) s

/-- The scalars that a task's team starts with. -/
def taskScalars (j : Job) : Vector Word 24 :=
  let put := fun (v : Vector Word 24) (p : Nat × Word) => vset v p.1 p.2
  let bases := fun (at_ : Nat) (bs : List Nat) => bs.zipIdx.flatMap fun p => [(at_ + 2 * p.2, w32 p.1), (at_ + 2 * p.2 + 1, w32 (p.1 / 2 ^ 32))]
  (((j.args.zipIdx.map fun p => (p.2, p.1)) ++ bases 4 j.wbase ++ bases 12 j.rbase).foldl put (Vector.replicate 24 0))

/-- A task that may start is launched as a block of one team (R307); a task whose fault was resumed reads its descriptor again. -/
def taskLaunch (d key : Nat) (s : State) : State :=
  match jobAt s d key with
  | none => s
  | some j =>
    if !j.ready then taskRead d key s
    else if !taskReady s d j then s
    else match taskSeat s d j with
      | none => s
      | some c =>
        let l := (s.grid j.grid).launch
        let t := { newTeam l 0 0 j.lanes l.firstRole.regs l.firstRole.fmt j.entry with s := taskScalars j }
        let blk := s.nextBlock
        match placeSmall c { kind := .task key, grid := j.grid } t s with
        | none => s
        | some s => setJob d { j with started := true, blockKey := some blk } s

/-! ### Copy-back and completion (R307, R309) -/

/-- The first renaming of an entry whose copy-back may start: its block has ended and no earlier entry overlaps its region. -/
def readyRename (s : State) (d : Nat) (j : Job) : Option Rename :=
  if !j.blockDone ∨ j.fault.isSome then none
  else j.renames.find? fun r => !((earlier s d j).any fun f => anyOverlap [r.origRegion] f.readsAll || anyOverlap [r.origRegion] f.blocking)

/-- One transfer of a copy-back, from the position that the entry has reached in the buffer: a refused write is tried again as R298 says,
and a fault keeps what is copied (R313). With the last one the mapping ends. -/
def copyTransfer (d : Nat) (j : Job) (r : Rename) (s : State) : State :=
  let sa := (r.buf + j.pos) % 2 ^ 57
  let da := (r.orig + j.pos) % 2 ^ 57
  let left := r.len - j.pos
  let k := min left (min (128 - sa % 128) (128 - da % 128))
  if engCut s j.core j.ctx {} sa ∨ engCut s j.core j.ctx {} da then s
  else match engXl s j.ctx .load sa with
  | .inr e => faultJob d j e sa s
  | .inl pa =>
    if ((paKey s pa).map fun x => badAt s x k).getD false then faultJob d j efECC sa s
    else match engWrite d j false {} da (readPa s pa k) (k == left || (da + k) % 128 == 0) s with
      | .fault e => faultJob d j e da s
      | .refused s => refuseJob d j da s
      | .ok s =>
        let s := engCarried j.core j.ctx {} da (engCarried j.core j.ctx {} sa s)
        let j := { (jobAt s d j.key).getD j with retryAt := 0, retries := 0 }
        let others := j.renames.filter (· != r)
        easeJob d (if k = left then { j with renames := others, pos := 0 } else { j with renames := r :: others, pos := j.pos + k }) s

/-- RENAME_COPYBACK: the next transfer of the buffer to its region. -/
def copyBack (d key : Nat) (s : State) : State :=
  match jobAt s d key with
  | none => s
  | some j =>
    if s.ac < j.retryAt then s
    else match readyRename s d j with
      | none => s
      | some r => copyTransfer d (if j.retryAt = 0 then j else { j with retries := j.retries + 1, retryAt := 0 }) r s

/-- TASK_COMPLETE: the block has ended and every copy-back is made; the completion word is written and the entry leaves. The task lies on its
submitter's core (R273): what that core's cache has fetched of its write regions meanwhile is older, and goes (R276, R277). -/
def taskComplete (d key : Nat) (s : State) : State :=
  match jobAt s d key with
  | none => s
  | some j =>
    if j.kind ≠ .task ∨ !j.blockDone ∨ !j.renames.isEmpty ∨ j.fault.isSome ∨ s.ac < j.retryAt ∨ !linesSet s j then s
    else completeJob d (if j.retryAt = 0 then j else { j with retries := j.retries + 1, retryAt := 0 }) (dropWrites j.core j.ctx j.writes s)

/-! ### Meanings -/

/-- TASK (R306). -/
def execTask (h : Hd) (d a b : RegF) (s : State) : Out := .next (doTask h d a b s)
/-- TASK_SCHEDULER_ROUND (R307): the selection names the die. -/
def execTaskSchedulerRound (s : State) : Out := .next (taskRound s.sel.unit s)
/-- TASK_LAUNCH (R307): the selection names the die and the entry. -/
def execTaskLaunch (s : State) : Out := .next (taskLaunch s.sel.unit s.sel.sub s)
/-- TASK_COMPLETE (R307): the selection names the die and the entry. -/
def execTaskComplete (s : State) : Out := .next (taskComplete s.sel.unit s.sel.sub s)
/-- RENAME_COPYBACK (R309): the selection names the die and the entry. -/
def execRenameCopyback (s : State) : Out := .next (copyBack s.sel.unit s.sel.sub s)

end Sys2Proof.Machine
end

