-- ==== Sys2Proof/Machine/Dispatch.lean ====
section
/-!
DEFINITION. One arm for each constructor of Instr: a direct call of its meaning.
-/

namespace Sys2Proof.Machine

/-- The effect of one instruction or step of the opcode table on the machine. -/
def exec (i : Instr) (s : State) : Host.Outcome State Fault Refusal :=
  match i with
  | .iadd h d a b => Sys2Proof.Machine.execIadd h d a b s
  | .isub h d a b => Sys2Proof.Machine.execIsub h d a b s
  | .imul h d a b => Sys2Proof.Machine.execImul h d a b s
  | .imulh h d a b => Sys2Proof.Machine.execImulh h d a b s
  | .imulhu h d a b => Sys2Proof.Machine.execImulhu h d a b s
  | .imin h d a b => Sys2Proof.Machine.execImin h d a b s
  | .imax h d a b => Sys2Proof.Machine.execImax h d a b s
  | .andR h d a b => Sys2Proof.Machine.execAndR h d a b s
  | .orR h d a b => Sys2Proof.Machine.execOrR h d a b s
  | .xorR h d a b => Sys2Proof.Machine.execXorR h d a b s
  | .shl h d a b => Sys2Proof.Machine.execShl h d a b s
  | .shr h d a b => Sys2Proof.Machine.execShr h d a b s
  | .shra h d a b => Sys2Proof.Machine.execShra h d a b s
  | .ilt h d a b => Sys2Proof.Machine.execIlt h d a b s
  | .iltu h d a b => Sys2Proof.Machine.execIltu h d a b s
  | .ieq h d a b => Sys2Proof.Machine.execIeq h d a b s
  | .fadd h d a b => Sys2Proof.Machine.execFadd h d a b s
  | .fsub h d a b => Sys2Proof.Machine.execFsub h d a b s
  | .fmul h d a b => Sys2Proof.Machine.execFmul h d a b s
  | .ffma h d a b => Sys2Proof.Machine.execFfma h d a b s
  | .fmin h d a b => Sys2Proof.Machine.execFmin h d a b s
  | .fmax h d a b => Sys2Proof.Machine.execFmax h d a b s
  | .flt h d a b => Sys2Proof.Machine.execFlt h d a b s
  | .fle h d a b => Sys2Proof.Machine.execFle h d a b s
  | .feq h d a b => Sys2Proof.Machine.execFeq h d a b s
  | .sel h d a b => Sys2Proof.Machine.execSel h d a b s
  | .xunMov h d a => Sys2Proof.Machine.execXunMov h d a s
  | .xunNot h d a => Sys2Proof.Machine.execXunNot h d a s
  | .xunNeg h d a => Sys2Proof.Machine.execXunNeg h d a s
  | .xunAbs h d a => Sys2Proof.Machine.execXunAbs h d a s
  | .xunClz h d a => Sys2Proof.Machine.execXunClz h d a s
  | .xunPopc h d a => Sys2Proof.Machine.execXunPopc h d a s
  | .xunBrev h d a => Sys2Proof.Machine.execXunBrev h d a s
  | .xunSxb h d a => Sys2Proof.Machine.execXunSxb h d a s
  | .xunSxh h d a => Sys2Proof.Machine.execXunSxh h d a s
  | .xunZxb h d a => Sys2Proof.Machine.execXunZxb h d a s
  | .xunZxh h d a => Sys2Proof.Machine.execXunZxh h d a s
  | .funFneg h d a => Sys2Proof.Machine.execFunFneg h d a s
  | .funFabs h d a => Sys2Proof.Machine.execFunFabs h d a s
  | .funFrne h d a => Sys2Proof.Machine.execFunFrne h d a s
  | .funFflr h d a => Sys2Proof.Machine.execFunFflr h d a s
  | .funFcel h d a => Sys2Proof.Machine.execFunFcel h d a s
  | .funFtrc h d a => Sys2Proof.Machine.execFunFtrc h d a s
  | .funItof h d a => Sys2Proof.Machine.execFunItof h d a s
  | .funUtof h d a => Sys2Proof.Machine.execFunUtof h d a s
  | .funFtoi h d a => Sys2Proof.Machine.execFunFtoi h d a s
  | .funFtou h d a => Sys2Proof.Machine.execFunFtou h d a s
  | .funFcls h d a => Sys2Proof.Machine.execFunFcls h d a s
  | .sfuRcp h d a => Sys2Proof.Machine.execSfuRcp h d a s
  | .sfuRsq h d a => Sys2Proof.Machine.execSfuRsq h d a s
  | .sfuSqrt h d a => Sys2Proof.Machine.execSfuSqrt h d a s
  | .sfuExp2 h d a => Sys2Proof.Machine.execSfuExp2 h d a s
  | .sfuLog2 h d a => Sys2Proof.Machine.execSfuLog2 h d a s
  | .sfuSinp h d a => Sys2Proof.Machine.execSfuSinp h d a s
  | .sfuCosp h d a => Sys2Proof.Machine.execSfuCosp h d a s
  | .sfuTanh h d a => Sys2Proof.Machine.execSfuTanh h d a s
  | .sfuSigm h d a => Sys2Proof.Machine.execSfuSigm h d a s
  | .sfuExp h d a => Sys2Proof.Machine.execSfuExp h d a s
  | .sfuLog h d a => Sys2Proof.Machine.execSfuLog h d a s
  | .cvnPkh h d a => Sys2Proof.Machine.execCvnPkh h d a s
  | .cvnPkb h d a => Sys2Proof.Machine.execCvnPkb h d a s
  | .cvnPk6 h d a => Sys2Proof.Machine.execCvnPk6 h d a s
  | .cvnUnph h d a => Sys2Proof.Machine.execCvnUnph h d a s
  | .cvnUnpb h d a => Sys2Proof.Machine.execCvnUnpb h d a s
  | .cvnUnp6 h d a => Sys2Proof.Machine.execCvnUnp6 h d a s
  | .cvnBscl h d a => Sys2Proof.Machine.execCvnBscl h d a s
  | .osms h d a => Sys2Proof.Machine.execOsms h d a s
  | .osmn h d a b => Sys2Proof.Machine.execOsmn h d a b s
  | .brx h a => Sys2Proof.Machine.execBrx h a s
  | .brxCall h a => Sys2Proof.Machine.execBrxCall h a s
  | .sync h => Sys2Proof.Machine.execSync h s
  | .ret h => Sys2Proof.Machine.execRet h s
  | .exit h => Sys2Proof.Machine.execExit h s
  | .nop h => Sys2Proof.Machine.execNop h s
  | .voteAny h d a => Sys2Proof.Machine.execVoteAny h d a s
  | .voteAll h d a => Sys2Proof.Machine.execVoteAll h d a s
  | .voteBallot h d a => Sys2Proof.Machine.execVoteBallot h d a s
  | .voteCnt h d a => Sys2Proof.Machine.execVoteCnt h d a s
  | .voteUni h d a => Sys2Proof.Machine.execVoteUni h d a s
  | .voteFirst h d a => Sys2Proof.Machine.execVoteFirst h d a s
  | .shfl h d a b => Sys2Proof.Machine.execShfl h d a b s
  | .shfx h d a b => Sys2Proof.Machine.execShfx h d a b s
  | .scanAdd h d a e => Sys2Proof.Machine.execScanAdd h d a e s
  | .scanFadd h d a e => Sys2Proof.Machine.execScanFadd h d a e s
  | .scanMin h d a e => Sys2Proof.Machine.execScanMin h d a e s
  | .scanMax h d a e => Sys2Proof.Machine.execScanMax h d a e s
  | .scanAnd h d a e => Sys2Proof.Machine.execScanAnd h d a e s
  | .scanOr h d a e => Sys2Proof.Machine.execScanOr h d a e s
  | .scanXor h d a e => Sys2Proof.Machine.execScanXor h d a e s
  | .redAdd h d a => Sys2Proof.Machine.execRedAdd h d a s
  | .redFadd h d a => Sys2Proof.Machine.execRedFadd h d a s
  | .redMin h d a => Sys2Proof.Machine.execRedMin h d a s
  | .redMax h d a => Sys2Proof.Machine.execRedMax h d a s
  | .redMaxi h d a => Sys2Proof.Machine.execRedMaxi h d a s
  | .redMini h d a => Sys2Proof.Machine.execRedMini h d a s
  | .redAnd h d a => Sys2Proof.Machine.execRedAnd h d a s
  | .redOr h d a => Sys2Proof.Machine.execRedOr h d a s
  | .redXor h d a => Sys2Proof.Machine.execRedXor h d a s
  | .topk h d a b => Sys2Proof.Machine.execTopk h d a b s
  | .regrp h d a b => Sys2Proof.Machine.execRegrp h d a b s
  | .drop h a => Sys2Proof.Machine.execDrop h a s
  | .fenceSc h c => Sys2Proof.Machine.execFenceSc h c s
  | .fenceAcq h c => Sys2Proof.Machine.execFenceAcq h c s
  | .fenceRel h c => Sys2Proof.Machine.execFenceRel h c s
  | .fenceAr h c => Sys2Proof.Machine.execFenceAr h c s
  | .txb h d a b => Sys2Proof.Machine.execTxb h d a b s
  | .expect h a b => Sys2Proof.Machine.execExpect h a b s
  | .spillSpill h d a => Sys2Proof.Machine.execSpillSpill h d a s
  | .spillFill h d a => Sys2Proof.Machine.execSpillFill h d a s
  | .barArrive h d a => Sys2Proof.Machine.execBarArrive h d a s
  | .barWait h a => Sys2Proof.Machine.execBarWait h a s
  | .barSync h d a => Sys2Proof.Machine.execBarSync h d a s
  | .wbar h a => Sys2Proof.Machine.execWbar h a s
  | .batonTake h => Sys2Proof.Machine.execBatonTake h s
  | .batonGive h => Sys2Proof.Machine.execBatonGive h s
  | .batonPass h a => Sys2Proof.Machine.execBatonPass h a s
  | .mfence h d => Sys2Proof.Machine.execMfence h d s
  | .mwait h a => Sys2Proof.Machine.execMwait h a s
  | .mdrainVf32 h d a z k => Sys2Proof.Machine.execMdrainVf32 h d a z k s
  | .mdrainVbf16 h d a z k => Sys2Proof.Machine.execMdrainVbf16 h d a z k s
  | .mdrainReg h d a c k => Sys2Proof.Machine.execMdrainReg h d a c k s
  | .mdrainPort h d a z k => Sys2Proof.Machine.execMdrainPort h d a z k s
  | .qopPush h d a n => Sys2Proof.Machine.execQopPush h d a n s
  | .qopPop h d a n => Sys2Proof.Machine.execQopPop h d a n s
  | .qopCount h d a _ => Sys2Proof.Machine.execQopCount h d a s
  | .tpioLdk h d a k => Sys2Proof.Machine.execTpioLdk h d a k s
  | .tpioLda h a k => Sys2Proof.Machine.execTpioLda h a k s
  | .tpioLdb h a k => Sys2Proof.Machine.execTpioLdb h a k s
  | .tpioStp h d a f k => Sys2Proof.Machine.execTpioStp h d a f k s
  | .tpioStf h a k => Sys2Proof.Machine.execTpioStf h a k s
  | .tpioCost h d a k => Sys2Proof.Machine.execTpioCost h d a k s
  | .tpioSize h a k => Sys2Proof.Machine.execTpioSize h a k s
  | .job h d a b => Sys2Proof.Machine.execJob h d a b s
  | .task h d a b => Sys2Proof.Machine.execTask h d a b s
  | .cwaitTicket h a => Sys2Proof.Machine.execCwaitTicket h a s
  | .cwaitLocal h a => Sys2Proof.Machine.execCwaitLocal h a s
  | .cwaitGlobal h a => Sys2Proof.Machine.execCwaitGlobal h a s
  | .rsnap h d a => Sys2Proof.Machine.execRsnap h d a s
  | .trap h c => Sys2Proof.Machine.execTrap h c s
  | .rett h => Sys2Proof.Machine.execRett h s
  | .rettSkip h => Sys2Proof.Machine.execRettSkip h s
  | .sysRd h d ix => Sys2Proof.Machine.execSysRd h d ix s
  | .sysWr h a ix => Sys2Proof.Machine.execSysWr h a ix s
  | .mark h a c => Sys2Proof.Machine.execMark h a c s
  | .brk h c => Sys2Proof.Machine.execBrk h c s
  | .ptnT32 h => Sys2Proof.Machine.execPtnT32 h s
  | .ptnT16 h => Sys2Proof.Machine.execPtnT16 h s
  | .ptnT8 h => Sys2Proof.Machine.execPtnT8 h s
  | .ptnT4 h => Sys2Proof.Machine.execPtnT4 h s
  | .ptnT2 h => Sys2Proof.Machine.execPtnT2 h s
  | .ptnWhole h => Sys2Proof.Machine.execPtnWhole h s
  | .mctlLoad h d a => Sys2Proof.Machine.execMctlLoad h d a s
  | .mctlClear h a => Sys2Proof.Machine.execMctlClear h a s
  | .mctlQuery h d a => Sys2Proof.Machine.execMctlQuery h d a s
  | .movi h d l => Sys2Proof.Machine.execMovi h d l s
  | .iaddi h d a l => Sys2Proof.Machine.execIaddi h d a l s
  | .muli h d a l => Sys2Proof.Machine.execMuli h d a l s
  | .andi h d a l => Sys2Proof.Machine.execAndi h d a l s
  | .ori h d a l => Sys2Proof.Machine.execOri h d a l s
  | .xori h d a l => Sys2Proof.Machine.execXori h d a l s
  | .setfmt h l => Sys2Proof.Machine.execSetfmt h l s
  | .setfmtReg h a => Sys2Proof.Machine.execSetfmtReg h a s
  | .wbase h l => Sys2Proof.Machine.execWbase h l s
  | .wbaseReg h a => Sys2Proof.Machine.execWbaseReg h a s
  | .mcall h d a b l => Sys2Proof.Machine.execMcall h d a b l s
  | .bra h l => Sys2Proof.Machine.execBra h l s
  | .braNz h a l => Sys2Proof.Machine.execBraNz h a l s
  | .braZ h a l => Sys2Proof.Machine.execBraZ h a l s
  | .brd h a l => Sys2Proof.Machine.execBrd h a l s
  | .brdZ h a l => Sys2Proof.Machine.execBrdZ h a l s
  | .ssy h l => Sys2Proof.Machine.execSsy h l s
  | .call h l => Sys2Proof.Machine.execCall h l s
  | .group h d a n4 l => Sys2Proof.Machine.execGroup h d a n4 l s
  | .join h d a n4 l => Sys2Proof.Machine.execJoin h d a n4 l s
  | .spawn h d a n3 l => Sys2Proof.Machine.execSpawn h d a n3 l s
  | .ldg h d a b l => Sys2Proof.Machine.execLdg h d a b l s
  | .stg h d a b l => Sys2Proof.Machine.execStg h d a b l s
  | .ldv h d a b l => Sys2Proof.Machine.execLdv h d a b l s
  | .stv h d a b l => Sys2Proof.Machine.execStv h d a b l s
  | .atomAdd h d a xr l => Sys2Proof.Machine.execAtomAdd h d a xr l s
  | .atomFadd h d a xr l => Sys2Proof.Machine.execAtomFadd h d a xr l s
  | .atomMin h d a xr l => Sys2Proof.Machine.execAtomMin h d a xr l s
  | .atomMax h d a xr l => Sys2Proof.Machine.execAtomMax h d a xr l s
  | .atomUmin h d a xr l => Sys2Proof.Machine.execAtomUmin h d a xr l s
  | .atomUmax h d a xr l => Sys2Proof.Machine.execAtomUmax h d a xr l s
  | .atomAnd h d a xr l => Sys2Proof.Machine.execAtomAnd h d a xr l s
  | .atomOr h d a xr l => Sys2Proof.Machine.execAtomOr h d a xr l s
  | .atomXor h d a xr l => Sys2Proof.Machine.execAtomXor h d a xr l s
  | .atomExch h d a xr l => Sys2Proof.Machine.execAtomExch h d a xr l s
  | .atomCas h d a xr l => Sys2Proof.Machine.execAtomCas h d a xr l s
  | .atomIncb h d a xr l => Sys2Proof.Machine.execAtomIncb h d a xr l s
  | .atomSeal h d a xr l => Sys2Proof.Machine.execAtomSeal h d a xr l s
  | .atomSnap h d a xr l => Sys2Proof.Machine.execAtomSnap h d a xr l s
  | .waddrWait h d a xr l => Sys2Proof.Machine.execWaddrWait h d a xr l s
  | .waddrWake h d a xr l => Sys2Proof.Machine.execWaddrWake h d a xr l s
  | .waddrWakeall h d a xr l => Sys2Proof.Machine.execWaddrWakeall h d a xr l s
  | .sfill h _ a b l => Sys2Proof.Machine.execSfill h a b l s
  | .scopy h d a b l => Sys2Proof.Machine.execScopy h d a b l s
  | .mloop h _ a _ l => Sys2Proof.Machine.execMloop h a l s
  | .bal h d a b l => Sys2Proof.Machine.execBal h d a b l s
  | .cpost h d a b l => Sys2Proof.Machine.execCpost h d a b l s
  | .xpose h d a b l => Sys2Proof.Machine.execXpose h d a b l s
  | .reservedOpcode w => Sys2Proof.Machine.execReservedOpcode w s
  | .reservedSubOperation w => Sys2Proof.Machine.execReservedSubOperation w s
  | .exitRetire => Sys2Proof.Machine.execExitRetire s
  | .fenceDrainEnd => Sys2Proof.Machine.execFenceDrainEnd s
  | .expectClear => Sys2Proof.Machine.execExpectClear s
  | .wbarPhaseEnd => Sys2Proof.Machine.execWbarPhaseEnd s
  | .wbarBlockSave => Sys2Proof.Machine.execWbarBlockSave s
  | .wbarBlockRestore => Sys2Proof.Machine.execWbarBlockRestore s
  | .tstatWrite => Sys2Proof.Machine.execTstatWrite s
  | .mstatWrite => Sys2Proof.Machine.execMstatWrite s
  | .cecountWrite => Sys2Proof.Machine.execCecountWrite s
  | .ftmap => Sys2Proof.Machine.execFtmap s
  | .hostreq => Sys2Proof.Machine.execHostreq s
  | .jobctlResume => Sys2Proof.Machine.execJobctlResume s
  | .jobctlAbandon => Sys2Proof.Machine.execJobctlAbandon s
  | .ivhiInvalidatePage => Sys2Proof.Machine.execIvhiInvalidatePage s
  | .ivhiInvalidateAll => Sys2Proof.Machine.execIvhiInvalidateAll s
  | .mctlLoadCommit => Sys2Proof.Machine.execMctlLoadCommit s
  | .instructionFetch => Sys2Proof.Machine.execInstructionFetch s
  | .longResultLands => Sys2Proof.Machine.execLongResultLands s
  | .storeAccepted => Sys2Proof.Machine.execStoreAccepted s
  | .sfuEntryStart => Sys2Proof.Machine.execSfuEntryStart s
  | .teamPromoted => Sys2Proof.Machine.execTeamPromoted s
  | .trapEntry => Sys2Proof.Machine.execTrapEntry s
  | .blockPlacement => Sys2Proof.Machine.execBlockPlacement s
  | .blockStart => Sys2Proof.Machine.execBlockStart s
  | .blockEnd => Sys2Proof.Machine.execBlockEnd s
  | .gridEnd => Sys2Proof.Machine.execGridEnd s
  | .binLaunch => Sys2Proof.Machine.execBinLaunch s
  | .binTimerExpiry => Sys2Proof.Machine.execBinTimerExpiry s
  | .vatStart => Sys2Proof.Machine.execVatStart s
  | .vatComplete => Sys2Proof.Machine.execVatComplete s
  | .atomRequestEnqueue => Sys2Proof.Machine.execAtomRequestEnqueue s
  | .atomServiceApply => Sys2Proof.Machine.execAtomServiceApply s
  | .vaultPortApply => Sys2Proof.Machine.execVaultPortApply s
  | .waitCompareRecord => Sys2Proof.Machine.execWaitCompareRecord s
  | .watchWriteWake => Sys2Proof.Machine.execWatchWriteWake s
  | .watchTimeout => Sys2Proof.Machine.execWatchTimeout s
  | .spuriousWake => Sys2Proof.Machine.execSpuriousWake s
  | .wakeService => Sys2Proof.Machine.execWakeService s
  | .promotionWriteback => Sys2Proof.Machine.execPromotionWriteback s
  | .presenceSet => Sys2Proof.Machine.execPresenceSet s
  | .walkComplete => Sys2Proof.Machine.execWalkComplete s
  | .remotePackageLost => Sys2Proof.Machine.execRemotePackageLost s
  | .linkSilenceLoss => Sys2Proof.Machine.execLinkSilenceLoss s
  | .linkReplayLoss => Sys2Proof.Machine.execLinkReplayLoss s
  | .flitReplay => Sys2Proof.Machine.execFlitReplay s
  | .idleFlit => Sys2Proof.Machine.execIdleFlit s
  | .fabricLaneSwap => Sys2Proof.Machine.execFabricLaneSwap s
  | .timeBeacon => Sys2Proof.Machine.execTimeBeacon s
  | .timeBeaconReceive => Sys2Proof.Machine.execTimeBeaconReceive s
  | .jobStart => Sys2Proof.Machine.execJobStart s
  | .engineTransfer => Sys2Proof.Machine.execEngineTransfer s
  | .unsolicitedWriteRetry => Sys2Proof.Machine.execUnsolicitedWriteRetry s
  | .jobComplete => Sys2Proof.Machine.execJobComplete s
  | .engfault => Sys2Proof.Machine.execEngfault s
  | .fillStart => Sys2Proof.Machine.execFillStart s
  | .fillRowAppend => Sys2Proof.Machine.execFillRowAppend s
  | .fillComplete => Sys2Proof.Machine.execFillComplete s
  | .taskSchedulerRound => Sys2Proof.Machine.execTaskSchedulerRound s
  | .taskLaunch => Sys2Proof.Machine.execTaskLaunch s
  | .taskComplete => Sys2Proof.Machine.execTaskComplete s
  | .renameCopyback => Sys2Proof.Machine.execRenameCopyback s
  | .queuePopServe => Sys2Proof.Machine.execQueuePopServe s
  | .queuePushAccept => Sys2Proof.Machine.execQueuePushAccept s
  | .gatewayPush => Sys2Proof.Machine.execGatewayPush s
  | .operandRowDraw => Sys2Proof.Machine.execOperandRowDraw s
  | .mloopStep => Sys2Proof.Machine.execMloopStep s
  | .mdrainExecute => Sys2Proof.Machine.execMdrainExecute s
  | .mdrainPortHandoff => Sys2Proof.Machine.execMdrainPortHandoff s
  | .tpioExecute => Sys2Proof.Machine.execTpioExecute s
  | .balExecute => Sys2Proof.Machine.execBalExecute s
  | .batchComplete => Sys2Proof.Machine.execBatchComplete s
  | .sequencerAbandon => Sys2Proof.Machine.execSequencerAbandon s
  | .sampleTick => Sys2Proof.Machine.execSampleTick s
  | .chunkAgeClose => Sys2Proof.Machine.execChunkAgeClose s
  | .chunkRingWrite => Sys2Proof.Machine.execChunkRingWrite s
  | .preciseStop => Sys2Proof.Machine.execPreciseStop s
  | .hostCommandPush => Sys2Proof.Machine.execHostCommandPush s
  | .launch => Sys2Proof.Machine.execLaunch s
  | .copyHostToDevice => Sys2Proof.Machine.execCopyHostToDevice s
  | .copyDeviceToHost => Sys2Proof.Machine.execCopyDeviceToHost s
  | .copyDeviceToDevice => Sys2Proof.Machine.execCopyDeviceToDevice s
  | .mapContext => Sys2Proof.Machine.execMapContext s
  | .mapPool => Sys2Proof.Machine.execMapPool s
  | .mapQueue => Sys2Proof.Machine.execMapQueue s
  | .mapSplit => Sys2Proof.Machine.execMapSplit s
  | .mapGroups => Sys2Proof.Machine.execMapGroups s
  | .mapInval => Sys2Proof.Machine.execMapInval s
  | .mapAnswer => Sys2Proof.Machine.execMapAnswer s
  | .mapAdmit => Sys2Proof.Machine.execMapAdmit s
  | .snapshotStart => Sys2Proof.Machine.execSnapshotStart s
  | .snapshotStop => Sys2Proof.Machine.execSnapshotStop s
  | .replay => Sys2Proof.Machine.execReplay s
  | .signalPreempt => Sys2Proof.Machine.execSignalPreempt s
  | .signalResume => Sys2Proof.Machine.execSignalResume s
  | .signalKill => Sys2Proof.Machine.execSignalKill s
  | .signalContinue => Sys2Proof.Machine.execSignalContinue s
  | .attest => Sys2Proof.Machine.execAttest s
  | .illcmd => Sys2Proof.Machine.execIllcmd s
  | .collPostCollect => Sys2Proof.Machine.execCollPostCollect s
  | .collRequestGrant => Sys2Proof.Machine.execCollRequestGrant s
  | .collRequestAged => Sys2Proof.Machine.execCollRequestAged s
  | .collGrantReceive => Sys2Proof.Machine.execCollGrantReceive s
  | .collChunkRead => Sys2Proof.Machine.execCollChunkRead s
  | .collLocalComplete => Sys2Proof.Machine.execCollLocalComplete s
  | .collGlobalComplete => Sys2Proof.Machine.execCollGlobalComplete s
  | .collErrorNotice => Sys2Proof.Machine.execCollErrorNotice s
  | .collPartFault => Sys2Proof.Machine.execCollPartFault s
  | .packageStart => Sys2Proof.Machine.execPackageStart s
  | .startFailureReport => Sys2Proof.Machine.execStartFailureReport s
  | .vaultScrub => Sys2Proof.Machine.execVaultScrub s
  | .hbmScrub => Sys2Proof.Machine.execHbmScrub s
  | .powerLoss => Sys2Proof.Machine.execPowerLoss s
  | .collectiveDataTransfer => Sys2Proof.Machine.execCollectiveDataTransfer s

end Sys2Proof.Machine
end

