-- ==== Sys2Proof/Machine/Schedule.lean ====
section
/-!
DEFINITION. Which step comes next: the choice of each scheduler (R176, R177), the issue of a team (R53), the end of an ac, the steps chosen
from outside, and the order in which the model takes the steps that are due when nothing is chosen (log entry 1).
-/

namespace Sys2Proof.Machine

/-! ### Issue -/

/-- Whether a team is ready in this ac (R176). -/
def teamReady (s : State) (t : Team) : Bool :=
  t.present && t.park == .run && t.stall == 0 && decide (t.readyAt ≤ s.ac) && decide (t.rmove ≤ s.ac) && t.trapReq.isNone &&
    decide (mget 0 s.busy (t.tid / 16) ≤ s.ac) && !heldByStop s t.tid

/-- The oldest of a list of teams (R177). -/
def oldest : List Team → Option Team
  | [] => none
  | t :: ts => some (ts.foldl (fun a b => if b.age < a.age then b else a) t)

/-- Whether a team is promoted (R177). -/
def isPromoted (s : State) (t : Team) : Bool := t.promoted || decide (t.lastIssue + 4096 ≤ s.ac)

/-- The team that a scheduler chooses among its ready teams (R177). -/
def chooseOf (s : State) (sched : Nat) (ready : List Team) : Option Team :=
  match oldest (ready.filter (isPromoted s)) with
  | some t => some t
  | none =>
    match mget? s.issuer sched with
    | some a =>
      match ready.find? fun t => t.age == a with
      | some t => some t
      | none => oldest ready
    | none => oldest ready

/-- The choice of a scheduler. -/
def chosenBy (s : State) (sched : Nat) : Option Team :=
  chooseOf s sched (s.allTeams.filter fun t => t.tid / 16 == sched && teamReady s t)

/-- The team that issues next: the choice of the lowest scheduler with a ready team. Within an ac teams issue in the key order of R252, which
R198, R213, R290 and R318 ask for. -/
def nextIssue (s : State) : Option Nat :=
  match s.allTeams.filter (teamReady s) with
  | [] => none
  | t :: ts =>
    let sched := ts.foldl (fun a b => min a (b.tid / 16)) (t.tid / 16)
    (chosenBy s sched).map (·.tid)

/-- Whether the precise stop is due at a team's boundary (R377). -/
def stopDue (s : State) (tid : Nat) : Bool :=
  match s.stop, stopTeam s with
  | some q, some t => !q.taken && t.tid == tid && t.rwc.toNat == q.count
  | _, _ => false

/-- The instruction that the focused team has fetched is issued, when it has one and goes on. -/
def issueFetched (s : State) : Out :=
  match s.team.ir with
  | some (w, l) => if s.team.park = .run ∧ s.team.trapReq.isNone then exec (decodeWord w l) s else .next s
  | none => .next s

/-- A team in focus reaches an instruction boundary: a precise stop, a waiting event (R353), or its next instruction. -/
def issueFocused (s : State) : Out :=
  if stopDue s s.team.tid then .next (preciseStop s)
  else if eventDue s then .next (takeEvent s)
  else issueFetched (fetchNext s)

/-- A team issues. -/
def issueTeam (tid : Nat) (s : State) : Out := issueFocused (s.focus tid)

/-! ### The end of an ac -/

/-- A stalled team tries again in the next ac (R176). -/
def retry (t : Team) : Team := { t with stall := 0 }

/-- The ac ends: the snapshot steps (R417) and the deliveries to bins (R213) that fall in it, the parks of TASK (R306), then the counter advances
(R12). -/
def tick (s : State) : State :=
  let s := parkTasks (deliverAll (snapAll s))
  { s with ac := s.ac + 1, turn := 0, team := retry s.team, teams := mmap retry s.teams }

/-! ### Steps of the table that no word encodes -/

/-- Whether a row is a step that no word encodes. -/
def isEvent (i : Instr) : Bool := (encode i).isEmpty

/-- Whether an event is an input from outside the package, which a capture logs and a replay takes from the log (R375, R378). -/
def isInput (s : State) (i : Instr) (sel : Sel) : Bool :=
  match i with
  | .gatewayPush => true
  | .collectiveDataTransfer => decide (2 ≤ sel.sub)
  | .collPostCollect => decide (sel.unit ≠ 0)
  | .collErrorNotice => !(s.notices.any fun m => m.1 == sel.unit && m.2.2 == sel.word)
  | .collGlobalComplete => true
  | .remotePackageLost => true
  | .timeBeacon => true
  | _ => false

/-- Whether a row is a transfer or a step of an engine, fill, task or sequencer, which a reported precise stop holds (R377). -/
def isEngineStep (i : Instr) : Bool :=
  match i with
  | .jobStart | .engineTransfer | .unsolicitedWriteRetry | .jobComplete | .fillStart | .fillRowAppend | .fillComplete
  | .taskSchedulerRound | .taskLaunch | .taskComplete | .renameCopyback | .operandRowDraw | .mloopStep | .mdrainExecute
  | .mdrainPortHandoff | .tpioExecute | .balExecute | .batchComplete | .sequencerAbandon => true
  | _ => false

/-- Whether a reported precise stop holds a row. -/
def engineHeld (s : State) (i : Instr) : Bool := isEngineStep i && (s.stop.map (·.reported)).getD false

/-- An event with its selection. A sample is taken once every team of the ac has issued (R366). -/
def runEvent (i : Instr) (sel : Sel) (s : State) : Out :=
  if !isEvent i ∨ engineHeld s i ∨ (i = .sampleTick ∧ (nextIssue s).isSome) then .next s else exec i { s with sel := sel }

/-- The log of a capture takes an input (R378). -/
def logInput (i : Instr) (sel : Sel) (s : State) : State :=
  if isInput s i sel then onCaptures (fun c => { c with inputs := c.inputs ++ [(momentOf s c.began c.turn, .event i sel)] }) s else s

/-! ### Steps that are due -/

/-- Results of a team that may land, and stores that may be accepted. -/
def landSteps (s : State) (t : Team) : List (Instr × Sel) :=
  ((t.pend.filter fun p => p.missing == 0 && decide (max p.due p.usual ≤ s.ac)).map fun p => (.longResultLands, { unit := t.tid, sub := p.tag })) ++
    ((t.stores.filter fun k => k.left == 0 && decide (max k.due k.usual ≤ s.ac)).map fun k => (.storeAccepted, { unit := t.tid, sub := k.tag }))

/-- Steps of a team that may be due. -/
def teamSteps (s : State) (t : Team) : List (Instr × Sel) :=
  let one := fun (i : Instr) => (i, ({ unit := t.tid } : Sel))
  landSteps s t ++
    match t.park with
    | .trap => [one .trapEntry]
    | .fence _ _ => [one .fenceDrainEnd]
    | .expect _ _ => [one .expectClear]
    | .mctl => [one .mctlLoadCommit]
    | .exit => [one .exitRetire]
    | .watch => [one .watchTimeout]
    | .ftmap _ => [one .ftmap]
    | .hostreq _ _ _ => [one .hostreq]
    | .inval all _ => [one (if all then .ivhiInvalidateAll else .ivhiInvalidatePage)]
    | _ => []

/-- Steps of a core that may be due. -/
def coreSteps (n : Nat) (c : Core) : List (Instr × Sel) :=
  let one := fun (i : Instr) => (i, ({ unit := n } : Sel))
  let four := fun (i : Instr) => (List.range 4).map fun k => (i, ({ unit := n, sub := k } : Sel))
  ((List.range 4).filter fun k => !(vget [] c.sfu k).isEmpty).map (fun k => (Instr.sfuEntryStart, ({ unit := n, sub := k } : Sel))) ++
    (if c.vat.isSome then [one .vatComplete] else []) ++ (if c.vatq.isEmpty then [] else [one .vatStart]) ++
    (if c.vport.isEmpty then [] else [one .vaultPortApply]) ++ (c.arrived.map fun l => (.presenceSet, { unit := n, sub := l })) ++
    (c.bins.flatMap fun b => [(Instr.binLaunch, ({ unit := n, sub := b.1 } : Sel)), (.binTimerExpiry, { unit := n, sub := b.1 })]) ++
    (if c.fills.toList.all (·.isEmpty) then [] else four .fillStart ++ four .fillRowAppend ++ four .fillComplete) ++
    (if c.mat.queue.isEmpty then [] else four .operandRowDraw ++
      [one .mloopStep, one .mdrainExecute, one .mdrainPortHandoff, one .tpioExecute, one .balExecute, one .sequencerAbandon]) ++
    (if c.mat.batches.isEmpty then [] else [one .batchComplete])

/-- Steps of a cluster that may be due. -/
def clusterSteps (n : Nat) (c : Cluster) : List (Instr × Sel) :=
  let one := fun (i : Instr) => (i, ({ unit := n } : Sel))
  (if c.net.isEmpty then [] else [one .atomRequestEnqueue]) ++
    (if c.queue.isEmpty then [] else [one .atomServiceApply, one .waitCompareRecord, one .wakeService]) ++
    (if c.promo.isEmpty ∧ c.held.isEmpty then [] else [one .promotionWriteback])

/-- Steps of a die that may be due. -/
def dieSteps (s : State) (n : Nat) (d : Die) : List (Instr × Sel) :=
  (d.walks.zipIdx.map fun p => (.walkComplete, { unit := n, sub := p.2 })) ++
    (d.jobs.flatMap fun j => [Instr.jobStart, .engineTransfer, .unsolicitedWriteRetry, .jobComplete, .engfault, .taskLaunch, .taskComplete,
      .renameCopyback].map fun i => (i, ({ unit := n, sub := j.key } : Sel))) ++
    (if s.queues.any fun q => q.2.kind == 2 && !q.2.entries.isEmpty then [(.taskSchedulerRound, { unit := n })] else [])

/-- Steps of the collectives that may be due. -/
def collSteps (s : State) : List (Instr × Sel) :=
  (s.colls.filter fun c => c.2.st != .free).flatMap (fun c =>
    [(Instr.collPostCollect, ({ sub := c.1 } : Sel)), (.collectiveDataTransfer, { unit := c.1 }), (.collectiveDataTransfer, { unit := c.1, sub := 1 }),
      (.collLocalComplete, { unit := c.1 }), (.collPartFault, { unit := c.1 })] ++
    (c.2.chunks.map fun k => (.collChunkRead, { unit := c.1, sub := k })) ++
    (if c.2.n = 1 then [(.collGlobalComplete, { unit := c.1 })] else [])) ++
  (s.creqs.zipIdx.flatMap fun p => [(Instr.collRequestAged, ({ sub := p.2 } : Sel)), (.collRequestGrant, { sub := p.2 })]) ++
  (if s.grants.isEmpty then [] else [(.collGrantReceive, ({} : Sel))]) ++
  (s.notices.map fun m => (.collErrorNotice, { unit := m.1, word := m.2.2 }))

/-- Starts of blocks that may be due. -/
def startSteps (s : State) : List (Instr × Sel) :=
  (s.blocks.filter fun b => b.2.phase == .starting).map fun b => (Instr.blockStart, { unit := b.1 })

/-- Stores of ended teams that may be accepted. -/
def leftSteps (s : State) : List (Instr × Sel) :=
  s.blocks.flatMap fun b =>
    (b.2.tokens.filter fun k => k.left == 0 && decide (max k.due k.usual ≤ s.ac)).map fun k => (.storeAccepted, { sub := k.tag })

/-- Steps of the placer, of blocks and of grids that may be due. -/
def placeSteps (s : State) : List (Instr × Sel) :=
  leftSteps s ++
  (s.blocks.filter fun b => b.2.phase == .starting || b.2.phase == .running).map (fun b => (Instr.blockEnd, ({ unit := b.1 } : Sel))) ++
  (s.grids.filter fun g => !g.2.ended).flatMap fun g =>
    (List.range 16).map (fun w => (Instr.wbarPhaseEnd, ({ unit := g.1, sub := w } : Sel))) ++
    [(.blockPlacement, ({} : Sel)), (.wbarBlockRestore, ({} : Sel)), (.wbarBlockSave, { unit := g.1 }), (.gridEnd, { unit := g.1 })]

/-- The row of a command. -/
def commandRow (p : Packet) : Instr :=
  if !knownSub p then .illcmd
  else match cmdOf p, subOf p with
    | 1, _ => .launch
    | 2, 0 => .copyHostToDevice
    | 2, 1 => .copyDeviceToHost
    | 2, _ => .copyDeviceToDevice
    | 3, 0 => .mapContext
    | 3, 1 => .mapPool
    | 3, 2 => .mapQueue
    | 3, 3 => .mapSplit
    | 3, 4 => .mapGroups
    | 3, 5 => .mapInval
    | 3, 6 => .mapAnswer
    | 3, _ => .mapAdmit
    | 4, 0 => .snapshotStart
    | 4, _ => .snapshotStop
    | 5, _ => .replay
    | 6, 0 => .signalPreempt
    | 6, 1 => .signalResume
    | 6, 2 => .signalKill
    | 6, _ => .signalContinue
    | _, _ => .attest

/-- Steps of the trace and sampling units that may be due. -/
def traceSteps (s : State) : List (Instr × Sel) :=
  (s.allTeams.filter fun t => t.traced).map (fun t => (Instr.chunkAgeClose, ({ unit := t.tid } : Sel))) ++
  s.cores.flatMap fun c => (List.range 4).flatMap fun k =>
    (if (vget [] c.2.outq k).isEmpty then [] else [(Instr.chunkRingWrite, ({ unit := 4 * c.1 + k } : Sel))]) ++
    (if (vget {} c.2.sample k).body.isEmpty then [] else [(.chunkAgeClose, { unit := tidOf c.1 k 0, sub := 1 })])

/-- Samples that may be due at the end of the ac. -/
def sampleSteps (s : State) : List (Instr × Sel) :=
  (s.grids.filter fun g => g.2.launch.traced && g.2.launch.sampleExp != 0).flatMap fun g =>
    ((s.blocks.filter fun b => b.2.grid == g.1).map fun b => b.2.core).eraseDups.flatMap fun c =>
      (List.range 4).map fun k => (Instr.sampleTick, { unit := 4 * c + k, sub := g.1 })

/-- Every step that may be due, in the model's order (log entry 1). -/
def candidates (s : State) : List (Instr × Sel) :=
  (if s.stop.isSome then [(Instr.preciseStop, ({} : Sel))] else []) ++
  s.allTeams.flatMap (teamSteps s) ++ (s.cores.flatMap fun c => coreSteps c.1 c.2) ++ (s.clusters.flatMap fun c => clusterSteps c.1 c.2) ++
  ((s.waking.filter fun w => watcherReached s w.tid).map fun w => (.watchWriteWake, { word := w.addr / 128 })) ++
  (s.dies.flatMap fun d => dieSteps s d.1 d.2) ++
  (s.queues.flatMap fun q => if q.2.waiters.isEmpty then [] else [(Instr.queuePopServe, ({ unit := q.1 } : Sel)), (.queuePushAccept, { unit := q.1 })]) ++
  collSteps s ++ placeSteps s ++ ((nextCommand s).map fun p => (commandRow p.2, ({} : Sel))).toList ++
  (if s.beacons.isEmpty then [] else [(.timeBeaconReceive, ({} : Sel))]) ++ traceSteps s ++ sampleSteps s

/-- The state after a step of the list that changes something, the first of them; none when no one does. -/
def firstDue (s : State) : List (Instr × Sel) → Option Out
  | [] => none
  | (i, sel) :: rest =>
    match runEvent i sel s with
    | .next s' => if s' = { s with sel := s'.sel } then firstDue s rest else some (.next s')
    | o => some o

/-- The input that a replay takes from its log now, and the state without it (R375): one whose moment has come, and at the end of its ac any of that
ac. -/
def replayInput (s : State) (ends : Bool := false) : Option (Choice × State) :=
  match s.replay with
  | some r =>
    match r.inputs with
    | (m, c) :: rest =>
      if r.hasCome s m ∨ (ends ∧ r.began + m.ac ≤ s.ac) then some (c, { s with replay := some { r with inputs := rest } }) else none
    | [] => none
  | none => none

/-- An input of a replay. -/
def runInput (c : Choice) (s : State) : Out :=
  match c with
  | .event i sel => runEvent i sel s
  | _ => .next s

/-- The end of the ac, when no input of a replay is left in it. -/
def endAc (s : State) : Out :=
  match replayInput s true with
  | some (c, s') => runInput c s'
  | none => .next (tick s)

/-- Whether the ac may end: no team is to issue in it, no watch that a write removed or that has reached its timeout still stands (R257), no sample
of it is owed (R366), and no staging chunk is to close for its age (R365). -/
def acOver (s : State) : Bool :=
  let owed := fun (w : Watch) => watchDue s.ac w && watcherReached s w.tid
  (nextIssue s).isNone && !(s.waking.any fun w => watcherReached s w.tid) &&
    !(s.clusters.any fun c => c.2.watches.any owed) && !(s.cores.any fun c => c.2.vwatch.any owed) &&
    !((sampleSteps s).any fun e => sampleDue s (e.2.unit / 4) (e.2.unit % 4) e.2.sub) &&
    !(s.allTeams.any (teamAged s)) && !(s.cores.any fun c => c.2.sample.toList.any (sampleAged s))

/-- The step that the model takes when nothing is chosen: an input of a replay, a block's start, a result that lands, an issue, then what is due,
then the end of the ac. -/
def runDefault (s : State) : Out :=
  match replayInput s with
  | some (c, s') => runInput c s'
  | none =>
    let s := { s with turn := s.turn + 1 }
    match firstDue s (startSteps s ++ s.allTeams.flatMap (landSteps s)) with
    | some o => o
    | none =>
      match nextIssue s with
      | some tid => issueTeam tid s
      | none => (firstDue s (candidates s)).getD (endAc s)

/-! ### Steps chosen from outside -/

/-- A soft error (R424, R425). -/
def upset (u : Upset) (s : State) : State :=
  match u with
  | .register tid key => s.withTeam tid fun s => s.onTeam fun t => if t.rbad.contains key then t else { t with rbad := t.rbad ++ [key] }
  | .cache core tag word => s.onCore core fun c =>
      { c with lines := mmap (fun l => if l.tag = tag then { l with bad := l.bad ||| BitVec.ofNat 128 (0xFF * 2 ^ (8 * word)) } else l) c.lines }
  | .memory key => scrub 0 key 2 s
  | .corrected field => if field = 0 ∨ field = 8 ∨ field = 16 ∨ field = 24 then countError field s else s

/-- Whether the package is in deterministic mode (R375): it captures or replays. -/
def deterministic (s : State) : Bool := s.replay.isSome || s.captures.any fun c => c.2.isOpen

/-- Whether a row comes from outside the package, or from a condition of its hardware that R375 does not cover: packets and commands, links, power
and scrubs. -/
def isOutside (s : State) (i : Instr) (sel : Sel) : Bool :=
  isInput s i sel || match i with
    | .hostCommandPush | .powerLoss | .idleFlit | .flitReplay | .fabricLaneSwap | .linkSilenceLoss | .linkReplayLoss | .vaultScrub | .hbmScrub => true
    | _ => false

/-- A step chosen from outside. A choice that the machine is not ready for changes nothing (log entry 1). In deterministic mode only what comes from
outside is open, and in replay the logged inputs are taken from the log; everything else follows the model's own order (R375). -/
def runChoice (c : Choice) (s : State) : Out :=
  match c with
  | .event i sel =>
    if isOutside s i sel then (if s.replay.isSome ∧ isInput s i sel then .next s else runEvent i sel (logInput i sel s))
    else if deterministic s then runDefault s
    else runEvent i sel s
  | .issue tid => if deterministic s then runDefault s else if nextIssue s = some tid then issueTeam tid s else .next s
  | .tick => if deterministic s then runDefault s else .next (if acOver s then tick s else s)
  | .upset u => .next (upset u s)

end Sys2Proof.Machine
end

