-- ==== Sys2Proof/Machine/Fetch.lean ====
section
/-!
DEFINITION. How an instruction comes to stand where the next step fetches it: the load that MAP, COPY and LAUNCH commands, a placement and a
block's start make from outside and inside the package (log entry 2).
-/

namespace Sys2Proof.Machine

/-- The address at which the program stands, virtual and physical: a page that the team's core holds in its TLB. -/
def loadPc : VAddr := 0x100000#57

/-- The team that runs it: one lane in slot 0 of scheduler 0 of core 0. -/
def loadTeam (s : State) : Team :=
  { present := true, blk := s.nextBlock, lanes := 1, nregs := 96, pc := loadPc, live := 1, active := 1, age := s.nextAge }

/-- A running block of a grid of context 1, with that team alone, the page of its program in the TLB, and the bytes of the instruction. -/
def placeWord (nbits w : Nat) (s : State) : State :=
  let v := w % 2 ^ nbits
  let g := s.nextGrid
  let bytes := leBytes 8 v
  let launch : LaunchRec := { gx := 1, gy := 1, gz := 1, bond := 1, roles := [{ entry := loadPc, lanes := 1, regs := 96 }], svcq := 2 }
  let tlb : TlbEntry := { ctx := 1, page := 0x100, psz := 0, frame := 0x100, r := true, w := true, x := true, ncm := false }
  { s with
    mem := memPuts s.mem ((paKey s 0x100000).getD 0) bytes
    team := loadTeam s, teams := [], agenda := [], busy := [], stop := none, replay := none
    blocks := mput s.blocks s.nextBlock { phase := .running, grid := g }
    grids := mput s.grids g { ctx := 1, launch := launch, nextBlk := 1, started := true }
    cores := mput s.cores 0 { s.core 0 with tlb := [tlb], lines := [] }
    nextBlock := s.nextBlock + 1, nextGrid := g + 1, nextAge := s.nextAge + 1 }

end Sys2Proof.Machine
end

