-- ==== Sys2Proof/Machine/Step.lean ====
section
/-!
DEFINITION. One step of the machine, and the state in which a given instruction is the next one to be fetched.
-/

namespace Sys2Proof.Machine

/-- One step: the oldest choice from outside, or what the model takes when nothing is chosen. -/
def step (s : State) : Host.Outcome State Fault Refusal :=
  match s.agenda with
  | c :: rest => runChoice c { s with agenda := rest }
  | [] => runDefault s

/-- The state with an instruction placed where the next step fetches. -/
def State.withFetchWord (s : State) (nbits w : Nat) : State := placeWord nbits w s

end Sys2Proof.Machine
end

