-- ==== Sys2Proof/Safety.lean ====
section
/-!
DEFINITION. The terms in which statements speak of the machine: a sound state, a team that may issue, operands that pass the checks of R26,
and the state in which an instruction leaves the machine when it ends in sequence.
-/

namespace Sys2Proof.Machine

/-- Memory is in its canonical form. -/
def State.memOk (s : State) : Prop := Memory.wf s.mem = true

/-! ### Before an instruction -/

/-- A team is in focus and not parked (R176), with a legal number of registers per lane (R11; the invariant of TablesStayInOrder). -/
structure Issuing (s : State) : Prop where
  present : s.team.present = true
  running : s.team.park = .run
  nregs : s.team.nregs ≤ 248

/-- Some operand that is read is dead in an active lane (R24). -/
def readsDead (s : State) (ops : List Opnd) : Bool :=
  ops.any fun o => o.rd && o.fields.any fun f => deadIn s f (lanesOf s.team.active)

/-- The operands pass the checks of R26, and R14 where the instruction is uniform (`u`): shapes and windows are in range, nothing named is
pending, a dead register is read only with PTRAPEN clear (R25), and no special is written; no register that is read holds an error (R424). -/
structure Ready (s : State) (u : Bool) (ops : List Opnd) (x : Option Nat := none) : Prop where
  shape : ∀ o ∈ ops, o.ok = true
  window : ∀ o ∈ ops, ∀ f ∈ o.fields, windowBad s.team f = false
  noHazard : ∀ o ∈ ops, ∀ f ∈ o.fields, isPending s.team (regCode s.team f) = false
  noHazardX : ∀ k, x = some k → isPending s.team (560 + k) = false
  noPoisonTrap : readsDead s ops = true → s.team.tstat.getLsbD 1 = false
  writable : ∀ o ∈ ops, o.wr = true → o.f < 120
  uniform : u = true → ∀ o ∈ ops, o.rd = true → 96 ≤ o.f
  sound : (lanesOf s.team.active).any (badOps s ops) = false

/-- The state after the operands are read: POISONED is set where one was dead (R25). -/
def afterReads (s : State) (ops : List Opnd) : State := if readsDead s ops then s.onTeam setPoisoned else s

/-! ### After an instruction -/

/-- What a list of register writes leaves in a register of a lane, the later write winning; none where no write names it. Registers that
are not per lane have codes from 512 up. -/
def written (ws : List RegWrite) (code lane : Nat) : Option Word :=
  (ws.reverse.find? fun w => w.reg == code && (decide (512 ≤ code) || w.lane == lane)).map (·.val)

/-- A code that names a vector register, a scalar or a shadow register. -/
def regNamed (code : Nat) : Prop := code < 536 ∨ (544 ≤ code ∧ code < 552)

/-- The registers of `t` are those of `s` but for the writes; a written register is live (R24) and free of error (R424). -/
structure RegsAre (s t : State) (ws : List RegWrite) : Prop where
  bits : ∀ c l, regNamed c → regBits t c l = (written ws c l).getD (regBits s c l)
  live : ∀ c l, regNamed c → (written ws c l).isSome → regDead t.team c l = false
  sound : t.team.rbad = s.team.rbad.filter fun k => !(ws.any fun w => k == regKey w.reg w.lane)

/-- The field values that a register field of `n` registers names. -/
def fieldsFrom (f : RegF) (n : Nat) : List Nat := (List.range n).map (f.toNat + ·)

/-- Whether a last-use hint makes a register dead (R24, R54): the field of A names the field values `fa`, that of B `fb`; a vector register
dies in the active lanes. -/
def hinted (s : State) (h : Hd) (fa fb : List Nat) (c l : Nat) : Bool :=
  ((lastA h.hnt && fa.any fun f => regCode s.team f == c) || (lastB h.hnt && fb.any fun f => regCode s.team f == c)) &&
    (decide (512 ≤ c) || (lanesOf s.team.active).contains l)

/-- The dead flags of `t` are those of `s`, but that the hinted registers die and then the written ones are live (R24). -/
def DeadAre (s t : State) (h : Hd) (fa fb : List Nat) (ws : List RegWrite) : Prop :=
  ∀ c l, regNamed c → regDead t.team c l = if (written ws c l).isSome then false else (regDead s.team c l || hinted s h fa fb c l)

/-- The team of `s` after an instruction of `len` bytes that ends in sequence, its registers taken from `r`: one more instruction is
retired (R376), the PC, an expansion or a partial re-execution moves on (`advance`), results and stores are outstanding, and the team parks
on an S marker with anything outstanding (R21). -/
def endedTeam (s : State) (r : Team) (h : Hd) (len : Nat) (ps : List Pend) (ts : List Token) : Team :=
  let a := advance len s.team
  let out := (s.team.pend ++ ps).isEmpty && (s.team.stores ++ ts).isEmpty
  { s.team with
    v := r.v, vdead := r.vdead, rbad := r.rbad, s := r.s, sdead := r.sdead, shadow := r.shadow, shdead := r.shdead
    pc := a.1.pc, mcall := a.1.mcall, active := a.1.active, reexec := a.1.reexec, failed := a.1.failed, failFetch := a.1.failFetch
    stall := 0, ir := none, walked := [], rwc := s.team.rwc + 1, lastIssue := s.ac, promoted := false
    pend := s.team.pend ++ ps, stores := s.team.stores ++ ts
    park := if (h.sw || a.2) && !out then .marker else s.team.park }

/-- `t` is the state after an instruction of `len` bytes that ended in sequence from `s`: it took `p` passes (R156), wrote the registers
`ws`, left the results `ps` and the stores `ts` outstanding under `n` new tags, and changed nothing else: no register, flag or control
register of the team but as said, no byte of memory, nothing of any other team, core or table. Last-use hints reach the field values `fa` of A
and `fb` of B. -/
structure Ended (s t : State) (h : Hd) (len p : Nat) (ws : List RegWrite) (ps : List Pend) (ts : List Token) (n : Nat)
    (fa fb : List Nat := []) : Prop where
  regs : RegsAre s t ws
  dead : DeadAre s t h fa fb ws
  rest : t = { s with
    team := endedTeam s t.team h len ps ts
    busy := mput s.busy (s.team.tid / 16) (s.ac + p)
    issuer := mput s.issuer (s.team.tid / 16) s.team.age
    nextTag := s.nextTag + n }

/-- The entry of the pending-write record that a long form adds (R20). -/
def longPend (s : State) (p : Nat) (shared : Bool) (regs : List Nat) (ws : List RegWrite) (delay : Nat) : Pend :=
  { tag := s.nextTag, pc := s.team.pc, regs := regs, shared := shared, writes := ws, due := s.ac + (p - 1) + delay }

/-- The parts of a core other than the outbound queues of its trace units (R365). -/
def Core.untraced (c : Core) : Core := { c with outq := Vector.replicate 4 [] }

/-- What tracing may change between two states of one team: the team's own trace record and the outbound queues of the trace units; nothing
when the team is not traced (R364, R365). -/
structure TraceOnly (s t : State) : Prop where
  cores : ∀ c, (t.core c).untraced = (s.core c).untraced
  untraced : s.team.traced = false → t.team.tr = s.team.tr ∧ t.cores = s.cores

/-- The team of `s` after a control transfer to `pc` (R116 to R121): `c` gives the active mask, the two stacks with the move of
entries that the change of one takes (R114), and the format register that the transfer leaves, `r` the registers and the trace record. -/
def jumpedTeam (s : State) (r c : Team) (h : Hd) (pc : VAddr) : Team :=
  { s.team with
    v := r.v, vdead := r.vdead, rbad := r.rbad, s := r.s, sdead := r.sdead, shadow := r.shadow, shdead := r.shdead, tr := r.tr
    active := c.active, rstack := c.rstack, cstack := c.cstack, rmove := c.rmove, fmt := c.fmt
    pc := pc, stall := 0, ir := none, walked := [], failed := 0, failFetch := false
    rwc := s.team.rwc + 1, lastIssue := s.ac, promoted := false
    park := if h.sw && !drained s.team then .marker else s.team.park }

/-- `t` is the state after a control transfer from `s` to `pc` that took `p` passes; nothing changes but the team as said, the booking of
the issue, and what tracing adds. -/
structure Jumped (s t : State) (h : Hd) (p : Nat) (pc : VAddr) (c : Team) (fa : List Nat := []) : Prop where
  regs : RegsAre s t []
  dead : DeadAre s t h fa [] []
  traced : TraceOnly s t
  rest : t = { s with
    team := jumpedTeam s t.team c h pc
    cores := t.cores
    busy := mput s.busy (s.team.tid / 16) (s.ac + p)
    issuer := mput s.issuer (s.team.tid / 16) s.team.age }

/-- The state after an instruction whose `p` passes are booked (R156, R177, R376), before its own effect. -/
def booked (p : Nat) (s : State) : State := begin p s

end Sys2Proof.Machine
end

