-- ==== Sys2Proof/Certificates/Slice0/Obligations.lean ====
section
/-!
DEFINITION. The statements for the provers. Each docstring names the rules of spec/ that its statement formalises or rests on. Every
statement about an instruction says that exec answers a next state and what that state holds; `Ended` and `Jumped` (Safety.lean) say at once
that nothing else changes.
-/

section

open Sys2Proof Sys2Proof.Machine

/-! ### Register operations -/

/-- R101, R102: the functions of OP 0x01 to 0x10, read from the table of R101. -/
def Claims.intOps : List ((Hd → RegF → RegF → RegF → Instr) × (Word → Word → Word)) :=
  [(.iadd, fun x y => x + y), (.isub, fun x y => x - y), (.imul, fun x y => x * y),
   (.imulh, fun x y => BitVec.ofInt 32 (x.toInt * y.toInt / 2 ^ 32)), (.imulhu, fun x y => BitVec.ofNat 32 (x.toNat * y.toNat / 2 ^ 32)),
   (.imin, fun x y => if y.toInt < x.toInt then y else x), (.imax, fun x y => if x.toInt < y.toInt then y else x),
   (.andR, fun x y => x &&& y), (.orR, fun x y => x ||| y), (.xorR, fun x y => x ^^^ y),
   (.shl, fun x y => if 32 ≤ y.toNat then 0 else x <<< y.toNat), (.shr, fun x y => if 32 ≤ y.toNat then 0 else x >>> y.toNat),
   (.shra, fun x y => if 32 ≤ y.toNat then (if x.getLsbD 31 then 0xFFFFFFFF#32 else 0) else x.sshiftRight y.toNat),
   (.ilt, fun x y => if x.toInt < y.toInt then 1 else 0), (.iltu, fun x y => if x.toNat < y.toNat then 1 else 0),
   (.ieq, fun x y => if x = y then 1 else 0)]

/-- R101, R102 with R14, R24, R25, R26: every integer register operation whose operands are ready writes its result in each executing
lane and changes nothing else. -/
def Obligations.IntegerOpsWriteTheirResult : Prop :=
  ∀ p ∈ Claims.intOps, ∀ (h : Hd) (d a b : RegF) (s : State), Issuing s → Ready s (isScalar d) [src a, src b, dst d] →
    ∃ t, exec (p.1 h d a b) s = .next t ∧
      Ended (afterReads s [src a, src b, dst d]) t h 4 (passes s (isScalar d))
        (writesOf s d.toNat (execLanes s (isScalar d)) fun l => p.2 (rdv s a l) (rdv s b l)) [] [] 0 (fieldsFrom a 1) (fieldsFrom b 1)

/-- R103: the five immediates with a source. -/
def Claims.immOps : List ((Hd → RegF → RegF → Word → Instr) × (Word → Word → Word)) :=
  [(.iaddi, fun x l => x + l), (.muli, fun x l => x * l), (.andi, fun x l => x &&& l), (.ori, fun x l => x ||| l), (.xori, fun x l => x ^^^ l)]

/-- R104: the functions of XUN. -/
def Claims.unaryOps : List ((Hd → RegF → RegF → Instr) × (Word → Word)) :=
  [(.xunMov, fun x => x), (.xunNot, fun x => ~~~ x), (.xunNeg, fun x => 0 - x), (.xunAbs, fun x => if x.getLsbD 31 then 0 - x else x),
   (.xunClz, fun x => BitVec.ofNat 32 ((List.range 32).takeWhile fun i => !x.getLsbD (31 - i)).length),
   (.xunPopc, fun x => BitVec.ofNat 32 ((List.range 32).filter fun i => x.getLsbD i).length),
   (.xunBrev, fun x => BitVec.ofFnLE fun i : Fin 32 => x.getLsbD (31 - i)),
   (.xunSxb, fun x => BitVec.ofInt 32 (sextInt 8 x.toNat)), (.xunSxh, fun x => BitVec.ofInt 32 (sextInt 16 x.toNat)),
   (.xunZxb, fun x => x &&& 0xFF#32), (.xunZxh, fun x => x &&& 0xFFFF#32)]

/-- R103, R104: MOVI, the other immediates and XUN write their result in each executing lane and change nothing else. -/
def Obligations.ImmediateAndUnaryOpsWriteTheirResult : Prop :=
  (∀ (h : Hd) (d : RegF) (l : Word) (s : State), Issuing s → Ready s (isScalar d) [dst d] →
    ∃ t, exec (.movi h d l) s = .next t ∧
      Ended s t h 8 (passes s (isScalar d)) (writesOf s d.toNat (execLanes s (isScalar d)) fun _ => l) [] [] 0) ∧
  (∀ p ∈ Claims.immOps, ∀ (h : Hd) (d a : RegF) (l : Word) (s : State), Issuing s → Ready s (isScalar d) [src a, dst d] →
    ∃ t, exec (p.1 h d a l) s = .next t ∧
      Ended (afterReads s [src a, dst d]) t h 8 (passes s (isScalar d))
        (writesOf s d.toNat (execLanes s (isScalar d)) fun n => p.2 (rdv s a n) l) [] [] 0 (fieldsFrom a 1)) ∧
  (∀ p ∈ Claims.unaryOps, ∀ (h : Hd) (d a : RegF) (s : State), Issuing s → Ready s (isScalar d) [src a, dst d] →
    ∃ t, exec (p.1 h d a) s = .next t ∧
      Ended (afterReads s [src a, dst d]) t h 4 (passes s (isScalar d))
        (writesOf s d.toNat (execLanes s (isScalar d)) fun n => p.2 (rdv s a n)) [] [] 0 (fieldsFrom a 1))

/-- R106, R108, R123, R181: SETFMT takes every value, WBASE a multiple of 8 below NREGS, PTN its code, NOP nothing; each takes one pass and
changes nothing else. -/
def Obligations.TeamRegistersAreSet : Prop :=
  (∀ (h : Hd) (l : Word) (s : State), Issuing s →
    ∃ t, exec (.setfmt h l) s = .next t ∧ Ended (s.onTeam fun k => { k with fmt := l }) t h 8 1 [] [] [] 0) ∧
  (∀ (h : Hd) (a : RegF) (s : State), Issuing s → Ready s false [src a] → 96 ≤ a.toNat →
    ∃ t, exec (.setfmtReg h a) s = .next t ∧
      Ended ((afterReads s [src a]).onTeam fun k => { k with fmt := rdu s a }) t h 8 1 [] [] [] 0 (fieldsFrom a 1)) ∧
  (∀ (h : Hd) (l : Word) (s : State), Issuing s → l.toNat % 8 = 0 → l.toNat < s.team.nregs →
    ∃ t, exec (.wbase h l) s = .next t ∧ Ended (s.onTeam fun k => { k with wbase := l.toNat }) t h 8 1 [] [] [] 0) ∧
  (∀ (h : Hd) (a : RegF) (s : State), Issuing s → Ready s false [src a] → 96 ≤ a.toNat → (rdu s a).toNat % 8 = 0 →
    (rdu s a).toNat < s.team.nregs →
    ∃ t, exec (.wbaseReg h a) s = .next t ∧
      Ended ((afterReads s [src a]).onTeam fun k => { k with wbase := (rdu s a).toNat }) t h 8 1 [] [] [] 0 (fieldsFrom a 1)) ∧
  (∀ (h : Hd) (s : State), Issuing s → ∃ t, exec (.nop h) s = .next t ∧ Ended s t h 4 1 [] [] [] 0) ∧
  ∀ p ∈ ([(.ptnT32, 0), (.ptnT16, 1), (.ptnT8, 2), (.ptnT4, 3), (.ptnT2, 4), (.ptnWhole, 5)] : List ((Hd → Instr) × BitVec 3)),
    ∀ (h : Hd) (s : State), Issuing s →
      ∃ t, exec (p.1 h) s = .next t ∧ Ended (s.onTeam fun k => { k with ptile := p.2 }) t h 4 1 [] [] [] 0

/-! ### FP operations -/

/-- The exponent and the fraction of an element's bits, its sign bit, and what it is (R29). -/
def Claims.expo (f : Fmt) (x : Nat) : Nat := x / 2 ^ f.fb % 2 ^ f.eb
def Claims.frac (f : Fmt) (x : Nat) : Nat := x % 2 ^ f.fb
def Claims.neg (f : Fmt) (x : Nat) : Bool := x.testBit (f.eb + f.fb)
abbrev Claims.isNan (f : Fmt) (x : Nat) : Prop := Claims.expo f x = 2 ^ f.eb - 1 ∧ Claims.frac f x ≠ 0
abbrev Claims.isInf (f : Fmt) (x : Nat) : Prop := Claims.expo f x = 2 ^ f.eb - 1 ∧ Claims.frac f x = 0
abbrev Claims.finite (f : Fmt) (x : Nat) : Prop := Claims.expo f x ≠ 2 ^ f.eb - 1

/-- The exact value of a finite element (R29, R32). -/
def Claims.value (f : Fmt) (x : Nat) : ℚ :=
  (if Claims.neg f x then -1 else 1) *
    (if Claims.expo f x = 0 then (Claims.frac f x : ℚ) * 2 ^ (1 - (f.bias : ℤ) - f.fb)
     else (2 ^ f.fb + Claims.frac f x : ℚ) * 2 ^ ((Claims.expo f x : ℤ) - f.bias - f.fb))

/-- The bits of a zero, an infinity and the largest finite value of each sign, and the canonical NaN (R29, R40). -/
def Claims.zeroOf (f : Fmt) (neg : Bool) : Nat := if neg then 2 ^ (f.eb + f.fb) else 0
def Claims.infOf (f : Fmt) (neg : Bool) : Nat := Claims.zeroOf f neg + (2 ^ f.eb - 1) * 2 ^ f.fb
def Claims.maxOf (f : Fmt) (neg : Bool) : Nat := Claims.zeroOf f neg + ((2 ^ f.eb - 1) * 2 ^ f.fb - 1)
def Claims.nanOf (f : Fmt) : Nat := (2 ^ f.eb - 1) * 2 ^ f.fb + 2 ^ (f.fb - 1)

/-- The integer that a real number rounds to: to nearest with ties to even, towards zero, down, up (R16, R39). -/
def Claims.IsNearest (mode : Nat) (t : ℝ) (n : ℤ) : Prop :=
  match mode with
  | 0 => |t - n| ≤ 1 / 2 ∧ (|t - n| = 1 / 2 → Even n)
  | 1 => n = if 0 ≤ t then ⌊t⌋ else ⌈t⌉
  | 2 => n = ⌊t⌋
  | _ => n = ⌈t⌉

/-- ROUND(x, mode) of a non-zero exact value, as R39 says it: the value is rounded once, with an unbounded exponent, to a multiple of the unit
in its last place, which is never finer than that of the denormals; a magnitude above the largest finite value becomes what the table of R39
says; a result that is zero keeps the sign. -/
def Claims.IsRound (f : Fmt) (mode : Nat) (x : ℝ) (r : Nat) : Prop :=
  let ulp : ℝ := 2 ^ (max (Int.log 2 |x|) (1 - (f.bias : ℤ)) - f.fb)
  ∃ n : ℤ, Claims.IsNearest mode (x / ulp) n ∧
    (|n * ulp| ≤ (Claims.value f (Claims.maxOf f false) : ℝ) →
      r < 2 ^ (f.eb + f.fb + 1) ∧ Claims.finite f r ∧ (Claims.neg f r = true ↔ x < 0) ∧ (Claims.value f r : ℝ) = n * ulp) ∧
    ((Claims.value f (Claims.maxOf f false) : ℝ) < |n * ulp| →
      (0 < x → r = if mode = 0 ∨ mode = 3 then Claims.infOf f false else Claims.maxOf f false) ∧
      (x < 0 → r = if mode = 0 ∨ mode = 2 then Claims.infOf f true else Claims.maxOf f true))

/-- R132, R133, R39, R40, R41: FADD, FSUB, FMUL and FFMA of elements that are no NaN: a sum, a product and a product with a sum round once from the
exact value; an exact zero and the infinities are as R133 says. `z0` is the sign of an exact zero of terms with opposite signs. -/
def Claims.FpArithmeticRoundsOnce : Prop :=
  ∀ f ∈ [fp32, bf16, fp16], ∀ (m x y z : Nat), m < 4 → x < 2 ^ (f.eb + f.fb + 1) → y < 2 ^ (f.eb + f.fb + 1) → z < 2 ^ (f.eb + f.fb + 1) →
    ¬ Claims.isNan f x → ¬ Claims.isNan f y →
    let vx : ℚ := Claims.value f x
    let vy : ℚ := Claims.value f y
    let vz : ℚ := Claims.value f z
    let nx := Claims.neg f x
    let ny := Claims.neg f y
    let nz := Claims.neg f z
    let z0 := decide (m = 2)
    (Claims.finite f x → Claims.finite f y →
      (vx + vy ≠ 0 → Claims.IsRound f m ((vx + vy : ℚ) : ℝ) (feAdd f m x y z)) ∧
      (vx + vy = 0 → feAdd f m x y z = Claims.zeroOf f (if nx = ny then nx else z0)) ∧
      (vx * vy ≠ 0 → Claims.IsRound f m ((vx * vy : ℚ) : ℝ) (feMul f m x y z)) ∧
      (vx * vy = 0 → feMul f m x y z = Claims.zeroOf f (nx != ny))) ∧
    feSub f m x y z = feAdd f m x (y ^^^ 2 ^ (f.eb + f.fb)) z ∧
    (Claims.isInf f x → feAdd f m x y z = if Claims.isInf f y ∧ nx ≠ ny then Claims.nanOf f else Claims.infOf f nx) ∧
    (Claims.finite f x → Claims.isInf f y → feAdd f m x y z = Claims.infOf f ny) ∧
    (Claims.isInf f x ∨ Claims.isInf f y →
      feMul f m x y z =
        if (Claims.finite f x ∧ vx = 0) ∨ (Claims.finite f y ∧ vy = 0) then Claims.nanOf f else Claims.infOf f (nx != ny)) ∧
    (Claims.finite f x → Claims.finite f y → Claims.finite f z →
      (vx * vy + vz ≠ 0 → Claims.IsRound f m ((vx * vy + vz : ℚ) : ℝ) (feFma f m x y z)) ∧
      (vx * vy + vz = 0 → feFma f m x y z = Claims.zeroOf f (if (nx != ny) = nz then nz else z0))) ∧
    (Claims.finite f x → Claims.finite f y → Claims.isInf f z → feFma f m x y z = Claims.infOf f nz) ∧
    (Claims.isInf f x ∨ Claims.isInf f y →
      ((Claims.finite f x ∧ vx = 0) ∨ (Claims.finite f y ∧ vy = 0) → feFma f m x y z = Claims.nanOf f) ∧
      (¬ ((Claims.finite f x ∧ vx = 0) ∨ (Claims.finite f y ∧ vy = 0)) → ¬ Claims.isNan f z →
        feFma f m x y z = if Claims.isInf f z ∧ nz ≠ (nx != ny) then Claims.nanOf f else Claims.infOf f (nx != ny)))

/-- A value of an element that is no NaN, in the order of the extended numbers (R135). -/
def Claims.extended (f : Fmt) (x : Nat) : WithBot (WithTop ℚ) :=
  if Claims.expo f x = 2 ^ f.eb - 1 then (if Claims.neg f x then ⊥ else ((⊤ : WithTop ℚ) : WithBot (WithTop ℚ)))
  else ((Claims.value f x : WithTop ℚ) : WithBot (WithTop ℚ))

/-- R135: FLT, FLE and FEQ compare exact values, so that −0 equals +0; a comparison with a NaN is false. -/
def Claims.FpComparesExactValues : Prop :=
  ∀ f ∈ [fp32, bf16, fp16], ∀ (m x y z : Nat), x < 2 ^ (f.eb + f.fb + 1) → y < 2 ^ (f.eb + f.fb + 1) →
    (Claims.isNan f x ∨ Claims.isNan f y → feLt f m x y z = 0 ∧ feLe f m x y z = 0 ∧ feEq f m x y z = 0) ∧
    (¬ Claims.isNan f x → ¬ Claims.isNan f y →
      (feLt f m x y z = 1 ↔ Claims.extended f x < Claims.extended f y) ∧ (feLt f m x y z = 0 ↔ ¬ Claims.extended f x < Claims.extended f y) ∧
      (feLe f m x y z = 1 ↔ Claims.extended f x ≤ Claims.extended f y) ∧ (feLe f m x y z = 0 ↔ ¬ Claims.extended f x ≤ Claims.extended f y) ∧
      (feEq f m x y z = 1 ↔ Claims.extended f x = Claims.extended f y) ∧ (feEq f m x y z = 0 ↔ Claims.extended f x ≠ Claims.extended f y))

/-- R131 to R135: the two-source operations and FFMA, each with whether it reads D and its function on the bits of one element. -/
def Claims.fpOps : List ((Hd → RegF → RegF → RegF → Instr) × Bool × (Fmt → Nat → Nat → Nat → Nat → Nat)) :=
  [(.fadd, false, feAdd), (.fsub, false, feSub), (.fmul, false, feMul), (.ffma, true, feFma), (.fmin, false, feMin), (.fmax, false, feMax),
   (.flt, false, feLt), (.fle, false, feLe), (.feq, false, feEq)]

/-- R131 to R135 with R16, R107: under a VEC code that is not reserved, a vector FP operation applies its element function, in the format VEC
and the rounding RM, to the elements of its sources in each executing lane, writes D, and changes nothing else. The sums and products round once from
the exact value, and the comparisons compare exact values. -/
def Obligations.FpOpsWriteTheirResult : Prop :=
  Claims.FpArithmeticRoundsOnce ∧ Claims.FpComparesExactValues ∧
  ∀ p ∈ Claims.fpOps, ∀ (h : Hd) (d a b : RegF) (s : State),
    Issuing s → Ready s (isScalar d) [src a, src b, if p.2.1 then srcDst d else dst d] → fmtVec s < 3 →
    ∃ t, exec (p.1 h d a b) s = .next t ∧
      Ended (afterReads s [src a, src b, if p.2.1 then srcDst d else dst d]) t h 4 (passes s (isScalar d))
        (writesOf s d.toNat (execLanes s (isScalar d)) fun l =>
          onElems (fmtVec s) (fmtRm s) p.2.2 (rd s a l) (rd s b l) (if p.2.1 then rd s d l else (0, false))) [] [] 0 (fieldsFrom a 1) (fieldsFrom b 1)

/-- R136 to R139: FUN, each with what its elements are: 0 floating-point values, 1 bits read as they stand (R25), 2 integers. -/
def Claims.funOps : List ((Hd → RegF → RegF → Instr) × Nat × (Fmt → Nat → Nat → Nat)) :=
  [(.funFneg, 0, fuNeg), (.funFabs, 0, fuAbs), (.funFrne, 0, fuRound 0), (.funFflr, 0, fuRound 2), (.funFcel, 0, fuRound 3),
   (.funFtrc, 0, fuRound 1), (.funItof, 2, fuItof), (.funUtof, 2, fuUtof), (.funFtoi, 0, fuFtoi), (.funFtou, 0, fuFtou),
   (.funFcls, 1, fuCls)]

/-- R136 to R139, R143 to R146: FUN under a legal VEC, PKH and PKB under a legal SAT, UNPH and UNPB, PK6 and UNP6 under a narrow NF write
their results in each executing lane and change nothing else. ITOF and UTOF of a packed operand read as POISON give the canonical NaN of the
element format in both elements (R25, R27). -/
def Claims.FpUnaryAndPackingWriteTheirResult : Prop :=
  (∀ p ∈ Claims.funOps, ∀ (h : Hd) (d a : RegF) (s : State), Issuing s → Ready s (isScalar d) [src a, dst d] → fmtVec s < 3 →
    ∃ t, exec (p.1 h d a) s = .next t ∧
      Ended (afterReads s [src a, dst d]) t h 4 (passes s (isScalar d))
        (writesOf s d.toNat (execLanes s (isScalar d)) fun l =>
          if p.2.1 = 2 ∧ fmtVec s ≠ 0 ∧ (rd s a l).2 then (if fmtVec s = 1 then 0x7FC07FC0#32 else 0x7E007E00#32)
          else joinElems (fmtVec s)
            ((elemBits (fmtVec s) ((rd s a l).1, p.2.1 != 1 && (rd s a l).2)).map (p.2.2 (vecFmt (fmtVec s)) (fmtRm s)))) [] [] 0
        (fieldsFrom a 1)) ∧
  (∀ p ∈ ([(.cvnPkh, fp16), (.cvnPkb, bf16)] : List ((Hd → RegF → RegF → Instr) × Fmt)), ∀ (h : Hd) (d a : RegF) (s : State),
    Issuing s → Ready s (isScalar d) [srcPair a, dst d] → fmtSat s < 2 →
    ∃ t, exec (p.1 h d a) s = .next t ∧
      Ended (afterReads s [srcPair a, dst d]) t h 4 (passes s (isScalar d))
        (writesOf s d.toNat (execLanes s (isScalar d)) fun l =>
          w32 (packHalf p.2 (fmtRm s) (fmtSat s) (dec32 (rdn s a 0 l)) + packHalf p.2 (fmtRm s) (fmtSat s) (dec32 (rdn s a 1 l)) * 2 ^ 16)) [] [] 0
        (fieldsFrom a 2)) ∧
  (∀ p ∈ ([(.cvnUnph, 2), (.cvnUnpb, 1)] : List ((Hd → RegF → RegF → Instr) × Nat)), ∀ (h : Hd) (d a : RegF) (s : State),
    Issuing s → Ready s (isScalar d) [src a, dstPair d] →
    ∃ t, exec (p.1 h d a) s = .next t ∧
      Ended (afterReads s [src a, dstPair d]) t h 4 (passes s (isScalar d))
        (writesOfN s d.toNat 2 (execLanes s (isScalar d)) fun k l => rne32 ((elems p.2 (rd s a l)).getD k .nan)) [] [] 0 (fieldsFrom a 1)) ∧
  (∀ (h : Hd) (d a : RegF) (s : State),
    Issuing s → Ready s (isScalar d) [srcQuad a, if fmtSblk s = 0 then dst d else srcDst d] → maNarrow (fmtNf s) = true → fmtSat s < 2 →
    fmtSblk s < 3 →
    ∃ t, exec (.cvnPk6 h d a) s = .next t ∧
      Ended (afterReads s [srcQuad a, if fmtSblk s = 0 then dst d else srcDst d]) t h 4 (passes s (isScalar d))
        (writesOf s d.toNat (execLanes s (isScalar d)) fun l =>
          let c := fun k => pk6Code (fmtNf s) (fmtSat s) (fmtSblk s) (if fmtSblk s = 0 then 0 else (rdv s d l).toNat % 256) (rdn s a k l)
          let w := maBits (fmtNf s)
          w32 (c 0 + c 1 * 2 ^ w + c 2 * 2 ^ (2 * w) + c 3 * 2 ^ (3 * w))) [] [] 0 (fieldsFrom a 4)) ∧
  ∀ (h : Hd) (d a : RegF) (s : State), Issuing s → Ready s (isScalar d) [src a, dstQuad d] → maNarrow (fmtNf s) = true →
    ∃ t, exec (.cvnUnp6 h d a) s = .next t ∧
      Ended (afterReads s [src a, dstQuad d]) t h 4 (passes s (isScalar d))
        (writesOfN s d.toNat 4 (execLanes s (isScalar d)) fun k l =>
          rne32 (decodeMa (fmtNf s) ((rdv s a l).toNat / 2 ^ (k * maBits (fmtNf s)) % 2 ^ maBits (fmtNf s)))) [] [] 0 (fieldsFrom a 1)

/-- R25, R27, R131, R132: an element of FADD, FSUB, FMUL or FFMA is the canonical NaN of its format where an element of a source is a NaN, in
whichever of the sources, and where a packed source is read as POISON. -/
def Claims.FpNanIsCanonical : Prop :=
  let canon : Nat → Nat := fun vec => if vec = 0 then 0x7FC00000 else if vec = 1 then 0x7FC0 else 0x7E00
  (∀ (vec rm x y z : Nat), vec < 3 →
    (((decodeFp (vecFmt vec) x).isNan = true ∨ (decodeFp (vecFmt vec) y).isNan = true) →
      ∀ f ∈ [feAdd, feSub, feMul, feFma], f (vecFmt vec) rm x y z = canon vec) ∧
    ((decodeFp (vecFmt vec) z).isNan = true → feFma (vecFmt vec) rm x y z = canon vec)) ∧
  ∀ (vec rm : Nat) (x y z : Word × Bool), 1 ≤ vec → vec < 3 →
    ((x.2 = true ∨ y.2 = true) → ∀ f ∈ [feAdd, feSub, feMul, feFma], onElems vec rm f x y z = joinElems vec [canon vec, canon vec]) ∧
    (z.2 = true → onElems vec rm feFma x y z = joinElems vec [canon vec, canon vec])

/-- The state in which an instruction has put its entry into the SFU queue of the team's scheduler (R142). -/
def Claims.sfuQueued (s : State) (p : Nat) : State :=
  s.onCore s.myCore fun k =>
    { k with sfu := vset k.sfu (schedOf s.team.tid) (vget [] k.sfu (schedOf s.team.tid) ++ [{ tid := s.team.tid, tag := s.nextTag, groups := p }]) }

/-- The result of an instruction that waits in the SFU queue: outstanding until its entry starts. -/
def Claims.sfuPend (s : State) (regs : List Nat) (ws : List RegWrite) : Pend :=
  { tag := s.nextTag, pc := s.team.pc, regs := regs, writes := ws, missing := 1 }

/-- R141: RCP, RSQ and SQRT are the exact value rounded once; the special operands of every function are as its table says, EXP2 of an integer is a
power of two and LOG2 of a power of two is the integer. `w` is the operand, `x` its exact value. -/
def Claims.SfuValues : Prop :=
  ∀ w : Word,
    let b := w.toNat
    let x : ℚ := Claims.value fp32 b
    let n := Claims.neg fp32 b
    let word := fun (v : Nat) => BitVec.ofNat 32 v
    let nan := word (Claims.nanOf fp32)
    let zero := fun s => word (Claims.zeroOf fp32 s)
    let inf := fun s => word (Claims.infOf fp32 s)
    let fin := Claims.finite fp32 b
    (Claims.isNan fp32 b → ∀ code < 11, sfuFn code w = nan) ∧
    (Claims.isInf fp32 b →
      sfuFn 0 w = zero n ∧ sfuFn 1 w = (if n then nan else zero false) ∧ sfuFn 2 w = (if n then nan else inf false) ∧
      sfuFn 3 w = (if n then zero false else inf false) ∧ sfuFn 4 w = (if n then nan else inf false) ∧ sfuFn 5 w = nan ∧ sfuFn 6 w = nan ∧
      sfuFn 7 w = (if n then 0xBF800000#32 else 0x3F800000#32) ∧ sfuFn 8 w = (if n then zero false else 0x3F800000#32) ∧
      sfuFn 9 w = (if n then zero false else inf false) ∧ sfuFn 10 w = (if n then nan else inf false)) ∧
    (fin → x = 0 →
      sfuFn 0 w = inf n ∧ sfuFn 1 w = inf n ∧ sfuFn 2 w = zero n ∧ sfuFn 3 w = 0x3F800000#32 ∧ sfuFn 4 w = inf true ∧ sfuFn 5 w = zero n ∧
      sfuFn 6 w = 0x3F800000#32 ∧ sfuFn 7 w = zero n ∧ sfuFn 8 w = 0x3F000000#32 ∧ sfuFn 9 w = 0x3F800000#32 ∧ sfuFn 10 w = inf true) ∧
    (fin → x ≠ 0 → Claims.IsRound fp32 0 (1 / (x : ℝ)) (sfuFn 0 w).toNat) ∧
    (fin → 0 < x →
      Claims.IsRound fp32 0 (1 / Real.sqrt x) (sfuFn 1 w).toNat ∧ Claims.IsRound fp32 0 (Real.sqrt x) (sfuFn 2 w).toNat) ∧
    (fin → x < 0 → sfuFn 1 w = nan ∧ sfuFn 2 w = nan ∧ sfuFn 4 w = nan ∧ sfuFn 10 w = nan) ∧
    (fin → x = 1 → sfuFn 4 w = zero false ∧ sfuFn 10 w = zero false) ∧
    (∀ k : ℤ, fin → x = k → x ≠ 0 → sfuFn 5 w = zero n) ∧
    (∀ k : ℤ, fin → x = k + 1 / 2 → sfuFn 6 w = zero false) ∧
    (∀ k : ℤ, fin → x = k → -149 ≤ k → k ≤ 127 → Claims.finite fp32 (sfuFn 3 w).toNat ∧ Claims.value fp32 (sfuFn 3 w).toNat = 2 ^ k) ∧
    (∀ k : ℤ, fin → x = k → 127 < k → sfuFn 3 w = inf false) ∧
    ∀ k : ℤ, fin → x = 2 ^ k → Claims.finite fp32 (sfuFn 4 w).toNat ∧ Claims.value fp32 (sfuFn 4 w).toNat = k

/-- R148 to R151: the arithmetic of OSMS, OSMN and BAL is that of FADD, FSUB, FMUL and FMAX in FP32 with RNE, and a quotient rounded once; EXP2 and
LOG2 are those of R141. OSMS takes one more score into a running maximum and sum; OSMN is the weight of a score over the sum. -/
def Claims.SoftmaxSteps : Prop :=
  (∀ a b : Word,
    fAdd a b = BitVec.ofNat 32 (feAdd fp32 0 a.toNat b.toNat 0) ∧ fSub a b = BitVec.ofNat 32 (feSub fp32 0 a.toNat b.toNat 0) ∧
    fMul a b = BitVec.ofNat 32 (feMul fp32 0 a.toNat b.toNat 0) ∧ fMax a b = BitVec.ofNat 32 (feMax fp32 0 a.toNat b.toNat 0) ∧
    fExp2 a = sfuFn 3 a ∧ fLog2 a = sfuFn 4 a) ∧
  (∀ a b : Word,
    let x : ℚ := Claims.value fp32 a.toNat
    let y : ℚ := Claims.value fp32 b.toNat
    let fin := fun (w : Word) => Claims.finite fp32 w.toNat
    let neg := Claims.neg fp32 a.toNat != Claims.neg fp32 b.toNat
    let nan := BitVec.ofNat 32 (Claims.nanOf fp32)
    (Claims.isNan fp32 a.toNat ∨ Claims.isNan fp32 b.toNat → fDiv a b = nan) ∧
    (fin a → fin b → x ≠ 0 → y ≠ 0 → Claims.IsRound fp32 0 ((x / y : ℚ) : ℝ) (fDiv a b).toNat) ∧
    (fin a → fin b → x = 0 → y = 0 → fDiv a b = nan) ∧
    (fin a → fin b → x = 0 → y ≠ 0 → fDiv a b = BitVec.ofNat 32 (Claims.zeroOf fp32 neg)) ∧
    (fin a → fin b → x ≠ 0 → y = 0 → fDiv a b = BitVec.ofNat 32 (Claims.infOf fp32 neg)) ∧
    (fin a → Claims.isInf fp32 b.toNat → fDiv a b = BitVec.ofNat 32 (Claims.zeroOf fp32 neg)) ∧
    (Claims.isInf fp32 a.toNat → Claims.isInf fp32 b.toNat → fDiv a b = nan) ∧
    (Claims.isInf fp32 a.toNat → fin b → fDiv a b = BitVec.ofNat 32 (Claims.infOf fp32 neg))) ∧
  ∀ m sum x : Word,
    let nan := BitVec.ofNat 32 (Claims.nanOf fp32)
    let has := fun (w : Word) => Claims.isNan fp32 w.toNat
    let val := fun (w : Word) => Claims.extended fp32 w.toNat
    (has m ∨ has sum ∨ has x → osmsFn m sum x = (nan, nan)) ∧
    (¬ has m → ¬ has sum → x = 0xFF800000#32 → osmsFn m sum x = (m, sum)) ∧
    (¬ has m → ¬ has sum → ¬ has x → x ≠ 0xFF800000#32 →
      (val x = val m → osmsFn m sum x = (m, fAdd sum 0x3F800000#32)) ∧
      (val m < val x → osmsFn m sum x = (x, fAdd (fMul sum (fExp2 (fSub m x))) 0x3F800000#32)) ∧
      (val x < val m → osmsFn m sum x = (m, fAdd sum (fExp2 (fSub x m))))) ∧
    osmnFn x m sum = fDiv (fExp2 (fSub x m)) sum

/-- R140 to R142, R148 to R151: an SFU function, OSMS or OSMN with room in the SFU queue of its scheduler and in the pending-write record takes
one entry of each, for the values that its function gives in each executing lane, and changes nothing else.
The values of RCP, RSQ and SQRT, and the special operands of every function, are as R141 says; those of OSMS and OSMN as R148 to R151 say.
It rests on choices of the model: log entry 12. -/
def Obligations.SfuInstructionsEnterTheQueue : Prop :=
  Claims.SfuValues ∧ Claims.SoftmaxSteps ∧
  (∀ p ∈ ([(.sfuRcp, 0), (.sfuRsq, 1), (.sfuSqrt, 2), (.sfuExp2, 3), (.sfuLog2, 4), (.sfuSinp, 5), (.sfuCosp, 6), (.sfuTanh, 7), (.sfuSigm, 8),
      (.sfuExp, 9), (.sfuLog, 10)] : List ((Hd → RegF → RegF → Instr) × Nat)), ∀ (h : Hd) (d a : RegF) (s : State),
    Issuing s → Ready s (isScalar d) [src a, dst d] → (vget [] (s.core s.myCore).sfu (schedOf s.team.tid)).length < 8 → pendCount s.team < 16 →
    ∃ t, exec (p.1 h d a) s = .next t ∧
      Ended (Claims.sfuQueued (afterReads s [src a, dst d]) (passes s (isScalar d))) t h 4 (passes s (isScalar d)) []
        [Claims.sfuPend s (codesOf s d 1) (writesOf s d.toNat (execLanes s (isScalar d)) fun l => sfuFn p.2 (rdv s a l))] [] 1
        (fieldsFrom a 1)) ∧
  (∀ (h : Hd) (d a : RegF) (s : State),
    let ops := [src a, { f := d.toNat, n := 2, ok := pairOk d, wr := true }]
    Issuing s → Ready s (isScalar d) ops → (vget [] (s.core s.myCore).sfu (schedOf s.team.tid)).length < 8 → pendCount s.team + 2 ≤ 16 →
    ∃ t, exec (.osms h d a) s = .next t ∧
      Ended (Claims.sfuQueued (afterReads s ops) (passes s (isScalar d))) t h 4 (passes s (isScalar d)) []
        [Claims.sfuPend s (codesOf s d 2) (writesOfN s d.toNat 2 (execLanes s (isScalar d)) fun k l =>
          let r := osmsFn (rdn s d 0 l) (rdn s d 1 l) (rdv s a l)
          if k = 0 then r.1 else r.2)] [] 1 (fieldsFrom a 1)) ∧
  ∀ (h : Hd) (d a b : RegF) (s : State), Issuing s → Ready s (isScalar d) [src a, srcPair b, dst d] →
    (vget [] (s.core s.myCore).sfu (schedOf s.team.tid)).length < 8 → pendCount s.team < 16 →
    ∃ t, exec (.osmn h d a b) s = .next t ∧
      Ended (Claims.sfuQueued (afterReads s [src a, srcPair b, dst d]) (passes s (isScalar d))) t h 4 (passes s (isScalar d)) []
        [Claims.sfuPend s (codesOf s d 1) (writesOf s d.toNat (execLanes s (isScalar d)) fun l =>
          osmnFn (rdv s a l) (rdn s b 0 l) (rdn s b 1 l))] [] 1 (fieldsFrom a 1) (fieldsFrom b 2)

/-- R25, R27, R131, R132, R136, R137, R138, R139, R143, R144, R145, R146: the unary FP operations and the packing instructions write their result; a NaN result is canonical. -/
def Obligations.FpUnaryPackingAndNanGiveTheirResult : Prop := Claims.FpUnaryAndPackingWriteTheirResult ∧ Claims.FpNanIsCanonical
/-! ### Cross-lane operations -/

/-- The tiles that an instruction works on (R182, R185): with a scalar D the whole team, else the tiles of the partition. -/
def Claims.tiles (s : State) (d : RegF) : List (List Nat) :=
  if isScalar d then [lanesOf s.team.active] else tilesOf (tileSize s.team.ptile.toNat) (lanesOf s.team.active)

/-- The value that a lane offers: a special is one value for all of them (R14, R155, R185). -/
def Claims.offer (s : State) (a : RegF) (l : Nat) : Word := rdv s a (if 120 ≤ a.toNat then lowestLane s.team.active else l)

/-- The values that the lanes of a tile offer. -/
def Claims.offered (s : State) (a : RegF) (tile : List Nat) : List (Nat × Word) := tile.map fun l => (l, Claims.offer s a l)

/-- The writes of a result that each tile takes from its offered values. -/
def Claims.tileWrites (s : State) (d a : RegF) (n : Nat) (f : List (Nat × Word) → Nat → Nat → Word) : List RegWrite :=
  (Claims.tiles s d).flatMap fun tile =>
    writesOfN s d.toNat n (if isScalar d then tile.take 1 else tile) (f (Claims.offered s a tile))

/-- R184 to R186, R195: a VOTE whose operands are ready has its result outstanding in every lane of each tile, by its code, and changes
nothing else. -/
def Claims.VotesGiveTheirResult : Prop :=
  ∀ p ∈ ([(.voteAny, fun _ vals _ => boolWord (vals.any fun x => x.2 != 0)),
      (.voteAll, fun _ vals _ => boolWord (vals.all fun x => x.2 != 0)),
      (.voteBallot, fun sc vals l => ballot sc vals l),
      (.voteCnt, fun _ vals _ => w32 (vals.countP fun x => x.2 != 0)),
      (.voteUni, fun _ vals _ => boolWord (vals.all fun x => x.2 == (vals.headD (0, 0)).2)),
      (.voteFirst, fun _ vals _ => (vals.headD (0, 0)).2)] : List ((Hd → RegF → RegF → Instr) × (Bool → List (Nat × Word) → Nat → Word))),
    ∀ (h : Hd) (d a : RegF) (s : State), Issuing s → Ready s false [src a, dst d] → pendCount s.team < 16 →
    ∃ t, exec (p.1 h d a) s = .next t ∧
      Ended (afterReads s [src a, dst d]) t h 4 (passesOf s.team) []
        [longPend s (passesOf s.team) false (codesOf s d 1) (Claims.tileWrites s d a 1 fun vals _ l => p.2 (isScalar d) vals l)
          (crossDelay s (isScalar d) 4 6 2)] [] 1 (fieldsFrom a 1)

/-- R189 to R192, R195: a RED whose operands are ready has its result outstanding in every lane of each tile, MAXI and MINI with their index
register, and changes nothing else. -/
def Claims.ReductionsGiveTheirResult : Prop :=
  (∀ p ∈ ([(.redAdd, false, foldAdd), (.redFadd, true, foldFadd), (.redMin, false, foldMin), (.redMax, false, foldMax), (.redAnd, false, foldAnd),
      (.redOr, false, foldOr), (.redXor, false, foldXor)] : List ((Hd → RegF → RegF → Instr) × Bool × (List Word → Word))),
    ∀ (h : Hd) (d a : RegF) (s : State), Issuing s → Ready s false [src a, dst d] → pendCount s.team < 16 →
    ∃ t, exec (p.1 h d a) s = .next t ∧
      Ended (afterReads s [src a, dst d]) t h 4 (passesOf s.team) []
        [longPend s (passesOf s.team) false (codesOf s d 1) (Claims.tileWrites s d a 1 fun vals _ _ => p.2.2 (vals.map (·.2)))
          (if p.2.1 then crossDelay s (isScalar d) 6 10 2 else crossDelay s (isScalar d) 4 6 2)] [] 1 (fieldsFrom a 1)) ∧
  ∀ p ∈ ([(.redMaxi, rankMax), (.redMini, rankMin)] : List ((Hd → RegF → RegF → Instr) × (List (Nat × Word) → Nat × Word))),
    ∀ (h : Hd) (d a : RegF) (s : State), Issuing s → Ready s false [src a, dstPair d] → pendCount s.team + 2 ≤ 16 →
    ∃ t, exec (p.1 h d a) s = .next t ∧
      Ended (afterReads s [src a, dstPair d]) t h 4 (passesOf s.team) []
        [longPend s (passesOf s.team) false (codesOf s d 2)
          (Claims.tileWrites s d a 2 fun vals k _ => if k = 0 then rankValue (p.2 vals).2 else w32 (posOf s (isScalar d) (p.2 vals).1))
          (crossDelay s (isScalar d) 4 6 2)] [] 1 (fieldsFrom a 1)

/-- R187, R188, R193 to R195: SHFL, SHFX, SCAN and TOPK with a vector D, the count of TOPK within the tile, and BSCL (R147), whose operands are
ready, have their result outstanding in each lane and change nothing else.
It rests on choices of the model: log entries 46 (where a special A, and B of TOPK, is read) and 47. -/
def Obligations.ShufflesScansAndTopkGiveTheirResult : Prop :=
  (∀ p ∈ ([(.shfl, fun _ q => q), (.shfx, fun l q => Nat.xor l q)] : List ((Hd → RegF → RegF → RegF → Instr) × (Nat → Nat → Nat))),
    ∀ (h : Hd) (d a b : RegF) (s : State), Issuing s → Ready s false [src a, src b, dst d] → d.toNat < 96 → pendCount s.team < 16 →
    ∃ t, exec (p.1 h d a b) s = .next t ∧
      Ended (afterReads s [src a, src b, dst d]) t h 4 (passesOf s.team) []
        [longPend s (passesOf s.team) false (codesOf s d 1) (writesOf s d.toNat (lanesOf s.team.active) fun l =>
            let z := tileSize s.team.ptile.toNat
            let m := l / z * z + p.2 (l % z) ((rdv s b l).toNat % z)
            if s.team.active.getLsbD m then Claims.offer s a m else Claims.offer s a l)
          (crossDelay s false 4 6 2)] [] 1 (fieldsFrom a 1) (fieldsFrom b 1)) ∧
  (∀ p ∈ ([(.scanAdd, false, foldAdd), (.scanFadd, true, foldFadd), (.scanMin, false, foldMin), (.scanMax, false, foldMax), (.scanAnd, false, foldAnd),
      (.scanOr, false, foldOr), (.scanXor, false, foldXor)] : List ((Hd → RegF → RegF → Bool → Instr) × Bool × (List Word → Word))),
    ∀ (h : Hd) (d a : RegF) (e : Bool) (s : State), Issuing s → Ready s false [src a, dst d] → d.toNat < 96 → pendCount s.team < 16 →
    ∃ t, exec (p.1 h d a e) s = .next t ∧
      Ended (afterReads s [src a, dst d]) t h 4 (passesOf s.team) []
        [longPend s (passesOf s.team) false (codesOf s d 1) ((Claims.tiles s d).flatMap fun tile => writesOf s d.toNat tile fun l =>
            p.2.2 ((tile.filter fun m => if e then m < l else m ≤ l).map fun m => Claims.offer s a m))
          (if p.2.1 then crossDelay s false 6 10 2 else crossDelay s false 4 6 2)] [] 1 (fieldsFrom a 1)) ∧
  (∀ (h : Hd) (d a b : RegF) (s : State), Issuing s → Ready s false [src a, src b, dstPair d] → d.toNat < 96 → 96 ≤ b.toNat →
    1 ≤ (rdu s b).toNat → (rdu s b).toNat ≤ 8 → (rdu s b).toNat ≤ tileSize s.team.ptile.toNat → pendCount s.team + 2 ≤ 16 →
    ∃ t, exec (.topk h d a b) s = .next t ∧
      Ended (afterReads s [src a, src b, dstPair d]) t h 4 (passesOf s.team) []
        [longPend s (passesOf s.team) false (codesOf s d 2) ((Claims.tiles s d).flatMap fun tile => writesOfN s d.toNat 2 tile fun r l =>
            let z := tileSize s.team.ptile.toNat
            match (rankSort (Claims.offered s a tile))[l % z]? with
            | some w => if l % z < (rdu s b).toNat then (if r = 0 then rankValue w.2 else w32 (w.1 % z))
              else if r = 0 then 0xFF800000#32 else 0xFFFFFFFF#32
            | none => if r = 0 then 0xFF800000#32 else 0xFFFFFFFF#32)
          (crossDelay s false 10 14 4)] [] 1 (fieldsFrom a 1) (fieldsFrom b 1)) ∧
  ∀ (h : Hd) (d a : RegF) (s : State), Issuing s → Ready s false [src a, dst d] → d.toNat < 96 → maNarrow (fmtNf s) = true → pendCount s.team < 16 →
    ∃ t, exec (.cvnBscl h d a) s = .next t ∧
      Ended (afterReads s [src a, dst d]) t h 4 (passesOf s.team) []
        [longPend s (passesOf s.team) false (codesOf s d 1) ((Claims.tiles s d).flatMap fun tile => writesOf s d.toNat tile fun _ =>
            w32 (blockScale (fmtNf s) (tile.map fun l => dec32 (rdv s a l))))
          (crossDelay s false 4 6 2)] [] 1 (fieldsFrom a 1)

/-- R184, R185, R186, R189, R190, R191, R192, R195: Votes and reductions give their result in every form.
It rests on choices of the model: log entries 46 and 47. -/
def Obligations.VotesAndReductionsGiveTheirResult : Prop := Claims.VotesGiveTheirResult ∧ Claims.ReductionsGiveTheirResult
/-! ### Control flow -/

/-- The target of a branch (R60): the PC plus four times the signed literal. -/
def Claims.target (s : State) (l : Word) : VAddr := s.team.pc + BitVec.ofInt 57 (4 * l.toInt)

/-- R60, R116: BRA goes to its target; BRA.NZ and BRA.Z go there exactly when the scalar or special A is not zero, and is zero, else to the
next instruction. Nothing else changes. -/
def Claims.BranchesGoWhereTheySay : Prop :=
  (∀ (h : Hd) (l : Word) (s : State), Issuing s → ∃ t, exec (.bra h l) s = .next t ∧ Jumped s t h 1 (Claims.target s l) s.team) ∧
  ∀ p ∈ ([(.braNz, fun w => w != 0), (.braZ, fun w => w == 0)] : List ((Hd → RegF → Word → Instr) × (Word → Bool))),
    ∀ (h : Hd) (a : RegF) (l : Word) (s : State), Issuing s → Ready s false [src a] → 96 ≤ a.toNat →
    ∃ t, exec (p.1 h a l) s = .next t ∧
      Jumped (afterReads s [src a]) t h 1 (if p.2 (rdu s a) then Claims.target s l else s.team.pc + 8) (afterReads s [src a]).team
        (fieldsFrom a 1)

/-- The active lanes whose A is taken by a BRD. -/
def Claims.takenBy (s : State) (a : RegF) (p : Word → Bool) : Mask := maskOf ((lanesOf s.team.active).filter fun l => p (rdv s a l))

/-- R117, R157: BRD takes all active lanes, none, or some. Where it takes all it goes to its target; where none, to the next instruction.
Where it takes some, the lanes not taken go on in sequence, and a PENDING entry with the target, the taken lanes and the format register goes
onto the stack. -/
def Claims.DivergentBranchSplitsTheMask : Prop :=
  ∀ p ∈ ([(.brd, fun w => w != 0), (.brdZ, fun w => w == 0)] : List ((Hd → RegF → Word → Instr) × (Word → Bool))),
    ∀ (h : Hd) (a : RegF) (l : Word) (s : State), Issuing s → Ready s false [src a] →
      (Claims.takenBy s a p.2 = s.team.active ∨ Claims.takenBy s a p.2 = 0 ∨ s.team.rstack.length < 64) →
    ∃ t, exec (p.1 h a l) s = .next t ∧
      (Claims.takenBy s a p.2 = s.team.active →
        Jumped (afterReads s [src a]) t h (passesOf s.team) (Claims.target s l) (afterReads s [src a]).team (fieldsFrom a 1)) ∧
      (Claims.takenBy s a p.2 ≠ s.team.active → Claims.takenBy s a p.2 = 0 →
        Jumped (afterReads s [src a]) t h (passesOf s.team) (s.team.pc + 8) (afterReads s [src a]).team (fieldsFrom a 1)) ∧
      (Claims.takenBy s a p.2 ≠ s.team.active → Claims.takenBy s a p.2 ≠ 0 →
        Jumped (afterReads s [src a]) t h (passesOf s.team) (s.team.pc + 8)
          (restack s.ac ({ pending := true, pc := Claims.target s l, mask := Claims.takenBy s a p.2, fmt := s.team.fmt } :: s.team.rstack)
            { (afterReads s [src a]).team with active := s.team.active &&& ~~~ Claims.takenBy s a p.2 })
          (fieldsFrom a 1))

/-- R118, R120, R121: SSY puts a join entry on the stack, CALL its return address on the call stack, RET goes to the newest return address,
and BRX and BRX.CALL go to the address in a pair; each needs room, or an entry, on its stack. -/
def Claims.StacksHoldReturnsAndJoins : Prop :=
  (∀ (h : Hd) (l : Word) (s : State), Issuing s → s.team.rstack.length < 64 →
    ∃ t, exec (.ssy h l) s = .next t ∧
      Jumped s t h 1 (s.team.pc + 8)
        (restack s.ac ({ pending := false, pc := Claims.target s l, mask := s.team.active, fmt := s.team.fmt } :: s.team.rstack) s.team)) ∧
  (∀ (h : Hd) (l : Word) (s : State), Issuing s → s.team.cstack.length < 16 →
    ∃ t, exec (.call h l) s = .next t ∧
      Jumped s t h 1 (Claims.target s l) { s.team with cstack := (s.team.pc + 8) :: s.team.cstack }) ∧
  (∀ (h : Hd) (pc : VAddr) (rest : List VAddr) (s : State), Issuing s → s.team.cstack = pc :: rest →
    ∃ t, exec (.ret h) s = .next t ∧ Jumped s t h 1 pc { s.team with cstack := rest }) ∧
  ∀ p ∈ ([(.brx, false), (.brxCall, true)] : List ((Hd → RegF → Instr) × Bool)), ∀ (h : Hd) (a : RegF) (s : State),
    let v := rdPair s a (lowestLane s.team.active)
    Issuing s → Ready s false [srcPair a] → isScalar a = true → v.toNat < 2 ^ 57 → v.toNat % 4 = 0 →
    (p.2 = true → s.team.cstack.length < 16) →
    ∃ t, exec (p.1 h a) s = .next t ∧
      Jumped (afterReads s [srcPair a]) t h 1 (v.extractLsb' 0 57) { (afterReads s [srcPair a]).team with
        cstack := if p.2 then (s.team.pc + 4) :: s.team.cstack else s.team.cstack } (fieldsFrom a 2)

/-- R115, R119: SYNC pops the topmost entry that holds a live lane: the active mask becomes its live lanes, the format register and the PC
become its own, and it leaves the stack with every entry above it. With no such entry it traps ILLOPND: the trap is requested, or entered, on
the state with the instruction booked. -/
def Claims.SyncPopsTheStack : Prop :=
  (∀ (h : Hd) (s : State) (dropped rest : List REntry) (e : REntry), Issuing s → s.team.rstack = dropped ++ e :: rest →
    (∀ x ∈ dropped, x.mask &&& s.team.live = 0) → e.mask &&& s.team.live ≠ 0 →
    ∃ t, exec (.sync h) s = .next t ∧
      Jumped s t h 1 e.pc (restack s.ac rest { s.team with active := e.mask &&& s.team.live, fmt := e.fmt })) ∧
  ∀ (h : Hd) (s : State), (∀ x ∈ s.team.rstack, x.mask &&& s.team.live = 0) →
    exec (.sync h) s = .next (trapI cILLOPND 4 (booked 1 s))

/-- The team without its active lanes: they leave the live mask and every entry of the stack (R122). -/
def Claims.withoutActive (t : Team) : Team :=
  { t with live := t.live &&& ~~~ t.active, rstack := t.rstack.map fun x => { x with mask := x.mask &&& ~~~ t.active } }

/-- R122, R352: EXIT outside handler mode parks its team until its results have landed and the stores and atomics of its active lanes have been
accepted, and in handler mode traps ILLOPND. EXIT_RETIRE retires the active lanes: every lane of the mask leaves the live mask and the stack;
POP resumes the topmost entry with live lanes left, behind the wait of an S marker for every store of the team (R21, R57); where no lane is left
the team ends, memory as it was and its stores still to be accepted left with its block (R160); where lanes are left but no entry holds one, it
traps ILLOPND and the lanes stay (R344).
It rests on choices of the model: log entry 60. -/
def Obligations.ExitRetiresTheActiveLanes : Prop :=
  (∀ (h : Hd) (s : State), Issuing s → s.team.hmode = false →
    ∃ t, exec (.exit h) s = .next t ∧ t = { booked 1 s with team := { (booked 1 s).team with park := .exit, swDue := h.sw } }) ∧
  (∀ (h : Hd) (s : State), Issuing s → s.team.hmode = true → exec (.exit h) s = .next (trapI cILLOPND 4 (booked 1 s))) ∧
  ∀ (s : State), s.team.present = true → s.sel.unit = s.team.tid → s.team.park = .exit → s.team.pend = [] →
    (∀ k ∈ s.team.stores, k.lanes &&& s.team.active = 0) → s.team.events = [] →
    (∀ (dropped rest : List REntry) (e : REntry), s.team.live &&& ~~~ s.team.active ≠ 0 → s.team.rstack = dropped ++ e :: rest →
      (∀ x ∈ dropped, x.mask &&& (s.team.live &&& ~~~ s.team.active) = 0) → e.mask &&& (s.team.live &&& ~~~ s.team.active) ≠ 0 →
      ∃ t, exec .exitRetire s = .next t ∧
        t = { s with team := { restack s.ac ((Claims.withoutActive s.team).rstack.drop (dropped.length + 1)) (Claims.withoutActive s.team) with
          active := e.mask &&& (s.team.live &&& ~~~ s.team.active), pc := e.pc, fmt := e.fmt
          ir := none, swDue := false, woke := none
          park := if s.team.swDue ∧ s.team.stores ≠ [] then .marker else .run
          stall := if s.team.swDue ∧ s.team.stores ≠ [] then s.team.stall else Park.exit.code
          readyAt := if s.team.swDue ∧ s.team.stores ≠ [] then s.team.readyAt else s.ac + 1 } }) ∧
    (s.team.live &&& ~~~ s.team.active = 0 → mget? s.teams s.team.tid = none →
      ∃ t, exec .exitRetire s = .next t ∧ t.hasTeam s.team.tid = false ∧ t.mem = s.mem ∧
        (s.team.stores = [] → t.blocks = s.blocks) ∧
        (t.block s.team.blk).tokens = (s.block s.team.blk).tokens ++ s.team.stores ∧
        (∀ k, { t.block k with tokens := [] } = { s.block k with tokens := [] }) ∧
        ((s.core (coreOf s.team.tid)).mat.trowel = none → t.team = {} ∧ t.teams = s.teams)) ∧
    (s.team.live &&& ~~~ s.team.active ≠ 0 → (∀ x ∈ s.team.rstack, x.mask &&& (s.team.live &&& ~~~ s.team.active) = 0) →
      exec .exitRetire s = .next (trapI cILLOPND 4 (s.onTeam fun t => { t with park := .run })))

/-- R60, R116, R117, R157: Branches, divergent or not. -/
def Obligations.BranchesSplitAndGoWhereTheySay : Prop := Claims.BranchesGoWhereTheySay ∧ Claims.DivergentBranchSplitsTheMask

/-- R115, R118, R119, R120, R121: Calls, returns, joins and SYNC. -/
def Obligations.StacksAndSyncRestoreTheirMasks : Prop := Claims.StacksHoldReturnsAndJoins ∧ Claims.SyncPopsTheStack
/-! ### The selected team -/

/-- The state with the team that the selection names in focus. -/
def Claims.sel (s : State) : State := s.focus s.sel.unit

/-- The state that a step on the selected team leaves, with the team that was in focus in focus again. -/
def Claims.ret (s t : State) : State :=
  if s.team.present ∧ s.team.tid = s.sel.unit then t else if s.team.present then t.focus s.team.tid else t

/-! ### Traps -/

/-- A trap raised on `s` (R344): it is entered at once when nothing is outstanding, else the team parks until it has drained. -/
def Claims.trapped (r : TrapReq) (s : State) : State :=
  let s' := { s with team := { s.team with trapReq := some r, park := .trap } }
  if s.team.pend = [] ∧ s.team.stores = [] then enterTrap s' else s'

/-- The mask that a trap saves as the active mask: the one to be restored during a partial re-execution (R344, R351). -/
def Claims.fullMask (t : Team) : Mask := match t.reexec with | some r => r.mask | none => t.active

/-- Where execution goes on after an instruction of `len` bytes (R113, R344): inside an expansion past the MCALL, or where a POP in it has led. -/
def Claims.past (t : Team) (len : Nat) : VAddr :=
  match t.mcall with
  | some m => (match m.ret with | some pc => pc | none => m.pc + 8)
  | none => t.pc + BitVec.ofNat 57 len

/-- R350, R374, R56 to R59: TRAP and BRK raise SWTRAP and BRKPT with their code, as events that resume after the instruction; a reserved
opcode raises ILLOP, and a reserved sub-operation ILLOP or, under BRA, MCTL and CWAIT, ILLOPND, to be executed again.
It rests on choices of the model: log entry 47 (a trapping instruction takes one pass), log entry 63 (the ILLOPND of code 3 of BRA, MCTL and CWAIT
comes before every check of R26) and log entry 66 (a POP inside an expansion). -/
def Obligations.TrapInstructionsRaiseTheirCause : Prop :=
  (∀ (h : Hd) (c : BitVec 7) (s : State),
    exec (.trap h c) s = .next (Claims.trapped
      { cause := cSWTRAP, sub := c.toNat, mask := s.team.active, saved := Claims.fullMask s.team, tpc := s.team.pc, event := true,
        tnext := Claims.past s.team 4 } (booked 1 s))) ∧
  (∀ (h : Hd) (c : BitVec 7) (s : State),
    exec (.brk h c) s = .next (Claims.trapped
      { cause := cBRKPT, sub := c.toNat, mask := s.team.active, saved := Claims.fullMask s.team, tpc := s.team.pc, event := true,
        tnext := Claims.past s.team 4 } (booked 1 s))) ∧
  (∀ (w : Word) (s : State),
    exec (.reservedOpcode w) s = .next (Claims.trapped
      { cause := cILLOP, mask := Claims.fullMask s.team, saved := Claims.fullMask s.team, tpc := s.team.pc
        tnext := Claims.past s.team (if w.getLsbD 30 && w.getLsbD 29 then 8 else 4) } (booked 1 s))) ∧
  ∀ (w : Word) (s : State),
    exec (.reservedSubOperation w) s = .next (Claims.trapped
      { cause := if (w.extractLsb' 24 7).toNat ∈ [0x69, 0x44, 0x3C] then cILLOPND else cILLOP
        mask := Claims.fullMask s.team, saved := Claims.fullMask s.team, tpc := s.team.pc
        tnext := Claims.past s.team (if w.getLsbD 30 && w.getLsbD 29 then 8 else 4) } (booked 1 s))

/-- R344 to R347: TRAP_ENTRY on a drained team with a handler saves the PC, the next PC, the mask, the format register, the window base and
the stack depths, writes TCAUSE and LCAUSE, sets handler mode, makes the entry mask active and goes to the handler, ready 8 ac later. Each
lane of the entry mask finds its fault address and its packed fault in the first three registers of the trap window. No other register, no
memory and nothing of another team changes. A trap of an access in flight (R245) saves the expansion that its instruction stood in, and keeps
the one that the team had reached. -/
def Claims.TrapEntrySavesTheTeam : Prop :=
  ∀ (s : State) (r : TrapReq) (hd : VAddr),
    let q := Claims.sel s
    s.hasTeam s.sel.unit = true → q.team.park = .trap → q.team.trapReq = some r → q.team.pend = [] → q.team.stores = [] →
    q.team.hmode = false → q.team.handler = some hd → q.team.nregs ≤ 248 →
    ∃ t, exec .trapEntry s = .next (Claims.ret s t) ∧ TraceOnly q t ∧
      t = { q with team := t.team, cores := t.cores, fresh := q.fresh + 13 * (lanesOf r.mask).length } ∧
      t.team = { q.team with
        v := t.team.v, vdead := t.team.vdead, rbad := t.team.rbad, tr := t.team.tr, hmode := true, pc := hd, active := r.mask, mcall := none, trapReq := none
        park := .run, reexec := none, failed := 0, failFetch := false, ir := none, walked := [], readyAt := q.ac + 8, stall := 0, swDue := false
        tstat := t.team.tstat, trap := t.team.trap } ∧
      (∀ i < 32, t.team.tstat.getLsbD i = if 16 ≤ i ∧ i < 22 then r.cause.testBit (i - 16) else q.team.tstat.getLsbD i) ∧
      t.team.trap.tpc = r.tpc ∧ t.team.trap.tnext = r.tnext ∧ t.team.trap.active = r.saved ∧ t.team.trap.entry = r.mask ∧
      t.team.trap.fmt = q.team.fmt ∧ t.team.trap.wbase = q.team.wbase ∧ t.team.trap.mcall = r.late.getD q.team.mcall ∧
      t.team.trap.late = r.late.isSome ∧ t.team.trap.back = (if r.late.isSome then q.team.mcall else none) ∧ t.team.trap.event = r.event ∧
      t.team.trap.rdepth = q.team.rstack.length ∧ t.team.trap.cdepth = q.team.cstack.length ∧ t.team.trap.ivlo = q.team.trap.ivlo ∧
      t.team.trap.tjob = r.tjob ∧ t.team.trap.tfaddr = r.tfaddr ∧
      (bitsOf t.team.trap.tcause.toNat 5 0 = r.cause % 64 ∧ bitsOf t.team.trap.tcause.toNat 15 8 = r.sub % 256 ∧
        bitsOf t.team.trap.tcause.toNat 20 16 = (((r.late.getD q.team.mcall).map (·.idx)).getD 0) % 32 ∧
        t.team.trap.tcause.getLsbD 21 = (r.late.getD q.team.mcall).isSome ∧ t.team.trap.tcause.getLsbD 22 = r.collpart) ∧
      (∀ l ∈ lanesOf r.mask,
        regBits t q.team.nregs l = (laneFaultOf r l).faddr.extractLsb' 0 32 ∧
        regBits t (q.team.nregs + 1) l = (laneFaultOf r l).faddr.extractLsb' 32 32 ∧
        regBits t (q.team.nregs + 2) l = faultWord (laneFaultOf r l)) ∧
      ∀ c l, regNamed c → l < 1024 → ¬ (l ∈ lanesOf r.mask ∧ q.team.nregs ≤ c ∧ c < q.team.nregs + 16) →
        regBits t c l = regBits q c l ∧ regBad t.team c l = regBad q.team c l

/-- R352: a trap that is entered in handler mode aborts the block with DOUBLE, and one of a team without a handler with its own cause. -/
def Claims.TrapWithoutAHandlerAborts : Prop :=
  ∀ (s : State) (r : TrapReq),
    let q := Claims.sel s
    s.hasTeam s.sel.unit = true → q.team.park = .trap → q.team.trapReq = some r → q.team.pend = [] → q.team.stores = [] →
    (q.team.hmode = true → exec .trapEntry s = .next (Claims.ret s (abortBlock q.team.blk 1 cDOUBLE q))) ∧
    (q.team.hmode = false → q.team.handler = none → exec .trapEntry s = .next (Claims.ret s (abortBlock q.team.blk 8 r.cause q)))

/-- The team that RETT leaves before its resumption (R351): user mode, the format register and window base as saved, the stacks at their
depths at entry. -/
def Claims.left (ac : Nat) (t : Team) : Team :=
  { restack ac (t.rstack.drop (t.rstack.length - t.trap.rdepth)) t with
    hmode := false, fmt := t.trap.fmt, wbase := t.trap.wbase, ir := none, walked := [], stall := 0
    cstack := t.cstack.drop (t.cstack.length - t.trap.cdepth), rwc := t.rwc + 1, promoted := false }

/-- Whether the instruction at the position of an expansion is its last, and the expansion after it. -/
def Claims.afterWord (m : MCall) : Option MCall :=
  let n := if ((m.words[m.idx]?).getD {}).word.getLsbD 30 && ((m.words[m.idx]?).getD {}).word.getLsbD 29 then 2 else 1
  if m.idx + n < m.words.length then some { m with idx := m.idx + n } else none

/-- R351: where a resumption at TNEXT goes on: the PC and the expansion. A TNEXT that the handler wrote leaves the expansion (R348); a boundary
event resumes it where it stands (R353); else its next control word follows at the PC of the MCALL, or what follows the expansion. A trap of an access in flight goes on where the team was (R245). -/
def Claims.onward (k : TrapState) : VAddr × Option MCall :=
  if k.late then (k.tnext, if k.wroteTnext then none else k.back)
  else match k.mcall with
    | none => (k.tnext, none)
    | some m =>
      if k.wroteTnext then (k.tnext, none) else if k.boundary then (k.tnext, some m)
      else match Claims.afterWord m with
        | some m' => (m.pc, some m')
        | none => (k.tnext, none)

/-- Whether the S marker of an MCALL falls due at that resumption: its last control word is behind it. -/
def Claims.onwardMarks (k : TrapState) : Bool :=
  match k.mcall with
  | some m => !k.late && !k.wroteTnext && !k.boundary && (Claims.afterWord m).isNone && m.sw
  | none => false

/-- R351, R357: RETT in handler mode, for a trap that names no engine job left to decide. After an event, and with .SKIP after any trap, the
team resumes at TNEXT with the saved mask. Otherwise it resumes at TPC, inside the expansion that it stood in, with the entry mask, to execute
the instruction again; where that mask is not the whole saved mask, the saved mask and TNEXT follow the re-execution. A target that is no
multiple of 4 traps ALIGN in every active lane, and RETT outside handler mode traps ILLOPND. -/
def Claims.ReturnFromTrapRestoresTheTeam : Prop :=
  ∀ p ∈ ([(.rett, false), (.rettSkip, true)] : List ((Hd → Instr) × Bool)), ∀ (h : Hd) (s : State),
    let k := s.team.trap
    let next := k.event || p.2
    Issuing s →
    (s.team.hmode = false → exec (p.1 h) s = .next (trapI cILLOPND 4 (booked 1 s))) ∧
    (s.team.hmode = true → (∃ v ∈ rettTargets k p.2, v.toNat % 4 ≠ 0) → exec (p.1 h) s = .next (trapAll { cause := cALIGN } 4 (booked 1 s))) ∧
    (s.team.hmode = true → (∀ v ∈ rettTargets k p.2, v.toNat % 4 = 0) → (k.jobctl = true ∨ k.tcause.toNat % 64 ≠ cENGFAULT) →
      ∃ t, exec (p.1 h) s = .next t ∧ TraceOnly s t ∧
        t = { s with
          team := { Claims.left s.ac s.team with
            tr := t.team.tr, lastIssue := s.ac
            pc := if next then (Claims.onward k).1 else k.tpc
            mcall := if next then (Claims.onward k).2 else if k.wroteTpc then none else k.mcall
            active := if next then k.active else k.entry
            reexec := if k.event then k.reexec else if p.2 then s.team.reexec else if k.entry = k.active ∧ k.late = false then none
              else some { mask := k.active, next := k.tnext, direct := k.wroteTnext || k.late, back := if k.wroteTnext then none else k.back }
            failed := if k.event then k.oldFailed else if p.2 then s.team.failed else k.failed
            failFetch := if k.event then k.oldFailFetch else if p.2 then s.team.failFetch else k.lanes.any fun x => x.2.kind == 3
            park := if (h.sw || (next && Claims.onwardMarks k)) && !drained s.team then .marker else .run }
          cores := t.cores
          busy := mput s.busy (s.team.tid / 16) (s.ac + 1)
          issuer := mput s.issuer (s.team.tid / 16) s.team.age })

/-! ### System registers -/

/-- R348, R349, R376, R425: a SYS.RD of a register that only answers a value writes it to a scalar D. -/
def Claims.SystemReadsAnswerTheRegister : Prop :=
  ∀ p ∈ ([(0x00, false, fun s => s.team.tstat), (0x01, true, fun s => s.team.trap.tpc.extractLsb' 0 32),
      (0x02, true, fun s => (s.team.trap.tpc.extractLsb' 32 25).zeroExtend 32), (0x03, true, fun s => s.team.trap.tnext.extractLsb' 0 32),
      (0x04, true, fun s => (s.team.trap.tnext.extractLsb' 32 25).zeroExtend 32), (0x05, true, fun s => s.team.trap.tcause),
      (0x06, true, fun s => s.team.trap.tjob), (0x0A, false, fun s => w32 s.prlate), (0x0B, false, fun s => w32 (s.myCtx % 2 ^ 16)),
      (0x0C, false, fun s => w32 s.myBlock.voff), (0x0D, false, fun s => gstatWord s.myGrid),
      (0x0E, true, fun s => s.team.trap.tfaddr.extractLsb' 0 32), (0x0F, true, fun s => s.team.trap.tfaddr.extractLsb' 32 32),
      (0x10, false, fun s => s.team.rwc.extractLsb' 0 32), (0x11, false, fun s => s.team.rwc.extractLsb' 32 32),
      (0x12, true, fun s => s.cecount), (0x13, true, fun s => s.team.trap.ivlo),
      (0x18, false, fun s => if s.myBlock.matuse then (s.core s.myCore).mat.mstat else 0)] : List (BitVec 6 × Bool × (State → Word))),
    ∀ (h : Hd) (d : RegF) (s : State), Issuing s → Ready s true [dst d] → isScalar d = true → (p.2.1 = true → s.team.hmode = true) →
    ∃ t, exec (.sysRd h d p.1) s = .next t ∧ Ended s t h 4 1 [⟨0, regCode s.team d.toNat, p.2.2 s⟩] [] [] 0

/-- R18, R316, R348, R349, R357, R425: a SYS.WR of TSTAT or MSTAT in any mode, and of the other writable registers in handler mode, writes
the register as its rule says; a write of IVHI parks the team until the invalidation. -/
def Claims.SystemWritesSetTheRegister : Prop :=
  ∀ (h : Hd) (a : RegF) (s : State), Issuing s → Ready s true [src a] →
    let q := afterReads s [src a]
    let w := rdu s a
    (∃ t, exec (.sysWr h a 0x00) s = .next t ∧ Ended (q.onTeam fun k => { k with tstat := tstatWrite k.tstat w }) t h 4 1 [] [] [] 0 (fieldsFrom a 1)) ∧
    (s.myBlock.matuse = true → ∃ t, exec (.sysWr h a 0x18) s = .next t ∧
      Ended (q.onCore q.myCore fun c => { c with mat := { c.mat with mstat := mstatWrite c.mat.mstat w } }) t h 4 1 [] [] [] 0 (fieldsFrom a 1)) ∧
    (s.team.hmode = true →
      (∀ p ∈ ([(0x01, fun k => { k with tpc := k.tpc.extractLsb' 32 25 ++ w, wroteTpc := true }),
          (0x02, fun k => { k with tpc := w.extractLsb' 0 25 ++ k.tpc.extractLsb' 0 32, wroteTpc := true }),
          (0x03, fun k => { k with tnext := k.tnext.extractLsb' 32 25 ++ w, wroteTnext := true }),
          (0x04, fun k => { k with tnext := w.extractLsb' 0 25 ++ k.tnext.extractLsb' 0 32, wroteTnext := true }),
          (0x13, fun k => { k with ivlo := w &&& 0xFFFFF000#32 })] : List (BitVec 6 × (TrapState → TrapState))),
        ∃ t, exec (.sysWr h a p.1) s = .next t ∧ Ended (q.onTeam fun k => { k with trap := p.2 k.trap }) t h 4 1 [] [] [] 0 (fieldsFrom a 1)) ∧
      (∃ t, exec (.sysWr h a 0x07) s = .next t ∧
        Ended (if w = 1 then jobctl true q else if w = 2 then jobctl false q else q) t h 4 1 [] [] [] 0 (fieldsFrom a 1)) ∧
      (∃ t, exec (.sysWr h a 0x12) s = .next t ∧ Ended { q with cecount := cecountWrite q.cecount w } t h 4 1 [] [] [] 0 (fieldsFrom a 1)) ∧
      ∃ t, Ended q t h 4 1 [] [] [] 0 (fieldsFrom a 1) ∧
        exec (.sysWr h a 0x14) s = .next (parkAt (.inval (w.getLsbD 31) (s.team.trap.ivlo.toNat + (w.toNat % 2 ^ 25) * 2 ^ 32)) t))

/-- R348, R349: outside handler mode the registers of the handler can be neither read nor written: SYS traps ILLOPND with no effect. -/
def Claims.HandlerRegistersTrapInUserMode : Prop :=
  ∀ i ∈ ([0x01, 0x02, 0x03, 0x04, 0x05, 0x06, 0x07, 0x08, 0x09, 0x0E, 0x0F, 0x12, 0x13, 0x14] : List (BitVec 6)), ∀ (h : Hd) (s : State),
    s.team.hmode = false →
    (∀ d, Ready s true [dst d] → isScalar d = true → exec (.sysRd h d i) s = .next (trapI cILLOPND 4 (booked 1 s))) ∧
    ∀ a, Ready s true [src a] → exec (.sysWr h a i) s = .next (trapI cILLOPND 4 (booked 1 (afterReads s [src a])))

/-- R18, R316, R348, R355 to R357, R425: the rows of the table that are the effects of SYS on the selected team. TSTAT, MSTAT and CECOUNT
lose the bits that their rules name; JOBCTL decides the job of the trap; an IVHI write drops the translations it names and its team goes on. -/
def Claims.SystemRegisterRowsTakeEffect : Prop :=
  (∀ s : State, s.hasTeam s.sel.unit = true → ∃ x : Word,
    (∀ i < 32, x.getLsbD i = if i = 1 then s.sel.word.testBit 1 else
      (Claims.sel s).team.tstat.getLsbD i && !(decide (i = 0 ∨ i = 3 ∨ i = 4) && s.sel.word.testBit i)) ∧
    exec .tstatWrite s = .next (Claims.ret s { Claims.sel s with team := { (Claims.sel s).team with tstat := x } })) ∧
  (∀ s : State, s.hasTeam s.sel.unit = true → (Claims.sel s).myBlock.matuse = true → ∃ x : Word,
    (∀ i < 32, x.getLsbD i = ((((Claims.sel s).core (Claims.sel s).myCore).mat.mstat).getLsbD i && !(decide (i < 3) && s.sel.word.testBit i))) ∧
    exec .mstatWrite s = .next (Claims.ret s ((Claims.sel s).onCore (Claims.sel s).myCore fun c => { c with mat := { c.mat with mstat := x } }))) ∧
  (∀ s : State, s.hasTeam s.sel.unit = true → ∃ x : Word,
    (∀ k < 4, x.extractLsb' (8 * k) 8 = if (Claims.sel s).team.hmode && (w32 s.sel.word).extractLsb' (8 * k) 8 == 0xFF#8 then 0
      else s.cecount.extractLsb' (8 * k) 8) ∧
    exec .cecountWrite s = .next (Claims.ret s { Claims.sel s with cecount := x })) ∧
  (∀ p ∈ ([(.jobctlResume, true), (.jobctlAbandon, false)] : List (Instr × Bool)), ∀ s : State,
    s.hasTeam s.sel.unit = true → (Claims.sel s).team.hmode = true →
    let q := decideJob p.2 (Claims.sel s)
    exec p.1 s = .next (Claims.ret s { q with team := { q.team with trap := { q.team.trap with jobctl := true } } })) ∧
  ∀ p ∈ ([(.ivhiInvalidatePage, false), (.ivhiInvalidateAll, true)] : List (Instr × Bool)), ∀ (s : State) (va : Nat),
    s.hasTeam s.sel.unit = true → (Claims.sel s).team.park = .inval p.2 va →
    exec p.1 s = .next (Claims.ret s (unpark (invalidate (Claims.sel s).myCtx
      (fun base size => p.2 || decide (base ≤ va ∧ va < base + size)) (Claims.sel s))))

/-- R355: FTMAP on one candidate whose walk reaches an entry of its level. An entry that is a leaf by now stays, and counts in neither field; one of
type 3, with a frame of its size in the pool, becomes a leaf with that frame: the frame is zeroed and leaves the pool, TYPE and FRAME of the entry
change and its other fields stay, memory changes nowhere else but by the release at DEV, and it counts as mapped; any other entry stays and counts
as left unmapped. `s.split` and the frame are as the host sets them up: the frame lies in the package's HBM, apart from the entry. -/
def Claims.FtmapMapsACandidate : Prop :=
  ∀ (s : State) (level va pa : Nat), level ≤ 1 → entryFrom s va level 6 (s.ctx s.myCtx).root = some pa →
    let e := leNat (readPa s pa 8)
    let type := e / 2 ^ 9 % 8
    let c := s.ctx s.myCtx
    let size := if level = 0 then 4096 else 65536
    (type = 2 → ftmapPage (level, va) s = (0, 0, s)) ∧
    (type ≠ 2 → type ≠ 3 ∨ (if level = 0 then c.pool4 else c.pool64) = [] → ftmapPage (level, va) s = (0, 1, s)) ∧
    ∀ (f : Nat) (rest : List Nat), type = 3 → (if level = 0 then c.pool4 else c.pool64) = f :: rest →
      f % size = 0 → f < 2 ^ 56 → s.split % 4096 = 0 → Memory.wf s.mem = true →
      (∀ i < size, ∃ k, paKind s.split (f + i) = .hbm k) → (∀ i < 8, ∃ k, paKey s (pa + i) = some k ∧ ∀ j < size, paKey s (f + j) ≠ some k) →
      (∀ i l, mget? (s.core s.myCore).lines i = some l →
        l.written &&& ~~~ l.valid = 0 ∧ i / 8 = l.tag % 256 ∧ ∀ j m, mget? (s.core s.myCore).lines j = some m → m.tag = l.tag → i = j) →
      ∃ t, ftmapPage (level, va) s = (1, 0, t) ∧
        (if level = 0 then (t.ctx s.myCtx).pool4 else (t.ctx s.myCtx).pool64) = rest ∧
        (∀ i < size, readPa t (f + i) 1 = [0]) ∧
        (∀ i < 64, (leNat (readPa t pa 8)).testBit i =
          if 9 ≤ i ∧ i ≤ 11 then (2 : Nat).testBit (i - 9) else if 12 ≤ i ∧ i ≤ 55 then f.testBit i else e.testBit i) ∧
        ∀ k, (∀ i < size, paKey s (f + i) ≠ some k) → (∀ i < 8, paKey s (pa + i) ≠ some k) →
          memByte t.mem k = memByte (releaseCache s.myCore 4 s).mem k

/-- R355: a candidate whose walk meets no entry of its level is left unmapped, and counts so. -/
def Claims.FtmapLeavesAnUnreachedPage : Prop :=
  ∀ (s : State) (level va : Nat), entryFrom s va level 6 (s.ctx s.myCtx).root = none → ftmapPage (level, va) s = (0, 1, s)

/-- R355, R356: FTMAP maps or leaves each candidate page and writes both counts to its register; HOSTREQ sends its requests while the table
has room, and with every request answered writes the number of lanes refused. Both end the park of their team. A candidate is a page of a lane
whose fault found type 3 at L0 or L1. -/
def Claims.FaultServicesAnswerTheHandler : Prop :=
  (∀ (s : State) (reg : Nat), s.hasTeam s.sel.unit = true → (Claims.sel s).team.park = .ftmap reg →
    let q := Claims.sel s
    let pages := faultPages q.team fun f => f.ptype == 3 && decide (f.level ≤ 1)
    (∀ p ∈ pages, walkReaches q q.myCore q.myCtx p.2 = true) →
    (∀ p ∈ pages, p.1 ≤ 1 ∧ ∃ x ∈ q.team.trap.lanes, x.2.cause = cPAGE ∧ x.2.ptype = 3 ∧ x.2.level = p.1 ∧
      p.2 = x.2.faddr.toNat / (if p.1 = 0 then 4096 else 65536) * (if p.1 = 0 then 4096 else 65536)) ∧ pages.Nodup ∧
    let r := pages.foldl (fun (acc : Nat × Nat × State) p =>
      (acc.1 + (ftmapPage p acc.2.2).1, acc.2.1 + (ftmapPage p acc.2.2).2.1, (ftmapPage p acc.2.2).2.2)) (0, 0, q)
    exec .ftmap s = .next (Claims.ret s (unpark (r.2.2.onTeam (writeReg reg 0 (w32 (r.1 % 2 ^ 16 + r.2.1 % 2 ^ 16 * 2 ^ 16))))))) ∧
  ∀ (s : State) (reg : Nat) (todo : List (Nat × Nat × Nat)) (refused : Mask), s.hasTeam s.sel.unit = true →
    (Claims.sel s).team.park = .hostreq reg todo refused →
    let q := (todo.take (256 - (Claims.sel s).preq.length)).foldl sendRequest (Claims.sel s)
    let rest := todo.drop (256 - (Claims.sel s).preq.length)
    exec .hostreq s = .next (Claims.ret s (
      if rest = [] ∧ ∀ x ∈ q.preq, x.tid ≠ (Claims.sel s).team.tid then unpark (q.onTeam (writeReg reg 0 (w32 (maskCount refused))))
      else q.onTeam fun t => { t with park := .hostreq reg rest refused }))

/-- R344, R345, R346, R347, R351, R352, R357: Trap entry, the abort without a handler, and RETT.
It rests on choices of the model: log entries 22, 23, 41, 45 (a trap of an access in flight), 47 (RETT takes one pass) and 48. -/
def Obligations.TrapsAreEnteredAndReturnedFrom : Prop := Claims.TrapEntrySavesTheTeam ∧ Claims.TrapWithoutAHandlerAborts ∧ Claims.ReturnFromTrapRestoresTheTeam

/-- R18, R316, R348, R349, R355, R356, R357, R376, R425: SYS reads and writes, and the effects of the system registers.
It rests on choices of the model: log entries 3, 10 and 51. -/
def Obligations.SystemRegistersAreReadAndWritten : Prop := Claims.SystemReadsAnswerTheRegister ∧ Claims.SystemWritesSetTheRegister ∧ Claims.SystemRegisterRowsTakeEffect

/-- R348, R349, R355, R356: The registers of a handler: trapping outside one, and the fault services within.
It rests on choices of the model: log entries 14 (what no port reaches waits), 25 and 40. -/
def Obligations.HandlersAreServed : Prop :=
  Claims.HandlerRegistersTrapInUserMode ∧ Claims.FtmapMapsACandidate ∧ Claims.FtmapLeavesAnUnreachedPage ∧ Claims.FaultServicesAnswerTheHandler

/-! ### Memory -/

/-- The number whose bytes, least significant first, lie in memory from a byte key (R222). -/
def Claims.number (s : State) (k w : Nat) : Nat := ((List.range w).map fun i => (memByte s.mem (k + i)).toNat * 2 ^ (8 * i)).sum

/-- R127: the value of register `k` of a load of `w` bytes that form the number `n`. -/
def Claims.loaded (w : Nat) (sx : Bool) (n k : Nat) : Word :=
  if k = 1 then BitVec.ofNat 32 (n / 2 ^ 32) else if sx ∧ w < 4 then BitVec.ofInt 32 (sextInt (8 * w) n) else BitVec.ofNat 32 n

/-- R127: byte `i` of what a store takes from D in a lane. -/
def Claims.storedByte (s : State) (d : RegF) (lane i : Nat) : Byte :=
  BitVec.ofNat 8 ((rdn s d (i / 4) lane).toNat / 2 ^ (8 * (i % 4)))

/-- The byte key of a lane's access to the region of a vault access (R130, R223). -/
def Claims.vaultAt (s : State) (a b : RegF) (l : Word) (r : Block) (n : Nat) : Nat :=
  vaultKey r.core (r.voff + (laneOff (rdv s a n) (vaultDisp b l)).toNat)

/-- R128, R130: the offsets of every executing lane are aligned and in the region, no lane is marked failed, and no atomic of the team that
is still to be applied touches the bytes (R222). -/
def Claims.vaultFits (s : State) (u : Bool) (a b : RegF) (l : Word) (r : Block) : Prop :=
  s.team.failed = 0 ∧ ∀ n ∈ execLanes s u, 0 ≤ laneOff (rdv s a n) (vaultDisp b l) ∧
    laneOff (rdv s a n) (vaultDisp b l) + widthOf b ≤ r.vbytes ∧ laneOff (rdv s a n) (vaultDisp b l) % widthOf b = 0 ∧
    atomWaits s (Claims.vaultAt s a b l r n) (widthOf b) = false

/-- R126 to R128, R130, R226: an LDV whose lanes are aligned, in the region and on present lines leaves its result outstanding: each register
takes the bytes at its lane's offset, extended by SX. With ORD 1 it first does the cache actions of its scope. Nothing else changes, no byte
of memory. -/
def Claims.VaultLoadsReadTheVault : Prop :=
  ∀ (h : Hd) (d a b : RegF) (l : Word) (s : State) (r : Block),
    let u := isScalar d
    let ops := [src a, dataOpnd false d (widthOf b)]
    let lanes := execLanes s u
    Issuing s → Ready s u ops → litScope l < 6 → litOrd l < 2 → acqPending s.team = false → vaultRegion s b l = some r →
    Claims.vaultFits s u a b l r →
    (∀ n ∈ lanes, ∀ i < widthOf b,
      (s.core r.core).absent.contains ((r.voff + (laneOff (rdv s a n) (vaultDisp b l)).toNat + i) / 128) = false) →
    (∀ n ∈ lanes, badAt s (Claims.vaultAt s a b l r n) (widthOf b) = false) → pendCount s.team + dataRegs (widthOf b) ≤ 16 →
    ∃ t, exec (.ldv h d a b l) s = .next t ∧ (lanes ≠ [] →
      Ended (if litOrd l = 1 then acquireCache s.myCore (litScope l) (afterReads s ops) else afterReads s ops) t h 8 (passes s u) []
        [{ tag := s.nextTag, pc := s.team.pc, regs := codesOf s d (dataRegs (widthOf b)), mem := true
           due := s.ac + (passes s u - 1), usual := s.ac + (passes s u - 1) + usualVault s r
           writes := lanes.flatMap fun n => writesOfN s d.toNat (dataRegs (widthOf b)) [n] fun k _ =>
             Claims.loaded (widthOf b) (sxOf b) (Claims.number s (Claims.vaultAt s a b l r n) (widthOf b)) k }] [] 1 (fieldsFrom a 1) ∧
      t.mem = s.mem)

/-- The state after the stores of an STV, lane by lane in ascending order; each sets the presence bit of its line (R130, R226). -/
def Claims.vaultStored (s : State) (a b d : RegF) (l : Word) (r : Block) (lanes : List Nat) (q : State) : State :=
  lanes.foldl (fun q n =>
    let off := r.voff + (laneOff (rdv s a n) (vaultDisp b l)).toNat
    presenceSet r.core (off / 128) (q.store (vaultKey r.core off) ((List.range (widthOf b)).map (Claims.storedByte s d n)))) q

/-- R127, R130, R222, R226: an STV whose lanes are aligned and in the region stores the bytes of D at each lane's offset, the later lane
winning where two meet; every byte outside is as before, the release actions of ORD 2 apart. -/
def Claims.VaultStoresWriteTheVault : Prop :=
  ∀ (h : Hd) (d a b : RegF) (l : Word) (s : State) (r : Block),
    let u := isScalar d
    let ops := [src a, dataOpnd true d (widthOf b)]
    let lanes := execLanes s u
    let q := if litOrd l = 2 then releaseCache s.myCore (litScope l) (afterReads s ops) else afterReads s ops
    Issuing s → Ready s u ops → litScope l < 6 → (litOrd l = 0 ∨ litOrd l = 2 ∧ memDrained s.team = true) → acqPending s.team = false →
    vaultRegion s b l = some r → Claims.vaultFits s u a b l r → lanes ≠ [] →
    ∃ t, exec (.stv h d a b l) s = .next t ∧
      Ended (Claims.vaultStored s a b d l r lanes q) t h 8 (passes s u) [] []
        [{ tag := s.nextTag, vault := true, due := s.ac + (passes s u - 1), usual := s.ac + (passes s u - 1) + usualVault s r / 2
           lanes := s.team.active }] 1 (fieldsFrom a 1) ∧
      (∀ k, (∀ n ∈ lanes, k < Claims.vaultAt s a b l r n ∨ Claims.vaultAt s a b l r n + widthOf b ≤ k) → memByte t.mem k = memByte q.mem k) ∧
      ∀ n ∈ lanes, (∀ m ∈ lanes, n < m → Claims.vaultAt s a b l r m + widthOf b ≤ Claims.vaultAt s a b l r n ∨
          Claims.vaultAt s a b l r n + widthOf b ≤ Claims.vaultAt s a b l r m) →
        ∀ i < widthOf b, memByte t.mem (Claims.vaultAt s a b l r n + i) = Claims.storedByte s d n i

/-- The translation register and the offset of a lane of a global access (R126). -/
def Claims.globalAccess (s : State) (need : Need) (a b : RegF) (l : Word) (n : Nat) : Xl :=
  laneAccess s need (xreg s.team (xrOf b)) (laneOff (rdv s a n) (litDisp l)) (widthOf b) n

/-- The state after the use of the TLB by the lanes of a global access (R241). -/
def Claims.translated (s : State) (a b : RegF) (l : Word) (lanes : List Nat) (q : State) : State :=
  touchTlb (xreg s.team (xrOf b)) (widthOf b) (lanes.map fun n => laneOff (rdv s a n) (litDisp l)) q

/-- The byte with a key is a written byte of a line that the core of the team holds (R228). -/
def Claims.cachedWritten (s : State) (k : Nat) : Prop :=
  ∃ i c x, mget? (s.core s.myCore).lines i = some c ∧ x < 128 ∧ c.written.getLsbD x = true ∧ paKey s (c.tag * 128 + x) = some k

/-- R126 to R128, R214, R228, R229, R237, R245, R275: an LDG all of whose lanes translate, with no error in their bytes, leaves its result outstanding:
each lane's bytes as the core's cache and memory give them, extended by SX; a lane that reads a ring slice of a running grid gets a free value
(R214), and one that names another package holds what its loss would raise (R245), its port having carried the request (R387). It changes no register, and no byte of memory except where
a line of the core's cache that was written is written back to make room. -/
def Claims.GlobalLoadsReadMemory : Prop :=
  ∀ (h : Hd) (d a b : RegF) (l : Word) (s : State) (pa : Nat → Nat) (ncm : Nat → Bool),
    let u := isScalar d
    let ops := [src a, dataOpnd false d (widthOf b)]
    let lanes := execLanes s u
    let acq := litOrd l == 1
    let oks := lanes.map fun n => (n, pa n, ncm n)
    let g := loadLanes s.myCore (widthOf b) (ncOf b || acq) oks (Claims.translated s a b l lanes (afterReads s ops))
    s.split % 4096 = 0 → Issuing s → Ready s u ops (some (xrOf b)) → litScope l < 6 → litOrd l < 2 → acqPending s.team = false → lanes ≠ [] →
    (∀ n ∈ lanes, Claims.globalAccess s .load a b l n = .ok (pa n) (ncm n)) → (∀ n ∈ lanes, eccOf s s.myCore (pa n) (widthOf b) = none) →
    (∀ n ∈ lanes, ∀ k, paKey s (pa n) = some k → atomWaits s k (widthOf b) = false) → pendCount s.team + dataRegs (widthOf b) ≤ 16 →
    ∃ t, exec (.ldg h d a b l) s = .next t ∧
      Ended ({ (if acq then acquireCache s.myCore (litScope l) g.2 else g.2) with
          fresh := s.fresh + if lanes.any fun n => inSlice s s.myCtx (laneVa s (xrOf b) a (litDisp l) n) (widthOf b) then 2048 else 0 : State}.farSpoken
          s.myCore (farOf s u .load (xrOf b) a (litDisp l) oks)) t h 8 (passes s u) []
        [{ tag := s.nextTag, pc := s.team.pc, regs := codesOf s d (dataRegs (widthOf b)), mem := true
           due := s.ac + (passes s u - 1), usual := s.ac + (passes s u - 1) + usualPas s (ncOf b || acq) oks
           far := farOf s u .load (xrOf b) a (litDisp l) oks
           writes := g.1.flatMap fun x => writesOfN s d.toNat (dataRegs (widthOf b)) [x.1] fun k _ =>
             if inSlice s s.myCtx (laneVa s (xrOf b) a (litDisp l) x.1) (widthOf b) then sliceFree s x.1 k
             else Claims.loaded (widthOf b) (sxOf b) (leNat x.2) k }] [] 1 (fieldsFrom a 1) ∧
      ∀ k, memByte t.mem k ≠ memByte s.mem k → Claims.cachedWritten s k

/-- R126 to R128, R228, R229, R237, R275: an STG all of whose lanes translate stores the bytes of D at each lane's address, in ascending order
of the lanes, into the core's cache or, where the page or the access bypasses it, into memory. It changes no register; a byte of memory
changes only where a lane stores, or where a line of the core's cache that was written is written back. -/
def Claims.GlobalStoresWriteMemory : Prop :=
  ∀ (h : Hd) (d a b : RegF) (l : Word) (s : State) (pa : Nat → Nat) (ncm : Nat → Bool),
    let u := isScalar d
    let ops := [src a, dataOpnd true d (widthOf b)]
    let lanes := execLanes s u
    let rel := litOrd l == 2
    let oks := lanes.map fun n => (n, pa n, ncm n)
    let past := ncOf b || (rel && decide (2 ≤ litScope l))
    let q := Claims.translated s a b l lanes (afterReads s ops)
    let q := if rel then releaseCache s.myCore (litScope l) q else q
    s.split % 4096 = 0 → Issuing s → Ready s u ops (some (xrOf b)) → litScope l < 6 →
    (litOrd l = 0 ∨ litOrd l = 2 ∧ memDrained s.team = true) → acqPending s.team = false → lanes ≠ [] →
    (∀ n ∈ lanes, Claims.globalAccess s .store a b l n = .ok (pa n) (ncm n)) →
    (∀ n ∈ lanes, ∀ k, paKey s (pa n) = some k → atomWaits s k (widthOf b) = false) →
    ∃ t, exec (.stg h d a b l) s = .next t ∧
      Ended ((lanes.foldl (fun q n => storePa s.myCore (pa n) (ncm n) past ((List.range (widthOf b)).map (Claims.storedByte s d n)) q) q).farSpoken
          s.myCore (farOf s u .store (xrOf b) a (litDisp l) oks)) t h 8
        (passes s u) [] []
        [{ tag := s.nextTag, due := s.ac + (passes s u - 1), usual := s.ac + (passes s u - 1) + usualPas s (ncOf b || rel) oks / 2
           lanes := s.team.active, far := farOf s u .store (xrOf b) a (litDisp l) oks }] 1 (fieldsFrom a 1) ∧
      ∀ k, memByte t.mem k ≠ memByte s.mem k →
        Claims.cachedWritten s k ∨ ∃ n ∈ lanes, ∃ j, paKey s (pa n) = some j ∧ j ≤ k ∧ k < j + widthOf b

/-- R228, R229: a core reads what it stored. After a store of up to 128 bytes within a line of HBM by a core, through its cache or past it, a
load of the same bytes by that core, through its cache or past it, gives those bytes. The cache is as the machine keeps it: every written byte
is a valid byte. -/
def Obligations.ACoreReadsItsOwnStores : Prop :=
  ∀ (core pa k : Nat) (bs : List Byte) (n1 p1 n2 p2 : Bool) (s : State),
    s.split % 4096 = 0 → s.split ≤ 80000000000 → paKind s.split pa = .hbm k → pa % 128 + bs.length ≤ 128 →
    (∀ i c, mget? (s.core core).lines i = some c → c.written &&& ~~~ c.valid = 0) →
    (loadPa core pa bs.length n2 p2 (storePa core pa n1 p1 bs s)).1 = bs

/-- The team after something of it landed or was accepted (R21, R176): one parked on an S marker with nothing more outstanding goes on from
the next ac. -/
def Claims.settled (ac : Nat) (t : Team) : Team :=
  if t.park = .marker ∧ t.pend = [] ∧ t.stores = [] then
    { t with park := .run, stall := Park.marker.code, readyAt := ac + 1, swDue := false, woke := none } else t

/-- The block of the team with a credit back (R253), where one was held and the block has a record. -/
def Claims.credited (held : Bool) (s : State) : State :=
  if held && (mget? s.blocks s.team.blk).isSome then s.onBlock s.team.blk fun b => { b with credits := b.credits - 1 } else s

/-- R20, R21, R24, R125, R142, R245, R253, R275: a result that is due, with no earlier entry of its scheduler's SFU queue before it, lands: its
registers take their values and are live, its translation register its value, its bits of TSTAT are set, an acquire completes, a credit
returns, and the result leaves the record and the SFU queue. A store is accepted likewise, also one of a team that has ended, which its block holds
(R160). A reply of another package comes in by a port of the team's I/O die, and only where one is live (R1, R382, R387). A
team parked on an S marker with nothing more outstanding goes on; nothing else changes.
It rests on choices of the model: log entries 16 and 20. -/
def Obligations.ResultsLandAndStoresAreAccepted : Prop :=
  (∀ (s : State) (p : Pend), s.hasTeam s.sel.unit = true →
    let q := Claims.sel s
    (q.team.pend.find? fun x => x.tag == s.sel.sub) = some p → p.missing = 0 → p.due ≤ s.ac →
    (((vget [] (q.core q.myCore).sfu (schedOf q.team.tid)).drop 1).any fun e => e.tag == s.sel.sub) = false →
    (∀ f, p.far = some f → ∀ l ∈ f.lanes, q.reaches q.myCore l.2.1 = true) →
    (∀ w, q.team.park ≠ .wbarDrain w) → (∀ w ∈ p.writes, regNamed w.reg) →
    let q0 := q.farHeard q.myCore p.far
    let q1 := match p.acq with | some sc => acquireCache q.myCore sc q0 | none => q0
    let q2 := Claims.credited p.credit q1
    ∃ t, exec .longResultLands s = .next (Claims.ret s t) ∧ RegsAre q t p.writes ∧
      (∀ c l, regNamed c → regDead t.team c l = true → regDead q.team c l = true) ∧
      t = { q2 with
        team := Claims.settled s.ac { q.team with
          v := t.team.v, vdead := t.team.vdead, rbad := t.team.rbad, s := t.team.s, sdead := t.team.sdead
          shadow := t.team.shadow, shdead := t.team.shdead
          pend := q.team.pend.filter fun x => x.tag != s.sel.sub
          tstat := q.team.tstat ||| p.tstat
          x := match p.tw with | some (k, x) => vset q.team.x k x | none => q.team.x }
        cores := (q2.onCore q.myCore fun c => { c with
          sfu := c.sfu.map fun (l : List SfuEntry) => l.filter fun e => e.tag != s.sel.sub }).cores }) ∧
  (∀ (s : State) (k : Token), s.hasTeam s.sel.unit = true →
    let q := Claims.sel s
    (q.team.stores.find? fun x => x.tag == s.sel.sub) = some k → k.left = 0 → k.due ≤ s.ac →
    (∀ f, k.far = some f → ∀ l ∈ f.lanes, q.reaches q.myCore l.2.1 = true) →
    (∀ w, q.team.park ≠ .wbarDrain w) → (∀ b ∈ s.blocks, ∀ x ∈ b.2.tokens, x.tag ≠ s.sel.sub) →
    exec .storeAccepted s = .next (Claims.ret s { Claims.credited k.credit (q.farHeard q.myCore k.far) with
      team := Claims.settled s.ac { q.team with stores := q.team.stores.filter fun x => x.tag != s.sel.sub } })) ∧
  ∀ (s : State) (k : Token) (blk : Nat) (b : Block), s.hasTeam s.sel.unit = false → mget? s.blocks blk = some b →
    (s.blocks.map (·.1)).Nodup → (∀ c ∈ s.blocks, c.1 ≠ blk → ∀ x ∈ c.2.tokens, x.tag ≠ s.sel.sub) →
    (b.tokens.filter fun x => x.tag == s.sel.sub) = [k] → k.left = 0 → k.due ≤ s.ac →
    (∀ f, k.far = some f → ∀ l ∈ f.lanes, s.reaches b.core l.2.1 = true) →
    exec .storeAccepted s = .next ((s.farHeard b.core k.far).setBlock blk { b with
      tokens := b.tokens.filter fun x => x.tag != s.sel.sub, credits := if k.credit then b.credits - 1 else b.credits })

/-! ### Where memory instructions trap -/

/-- R128, R130, R351, R424: what a lane's vault access of `w` bytes meets, by the order of R128: a lane that HOSTREQ marked failed makes no access;
a misaligned offset takes ALIGN, one outside the region VRANGE, a marked word ECC where the access reads; none where the access is made. FADDR is
the offset. -/
def Claims.vaultFault (s : State) (kind : Nat) (disp : Int) (w : Nat) (a : RegF) (r : Block) (n : Nat) : Option LaneFault :=
  let off := laneOff (rdv s a n) disp
  let f : LaneFault := { cause := cALIGN, faddr := BitVec.ofInt 64 off, kind := kind }
  if s.team.failed.getLsbD n ∧ s.team.failFetch = false then some { cause := cHOSTPAGE, kind := kind }
  else if off % (w : Int) ≠ 0 then some f
  else if off < 0 ∨ (r.vbytes : Int) < off + w then some { f with cause := cVRANGE }
  else if kind ≠ 1 ∧ badAt s (vaultKey r.core (r.voff + off.toNat)) w then some { f with cause := cECC, lsub := 2 }
  else none

/-- R237, R244, R245, R236: what an access that ends in a leaf or a failed walk meets: an entry in a lost package, one with an error, no page, a
missing permission. -/
def Claims.leafFault (need : Need) (f : LaneFault) (r : WalkRes) : Option LaneFault :=
  if r.gone then some { f with cause := cREMOTE }
  else if r.ecc ≠ 0 then some { f with cause := cECC, lsub := r.ecc }
  else if r.ok = false then some { f with cause := cPAGE, ptype := r.ptype, level := r.level }
  else if (match need with | .load => r.r | .store => r.w | .atomic => r.r && r.w | .fetch => r.x) = false then some { f with cause := cPROT }
  else none

/-- R225, R230, R245, R424: what an access meets at its physical address: a lost package, no memory or the system area of a vault, an atomic in a
vault aperture, a marked word where it reads. -/
def Claims.frameFault (s : State) (need : Need) (f : LaneFault) (w pa : Nat) : Option LaneFault :=
  if paLost s pa then some { f with cause := cREMOTE }
  else match paKind s.split pa with
    | .none => some { f with cause := cPROT }
    | .vault _ off => if 0xF0000 ≤ off ∨ need = .atomic then some { f with cause := cPROT } else
        if need = .store then none else (eccOf s s.myCore pa w).map fun k => { f with cause := cECC, lsub := k }
    | _ => if need = .store then none else (eccOf s s.myCore pa w).map fun k => { f with cause := cECC, lsub := k }

/-- R128, R237, R239, R351: what a lane's global access of `w` bytes through a translation register meets, by the order of R128; `leaf` is what the
TLB or the walk gives for its address. FADDR is the virtual address. -/
def Claims.globalFault (s : State) (need : Need) (disp : Int) (w : Nat) (a : RegF) (x : TReg) (leaf : Nat → WalkRes) (n : Nat) : Option LaneFault :=
  let off := laneOff (rdv s a n) disp
  let va := (x.base + BitVec.ofInt 57 off).toNat
  let kind := match need with | .load => 0 | .store => 1 | .atomic => 2 | .fetch => 3
  let f : LaneFault := { cause := cALIGN, faddr := BitVec.ofNat 64 va, kind := kind }
  if s.team.failed.getLsbD n ∧ s.team.failFetch = false then some { f with cause := cHOSTPAGE }
  else if va % w ≠ 0 then some f
  else if x.v = true ∧ 0 ≤ off ∧ off + w ≤ pageSize x.psz.toNat - x.base.toNat % pageSize x.psz.toNat then
    if (match need with | .load => x.r | .store => x.w | .atomic => x.r && x.w | .fetch => false) = false then some { f with cause := cPROT }
    else Claims.frameFault s need f w (x.frame.toNat * 4096 + x.base.toNat % pageSize x.psz.toNat + off.toNat)
  else match Claims.leafFault need f (leaf n) with
    | some g => some g
    | none => Claims.frameFault s need f w ((leaf n).frame * 4096 + va % pageSize (leaf n).psz)

/-- Whether a lane's global access needs the TLB or a walk (R239). -/
def Claims.misses (s : State) (disp : Int) (w : Nat) (a : RegF) (x : TReg) (n : Nat) : Prop :=
  let off := laneOff (rdv s a n) disp
  ¬ (x.v = true ∧ 0 ≤ off ∧ off + w ≤ pageSize x.psz.toNat - x.base.toNat % pageSize x.psz.toNat)

/-- R14, R128: the lanes that fault: each active lane by its own access, or every active lane alike where the instruction is uniform. -/
def Claims.faulting (s : State) (u : Bool) (f : Nat → Option LaneFault) : List (Nat × LaneFault) :=
  (lanesOf s.team.active).filterMap fun n => (f (if u then lowestLane s.team.active else n)).map fun x => (n, x)

/-- The executing lanes that do not fault. -/
def Claims.passing (s : State) (u : Bool) (f : Nat → Option LaneFault) : List Nat := (execLanes s u).filter fun n => (f n).isNone

/-- R128, R344: the trap of an instruction of 8 bytes in the lanes that fault: its cause is the lowest among theirs, and its entry mask is
these lanes. -/
def Claims.laneTrap (faults : List (Nat × LaneFault)) (s : State) : State :=
  Claims.trapped { cause := faults.foldl (fun c p => min c p.2.cause) 63, lanes := faults, mask := maskOf (faults.map (·.1))
                   saved := Claims.fullMask s.team, tpc := s.team.pc, tnext := Claims.past s.team 8 } s

/-- What a memory instruction with faulting lanes leaves of its team before the trap, from `q`: no register changes; last-use hints reach a vector
A in the lanes that complete (R24); the results outstanding name these lanes alone, and with none of them there is neither a result nor a
store. -/
def Claims.onlyIn (q t : State) (h : Hd) (a : RegF) (done : List Nat) : Prop :=
  RegsAre q t [] ∧
  (∀ c l, regNamed c → regDead t.team c l =
    (regDead q.team c l || (lastA h.hnt && isVec a && c == regCode q.team a.toNat && done.contains l))) ∧
  ∃ ps ts, t.team = { q.team with vdead := t.team.vdead, pend := q.team.pend ++ ps, stores := q.team.stores ++ ts } ∧
    (done = [] → ps = [] ∧ ts = []) ∧ ∀ p ∈ ps, ∀ w ∈ p.writes, w.lane ∈ done

/-- R128, R130, R226, R351: LDV and STV with faulting lanes trap in exactly those lanes; a faulting lane writes no register and no memory, and where
every lane faults nothing changes but the booking of the issue. -/
def Claims.VaultAccessesTrapInTheirLanes : Prop :=
  (∀ p ∈ ([(.ldv, false), (.stv, true)] : List ((Hd → RegF → RegF → RegF → Word → Instr) × Bool)),
    ∀ (h : Hd) (d a b : RegF) (l : Word) (s : State) (r : Block),
    let u := isScalar d
    let w := widthOf b
    let ops := [src a, dataOpnd p.2 d w]
    let fault := Claims.vaultFault s (if p.2 then 1 else 0) (vaultDisp b l) w a r
    let faults := Claims.faulting s u fault
    let done := Claims.passing s u fault
    let at_ := Claims.vaultAt s a b l r
    let q := booked (passes s u) (afterReads s ops)
    Issuing s → Ready s u ops → litScope l < 6 →
    (litOrd l = 0 ∨ litOrd l = (if p.2 then 2 else 1) ∧ (p.2 = true → memDrained s.team = true)) → acqPending s.team = false →
    vaultRegion s b l = some r → faults ≠ [] →
    (p.2 = false → ∀ n ∈ done, ∀ i < w,
      (s.core r.core).absent.contains ((r.voff + (laneOff (rdv s a n) (vaultDisp b l)).toNat + i) / 128) = false) →
    (∀ n ∈ done, atomWaits s (at_ n) w = false) → (p.2 = false → done ≠ [] → pendCount s.team + dataRegs w ≤ 16) →
    ∃ t, exec (p.1 h d a b l) s = .next (Claims.laneTrap faults t) ∧ Claims.onlyIn q t h a done ∧ (done = [] → t = q) ∧
      ∀ k, memByte t.mem k ≠ memByte s.mem k → (p.2 = true ∧ ∃ n ∈ done, at_ n ≤ k ∧ k < at_ n + w) ∨ litOrd l = 2 ∧ Claims.cachedWritten s k) ∧
  ∀ (h : Hd) (d a b : RegF) (l : Word) (s : State) (r : Block) (n i : Nat),
    let u := isScalar d
    let w := widthOf b
    let fault := Claims.vaultFault s 0 (vaultDisp b l) w a r
    let q := afterReads s [src a, dataOpnd false d w]
    let line := fun n i => (r.voff + (laneOff (rdv s a n) (vaultDisp b l)).toNat + i) / 128
    Issuing s → Ready s u [src a, dataOpnd false d w] → litScope l < 6 → litOrd l < 2 → acqPending s.team = false →
    vaultRegion s b l = some r → n ∈ Claims.passing s u fault → i < w → (s.core r.core).absent.contains (line n i) = true →
    ∃ m ∈ Claims.passing s u fault, ∃ j < w, (s.core r.core).absent.contains (line m j) = true ∧
      exec (.ldv h d a b l) s = .next { q with team := { q.team with park := .absent r.core (line m j) } }

/-- R128, R225, R230, R237, R239, R245, R351, R424: LDG and STG with faulting lanes, once every lane that misses its register has its leaf, trap in
exactly those lanes; a faulting lane writes no register and no memory, and where every lane faults nothing changes but the booking of the issue and
the order of use of the TLB. -/
def Claims.GlobalAccessesTrapInTheirLanes : Prop :=
  ∀ p ∈ ([(.ldg, .load), (.stg, .store)] : List ((Hd → RegF → RegF → RegF → Word → Instr) × Need)),
    ∀ (h : Hd) (d a b : RegF) (l : Word) (s : State) (leaf : Nat → WalkRes),
    let u := isScalar d
    let st := decide (p.2 = .store)
    let w := widthOf b
    let ops := [src a, dataOpnd st d w]
    let x := xreg s.team (xrOf b)
    let va := fun n => (x.base + BitVec.ofInt 57 (laneOff (rdv s a n) (litDisp l))).toNat
    let fault := Claims.globalFault s p.2 (litDisp l) w a x leaf
    let faults := Claims.faulting s u fault
    let done := Claims.passing s u fault
    let q := booked (passes s u) (Claims.translated s a b l (execLanes s u) (afterReads s ops))
    s.split % 4096 = 0 → Issuing s → Ready s u ops (some (xrOf b)) → litScope l < 6 →
    (litOrd l = 0 ∨ litOrd l = (if st then 2 else 1) ∧ (st = true → memDrained s.team = true)) → acqPending s.team = false → faults ≠ [] →
    (∀ n ∈ execLanes s u, Claims.misses s (litDisp l) w a x n → leafOf s (va n) = some (leaf n)) →
    (∀ n ∈ done, ∀ pa nc k, laneAccess s p.2 x (laneOff (rdv s a n) (litDisp l)) w n = .ok pa nc → paKey s pa = some k → atomWaits s k w = false) → (st = false → done ≠ [] → pendCount s.team + dataRegs w ≤ 16) →
    ∃ t, exec (p.1 h d a b l) s = .next (Claims.laneTrap faults t) ∧ Claims.onlyIn q t h a done ∧ (done = [] → t = q) ∧
      ∀ k, memByte t.mem k ≠ memByte s.mem k → Claims.cachedWritten s k ∨
        st = true ∧ ∃ n ∈ done, ∃ pa nc j, laneAccess s .store x (laneOff (rdv s a n) (litDisp l)) w n = .ok pa nc ∧ paKey s pa = some j ∧
          j ≤ k ∧ k < j + w

/-- R126, R127, R128, R130, R222, R226, R351: LDV and STV in every width and form, where they complete, trap and park.
It rests on choices of the model: log entries 15, 16 and 47. -/
def Obligations.VaultAccessesMoveTheirBytes : Prop :=
  Claims.VaultLoadsReadTheVault ∧ Claims.VaultStoresWriteTheVault ∧ Claims.VaultAccessesTrapInTheirLanes

/-- R126, R127, R128, R214, R228, R229, R237, R239, R245, R275: LDG and STG in every width and form, where they complete and where they trap.
It rests on choices of the model: log entries 1, 15, 16, 20 and 47. -/
def Obligations.GlobalAccessesMoveTheirBytes : Prop :=
  Claims.GlobalLoadsReadMemory ∧ Claims.GlobalStoresWriteMemory ∧ Claims.GlobalAccessesTrapInTheirLanes

/-! ### Vault services -/

/-- R125, R238, R240, R241: TXB whose base has a leaf with the permissions asked for leaves its translation register outstanding: valid, with
the permissions, the frame, the page size and the base. Nothing else changes but the order of use of the TLB. -/
def Claims.TxbTranslatesItsBase : Prop :=
  ∀ (h : Hd) (d a b : RegF) (s : State) (r : WalkRes),
    let k := d.toNat
    let va := (rdPair s a (lowestLane s.team.active)).extractLsb' 0 57
    let q := afterReads s [srcPair a, src b]
    Issuing s → Ready s false [srcPair a, src b] (some k) → k < 8 → isScalar a = true → isVec b = false →
    leafOf s va.toNat = some r → r.ok = true → r.gone = false → r.ecc = 0 → s.team.failed = 0 → ((rdu s b).getLsbD 0 = true → r.r = true) →
    ((rdu s b).getLsbD 1 = true → r.w = true) → pendCount s.team < 16 →
    ∃ t, exec (.txb h d a b) s = .next t ∧
      Ended (tlbTouch s.myCore s.myCtx va.toNat q) t h 4 1 []
        [{ tag := s.nextTag, pc := s.team.pc, regs := [560 + k], due := s.ac, usual := s.ac + 30
           tw := some (k, { v := true, r := r.r, w := r.w, ncm := r.ncm, frame := BitVec.ofNat 44 r.frame, psz := BitVec.ofNat 2 r.psz, base := va }) }]
        [] 1 (fieldsFrom a 2) (fieldsFrom b 1)

/-- R226, R227, R261, R416: EXPECT of an aligned range of the region ends at once when it is empty, else parks its team; EXPECT_CLEAR, once no
STV, ATOM.VLT or RSNAP of the team is still to be performed, clears the presence bits of the lines of the range, but of those that a write set in
the same ac, and of no other line, and the team goes on. -/
def Claims.ExpectClearsPresenceBits : Prop :=
  (∀ (h : Hd) (a b : RegF) (s : State),
    let q := afterReads s [src a, src b]
    let off := (rdu s a).toNat
    let n := (rdu s b).toNat
    Issuing s → Ready s false [src a, src b] → isVec a = false → isVec b = false → off % 128 = 0 → n % 128 = 0 → off + n ≤ s.myBlock.vbytes →
    ∃ t, Ended q t h 4 1 [] [] [] 0 (fieldsFrom a 1) (fieldsFrom b 1) ∧
      exec (.expect h a b) s = .next (if n = 0 then t else parkAt (.expect (s.myBlock.voff + off) n) t)) ∧
  ∀ (s : State) (off n : Nat), s.hasTeam s.sel.unit = true → (Claims.sel s).team.park = .expect off n →
    (∀ k ∈ (Claims.sel s).team.stores, k.vault = false) →
    (∀ r ∈ ((Claims.sel s).core (Claims.sel s).myCore).vport, r.tid ≠ (Claims.sel s).team.tid) →
    (∀ k ∈ ((Claims.sel s).core (Claims.sel s).myCore).snaps, k.2.1 ≠ (Claims.sel s).team.tid) →
    ∃ t, exec .expectClear s = .next (Claims.ret s t) ∧
    (∃ ls, t = { (Claims.sel s).onCore (Claims.sel s).myCore (fun c => { c with absent := ls }) with team := unparked s.ac (Claims.sel s).team }) ∧
    ∀ line, (t.core (Claims.sel s).myCore).absent.contains line =
      ((((Claims.sel s).core (Claims.sel s).myCore).absent).contains line || (decide (off / 128 ≤ line ∧ 128 * line < off + n) && decide (0 < n) &&
        !((Claims.sel s).core (Claims.sel s).myCore).setNow.contains (line, s.ac)))

/-- R226, R262, R263: SPILL of a vector register to an aligned slot of the region stores the slot's bytes and sets the presence bit of every line
that it touches; FILL of one leaves the register of every position outstanding: the value of the slot in a live lane, a free value in another
(log entry 1). No other byte and no other presence bit changes. -/
def Claims.SpillAndFillMoveARegister : Prop :=
  (∀ (h : Hd) (d a : RegF) (s : State),
    let q := afterReads s [src a, { f := d.toNat, rd := false }]
    let g := (s.team.lanes + 31) / 32
    let off := s.myBlock.voff + (rdu s a).toNat
    let k := vaultKey s.myBlock.core off
    let code := regCode s.team d.toNat
    let bytes := spillSlot s code g
    Issuing s → Ready s false [src a, { f := d.toNat, rd := false }] → isVec d = true → isVec a = false → (rdu s a).toNat % 8 = 0 →
    (rdu s a).toNat + 8 + 128 * g ≤ s.myBlock.vbytes → acqPending s.team = false → s.myBlock.core = s.myCore →
    atomWaits s k bytes.length = false → (∀ l ∈ lanesOf s.team.live, s.team.rbad.contains (regKey code l) = false) →
    ∃ t, exec (.spillSpill h d a) s = .next t ∧
      Ended ((linesIn off bytes.length).foldl (fun s l => presenceSet s.myCore l s) ({ q with fresh := s.fresh + 32 * g }.store k bytes)) t h 4
        (passesOf s.team) [] []
        [{ tag := s.nextTag, vault := true, due := s.ac + (passesOf s.team - 1) + 14 + ceilDiv bytes.length 64 }] 1 (fieldsFrom a 1) ∧
      (∀ i < bytes.length, some (memByte t.mem (k + i)) = bytes[i]?) ∧
      (∀ j, j < k ∨ k + bytes.length ≤ j → memByte t.mem j = memByte s.mem j) ∧
      (∀ c line, (t.core c).absent.contains line = ((s.core c).absent.contains line &&
        !(decide (c = s.myCore) && decide (off / 128 ≤ line ∧ 128 * line < off + bytes.length)))) ∧
      ∀ c, { t.core c with absent := [], arrived := [], setNow := [], vwatch := [] } =
        { s.core c with absent := [], arrived := [], setNow := [], vwatch := [] }) ∧
  ∀ (h : Hd) (d a : RegF) (s : State),
    let ops : List Opnd := [src a, { f := d.toNat, rd := false, wr := true }]
    let q := afterReads s ops
    let g := (s.team.lanes + 31) / 32
    let off := s.myBlock.voff + (rdu s a).toNat
    let k := vaultKey s.myBlock.core off
    let bytes := (List.range (8 + 128 * g)).map fun i => memByte s.mem (k + i)
    Issuing s → Ready s false ops → isVec d = true → isVec a = false → (rdu s a).toNat % 8 = 0 →
    (rdu s a).toNat + 8 + 128 * g ≤ s.myBlock.vbytes → acqPending s.team = false → s.myBlock.core = s.myCore →
    (∀ i < 8 + 128 * g, (s.core s.myCore).absent.contains ((off + i) / 128) = false) → atomWaits s k (8 + 128 * g) = false →
    badAt s k (8 + 128 * g) = false → bytes.headD 0 ∈ [1#8, 2#8, 3#8, 4#8] → pendCount s.team < 16 →
    ∃ t, exec (.spillFill h d a) s = .next t ∧
      Ended { q with fresh := s.fresh + s.team.lanes } t h 4 (passesOf s.team) []
        [{ tag := s.nextTag, pc := s.team.pc, regs := [regCode s.team d.toNat], mem := true
           due := s.ac + (passesOf s.team - 1) + 14 + ceilDiv (formBytes (bytes.headD 0).toNat g) 64
           writes := (List.range s.team.lanes).map fun p => ⟨p, regCode s.team d.toNat,
             if s.team.live.getLsbD p then (fillValue bytes p).getD 0 else Config.freeWord (s.fresh + p)⟩ }] [] 1 (fieldsFrom a 1)

/-- R232, R233, R263: whatever form the slot takes, FILL gives each live lane the value that SPILL stored for it. -/
def Claims.FillGivesBackWhatSpillStored : Prop :=
  ∀ (s : State) (code g p : Nat), s.team.live.getLsbD p = true → s.team.vundef.getLsbD p = false → p < 32 * g →
    fillValue (spillSlot s code g) p = some (regBits s code p)

/-! ### Fetch, translation and the control store -/

/-- R53, R113, R237: INSTRUCTION_FETCH gives the selected team the word at its PC with, where the word has a literal, the word after it, when
both translate, neither has an error or lies in a ring slice, and a port reaches both (R1); within an MCALL expansion it gives the next control word, unchanged where no field takes a
parameter. No register and no byte of the team's changes. -/
def Claims.FetchReadsTheWordAtThePc : Prop :=
  (∀ (s : State) (pa pb : Nat) (na nb : Bool), s.hasTeam s.sel.unit = true →
    let q := Claims.sel s
    let x := loadPa q.myCore pa 4 na false (paCarried q.myCore pa (tlbTouch q.myCore q.myCtx q.team.pc.toNat q))
    let y := loadPa q.myCore pb 4 nb false (paCarried q.myCore pb (tlbTouch q.myCore q.myCtx (q.team.pc + 4).toNat x.2))
    let w := BitVec.ofNat 32 (leNat x.1)
    q.team.present = true → q.team.ir = none → q.team.park = .run → q.team.mcall = none → q.team.failed = 0 →
    paReaches q q.myCore pa = true → inSlice q q.myCtx q.team.pc.toNat 4 = false →
    paCheck q .fetch q.team.pc.toNat (xlateVa q .fetch q.team.pc.toNat) = .ok pa na → eccOf q q.myCore pa 4 = none →
    (hasLiteral w = true → paReaches x.2 q.myCore pb = true ∧ inSlice x.2 q.myCtx (q.team.pc + 4).toNat 4 = false ∧ paCheck x.2 .fetch (q.team.pc + 4).toNat (xlateVa x.2 .fetch (q.team.pc + 4).toNat) = .ok pb nb ∧
      eccOf x.2 q.myCore pb 4 = none) →
    exec .instructionFetch s = .next (Claims.ret s (if hasLiteral w
      then y.2.onTeam fun t => { t with ir := some (w, BitVec.ofNat 32 (leNat y.1)) }
      else x.2.onTeam fun t => { t with ir := some (w, 0) }))) ∧
  ∀ (s : State) (m : MCall) (c : CWord), s.hasTeam s.sel.unit = true →
    let q := Claims.sel s
    q.team.present = true → q.team.ir = none → q.team.park = .run → q.team.mcall = some m →
    m.words[m.idx]? = some c → c.sd = false → c.sa = false → c.sb = false → c.sl = false →
    exec .instructionFetch s = .next (Claims.ret s (q.onTeam fun t => { t with
      ir := some (c.word, if hasLiteral c.word then ((m.words[m.idx + 1]?).getD {}).word else 0) }))

/-- R234 to R236, R241, R242: WALK_COMPLETE ends a walk of a die whose tables a port reaches (R1): its leaf enters the TLB of every core with a team that joined it, and the
team in focus, where it alone joined, has the walk's result, and tries again. No byte of memory changes. -/
def Claims.WalksFillTheTlb : Prop :=
  ∀ (s : State) (w : Walk), (s.die s.sel.unit).walks[s.sel.sub]? = some w →
    let va := w.page * 4096
    (∀ pa ∈ walkPas s va 6 (s.ctx w.ctx).root, paReaches s (256 * s.sel.unit) pa = true) →
    let r := walk s w.ctx va
    ∃ t, exec .walkComplete s = .next t ∧ t.mem = s.mem ∧ (t.die s.sel.unit).walks = (s.die s.sel.unit).walks.eraseIdx s.sel.sub ∧
      (r.ok = true → ∀ tid ∈ w.tids, leafEntry w.ctx va r ∈ (t.core (coreOf tid)).tlb) ∧
      (r.ok = false → t.cores = s.cores) ∧
      (s.team.present = true → w.tids = [s.team.tid] → t.team = { s.team with walked := r :: s.team.walked })

/-- R234 to R236, R245, R424: a walk from a table follows a pointer to the next table, ends in a leaf of the level with its frame and
permissions, and fails at any other entry, at a leaf of level 4 or 5, and at a leaf whose frame is not aligned to its page. It ends where the
entry stands in a package that is lost, or holds an uncorrectable error. -/
def Claims.WalksFollowTheTables : Prop :=
  ∀ (s : State) (va level table : Nat),
    let e := leNat (readPa s (entryPa table level va) 8)
    let frame := e / 2 ^ 12 % 2 ^ 44
    let kind := e / 2 ^ 9 % 8
    let lost := paLost s (entryPa table level va)
    let ecc := wordEcc s (entryPa table level va)
    (lost = true → walkFrom s va (level + 1) table = { page := va / 4096, gone := true }) ∧
    (lost = false → ecc ≠ 0 → walkFrom s va (level + 1) table = { page := va / 4096, ecc := ecc }) ∧
    (lost = false → ecc = 0 → (kind = 1 → 0 < level → walkFrom s va (level + 1) table = walkFrom s va level (frame * 4096)) ∧
    (kind = 2 → level < 4 → frame * 4096 % pageSize level = 0 → walkFrom s va (level + 1) table =
      { page := va / 4096, ok := true, frame := frame, psz := level, r := e.testBit 4, w := e.testBit 5, x := e.testBit 6, ncm := e.testBit 7 }) ∧
    ((kind = 1 ∧ level = 0) ∨ (kind = 2 ∧ (4 ≤ level ∨ frame * 4096 % pageSize level ≠ 0)) ∨ (kind ≠ 1 ∧ kind ≠ 2) →
      walkFrom s va (level + 1) table = { page := va / 4096, ptype := kind, level := level }))

/-- R226: PRESENCE_SET, for a line whose write has arrived, sets its bit, and the teams that are parked on it go on; nothing else changes. -/
def Claims.PresenceWakesItsTeams : Prop :=
  ∀ s : State, (s.core s.sel.unit).arrived.contains s.sel.sub = true →
    let wake := fun (t : Team) => if t.park = .absent s.sel.unit s.sel.sub then unparked s.ac t else t
    ∃ t, exec .presenceSet s = .next t ∧ (t.core s.sel.unit).absent.contains s.sel.sub = false ∧
      (∀ line, line ≠ s.sel.sub → (t.core s.sel.unit).absent.contains line = (s.core s.sel.unit).absent.contains line) ∧
      t = { s.onCore s.sel.unit (fun c => { c with
          absent := (t.core s.sel.unit).absent, arrived := c.arrived.filter (· != s.sel.sub)
          setNow := (s.sel.sub, s.ac) :: c.setNow.filter fun p => p.2 == s.ac && p.1 != s.sel.sub }) with
        team := wake s.team, teams := mmap wake s.teams }

/-- R110 to R113: MCTL.LOAD of a legal sequence of control words parks its team until MCTL_LOAD_COMMIT, with no expansion of the block in
progress, writes the words and the entry. MCTL.CLEAR removes an entry, MCTL.QUERY answers its descriptor, and MCALL starts an expansion of the
entry's words, with its operands as parameters. -/
def Claims.ControlStoreHoldsItsEntries : Prop :=
  (∀ (h : Hd) (d a : RegF) (s : State),
    let q := afterReads s [src a, src d]
    let off := (rdu s a).toNat
    let entry := (rdu s d).toNat % 32
    let start := (rdu s d).toNat / 32 % 512
    let len := (rdu s d).toNat / 2 ^ 14 % 64
    let key := vaultKey s.myBlock.core (s.myBlock.voff + off)
    let ws := (List.range len).map fun i => cwordOf ((List.range 8).map fun j => memByte s.mem (key + 8 * i + j))
    Issuing s → Ready s false [src a, src d] → isVec a = false → isVec d = false → 0 < len → len ≤ 32 → start + len ≤ 512 → off % 8 = 0 →
    off + 8 * len ≤ s.myBlock.vbytes → acqPending s.team = false →
    (∀ i < 8 * len, (s.core s.myBlock.core).absent.contains ((s.myBlock.voff + off + i) / 128) = false) → atomWaits s key (8 * len) = false →
    badAt s key (8 * len) = false → cwordsOk ws = true → s.myBlock.cload = none →
    ∃ t, Ended (q.onBlock s.team.blk fun b => { b with cload := some (s.team.tid, start, ws, entry) }) t h 4 1 [] [] [] 0 (fieldsFrom a 1) ∧
      exec (.mctlLoad h d a) s = .next (parkAt .mctl t)) ∧
  (∀ (s : State) (start entry : Nat) (ws : List CWord), s.hasTeam s.sel.unit = true →
    let q := Claims.sel s
    q.team.park = .mctl → q.myBlock.cload = some (s.sel.unit, start, ws, entry) →
    (∀ t ∈ q.allTeams, t.blk = q.team.blk → expanding t = false) →
    ∃ b, exec .mctlLoadCommit s = .next (Claims.ret s (unpark (q.setBlock q.team.blk b))) ∧
      b = { q.myBlock with cstore := b.cstore, centry := mput q.myBlock.centry entry (start, ws.length), cload := none } ∧
      ∀ i, mget? b.cstore i = if start ≤ i ∧ i < start + ws.length then ws[i - start]? else mget? q.myBlock.cstore i) ∧
  (∀ (h : Hd) (a : RegF) (s : State), Issuing s → Ready s false [src a] → isVec a = false →
    ∃ t, exec (.mctlClear h a) s = .next t ∧ Ended ((afterReads s [src a]).onBlock s.team.blk fun b =>
      { b with centry := mdel b.centry ((rdu s a).toNat % 32) }) t h 4 1 [] [] [] 0 (fieldsFrom a 1)) ∧
  (∀ (h : Hd) (d a : RegF) (s : State), Issuing s → Ready s false [src a, dst d] → isVec a = false → isScalar d = true →
    let e := (rdu s a).toNat % 32
    ∃ t, exec (.mctlQuery h d a) s = .next t ∧ Ended (afterReads s [src a, dst d]) t h 4 1
      [⟨0, regCode s.team d.toNat, match mget? s.myBlock.centry e with
        | some (start, len) => BitVec.ofNat 32 (e + start * 2 ^ 5 + len * 2 ^ 14)
        | none => 0⟩] [] [] 0 (fieldsFrom a 1)) ∧
  ∀ (h : Hd) (d a b : RegF) (l : Word) (s : State) (start len : Nat),
    mget? s.myBlock.centry (l.toNat % 32) = some (start, len) →
    exec (.mcall h d a b l) s = .next { booked 1 s with team := { (booked 1 s).team with
      mcall := some { words := (List.range len).map fun i => mget {} s.myBlock.cstore (start + i), idx := 0, d := d, a := a, b := b
                      p := l.extractLsb' 8 24, sw := h.sw, pc := s.team.pc } } }

/-- R177: TEAM_PROMOTED marks a team that is not parked and has not issued for 4,096 ac; nothing else changes. -/
def Claims.OldTeamsArePromoted : Prop :=
  ∀ s : State, s.hasTeam s.sel.unit = true →
    let q := Claims.sel s
    q.team.present = true → q.team.park = .run → q.team.lastIssue + 4096 ≤ s.ac →
    exec .teamPromoted s = .next (Claims.ret s { q with team := { q.team with promoted := true } })

/-- R125, R226, R227, R232, R233, R238, R240, R241, R261, R262, R263, R416: TXB, EXPECT, SPILL and FILL complete with their effect; FILL gives back
what SPILL stored, whatever form the slot takes.
It rests on choices of the model: log entries 1, 25, 26, 47 (EXPECT takes one pass) and 69 (what a RAW slot holds past the last lane). -/
def Obligations.TranslationPresenceAndSpillComplete : Prop := Claims.TxbTranslatesItsBase ∧ Claims.ExpectClearsPresenceBits ∧ Claims.SpillAndFillMoveARegister ∧
  Claims.FillGivesBackWhatSpillStored

/-- R234, R235, R236, R241, R242, R245, R424: Walks follow the tables and fill the TLB.
It rests on choices of the model: log entries 13, 14 and 67. -/
def Obligations.WalksFollowTheTablesIntoTheTlb : Prop := Claims.WalksFillTheTlb ∧ Claims.WalksFollowTheTables

/-- R53, R110, R111, R112, R113, R177, R226, R237: Fetch, presence, the control store and promotion.
It rests on choices of the model: log entries 14, 27 and 62. -/
def Obligations.FetchPresenceAndControlStoreServeTheirTeams : Prop := Claims.FetchReadsTheWordAtThePc ∧ Claims.PresenceWakesItsTeams ∧ Claims.ControlStoreHoldsItsEntries ∧ Claims.OldTeamsArePromoted

/-! ### Atomics and watches -/

/-- R247: the word that each sub-operation leaves, from the old word, D and D+1. -/
def Claims.atomFns : List (Word → Word → Word → Word) :=
  [fun o d _ => o + d, fun o d _ => fAdd o d, fun o d _ => if d.toInt < o.toInt then d else o, fun o d _ => if o.toInt < d.toInt then d else o,
   fun o d _ => if d.toNat < o.toNat then d else o, fun o d _ => if o.toNat < d.toNat then d else o, fun o d _ => o &&& d, fun o d _ => o ||| d,
   fun o d _ => o ^^^ d, fun _ d _ => d, fun o d e => if o = e then d else o,
   fun o _ e => if o.toNat < e.toNat ∧ o.getLsbD 31 = false then o + 1 else o, fun o _ _ => o ||| 0x80000000#32, fun _ _ _ => 0]

/-- The instructions of ATOM in the order of their codes (R247). -/
def Claims.atoms : List (Hd → RegF → RegF → BitVec 3 → Word → Instr) :=
  [.atomAdd, .atomFadd, .atomMin, .atomMax, .atomUmin, .atomUmax, .atomAnd, .atomOr, .atomXor, .atomExch, .atomCas, .atomIncb, .atomSeal,
   .atomSnap]

/-- R214, R246, R250, R252: the request that a lane of an ATOM sends for the word with a byte key; `slice`: the word lies in a ring slice. -/
def Claims.atomRequest (s : State) (u : Bool) (sub : Nat) (d : RegF) (l : Word) (key pa n : Nat) (slice : Bool) : Req :=
  { tid := s.team.tid, lane := if u then 0 else n, addr := key, pa := pa, tag := s.nextTag
    op := .atom sub (rdv s d n) (if sub = 10 ∨ sub = 11 then rdn s d 1 n else 0) (litOrd l) (litScope l)
    reg := if l.getLsbD 25 then none else some (regCode s.team d.toNat), arr := s.ac + 1 + passIndex s u n
    slice := slice }

/-- R245, R250, R253, R275: what an ATOM of `n` lanes leaves outstanding: its result, one register, or with NORET a store; `far` is what its
lanes in other packages would meet. -/
def Claims.atomPend (s : State) (d : RegF) (l : Word) (n due usual : Nat) (far : Option FarAccess) : List Pend :=
  if l.getLsbD 25 then [] else [{ tag := s.nextTag, pc := s.team.pc, regs := [regCode s.team d.toNat], missing := n, due := due, usual := usual
                                  mem := true, acq := if litOrd l = 1 ∨ litOrd l = 3 then some (litScope l) else none, credit := true, far := far }]
def Claims.atomToken (s : State) (l : Word) (n due usual : Nat) (vault : Bool) (far : Option FarAccess) : List Token :=
  if l.getLsbD 25 then [{ tag := s.nextTag, left := n, vault := vault, due := due, usual := usual, credit := true, lanes := s.team.active
                          far := far }] else []

/-- R253: the block has a service credit free; the block of a bin or a task reserves none and needs none (log entry 31). -/
def Claims.creditFree (s : State) : Prop := s.myBlock.kind = .grid → s.myBlock.credits < s.myBlock.svcq

/-- The conditions on an ATOM that do not depend on its space (R64, R246 to R249, R253, R275). -/
def Claims.atomGoes (s : State) (u : Bool) (sub : Nat) (d a : RegF) (l : Word) (x : Option Nat) : Prop :=
  Issuing s ∧ Ready s u (atomOpnds sub (l.getLsbD 25) d a) x ∧ litScope l < 6 ∧ (l.getLsbD 25 = true → litOrd l ≠ 1 ∧ litOrd l ≠ 3) ∧
  (u = true → isVec a = false) ∧ acqPending s.team = false ∧ (2 ≤ litOrd l → memDrained s.team = true) ∧ Claims.creditFree s ∧
  (l.getLsbD 25 = true ∨ pendCount s.team < 16) ∧ execLanes s u ≠ []

/-- R246 to R253, R275: an ATOM on the global space, all of whose lanes translate, takes a service credit, does the release actions of its
scope, flushes the lines of its words from its core's cache, sends one request of each lane to the owner of its word, by a port for a word of
another package (R387), and leaves its result outstanding. Memory changes only where a written line of the cache is written back. -/
def Claims.GlobalAtomicsAreSent : Prop :=
  ∀ p ∈ Claims.atoms.zipIdx, ∀ (h : Hd) (d a : RegF) (xr : BitVec 3) (l : Word) (s : State) (pa : Nat → Nat) (nc : Nat → Bool),
    let u := isScalar d
    let lanes := execLanes s u
    let off := fun n => laneOff (rdv s a n) (litDisp l)
    let q := touchTlb (xreg s.team xr.toNat) 4 (lanes.map off) (afterReads s (atomOpnds p.2 (l.getLsbD 25) d a))
    let q := if 2 ≤ litOrd l then releaseCache s.myCore (litScope l) q else q
    let far := farOf s u .atomic xr.toNat a (litDisp l) (lanes.map fun n => (n, pa n, nc n))
    let q := ((lanes.foldl (fun q n => flushLine s.myCore (pa n) q) q).farSpoken s.myCore far).onBlock s.team.blk fun b =>
      { b with credits := b.credits + 1 }
    l.getLsbD 26 = false → s.split % 4096 = 0 → Claims.atomGoes s u p.2 d a l (some xr.toNat) →
    (∀ n ∈ lanes, laneAccess s .atomic (xreg s.team xr.toNat) (off n) 4 n = .ok (pa n) (nc n)) →
    (∀ n ∈ lanes, eccOf s s.myCore (pa n) 4 = none) →
    ∃ t, exec (p.1 h d a xr l) s = .next t ∧
      Ended (lanes.foldl (fun q n => sendCluster (ownerCluster (pa n)) (Claims.atomRequest s u p.2 d l ((paKey s (pa n)).getD 0) (pa n) n
          (inSlice s s.myCtx (laneVa s xr.toNat a (litDisp l) n) 4)) q) q) t h 8
        (passes s u) [] (Claims.atomPend s d l lanes.length (s.ac + (passes s u - 1)) (s.ac + (passes s u - 1) + 400) far)
        (Claims.atomToken s l lanes.length (s.ac + (passes s u - 1)) (s.ac + (passes s u - 1) + 400) false far) 1 (fieldsFrom a 1) ∧
      ∀ k, memByte t.mem k ≠ memByte s.mem k → Claims.cachedWritten s k

/-- R246 to R253, R271: an ATOM with SPACE 1 on words of the region, on which no snapshot of the team is still to be taken (R222, R416), sends its requests to the vault port of its core, and its result lands at
least 16 ac after its last pass. No byte of memory changes but by the release actions. -/
def Claims.VaultAtomicsAreSent : Prop :=
  ∀ p ∈ Claims.atoms.zipIdx, ∀ (h : Hd) (d a : RegF) (xr : BitVec 3) (l : Word) (s : State),
    let u := isScalar d
    let lanes := execLanes s u
    let off := fun n => laneOff (rdv s a n) (litDisp l)
    let at_ := fun n => s.myBlock.voff + (off n).toNat
    let q := afterReads s (atomOpnds p.2 (l.getLsbD 25) d a)
    let q := if 2 ≤ litOrd l then releaseCache s.myCore (litScope l) q else q
    let q := q.onBlock s.team.blk fun b => { b with credits := b.credits + 1 }
    let due := s.ac + (passes s u - 1) + 16
    l.getLsbD 26 = true → Claims.atomGoes s u p.2 d a l none → s.team.failed = 0 →
    (∀ n ∈ lanes, 0 ≤ off n ∧ off n + 4 ≤ s.myBlock.vbytes ∧ off n % 4 = 0 ∧ badAt s (vaultKey s.myBlock.core (at_ n)) 4 = false ∧
      snapWaits s (vaultKey s.myBlock.core (at_ n)) 4 = false ∧
      (s.core s.myBlock.core).absent.contains (at_ n / 128) = false ∧ (s.core s.myBlock.core).absent.contains ((at_ n + 3) / 128) = false) →
    ∃ t, exec (p.1 h d a xr l) s = .next t ∧
      Ended (lanes.foldl (fun q n => sendPort s.myBlock.core (Claims.atomRequest s u p.2 d l (vaultKey s.myBlock.core (at_ n)) 0 n false) q) q) t h 8
        (passes s u) [] (Claims.atomPend s d l lanes.length due due none) (Claims.atomToken s l lanes.length due due true none) 1
        (fieldsFrom a 1) ∧ t.mem = q.mem

/-- R128, R225, R226, R237, R239, R245, R250, R253, R351, R424: an ATOM with faulting lanes traps in exactly those lanes; a faulting lane sends no
request and writes no register, and where every lane faults nothing changes but the booking of the issue and the order of use of the TLB. In the
vault, on a clear presence bit of a lane that does not fault, its team parks. -/
def Claims.AtomicsTrapInTheirLanes : Prop :=
  ∀ p ∈ Claims.atoms.zipIdx, ∀ (h : Hd) (d a : RegF) (xr : BitVec 3) (l : Word) (s : State) (leaf : Nat → WalkRes),
    let u := isScalar d
    let vlt := l.getLsbD 26
    let ops := atomOpnds p.2 (l.getLsbD 25) d a
    let lanes := execLanes s u
    let off := fun n => laneOff (rdv s a n) (litDisp l)
    let x := xreg s.team xr.toNat
    let fault := if vlt then Claims.vaultFault s 2 (litDisp l) 4 a s.myBlock else Claims.globalFault s .atomic (litDisp l) 4 a x leaf
    let faults := Claims.faulting s u fault
    let done := Claims.passing s u fault
    let line := fun n i => (s.myBlock.voff + (off n).toNat + i) / 128
    let q := afterReads s ops
    s.split % 4096 = 0 → Issuing s → Ready s u ops (if vlt then none else some xr.toNat) → litScope l < 6 →
    (l.getLsbD 25 = true → litOrd l ≠ 1 ∧ litOrd l ≠ 3) → (u = true → isVec a = false) → acqPending s.team = false →
    (2 ≤ litOrd l → memDrained s.team = true) →
    (vlt = false → ∀ n ∈ lanes, Claims.misses s (litDisp l) 4 a x n → leafOf s (x.base + BitVec.ofInt 57 (off n)).toNat = some (leaf n)) →
    ((∃ n ∈ done, ∃ i < 4, vlt = true ∧ (s.core s.myBlock.core).absent.contains (line n i) = true) →
      ∃ n ∈ done, ∃ i < 4, (s.core s.myBlock.core).absent.contains (line n i) = true ∧
        exec (p.1 h d a xr l) s = .next { q with team := { q.team with park := .absent s.myBlock.core (line n i) } }) ∧
    (faults ≠ [] →
      (vlt = true → ∀ n ∈ done, (∀ i < 4, (s.core s.myBlock.core).absent.contains (line n i) = false) ∧
        snapWaits s (vaultKey s.myBlock.core (s.myBlock.voff + (off n).toNat)) 4 = false) →
      (done ≠ [] → Claims.creditFree s ∧ (l.getLsbD 25 = true ∨ pendCount s.team < 16)) →
      let q := booked (passes s u) (if vlt then q else touchTlb x 4 (lanes.map off) q)
      ∃ t, exec (p.1 h d a xr l) s = .next (Claims.laneTrap faults t) ∧ Claims.onlyIn q t h a done ∧ (done = [] → t = q) ∧
        (∀ k, memByte t.mem k ≠ memByte s.mem k → Claims.cachedWritten s k) ∧
        (∀ c, ∃ rs, (t.cluster c).net = (s.cluster c).net ++ rs ∧ ∀ r ∈ rs, r.lane ∈ done) ∧
        ∀ c, ∃ rs, (t.core c).vport = (s.core c).vport ++ rs ∧ ∀ r ∈ rs, r.lane ∈ done)

/-- The word that a request reads: a free value in a ring slice of a running grid (R214). -/
def Claims.readWord (s : State) (r : Req) : Word := if r.slice then Config.freeWord s.fresh else BitVec.ofNat 32 (Claims.number s r.addr 4)

/-- The state with that free value drawn. -/
def Claims.drawn (r : Req) (s : State) : State := { s with fresh := if r.slice then s.fresh + 1 else s.fresh }

/-- The state after an atomic has been applied to its word (R247): the word is f(old, D, D+1); an INCB on a sealed word stores nothing. -/
def Claims.applied (s : State) (r : Req) (sub : Nat) (d e : Word) : State :=
  let old := Claims.readWord s r
  let new := (Claims.atomFns.getD sub fun _ _ _ => 0) old d e
  let s := Claims.drawn r s
  if sub = 11 ∧ old.getLsbD 31 then s else s.store r.addr ((List.range 4).map fun i => BitVec.ofNat 8 (new.toNat / 2 ^ (8 * i)))

/-- R222, R247, R250 to R252, R281: ATOM_SERVICE_APPLY, for an atomic at the head of its queue that is due, applies it to its word and sends
the old word to its lane. A release at BLK or CORE scope enters the promotion table, and the reply of an acquire at DIE scope or wider to a
word of another core's release is held. Every other byte of memory is unchanged. A request that no port carries between its core and the owner
waits (R1, R382). -/
def Claims.ServiceTeamsApplyAtomics : Prop :=
  ∀ (s : State) (r : Req) (sub : Nat) (d e : Word) (ord scope : Nat),
    let c := s.sel.unit
    let x := s.cluster c
    let old := Claims.readWord s r
    let rel := decide (2 ≤ ord ∧ scope ≤ 1)
    let acq := decide ((ord = 1 ∨ ord = 3) ∧ 3 ≤ scope)
    sub < 14 → x.queue.head? = some r → r.arr < s.ac → x.nextApply ≤ s.ac → reqReaches s r = true → r.op = .atom sub d e ord scope →
    (rel = true → x.promo.length < 32 ∨ ∃ k, (r.addr, k) ∈ x.promo) →
    let q := invalidateLines (coreOf r.tid) (fun tag => tag == r.pa / 128) (paCarried (coreOf r.tid) r.pa
      ((Claims.applied s r sub d e).onCluster c fun y => { y with queue := y.queue.drop 1, nextApply := s.ac + 1 }))
    let q := if rel then q.onCluster c fun y => { y with promo := (y.promo.filter fun z => z.1 != r.addr) ++ [(r.addr, coreOf r.tid)] } else q
    ∃ t, exec .atomServiceApply s = .next t ∧
      t = (match x.promo.find? fun z => z.1 == r.addr with
        | some (w, k) => if acq = true ∧ k ≠ coreOf r.tid then q.onCluster c fun y => { y with held := y.held ++ [(k, w, some (r, old))] }
            else reply r old s.ac q
        | none => reply r old s.ac q) ∧
      (∀ k, k < r.addr ∨ r.addr + 4 ≤ k → memByte t.mem k = memByte s.mem k) ∧
      (r.slice = false → Claims.number t r.addr 4 = ((Claims.atomFns.getD sub fun _ _ _ => 0) old d e).toNat)

/-- R1, R252: ATOM_REQUEST_ENQUEUE puts the arrived requests that reach their owner into the queue of 256, in the order of the keys of R252, and leaves what finds no
room. -/
def Claims.RequestsAreEnqueuedInOrder : Prop :=
  ∀ s : State,
    let x := s.cluster s.sel.unit
    let here := fun (r : Req) => decide (r.arr ≤ s.ac) && reqReaches s r
    ∃ go rest : List Req, (go ++ rest).Perm (x.net.filter here) ∧
      (go ++ rest).Pairwise (fun a b => lexLe (reqKey a) (reqKey b) = true) ∧
      go.length = min (256 - x.queue.length) (x.net.filter here).length ∧
      exec .atomRequestEnqueue s = .next (s.onCluster s.sel.unit fun y => { y with
        net := (y.net.filter fun r => !here r) ++ rest, queue := y.queue ++ go.map fun r => { r with arr := s.ac } })

/-- R252, R256, R258, R271: VAULT_PORT_APPLY applies the first 32 of its arrived requests in the order of R252, one after the other: an
atomic to its word, its reply 15 ac later. -/
def Claims.VaultPortsApplyRequests : Prop :=
  (∀ s : State,
    let x := s.core s.sel.unit
    (x.vport.filter fun r => decide (r.arr ≤ s.ac)) ≠ [] → x.vportNext ≤ s.ac →
    ∃ go rest : List Req, (go ++ rest).Perm (x.vport.filter fun r => decide (r.arr ≤ s.ac)) ∧
      (go ++ rest).Pairwise (fun a b => lexLe (reqKey a) (reqKey b) = true) ∧
      go.length = min 32 (x.vport.filter fun r => decide (r.arr ≤ s.ac)).length ∧
      exec .vaultPortApply s = .next (go.foldl (portApply s.sel.unit) (s.onCore s.sel.unit fun y => { y with
        vport := rest ++ y.vport.filter fun r => decide (s.ac < r.arr), vportNext := s.ac + 1 }))) ∧
  ∀ (core : Nat) (s : State) (r : Req) (sub : Nat) (d e : Word) (ord scope : Nat), sub < 14 → r.op = .atom sub d e ord scope →
    portApply core s r = reply r (Claims.readWord s r) (s.ac + 15) (Claims.applied s r sub d e)

/-- What the lanes of a WADDR meet in the trap of its access (R245, R346, R424): every active lane the package and the address of the word. -/
def Claims.waddrMeets (s : State) (pkg : Nat) (addr : DWord) : FarAccess :=
  { pc := s.team.pc, back := s.team.mcall, lanes := (lanesOf s.team.active).map fun n => (n, pkg, { cause := cREMOTE, faddr := addr }) }

/-- The request of a WADDR (R255): WAIT compares with D and waits for D+1 times 1,024 ac; a WAKE of another package holds what its loss would
raise (R245). -/
def Claims.waddrRequest (s : State) (op : Nat) (d : RegF) (key pa : Nat) (credit : Option Nat) (slice : Bool) (addr : DWord) : Req :=
  let n := lowestLane s.team.active
  { tid := s.team.tid, addr := key, pa := pa, tag := s.nextTag, arr := s.ac + 1, credit := credit, slice := slice
    far := if op ≠ 0 ∧ credit ≠ none ∧ paPkg pa ≠ Config.packageIndex then some (Claims.waddrMeets s (paPkg pa) addr) else none
    op := if op = 0 then .wait (rdn s d 0 n) (rdn s d 1 n) else if op = 1 then .wake else .wakeall }

/-- R156, R225, R245, R251, R253, R255, R387, R424: a WADDR of a word that can be reached takes one pass and sends its request to the word's owner, with a
service credit in the global space, by a port for a word of another package; WAIT then parks its team, which keeps what its access meets in a
trap. A WAIT of a marked word traps ECC. Nothing else changes. -/
def Claims.WaddrSendsItsRequest : Prop :=
  ∀ p ∈ ([.waddrWait, .waddrWake, .waddrWakeall] : List (Hd → RegF → RegF → BitVec 3 → Word → Instr)).zipIdx,
    ∀ (h : Hd) (d a : RegF) (xr : BitVec 3) (l : Word) (s : State),
    let ops := [src a] ++ if p.2 = 0 then [srcPair d] else []
    let q := afterReads s ops
    let off := laneOff (rdu s a) (litDisp l)
    Issuing s → Ready s false ops (if l.getLsbD 26 then none else some xr.toNat) → isVec a = false → (p.2 = 0 → isScalar d = true) →
    acqPending s.team = false →
    (∀ v : Nat, l.getLsbD 26 = true → off = v → v % 4 = 0 → v + 4 ≤ s.myBlock.vbytes →
      (s.core s.myBlock.core).absent.contains ((s.myBlock.voff + v) / 128) = false →
      (s.core s.myBlock.core).absent.contains ((s.myBlock.voff + v + 3) / 128) = false →
      let key := vaultKey s.myBlock.core (s.myBlock.voff + v)
      snapWaits s key 4 = false →
      (p.2 = 0 → badAt s key 4 = true → exec (p.1 h d a xr l) s = .next (Claims.laneTrap
        ((lanesOf s.team.active).map fun n => (n, { cause := cECC, faddr := BitVec.ofNat 64 v, lsub := 2 })) (booked 1 q))) ∧
      ((p.2 = 0 → badAt s key 4 = false) →
        ∃ t, Ended (sendPort s.myBlock.core (Claims.waddrRequest s p.2 d key 0 none false (BitVec.ofNat 64 v)) q) t h 8
            1 [] [] [] 1 (fieldsFrom a 1) ∧
          exec (p.1 h d a xr l) s = .next (if p.2 = 0 then parkAt .watch (t.onTeam fun k => { k with
            farWait := some (Claims.waddrMeets s Config.packageIndex (BitVec.ofNat 64 v)) }) else t))) ∧
    ∀ (pa : Nat) (nc : Bool), l.getLsbD 26 = false →
      laneAccess s .load (xreg s.team xr.toNat) off 4 (lowestLane s.team.active) = .ok pa nc →
      let va := ((xreg s.team xr.toNat).base + BitVec.ofInt 57 off).toNat
      let addr := BitVec.ofNat 64 va
      let r := Claims.waddrRequest s p.2 d ((paKey s pa).getD 0) pa (some s.team.blk) (inSlice s s.myCtx va 4) addr
      let q1 := (touchTlb (xreg s.team xr.toNat) 4 [off] (q.spokenTo s.myCore (paPkg pa))).onBlock s.team.blk fun b =>
        { b with credits := b.credits + 1 }
      (∀ k, p.2 = 0 → eccOf s s.myCore pa 4 = some k → exec (p.1 h d a xr l) s = .next (Claims.laneTrap
        ((lanesOf s.team.active).map fun n => (n, { cause := cECC, faddr := addr, lsub := k })) (booked 1 q))) ∧
      ((p.2 = 0 → eccOf s s.myCore pa 4 = none) → Claims.creditFree s →
        ∃ t, Ended (match paKind s.split pa with | .vault c _ => sendPort c r q1 | _ => sendCluster (ownerCluster pa) r q1) t h 8
            1 [] [] [] 1 (fieldsFrom a 1) ∧
          exec (p.1 h d a xr l) s = .next (if p.2 = 0 then parkAt .watch (t.onTeam fun k => { k with
            farWait := some (Claims.waddrMeets s (paPkg pa) addr) }) else t))

/-- R256, R424: what a WAIT that is served does: where its word has been marked since, its team traps ECC; where it still has the value that it
waits on and the table has room, `record` keeps its watch; else its team goes on. -/
def Claims.waited (s : State) (r : Req) (d e : Word) (room : Bool) (record : Watch → State → State) (q : State) : State :=
  if badAt s r.addr 4 then waitEcc r.tid (if 2 ^ 42 ≤ r.addr ∧ r.addr < 2 ^ 57 then 2 else 4) q
  else if Claims.readWord s r = d ∧ room = true then
    record { addr := r.addr, tid := r.tid, parkAc := s.ac, timeout := e.toNat } (Claims.drawn r q)
  else wakeWatcher r.tid (Claims.drawn r q)

/-- R245, R344, R351, R424: the trap of a parked WAIT, in focus, whose word is marked: ECC in the lanes of its access, resumed where the team was. -/
def Claims.MarkedWaitsTrap : Prop :=
  ∀ (s : State) (f : FarAccess) (lsub : Nat), s.team.present = true → s.team.park = .watch → s.team.farWait = some f →
    waitEcc s.team.tid lsub s = Claims.trapped
      { cause := cECC, lanes := f.lanes.map fun x => (x.1, { x.2.2 with cause := cECC, lsub := lsub }), mask := maskOf (f.lanes.map (·.1))
        saved := Claims.fullMask s.team, tpc := f.pc, tnext := s.team.pc, boundary := true, late := some f.back } s

/-- The state in which a request at the head of a service team's queue is served: its answer has gone the way of the request (R387). -/
def Claims.popped (s : State) (c : Nat) (r : Req) : State :=
  paCarried (coreOf r.tid) r.pa (s.onCluster c fun y => { y with queue := y.queue.drop 1, nextApply := s.ac + 1 })

/-- The watchers that leave a table go on where the owner reaches them, and else are to be woken once it does (R1). -/
def Claims.wokenOf (gone : List Watch) (q : State) : State :=
  (gone.filter fun w => watcherReached q w.tid).foldl (fun q w => wakeWatcher w.tid q)
    { q with waking := q.waking ++ gone.filter fun w => !watcherReached q w.tid }

/-- R258: the watchers that a WAKE of a word wakes, the earliest, or a WAKEALL, every one. -/
def Claims.woken (r : Req) (ws : List Watch) : List Watch :=
  if r.op = .wakeall then ws.filter fun w => w.addr == r.addr else (ws.filter fun w => w.addr == r.addr).take 1

/-- R252, R253, R256, R258: at the head of its queue, and at a vault port, a WAIT whose word still has the value it waits on is recorded while the
table has room, 256 of a service team or 64 of a port, and else its team goes on; a WAKE wakes the earliest watcher of its word and a WAKEALL
every one. Credits return; no byte of memory changes. A request that no port carries waits, and so does the wake of a watcher (R1). -/
def Claims.WatchesAreRecordedAndWoken : Prop :=
  (∀ (s : State) (r : Req) (d e : Word),
    let c := s.sel.unit
    let x := s.cluster c
    x.queue.head? = some r → r.arr < s.ac → x.nextApply ≤ s.ac → reqReaches s r = true → r.op = .wait d e →
    exec .waitCompareRecord s = .next (Claims.waited s r d e (decide (x.watches.length < 256))
      (fun w q => q.onCluster c fun y => { y with watches := y.watches ++ [w] })
      (reqCredit r (Claims.popped s c r)))) ∧
  (∀ (s : State) (r : Req),
    let c := s.sel.unit
    let x := s.cluster c
    x.queue.head? = some r → r.arr < s.ac → x.nextApply ≤ s.ac → reqReaches s r = true → (r.op = .wake ∨ r.op = .wakeall) →
    let gone := Claims.woken r x.watches
    let q := reqCredit r (Claims.popped s c r)
    exec .wakeService s = .next (Claims.wokenOf gone
      (q.onCluster c fun y => { y with watches := y.watches.filter fun w => !gone.contains w }))) ∧
  (∀ (core : Nat) (s : State) (r : Req) (d e : Word), r.op = .wait d e →
    portApply core s r = Claims.waited s r d e (decide ((s.core core).vwatch.length < 64))
      (fun w q => q.onCore core fun y => { y with vwatch := y.vwatch ++ [w] }) (reqCredit r s)) ∧
  ∀ (core : Nat) (s : State) (r : Req), (r.op = .wake ∨ r.op = .wakeall) →
    let gone := Claims.woken r (s.core core).vwatch
    portApply core s r = gone.foldl (fun q w => wakeWatcher w.tid q)
      ((reqCredit r s).onCore core fun y => { y with vwatch := y.vwatch.filter fun w => !gone.contains w })

/-- Every team but the one in focus is filed once, under its id; TablesStayInOrder says that steps keep it. -/
def Claims.filed (s : State) : Prop :=
  (∀ k u, mget? s.teams k = some u → u.tid = k ∧ u.present = true) ∧ (s.team.present = true → mget? s.teams s.team.tid = none)

/-- R257: a write removes the watches of the lines that it touches, from every table, and their teams are to be woken; WATCH_WRITE_WAKE wakes
them. The end of its time and a spurious wake remove exactly the watches that they name, in every table, and wake their teams, where the owner of the word reaches them (R1). A team that no
such watch names, or that does not wait on one, stays as it is; memory is unchanged. -/
def Claims.WatchesEnd : Prop :=
  (∀ (s : State) (k : Nat) (bs : List Byte),
    let t := s.store k bs
    let hit := fun (w : Watch) => decide (k / 128 ≤ w.addr / 128 ∧ w.addr / 128 ≤ (k + bs.length - 1) / 128)
    (∀ c, (t.cluster c).watches = (s.cluster c).watches.filter fun w => !hit w) ∧
    (∀ c, (t.core c).vwatch = (s.core c).vwatch.filter fun w => !hit w) ∧
    ∀ w, w ∈ t.waking ↔ (w ∈ s.waking ∨ hit w = true ∧ ((∃ c ∈ s.clusters, w ∈ c.2.watches) ∨ ∃ c ∈ s.cores, w ∈ c.2.vwatch))) ∧
  (∀ s : State, ∃ t, exec .watchWriteWake s = .next t ∧ t.mem = s.mem ∧ t.waking = s.waking.filter (fun w => !(w.addr / 128 == s.sel.word && watcherReached s w.tid)) ∧
    (Claims.filed s → ∀ tid, t.teamAt tid = (s.teamAt tid).map fun k =>
      if k.park = .watch ∧ ∃ w ∈ s.waking, w.addr / 128 = s.sel.word ∧ watcherReached s w.tid = true ∧ w.tid = tid then unparked s.ac k else k)) ∧
  ∀ p ∈ ([(.watchTimeout, fun s w => w.tid == s.sel.unit && w.timeout != 0 && decide (w.parkAc + 1024 * w.timeout ≤ s.ac) && watcherReached s w.tid),
      (.spuriousWake, fun s w => w.tid == s.sel.unit && watcherReached s w.tid)] : List (Instr × (State → Watch → Bool))), ∀ s : State,
    ∃ t, exec p.1 s = .next t ∧ t.mem = s.mem ∧
      (∀ c, (t.cluster c).watches = (s.cluster c).watches.filter fun w => !p.2 s w) ∧
      (∀ c, (t.core c).vwatch = (s.core c).vwatch.filter fun w => !p.2 s w) ∧
      (Claims.filed s → ∀ tid, t.teamAt tid = (s.teamAt tid).map fun k =>
        if k.park = .watch ∧ ((s.clusters.flatMap fun c => c.2.watches) ++ s.cores.flatMap fun c => c.2.vwatch).any
            (fun w => p.2 s w && w.tid == tid) = true then unparked s.ac k else k)

/-- R281: PROMOTION_WRITEBACK writes the releasing core's cache back, removes the entry of the promotion table, and sends the reply that it
held. -/
def Claims.PromotedReleasesAreWrittenBack : Prop :=
  ∀ (s : State) (core w : Nat) (who : Option (Req × Word)) (rest : List (Nat × Nat × Option (Req × Word))),
    (s.cluster s.sel.unit).held = (core, w, who) :: rest →
    let q := (writeBackAll core s).onCluster s.sel.unit fun x => { x with
      held := rest, promo := x.promo.filter fun e => !(e.1 == w && e.2 == core) }
    exec .promotionWriteback s = .next (match who with | some (r, old) => reply r old s.ac q | none => q)

/-- R128, R214, R226, R237, R239, R245, R246, R247, R248, R249, R250, R251, R252, R253, R271, R275: Global and vault atomics leave as requests.
It rests on choices of the model: log entries 1, 15, 20, 31 and 47. -/
def Obligations.AtomicsAreSent : Prop := Claims.GlobalAtomicsAreSent ∧ Claims.VaultAtomicsAreSent ∧ Claims.AtomicsTrapInTheirLanes

/-- R222, R247, R250, R251, R252, R256, R258, R271, R281: Service teams and vault ports apply requests in order; promoted releases are written back.
It rests on choices of the model: log entries 1, 14, 17 and 20. -/
def Obligations.AtomicsAreAppliedInOrder : Prop := Claims.ServiceTeamsApplyAtomics ∧ Claims.RequestsAreEnqueuedInOrder ∧ Claims.VaultPortsApplyRequests ∧ Claims.PromotedReleasesAreWrittenBack

/-- R156, R225, R245, R251, R252, R253, R255, R256, R257, R258: WADDR and its watches.
It rests on choices of the model: log entries 1, 14, 19, 20, 31 and 49. -/
def Obligations.AddressWaitsAreRecordedAndWoken : Prop :=
  Claims.WaddrSendsItsRequest ∧ Claims.WatchesAreRecordedAndWoken ∧ Claims.MarkedWaitsTrap ∧ Claims.WatchesEnd

/-! ### Fences and barriers -/

/-- R259, R260, R275: a FENCE of a legal scope parks its team; FENCE_DRAIN_END, once the accesses that it covers are performed, does its cache
actions, a release before an acquire, and the team goes on.
It rests on choices of the model: log entry 15. -/
def Obligations.FencesOrderTheCache : Prop :=
  (∀ p ∈ ([.fenceSc, .fenceAcq, .fenceRel, .fenceAr] : List (Hd → BitVec 3 → Instr)).zipIdx, ∀ (h : Hd) (c : BitVec 3) (s : State),
    Issuing s → c.toNat < 6 → ∃ t, Ended s t h 4 1 [] [] [] 0 ∧ exec (p.1 h c) s = .next (parkAt (.fence p.2 c.toNat) t)) ∧
  ∀ (s : State) (kind scope : Nat), s.hasTeam s.sel.unit = true →
    let q := Claims.sel s
    q.team.park = .fence kind scope → (kind ≠ 1 → q.team.stores = []) → (∀ p ∈ q.team.pend, p.mem = false ∧ p.acq = none) →
    let r := if kind ≠ 1 ∧ 2 ≤ scope then writeBackAll q.myCore q else q
    exec .fenceDrainEnd s = .next (Claims.ret s (unpark (if kind ≠ 2 ∧ 2 ≤ scope then invalidateCache q.myCore r else r)))

/-- The barrier word `i` of a block after an arrival (R264, R266), and the teams that its completion wakes. -/
def Claims.arrived (s : State) (i tgt : Nat) : State :=
  let w := mget 0 s.myBlock.barw i
  let target := if w.toNat / 2 ^ 16 % 2 ^ 15 = 0 then tgt else w.toNat / 2 ^ 16 % 2 ^ 15
  let full := w.toNat % 2 ^ 16 + 1 = target
  let phase := if full then !w.getLsbD 31 else w.getLsbD 31
  let new := BitVec.ofNat 32 (phase.toNat * 2 ^ 31 + target * 2 ^ 16 + if full then 0 else w.toNat % 2 ^ 16 + 1)
  let bit := BitVec.ofNat 64 (2 ^ i)
  let s := s.onTeam fun t => { t with
    barPend := t.barPend ||| bit, barPhase := if w.getLsbD 31 then t.barPhase ||| bit else t.barPhase &&& ~~~ bit }
  let s := s.onBlock s.team.blk fun b => { b with barw := mset 0 b.barw i new }
  if full then { s with teams := mmap (barWake s.ac s.team.blk i) s.teams } else s

/-- R264 to R266: ARRIVE counts its team in, records the phase, and with the last arrival turns the phase over and wakes the teams that wait on
the word; WAIT goes on when the recorded phase is over, else parks its team. The other words and everything else are unchanged. -/
def Claims.BarriersCountArrivals : Prop :=
  (∀ p ∈ ([(.barArrive, false), (.barSync, true)] : List ((Hd → RegF → RegF → Instr) × Bool)), ∀ (h : Hd) (d a : RegF) (s : State),
    let q := afterReads s [src a, src d]
    let i := (rdu s a).toNat
    let tgt := (rdu s d).toNat % 2 ^ 15
    let w := mget 0 s.myBlock.barw i
    Issuing s → Ready s false [src a, src d] → isVec a = false → isVec d = false → i < s.myBlock.barriers → s.myBlock.barriers ≤ 64 → tgt ≠ 0 →
    (w.toNat / 2 ^ 16 % 2 ^ 15 = 0 ∨ w.toNat / 2 ^ 16 % 2 ^ 15 = tgt) → w.toNat % 2 ^ 16 < 2 ^ 16 - 1 → memDrained s.team = true → acqPending s.team = false →
    (p.2 = true → s.team.hmode = false) →
    ∃ t, Ended (Claims.arrived q i tgt) t h 4 1 [] [] [] 0 (fieldsFrom a 1) ∧ exec (p.1 h d a) s = .next (if p.2 then barWait i t else t)) ∧
  (∀ (h : Hd) (a : RegF) (s : State), Issuing s → Ready s false [src a] → isVec a = false → (rdu s a).toNat < s.myBlock.barriers →
    s.team.hmode = false →
    ∃ t, Ended (afterReads s [src a]) t h 4 1 [] [] [] 0 (fieldsFrom a 1) ∧ exec (.barWait h a) s = .next (barWait (rdu s a).toNat t)) ∧
  ∀ (s : State) (i : Nat), i < 64 →
    barWait i s = if s.team.barPend.getLsbD i = true ∧ (mget 0 s.myBlock.barw i).getLsbD 31 = s.team.barPhase.getLsbD i
      then parkAt (.bar i (s.team.barPhase.getLsbD i)) s
      else s.onTeam fun t => { t with barPend := t.barPend &&& ~~~ BitVec.ofNat 64 (2 ^ i) }

/-- R266: a team that waits at a word wakes when its phase completes: its record of the word is cleared, and it goes on from the next ac. -/
def Claims.LastArrivalWakesTheWaiters : Prop :=
  ∀ (ac k i j : Nat) (ph : Bool) (t : Team), i < 64 → j < 64 → t.park = .bar j ph →
    barWake ac k i t = if t.blk = k ∧ j = i then unparked ac { t with barPend := t.barPend &&& ~~~ BitVec.ofNat 64 (2 ^ i) } else t

/-- R267, R268, R270, R275: WBAR of a legal id, with no other team of the block at another id, parks its team, once everything it has issued
has landed and been accepted. When every block of the grid has arrived, WBAR_PHASE_END writes back the cache of each arrived block's core,
invalidates those of the resident blocks, lets their teams go on, and leaves the saved blocks to be placed again in the order of their
indexes. -/
def Claims.WideBarriersJoinTheGrid : Prop :=
  (∀ (h : Hd) (a : RegF) (s : State),
    let w := (rdu s a).toNat
    Issuing s → Ready s false [src a] → isVec a = false → w < s.myGrid.launch.wbars → s.myBlock.kind = .grid → s.team.hmode = false →
    (∀ t ∈ s.allTeams, t.blk = s.team.blk → t.tid ≠ s.team.tid → ∀ v, t.park = .wbar v ∨ t.park = .wbarDrain v → v = w) →
    ∃ t, Ended (afterReads s [src a]) t { h with sw := false } 4 1 [] [] [] 0 (fieldsFrom a 1) ∧
      exec (.wbar h a) s = .next (if s.team.pend = [] ∧ s.team.stores = [] then parkWbar w t else parkAt (.wbarDrain w) t)) ∧
  (∀ (w : Nat) (s : State), s.team.traced = false → parkWbar w s = { s with team := { s.team with park := .wbar w } }) ∧
  ∀ s : State,
    let g := s.sel.unit
    let w := s.sel.sub
    let x := s.grid g
    let here := gridBlocks s g
    x.launch.gx * x.launch.gy * x.launch.gz ≤ x.nextBlk → x.restore = [] → here ≠ [] ∨ x.saved ≠ [] →
    (∀ b ∈ here, b.2.phase = .running ∧ (∃ t ∈ s.allTeams, t.blk = b.1) ∧ ∀ t ∈ s.allTeams, t.blk = b.1 → t.park = .wbar w) →
    (∀ b ∈ x.saved, b.wbar = w) →
    let q := ((here.map fun b => b.2.core) ++ x.saved.map fun b => b.block.core).foldl (fun q c => writeBackAll c q) s
    let q := (here.map fun b => b.2.core).foldl (fun q c => invalidateCache c q) q
    let wake := fun (t : Team) => if (here.map (·.1)).contains t.blk then unparked s.ac t else t
    ∃ t, exec .wbarPhaseEnd s = .next t ∧
      t = ({ q with team := wake s.team, teams := mmap wake s.teams }).onGrid g (fun y => { y with saved := [], restore := (t.grid g).restore }) ∧
      (t.grid g).restore.Perm x.saved ∧ (t.grid g).restore.Pairwise fun a b => a.block.lin ≤ b.block.lin

/-- R264, R265, R266, R267, R268, R270, R275: Block barriers and wide barriers.
It rests on choices of the model: log entries 15, 47 (WBAR takes one pass) and 69 (a teammate that still drains at a WBAR). -/
def Obligations.BarriersCountAndWake : Prop := Claims.BarriersCountArrivals ∧ Claims.LastArrivalWakesTheWaiters ∧ Claims.WideBarriersJoinTheGrid

/-! ### Teams as relations -/

/-- The waiting Vat instruction that a team issues (R198, R199): it starts after its last pass. -/
def Claims.vatJob (s : State) (moves : List (Nat × Nat)) (writes : List RegWrite) (route : List (Nat × Nat)) (dense : Bool) (cost : Nat) : VatJob :=
  { tid := s.team.tid, issued := s.ac, start := s.ac + passesOf s.team - 1, moves := moves, writes := writes, route := route, dense := dense, cost := cost }

/-- Ac for the registers of the lanes that the Vat moves (R219). -/
def Claims.vatMoves (s : State) (moves : List (Nat × Nat)) : Nat :=
  (s.team.nregs + if s.team.handler.isSome then 16 else 0) * changedGroups s.team.live moves

/-- `t` is the state after a Vat instruction with that job has been issued: the job waits at the core, the team is parked, and nothing else
changes but by last-use hints on the fields `fa` of A and `fb` of B (R199). -/
def Claims.VatIssued (s t : State) (h : Hd) (len : Nat) (j : VatJob) (fa fb : List Nat) : Prop :=
  ∃ m, Ended (s.onCore s.myCore fun c => { c with vatq := vatInsert j c.vatq }) m h len (passesOf s.team) [] [] [] 0 fa fb ∧ t = parkAt .vat m

/-- R202, R203: the columns of a combine descriptor, and whether one that a member reads is dead. -/
def Claims.deadColumn (s : State) (x : Nat) : Bool :=
  (combinePairs x).any fun p => p.2 != 10 && (lanesOf s.team.active).any fun m => regDead s.team (s.team.wbase + p.1) m

/-- R199 to R206: GROUP with a sound descriptor issues one Vat instruction: the members of each key combine into the first of them, with each
column's operator; the first members take the lowest positions, in the order of first occurrence or of the keys, and the other live lanes the
ones after them. -/
def Claims.GroupIssuesItsCombination : Prop :=
  ∀ (h : Hd) (d a : RegF) (n4 : BitVec 4) (l : Word) (s : State),
    let x := relDesc s n4.toNat
    let ops := (if relKw x then [src a] else []) ++ [src d]
    let members := lanesOf s.team.active
    let q := afterReads s ops
    let q := if Claims.deadColumn s x then q.onTeam setPoisoned else q
    let keys := members.map fun m => (m, (Claims.offer s d m).toNat + if relKw x then (Claims.offer s a m).toNat * 2 ^ 32 else 0)
    let classes := classesOf keys
    let ranked := if l.getLsbD 0 then classes else sortBy (fun p q => p.1 ≤ q.1) classes
    let others := (lanesOf s.team.live).filter fun m => !s.team.active.getLsbD m
    let moves := (ranked.map fun p => p.2.headD 0).zipIdx ++ others.zipIdx.map fun p => (p.1, ranked.length + p.2)
    Issuing s → s.team.pend = [] → s.team.hmode = false → Ready s false ops → combineOk x d.toNat a.toNat = true →
    (∀ p ∈ combinePairs x, s.team.wbase + p.1 < s.team.nregs) → (Claims.deadColumn s x = true → s.team.tstat.getLsbD 1 = false) →
    (∀ p ∈ combinePairs x, p.2 ≠ 10 → ∀ m ∈ members, regBad s.team (s.team.wbase + p.1) m = false) →
    ∃ t, exec (.group h d a n4 l) s = .next t ∧
      Claims.VatIssued q t h 8 (Claims.vatJob s moves
        (classes.flatMap fun p => (combinePairs x).map fun c =>
          ⟨p.2.headD 0, s.team.wbase + c.1, combineVal c.2 (p.2.map fun m => (readReg s (s.team.wbase + c.1) m).1)⟩)
        [] false (12 + 4 * (groupsOf s.team.active).length + Claims.vatMoves s moves))
        (if relKw x then fieldsFrom a 1 else []) []

/-- R203: every operator but KEEP and LAST, which name one member, gives the same value in whatever order the members of a key are taken: the
integer and the floating-point sums, least and greatest values, AND, OR, XOR and COUNT. -/
def Claims.CombinationsDoNotDependOnOrder : Prop :=
  ∀ op ∈ [1, 2, 3, 4, 5, 6, 7, 8, 9, 10], ∀ a b : List Word, a.Perm b → combineVal op a = combineVal op b

/-- R199, R216 to R219: REGRP of a whole team with keys below the bound issues one Vat instruction that brings the lanes of each key
together in a run and writes each lane's index in its run to D; DROP issues one that lets the lanes whose A is not zero leave, the others closing
up; a special A of DROP is one value for all of them (R14, R218). -/
def Claims.RegrpAndDropIssueTheirMoves : Prop :=
  (∀ (h : Hd) (d a b : RegF) (s : State),
    let c := (rdu s b).toNat
    let members := lanesOf s.team.active
    let runs := ((List.range c).map fun k => (k, members.filter fun l => (rdv s a l).toNat == k)).filter fun p => !p.2.isEmpty
    let r := regrpRuns s.team.lanes runs 0 false
    Issuing s → s.team.pend = [] → s.team.hmode = false → Ready s false [src a, src b, dst d] → isVec a = true → isVec d = true → isVec b = false →
    1 ≤ c → c ≤ 64 → s.team.active = s.team.live → (∀ m ∈ members, (rdv s a m).toNat < c) →
    ∃ t, exec (.regrp h d a b) s = .next t ∧
      Claims.VatIssued (afterReads s [src a, src b, dst d]) t h 4 (Claims.vatJob s r.1
        (runs.flatMap fun p => p.2.zipIdx.map fun m => ⟨m.1, regCode s.team d.toNat, BitVec.ofNat 32 m.2⟩) r.2.1 r.2.2
        (8 + 2 * (groupsOf s.team.active).length + Claims.vatMoves s r.1)) (fieldsFrom a 1) (fieldsFrom b 1)) ∧
  ∀ (h : Hd) (a : RegF) (s : State),
    let stay := (lanesOf s.team.live).filter fun m => !(s.team.active.getLsbD m && Claims.offer s a m != 0)
    Issuing s → s.team.pend = [] → s.team.hmode = false → Ready s false [src a] →
    ∃ t, exec (.drop h a) s = .next t ∧
      Claims.VatIssued (afterReads s [src a]) t h 4 (Claims.vatJob s stay.zipIdx [] [] false (4 + Claims.vatMoves s stay.zipIdx))
        (fieldsFrom a 1) []

/-- R217: the runs of REGRP keep their lanes in order at rising positions below the team's number of lanes, and each begins at a multiple of
32 unless the runs were packed densely. -/
def Claims.RegrpKeepsRunsTogether : Prop :=
  ∀ (lanes : Nat) (runs : List (Nat × List Nat)),
    let r := regrpRuns lanes runs 0 false
    (runs.flatMap (·.2)).length ≤ lanes →
    r.1.map (·.1) = runs.flatMap (·.2) ∧ (r.1.map (·.2)).Pairwise (· < ·) ∧ (∀ p ∈ r.1, p.2 < lanes) ∧
      r.2.1 = (runs.map fun p => (p.1, p.2.length)) ∧
      (r.2.2 = false → ∀ p ∈ runs, ∀ m ms, p.2 = m :: ms → ∃ k, (m, k) ∈ r.1 ∧ k % 32 = 0)

/-- R200, R122, R217, R424: `u` is the team of `s` after the renumbering of a Vat instruction: every lane that moves takes its registers, its dead
flags, its error marks and its bits in the masks to its new position, after the writes of the instruction; positions without a lane are undefined,
and a store that is still to be accepted is one of its lanes at their new positions. Nothing else of the team changes. -/
def Claims.Renumbered (s : State) (j : VatJob) (u : Team) : Prop :=
  let moved := fun (m m' : Mask) => ∀ i < 1024, m'.getLsbD i = true ↔ ∃ o, (o, i) ∈ j.moves ∧ m.getLsbD o = true
  moved s.team.live u.live ∧ moved s.team.active u.active ∧
  (∀ i < 1024, u.vundef.getLsbD i = (decide (i < s.team.lanes) && !u.live.getLsbD i)) ∧
  (u.rstack.length = s.team.rstack.length ∧ ∀ e ∈ s.team.rstack.zip u.rstack, e.2 = { e.1 with mask := e.2.mask } ∧ moved e.1.mask e.2.mask) ∧
  (u.stores.length = s.team.stores.length ∧ ∀ e ∈ s.team.stores.zip u.stores,
    e.2 = { e.1 with lanes := e.2.lanes, far := e.1.far.map (moveFar j.moves) } ∧ moved e.1.lanes e.2.lanes) ∧
  (∀ p ∈ j.moves, ∀ c < 512, regBits { s with team := u } c p.2 = (written j.writes c p.1).getD (regBits s c p.1) ∧
    regDead u c p.2 = (regDead s.team c p.1 && (written j.writes c p.1).isNone) ∧
    u.rbad.contains (regKey c p.2) = (s.team.rbad.contains (regKey c p.1) && (written j.writes c p.1).isNone)) ∧
  (∀ k, 2 ^ 20 ≤ k → u.rbad.contains k = s.team.rbad.contains k) ∧
  u = { s.team with
    v := u.v, vdead := u.vdead, rbad := u.rbad, vundef := u.vundef, live := u.live, active := u.active, rstack := u.rstack, stores := u.stores
    events := s.team.events.map (moveEvent j.moves)
    tstat := if j.dense then s.team.tstat ||| tstatRegrpDense else s.team.tstat }

/-- `t` is `r` but for what tracing adds (R364, R370). -/
def Claims.tracedFrom (r t : State) : Prop :=
  TraceOnly r t ∧ t = { r with cores := t.cores, team := { r.team with tr := t.team.tr } }

/-- R198, R200, R115, R206, R217, R218, R370: VAT_START takes the first waiting instruction of a core when the Vat is free. VAT_COMPLETE, for the team
in focus, renumbers it and lets it go on; nothing else changes but what a traced team emits. With no live lane left the team ends; with live lanes
but no active one it performs POP, and traps ILLOPND where no entry holds a live lane.
It rests on choices of the model: log entries 1, 36 and 66 (a POP inside an expansion). -/
def Obligations.TheVatRenumbersItsTeam : Prop :=
  (∀ (s : State) (j : VatJob) (rest : List VatJob),
    let k := s.core s.sel.unit
    k.vat = none → k.vatq = j :: rest → j.start ≤ s.ac → k.vatFree ≤ s.ac →
    exec .vatStart s = .next (s.setCore s.sel.unit { k with vat := some { j with done := s.ac + j.cost }, vatq := rest })) ∧
  ∀ (s : State) (j : VatJob),
    (s.core s.sel.unit).vat = some j → j.done ≤ s.ac → s.team.present = true → s.team.tid = j.tid →
    (j.moves.map (·.1)).Nodup → (j.moves.map (·.2)).Nodup → (∀ p ∈ j.moves, p.1 < 1024 ∧ p.2 < 1024) → (∀ w ∈ j.writes, w.reg < 512) →
    (s.team.v.map (·.1)).Pairwise (· < ·) → (s.team.vdead.map (·.1)).Pairwise (· < ·) →
    ∃ u, Claims.Renumbered s j u ∧
      let r := { s.onCore s.sel.unit (fun k => { k with
          vat := none, vatFree := s.ac + 1, route := j.route.foldl (fun r p => mset 0 r p.1 (mget 0 r p.1 + BitVec.ofNat 32 p.2)) k.route }) with
        clusters := (moveReqs j.tid j.moves s).clusters, team := unparked s.ac u }
      (u.active ≠ 0 → u.live ≠ 0 → ∃ t, exec .vatComplete s = .next t ∧ Claims.tracedFrom r t) ∧
      (u.live = 0 → mget? s.teams s.team.tid = none → ∃ t, exec .vatComplete s = .next t ∧ t.hasTeam s.team.tid = false ∧ t.mem = s.mem ∧
        (t.block s.team.blk).tokens = (s.block s.team.blk).tokens ++ u.stores ∧ ∀ k, { t.block k with tokens := [] } = { s.block k with tokens := [] }) ∧
      (∀ (dropped rest : List REntry) (e : REntry), u.live ≠ 0 → u.active = 0 → u.rstack = dropped ++ e :: rest →
        (∀ x ∈ dropped, x.mask &&& u.live = 0) → e.mask &&& u.live ≠ 0 →
        ∃ t, exec .vatComplete s = .next t ∧ Claims.tracedFrom { r with team := { restack s.ac rest r.team with
          active := e.mask &&& u.live, fmt := e.fmt
          pc := if u.mcall.isSome then u.pc else e.pc
          mcall := u.mcall.map fun m => { m with ret := some e.pc } } } t) ∧
      (u.live ≠ 0 → u.active = 0 → (∀ x ∈ u.rstack, x.mask &&& u.live = 0) →
        ∃ t, exec .vatComplete s = .next (Claims.trapped
          { cause := cILLOPND, mask := Claims.fullMask u, saved := Claims.fullMask u, tpc := u.pc, tnext := Claims.past u 4 } t) ∧
          Claims.tracedFrom r t)

/-- R210 to R213, R219: SPAWN and JOIN end with D's result outstanding, complete only when the bin has considered every lane, and with their
threads in the list of the bin that their target names, which it serves from `delay` ac after the last pass. -/
def Claims.SpawnIssued (s t : State) (h : Hd) (d : RegF) (join : Bool) (k : Nat) (ths : List (Nat × List (List Word))) (delay : Nat)
    (fa : List Nat) : Prop :=
  let at_ := s.ac + (passesOf s.team - 1) + delay
  let e : Delivery := { tid := s.team.tid, tag := s.nextTag, issued := s.ac, join := join, todo := ths, code := regCode s.team d.toNat, next := at_ }
  let b := binAt s s.myCore k
  Ended (setBin s.myCore k { b with spawns := spawnInsert e b.spawns } s) t h 8 (passesOf s.team) []
    [{ tag := s.nextTag, pc := s.team.pc, regs := [regCode s.team d.toNat], missing := 1, due := at_ }] [] 1 fa

/-- R210 to R213: SPAWN to the entry of a bin that its core holds gives that bin one thread of each active lane, in ascending order, the
registers of A's run as its words. -/
def Claims.SpawnFeedsABin : Prop :=
  ∀ (h : Hd) (d a : RegF) (n3 : BitVec 3) (l : Word) (s : State) (k : Nat),
    let n := n3.toNat + 1
    let ops : List Opnd := [{ f := a.toNat, n := n, ok := isVec a && decide (a.toNat + n ≤ 96) }, { dst d with ok := isVec d }]
    Issuing s → Ready s false ops → s.team.hmode = false → findBin s s.myCore s.myBlock.grid (Claims.target s l) = some k →
    memDrained s.team = true → acqPending s.team = false → pendCount s.team < 16 →
    ∃ t, exec (.spawn h d a n3 l) s = .next t ∧
      Claims.SpawnIssued (afterReads s ops) t h d false k
        ((lanesOf s.team.active).map fun m => (m, [(List.range n).map fun i => rdn s a i m])) (8 + 2 * (groupsOf s.team.active).length)
        (fieldsFrom a n)

/-- R174, R211 to R213, R219, R28: a bin considers the lanes of its first spawning instruction in order. A lane whose threads find room in the FIFO
of a bin whose ring slice is empty enters them at its end, 1 ac for each, and D's result takes 1 for SPAWN, or the number of threads for JOIN; a wait for
the bin adds to the instruction's ac; a lane after a refusal, or whose threads find no room, enters none, and its D is 0, or all ones for JOIN. With the last lane D's result is complete, and
with a refusal its landing sets TSTAT.SPAWNFULL. -/
def Claims.BinsAcceptThreadsInOrder : Prop :=
  ∀ (c k : Nat) (s : State) (d : Delivery) (rest : List Delivery),
    let b := binAt s c k
    let t := deliverOne c k s
    let kept := fun (w : Word) (l : Nat) => { s.team with
      pend := s.team.pend.map fun p => if p.tag = d.tag then { p with writes := p.writes ++ [⟨l, d.code, w⟩] } else p }
    b.spawns = d :: rest → d.next ≤ s.ac → s.team.present = true → s.team.tid = d.tid → refill c k s = s →
    (∀ l ths todo, d.todo = (l, ths) :: todo → d.stop = false → ringCount s c b = 0 → b.fifo.length + ths.length ≤ 32 * b.be.blanes →
      (d.join = false → ths.length = 1) →
      (binAt t c k).fifo = b.fifo ++ ths ∧ (binAt t c k).spawns = { d with todo := todo, next := s.ac + ths.length } :: rest ∧
        t.mem = s.mem ∧ t.team = kept (if d.join then BitVec.ofNat 32 ths.length else 1) l) ∧
    (∀ l ths todo, d.todo = (l, ths) :: todo → (d.stop = true ∨ binSpace s c k < if d.join then ths.length else 1) →
      binAt t c k = { b with spawns := { d with todo := todo, stop := true, next := s.ac } :: rest } ∧
        t.mem = s.mem ∧ t.team = kept (if d.join then 0xFFFFFFFF#32 else 0) l) ∧
    (d.todo = [] → binAt t c k = { b with spawns := rest } ∧ t.mem = s.mem ∧ t.team = { s.team with
      pend := s.team.pend.map fun p => if p.tag = d.tag then
        { p with missing := 0, due := max p.due s.ac, tstat := if d.stop then BitVec.ofNat 32 (2 ^ 3) else 0 } else p })

/-- R207 to R213, R22: JOIN of a sound relation with the members' keys gives the bin that its target names, for each member in ascending
order, a thread of each row whose key is the member's: the key, the left columns and the right columns. -/
def Claims.JoinEmitsTheMatchingRows : Prop :=
  ∀ (h : Hd) (d a : RegF) (n4 : BitVec 4) (l : Word) (s : State) (k : Nat) (r : Block),
    let x := relDesc s n4.toNat
    let kw := relKw x
    let ops := (if kw then [src a] else []) ++ [srcDst d]
    let words := x / 2 ^ 16 % 16 + 1
    let rcols := (List.range (x / 2 ^ 24 % 8)).map fun i => x / 2 ^ (96 + 8 * i) % 16
    let lcols := (List.range (x / 2 ^ 20 % 8)).map fun i => x / 2 ^ (64 + 8 * i) % 128
    let rel := x / 2 ^ 32 % 2 ^ 32
    let base := vaultKey r.core (r.voff + rel)
    let nrows := Claims.number s base 2
    let rows := (List.range nrows).map fun i => (List.range words).map fun j => BitVec.ofNat 32 (Claims.number s (base + 16 + 4 * words * i + 4 * j) 4)
    let members := lanesOf s.team.active
    let dead := lcols.any fun c => members.any fun m => regDead s.team (s.team.wbase + c) m
    let q := if dead then (afterReads s ops).onTeam setPoisoned else afterReads s ops
    let ths := members.map fun m => (m, (rows.filter fun row => rowKey kw row == keyOf s kw d a m).map fun row =>
      rdv s d m :: (if kw then [rdv s a m] else []) ++ lcols.map (fun c => (readReg s (s.team.wbase + c) m).1) ++ rcols.map fun w => row.getD w 0)
    Issuing s → Ready s false ops → isVec d = true → s.team.hmode = false → relKind x = 2 → lcols.length ≤ 4 → rcols.length ≤ 4 →
    (kw = true → words ≠ 1) → (∀ w ∈ rcols, w < words) → (∀ c ∈ lcols, s.team.wbase + c < s.team.nregs) →
    (∀ c ∈ lcols, isPending s.team (s.team.wbase + c) = false ∧ ∀ m ∈ members, regBad s.team (s.team.wbase + c) m = false) →
    (if x.testBit 4 then x / 2 ^ 8 % 16 < s.myBlock.bondSize ∧ bondBlock s (x / 2 ^ 8 % 16) = some r else r = s.myBlock) →
    findBin s s.myCore s.myBlock.grid (Claims.target s l) = some k → rel % 16 = 0 → rel + 16 + 4 * words * nrows ≤ r.vbytes →
    (∀ i < 16 + 4 * words * nrows, (s.core r.core).absent.contains ((r.voff + rel + i) / 128) = false) →
    badAt s base (16 + 4 * words * nrows) = false → atomWaits s base (16 + 4 * words * nrows) = false →
    rising (rows.map (rowKey kw)) = true → acqPending s.team = false → memDrained s.team = true →
    pendCount s.team < 16 → (dead = true → s.team.tstat.getLsbD 1 = false) →
    ∃ t, exec (.join h d a n4 l) s = .next t ∧
      Claims.SpawnIssued q t h d true k ths (16 + 2 * (groupsOf s.team.active).length + (nrows + 3) / 4) (if kw then fieldsFrom a 1 else [])

/-- R199, R200, R201, R202, R203, R204, R205, R206, R216, R217, R218, R219: GROUP, REGRP and DROP issue their Vat instruction.
It rests on choices of the model: log entries 46 and 47. -/
def Obligations.GroupRegrpAndDropIssueTheirMoves : Prop := Claims.GroupIssuesItsCombination ∧ Claims.RegrpAndDropIssueTheirMoves

/-- R203, R217: Combinations do not depend on the order of their members; runs stay together. -/
def Obligations.GroupingIsIndependentOfOrder : Prop := Claims.CombinationsDoNotDependOnOrder ∧ Claims.RegrpKeepsRunsTogether

/-- R22, R28, R174, R207, R208, R209, R210, R211, R212, R213, R219: SPAWN, bins and JOIN.
It rests on choices of the model: log entries 14, 63, 64 and 66 (an instruction reaches its bin at its issue). -/
def Obligations.SpawnBinsAndJoin : Prop := Claims.SpawnFeedsABin ∧ Claims.BinsAcceptThreadsInOrder ∧ Claims.JoinEmitsTheMatchingRows

/-! ### Queues and tasks -/

/-- R310, R311: A names a queue of the given kinds that the context owns. -/
def Claims.queueOk (s : State) (a : RegF) (kinds : List Nat) : Prop :=
  isVec a = false ∧ (rdu s a).toNat < 4096 ∧ (s.queue (rdu s a).toNat).kind ∈ kinds ∧ (s.queue (rdu s a).toNat).owner = s.myCtx

/-- R312: the request of the team for a queue, from the ac of its last pass. -/
def Claims.asks (s : State) (u nb : Bool) (op : QOp) : QReq :=
  { tid := s.team.tid, uid := teamUid s.team, arr := s.ac + (passes s u - 1), tag := s.nextTag, nb := nb, op := op }

/-- R310 to R312: QOP.PUSH is a release at DEV; its request, with the entry of each executing lane in order, reaches the queue, and its acceptance
is outstanding. A blocking form parks its team. -/
def Claims.PushesReachTheirQueue : Prop :=
  ∀ (h : Hd) (d a : RegF) (nb : Bool) (s : State),
    let u := isScalar d
    let ops : List Opnd := [src a, { f := d.toNat, n := 4, ok := quadOk d }]
    let k := (rdu s a).toNat
    let es := (execLanes s u).map fun l => rdn s d 3 l ++ rdn s d 2 l ++ rdn s d 1 l ++ rdn s d 0 l
    Issuing s → Ready s u ops → Claims.queueOk s a [1] → (nb = false → s.team.hmode = false) → acqPending s.team = false →
    memDrained s.team = true →
    ∃ t, Ended (reachQueue k (Claims.asks s u nb (.push es none)) (writeBackAll s.myCore (afterReads s ops))) t h 4 (passes s u) [] []
        [{ tag := s.nextTag, left := 1, due := s.ac + (passes s u - 1) }] 1 (fieldsFrom a 1) ∧
      exec (.qopPush h d a nb) s = .next (if nb then t else parkAt (.queue k) t)

/-- R310 to R312: the request of a QOP.POP, an acquire at DEV, reaches the queue with its six registers of each executing lane outstanding, and a
blocking form parks its team; the request of a QOP.COUNT reaches it with one register outstanding. -/
def Claims.PopsReachTheirQueue : Prop :=
  (∀ (h : Hd) (d a : RegF) (nb : Bool) (s : State),
    let u := isScalar d
    let ops : List Opnd := [src a, { f := d.toNat, n := 6, ok := sixOk d, rd := false, wr := true }]
    let k := (rdu s a).toNat
    let lanes := execLanes s u
    let regs := codesOf s d 6
    Issuing s → Ready s u ops → Claims.queueOk s a [1] → (nb = false → s.team.hmode = false) → acqPending s.team = false →
    pendCount s.team + 6 ≤ 16 →
    ∃ t, Ended (reachQueue k (Claims.asks s u nb (.pop lanes regs)) (afterReads s ops)) t h 4 (passes s u) []
        [{ tag := s.nextTag, pc := s.team.pc, regs := regs, writes := [], missing := lanes.length, due := s.ac + (passes s u - 1), acq := some 4 }]
        [] 1 (fieldsFrom a 1) ∧
      exec (.qopPop h d a nb) s = .next (if nb then t else parkAt (.queue k) t)) ∧
  ∀ (h : Hd) (d a : RegF) (n : Bool) (s : State),
    let u := isScalar d
    let code := regCode s.team d.toNat
    Issuing s → Ready s u [src a, dst d] → Claims.queueOk s a [1, 2] → pendCount s.team + 1 ≤ 16 →
    ∃ t, exec (.qopCount h d a n) s = .next t ∧
      Ended (reachQueue (rdu s a).toNat (Claims.asks s u true (.count (if u then [0] else execLanes s u) code)) (afterReads s [src a, dst d]))
        t h 4 (passes s u) []
        [{ tag := s.nextTag, pc := s.team.pc, regs := [code], writes := [], missing := 1, due := s.ac + (passes s u - 1) }] [] 1 (fieldsFrom a 1)

/-- R252, R312: requests stand at a queue by the ac of their arrival and, in one ac, in ascending team id. -/
def Claims.RequestsStandInOrder : Prop :=
  ∀ (k : Nat) (r : QReq) (s : State),
    let le := fun (a b : QReq) => a.arr < b.arr ∨ (a.arr = b.arr ∧ a.tid ≤ b.tid)
    (s.queue k).waiters.Pairwise le →
    ((reachQueue k r s).queue k).waiters.Perm (r :: (s.queue k).waiters) ∧ ((reachQueue k r s).queue k).waiters.Pairwise le

/-- R314: the state while the queue unit of a base die serves one lane, which takes this ac. -/
def Claims.serving (s : State) (k : Nat) : State := { s with queueFree := mput s.queueFree (k / 256) (s.ac + 1) }

/-- What is left of a request once a lane of it has been served; nothing when it is served to the end. -/
def Claims.leftOf (ws : List QReq) (r : QReq) (op : Option QOp) : List QReq :=
  ws.filterMap fun w => if w.tag = r.tag ∧ w.tid = r.tid then op.map fun o => { w with op := o } else some w

/-- The state after a change of the outstanding result of a request. -/
def Claims.results (s : State) (r : QReq) (f : Pend → Pend) : State :=
  s.withTeam r.tid fun q => q.onTeam fun t => { t with pend := t.pend.map fun p => if p.tag = r.tag then f p else p }

/-- R310 to R312, R314: of a queue's requests that arrived before this ac, the first that goes on is served, one lane in each ac of its base die.
A pop takes the oldest entry for its next lane: four words of data, then the timestamp with the gap bit as bit 63. A lane of a non-blocking pop
that finds the queue empty gets all ones for the timestamp alone, and the pop is no acquire when no lane has an entry. QOP.COUNT answers the number of entries. -/
def Claims.PopsLeaveTheQueueInOrder : Prop :=
  (∀ (s : State) (r : QReq) (e : QEntry) (es : List QEntry) (l : Nat) (ls regs : List Nat),
    let k := s.sel.unit
    let words := (List.range 4).map (fun i => BitVec.ofNat 32 (e.data.toNat / 2 ^ (32 * i))) ++
      [BitVec.ofNat 32 e.time.toNat, BitVec.ofNat 32 (e.time.toNat / 2 ^ 32 + if e.gap then 2 ^ 31 else 0)]
    nextReq s.ac (s.queue k) = some r → unitTurn s k r = true → r.op = .pop (l :: ls) regs → regs.length = 6 → (s.queue k).entries = e :: es →
    let q := Claims.results ((Claims.serving s k).onQueue k fun y => { y with
        entries := es, waiters := Claims.leftOf y.waiters r (if ls.isEmpty then none else some (.pop ls regs)) }) r
      fun p => { p with missing := ls.length, writes := p.writes ++ (regs.zip words).map fun w => (⟨l, w.1, w.2⟩ : RegWrite), due := min p.due s.ac }
    exec .queuePopServe s = .next (if ls.isEmpty then endReq k r q else q)) ∧
  (∀ (s : State) (r : QReq) (l : Nat) (ls regs : List Nat),
    let k := s.sel.unit
    nextReq s.ac (s.queue k) = some r → unitTurn s k r = true → r.op = .pop (l :: ls) regs → (s.queue k).entries = [] →
    let q := Claims.results ((Claims.serving s k).onQueue k fun y => { y with
        waiters := Claims.leftOf y.waiters r (if ls.isEmpty then none else some (.pop ls regs)) }) r fun p =>
      let ws := p.writes ++ (regs.drop 4).map fun x => (⟨l, x, 0xFFFFFFFF#32⟩ : RegWrite)
      { p with missing := ls.length, due := min p.due s.ac, writes := ws
               acq := if ls.isEmpty ∧ !(ws.any fun w => regs.head? == some w.reg) then none else p.acq }
    exec .queuePopServe s = .next (if ls.isEmpty then endReq k r q else q)) ∧
  ∀ (s : State) (r : QReq) (ls : List Nat) (code : Nat),
    let k := s.sel.unit
    nextReq s.ac (s.queue k) = some r → unitTurn s k r = true → r.op = .count ls code →
    exec .queuePopServe s = .next (endReq k r (Claims.results
      ((Claims.serving s k).onQueue k fun y => { y with waiters := Claims.leftOf y.waiters r none }) r fun p => { p with
        missing := 0, due := min p.due s.ac
        writes := ls.map fun n => (⟨n, code, BitVec.ofNat 32 (s.queue k).entries.length⟩ : RegWrite) }))

/-- R306, R310, R312: a queue accepts the next entry of a push at its end, with the fabric time, or the gateway's, and the gap bit, which it
clears; TASK gets the count of accepted entries. An entry of a non-blocking push that finds no room is refused, which sets the gap bit. -/
def Claims.PushesEnterTheQueueInOrder : Prop :=
  (∀ (s : State) (r : QReq) (e : BitVec 128) (es : List (BitVec 128)) (task : Option Nat),
    let k := s.sel.unit
    let x := s.queue k
    nextReq s.ac x = some r → unitTurn s k r = true → r.op = .push (e :: es) task → x.entries.length < x.cap →
    let q := (Claims.serving s k).onQueue k fun y => { y with
      entries := y.entries ++ [{ data := e, time := BitVec.ofNat 63 (r.time.getD s.fabricTime), gap := y.gap, source := task.map fun _ => r.uid }]
      gap := false, accepted := (y.accepted + 1) % 2 ^ 32
      waiters := Claims.leftOf y.waiters r (if es.isEmpty then none else some (.push es task)) }
    let q := match task with
      | some code => Claims.results q r fun p => { p with
          missing := 0, writes := [⟨0, code, BitVec.ofNat 32 ((x.accepted + 1) % 2 ^ 32)⟩], due := min p.due s.ac }
      | none => q
    exec .queuePushAccept s = .next (if es.isEmpty then endReq k r q else q)) ∧
  (∀ (s : State) (r : QReq) (e : BitVec 128) (es : List (BitVec 128)) (task : Option Nat),
    let k := s.sel.unit
    nextReq s.ac (s.queue k) = some r → unitTurn s k r = true → r.op = .push (e :: es) task → (s.queue k).cap ≤ (s.queue k).entries.length →
    let q := (Claims.serving s k).onQueue k fun y => { y with
      gap := true, waiters := Claims.leftOf y.waiters r (if es.isEmpty then none else some (.push es task)) }
    exec .queuePushAccept s = .next (if es.isEmpty then endReq k r q else q)) ∧
  ∀ s : State, (s.queue s.sel.unit).kind = 1 → s.linked = true →
    exec .gatewayPush s = .next (reachQueue s.sel.unit
      { tid := 2 ^ 22, arr := s.ac, tag := s.nextTag, nb := true, time := some s.sel.word, op := .push [s.sel.pkt.extractLsb' 0 128] none }
      { s.heard with nextTag := s.nextTag + 1 })

/-- The push under a tag of a team that has ended is no longer waited for by its block. -/
def Claims.leftServed (tag : Nat) (s : State) : State :=
  { s with blocks := mmap (fun b => { b with tokens := b.tokens.map fun k => if k.tag = tag then { k with left := 0 } else k }) s.blocks }

/-- R160, R306, R312: with the end of its request the result of a pop, a count or a TASK lands, or the acceptance of a push is complete, and a team
parked on the queue goes on. A TASK whose entry has found its queue full parks its team. -/
def Claims.ServedTeamsGoOn : Prop :=
  (∀ (k : Nat) (s : State) (r : QReq) (t : Team), s.teamAt r.tid = some t → t.pend.any (·.tag == r.tag) = true →
    t.stores.any (·.tag == r.tag) = false →
    endReq k r s = Claims.leftServed r.tag (s.withTeam r.tid fun q =>
      let q := landPend r.tag q
      if q.team.park = .queue k then unpark q else q)) ∧
  (∀ (k : Nat) (s : State) (r : QReq) (t : Team), s.teamAt r.tid = some t → t.pend.any (·.tag == r.tag) = false →
    t.stores.any (·.tag == r.tag) = true →
    endReq k r s = Claims.leftServed r.tag (s.withTeam r.tid fun q =>
      let q := acceptStore r.tag (q.onTeam fun t => { t with stores := t.stores.map fun o => if o.tag = r.tag then { o with left := 0 } else o })
      if q.team.park = .queue k then unpark q else q)) ∧
  (∀ (k : Nat) (s : State) (r : QReq), s.teamAt r.tid = none → endReq k r s = Claims.leftServed r.tag s) ∧
  ∀ (s : State) (k : Nat) (x : Queue) (r : QReq) (es : List (BitVec 128)) (code : Nat),
    (∀ p ∈ s.queues, p.2.cap ≤ p.2.entries.length → ∀ w ∈ p.2.waiters, ∀ e c, w.op = .push e (some c) → p.1 = k ∧ w = r) →
    (k, x) ∈ s.queues → x.cap ≤ x.entries.length → r ∈ x.waiters → r.op = .push es (some code) → r.arr ≤ s.ac → s.team.present = true →
    r.tid = s.team.tid → s.team.park = .run → s.team.pend.any (·.tag == r.tag) = true →
    parkTasks s = s.onTeam fun t => { t with park := .queue k }

/-- R283, R305, R306, R312: TASK of a sound descriptor is a release at CORE of the submission's footprint; its request, with the entry that names
the descriptor, the context, the grid and the core, reaches the queue, and the count of accepted entries is outstanding. -/
def Claims.TaskPushesItsEntry : Prop :=
  ∀ (h : Hd) (d a b : RegF) (s c : State) (card : List Byte),
    let ops := [srcPair a, src b, dst d]
    let k := (rdu s b).toNat
    let va := (rdPair s a (lowestLane s.team.active)).toNat % 2 ^ 57
    let e := BitVec.ofNat 128 (va + s.myCtx * 2 ^ 64 + s.myBlock.grid % 65536 * 2 ^ 80 + s.myCore * 2 ^ 96)
    let code := regCode s.team d.toNat
    let q := submitCache s.myCore s.myCtx ((taskReads card).map taskRegion) ((taskWrites card).map taskRegion) c
    Issuing s → Ready s false ops → isScalar d = true → isScalar a = true → isVec b = false → k < 4096 → va % 64 = 0 →
    acqPending s.team = false → memDrained s.team = true → readCard va 192 (afterReads s ops) = .ok card c →
    taskOk s s.myBlock.grid card = true → taskCwordBad card = false → (s.queue k).kind = 2 → (s.queue k).owner = s.myCtx →
    pendCount s.team < 16 →
    ∃ t, exec (.task h d a b) s = .next t ∧
      Ended (reachQueue k { tid := s.team.tid, uid := teamUid s.team, arr := s.ac, tag := s.nextTag, op := .push [e] (some code) } q) t h 4 1 []
        [{ tag := s.nextTag, pc := s.team.pc, regs := [code], writes := [], missing := 1, due := s.ac }] [] 1 (fieldsFrom a 2) (fieldsFrom b 1)

/-- R291, R314: the state after the change of an entry of a die's table: an entry that has not started and that the change frees starts from the
next ac. -/
def Claims.eased (d : Nat) (j : Job) (s : State) : State :=
  let held := fun (js : List Job) (e : Job) => js.any fun f => decide (f.key < e.key) && conflicts e f
  s.onDie d fun x =>
    let js := x.jobs.map fun k => if k.key = j.key then j else k
    { x with jobs := js.map fun e => if !e.started ∧ held x.jobs e = true ∧ held js e = false then { e with startable := max e.startable (s.ac + 1) } else e }

/-- R305 to R309: a round of a die's task scheduler takes the oldest entry of each of its task queues in ascending number; a task that may start
is launched as a block of one team on the lowest core that fits; a renamed buffer is copied back to its region, one transfer after the other; and a
task whose block has ended and whose copies are made completes, and its submitter's core keeps no older bytes of its write regions (R276). -/
def Claims.TasksRunToCompletion : Prop :=
  (∀ s : State, s.sel.unit < 8 → exec .taskSchedulerRound s = .next
    ((((List.range 512).map fun i => 512 * s.sel.unit + i).filter fun k => !(s.queue k).entries.isEmpty).foldl
      (fun q k => takeTask s.sel.unit k q) s)) ∧
  (∀ (d k : Nat) (s : State) (e : QEntry) (rest : List QEntry) (uid : Nat),
    (s.queue k).entries = e :: rest → (s.queue k).kind = 2 → e.source = some uid → placeable s (e.data.toNat / 2 ^ 64 % 2 ^ 16) = true →
    (s.die d).jobs.length < 512 → (s.block (uid / 4)).aborted = false →
    takeTask d k s = taskRead d s.nextJob (enterJob d
      { key := 0, die := d, num := 0, kind := .task, ctx := e.data.toNat / 2 ^ 64 % 2 ^ 16, grid := slotGrid s e, blk := uid / 4, uid := uid
        core := e.data.toNat / 2 ^ 96 % 2 ^ 16, pc := 0, reads := [], writes := [], ready := false, desc := e.data.toNat % 2 ^ 57 }
      (s.onQueue k fun y => { y with entries := rest }))) ∧
  (∀ (s q : State) (j : Job) (c : Nat),
    let l := (s.grid j.grid).launch
    jobAt s s.sel.unit s.sel.sub = some j → taskReady s s.sel.unit j = true → taskSeat s s.sel.unit j = some c →
    placeSmall c { kind := .task s.sel.sub, grid := j.grid }
      { newTeam l 0 0 j.lanes l.firstRole.regs l.firstRole.fmt j.entry with s := taskScalars j } s = some q →
    exec .taskLaunch s = .next (setJob s.sel.unit { j with started := true, blockKey := some s.nextBlock } q)) ∧
  (∀ (s q : State) (j : Job) (r : Rename) (pa : Nat),
    let d := s.sel.unit
    let sa := (r.buf + j.pos) % 2 ^ 57
    let da := (r.orig + j.pos) % 2 ^ 57
    let left := r.len - j.pos
    let n := min left (min (128 - sa % 128) (128 - da % 128))
    jobAt s d s.sel.sub = some j → j.retryAt = 0 → readyRename s d j = some r → engXl s j.ctx .load sa = .inl pa →
    (∀ k, paKey s pa = some k → badAt s k n = false) → engCut s j.core j.ctx {} sa = false → engCut s j.core j.ctx {} da = false →
    engWrite d j false {} da (readPa s pa n) (n == left || (da + n) % 128 == 0) s = .ok q →
    let c := engCarried j.core j.ctx {} da (engCarried j.core j.ctx {} sa q)
    let j' := { (jobAt c d j.key).getD j with retryAt := 0, retries := 0 }
    let others := j'.renames.filter (· != r)
    exec .renameCopyback s = .next (Claims.eased d (if n = left then { j' with renames := others, pos := 0 }
      else { j' with renames := r :: others, pos := j'.pos + n }) c)) ∧
  ∀ (s : State) (j : Job),
    jobAt s s.sel.unit s.sel.sub = some j → j.kind = .task → j.blockDone = true → j.renames = [] → j.fault = none → j.retryAt = 0 →
    linesSet s j = true → exec .taskComplete s = .next (completeJob s.sel.unit j (dropWrites j.core j.ctx j.writes s))

/-- R307: the scalars of a task's team are its four arguments, then the bases of its write regions from s4 and of its read regions from s12, as
pairs; the others are 0. -/
def Claims.TasksReceiveTheirArguments : Prop :=
  ∀ j : Job, j.args.length = 4 → j.wbase.length ≤ 4 → j.rbase.length ≤ 4 →
    (∀ i < 4, vget 0 (taskScalars j) i = j.args.getD i 0) ∧
    (∀ i < j.wbase.length, vget 0 (taskScalars j) (4 + 2 * i) = BitVec.ofNat 32 (j.wbase.getD i 0) ∧
      vget 0 (taskScalars j) (5 + 2 * i) = BitVec.ofNat 32 (j.wbase.getD i 0 / 2 ^ 32)) ∧
    (∀ i < j.rbase.length, vget 0 (taskScalars j) (12 + 2 * i) = BitVec.ofNat 32 (j.rbase.getD i 0) ∧
      vget 0 (taskScalars j) (13 + 2 * i) = BitVec.ofNat 32 (j.rbase.getD i 0 / 2 ^ 32)) ∧
    ∀ i, 4 + 2 * j.wbase.length ≤ i → (i < 12 ∨ 12 + 2 * j.rbase.length ≤ i) → vget 0 (taskScalars j) i = 0

/-! ### Engines -/

/-- R291: an entry of a die's table starts, as a job of the tile copy engine or as a task, only when no earlier entry that conflicts with it
remains and the ac from which it may start has come. -/
def Claims.EntriesWaitForEarlierConflicts : Prop :=
  ∀ i ∈ [Instr.jobStart, .taskLaunch], ∀ (s t : State) (j j' : Job),
    exec i s = .next t → jobAt s s.sel.unit s.sel.sub = some j → jobAt t s.sel.unit s.sel.sub = some j' → j.started = false →
    j'.started = true → j.startable ≤ s.ac ∧ ∀ f ∈ (s.die s.sel.unit).jobs, f.key < j.key → conflicts j f = false

/-- R290, R314: the state after a job of a team has been entered with the next job number of the die. -/
def Claims.entered (s q : State) (j : Job) : State :=
  let d := dieOfCore s.myCore
  let num := ((s.die d).counter + 1) % 2 ^ 32
  let at_ := max s.ac (s.die d).nextEntry
  ({ q with nextJob := s.nextJob + 1 }).onDie d fun x => { x with
    jobs := x.jobs ++ [{ j with key := s.nextJob, die := d, num := BitVec.ofNat 32 num, startable := at_ }], counter := num, nextEntry := at_ + 1 }

/-- R290, R314: the die's table has room for a job of the tile copy engine of the team's cluster, and its accesses are performed (R275). -/
def Claims.tileRoom (s : State) : Prop :=
  (s.die (dieOfCore s.myCore)).jobs.length < 512 ∧ tileQueued s s.myCore < 32 ∧ acqPending s.team = false ∧ memDrained s.team = true

/-- R283, R290, R294, R295, R314: SFILL on an aligned descriptor of the region, by a block that claims the matrix engine, adds a fill to its
stream and an entry with the bytes that its steps read. -/
def Claims.SfillQueuesAFill : Prop :=
  ∀ (h : Hd) (d a b : RegF) (l : Word) (s : State),
    let imm := l.toNat % 2 ^ 16
    let st := l.toNat / 2 ^ 17 % 4
    let ops := [src a] ++ if imm = 0 then [src b] else []
    let n := if imm = 0 then (rdu s b).toNat else imm
    let off := (rdu s a).toNat
    let fs := fillsOf s s.myCore st
    let x := streamDesc ((List.range 64).map fun i => memByte s.mem (vaultKey s.myCore (s.myBlock.voff + off) + i))
    let region := fillRegion s.myBlock x n (fillStart x (l.getLsbD 16) (projected x off fs))
    Issuing s → Ready s false ops → isVec a = false → (imm = 0 → isVec b = false) → s.myBlock.matuse = true → n ≠ 0 → n ≤ 65535 →
    off % 64 = 0 → off + 64 ≤ s.myBlock.vbytes → acqPending s.team = false → memDrained s.team = true → fs.length < 4 →
    (s.die (dieOfCore s.myCore)).jobs.length < 512 →
    ∃ t, exec (.sfill h d a b l) s = .next t ∧
      Ended ((Claims.entered s (submitCache s.myCore s.myCtx [region] [] (afterReads s ops)) (jobOf s (.fill st) [region] [])).onCore s.myCore
        fun c => { c with fills := vset c.fills st (vget [] c.fills st ++ [{ job := s.nextJob, desc := off, rst := l.getLsbD 16, n := n }]) })
        t h 8 1 [] [] [] 0 (fieldsFrom a 1) (fieldsFrom b (if imm = 0 then 1 else 0))

/-- R283, R290, R297, R298, R314: SCOPY of aligned ranges that fit enters a job of lines of 128 bytes between the region and the global space,
or another member's region, in the direction of DIR, with its completion word. -/
def Claims.ScopyEntersItsJob : Prop :=
  ∀ (h : Hd) (d a b : RegF) (l : Word) (s : State) (m : Block),
    let dir := l.toNat / 2 ^ 30
    let cw := l.getLsbD 22
    let n := l.toNat % 2 ^ 20
    let ops := [if dir < 2 then srcPair a else src a] ++ (if cw then [src b] else []) ++ [src d]
    let own := (rdu s d).toNat
    let other := if dir < 2 then (rdPair s a (lowestLane s.team.active)).toNat % 2 ^ 57 else (rdu s a).toNat
    let word := if cw then (rdu s b).toNat else 0
    let ownPl := blockPlace s.myBlock
    let othPl : Place := if dir < 2 then {} else blockPlace m
    let toOwn := dir = 0 ∨ dir = 3
    let sp := if toOwn then othPl else ownPl
    let dp := if toOwn then ownPl else othPl
    let sa := if toOwn then other else own
    let da := if toOwn then own else other
    Issuing s → Ready s false ops → isVec d = false → isVec a = false → (cw = true → isVec b = false) → (dir < 2 → isScalar a = true) →
    l.toNat / 2 ^ 27 % 8 < 6 → (2 ≤ dir → l.toNat / 2 ^ 23 % 16 < s.myBlock.bondSize ∧ bondBlock s (l.toNat / 2 ^ 23 % 16) = some m ∧
      other + n ≤ m.vbytes) → 128 ≤ n → n ≤ 983040 → n % 128 = 0 → own % 128 = 0 → other % 128 = 0 → word % 4 = 0 →
    own + n ≤ s.myBlock.vbytes → (cw = true → word + 4 ≤ s.myBlock.vbytes) → Claims.tileRoom s →
    ∃ t, exec (.scopy h d a b l) s = .next t ∧
      Ended (Claims.entered s (submitCache s.myCore s.myCtx [placeRegion sp sa n] [placeRegion dp da n] (afterReads s ops))
        { jobOf s .scopy [placeRegion sp sa n] [placeRegion dp da n] with
        src := sa, dst := da, srcPl := sp, dstPl := dp, rowbytes := 128, nrows := n / 128, sstride := 128, dstride := 128
        cscope := l.toNat / 2 ^ 27 % 8, cw := cw, cwVault := true, cword := word, cval := 1 }) t h 8 1 [] [] [] 0
        (fieldsFrom a (if dir < 2 then 2 else 1)) (fieldsFrom b (if cw then 1 else 0))

/-- R283, R290, R303, R304: XPOSE of a legal shape whose arrays lie in the region enters a requantising transpose of them. -/
def Claims.XposeEntersItsJob : Prop :=
  ∀ (h : Hd) (d a b : RegF) (l : Word) (s : State),
    let ops := [src a, src b, src d]
    let ifmt := l.toNat % 16
    let ofmt := l.toNat / 2 ^ 4 % 16
    let sbk := l.toNat / 2 ^ 8 % 4
    let r := (rdu s b).toNat % 2 ^ 7
    let c := (rdu s b).toNat / 2 ^ 8 % 2 ^ 7
    let sa := (rdu s a).toNat
    let da := (rdu s d).toNat
    let sn := r * (rowBytesOf ifmt c + scaleBytes ifmt sbk c)
    let dn := c * (rowBytesOf ofmt r + scaleBytes ofmt sbk r)
    let pl := blockPlace s.myBlock
    Issuing s → Ready s false ops → isVec a = false → isVec b = false → isVec d = false → shapeOk ifmt ofmt sbk r c = true → sa % 4 = 0 →
    da % 4 = 0 → sa + sn ≤ s.myBlock.vbytes → da + dn ≤ s.myBlock.vbytes → Claims.tileRoom s →
    ∃ t, exec (.xpose h d a b l) s = .next t ∧
      Ended (Claims.entered s (afterReads s ops) { jobOf s .reqt [placeRegion pl sa sn] [placeRegion pl da dn] with
        src := sa, dst := da, srcPl := pl, dstPl := pl, rowbytes := c, nrows := r, sstride := rowBytesOf ifmt c, dstride := rowBytesOf ofmt r
        sscl := sa + r * rowBytesOf ifmt c, dscl := da + c * rowBytesOf ofmt r, ifmt := ifmt, ofmt := ofmt, sbk := sbk
        sat := l.toNat / 2 ^ 10 % 2 }) t h 8 1 [] [] [] 0 (fieldsFrom a 1) (fieldsFrom b 1)

/-- R283, R290, R299, R300, R302: JOB of a sound card enters the card's job and leaves its number outstanding. -/
def Claims.JobEntersItsCard : Prop :=
  ∀ (h : Hd) (d a b : RegF) (s c : State) (card : List Byte),
    let ops := [srcPair a, src b, dst d]
    let va := (rdPair s a (lowestLane s.team.active)).toNat % 2 ^ 57
    let j := cardJob s card (sextInt 32 (rdu s b).toNat)
    let x := s.die (dieOfCore s.myCore)
    let code := regCode s.team d.toNat
    Issuing s → Ready s false ops → isScalar d = true → isScalar a = true → isVec b = false → va % 64 = 0 →
    readCard va 256 (afterReads s ops) = .ok card c → cardOk card = true → (j.cw = true → j.cword % 4 = 0) →
    cardRange s.myBlock j = none → Claims.tileRoom s → pendCount s.team < 16 →
    ∃ t, exec (.job h d a b) s = .next t ∧
      Ended (Claims.entered s (submitCache s.myCore s.myCtx j.reads j.writes c) j) t h 4 1 []
        [{ tag := s.nextTag, pc := s.team.pc, regs := [code], due := max s.ac x.nextEntry
           writes := [⟨0, code, BitVec.ofNat 32 ((x.counter + 1) % 2 ^ 32)⟩] }] [] 1
        (fieldsFrom a 2) (fieldsFrom b 1)

/-- R283, R291, R297, R298, R301, R313, R314: a job of the tile copy engine starts when fewer than eight of its cluster are started; each
transfer reads or writes one piece of a row; a refused write is tried again; when its last row is written and its lines are present it
completes; and a fault of it reaches a team of its block, resident or saved, as an event. -/
def Claims.JobsMoveTheirRows : Prop :=
  (∀ (s : State) (j : Job), jobAt s s.sel.unit s.sel.sub = some j → j.isTile = true → j.started = false → j.startable ≤ s.ac →
    blocked s s.sel.unit j = false → tileStarted s j.core < 8 → exec .jobStart s = .next (setJob s.sel.unit { j with started := true } s)) ∧
  (∀ (s : State) (j : Job) (k : Nat), jobAt s s.sel.unit s.sel.sub = some j → j.kind = .copy k ∨ j.kind = .scopy → j.started = true →
    j.fault = none → j.retryAt = 0 → (s.cluster (j.core / 16)).moveBusy < (s.ac + 1) * 128 → j.row < j.nrows →
    ((j.kind = .copy 2 ∨ j.kind = .copy 3) → j.rowIdx ≠ none) →
    let idx := j.rowIdx.getD 0
    (∀ (a n : Nat) (bs : List Byte), pieceAt (j.readSpans j.row idx) j.buf.length = some (a, n) →
      engRead s j.ctx j.reads j.srcPl a n = .inl bs → engCut s j.core j.ctx j.srcPl a = false →
      let q := if j.srcPl.vault then s else { s with fresh := s.fresh + if inSlice s j.ctx a n then n else 0 }
      exec .engineTransfer s = .next (setJob s.sel.unit { j with buf := j.buf ++ bs } (chargeTile j 0 (engCarried j.core j.ctx j.srcPl a q)))) ∧
    ∀ (a n : Nat) (q : State), pieceAt (j.readSpans j.row idx) j.buf.length = none → pieceAt (j.writeSpans j.row idx) j.pos = some (a, n) →
      engCut s j.core j.ctx j.dstPl a = false →
      engWrite s.sel.unit j true j.dstPl a ((j.buf.drop j.pos).take n) (lineDone (restSpans s j (j.pos + n)) a) s = .ok q →
      let j' := (jobAt q s.sel.unit j.key).getD j
      exec .engineTransfer s = .next (setJob s.sel.unit (if j.pos + n < spanBytes (j.writeSpans j.row idx)
        then { j' with retryAt := 0, retries := 0, pos := j'.pos + n }
        else { j' with retryAt := 0, retries := 0, row := j'.row + 1, pos := 0, buf := [], rowIdx := none })
        (chargeTile j' n (engCarried j.core j.ctx j.dstPl a q)))) ∧
  (∀ (s : State) (j : Job), jobAt s s.sel.unit s.sel.sub = some j → j.isTile = true → j.started = true → j.fault = none → j.retryAt ≠ 0 →
    j.retryAt ≤ s.ac → j.row < j.groups →
    let j' := { j with retries := j.retries + 1, retryAt := 0 }
    exec .unsolicitedWriteRetry s = .next (transfer s.sel.unit j' (setJob s.sel.unit j' s))) ∧
  (∀ (s : State) (j : Job), jobAt s s.sel.unit s.sel.sub = some j → j.isTile = true → j.started = true → j.fault = none → j.retryAt = 0 →
    j.groups ≤ j.row → linesSet s j = true → exec .jobComplete s = .next (completeJob s.sel.unit j s)) ∧
  ∀ (s : State) (j : Job) (sub u : Nat) (addr : DWord), jobAt s s.sel.unit s.sel.sub = some j → j.fault = some (sub, addr) → j.held = false →
    let q := setJob s.sel.unit { j with held := true } s
    let e : TeamEvent := .engfault s.ac s.sel.unit j.num sub addr
    faultTeam q j.grid j.uid = some u →
    (∀ t, uidSaved q j.grid u = false → (q.allTeams.find? fun t => teamUid t == u) = some t →
      exec .engfault s = .next (q.withTeam t.tid (addEvent e))) ∧
    (uidSaved q j.grid u = true → exec .engfault s = .next (q.onGrid j.grid fun x => { x with
      saved := x.saved.map (savedEvent u e), restore := x.restore.map (savedEvent u e) }))

/-- R283, R297: a job that completes with a completion word in its block's region writes it, sets the presence bit of its line, and leaves
the table; no other byte of memory changes. -/
def Claims.CompletionWordsAreWritten : Prop :=
  ∀ (d : Nat) (j : Job) (s : State), j.cw = true → j.cwVault = true → (mget? s.blocks j.blk).isSome = true →
    let k := vaultKey (s.block j.blk).core ((s.block j.blk).voff + j.cword)
    let t := completeJob d j s
    jobAt t d j.key = none ∧ Claims.number t k 4 = j.cval.toNat ∧ (∀ i, i < k ∨ k + 4 ≤ i → memByte t.mem i = memByte s.mem i) ∧
      (t.core (s.block j.blk).core).absent.contains (((s.block j.blk).voff + j.cword) / 128) = false

/-- R294, R296: the fill at the head of a stream starts by reading its descriptor, appends its rows to the stream's FIFO while there is room,
and with its last step in the FIFO writes CURSOR and WCOUNT back and leaves the table. -/
def Claims.FillsFeedTheirStream : Prop :=
  (∀ (s : State) (f : Fill) (rest : List Fill) (j : Job),
    let c := s.sel.unit
    let st := s.sel.sub
    let k := vaultKey c ((s.block j.blk).voff + f.desc)
    let x := streamDesc ((List.range 64).map fun i => memByte s.mem (k + i))
    let cw := if f.rst then (x.base, 0) else (x.cursor, x.wcount)
    fillsOf s c st = f :: rest → fillJob s c f = some j → f.started = false → j.fault = none → j.startable ≤ s.ac →
    blocked s (dieOfCore c) j = false → badAt s k 64 = false → streamOk st x = true →
    exec .fillStart s = .next (setJob (dieOfCore c) { j with started := true } (setFills c st ({ f with
      started := true, cursor := cw.1, base := x.base, rstride := x.rstride, stepinc := x.stepinc, rows := x.rows, rowbytes := x.rowbytes
      wrap := x.wrap, wcount := cw.2, flags := x.flags } :: rest) s))) ∧
  (∀ (s : State) (f : Fill) (rest : List Fill) (j : Job),
    let c := s.sel.unit
    let st := s.sel.sub
    let q := vget [] (s.core c).fifo st
    let b := s.block j.blk
    let a := b.voff + f.cursor + f.row * f.rstride.toNat
    fillsOf s c st = f :: rest → fillJob s c f = some j → f.started = true → j.fault = none → f.step < f.n → q.length + f.rowbytes ≤ 8192 →
    (s.core c).fillBusy < (s.ac + 1) * 256 → f.flags.testBit 0 = true → 0 ≤ f.rstride → 0 < f.rowbytes → f.rowbytes ≤ 512 →
    a + f.rowbytes ≤ b.voff + b.vbytes → b.vbytes < 2 ^ 20 → insideAll j.reads (c + 1) a f.rowbytes = true →
    badAt s (vaultKey c a) f.rowbytes = false → st < 4 →
    ∃ t, exec .fillRowAppend s = .next t ∧
      vget [] (t.core c).fifo st = q ++ (List.range f.rowbytes).map (fun i => memByte s.mem (vaultKey c a + i)) ∧
      fillsOf t c st = (if f.row + 1 < f.rows then { f with row := f.row + 1 }
        else { f with row := 0, step := f.step + 1, cursor := (stepCursor f.base f.stepinc f.wrap (f.cursor, f.wcount)).1
                      wcount := (stepCursor f.base f.stepinc f.wrap (f.cursor, f.wcount)).2 }) :: rest ∧
      t.mem = s.mem ∧ t.dies = s.dies ∧ t.team = s.team ∧ t.teams = s.teams) ∧
  ∀ (s : State) (f : Fill) (rest : List Fill) (j : Job),
    let c := s.sel.unit
    let st := s.sel.sub
    let k := vaultKey c ((s.block j.blk).voff + f.desc)
    fillsOf s c st = f :: rest → fillJob s c f = some j → f.started = true → j.fault = none → f.n ≤ f.step →
    ∃ t, exec .fillComplete s = .next t ∧
      t = removeJob (dieOfCore c) f.job (setFills c st rest ((s.store k ((List.range 8).map fun i => BitVec.ofNat 8 (f.cursor / 2 ^ (8 * i)))).store
        (k + 30) ((List.range 2).map fun i => BitVec.ofNat 8 (f.wcount / 2 ^ (8 * i))))) ∧
      (∀ i, (i < k ∨ k + 8 ≤ i) → (i < k + 30 ∨ k + 32 ≤ i) → memByte t.mem i = memByte s.mem i)

/-- R252, R306, R310, R311, R312, R314: Pushes, pops and counts of the cellar queues, their order and their service.
It rests on choices of the model: log entries 1 and 30. -/
def Obligations.QueuesServeTheirTeamsInOrder : Prop :=
  Claims.PushesReachTheirQueue ∧ Claims.PopsReachTheirQueue ∧ Claims.RequestsStandInOrder ∧ Claims.PopsLeaveTheQueueInOrder ∧
    Claims.PushesEnterTheQueueInOrder ∧ Claims.ServedTeamsGoOn

/-- R283, R305, R306, R307, R308, R309, R312: TASK, its scheduling and its arguments.
It rests on choices of the model: log entries 30, 32 and 68. -/
def Obligations.TasksArePushedAndRun : Prop := Claims.TaskPushesItsEntry ∧ Claims.TasksRunToCompletion ∧ Claims.TasksReceiveTheirArguments

/-- R283, R290, R291, R294, R295, R297, R298, R299, R300, R302, R303, R304, R314: SFILL, SCOPY, XPOSE and JOB enter the engines; entries wait for earlier conflicts.
It rests on choices of the model: log entries 25, 47, 57, 68 and 69. -/
def Obligations.EnginesTakeTheirJobs : Prop := Claims.SfillQueuesAFill ∧ Claims.ScopyEntersItsJob ∧ Claims.XposeEntersItsJob ∧ Claims.JobEntersItsCard ∧ Claims.EntriesWaitForEarlierConflicts

/-- R283, R291, R294, R296, R297, R298, R301, R313, R314: Jobs move rows, write completion words; fills feed their streams.
It rests on choices of the model: log entries 1, 57 and 58. -/
def Obligations.JobsAndFillsMoveTheirData : Prop := Claims.JobsMoveTheirRows ∧ Claims.CompletionWordsAreWritten ∧ Claims.FillsFeedTheirStream

/-! ### The matrix engine -/

/-- R319, R320: the team holds the trowel of its block's engine, a batch and a place in the queue are free, and no store of it to the vault is
outstanding. -/
def Claims.memberGoes (s : State) : Prop :=
  let m := (s.core s.myCore).mat
  s.myBlock.matuse = true ∧ m.trowel = some s.team.tid ∧ m.queue.length < 64 ∧ (m.isOpen = true ∨ m.batches.length < 4) ∧
    vaultPending s.team = false

/-- R319, R320: the state with a member of the team added to the queue of its core's engine; in an empty queue it begins at once. -/
def Claims.member (s q : State) (slot : Nat) (op : MemberOp) : State :=
  let m := (s.core s.myCore).mat
  let q := q.onCore s.myCore fun c => { c with mat := { c.mat with
    isOpen := true
    queue := c.mat.queue ++ [{ batch := m.counter, slot := slot, tid := s.team.tid, op := op, pc := s.team.pc, order := s.nextJob }] } }
  if m.queue = [] then armHead s.myCore q else q

/-- The entry of a member's result (R20, R331). -/
def Claims.memberPend (s : State) (regs : List Nat) (shared : Bool) : Pend :=
  { tag := s.nextTag, pc := s.team.pc, regs := regs, shared := shared, missing := 1, due := s.ac }

/-- R317, R318: TAKE gives a free trowel to the team, keeps it with its holder, and else parks the team behind the others that wait. GIVE hands
it to the first of them, or leaves it free; PASS hands it to the team of the role that A names. -/
def Claims.BatonHandsTheTrowelOn : Prop :=
  (∀ (h : Hd) (s : State), Issuing s → s.myBlock.matuse = true → s.team.hmode = false →
    let m := (s.core s.myCore).mat
    (m.trowel = none → ∃ t, exec (.batonTake h) s = .next t ∧
      Ended (s.onCore s.myCore fun c => { c with mat := { c.mat with trowel := some s.team.tid } }) t h 4 1 [] [] [] 0) ∧
    (m.trowel = some s.team.tid → ∃ t, exec (.batonTake h) s = .next t ∧ Ended s t h 4 1 [] [] [] 0) ∧
    ∀ u, m.trowel = some u → u ≠ s.team.tid → ∃ t, exec (.batonTake h) s = .next (parkAt .baton t) ∧
      Ended (s.onCore s.myCore fun c => { c with mat := { c.mat with takers := c.mat.takers ++ [s.team.tid] } }) t h 4 1 [] [] [] 0) ∧
  (∀ (h : Hd) (s : State), Issuing s → s.myBlock.matuse = true → (s.core s.myCore).mat.trowel = some s.team.tid → acqPending s.team = false →
    memDrained s.team = true →
    ∃ t, Ended s t h 4 1 [] [] [] 0 ∧ exec (.batonGive h) s = .next (match (s.core s.myCore).mat.takers with
      | u :: _ => giveTrowel s.myCore u t
      | [] => t.onCore s.myCore fun c => { c with mat := { c.mat with trowel := none } })) ∧
  (∀ (h : Hd) (a : RegF) (s : State) (u : Team), Issuing s → Ready s false [src a] → isVec a = false → s.myBlock.matuse = true →
    (s.core s.myCore).mat.trowel = some s.team.tid → acqPending s.team = false → memDrained s.team = true →
    (s.allTeams.find? fun t => t.blk == s.team.blk && t.role == (rdu s a).toNat) = some u →
    ∃ t, Ended (afterReads s [src a]) t h 4 1 [] [] [] 0 (fieldsFrom a 1) ∧
      exec (.batonPass h a) s = .next (if u.tid = s.team.tid then t else giveTrowel s.myCore u.tid t)) ∧
  ∀ (c u : Nat) (s : State), s.hasTeam u = true → (s.focus u).team.park = .baton →
    giveTrowel c u s = ((s.onCore c fun x => { x with mat := { x.mat with trowel := some u, takers := x.mat.takers.filter (· != u) } }).withTeam u unpark)

/-- R319 to R322: MLOOP with legal formats queues its member, of the rows and columns that its literal gives; with Z the slot takes the
accumulator format of the format register. -/
def Claims.MloopQueuesItsSteps : Prop :=
  ∀ (h : Hd) (d a b : RegF) (l : Word) (s : State),
    let k := l.toNat % 4
    let z := l.getLsbD 2
    let q := afterReads s [src a]
    let q := if z then q.onCore s.myCore fun c => { c with mat := { c.mat with
        acc := vset c.mat.acc k { vget {} c.mat.acc k with mode := false, afmt := s.team.fmt.toNat / 2 ^ 14 % 4 == 1 } } } else q
    Issuing s → Ready s false [src a] → isVec a = false → Claims.memberGoes s →
    mloopOk (accSlot s s.myCore k) s.team.fmt z (rdu s a).toNat = true →
    ∃ t, exec (.mloop h d a b l) s = .next t ∧
      Ended (Claims.member s q k (.mloop (rdu s a).toNat (l.toNat / 2 ^ 8 % 64 + 1) (l.toNat / 2 ^ 14 % 64 + 1) z s.team.fmt)) t h 8
        1 [] [] [] 0 (fieldsFrom a 1)

/-- R319, R320, R327, R328: MFENCE closes the open batch and leaves its number outstanding; MWAIT parks its team while the batch that A names is
outstanding, and may not name the open one; BATCH_COMPLETE ends the oldest closed batch with no member left, and its waiters go on. -/
def Claims.BatchesAreFencedAndAwaited : Prop :=
  (∀ (h : Hd) (d : RegF) (s : State),
    let m := (s.core s.myCore).mat
    Issuing s → Ready s false [dst d] → isScalar d = true → s.myBlock.matuse = true → m.trowel = some s.team.tid →
    (m.isOpen = true ∨ m.batches.length < 4) → pendCount s.team < 16 →
    ∃ t, exec (.mfence h d) s = .next t ∧
      Ended (s.onCore s.myCore fun c => { c with mat := { c.mat with
          isOpen := false, batches := c.mat.batches ++ [c.mat.counter], counter := (c.mat.counter + 1) % 2 ^ 16 } }) t h 4 1 []
        [longPend s 1 false [regCode s.team d.toNat] [⟨0, regCode s.team d.toNat, BitVec.ofNat 32 m.counter⟩] 2] [] 1) ∧
  (∀ (h : Hd) (a : RegF) (s : State),
    let m := (s.core s.myCore).mat
    let b := (rdu s a).toNat % 2 ^ 16
    Issuing s → Ready s false [src a] → isVec a = false → s.myBlock.matuse = true → ¬ (m.isOpen = true ∧ m.counter = b) →
    ∃ t, Ended (afterReads s [src a]) t h 4 1 [] [] [] 0 (fieldsFrom a 1) ∧
      exec (.mwait h a) s = .next (if b ∈ m.batches then parkAt (.mwait b) t else t)) ∧
  ∀ (s : State) (b : Nat) (rest : List Nat),
    let c := s.sel.unit
    (s.core c).mat.batches = b :: rest → (∀ x ∈ (s.core c).mat.queue, x.batch ≠ b) →
    let wake := fun (t : Team) => if t.park = .mwait b ∧ t.tid / 64 = c then unparked s.ac t else t
    exec .batchComplete s = .next { s.onCore c (fun x => { x with mat := { x.mat with batches := rest } }) with
      team := wake s.team, teams := mmap wake s.teams }

/-- R319, R329 to R332: each MDRAIN of a slot in accumulator mode queues its member: to the vault with its offset and stride, to registers with
its bases, to a port with its handle and element; the form to registers leaves its run outstanding under one entry. -/
def Claims.DrainsAreQueued : Prop :=
  (∀ p ∈ ([(.mdrainVf32, false), (.mdrainVbf16, true)] : List ((Hd → RegF → RegF → Bool → BitVec 2 → Instr) × Bool)),
    ∀ (h : Hd) (d a : RegF) (z : Bool) (k : BitVec 2) (s : State),
    let off := (rdu s a).toNat
    let st := (rdu s d).toNat
    let w := if p.2 then 2 else 4
    let x := accSlot s s.myCore k.toNat
    Issuing s → Ready s false [src a, src d] → isVec a = false → isVec d = false → Claims.memberGoes s → x.mode = false →
    (p.2 = true → fmtSat s < 2) → off % 128 = 0 → st % 128 = 0 → 64 * w ≤ st → off + 63 * st + 64 * w ≤ s.myBlock.vbytes →
    ∃ t, exec (p.1 h d a z k) s = .next t ∧
      Ended (Claims.member s (afterReads s [src a, src d]) k.toNat (.drainV off st p.2 z x.afmt (fmtSat s))) t h 4 1 [] [] [] 0
        (fieldsFrom a 1)) ∧
  (∀ (h : Hd) (d a : RegF) (c : BitVec 3) (k : BitVec 2) (s : State),
    let n := 2 ^ c.toNat
    let ops : List Opnd := [src a, { f := d.toNat, n := n, ok := isVec d && decide (d.toNat + n ≤ 96), rd := false, wr := true }]
    let v := (rdu s a).toNat
    Issuing s → Ready s false ops → isVec a = false → c ≠ 7 → Claims.memberGoes s → (accSlot s s.myCore k.toNat).mode = false →
    v % 64 + n ≤ 64 → pendCount s.team < 16 →
    ∃ t, exec (.mdrainReg h d a c k) s = .next t ∧
      Ended (Claims.member s (afterReads s ops) k.toNat (.drainReg n (v / 2 ^ 8 % 64) (v % 64) s.team.active s.nextTag)) t h 4 (passesOf s.team) []
        [Claims.memberPend s (codesOf s d n) true] [] 1 (fieldsFrom a 1)) ∧
  ∀ (h : Hd) (d a : RegF) (z : Bool) (k : BitVec 2) (s : State),
    let e := (rdu s d).toNat
    Issuing s → Ready s false [src a, src d] → isVec a = false → isVec d = false → Claims.memberGoes s → (accSlot s s.myCore k.toNat).mode = false →
    (accSlot s s.myCore k.toNat).afmt = false → e % 64 = 0 → portOk s s.myBlock.grid (rdu s a) e = true →
    ∃ t, exec (.mdrainPort h d a z k) s = .next t ∧
      Ended (Claims.member s (afterReads s [src a, src d]) k.toNat (.drainPort (rdu s a) e z)) t h 4 1 [] [] [] 0 (fieldsFrom a 1)

/-- R319, R333 to R335, R338: each TPIO of a slot in transport mode, and BAL, queue their member; SIZE sets transport mode and the shape at
issue; COST and BAL leave their registers outstanding. -/
def Claims.TransportMembersAreQueued : Prop :=
  (∀ p ∈ ([(.tpioLdk, 4, .ldk), (fun h d a k => .tpioStp h d a false k, 4, fun o st => .stp o st false),
      (fun h d a k => .tpioStp h d a true k, 2, fun o st => .stp o st true)] :
      List ((Hd → RegF → RegF → BitVec 2 → Instr) × Nat × (Nat → Nat → MemberOp))), ∀ (h : Hd) (d a : RegF) (k : BitVec 2) (s : State),
    let x := accSlot s s.myCore k.toNat
    let off := (rdu s a).toNat
    let st := (rdu s d).toNat
    Issuing s → Ready s false [src a, src d] → isVec a = false → isVec d = false → Claims.memberGoes s → x.mode = true → off % 4 = 0 →
    st % 4 = 0 → p.2.1 * x.n ≤ st → off + (x.m - 1) * st + p.2.1 * x.n ≤ s.myBlock.vbytes →
    ∃ t, exec (p.1 h d a k) s = .next t ∧
      Ended (Claims.member s (afterReads s [src a, src d]) k.toNat (p.2.2 off st)) t h 4 1 [] [] [] 0 (fieldsFrom a 1)) ∧
  (∀ p ∈ ([(.tpioLda, fun x => x.m, .lda), (.tpioLdb, fun x => x.n, .ldb), (.tpioStf, fun x => x.m + x.n, .stf)] :
      List ((Hd → RegF → BitVec 2 → Instr) × (AccSlot → Nat) × (Nat → MemberOp))), ∀ (h : Hd) (a : RegF) (k : BitVec 2) (s : State),
    let x := accSlot s s.myCore k.toNat
    let off := (rdu s a).toNat
    Issuing s → Ready s false [src a] → isVec a = false → Claims.memberGoes s → x.mode = true → off % 4 = 0 →
    off + 4 * p.2.1 x ≤ s.myBlock.vbytes →
    ∃ t, exec (p.1 h a k) s = .next t ∧
      Ended (Claims.member s (afterReads s [src a]) k.toNat (p.2.2 off)) t h 4 1 [] [] [] 0 (fieldsFrom a 1)) ∧
  (∀ (h : Hd) (d a : RegF) (k : BitVec 2) (s : State),
    Issuing s → Ready s false [src a, dst d] → isVec a = false → isVec d = false → Claims.memberGoes s → (accSlot s s.myCore k.toNat).mode = true →
    pendCount s.team < 16 →
    ∃ t, exec (.tpioCost h d a k) s = .next t ∧
      Ended (Claims.member s (afterReads s [src a, dst d]) k.toNat (.cost (rdu s a) s.nextTag)) t h 4 1 []
        [Claims.memberPend s [regCode s.team d.toNat] false] [] 1 (fieldsFrom a 1)) ∧
  (∀ (h : Hd) (a : RegF) (k : BitVec 2) (s : State),
    let m := (rdu s a).toNat % 2 ^ 7
    let n := (rdu s a).toNat / 2 ^ 8 % 2 ^ 7
    Issuing s → Ready s false [src a] → isVec a = false → Claims.memberGoes s → 1 ≤ m → m ≤ 64 → 1 ≤ n → n ≤ 64 →
    ∃ t, exec (.tpioSize h a k) s = .next t ∧
      Ended (Claims.member s ((afterReads s [src a]).onCore s.myCore fun c => { c with mat := { c.mat with
          acc := vset c.mat.acc k.toNat { vget {} c.mat.acc k.toNat with mode := true, m := m, n := n } } }) k.toNat (.size m n)) t h 4 1
        [] [] [] 0 (fieldsFrom a 1)) ∧
  ∀ (h : Hd) (d a b : RegF) (l : Word) (s : State),
    Issuing s → Ready s false [src a, src b, dstPair d] → isScalar d = true → isVec a = false → isVec b = false → Claims.memberGoes s →
    (accSlot s s.myCore (l.toNat % 4)).mode = true → (rdu s a).toNat ≤ 255 → pendCount s.team + 2 ≤ 16 →
    ∃ t, exec (.bal h d a b l) s = .next t ∧
      Ended (Claims.member s (afterReads s [src a, src b, dstPair d]) (l.toNat % 4) (.bal (rdu s a).toNat (rdu s b) s.nextTag)) t h 8 1 []
        [Claims.memberPend s (codesOf s d 2) false] [] 1 (fieldsFrom a 1) (fieldsFrom b 1)

/-- R323, R324, R326: a sequencer draws the next whole row of a stream from its FIFO into its buffers; nothing else of the stream changes. -/
def Claims.SequencersDrawRows : Prop :=
  ∀ (s : State) (x : Member) (xs : List Member) (count mr nc : Nat) (z : Bool) (fmt : Word),
    let c := s.sel.unit
    let st := s.sel.sub
    let m := (s.core c).mat
    let q := vget [] (s.core c).fifo st
    let rb := rowBytes fmt st
    let per := rowsPer fmt mr nc st
    let steps := (sparOf fmt).2.1
    m.queue = x :: xs → x.op = .mloop count mr nc z fmt → st < 4 → 0 < rb → rb ≤ q.length →
    vget 0 m.drawn st < (if st = 0 then count else count / steps) * per →
    vget 0 m.drawn st < ((if st = 0 then x.done else x.done / steps) + 2) * per →
    exec .operandRowDraw s = .next (s.onCore c fun y => { y with
      fifo := vset y.fifo st (q.drop rb)
      mat := armStep s.ac { m with
        bufs := setBuf m.bufs st (bufOf m.bufs st ++ q.take rb), drawn := vset m.drawn st (vget 0 m.drawn st + 1) } })

/-- R48, R50: of a row's kept elements from `j0` on, at the positions `pos` of groups of `n`: one more than the position of the last valid element
before element `e` in its group, 0 for none; `c` is that of the group in progress before them. -/
def Claims.reached (n j0 : Nat) (pos : Nat → Nat) (c : Nat) : Nat → Nat
  | 0 => if j0 % n = 0 then 0 else c
  | e + 1 =>
    let r := Claims.reached n j0 pos c e
    if (j0 + e + 1) % n = 0 then 0 else if pos e < 12 ∧ r ≤ pos e then pos e + 1 else r

/-- R50: a kept element is valid when its position is below 12 and above that of every valid element before it in its group. -/
def Claims.valid (n j0 : Nat) (pos : Nat → Nat) (c e : Nat) : Bool := decide (pos e < 12 ∧ Claims.reached n j0 pos c e ≤ pos e)

/-- R30, R323: row `r` of a buffer of rows of `n` bytes. -/
def Claims.rowOf (buf : List Byte) (n r : Nat) : List Byte := (buf.drop (r * n)).take n

/-- R45, R46, R48 to R50, R316, R323, R324: a step of an MLOOP adds to each element of its rows and columns the products of its 32 dense or kept
elements of A with those of B at their logical positions, each with the scales of the blocks that hold them, exactly and with one rounding, or as
integers; an invalid element adds +0. With Z the first step begins from zero; every other element is as it was. An invalid element sets METABAD and
an element left at CANON_NAN sets NANACC, in MSTAT with the last step. -/
def Claims.StepsAddTheirProducts : Prop :=
  (∀ (s : State) (x : Member) (xs : List Member) (count mr nc : Nat) (z : Bool) (fmt : Word),
    let c := s.sel.unit
    let m := (s.core c).mat
    let a := accSlot s c x.slot
    let ma := fmtMa fmt
    let mb := fmtMb fmt
    let n := if fmtSpar fmt = 1 then 3 else if fmtSpar fmt = 2 then 4 else if fmtSpar fmt = 3 then 6 else 0
    let steps := if n = 3 ∨ n = 6 then 3 else 1
    let per := if fmtSb fmt = 1 then 2 else if fmtSb fmt = 2 then 1 else 0
    let rowA := Claims.rowOf m.bufs.inA (rowBytesOf ma 32 + if n = 0 then 0 else 16)
    let pos := fun (i e : Nat) => leNat ((rowA i).drop (rowBytesOf ma 32)) / 16 ^ e % 16
    let j0 := 32 * (x.done % steps)
    let ok := fun (i e : Nat) => n == 0 || Claims.valid n j0 (pos i) (x.carry.getD i 0) e
    let k := fun (i e : Nat) => if n = 0 then e else 12 * ((j0 + e) / n) + pos i e
    let av := fun (i e : Nat) => decodeMa ma (elemAt ma ((rowA i).take (rowBytesOf ma 32)) e)
    let bv := fun (p j : Nat) => decodeMa mb (elemAt mb (Claims.rowOf m.bufs.inB (rowBytesOf mb 32) (p / 32 * nc + j)) (p % 32))
    let scale := fun (buf : List Byte) (rows p r : Nat) => fieldAt buf ((p / 32 * rows + r) * per + p % 32 / (32 / per)) 1
    let term := fun (i j e : Nat) =>
      if ok i e then
        let p := (av i e).mul (bv (k i e) j)
        if per = 0 then p else scaleValue (scaleValue p (scale m.bufs.scA mr (k i e) i)) (scale m.bufs.scB nc (k i e) j)
      else .fin false 0 0
    let terms := fun (i j : Nat) => (List.range 32).map (term i j)
    let old := fun (i j : Nat) => if z = true ∧ x.done = 0 then 0 else accVal a i j
    let new := fun (i j : Nat) => if fmtMacc fmt = 1 then BitVec.ofInt 32 ((old i j).toInt + ((terms i j).map intOf).sum)
      else rne32 (exactSum (dec32 (old i j) :: terms i j))
    let bad := if ((List.range mr).any fun i => (List.range 32).any fun e => !ok i e) = true then 1#32 else 0
    let nan := if fmtMacc fmt = 0 ∧ ((List.range mr).any fun i => (List.range nc).any fun j => new i j == canonNan) = true then 4#32 else 0
    m.queue = x :: xs → x.op = .mloop count mr nc z fmt → x.started = true → x.due ≤ s.ac → x.done < count → x.slot < 4 → mr ≤ 64 → nc ≤ 64 →
    ∃ t, exec .mloopStep s = .next t ∧ t.mem = s.mem ∧ t.team = s.team ∧ t.teams = s.teams ∧
      (∀ i < 64, ∀ j < 64, accVal (accSlot t c x.slot) i j = if i < mr ∧ j < nc then new i j else old i j) ∧
      (count = x.done + 1 → (t.core c).mat.queue.length = xs.length ∧ (t.core c).mat.mstat = m.mstat ||| (x.flags ||| bad ||| nan)) ∧
      (x.done + 1 < count → (t.core c).mat.mstat = m.mstat ∧ ∃ y, (t.core c).mat.queue = y :: xs ∧ y.done = x.done + 1 ∧
        y.flags = x.flags ||| bad ||| nan ∧ (t.core c).mat.bufs = usedBufs m.bufs fmt mr nc y.done ∧
        (n ≠ 0 → ∀ i < mr, y.carry.getD i 0 = if ok i 31 then pos i 31 + 1 else Claims.reached n j0 (pos i) (x.carry.getD i 0) 31))) ∧
  ∀ (s : State) (x : Member) (xs : List Member) (mr nc : Nat) (z : Bool) (fmt : Word),
    let c := s.sel.unit
    (s.core c).mat.queue = x :: xs → x.op = .mloop 0 mr nc z fmt → x.due ≤ s.ac →
    exec .mloopStep s = .next (memberDone c (if z then onSlot c x.slot accZero s else s))

/-- The state after the member at the head of a core's queue has completed: its flags are set in MSTAT and the next one begins (R316, R320). -/
def Claims.completed (c : Nat) (x : Member) (xs : List Member) (q : State) : State :=
  armHead c (q.onCore c fun y => { y with mat := { y.mat with queue := xs, mstat := y.mat.mstat ||| x.flags } })

/-- R329 to R331: a drain at the head of the queue that is due writes the 64 rows of its slot to the region, or gives each active lane its
elements; with Z the slot is zero afterwards. The member completes, and no other byte of memory changes. -/
def Claims.DrainsDeliverTheirElements : Prop :=
  (∀ (s : State) (x : Member) (xs : List Member) (off st sat : Nat) (bf z int : Bool),
    let c := s.sel.unit
    let m := (s.core c).mat
    let a := accSlot s c x.slot
    let base := vaultKey c ((s.block (m.owner.getD 0)).voff + off)
    let w := if bf then 2 else 4
    m.queue = x :: xs → x.op = .drainV off st bf z int sat → x.due ≤ s.ac → 64 * w ≤ st → x.slot < 4 →
    ∃ t, exec .mdrainExecute s = .next t ∧ (t.core c).mat.queue.length = xs.length ∧
      (∀ i < 64, ∀ j < 64, ∀ b < w, some (memByte t.mem (base + i * st + w * j + b)) = (drainBytes bf int sat (accVal a i j))[b]?) ∧
      (∀ k, (∀ i < 64, k < base + i * st ∨ base + i * st + 64 * w ≤ k) → memByte t.mem k = memByte s.mem k) ∧
      ∀ i < 64, ∀ j < 64, accVal (accSlot t c x.slot) i j = if z then 0 else accVal a i j) ∧
  ∀ (s : State) (x : Member) (xs : List Member) (n r0 c0 tag : Nat) (act : Mask),
    let c := s.sel.unit
    let a := accSlot s c x.slot
    let lanes := (lanesOf act).filter fun l => decide (r0 + l < 64)
    (s.core c).mat.queue = x :: xs → x.op = .drainReg n r0 c0 act tag → x.due ≤ s.ac →
    ∃ q, exec .mdrainExecute s = .next (memberDone c q) ∧
      q = memberResult x.tid tag (fun regs => (regs.take n).zipIdx.flatMap fun p => lanes.map fun l =>
        ⟨l, p.1, accVal a (r0 + l) (c0 + p.2)⟩) s

/-- R332, R404: a drain to a port whose entry takes no more completes; else, after its ticket and 64 ac and when no started
collective of lower rank has data to read (R396), it hands its 4,096 elements over and completes. -/
def Claims.PortDrainsHandTheirElementsOver : Prop :=
  ∀ (s : State) (x : Member) (xs : List Member) (hd : Word) (e : Nat) (z : Bool),
    let c := s.sel.unit
    let a := accSlot s c x.slot
    let zero := fun (q : State) => if z then onSlot c x.slot accZero q else q
    (s.core c).mat.queue = x :: xs → x.op = .drainPort hd e z →
    (portGone s hd = true → exec .mdrainPortHandoff s = .next (memberDone c (zero s))) ∧
    (portGone s hd = false → portReady s hd = true → x.started = false → exec .mdrainPortHandoff s =
      .next (s.onCore c fun y => { y with mat := { y.mat with queue := { x with started := true, due := s.ac + 64 } :: xs } })) ∧
    (portGone s hd = false → portReady s hd = true → x.started = true → x.due ≤ s.ac →
      sendTurn s (handleIdx hd) = true → exec .mdrainPortHandoff s =
      .next (memberDone c (zero (portPut hd e ((List.range 4096).map fun i => accVal a (i / 64) (i % 64)) s))))

/-- R336: PLAN(i, j), the bytes of an element of STP, and the cost of the plan: a sum in a fixed order, each operation rounded once. -/
def Claims.plan (a : AccSlot) (i j : Nat) : Word := fExp2 (fAdd (fAdd (tK a i j) (tF a i)) (tG a j))
def Claims.planElem (bf : Bool) (w : Word) : List Byte :=
  if bf then leBytes 2 (roundFp bf16 0 (decodeFp fp32 w.toNat)) else leBytes 4 w.toNat
def Claims.cost (eps : Word) (a : AccSlot) : Word :=
  (List.range a.tm).foldl (fun c i => (List.range a.tn).foldl (fun c j =>
    if Claims.plan a i j = 0 then c else fAdd c (fMul (Claims.plan a i j) (fMul (eps ^^^ 0x80000000#32) (tK a i j)))) c) 0

/-- R337: the log-sum-exp of a list of scores. -/
def Claims.logSum (vs : List Word) : Word :=
  let top := vs.foldl fMax 0xFF800000#32
  if ∃ v ∈ vs, Claims.isNan fp32 v.toNat then 0x7FC00000#32
  else if top = 0xFF800000#32 ∨ top = 0x7F800000#32 then top
  else fAdd top (fLog2 (vs.foldl (fun sum v => fAdd sum (fExp2 (fSub v top))) 0))

/-- R339: the log-sum of row `i` under the column potentials `g`, and of column `j` under the row potentials `f`. -/
def Claims.rowSum (a : AccSlot) (g : Nat → Word) (i : Nat) : Word := Claims.logSum ((List.range a.tn).map fun j => fAdd (tK a i j) (g j))
def Claims.colSum (a : AccSlot) (f : Nat → Word) (j : Nat) : Word := Claims.logSum ((List.range a.tm).map fun i => fAdd (tK a i j) (f i))

/-- R339: a potential after ROWS or COLS, from its marginal, its log-sum and its value before: unchanged where the line is infeasible. -/
def Claims.potential (marginal sum old : Word) : Word :=
  if marginal = 0xFF800000#32 then 0xFF800000#32 else if sum = 0xFF800000#32 then old else fSub marginal sum

/-- R339: the potentials of the rows and of the columns after `n` sweeps of BAL. -/
def Claims.sweeps (a : AccSlot) : Nat → (Nat → Word) × (Nat → Word)
  | 0 => (tF a, tG a)
  | n + 1 =>
    let p := Claims.sweeps a n
    let f := fun i => if i < a.tm then Claims.potential (tRow a i) (Claims.rowSum a p.2 i) (p.1 i) else p.1 i
    (f, fun j => if j < a.tn then Claims.potential (tCol a j) (Claims.colSum a f j) (p.2 j) else p.2 j)

/-- R339: ERR after `n` sweeps. -/
def Claims.sweepError (a : AccSlot) (n : Nat) : Word :=
  let p := Claims.sweeps a n
  (List.range a.tm).foldl (fun e i =>
    fMax e (fSub (fExp2 (fAdd (p.1 i) (Claims.rowSum a p.2 i))) (fExp2 (tRow a i)) &&& 0x7FFFFFFF#32)) 0

/-- R339: whether sweep `n` meets a row or a column that is infeasible. -/
def Claims.infeasible (a : AccSlot) (n : Nat) : Prop :=
  (∃ i < a.tm, tRow a i ≠ 0xFF800000#32 ∧ Claims.rowSum a (Claims.sweeps a n).2 i = 0xFF800000#32) ∨
    ∃ j < a.tn, tCol a j ≠ 0xFF800000#32 ∧ Claims.colSum a (Claims.sweeps a (n + 1)).1 j = 0xFF800000#32

/-- R336: the bytes of row `i` of a plan as STP writes them. -/
def Claims.planRow (bf : Bool) (a : AccSlot) (i : Nat) : List Byte := (List.range a.tn).flatMap fun j => Claims.planElem bf (Claims.plan a i j)

/-- R333, R335, R336, R424: a transport member at the head of the queue that is due is executed: a load or SIZE changes its slot, STP and STF write
the plan and the potentials to the region, and COST answers its register; then the member completes. A load that meets a word marked
uncorrectable raises ENGFAULT ECC at its first such word, with no job number of its own. -/
def Claims.TransportMembersAreExecuted : Prop :=
  ∀ (s : State) (x : Member) (xs : List Member),
    let c := s.sel.unit
    let a := accSlot s c x.slot
    let blk := ((s.core c).mat.owner).getD 0
    let base := (s.block blk).voff
    let bad := fun (off : Nat) => badAt s (vaultKey c (base + off)) 4
    let words : List Nat := match x.op with
      | .ldk o st => (List.range a.tm).flatMap fun i => (List.range a.tn).map fun j => o + i * st + 4 * j
      | .lda o => (List.range a.tm).map fun i => o + 4 * i
      | .ldb o => (List.range a.tn).map fun j => o + 4 * j
      | _ => []
    let loaded := memberDone c (onSlot c x.slot (tileLoad s c base x.op) s)
    (s.core c).mat.queue = x :: xs → x.due ≤ s.ac →
    ((∃ o st, x.op = .ldk o st) ∨ (∃ o, x.op = .lda o) ∨ (∃ o, x.op = .ldb o) ∨ (∃ m n, x.op = .size m n) →
      ((∀ off ∈ words, bad off = false) → exec .tpioExecute s = .next loaded) ∧
      ∀ (good rest : List Nat) (off u : Nat), words = good ++ off :: rest → (∀ o ∈ good, bad o = false) → bad off = true →
        let uid := ((s.allTeams.find? fun t => t.tid == x.tid && t.blk == blk).map teamUid).getD (4 * blk)
        let q := { loaded with fresh := loaded.fresh + 2 ^ 20 + 1 }
        faultTeam q (s.block blk).grid uid = some u →
        exec .tpioExecute s = .next (eventTo (s.block blk).grid u
          (.engfault s.ac 256 (Config.freeWord (loaded.fresh + 2 ^ 20)) 6 (BitVec.ofNat 64 off)) q)) ∧
    (∀ off st bf, x.op = .stp off st bf → exec .tpioExecute s = .next (memberDone c ((List.range a.tm).foldl (fun q i =>
      memberStore c (base + off + i * st) (Claims.planRow bf a i) q) s))) ∧
    (∀ off, x.op = .stf off → exec .tpioExecute s = .next (memberDone c (memberStore c (base + off)
      (((List.range a.tm).flatMap fun i => leBytes 4 (tF a i).toNat) ++ (List.range a.tn).flatMap fun j => leBytes 4 (tG a j).toNat) s))) ∧
    ∀ eps tag, x.op = .cost eps tag → exec .tpioExecute s = .next (memberDone c
      (memberResult x.tid tag (fun regs => regs.map fun r => ⟨0, r, Claims.cost eps a⟩) s))

/-- R337 to R339: BAL sweeps until the error lies below the tolerance or the limit is reached; it leaves the potentials of its last sweep in the slot,
answers the number of sweeps and the last error, and sets INFEAS when one of its sweeps met an infeasible row or column. -/
def Claims.BalSweepsToItsTolerance : Prop :=
  ∀ (s : State) (x : Member) (xs : List Member) (limit tag n : Nat) (tol : Word),
    let c := s.sel.unit
    let a := accSlot s c x.slot
    let meets := fun k => decodeFp fp32 (Claims.sweepError a k).toNat |>.lt (decodeFp fp32 tol.toNat)
    (s.core c).mat.queue = x :: xs → x.op = .bal limit tol tag → x.due ≤ s.ac → x.slot < 4 →
    n ≤ limit → (∀ k < n, meets k = false) → (n = limit ∨ meets n = true) →
    ∃ (b : AccSlot) (fl : Word), b = { a with f := b.f, g := b.g } ∧ (∀ i, tF b i = (Claims.sweeps a n).1 i) ∧
      (∀ j, tG b j = (Claims.sweeps a n).2 j) ∧ ((∃ k < n, Claims.infeasible a k) → fl = 2) ∧ ((∀ k < n, ¬ Claims.infeasible a k) → fl = 0) ∧
      exec .balExecute s = .next (memberDone c (memberResult x.tid tag
        (fun regs => (regs.zip [BitVec.ofNat 32 n, Claims.sweepError a n]).map fun p => ⟨0, p.1, p.2⟩)
        (s.onCore c fun y => { y with mat := { y.mat with acc := vset y.mat.acc x.slot b, queue := { x with flags := fl } :: xs } })))

/-- R335, R424: SIZE clears a slot's costs, potentials and marginals and takes its shape; LDK, LDA and LDB fill the costs and marginals from the
region, row by row; a word marked uncorrectable gives a free value. -/
def Claims.TransportLoadsFillTheSlot : Prop :=
  ∀ (s : State) (c base : Nat) (a : AccSlot),
    let word := fun (off : Nat) (w : Word) =>
      if badAt s (vaultKey c (base + off)) 4 then w = Config.freeWord (s.fresh + off)
      else w.toNat = Claims.number s (vaultKey c (base + off)) 4
    (∀ m n, let b := tileLoad s c base (.size m n) a
      b.tm = m ∧ b.tn = n ∧ ∀ i j, tK b i j = fNegInf ∧ tF b i = 0 ∧ tG b j = 0 ∧ tRow b i = fNegInf ∧ tCol b j = fNegInf) ∧
    (∀ off st, a.tn ≤ 64 → ∀ i < a.tm, ∀ j < a.tn, word (off + i * st + 4 * j) (tK (tileLoad s c base (.ldk off st) a) i j)) ∧
    (∀ off, ∀ i < a.tm, word (off + 4 * i) (tRow (tileLoad s c base (.lda off) a) i)) ∧
    ∀ off, ∀ j < a.tn, word (off + 4 * j) (tCol (tileLoad s c base (.ldb off) a) j)

/-- R326: with no team of its block left and a starved stream that no fill feeds, a sequencer gives its members up; the accumulators are undefined
and the grid reports it. -/
def Claims.StarvedSequencersGiveUp : Prop :=
  ∀ (s : State) (x : Member) (xs : List Member) (sts : List Nat) (k count mr nc : Nat) (z : Bool) (fmt : Word),
    let c := s.sel.unit
    let m := (s.core c).mat
    m.queue = x :: xs → x.op = .mloop count mr nc z fmt → starvedOn s c = some sts → m.owner = some k → teamsOf s k = [] →
    (∃ st ∈ sts, fillsOf s c st = [] ∧ (vget [] (s.core c).fifo st).length < rowBytes fmt st) →
    ∃ t, exec .sequencerAbandon s = .next t ∧ (t.core c).mat.queue = [] ∧ t.mem = s.mem ∧ t.fresh = s.fresh + 16384 ∧
      (t.grid (s.block k).grid).stFlags = (s.grid (s.block k).grid).stFlags ||| 2 ∧
      ∀ n < 4, ∀ i < 64, ∀ j < 64, accVal (accSlot t c n) i j = Config.freeWord (s.fresh + 4096 * n + 64 * i + j)

/-- R317, R318, R319, R320, R321, R322, R327, R328, R329, R330, R331, R332, R333, R334, R335, R338: BATON, MLOOP, MFENCE, MWAIT, MDRAIN, TPIO and BAL.
It rests on choices of the model: log entries 25, 37, 47 and 51. -/
def Obligations.MatrixMembersAreQueued : Prop := Claims.BatonHandsTheTrowelOn ∧ Claims.MloopQueuesItsSteps ∧ Claims.BatchesAreFencedAndAwaited ∧ Claims.DrainsAreQueued ∧ Claims.TransportMembersAreQueued

/-- R45, R46, R48, R50, R323, R324, R326, R329, R330, R331, R332, R404: The steps of the matrix engine and its drains.
It rests on choices of the model: log entries 37 and 50. -/
def Obligations.MatrixStepsAndDrainsExecute : Prop := Claims.SequencersDrawRows ∧ Claims.StepsAddTheirProducts ∧ Claims.DrainsDeliverTheirElements ∧ Claims.PortDrainsHandTheirElementsOver

/-- R326, R333, R335, R336, R337, R338, R339, R424: Transport members execute; a starved sequencer gives up.
It rests on choices of the model: log entries 37 and 70. -/
def Obligations.TransportExecutesAndSequencersGiveUp : Prop := Claims.TransportMembersAreExecuted ∧ Claims.BalSweepsToItsTolerance ∧
  Claims.TransportLoadsFillTheSlot ∧ Claims.StarvedSequencersGiveUp

/-! ### Collectives -/

/-- R399 to R401: CPOST of a sound descriptor of a group with this package among its members is a release at DEV and answers a handle: that of the
entry which already holds the (group, SEQ) with the same descriptor, else that of the lowest free entry, which the post fills. -/
def Claims.CpostFillsAnEntry : Prop :=
  ∀ (h : Hd) (d a b : RegF) (l : Word) (s c : State) (card : List Byte) (i : Nat),
    let ops := [srcPair a, src b, dst d]
    let va := (rdPair s a (lowestLane s.team.active)).toNat % 2 ^ 57
    let x := collDesc card ((rdu s b).toNat % 2 ^ 16) l.toInt
    let g := groupEntry s s.myCtx x.group
    let code := regCode s.team d.toNat
    let fresh : Coll := { st := .posted, gen := (c.coll i).gen, desc := x, ctx := s.myCtx, grid := s.myBlock.grid
                          uid := some (s.team.blk * 4 + s.team.role), member := g.2.1, n := g.2.2, coord := g.1 }
    let ends := fun (q t : State) => Ended (writeBackAll s.myCore q) t h 8 1 []
      [{ tag := s.nextTag, pc := s.team.pc, regs := [code], writes := [⟨0, code, BitVec.ofNat 32 (i + (c.coll i).gen * 64)⟩], due := s.ac }] [] 1
      (fieldsFrom a 2) (fieldsFrom b 1)
    Issuing s → Ready s false ops → isScalar d = true → isScalar a = true → isVec b = false → va % 64 = 0 → acqPending s.team = false →
    memDrained s.team = true → readCard va 64 (afterReads s ops) = .ok card c → fieldsOk x = true → buffersClash x g.2.2 g.2.1 = false →
    g.2.2 ≠ 0 → (x.oper = 4 → x.root < g.2.2) → pendCount s.team < 16 →
    (findColl s s.myCtx x.group x.seq = some i → (s.coll i).desc = x → ∃ t, exec (.cpost h d a b l) s = .next t ∧ ends c t) ∧
    (findColl s s.myCtx x.group x.seq = none → freeEntry s = some i →
      (gridEntries s s.myBlock.grid).length < (s.grid s.myBlock.grid).launch.collent →
      ∃ t, exec (.cpost h d a b l) s = .next t ∧ ends { c with colls := mput c.colls i fresh } t)

/-- R276, R398, R400, R401: CWAIT goes on when the handle's entry was freed since or meets its condition, LOCAL and GLOBAL then being an acquire
at the collective's scope (SYS for a freed one); the handle of a free entry or of another grid's traps COLLERR with HANDLE; an entry in ERROR
traps COLLERR with its code and is freed; else the team parks. -/
def Claims.CwaitWaitsForItsEntry : Prop :=
  ∀ p ∈ ([(.cwaitTicket, 0), (.cwaitLocal, 1), (.cwaitGlobal, 2)] : List ((Hd → RegF → Instr) × Nat)), ∀ (h : Hd) (a : RegF) (s : State),
    let q := afterReads s [src a]
    let w := rdu s a
    let i := w.toNat % 64
    let c := s.coll i
    let goes := fun (scope : Nat) => ∃ t, exec (p.1 h a) s = .next t ∧
      Ended (if p.2 = 0 ∨ scope < 2 then q else invalidateCache s.myCore q) t h 4 1 [] [] [] 0 (fieldsFrom a 1)
    Issuing s → Ready s false [src a] → isVec a = false → (p.2 = 0 ∨ acqPending s.team = false) →
    (c.gen ≠ w.toNat / 64 % 2 ^ 16 → goes 5) ∧
    (c.gen = w.toNat / 64 % 2 ^ 16 →
      (c.st = .free ∨ c.grid ≠ s.myBlock.grid → exec (p.1 h a) s = .next (trapI cCOLLERR 4 (booked 1 q) 1)) ∧
      (c.st ≠ .free → c.grid = s.myBlock.grid →
        (c.st = .error → exec (p.1 h a) s = .next (trapI cCOLLERR 4 (freeColl i (booked 1 q)) c.err)) ∧
        (c.st = .started → p.2 = 0 → goes c.desc.scope) ∧
        (c.st = .loc → p.2 < 2 → goes c.desc.scope) ∧
        (c.st = .posted ∨ (c.st = .started ∧ p.2 ≠ 0) ∨ (c.st = .loc ∧ p.2 = 2) →
          exec (p.1 h a) s = .next (q.onTeam fun t => { t with park := .cwait p.2 w }))))

/-- R276, R398 to R401: CPOST fills or finds its entry; CWAIT waits for it.
It rests on choices of the model: log entries 34, 35, 47 and 53. -/
def Obligations.CollectivesArePostedAndAwaited : Prop := Claims.CpostFillsAnEntry ∧ Claims.CwaitWaitsForItsEntry

/-- R387, R395: COORD, which a live port reaches, adds a post to those it holds of the same group and SEQ; with the posts of all members it sends the
root one request when they agree and it holds the schedule, else a notice to the entries of the collective. -/
def Claims.PostsAreCollected : Prop :=
  ∀ s : State,
    let i := s.sel.sub
    let c := s.coll i
    let p := postOf i s
    let same := fun (q : Post) => q.coord == p.coord && (q.group == p.group && q.seq == p.seq)
    let mine := s.posts.filter same ++ [p]
    let r := { s.spoken with posts := s.posts.filter fun q => !same q }
    let notice := fun (e : Nat) => { r with notices := s.notices ++ ((List.range 64).filter fun k =>
      (s.coll k).st == .posted && ((s.coll k).coord == p.coord && ((s.coll k).desc.group == p.group && (s.coll k).desc.seq == p.seq))).map (fun k =>
        (k, (s.coll k).gen, e)) }
    s.sel.unit = 0 → s.linked = true → c.st = .posted → (∀ q ∈ s.posts, same q = true → q.pkg ≠ p.pkg) →
    (∀ q ∈ s.creqs, q.key ≠ c.key) → (∀ q ∈ s.grants, q.key ≠ c.key) → (∀ m ∈ s.notices, m.1 = i → m.2.1 ≠ c.gen) →
    (mine.length < (mine.headD p).n → exec .collPostCollect s = .next { s.spoken with posts := s.posts ++ [p] }) ∧
    ((mine.headD p).n ≤ mine.length →
      ((∃ q ∈ mine, q.fields ≠ p.fields) → exec .collPostCollect s = .next (notice 3)) ∧
      ((∀ q ∈ mine, q.fields = p.fields) →
        (mget? s.scheds p.sched = none → exec .collPostCollect s = .next (notice 2)) ∧
        ((mget? s.scheds p.sched).isSome → exec .collPostCollect s = .next { r with creqs := s.creqs ++
          [{ arrived := s.ac, coord := p.coord, ctx := p.ctx, group := p.group, seq := p.seq, members := mine.map (·.pkg), sched := p.sched }] })))

/-- R387, R395, R396: the root grants a request that fits, with the next rank; then no member holds more than 16 started slots and no switch more
contexts than it has. A request that has waited 2^20 ac blocks every later one that names any of its resources. A package takes its grants by a
live port in the order of their ranks, and the entry starts. -/
def Claims.GrantsAreGivenAndReceived : Prop :=
  (∀ (s : State) (r : CollReq), s.creqs[s.sel.sub]? = some r → mayGrant s s.sel.sub = true →
    ∃ t, exec .collRequestGrant s = .next t ∧
      t = { s with
        creqs := s.creqs.eraseIdx s.sel.sub, nextRank := (s.nextRank + 1) % 2 ^ 48
        grants := s.grants ++ [{ rank := s.nextRank, coord := r.coord, ctx := r.ctx, group := r.group, seq := r.seq, members := r.members
                                 sched := r.sched }] } ∧
      (∀ m ∈ r.members, (t.grants.filter fun g => g.members.contains m).length ≤ 16) ∧
      ∀ w ∈ mget [] s.scheds r.sched, (t.grants.filter fun g => (mget [] s.scheds g.sched).contains w).length ≤ mget 0 s.swCtx w) ∧
  (∀ (s : State) (r : CollReq), s.creqs[s.sel.sub]? = some r → r.arrived + 2 ^ 20 ≤ s.ac →
    exec .collRequestAged s = .next { s with creqs := s.creqs.set s.sel.sub { r with aged := true } }) ∧
  (∀ (s : State) (r o : CollReq) (k : Nat), s.creqs[s.sel.sub]? = some r → s.creqs[k]? = some o → k < s.sel.sub → o.arrived + 2 ^ 20 ≤ s.ac →
    (∃ m ∈ o.members, m ∈ r.members) ∨ (∃ w ∈ mget [] s.scheds o.sched, w ∈ mget [] s.scheds r.sched) →
    exec .collRequestGrant s = .next s) ∧
  (∀ s : State, s.linked = false → exec .collGrantReceive s = .next s) ∧
  ∀ (s : State) (g : Grant), s.linked = true → (s.grants.find? fun x => x.members.contains Config.packageIndex && !x.received) = some g →
    let q := { s.heard with grants := s.grants.map fun x => if x.rank = g.rank then { x with received := true } else x }
    let at_ := (List.range 64).find? fun i => (s.coll i).st == .posted && (s.coll i).key == g.key
    (at_ = none → exec .collGrantReceive s = .next q) ∧
    ∀ i, at_ = some i → exec .collGrantReceive s = .next (wakeColl i (q.onColl i fun c => { c with st := .started, rank := g.rank }))

/-- R301, R396 to R398, R402, R403, R424: a started collective reads its send data piece by piece, receives that of the other members, and writes each
receive element from every member's contribution; a faulted piece stops the part; a bound chunk is read from its block's region, and an
uncorrectable word in it faults the part. An element that the port takes twice makes the receive values undefined, those that are written too. A
collective of lower rank with data ready goes first. -/
def Claims.StartedCollectivesMoveTheirData : Prop :=
  (∀ (s : State) (a n : Nat),
    let i := s.sel.unit
    let c := s.coll i
    s.sel.sub = 0 → c.st = .started → c.fault = none → c.desc.isBound = false → c.desc.isPort = false →
    pieceAt [(c.desc.send, sendBytes c.desc c.n c.member)] c.sent = some (a, n) →
    (c.n = 1 ∨ s.linked = true) → (∀ j < 64, sendHas s j = true → c.rank ≤ (s.coll j).rank) → partCut s c.ctx (a % 2 ^ 57) = false →
    (∀ pa k, engXl s c.ctx .load (a % 2 ^ 57) = .inl pa → paKey s pa = some k → badAt s k n = false →
      exec .collectiveDataTransfer s = .next ((sentOut i (partCarried c.ctx (a % 2 ^ 57) s)).onColl i fun c =>
        { putSend c.sent (s.load k n) c with sent := c.sent + n })) ∧
    ∀ e, engXl s c.ctx .load (a % 2 ^ 57) = .inr e →
      exec .collectiveDataTransfer s = .next (s.onColl i fun c => { c with fault := some (e, BitVec.ofNat 64 a), raised := false })) ∧
  (∀ (s : State) (a n : Nat) (bs : List Byte),
    let i := s.sel.unit
    let c := s.coll i
    s.sel.sub = 1 → c.st = .started → c.fault = none → pieceAt [(c.desc.recv, recvBytes c.desc c.n)] c.recvd = some (a, n) →
    recvPiece s i c n = some bs → (∀ j < 64, recvReady s j = true → c.rank ≤ (s.coll j).rank) → partCut s c.ctx (a % 2 ^ 57) = false →
    (∀ pa, engXl s c.ctx .store (a % 2 ^ 57) = .inl pa →
      exec .collectiveDataTransfer s = .next ((writePa pa bs (partCarried c.ctx (a % 2 ^ 57) s)).onColl i fun c => { c with recvd := c.recvd + n })) ∧
    ∀ e, engXl s c.ctx .store (a % 2 ^ 57) = .inr e →
      exec .collectiveDataTransfer s = .next (s.onColl i fun c => { c with fault := some (e, BitVec.ofNat 64 a), raised := false })) ∧
  (∀ s : State,
    let i := s.sel.unit
    let j := s.sel.word % 2 ^ 14
    let b := s.sel.word / 2 ^ 14
    s.sel.sub = 2 → (s.coll i).st = .started → j ≠ (s.coll i).member → j < (s.coll i).n → s.linked = true →
    let data := (pktBytes s.sel.pkt).zipIdx.foldl (fun m (x, k) => mput m ((b + k) * 2 ^ 14 + j) x) (mget [] s.inbound i)
    exec .collectiveDataTransfer s = .next { s.heard with inbound := mput s.inbound i data }) ∧
  (∀ s : State,
    let i := s.sel.unit
    let k := s.sel.sub
    let c := s.coll i
    let b := s.block k
    let l := (s.grid c.grid).launch
    c.st = .started → c.fault = none → c.chunks.contains k = true → (c.n = 1 ∨ s.linked = true) →
    (∀ j < 64, sendHas s j = true → c.rank ≤ (s.coll j).rank) →
    (badAt s (vaultKey b.core (b.voff + l.cboff)) l.cbchunk = true → exec .collChunkRead s = .next (s.onColl i fun c =>
      { c with fault := some (6, BitVec.ofNat 64 l.cboff), raised := false })) ∧
    (badAt s (vaultKey b.core (b.voff + l.cboff)) l.cbchunk = false → exec .collChunkRead s = .next (freeBond k (((sentOut i s).onColl i fun c =>
      { putSend (b.lin * l.cbchunk) (s.load (vaultKey b.core (b.voff + l.cboff)) l.cbchunk) c with
        sent := c.sent + l.cbchunk, chunks := c.chunks.filter (· != k) }).onBlock k fun b => { b with chunkWait := false })))) ∧
  (∀ (s : State) (h : Word) (at_ : Nat) (ws : List Word),
    let i := h.toNat % 64
    let c := s.coll i
    let t := portPut h at_ ws s
    let twice := ∃ k < ws.length, mget? c.sendBuf (4 * (at_ + k)) ≠ none
    (t.coll i).portTaken = c.portTaken + ws.length ∧ (t.coll i).sent = c.sent + 4 * ws.length ∧ ((t.coll i).dup = true ↔ c.dup = true ∨ twice) ∧
    (∀ k < ws.length, ∀ b < 4, mget? (t.coll i).sendBuf (4 * (at_ + k) + b) = some (BitVec.ofNat 8 ((ws.getD k 0).toNat / 2 ^ (8 * b)))) ∧
    t.mem = (if twice ∧ c.dup = false then scrambleBytes c c.recvd s else s).mem) ∧
  ∀ dt ∈ [1, 2, 3], ∀ vs ws : List Nat, vs.Perm ws → reduceElems dt 0 vs = reduceElems dt 0 ws

/-- R387, R394, R395, R398, R405: an entry whose data has moved completes locally and its waiters look again; a locally complete one is freed at its global
completion, its generation one further; a grant of other packages alone, or of an entry that is freed, returns by its rank; an error notice makes an entry ERROR; and a faulted part is raised as an event in a team of its grid,
resident or saved, or abandoned when there is none. -/
def Claims.CollectivesEnd : Prop :=
  (∀ s : State,
    let c := s.coll s.sel.unit
    c.st = .started → c.fault = none → sendBytes c.desc c.n c.member ≤ c.sent → recvBytes c.desc c.n ≤ c.recvd → c.chunks = [] →
    exec .collLocalComplete s = .next (wakeColl s.sel.unit { s.onColl s.sel.unit fun c => { c with st := .loc } with
      fresh := s.fresh + (if c.dup then recvBytes c.desc c.n else 0) })) ∧
  (∀ s : State, s.linked = true → s.sel.sub ≠ 0 → (∀ i < 64, (s.coll i).moves = true → (s.coll i).rank ≠ s.sel.word) →
    exec .collGlobalComplete s = .next { s.heard with grants := s.grants.filter fun g =>
      !(g.rank == s.sel.word && (g.received || !g.members.contains Config.packageIndex)) }) ∧
  (∀ s : State, (s.coll s.sel.unit).st = .loc → s.sel.sub = 0 → s.linked = true →
    exec .collGlobalComplete s = .next (returnGrant (s.coll s.sel.unit).rank (freeColl s.sel.unit s.heard)) ∧
    (freeColl s.sel.unit s).coll s.sel.unit = { gen := ((s.coll s.sel.unit).gen + 1) % 2 ^ 16 } ∧ (freeColl s.sel.unit s).mem = s.mem) ∧
  (∀ s : State,
    let i := s.sel.unit
    let c := s.coll i
    let e := s.sel.word
    (c.st = .posted ∧ (e = ceMISMATCH ∨ e = ceDESC)) ∨ ((c.st = .posted ∨ c.st = .started) ∧ (e = ceLOST ∨ e = ceCANCELLED ∨ e = ceABANDONED)) →
    e = ceLOST ∨ s.linked = true →
    ∃ t, exec .collErrorNotice s = .next t ∧
      t = errColl i e { (if e = ceLOST then s else s.heard) with notices := s.notices.filter fun m => !(m.1 == i && m.2.1 == c.gen && m.2.2 == e) } ∧
      (t.coll i).st = .error ∧ (t.coll i).err = e ∧ (t.coll i).gen = c.gen) ∧
  (∀ (s : State) (sub : Nat) (addr : DWord),
    let c := s.coll s.sel.unit
    c.fault = some (sub, addr) → c.raised = false →
    let e : TeamEvent := .collfault s.ac (BitVec.ofNat 32 (s.sel.unit + c.gen * 64)) sub addr
    let q := s.onColl s.sel.unit fun c => { c with raised := true }
    (∀ u, c.uid = some u → uidSaved s c.grid u = true → exec .collPartFault s = .next (q.onGrid c.grid fun x => { x with
      saved := x.saved.map (savedEvent u e), restore := x.restore.map (savedEvent u e) })) ∧
    ((∀ u, c.uid = some u → uidSaved s c.grid u = false) →
      (∀ u, collTeam s c = some u → exec .collPartFault s = .next (q.withTeam u (addEvent e))) ∧
      (collTeam s c = none → exec .collPartFault s = .next (errColl s.sel.unit ceABANDONED s)))) ∧
  ∀ (i ac : Nat) (c : Nat) (w : Word) (t : Team), t.park = .cwait c w → w.toNat % 64 = i →
    collWake i ac t = { t with park := .run, stall := 0x0E, readyAt := ac + 1 }

/-- R301, R387, R394 to R398, R402, R403, R405, R424: the posts, grants, data and ends of collectives.
It rests on choices of the model: log entries 20, 29, 45, 53 and 54. -/
def Obligations.CollectivesRunToTheirEnd : Prop :=
  Claims.PostsAreCollected ∧ Claims.GrantsAreGivenAndReceived ∧ Claims.StartedCollectivesMoveTheirData ∧ Claims.CollectivesEnd

/-! ### The placer -/

/-- R158, R172, R224: a team's seat is the lowest free slot of the lowest scheduler of its core with a free slot and enough of the 32,768
registers; a region's place is the lowest offset of the 983,040 bytes at which it overlaps none that is held. -/
def Claims.SeatsAndRegionsAreTheLowest : Prop :=
  (∀ (ts : List Team) (core cost tid : Nat), findSeat ts core cost = some tid →
    let on := fun (sc : Nat) => ts.filter fun t => coreOf t.tid == core && schedOf t.tid == sc
    let used := fun (sc : Nat) => ((on sc).map fun t => t.lanes * vatRegs t).sum
    ∃ sc sl : Nat, sc < 4 ∧ sl < 16 ∧ tid = core * 64 + sc * 16 + sl ∧ used sc + cost ≤ 32768 ∧ (∀ t ∈ on sc, slotOf t.tid ≠ sl) ∧
      (∀ x < sl, ∃ t ∈ on sc, slotOf t.tid = x) ∧ ∀ x < sc, 16 ≤ (on x).length ∨ 32768 < used x + cost) ∧
  ∀ (s : State) (core n o : Nat), 0 < n → vaultGap s core n = some o →
    let fits := fun (o : Nat) => o + n ≤ 983040 ∧
      ∀ p ∈ s.blocks, p.2.core = core → p.2.vbytes ≠ 0 → p.2.voff + p.2.vbytes ≤ o ∨ o + n ≤ p.2.voff
    fits o ∧ ∀ x < o, ¬ fits x

/-- R171, R358, R360: the grids with blocks left to place stand in the placer's order: by priority, by weight while a collective is started, by number. -/
def Claims.GridsStandInOrder : Prop :=
  (∀ s : State, (s.grids.map (·.1)).Nodup → (gridOrder s).Pairwise fun a b =>
    let l := (s.grid a).launch
    let m := (s.grid b).launch
    let w := fun (l : LaunchRec) => if collStarted s then l.weight else 0
    l.prio > m.prio ∨ (l.prio = m.prio ∧ (w l < w m ∨ (w l = w m ∧ a ≤ b)))) ∧
  ∀ (s : State) (g : Nat), g ∈ gridOrder s ↔ ∃ x, (g, x) ∈ s.grids ∧ x.ended = false ∧ (s.ctx x.ctx).preempted = false ∧
    (s.ctx x.ctx).killed = false ∧ (x.nextBlk < gridSize x ∨ x.restore ≠ [])

/-- R171, R172: the placer places the next block, bond or saved bond of the first grid of its order for which that fits; a bond goes to the lowest
cluster that takes all of its members, each member on the lowest core of it that fits. -/
def Claims.FirstFittingGridIsPlaced : Prop :=
  (∀ (s t : State) (r : Bool), nextPlacement s = some (r, t) → ∃ (pre post : List Nat) (g : Nat), gridOrder s = pre ++ g :: post ∧
    (∀ x ∈ pre, if (s.grid x).restore = [] then placeNext x s = none else restoreNext x s = none) ∧
    if (s.grid g).restore = [] then r = false ∧ placeNext g s = some t else r = true ∧ restoreNext g s = some t) ∧
  (∀ s : State, nextPlacement s = none → ∀ x ∈ gridOrder s, if (s.grid x).restore = [] then placeNext x s = none else restoreNext x s = none) ∧
  (∀ (s t : State) (g : Nat), placeNext g s = some t → ∃ (cl : Nat) (q : State), cl < 128 ∧ placeBondIn g cl s = some q ∧
    (∀ x < cl, placeBondIn g x s = none) ∧ (t.grid g).nextBlk = (q.grid g).nextBlk + (q.grid g).launch.bond ∧ (t.grid g).started = true ∧
    t.teams = q.teams ∧ t.blocks = q.blocks) ∧
  ∀ (s t : State) (g cl : Nat), placeBondIn g cl s = some t → ∃ q : Nat → State, q 0 = s ∧ q (s.grid g).launch.bond = t ∧
    ∀ m < (s.grid g).launch.bond,
      let n := (s.grid g).nextBlk
      let place := fun (c : Nat) => placeOn g c (gridBlock (q m) g (n + m) n m) (q m).nextBlock (gridTeams (q m) g (q m).nextBlock)
        { q m with nextBlock := (q m).nextBlock + 1 }
      ∃ c, 16 * cl ≤ c ∧ c < 16 * cl + 16 ∧ place c = some (q (m + 1)) ∧ ∀ x, 16 * cl ≤ x → x < c → place x = none

/-- R170, R171, R175, R224, R268, R270, R307: BLOCK_PLACEMENT and WBAR_BLOCK_RESTORE make what the placer places next, after the bins and tasks that
wait; a placed block goes where its core has room for what it takes, and takes the lowest region that fits and the matrix engine; a restored block
runs, and its region has every byte of the saved copy, as has that of a saved member of a bond that had ended. -/
def Claims.BlocksArePlaced : Prop :=
  (∀ s t : State, nextPlacement s = some (false, t) → readyBins s = [] → readyTasks s = [] → exec .blockPlacement s = .next t) ∧
  (∀ s t : State, nextPlacement s = some (true, t) → readyBins s = [] → readyTasks s = [] → exec .wbarBlockRestore s = .next t) ∧
  (∀ (s t : State) (g core key : Nat) (b : Block) (ts : List Team), placeOn g core b key ts s = some t →
    coreRoom s g core = true ∧ ∃ o, vaultGap s core (s.grid g).launch.vbytes = some o ∧
      t.block key = { b with core := core, voff := o, vheld := true, placedAt := s.ac } ∧ t.mem = s.mem ∧
      ((s.grid g).launch.matuse = true → (t.core core).mat.owner = some key)) ∧
  ∀ (s t : State) (g core : Nat) (b : SavedBlock), restoreOn g core b s = some t →
    let x := t.block b.key
    x.phase = (if b.teams = [] then .ended else .running) ∧ x.core = core ∧ ∀ i < (savedVault b).length, memByte t.mem (vaultKey core (x.voff + i)) = (savedVault b).getD i 0

/-- R94, R173, R283: the state after the steps of a block's start but for its teams: its region has the image, and free values after it; the block runs;
the core of a task gives up what its cache holds unwritten. -/
def Claims.prepared (k : Nat) (s : State) : State :=
  let b := s.block k
  let x := s.grid b.grid
  let img := if b.kind = .grid then readRange s x.vaultPa x.imgBytes else []
  let rest := freeBytes s.fresh (b.vbytes - img.length)
  let q := { s.store (vaultKey b.core b.voff) (img ++ rest) with fresh := s.fresh + rest.length }
  let q := q.setBlock k { b with phase := .running, barw := [], centry := [], cstore := [], rel := loadRel q x }
  presenceAll b.core b.voff b.vbytes (if b.isTask then invalidateCache b.core q else q)

/-- R161, R173, R404: BLOCK_START of a placed block whose start is due starts every block of its bond in one step: each region has its image, and
nothing else of memory changes, before any team of them may issue. Teams that start after a team has issued, or been sampled, in the ac issue
from the next ac on. -/
def Claims.BlocksStart : Prop :=
  (∀ s : State,
    let k := s.sel.unit
    let b := s.block k
    let bond := (if b.kind = .grid then (s.blocks.filter fun p => p.2.kind == .grid && p.2.grid == b.grid && p.2.bond0 == b.bond0).map (·.1) else [k]).filter
      fun j => (s.block j).phase == .starting && !(s.block j).aborted
    let late := (s.allTeams.any fun t => t.lastIssue == s.ac && mget? s.issuer (t.tid / 16) == some t.age) ||
      s.cores.any fun c => c.2.sampled.any fun p => p.2 == s.ac + 1
    b.phase = .starting → b.startAt ≤ s.ac → b.aborted = false →
    exec .blockStart s = .next (bond.foldl (fun r j => (teamsOf r j).foldl (fun r u => r.withTeam u fun r =>
      traceStart 1 (r.onTeam fun t => { t with park := .run, lastIssue := r.ac, readyAt := if late then r.ac + 1 else t.readyAt })) r)
      (bond.foldl (fun r j => Claims.prepared j r) s))) ∧
  ∀ (s : State) (k : Nat),
    let b := s.block k
    let img := if b.kind = .grid then readRange s (s.grid b.grid).vaultPa (s.grid b.grid).imgBytes else []
    let q := Claims.prepared k s
    (∀ i < img.length, memByte q.mem (vaultKey b.core (b.voff + i)) = img.getD i 0) ∧
    (∀ i < b.vbytes, img.length ≤ i →
      memByte q.mem (vaultKey b.core (b.voff + i)) = (Config.freeWord (s.fresh + (i - img.length))).extractLsb' 0 8) ∧
    ∀ a : Nat, a < vaultKey b.core b.voff ∨ vaultKey b.core b.voff + max b.vbytes img.length ≤ a → memByte q.mem a = memByte s.mem a

/-- R160, R162, R307, R314, R391, R394, R402: BLOCK_END of a block of a grid, a bin or a task with nothing outstanding writes back its core's cache,
hands on its chunk and frees what it holds; an ended task's block lets its entry go on; GRID_END of a grid with nothing left frees its entries, bins and pools and reports it. -/
def Claims.BlocksAndGridsEnd : Prop :=
  (∀ s : State,
    let k := s.sel.unit
    let b := s.block k
    let ctx := (s.grid b.grid).ctx
    let q := chunkFire k (writeBackAll b.core s)
    let q := if b.matuse then freeMatrix b.core q else q
    let q := q.onBlock k fun b => { b with phase := .ended, barw := [], cstore := [], centry := [], rel := none }
    let q := match b.kind with
      | .grid => q.onGrid b.grid fun x => { x with doneBlks := x.doneBlks + 1 }
      | .task j => (match jobAt q (b.core / 256) j with
        | some x => Claims.eased (b.core / 256) { x with blockDone := true } q
        | none => q)
      | .bin => q
    (mget? s.blocks k).isSome → b.phase = .running ∨ (b.phase = .starting ∧ b.aborted = true) → blockIdle s k = true →
    exec .blockEnd s = .next (killDone ctx (contextSaved ctx (freeBond k q)))) ∧
  ∀ s : State,
    let g := s.sel.unit
    let x := s.grid g
    (mget? s.grids g).isSome → x.ended = false → gridIdle s g = true → s.replay = none → reportAddr x.pkt ≠ 0 → s.linked = true →
    ∃ t, exec .gridEnd s = .next t ∧ t.grid g = { x with ended := true } ∧ t.mem = s.mem ∧
      (∀ i < 64, (s.coll i).st ≠ .free → (s.coll i).grid = g → t.coll i = { gen := ((s.coll i).gen + 1) % 2 ^ 16 }) ∧
      (∀ c, ∀ p ∈ (t.core c).bins, p.2.grid ≠ g) ∧
      t.out = s.out ++ [{ ep := reportEp x.pkt, addr := reportAddr x.pkt
                          bytes := padTo 64 (leBytes 4 (tagOf x.pkt) ++ [1] ++ leBytes 1 (cmdOf x.pkt) ++ leBytes 2 x.ctx ++ statusBytes x) }]

/-- R174, R175: a bin with a full batch, or with an expired timer and a thread waiting, launches its oldest threads as a team of one lane each,
whose registers are the threads' words, seated on the bin's core; its timer restarts while threads remain in it or in its ring. -/
def Claims.BinsLaunchTheirThreads : Prop :=
  (∀ p ∈ ([(.binLaunch, binFull), (.binTimerExpiry, binExpired)] : List (Instr × (State → Nat → Nat → Bool))), ∀ s t : State,
    let c := s.sel.unit
    let k := s.sel.sub
    let q := refill c k s
    (mget? (s.core c).bins k).isSome → p.2 q c k = true → placeable s (s.grid (binAt s c k).grid).ctx = true → launchBin c k q = some t →
    exec p.1 s = .next t) ∧
  ∀ (s t : State) (c k : Nat), launchBin c k s = some t →
    let b := binAt s c k
    let ths := b.fifo.take (binCap b)
    ∃ (tid : Nat) (u : Team), t.teamAt tid = some u ∧ coreOf tid = c ∧ u.tid = tid ∧ u.blk = s.nextBlock ∧ u.lanes = ths.length ∧
      u.pc = b.be.entry ∧ (t.block u.blk).kind = .bin ∧ (t.block u.blk).core = c ∧
      (binAt t c k).timer = (if b.fifo.drop (binCap b) = [] ∧ ringCount s c b = 0 then none else some (s.ac + b.be.timer)) ∧
      ∀ (l i : Nat), l < ths.length → i < (ths.getD l []).length → i < 512 → mget 0 u.v (l * 512 + i) = (ths.getD l []).getD i 0

/-- R170, R242, R269, R270: a grid whose next block, saved or not, does not fit gives up the savable bond of highest linear index at a wide barrier: its
teams and its region's bytes are kept with the grid; its seats are free, the block is gone from those that reserve anything of the core, its region
and credits among it, and the matrix engine has no owner. A walk in progress gives its result to none of the saved teams. -/
def Claims.BlocksAreSaved : Prop :=
  (∀ (s : State) (p : Nat × Block) (w : Nat),
    let g := s.sel.unit
    let x := s.grid g
    placeable s x.ctx = true → x.ended = false → (x.nextBlk < gridSize x ∨ x.restore ≠ []) →
    (if x.restore = [] then placeNext g s = none else restoreNext g s = none) →
    (sortBy (fun a b => b.2.lin ≤ a.2.lin) ((gridBlocks s g).filter fun p => savable s p.1)).head? = some p →
    (∃ u ∈ s.allTeams, u.blk = p.1) → (∀ u ∈ s.allTeams, u.blk = p.1 → u.park = .wbar w) →
    exec .wbarBlockSave s = .next ((bondAll s p.1).foldl (fun s k => saveBlock w k s) s)) ∧
  ∀ (s : State) (w k : Nat), (s.blocks.map (·.1)).Pairwise (· < ·) →
    let b := s.block k
    let t := saveBlock w k s
    (∀ u ∈ t.allTeams, u.blk ≠ k) ∧ t.mem = s.mem ∧ t.blocks = s.blocks.filter (fun p => p.1 != k) ∧ mget? t.blocks k = none ∧
      (b.matuse = true → b.phase = .running →
        (t.core b.core).mat = {} ∧ (t.core b.core).fifo = Vector.replicate 4 [] ∧ (t.core b.core).fills = Vector.replicate 4 []) ∧
      ∃ v : SavedBlock, (t.grid b.grid).saved = (s.grid b.grid).saved ++ [v] ∧ v.key = k ∧ v.wbar = w ∧
        (∀ u : Team, u ∈ v.teams ↔ u ∈ s.allTeams ∧ u.blk = k) ∧
        (∀ d ∈ t.dies, ∀ x ∈ d.2.walks, ∀ u ∈ v.teams, u.tid ∉ x.tids) ∧
        (b.vbytes < 2 ^ 32 → recordVoff v.teams < 2 ^ 32 → (savedVault v).length = b.vbytes ∧
          ∀ i < b.vbytes, (savedVault v).getD i 0 = memByte s.mem (vaultKey b.core (b.voff + i)))

/-- R94, R158, R160, R162, R170 to R173, R224, R270, R391, R404: the placer seats blocks, starts and ends them, and restores those saved at a
wide barrier.
It rests on choices of the model: log entries 1, 31 and 33. -/
def Obligations.BlocksArePlacedStartedAndEnded : Prop :=
  Claims.SeatsAndRegionsAreTheLowest ∧ Claims.GridsStandInOrder ∧ Claims.FirstFittingGridIsPlaced ∧ Claims.BlocksArePlaced ∧ Claims.BlocksStart ∧ Claims.BlocksAndGridsEnd

/-- R170, R174, R175, R242, R269: bins launch their threads; blocks are saved at a wide barrier.
It rests on choices of the model: log entries 31 and 33. -/
def Obligations.BinsLaunchAndBlocksAreSaved : Prop := Claims.BinsLaunchTheirThreads ∧ Claims.BlocksAreSaved

/-! ### Queued results, tracing, sampling and stops -/

/-- R142: the SFU takes the first entry of a scheduler's queue that has not started, once the entry before it is finished; its results land 18 ac
later and 4 ac more for each non-empty group, and none lands before the entries that were issued before it. -/
def Claims.SfuEntriesStart : Prop :=
  (∀ (s : State) (tag : Nat) (x e : SfuEntry) (rest : List SfuEntry), vget [] (s.core (coreOf s.team.tid)).sfu (schedOf s.team.tid) = x :: rest →
    e ∈ rest → e.tag = tag → landPend tag s = s) ∧
  ∀ (s : State) (pre rest : List SfuEntry) (e : SfuEntry) (u : Team),
    let c := s.sel.unit
    let q := s.sel.sub
    q < 4 → vget [] (s.core c).sfu q = pre ++ e :: rest → (∀ x ∈ pre, ∃ a, x.start = some a ∧ a + 4 * x.groups ≤ s.ac) → e.start = none →
    s.teamAt e.tid = some u → u.present = true → u.tid = e.tid →
    ∃ t, exec .sfuEntryStart s = .next t ∧ vget [] (t.core c).sfu q = pre ++ { e with start := some s.ac } :: rest ∧ t.mem = s.mem ∧
      t.teamAt e.tid = some { u with pend := u.pend.map fun p =>
        if p.tag = e.tag then { p with missing := 0, due := s.ac + 18 + 4 * e.groups } else p }

/-- R374, R416: MARK emits its packet when its team is traced and is otherwise a NOP; RSNAP leaves its sum outstanding and books its snapshot
two ac later; that stores the 64 counters of the core, clears them, and gives their sum. -/
def Claims.MarkAndRsnapComplete : Prop :=
  (∀ (h : Hd) (a : RegF) (c : BitVec 7) (s : State),
    let q := afterReads s [src a]
    Issuing s → Ready s true [src a] →
    ∃ t, exec (.mark h a c) s = .next t ∧
      Ended (if s.team.traced then traceEmit [leBytes 1 0x70 ++ leBytes 1 c.toNat ++ leBytes 4 (rdu s a).toNat] (tracePre q) else q) t h 4 1
        [] [] [] 0 (fieldsFrom a 1)) ∧
  (∀ (h : Hd) (d a : RegF) (s : State),
    let o := (rdu s a).toNat
    let r := regCode s.team d.toNat
    Issuing s → Ready s true [src a, dst d] → isScalar d = true → o % 128 = 0 → o + 256 ≤ s.myBlock.vbytes → pendCount s.team < 16 →
    acqPending s.team = false → atomWaits s (vaultKey s.myCore (s.myBlock.voff + o)) 256 = false →
    ∃ t, exec (.rsnap h d a) s = .next t ∧
      Ended ((afterReads s [src a, dst d]).onCore s.myCore fun c =>
          { c with snaps := c.snaps ++ [(s.ac + 2, s.team.tid, s.myBlock.voff + o, s.nextTag, r)] }) t h 4 1 []
        [{ tag := s.nextTag, pc := s.team.pc, regs := [r], writes := [], missing := 1, due := s.ac + 10, mem := true }] [] 1 (fieldsFrom a 1)) ∧
  ∀ (s : State) (u : Team) (core ac tid at_ tag reg : Nat),
    let t := snapOne core (ac, tid, at_, tag, reg) s
    let n := fun (k : Nat) => (mget 0 (s.core core).route k).toNat
    let sum := BitVec.ofNat 32 ((List.range 64).map n).sum
    Claims.filed s → s.teamAt tid = some u →
    (t.core core).route = [] ∧ (∀ k < 64, Claims.number t (vaultKey core at_ + 4 * k) 4 = n k) ∧
      (∀ i, i < vaultKey core at_ ∨ vaultKey core at_ + 256 ≤ i → memByte t.mem i = memByte s.mem i) ∧
      ∃ v, t.teamAt tid = some v ∧
        v.pend = u.pend.map fun p => if p.tag = tag then { p with writes := [⟨0, reg, sum⟩], missing := 0 } else p

/-- R366 to R369: a scheduler that owes a sample of a grid writes one record into its sample chunk, of the slot after the one sampled last: the
grid's team there, EMPTY, or IDLE. -/
def Claims.SamplesAreTaken : Prop :=
  ∀ s : State,
    let core := s.sel.unit / 4
    let sched := s.sel.unit % 4
    let g := s.sel.sub
    let ch := vget {} (s.core core).sample sched
    let slot := (vget 15 (s.core core).sampleSlot sched + 1) % 16
    let tid := core * 64 + sched * 16 + slot
    let mine := s.allTeams.filter fun t => t.tid / 16 == core * 4 + sched && (s.block t.blk).grid == g
    let opened := if ch.body.isEmpty then s.ac else ch.opened
    let d := (s.ac - opened) % 2 ^ 32
    let r := if mine.isEmpty then sampleBytes 0 0 0 d (core * 64 + sched * 16) 0x1F
      else match mine.find? fun t => t.tid == tid with
        | none => sampleBytes 0 0 0 d (core * 64 + sched * 16) 0x1E
        | some t => sampleBytes t.pc.toNat (if issuedNow s t then 1 else 0) (sampleBlame s t (stallCode s t) % 2 ^ 32) d tid (stallCode s t)
    sampleDue s core sched g = true → ch.closed = false → (ch.body = [] ∨ (ch.grid = g ∧ ch.body.length < 48)) →
    exec .sampleTick s = .next (s.onCore core fun c => { c with
      sampleSlot := vset c.sampleSlot sched slot
      sampled := mput c.sampled (g * 4 + sched) (s.ac + 1)
      sample := vset c.sample sched { grid := g, opened := opened, body := ch.body ++ r } })

/-- R363, R365: a staging chunk that has been open for 65,536 ac closes, after the outcomes that the team has gathered, and enters the outbound queue of
its scheduler; the oldest chunk there is written at the ring's tail, which then advances, waits while the ring is full or lies where no port
reaches, and is discarded when the ring cannot be accessed. -/
def Claims.ChunksReachTheRing : Prop :=
  (∀ s : State,
    let q := Claims.sel s
    let f := traceFlush q
    s.sel.sub = 0 → s.hasTeam s.sel.unit = true → q.team.traced = true → q.team.tr.chunk ≠ [] → q.team.tr.opened + 65536 ≤ s.ac →
    exec .chunkAgeClose s = .next (Claims.ret s (if f.team.tr.chunk ≠ [] ∧ f.team.tr.opened + 65536 ≤ s.ac then traceClose f else f))) ∧
  (∀ s : State,
    let core := s.sel.unit / 64
    let sched := s.sel.unit / 16 % 4
    let ch := vget {} (s.core core).sample sched
    let n := vget 0 (s.core core).sampleSeq sched
    s.sel.sub = 1 → ch.body ≠ [] → ch.closed = false → ch.opened + 65536 ≤ s.ac → (vget [] (s.core core).outq sched).length < 8 →
    exec .chunkAgeClose s = .next (s.onCore core fun c => { c with
      outq := vset c.outq sched (vget [] c.outq sched ++
        [(ch.grid, 0, chunkBytes (core * 64 + sched * 16 + 2 ^ 23) n (ch.opened % 2 ^ 32) ch.body)])
      sample := vset c.sample sched {}
      sampleSeq := vset c.sampleSeq sched ((n + 1) % 256) })) ∧
  ∀ (s : State) (g u : Nat) (bs : List Byte) (rest : List (Nat × Nat × List Byte)),
    let core := s.sel.unit / 4
    let sched := s.sel.unit % 4
    let x := s.grid g
    let ring := fun (o : Nat) => (x.launch.tracebuf.toNat + o) % 2 ^ 57
    let cap := (x.launch.tracebytes - 64) / 64
    let popped := s.onCore core fun c => { c with outq := vset c.outq sched rest }
    vget [] (s.core core).outq sched = (g, u, bs) :: rest →
    (∀ e, devRead s x.ctx (ring 0) 8 = .inr e → exec .chunkRingWrite s = .next (pushSample core sched (discardChunk g u bs popped))) ∧
    ∀ (hb tb : List Byte) (ps : List (Nat × Nat)), devRead s x.ctx (ring 0) 8 = .inl hb → devRead s x.ctx (ring 8) 8 = .inl tb →
      devRange s x.ctx .store (piecesOf (ring 8) 16) = .inl ps →
      let cut := vaCut s x.ctx (ring 0) 24 = true ∨ vaCut s x.ctx (ring (64 + 64 * (leNat tb % cap))) 64 = true
      (cap ≤ (leNat tb + 2 ^ 64 - leNat hb) % 2 ^ 64 ∨ cut → exec .chunkRingWrite s = .next s) ∧
      ∀ (q r : State), (leNat tb + 2 ^ 64 - leNat hb) % 2 ^ 64 < cap → ¬ cut → devWrite x.ctx (ring (64 + 64 * (leNat tb % cap))) bs popped = .inl q →
        devWrite x.ctx (ring 8) (leBytes 8 (leNat tb + 1)) q = .inl r → exec .chunkRingWrite s = .next (pushSample core sched r)

/-- R375, R377: the precise stop comes when the named team's count is reached at a boundary: the team takes STOP when it has a handler and is
else held; once it has entered its trap or is held, the stop is reported, with the address at which it goes on. -/
def Claims.PreciseStopsAreTaken : Prop :=
  ∀ (s : State) (q : StopReq) (t : Team), s.stop = some q → stopTeam s = some t →
    (q.taken = false → t.rwc.toNat = q.count → t.park = .run → t.trapReq = none →
      exec .preciseStop s = .next (({ s with stop := some { q with taken := true, named := some t.tid } } : State).withTeam t.tid fun s =>
        if t.handler.isSome then addEvent .stop s else s.onTeam fun t => { t with park := .held })) ∧
    (q.taken = true → q.reported = false → reportAddr q.pkt ≠ 0 → s.linked = true →
      let inTrap := t.hmode = true ∧ t.trap.tcause.toNat % 64 = 0x15 ∧ TeamEvent.stop ∉ t.events
      let reports := fun (pc : VAddr) => ∃ r, exec .preciseStop s = .next r ∧ r.stop = some { q with reported := true } ∧ r.mem = s.mem ∧
        r.out = s.out ++ [{ ep := reportEp q.pkt, addr := reportAddr q.pkt
                            bytes := padTo 64 (leBytes 4 (tagOf q.pkt) ++ [6] ++ leBytes 1 (cmdOf q.pkt) ++ leBytes 2 q.ctx ++
                              (leBytes 8 q.count ++ leBytes 8 pc.toNat)) }]
      (inTrap → reports t.trap.tnext) ∧ (¬ inTrap → t.park = .held → reports t.pc))

/-- R142, R363, R365 to R369, R374, R375, R377, R416: MARK and RSNAP; SFU entries start; samples, chunks and precise stops.
It rests on choices of the model: log entries 38 and 39. -/
def Obligations.ResultsSamplesAndStopsAdvance : Prop :=
  Claims.SfuEntriesStart ∧ Claims.MarkAndRsnapComplete ∧ Claims.SamplesAreTaken ∧ Claims.ChunksReachTheRing ∧ Claims.PreciseStopsAreTaken

/-! ### Commands of the host -/

/-- The queue and the packet of the command served next, which is of the given CMD and SUB and names a context that exists; where memory of it lies in
another package, a port reaches that (R1). -/
def Claims.serves (s : State) (q : Nat) (p : Packet) (cmd sub : Nat) : Prop :=
  nextCommand s = some (q, p) ∧ cmdOf p = cmd ∧ subOf p = sub ∧ ctxOf p ≠ 0 ∧ (s.ctx (ctxOf p)).valid = true ∧
    (commandFar s p = true → s.linked = true)

/-- The state in which a command runs: what it moves to and from another package has kept a port busy (R387). -/
def Claims.running (s : State) (q : Nat) (p : Packet) : State := takeCommand q p (if commandFar s p then s.heard.spoken else s)

/-- A report as it leaves the package by a port (R1, R391). -/
def Claims.reportOf (s : State) (p : Packet) (status ctx : Nat) (gst : List Byte) : List OutPacket :=
  if reportAddr p = 0 ∨ s.linked = false then []
  else [{ ep := reportEp p, addr := reportAddr p
          bytes := padTo 64 (leBytes 4 (tagOf p) ++ leBytes 1 status ++ leBytes 1 (cmdOf p) ++ leBytes 2 ctx ++ gst) }]

/-- R1, R169, R375, R378, R388: a packet pushed by a port into a host-command queue enters it whole, as four entries, or is refused whole; an open
capture takes it with its moment and queue, and a LAUNCH brings the size of the VAULT section that it names. While the package replays, it takes no packet
but CONTINUE. -/
def Claims.PacketsArePushedWhole : Prop :=
  ∀ s : State,
    let q := s.sel.unit
    let x := s.queue q
    let p := s.sel.pkt
    s.power = .on → x.kind = 3 →
    (s.linked = false → exec .hostCommandPush s = .next s) ∧
    (s.replay.isSome = true → isContinue p = false → exec .hostCommandPush s = .next s) ∧
    (s.linked = true → (s.replay = none ∨ isContinue p = true) →
      (x.cap < x.entries.length + 4 → exec .hostCommandPush s = .next (s.onQueue q fun x => { x with gap := true })) ∧
      (x.entries.length + 4 ≤ x.cap → ∃ t, exec .hostCommandPush s = .next t ∧ t.mem = s.mem ∧ t.teams = s.teams ∧
        ((t.queue q).entries.map (·.data)) = x.entries.map (·.data) ++ (List.range 4).map (fun i => p.extractLsb' (128 * i) 128) ∧
        (∀ r, r ≠ q → t.queue r = s.queue r) ∧ (t.queue q).sizes = x.sizes ++ [if s.sel.sub = 1 then some s.sel.word else none] ∧
        ∀ k c, mget? s.captures k = some c → mget? t.captures k = some { c with
          commands := c.commands ++ if c.isOpen then
            [{ moment := { ac := s.ac - c.began, turn := if s.ac = c.began then s.turn - c.turn else s.turn }, queue := q, pkt := p
               size := if s.sel.sub = 1 then some s.sel.word else none }]
          else [] }))

/-- R388, R390: the command served next is the head of a host-command queue with no command running, of the lowest such queue from the round's
place on, else the lowest of all; it leaves its queue, which is busy until the command completes with its report. -/
def Claims.CommandsAreServedInRounds : Prop :=
  (∀ (s : State) (q : Nat) (p : Packet), nextCommand s = some (q, p) → s.replay = none → (s.queues.map (·.1)).Pairwise (· < ·) →
    queueHead (s.queue q) = some p ∧
    ((s.cmdNext ≤ q ∧ ∀ r ∈ s.queues, (queueHead r.2).isSome → s.cmdNext ≤ r.1 → q ≤ r.1) ∨
      (q < s.cmdNext ∧ ∀ r ∈ s.queues, (queueHead r.2).isSome → q ≤ r.1 ∧ r.1 < s.cmdNext))) ∧
  ∀ (s : State) (q : Nat) (p : Packet) (status : Nat), q < 4096 →
    ((takeCommand q p s).queue q).busy = some p ∧ ((takeCommand q p s).queue q).entries = (s.queue q).entries.drop 4 ∧
    ((takeCommand q p s).queue q).sizes = (s.queue q).sizes.drop 1 ∧ (takeCommand q p s).imgSize = (s.queue q).sizes.headD none ∧
    ((endCommand q p status s).queue q).busy = none ∧ (endCommand q p status s).out = s.out ++ Claims.reportOf s p status (ctxOf p) [] ∧
    (endCommand q p status s).mem = s.mem

/-- R164 to R169, R390, R391, R402: a sound LAUNCH makes a grid of the record it names and reports ACCEPTED; one out of range reports REFUSED and
makes none; one whose record cannot be read reports FAULT. -/
def Claims.LaunchesAreChecked : Prop :=
  ∀ (s : State) (q : Nat) (p : Packet), Claims.serves s q p 1 0 → q < 4096 → body p 0 8 % 64 = 0 →
    let c := Claims.running s q p
    (∀ f, devRead c (ctxOf p) (body p 0 8) 256 = .inr f → exec .launch s = .next (failCommand q p f c)) ∧
    ∀ b, devRead c (ctxOf p) (body p 0 8) 256 = .inl b →
      let l := launchRec b
      let img := if l.vimgsec = 0 then none else (s.queue q).sizes.headD none
      (launchOk b l img = false → exec .launch s = .next (endCommand q p stREFUSED c)) ∧
      (launchOk b l img = true → (l.cbcoll = 0 ∨ ∃ d, devRead c (ctxOf p) l.cbcoll.toNat 64 = .inl d ∧ boundOk c (ctxOf p) l d = true) →
        ∃ t, exec .launch s = .next t ∧
          t.grid s.nextGrid = { ctx := ctxOf p, launch := l, relPa := body p 8 8, vaultPa := body p 16 8, imgBytes := img.getD 0, pkt := p, queue := q } ∧
          (∀ g, g ≠ s.nextGrid → t.grid g = s.grid g) ∧ t.nextGrid = s.nextGrid + 1 ∧ t.launched = true ∧ t.mem = s.mem ∧
          (t.queue q).busy = (if waitFlag p then some p else none) ∧ t.out = s.out ++ Claims.reportOf s p stACCEPTED (ctxOf p) [] ∧
          ∀ k c, mget? s.captures k = some c → mget? t.captures k =
            some { c with launches := c.launches ++ if c.isOpen then [(s.nextGrid, s.fabricTime)] else [] })

/-- R383, R390, R391: a COPY to or from an endpoint that is no host's reports REFUSED; another moves its bytes transfer by transfer and reports DONE, or FAULT with what it has moved; one of at most 128 bytes reads its
source and writes its destination, host memory at its endpoint, which a port reaches (R1), or a virtual address of its context. -/
def Claims.CopiesMoveTheirBytes : Prop :=
  ∀ x ∈ ([(.copyHostToDevice, 0), (.copyDeviceToHost, 1), (.copyDeviceToDevice, 2)] : List (Instr × Nat)),
    ∀ (s : State) (q : Nat) (p : Packet), Claims.serves s q p 2 x.2 → (x.2 < 2 → s.linked = true) →
    let host := 16384 ≤ body p 24 2 ∧ body p 24 2 < 32768
    let c := if x.2 = 0 then (Claims.running s q p).heard else if x.2 = 1 then (Claims.running s q p).spoken else Claims.running s q p
    (x.2 < 2 → ¬ host → exec x.1 s = .next (endCommand q p stREFUSED (Claims.running s q p))) ∧ ((x.2 < 2 → host) →
    let src := body p 0 8
    let dst := body p 8 8
    let n := body p 16 8
    let ep := body p 24 2
    let ctx := ctxOf p
    (∀ t, copyLoop x.2 ctx ep (n / 128 + 1) src dst n c = (t, none) → exec x.1 s = .next (endCommand q p stDONE t)) ∧
    (∀ t f, copyLoop x.2 ctx ep (n / 128 + 1) src dst n c = (t, some f) → exec x.1 s = .next (failCommand q p f t)) ∧
    (0 < n → n ≤ 128 →
      (x.2 = 0 → ∀ t, devWrite ctx dst (memBytes c.mem (hostKey ep src) n) c = .inl t → exec x.1 s = .next (endCommand q p stDONE t)) ∧
      (x.2 = 1 → ∀ bs, devRead c ctx src n = .inl bs → exec x.1 s = .next (endCommand q p stDONE (c.store (hostKey ep dst) bs))) ∧
      (x.2 = 2 → ∀ bs t, devRead c ctx src n = .inl bs → devWrite ctx dst bs c = .inl t → exec x.1 s = .next (endCommand q p stDONE t))))

/-- R164 to R169, R383, R388 to R391: packets are pushed whole and served in rounds; LAUNCH and COPY.
It rests on choices of the model: log entries 28, 42 and 58. -/
def Obligations.CommandsLaunchAndCopy : Prop :=
  Claims.PacketsArePushedWhole ∧ Claims.CommandsAreServedInRounds ∧ Claims.LaunchesAreChecked ∧ Claims.CopiesMoveTheirBytes

/-- R230, R234, R243, R245, R310, R355, R356, R383, R387, R390, R393: each MAP has its effect and reports DONE; one out of range reports REFUSED.
It rests on choices of the model: log entries 29 and 42. -/
def Obligations.MapCommandsTakeEffect : Prop :=
  (∀ (s : State) (q k : Nat) (p : Packet), nextCommand s = some (q, p) → cmdOf p = 3 → subOf p = 0 →
    (if ctxOf p = 0 then freshCtx s else some (ctxOf p)) = some k →
    let c := takeCommand q p s
    let old := s.ctx k
    let legal := body p 0 8 % 4096 = 0 ∧ body p 0 8 < 2 ^ 56 ∧ 16384 ≤ body p 16 2 ∧ body p 16 2 < 32768
    let new : Ctx := { valid := true, root := body p 0 8, reqAddr := BitVec.ofNat 64 (body p 8 8), reqEp := body p 16 2
                       preempted := old.preempted, savePkts := old.savePkts, killed := old.killed, killPkts := old.killPkts }
    (legal → exec .mapContext s = .next (report p stDONE k [] (queueDone q (c.setCtx k new)))) ∧
    (¬ legal → exec .mapContext s = .next (endCommand q p stREFUSED c)) ∧ (ctxOf p = 0 → 1 ≤ k ∧ k ≤ 65535 ∧ old.valid = false)) ∧
  (∀ (s : State) (q : Nat) (p : Packet), Claims.serves s q p 3 1 →
    let c := takeCommand q p s
    let n := body p 8 4
    (body p 12 1 = 0 → body p 0 8 % 4096 = 0 → exec .mapPool s = .next (endCommand q p stDONE (c.onCtx (ctxOf p) fun x =>
      { x with pool4 := x.pool4 ++ (List.range n).map fun i => body p 0 8 + i * 4096 }))) ∧
    (body p 12 1 = 1 → body p 0 8 % 65536 = 0 → exec .mapPool s = .next (endCommand q p stDONE (c.onCtx (ctxOf p) fun x =>
      { x with pool64 := x.pool64 ++ (List.range n).map fun i => body p 0 8 + i * 65536 }))) ∧
    (1 < body p 12 1 ∨ body p 0 8 % (if body p 12 1 = 0 then 4096 else 65536) ≠ 0 → exec .mapPool s = .next (endCommand q p stREFUSED c))) ∧
  (∀ (s : State) (q : Nat) (p : Packet), nextCommand s = some (q, p) → cmdOf p = 3 → ctxOf p ≠ 0 →
    let c := takeCommand q p s
    (subOf p = 2 →
      (body p 0 2 < 4096 → body p 2 1 ≤ 3 → 4 ≤ body p 3 1 → body p 3 1 ≤ 16 → (c.queue (body p 0 2)).entries = [] →
        exec .mapQueue s = .next (endCommand q p stDONE (c.onQueue (body p 0 2) fun x =>
          { x with kind := body p 2 1, cap := 2 ^ body p 3 1, owner := body p 4 2 }))) ∧
      (4096 ≤ body p 0 2 ∨ 3 < body p 2 1 ∨ body p 3 1 < 4 ∨ 16 < body p 3 1 ∨ (c.queue (body p 0 2)).entries ≠ [] →
        exec .mapQueue s = .next (endCommand q p stREFUSED c))) ∧
    (subOf p = 3 →
      (s.launched = false → body p 0 8 ≤ 80000000000 → body p 0 8 % 4096 = 0 →
        exec .mapSplit s = .next (endCommand q p stDONE { c with split := body p 0 8 })) ∧
      (s.launched = true ∨ 80000000000 < body p 0 8 ∨ body p 0 8 % 4096 ≠ 0 → exec .mapSplit s = .next (endCommand q p stREFUSED c))) ∧
    (subOf p = 6 → body p 4 1 ≤ 1 →
      (∀ r : PageReq, (s.preq.find? fun r => r.ctx == ctxOf p && r.seq == body p 0 4) = some r → exec .mapAnswer s =
        .next (endCommand q p stDONE (answerTeam r (body p 4 1 == 0) { c with preq := s.preq.filter (· != r) }))) ∧
      ((∀ r ∈ s.preq, r.ctx = ctxOf p → r.seq ≠ body p 0 4) →
        exec .mapAnswer s = .next (endCommand q p stDONE { c with prlate := (s.prlate + 1) % 2 ^ 32 }))) ∧
    (subOf p = 7 → body p 0 2 < 16384 → exec .mapAdmit s = .next (endCommand q p stDONE { invalidatePkg (body p 0 2) c with
      lost := s.lost.filter (· != body p 0 2)
      ports := mmap (fun x => if x.lost ∧ x.neighbour = body p 0 2 then
        { x with lost := false, up := true, failed := 0, lastRx := s.ac, lastTx := s.ac } else x) s.ports }))) ∧
  (∀ (s : State) (q : Nat) (p : Packet), Claims.serves s q p 3 4 →
    let c := Claims.running s q p
    let n := body p 8 4
    (65536 < n → exec .mapGroups s = .next (endCommand q p stREFUSED c)) ∧
    (n ≤ 65536 → (∀ f, devPhys c (body p 0 8) (8 * n) = .inr f → exec .mapGroups s = .next (failCommand q p f c)) ∧
      ∀ bs, devPhys c (body p 0 8) (8 * n) = .inl bs → s.sel.pkt = 0 →
        exec .mapGroups s = .next (endCommand q p stDONE (c.onCtx (ctxOf p) fun x => { x with
        groups :=
          ((List.range n).map fun i => (i, BitVec.ofNat 64 (fieldAt bs (8 * i) 8))).filter fun e => e.2 != 0 })))) ∧
  ∀ (s : State) (q : Nat) (p : Packet), Claims.serves s q p 3 5 →
    exec .mapInval s = .next (endCommand q p stDONE (invalidate (ctxOf p) (fun base size =>
      body p 8 8 == 0 || decide (base < body p 0 8 + body p 8 8 ∧ body p 0 8 < base + size)) (takeCommand q p s)))

/-- The commands that wait in the host-command queues: of each queue in turn its packets, four entries each, with their sizes. -/
def Claims.waiting (s : State) : List Command :=
  (s.queues.filter fun x => x.2.kind == 3).flatMap fun x => (List.range (x.2.entries.length / 4)).map fun i =>
    { queue := x.1, size := x.2.sizes.getD i none
      pkt := pktOf ((List.range 4).flatMap fun j => leBytes 16 ((x.2.entries.map (·.data)).getD (4 * i + j) 0).toNat) }

/-- The captures of a state with those that are open closed. -/
def Claims.closed (s : State) : Sparse Capture := mmap (fun c => if c.isOpen then { c with isOpen := false } else c) s.captures

/-- R375, R377, R378, R390: a SNAPSHOT starts a capture with the bytes of the declared regions and the commands that wait, under the address of its list, or
stops it; a REPLAY of the capture that it names writes them back, arms the precise stop and runs the captured commands up to the named launch: of each
queue one at a time, when its moment has come, in rounds over the queues from the place that the capture had; and the inputs from outside, which an
open capture logs with their moments, come again at these. -/
def Claims.CapturesAreTakenAndReplayed : Prop :=
  (∀ (s : State) (q : Nat) (p : Packet), Claims.serves s q p 4 0 → q < 4096 →
    let c := Claims.running s q p
    let n := body p 8 4
    (∀ f, devPhys c (body p 0 8) (16 * n) = .inr f → exec .snapshotStart s = .next (failCommand q p f c)) ∧
    ∀ t, devPhys c (body p 0 8) (16 * n) = .inl t →
      let rs := (List.range n).map fun i => (fieldAt t (16 * i) 8, fieldAt t (16 * i + 8) 8)
      (∀ f, readRegions c (ctxOf p) rs = .inr f → exec .snapshotStart s = .next (failCommand q p f c)) ∧
      ∀ bs, readRegions c (ctxOf p) rs = .inl bs → s.sel.pkt = 0 → exec .snapshotStart s = .next (endCommand q p stDONE { c with
        captures := mput (Claims.closed s) (body p 0 8)
          { isOpen := true, ctx := ctxOf p, began := s.ac, turn := s.turn, next := q + 1, regions := rs, outputs := rs, snapshot := bs
            commands := Claims.waiting c } })) ∧
  (∀ (s : State) (q : Nat) (p : Packet), nextCommand s = some (q, p) → cmdOf p = 4 → subOf p = 1 → ctxOf p ≠ 0 →
    exec .snapshotStop s = .next (endCommand q p stDONE { takeCommand q p s with captures := Claims.closed s })) ∧
  (∀ (s : State) (i : Instr) (sel : Sel), isInput s i sel = true → logInput i sel s = { s with captures := mmap (fun c =>
    if c.isOpen then { c with inputs := c.inputs ++
      [({ ac := s.ac - c.began, turn := if s.ac = c.began then s.turn - c.turn else s.turn }, .event i sel)] } else c) s.captures }) ∧
  (∀ (s : State) (r : Replay) (m : Moment) (i : Instr) (sel : Sel) (rest : List (Moment × Choice)),
    s.agenda = [] → s.replay = some r → r.inputs = (m, .event i sel) :: rest →
    (m.ac < s.ac - r.began ∨ (m.ac = s.ac - r.began ∧ m.turn ≤ if s.ac = r.began then s.turn - r.turn else s.turn)) →
    step s = runEvent i sel { s with replay := some { r with inputs := rest } }) ∧
  (∀ (n : Nat) (cs l : List Command), upToLaunch n cs = some l → ∃ (pre rest : List Command) (x : Command), cs = pre ++ x :: rest ∧
    cmdOf x.pkt = 1 ∧ (pre.filter fun c => cmdOf c.pkt == 1).length = n ∧ l = pre ++ [{ x with named := true }]) ∧
  (∀ (n : Nat) (cs : List Command), upToLaunch n cs = none ↔ (cs.filter fun c => cmdOf c.pkt == 1).length ≤ n) ∧
  (∀ (s t : State) (q : Nat) (p : Packet) (cmds : List Command), Claims.serves s q p 5 0 → q < 4096 → s.replay = none →
    body p 20 1 < 4 →
    let c := mget {} s.captures (body p 0 8)
    upToLaunch (body p 8 4) c.commands = some cmds →
    restoreRegions c.ctx (c.regions.zip c.snapshot) (Claims.running s q p) = .inl t →
    exec .replay s = .next { t with
      captures := Claims.closed t
      replay := some { pkt := p, queue := q, began := t.ac, turn := t.turn, next := c.next, cmds := cmds, inputs := c.inputs }
      stop := some { ctx := ctxOf p, launch := body p 8 4, lin := body p 12 8, role := body p 20 1, count := body p 24 8, pkt := p } }) ∧
  ∀ (s : State) (r : Replay), s.replay = some r →
    let next := 4096 + r.next
    let turn := if s.ac = r.began then s.turn - r.turn else s.turn
    (∀ n p, (n, p) ∈ replayReady s r ↔ ∃ (k : Nat) (c : Command), n = 4096 + k ∧ (r.cmds.find? fun c => c.queue == k) = some c ∧ c.pkt = p ∧
      mget? r.busy k = none ∧ (c.moment.ac < s.ac - r.began ∨ (c.moment.ac = s.ac - r.began ∧ c.moment.turn ≤ turn))) ∧
    (replayReady s r ≠ [] → ∃ x, nextCommand s = some x ∧ x ∈ replayReady s r ∧
      ((next ≤ x.1 ∧ ∀ y ∈ replayReady s r, next ≤ y.1 → x.1 ≤ y.1) ∨
        (x.1 < next ∧ ∀ y ∈ replayReady s r, x.1 ≤ y.1 ∧ y.1 < next))) ∧
    ∀ (k : Nat) (p : Packet),
      let first := r.cmds.find? fun c => c.queue == k
      (takeCommand (4096 + k) p s).imgSize = first.bind (·.size) ∧
      (takeCommand (4096 + k) p s).replay = some { r with
        busy := mput r.busy k p, cmds := r.cmds.eraseP fun c => c.queue == k, next := k + 1
        named := if (first.map (·.named)) = some true then some k else r.named }

/-- R358, R360, R375, R389, R390, R405, R433: PREEMPT keeps its context's blocks from being placed and owes SAVED, RESUME ends that, KILL aborts
every block of its context and discards its saved blocks, requests, bins, tasks and entries, CONTINUE lets the held teams go on; ATTEST writes its report to the
host; a packet that names no command reports ILLCMD. -/
def Claims.SignalsTakeEffect : Prop :=
  (∀ (s : State) (q : Nat) (p : Packet), Claims.serves s q p 6 0 →
    exec .signalPreempt s = .next (contextSaved (ctxOf p) ((endCommand q p stDONE (takeCommand q p s)).onCtx (ctxOf p) fun x =>
      { x with preempted := true, savePkts := x.savePkts ++ [p] }))) ∧
  (∀ (s : State) (q : Nat) (p : Packet), Claims.serves s q p 6 1 →
    exec .signalResume s = .next (endCommand q p stDONE ((contextSaved (ctxOf p) (takeCommand q p s)).onCtx (ctxOf p) fun x =>
      { x with preempted := false }))) ∧
  (∀ (s : State) (q : Nat) (p : Packet), Claims.serves s q p 6 2 → (s.blocks.map (·.1)).Pairwise (· < ·) → (s.grids.map (·.1)).Pairwise (· < ·) →
    let k := ctxOf p
    let mine := fun (g : Nat) => ∃ x, (g, x) ∈ s.grids ∧ x.ctx = k ∧ x.ended = false
    ∃ t, exec .signalKill s = .next t ∧
      (∀ b ∈ t.blocks, mine b.2.grid → b.2.phase = .ended ∨ b.2.aborted = true) ∧
      (∀ g, mine g → (t.grid g).saved = [] ∧ (t.grid g).restore = [] ∧ (t.grid g).stFlags.testBit 2 = true) ∧
      (∀ c, ∀ x ∈ (t.core c).bins, ¬ mine x.2.grid) ∧
      (∀ r ∈ t.preq, r.ctx ≠ k) ∧ (∀ i < 64, (t.coll i).st ≠ .free → (t.coll i).ctx ≠ k) ∧
      (∀ x ∈ t.dies, ∀ j ∈ x.2.jobs, j.ctx ≠ k) ∧ (∀ x ∈ t.queues, x.2.kind = 2 → ∀ e ∈ x.2.entries, entryCtx e ≠ k) ∧
      ((∃ b ∈ t.blocks, b.2.phase ≠ .ended ∧ (t.grid b.2.grid).ctx = k) →
        (t.ctx k).killed = true ∧ (t.ctx k).killPkts = (s.ctx k).killPkts ++ [(p, q)])) ∧
  (∀ (s : State) (q : Nat) (p : Packet), nextCommand s = some (q, p) → cmdOf p = 6 → subOf p = 3 → ctxOf p ≠ 0 →
    let wake := fun (t : Team) => if t.park = .held ∨ (t.park = .run ∧ heldByStop s t.tid = true) then
      { t with park := .run, stall := 1, readyAt := max t.readyAt (s.ac + 1) } else t
    exec .signalContinue s = .next (endCommand q p stDONE { takeCommand q p s with
      stop := none, team := wake s.team, teams := mmap wake s.teams })) ∧
  (∀ (s : State) (q : Nat) (p : Packet), nextCommand s = some (q, p) → cmdOf p = 7 → ctxOf p ≠ 0 → s.linked = true →
    let r := attestation (((pktBytes p).drop 20).take 32) s
    exec .attest s = .next (report p stDONE (ctxOf p) (leBytes 4 r.length)
      (queueDone q { (takeCommand q p s).store (hostKey (reportEp p) (body p 32 8)) r with fresh := s.fresh + 12 }))) ∧
  ∀ (s : State) (q : Nat) (p : Packet), nextCommand s = some (q, p) →
    (cmdOf p = 0 ∨ 7 < cmdOf p → exec .illcmd s = .next (endCommand q p stILLCMD (takeCommand q p s))) ∧
    (1 ≤ cmdOf p → cmdOf p ≤ 6 → lastSub (cmdOf p) < subOf p → exec .illcmd s = .next (endCommand q p stREFUSED (takeCommand q p s)))

/-- R358, R360, R375, R377, R378, R389, R390, R405, R433: captures and replays, signals, ATTEST and ILLCMD.
It rests on choices of the model: log entries 8, 42 and 43. -/
def Obligations.CapturesSignalsAndAttestation : Prop := Claims.CapturesAreTakenAndReplayed ∧ Claims.SignalsTakeEffect

/-! ### The package -/

/-- R428: the start log with one more record; it holds the last 65,536. -/
def Claims.logged (s : State) (r : StartRec) : List (List Byte) := (s.startLog ++ [startBytes r]).drop (s.startLog.length + 1 - 65536)

/-- R427 to R429, R433: a start begins with step 1, and the first one generates the identity key; each attempt of a step has one record, written
when it begins and given its outcome when it ends; a passed step leads to the next, and the last one turns the package on and sends the ready
report; a failed attempt ends the start, and the next start takes the step's next alternate; a step with no alternate left is skipped when it may
be, and else stops the package. -/
def Claims.StartsRunTheirSteps : Prop :=
  (∀ s : State, s.power = .off ∨ (s.power = .starting ∧ s.startStep = 0) →
    exec .packageStart s = .next { s with
      power := .starting, startCount := s.startCount + 1, startStep := 1, ports := [], images := [], spares := {}
      idKey := some (s.idKey.getD (Config.identitySecret % (n384 - 1) + 1)) }) ∧
  (∀ s : State, s.power = .starting → s.startStep ≠ 0 → attempt s = none →
    let step := s.startStep
    let last := latestRec s step
    (∀ a, nextAlt s step = some a → exec .packageStart s = .next { s with
      startLog := Claims.logged s { step := step, outcome := 0, alt := a, start := s.startCount % 2 ^ 32, detail := 0 } }) ∧
    (nextAlt s step = none → 0x600 ≤ step → exec .packageStart s = .next { s with
      startLog := Claims.logged s { step := step, outcome := 3, alt := (last.map (·.alt)).getD 0, start := s.startCount % 2 ^ 32, detail := 0 }
      startStep := if step = 0x623 then 7 else step + 1 }) ∧
    (nextAlt s step = none → step < 0x600 → exec .packageStart s = .next { s with
      power := .failed, failRec := last, lastFail := 0, ports := [], beacons := [] })) ∧
  (∀ (s : State) (r : StartRec), s.power = .starting → s.startStep ≠ 0 → attempt s = some r →
    let step := s.startStep
    let ok := if step = 1 then imageRuns s r.alt
      else s.sel.word == 1 && (step != 7 || !s.beacons.isEmpty) && (stepSpares step s).isSome
    let q : State := { s with
      startLog := s.startLog.dropLast ++ [startBytes { r with outcome := if ok then 1 else 2, detail := BitVec.ofNat 32 s.sel.unit }]
      fusesRead := if step = 2 then s.sel.word == 1 else s.fusesRead }
    (step = 1 → exec .packageStart s = .next (if ok then { q with
        images := s.images ++ [((imageHeader s r.alt).drop 12).take 48]
        minSvn := max s.minSvn (fieldAt (imageHeader s r.alt) 4 4), startStep := 2 } else { q with startStep := 0 })) ∧
    (2 ≤ step → ok = false → exec .packageStart s = .next { q with startStep := 0 }) ∧
    (ok = true →
      (2 ≤ step → step ≤ 5 → exec .packageStart s = .next { q with
        spares := (stepSpares step s).getD s.spares, startStep := if step = 5 then 0x600 else step + 1 }) ∧
      (0x600 ≤ step → exec .packageStart s = .next { q.onPort (step - 0x600) fun x =>
        { x with up := true, lastRx := s.ac, lastTx := s.ac, neighbour := s.sel.sub } with
          startStep := if step = 0x623 then 7 else step + 1 }) ∧
      (step = 7 → ∀ b rest, s.beacons = b :: rest → ∃ t, exec .packageStart s = .next t ∧
        t = { q.heard with beacons := rest, ftime := t.ftime, startStep := 8 } ∧ t.fabricTime = (b + Config.beaconDelay) % 2 ^ 63) ∧
      (step = 8 → exec .packageStart s = .next { sendOut Config.readyEndpoint 0
        ((List.range 16).flatMap fun i => leBytes 4 (Config.freeWord (s.fresh + i)).toNat) { q with power := .on, startStep := 9 } with
          fresh := s.fresh + 16 }))) ∧
  ∀ (s : State) (step : Nat),
    (latestRec s step = none → nextAlt s step = some 0) ∧
    ∀ r, latestRec s step = some r → (r.outcome = 1 → nextAlt s step = some r.alt) ∧ (r.outcome = 3 → nextAlt s step = none) ∧
      (r.outcome = 2 ∨ r.outcome = 0 → nextAlt s step = if alternates step ≤ r.alt then none else some (r.alt + 1))

/-- R428: the log's reader finds the records whose CRC matches: a written record reads back as it was written, and what a torn write leaves does
not read as one. -/
def Claims.RecordsAreCheckedByTheirCrc : Prop :=
  (∀ r : StartRec, r.step < 2 ^ 16 → r.outcome < 256 → r.alt < 256 → r.start < 2 ^ 32 → readStart (startBytes r) = some r) ∧
  (∀ r : StartRec, (startBytes r).length = 16 ∧ (startBytes r).drop 12 = leBytes 4 (crc32c ((startBytes r).take 12)).toNat) ∧
  ∀ p : Packet, (tornBytes p).length = 16 ∧ readStart (tornBytes p) = none

/-- R431, R432: an image runs exactly when its magic is FDW1, its SVN is not below the fused minimum, the digest of its header is that of the body,
and both signatures of its first 60 bytes verify. -/
def Claims.ImagesAreVerified : Prop :=
  ∀ (s : State) (slot : Nat),
    let h := s.load (slotKey slot 0) 1936
    let part := fun (off n : Nat) => (h.drop off).take n
    imageRuns s slot = true ↔
      leNat (part 0 4) = 0x57464451 ∧ s.minSvn ≤ leNat (part 4 4) ∧ part 12 48 = sha384 (s.load (slotKey slot 1936) (leNat (part 8 4))) ∧
      ecdsaVerifies Config.vendorKey (part 0 60) (beNat (part 60 52)) (beNat (part 112 52)) = true ∧
      lmsVerifies ((List.range 16).map Config.lmsIdentifier) ((List.range 32).map Config.lmsRootByte) (part 0 60) (part 164 1772) = true

/-- R424, R425, R428 to R430: a failed package sends its failure packet through port 0 or port 18, one of which it trains, once every 2^30 ac,
and names its package unless step 2 failed without reading the fuses; a power loss leaves flash, fuses, the identity key and memory outside the package, and may tear the record of the attempt in progress; a scrub
counts a corrected error, up to 255, and marks an uncorrectable word. -/
def Claims.FailuresAndScrubs : Prop :=
  (∀ (s : State) (r : StartRec), s.power = .failed → s.failRec = some r →
    let pkt := padTo 64 (leBytes 2 (if r.step = 2 ∧ s.fusesRead = false then 0xFFFF else Config.packageIndex) ++ leBytes 2 r.step ++
      leBytes 1 r.alt ++ leBytes 3 0 ++ leBytes 4 s.startCount ++ leBytes 4 r.detail.toNat)
    let trained := fun (p : Nat) => s.onPort p fun x => { x with up := true, lastRx := s.ac, lastTx := s.ac }
    let sent := fun (q : State) => sendOut 0xFFFF 0 pkt { q with lastFail := s.ac + 1 }
    let up := (s.port 0).up = true ∨ (s.port 18).up = true
    (s.lastFail ≠ 0 → s.ac < s.lastFail - 1 + 2 ^ 30 → exec .startFailureReport s = .next s) ∧
    (s.lastFail = 0 ∨ s.lastFail - 1 + 2 ^ 30 ≤ s.ac →
      (up → exec .startFailureReport s = .next (sent s)) ∧
      (¬ up → s.sel.word % 2 = 1 → exec .startFailureReport s = .next (sent (trained 0))) ∧
      (¬ up → s.sel.word % 2 = 0 → s.sel.word / 2 % 2 = 1 → exec .startFailureReport s = .next (sent (trained 18))) ∧
      (¬ up → s.sel.word % 2 = 0 → s.sel.word / 2 % 2 = 0 → exec .startFailureReport s = .next s))) ∧
  (∀ s : State, ∃ t, exec .powerLoss s = .next t ∧ t.power = .off ∧ t.team.present = false ∧ t.teams = [] ∧ t.cores = [] ∧ t.minSvn = s.minSvn ∧
    t.startCount = s.startCount ∧ t.idKey = s.idKey ∧
    t.startLog = (if s.sel.word = 1 ∧ s.power = .starting then
      (if (attempt s).isSome then s.startLog.dropLast else s.startLog.drop (s.startLog.length - 65535)) ++ [tornBytes s.sel.pkt] else s.startLog) ∧
    (s.startLog.length ≤ 65536 → t.startLog.length ≤ 65536) ∧ t.fusesRead = s.fusesRead ∧
    (∀ k, 2 ^ 57 ≤ k → memByte t.mem k = memByte s.mem k) ∧ ∀ k, k < 2 ^ 57 → memByte t.mem k = 0) ∧
  ∀ p ∈ ([(.vaultScrub, 8, fun a b => vaultKey a b), (.hbmScrub, 24, fun a b => hbmKey a b)] : List (Instr × Nat × (Nat → Nat → Nat))), ∀ s : State,
    let k := p.2.2 s.sel.unit s.sel.sub
    let n := s.cecount.toNat / 2 ^ p.2.1 % 256
    (s.sel.word = 1 → n < 255 → exec p.1 s = .next { s with cecount := s.cecount + BitVec.ofNat 32 (2 ^ p.2.1) }) ∧
    (s.sel.word = 1 → n = 255 → exec p.1 s = .next s) ∧
    (s.sel.word = 2 → granule k ∈ s.bad → exec p.1 s = .next s) ∧
    (s.sel.word = 2 → granule k ∉ s.bad → exec p.1 s = .next { s with bad := s.bad ++ [granule k] }) ∧
    (s.sel.word = 0 → exec p.1 s = .next s)

/-- The accesses of a team to a package that its requests still carry: its results, its stores, its park in WADDR.WAIT, and its wakes. -/
def Claims.farAccesses (s : State) (p : Nat) (u : Team) : List FarAccess :=
  farParts p u ++ ((requestsTo s p).filter fun r => r.tid == u.tid && r.credit == some u.blk).filterMap fun r => r.far.bind (·.part p)

/-- R245, R405: a lost package is recorded, its translations are invalidated, in teams saved at a wide barrier too, and its collectives are withdrawn,
and each of this package's entries that has it as a member gets the notice LOST. The stated states are those in which no team in handler mode has
an access to it in flight: those teams end with DOUBLE (R352). -/
def Claims.PackagesAreLost : Prop :=
  ∀ s : State,
    let p := s.sel.unit
    let in_ := fun (c : Coll) => groupHas c.desc.group c.n p = true ∨
      (∃ q ∈ s.posts, q.pkg = p ∧ q.key = c.key) ∨ (∃ r ∈ s.creqs, p ∈ r.members ∧ r.key = c.key) ∨ ∃ g ∈ s.grants, p ∈ g.members ∧ g.key = c.key
    p ∉ s.lost → p ≠ Config.packageIndex → (∀ u ∈ s.allTeams, u.hmode = true → Claims.farAccesses s p u = []) →
    ∃ t, exec .remotePackageLost s = .next t ∧ t.lost = s.lost ++ [p] ∧ t.mem = s.mem ∧
      (∀ q, q ∈ t.posts ↔ q ∈ s.posts ∧ groupHas q.group q.n p = false ∧ ∀ r ∈ s.posts, r.pkg = p → r.key ≠ q.key) ∧
      (∀ r, r ∈ t.creqs ↔ r ∈ s.creqs ∧ p ∉ r.members) ∧ (∀ g, g ∈ t.grants ↔ g ∈ s.grants ∧ p ∉ g.members) ∧
      (∀ c, ∀ e ∈ (t.core c).tlb, paPkg (e.frame * 4096) ≠ p) ∧
      (∀ g, ∀ b ∈ (t.grid g).saved ++ (t.grid g).restore, ∀ u ∈ b.teams, ∀ k < 8, (vget {} u.x k).v = true →
        paPkg ((vget {} u.x k).frame.toNat * 4096) ≠ p) ∧
      ∀ i < 64, ((s.coll i).st = .posted ∨ (s.coll i).st = .started) → in_ (s.coll i) → (i, (s.coll i).gen, ceLOST) ∈ t.notices

/-- R245: every access of a team to a lost package that is in flight, a wake too, traps REMOTE at the team's next instruction boundary, writes no register and
is waited for no more. -/
def Claims.AccessesInFlightTrapRemote : Prop :=
  ∀ (s t : State) (tid : Nat) (u : Team), Claims.filed s → s.sel.unit ∉ s.lost → s.sel.unit ≠ Config.packageIndex →
    (∀ k ∈ s.allTeams, k.hmode = true → Claims.farAccesses s s.sel.unit k = []) → s.teamAt tid = some u →
    exec .remotePackageLost s = .next t →
    ∃ v, t.teamAt tid = some v ∧ (∀ x ∈ Claims.farAccesses s s.sel.unit u, TeamEvent.remote x ∈ v.events) ∧
      ∀ x, ((∃ p ∈ v.pend, p.far = some x) ∨ ∃ k ∈ v.stores, k.far = some x) → ∀ l ∈ x.lanes, l.2.1 ≠ s.sel.unit

/-- R386, R387, R424, R426: a link silent for 4,096 ac, or with a flit that failed 16 times, loses its neighbour; flits, idle flits, a spare lane
and time beacons have their effect. -/
def Claims.LinksCarryFlitsAndTime : Prop :=
  (∀ s : State,
    let p := s.sel.unit
    let x := s.port p
    let gone := losePackage x.neighbour (s.onPort p fun x => { x with lost := true, up := false })
    x.up = true → x.lost = false →
    (x.lastRx + 4096 ≤ s.ac → exec .linkSilenceLoss s = .next gone) ∧ (16 ≤ x.failed → exec .linkReplayLoss s = .next gone) ∧
    (x.failed < 16 → exec .flitReplay s = .next (s.onPort p fun x =>
      { x with failed := if s.sel.word = 1 then x.failed + 1 else 0, lastTx := s.ac })) ∧
    (s.sel.sub = 1 → exec .idleFlit s = .next (s.onPort p fun x => { x with lastRx := s.ac })) ∧
    (s.sel.sub ≠ 1 → x.lastTx + 256 ≤ s.ac → exec .idleFlit s = .next (s.onPort p fun x => { x with lastTx := s.ac })) ∧
    (p < 36 → x.spareUsed = false → exec .fabricLaneSwap s = .next (s.onPort p fun x => { x with spareUsed := true }))) ∧
  (∀ s : State, s.linked = true → (s.ports.map (·.1)).Pairwise (· < ·) →
    s.heard = s.onPort s.livePort (fun x => { x with lastRx := s.ac }) ∧ s.spoken = s.onPort s.livePort (fun x => { x with lastTx := s.ac }) ∧
    (s.port s.livePort).live = true) ∧
  (∀ s : State, takesTime s = true → exec .timeBeacon s = .next { s with beacons := s.beacons ++ [s.sel.word % 2 ^ 63] }) ∧
  (∀ s : State, takesTime s = false → exec .timeBeacon s = .next s ∧ exec .timeBeaconReceive s = .next s) ∧
  ∀ (s : State) (b : Nat) (rest : List Nat), takesTime s = true → s.beacons = b :: rest → ∃ t, exec .timeBeaconReceive s = .next t ∧
    t = { s.heard with beacons := rest, ftime := t.ftime } ∧ t.fabricTime = (b + Config.beaconDelay) % 2 ^ 63

/-- R245, R386, R387, R405, R424 to R433: the start, its failures, scrubs, power loss, links and lost packages.
It rests on choices of the model: log entries 8, 9, 44, 45, 51 and 57. -/
def Obligations.ThePackageStartsAndLosesItsLinks : Prop :=
  Claims.StartsRunTheirSteps ∧ Claims.RecordsAreCheckedByTheirCrc ∧ Claims.ImagesAreVerified ∧ Claims.FailuresAndScrubs ∧
    Claims.PackagesAreLost ∧ Claims.AccessesInFlightTrapRemote ∧ Claims.LinksCarryFlitsAndTime

/-! ### Words, steps and invariants -/

/-- R26, R14: the checks of an integer register operation, in their order: a register beyond the window, a hazard, a dead register under PTRAPEN,
a special as destination, a vector source of a uniform instruction; and after them, by R424, a register that holds an uncorrectable error. The
first that fails decides the trap.
It rests on choices of the model: log entries 19, 24 and 47 (a trapping integer operation takes one pass). -/
def Obligations.OperandChecksTrapInTheirOrder : Prop :=
  ∀ p ∈ Claims.intOps, ∀ (h : Hd) (d a b : RegF) (s : State),
    let fs := [a.toNat, b.toNat, d.toNat]
    let q := afterReads s [src a, src b, dst d]
    let outside := ∃ f ∈ fs, f ≤ 95 ∧ s.team.nregs ≤ s.team.wbase + f
    let hazard := ∃ f ∈ fs, isPending s.team (regCode s.team f) = true
    let dead := readsDead s [src a, src b, dst d] = true
    let traps := s.team.tstat.getLsbD 1 = true
    Issuing s →
    (outside → exec (p.1 h d a b) s = .next (trapI cWINDOW 4 (booked 1 s))) ∧
    (¬ outside → hazard → exec (p.1 h d a b) s = .next (trapI cHAZARD 4 (booked 1 s))) ∧
    (¬ outside → ¬ hazard → dead → traps → exec (p.1 h d a b) s = .next (trapI cPOISON 4 (booked 1 q))) ∧
    (¬ outside → ¬ hazard → ¬ (dead ∧ traps) → 120 ≤ d.toNat → exec (p.1 h d a b) s = .next (trapI cILLOPND 4 (booked 1 q))) ∧
    (¬ outside → ¬ hazard → ¬ (dead ∧ traps) → 96 ≤ d.toNat → d.toNat < 120 → (a.toNat < 96 ∨ b.toNat < 96) →
      exec (p.1 h d a b) s = .next (trapI cILLOPND 4 (booked 1 q))) ∧
    (¬ outside → ¬ hazard → ¬ (dead ∧ traps) → (d.toNat < 96 ∨ d.toNat < 120 ∧ 96 ≤ a.toNat ∧ 96 ≤ b.toNat) →
      (∃ l ∈ lanesOf s.team.active, badOps q [src a, src b, dst d] l = true) →
      exec (p.1 h d a b) s = .next (trapAll { cause := cECC, lsub := 1 } 4 (booked 1 q)))

/-- R53, R177: a step in which a team issues, chosen from outside or by the model's own order, runs what the word at its PC decodes to (with the
word after it, when it has a literal), on the state after the fetch, when no precise stop and no event is due and a port reaches the words; within an ac teams issue in the
order of their schedulers, and the ac ends only when none is to issue. After an instruction in sequence the PC is past its words, but in an MCALL
expansion, where the next control word follows, and the MCALL's two words, or where a POP inside it led, after the last; a partial re-execution goes on at TNEXT, or with the
expansion that it stands in.
It rests on choices of the model: log entries 1, 62 and 66. -/
def Obligations.StepRunsTheDecodedInstruction : Prop :=
  (∀ (s r : State) (tid : Nat) (rest : List Choice) (pa pb : Nat) (na nb : Bool),
    ((s.agenda = .issue tid :: rest ∧ r = { s with agenda := rest } ∧ deterministic r = false ∧ nextIssue r = some tid) ∨
      (s.agenda = [] ∧ r = { s with turn := s.turn + 1 } ∧ replayInput s = none ∧
        firstDue r (startSteps r ++ r.allTeams.flatMap (landSteps r)) = none ∧ nextIssue r = some tid)) →
    let q := r.focus tid
    let x := loadPa q.myCore pa 4 na false (paCarried q.myCore pa (tlbTouch q.myCore q.myCtx q.team.pc.toNat q))
    let y := loadPa q.myCore pb 4 nb false (paCarried q.myCore pb (tlbTouch q.myCore q.myCtx (q.team.pc + 4).toNat x.2))
    let w := BitVec.ofNat 32 (leNat x.1)
    let l := if hasLiteral w then BitVec.ofNat 32 (leNat y.1) else 0
    stopDue q q.team.tid = false → eventDue q = false → q.team.present = true → q.team.ir = none → q.team.park = .run → q.team.trapReq = none →
    q.team.mcall = none → q.team.failed = 0 →
    paCheck q .fetch q.team.pc.toNat (xlateVa q .fetch q.team.pc.toNat) = .ok pa na → eccOf q q.myCore pa 4 = none →
    paReaches q q.myCore pa = true → inSlice q q.myCtx q.team.pc.toNat 4 = false →
    (hasLiteral w = true → paCheck x.2 .fetch (q.team.pc + 4).toNat (xlateVa x.2 .fetch (q.team.pc + 4).toNat) = .ok pb nb ∧
      eccOf x.2 q.myCore pb 4 = none ∧ paReaches x.2 q.myCore pb = true ∧ inSlice x.2 q.myCtx (q.team.pc + 4).toNat 4 = false) →
    step s = exec (decodeWord w l) ((if hasLiteral w then y.2 else x.2).onTeam fun t => { t with ir := some (w, l) })) ∧
  (∀ (s r : State) (c : Choice) (rest : List Choice), s.agenda = c :: rest → r = { s with agenda := rest } → deterministic r = false →
    (∀ tid, c = .issue tid → nextIssue r ≠ some tid → step s = .next r) ∧
    (c = .tick → (nextIssue r).isSome = true → step s = .next r) ∧ (c = .tick → acOver r = true → step s = .next (tick r))) ∧
  (∀ (s : State) (tid : Nat) (u : Team), nextIssue s = some tid → u ∈ s.allTeams → teamReady s u = true → tid / 16 ≤ u.tid / 16) ∧
  ∀ (len : Nat) (t : Team),
    let next := (advance len t).1
    (t.mcall = none → t.reexec = none → next.pc = t.pc + BitVec.ofNat 57 len ∧ next.active = t.active ∧ next.mcall = none) ∧
    (∀ x, t.reexec = some x → next.active = x.mask ∧ next.reexec = none ∧
      (t.mcall = none ∨ x.direct = true → next.pc = x.next ∧ next.mcall = x.back)) ∧
    ∀ m, t.mcall = some m → (∀ x, t.reexec = some x → x.direct = false) →
      (m.idx + len / 4 < m.words.length → next.pc = t.pc ∧ next.mcall = some { m with idx := m.idx + len / 4 }) ∧
      (m.words.length ≤ m.idx + len / 4 → next.pc = m.ret.getD (m.pc + 8) ∧ next.mcall = none ∧ (advance len t).2 = m.sw)

/-- R51, R52, R55, R101, R103, R116, R124, R399, R401: words written out from the encodings of the spec decode to the instructions that they
stand for. -/
def Obligations.WordsDecodeToTheirInstructions : Prop :=
  decodeWord 0b0_0000001_000_0000001_0000010_0000011#32 0 = .iadd ⟨false, 0⟩ 1 2 3 ∧
  decodeWord 0b1_0001010_011_0000110_1100001_0000100#32 0 = .xorR ⟨true, 3⟩ 6 97 4 ∧
  decodeWord 0b0_0000001_001_0000101_0000100_0000100#32 0 = .iadd ⟨false, 1⟩ 5 4 4 ∧
  decodeWord 0x3C003301#32 0 = .cwaitLocal ⟨false, 0⟩ 102 ∧
  decodeWord 0x7A19B178#32 0 = .cpost ⟨false, 0⟩ 102 98 120 0

/-- R51 to R59: for every well-formed instruction that words encode, with every operand at every value, decoding its encoding gives it back, the
bytes taken being those of its words; and every word decodes to a well-formed instruction. -/
def Obligations.DecodingInvertsEncoding : Prop :=
  (∀ i : Instr, i.wellFormed = true → encode i ≠ [] → decodeWords (encode i) = some i) ∧
  (∀ i : Instr, i.wellFormed = true → encode i ≠ [] →
    decodeBytes ((encode i).flatMap bytesOfWord) = some (i, 4 * (encode i).length)) ∧
  ∀ w l : Word, (decodeWord w l).wellFormed = true

/-- R223, R231: memory stays in its canonical form: if it is before a step that answers a next state, it is after.
It rests on choices of the model: log entry 5. -/
def Obligations.MemoryStaysCanonical : Prop := ∀ s t : State, s.memOk → step s = .next t → t.memOk

/-- What the tables of a machine keep (R11, R158, R166): the number of registers of every team is legal, register tables are in order, a team
stands under its own id, in focus or in the table, and teams, blocks, grids and queues are listed once, in order. -/
def Claims.teamOk (t : Team) : Prop :=
  t.nregs ≤ 248 ∧ (t.v.map (·.1)).Pairwise (· < ·) ∧ (t.vdead.map (·.1)).Pairwise (· < ·)

def Claims.tablesOk (s : State) : Prop :=
  Claims.teamOk s.team ∧ (s.teams.map (·.1)).Pairwise (· < ·) ∧ (∀ p ∈ s.teams, Claims.teamOk p.2 ∧ p.2.tid = p.1 ∧ p.2.present = true) ∧
  (s.team.present = true → mget? s.teams s.team.tid = none) ∧
  (s.blocks.map (·.1)).Pairwise (· < ·) ∧ (s.grids.map (·.1)).Pairwise (· < ·) ∧ (s.queues.map (·.1)).Pairwise (· < ·) ∧
  ∀ g ∈ s.grids, (∀ r ∈ g.2.launch.roles, r.regs ≤ 248) ∧
    ∀ b ∈ g.2.saved ++ g.2.restore, ∀ t ∈ b.teams, Claims.teamOk t ∧ t.present = true

/-- R11, R158, R166: the tables of the machine stay in order, and every team's number of registers stays legal. -/
def Obligations.TablesStayInOrder : Prop := ∀ s t : State, Claims.tablesOk s → step s = .next t → Claims.tablesOk t

/-- What the split of HBM and the core caches keep (R228, R230): the split is a multiple of 4 KiB up to 80,000,000,000, and a written byte of a
cached line is valid. -/
def Claims.cachesOk (s : State) : Prop :=
  s.split % 4096 = 0 ∧ s.split ≤ 80000000000 ∧ ∀ c ∈ s.cores, ∀ l ∈ c.2.lines, l.2.written &&& l.2.valid = l.2.written

/-- R228, R230: the split stays legal, and written bytes of cached lines stay valid. -/
def Obligations.SplitAndCachesStaySound : Prop := ∀ s t : State, Claims.cachesOk s → step s = .next t → Claims.cachesOk t

/-- R226, R230, R310, R388, R394, R395, R415: what the machine is at its start: no team, every presence bit set, the whole of HBM interleaved,
queue 0 a host-command queue of 256 entries of context 0, every collective entry FREE, the rank counter and the routing counters 0; and the three
invariants hold.
It rests on choices of the model: log entries 2, 5 and 7. -/
def Obligations.ResetIsTheSpecsStart : Prop :=
  State.reset.ac = 0 ∧ State.reset.allTeams = [] ∧ (∀ c, (State.reset.core c).absent = [] ∧ (State.reset.core c).route = []) ∧
  State.reset.split = 80000000000 ∧ State.reset.queue 0 = { kind := 3, cap := 256, owner := 0 } ∧
  (∀ q, q ≠ 0 → (State.reset.queue q).entries = []) ∧ (∀ i, (State.reset.coll i).st = .free) ∧ State.reset.nextRank = 0 ∧
  State.reset.lost = [] ∧ State.reset.memOk ∧ Claims.tablesOk State.reset ∧ Claims.cachesOk State.reset

/-! ### Rules stated whole -/

/-- R105: the words `S | 0x1A | HNT | D | A | B` are SEL. It reads D third and, in each executing lane, writes A to D where the bits of D are not 0,
else B; it is uniform with a scalar D, takes no long result, and changes nothing else. -/
def Obligations.SelectTestsTheBitsOfD : Prop :=
  (∀ (h : Hd) (d a b : RegF) (l : Word), decodeWord (assemble ⟨h.sw, 0x1A, h.hnt, d, a, b⟩) l = .sel h d a b) ∧
  ∀ (h : Hd) (d a b : RegF) (s : State), Issuing s → Ready s (isScalar d) [src a, src b, srcDst d] →
    ∃ t, exec (.sel h d a b) s = .next t ∧
      Ended (afterReads s [src a, src b, srcDst d]) t h 4 (passes s (isScalar d))
        (writesOf s d.toNat (execLanes s (isScalar d)) fun l => if rdv s d l = 0 then rdv s b l else rdv s a l) [] [] 0
        (fieldsFrom a 1) (fieldsFrom b 1)

/-- R134: FMIN and FMAX write, in each element of each executing lane, the canonical NaN if either element is a NaN; −0 is below +0; otherwise the
element of one of the two operands bit for bit, and no operand is below the least or above the greatest. -/
def Obligations.MinAndMaxChooseAnOperand : Prop :=
  (∀ p ∈ ([(.fmin, false), (.fmax, true)] : List ((Hd → RegF → RegF → RegF → Instr) × Bool)), ∀ (h : Hd) (d a b : RegF) (s : State),
    Issuing s → Ready s (isScalar d) [src a, src b, dst d] → fmtVec s < 3 →
    ∃ t, exec (p.1 h d a b) s = .next t ∧
      Ended (afterReads s [src a, src b, dst d]) t h 4 (passes s (isScalar d))
        (writesOf s d.toNat (execLanes s (isScalar d)) fun l =>
          onElems (fmtVec s) (fmtRm s) (fun f _ x y _ => fMinBits f p.2 x y) (rd s a l) (rd s b l) (0, false)) [] [] 0
          (fieldsFrom a 1) (fieldsFrom b 1)) ∧
  ∀ f ∈ [fp32, bf16, fp16], ∀ gt : Bool, ∀ a b : Nat, a < 2 ^ (f.eb + f.fb + 1) → b < 2 ^ (f.eb + f.fb + 1) →
    let x := decodeFp f a
    let y := decodeFp f b
    let r := fMinBits f gt a b
    (x.isNan = true ∨ y.isNan = true → r = f.nanBits) ∧
    (x.isNan = false → y.isNan = false →
      (r = a ∨ r = b) ∧ (gt = false → x.lt (decodeFp f r) = false ∧ y.lt (decodeFp f r) = false) ∧
      (gt = true → (decodeFp f r).lt x = false ∧ (decodeFp f r).lt y = false) ∧
      (x.isZero = true → y.isZero = true → x.neg ≠ y.neg → (decodeFp f r).neg = !gt))

/-- R15: CALL with 16 return addresses on the call stack, and RET with none, trap ILLOPND and neither pushes nor pops; below that, CALL pushes the
address after its two words and RET goes to the newest address and drops it; neither saves or restores the format register. -/
def Obligations.TheCallStackHoldsSixteenAddresses : Prop :=
  (∀ (h : Hd) (l : Word) (s : State), Issuing s → 16 ≤ s.team.cstack.length →
    exec (.call h l) s = .next (trapI cILLOPND 8 (booked 1 s)) ∧ (booked 1 s).team.cstack = s.team.cstack) ∧
  (∀ (h : Hd) (s : State), Issuing s → s.team.cstack = [] →
    exec (.ret h) s = .next (trapI cILLOPND 4 (booked 1 s)) ∧ (booked 1 s).team.cstack = []) ∧
  (∀ (h : Hd) (l : Word) (s : State), Issuing s → s.team.cstack.length < 16 →
    ∃ t, exec (.call h l) s = .next t ∧ t.team.cstack = (s.team.pc + 8) :: s.team.cstack ∧ t.team.fmt = s.team.fmt) ∧
  ∀ (h : Hd) (s : State) (pc : VAddr) (rest : List VAddr), Issuing s → s.team.cstack = pc :: rest →
    ∃ t, exec (.ret h) s = .next t ∧ t.team.pc = pc ∧ t.team.cstack = rest ∧ t.team.fmt = s.team.fmt

/-- R153, with R18, R124, R180, R265 and R343: a team starts with every register 0 and live, nothing pending, the window at 0, empty stacks, the
role's format register and entry PC, its lanes live and active, PTILE 0, no barrier pending, and outside handler mode. -/
def Obligations.TeamsStartCleared : Prop :=
  ∀ (l : LaunchRec) (blk role lanes nregs : Nat) (fmt : Word) (entry : VAddr) (s : State), lanes ≤ 1024 →
    let t := newTeam l blk role lanes nregs fmt entry
    let q : State := { s with team := t }
    (∀ c k, regNamed c → regBits q c k = 0 ∧ regDead t c k = false) ∧ t.pend = [] ∧ t.stores = [] ∧ t.wbase = 0 ∧
    (∀ k, k < 8 → vget {} t.x k = {}) ∧ t.fmt = fmt ∧ t.tstat = 0 ∧ t.cstack = [] ∧ t.rstack = [] ∧ t.pc = entry ∧ t.ptile = 0 ∧
    t.barPend = 0 ∧ t.hmode = false ∧ ∀ i, (t.live.getLsbD i = true ↔ i < lanes) ∧ t.active = t.live

/-- R141: the functions with irrational values, EXP2, LOG2, SINP, COSP, TANH, SIGM, EXP and LOG, at every finite operand outside the table of special
operands, are the exact mathematical value rounded once into FP32 by RNE. It rests on a choice of the model: log entry 12 (the values are computed
in fixed point). -/
def Obligations.SfuFunctionsRoundTheExactValue : Prop :=
  ∀ w : Word, Claims.finite fp32 w.toNat →
    let x : ℝ := ((Claims.value fp32 w.toNat : ℚ) : ℝ)
    x ≠ 0 →
    Claims.IsRound fp32 0 ((2 : ℝ) ^ x) (sfuFn 3 w).toNat ∧
    (0 < x → x ≠ 1 → Claims.IsRound fp32 0 (Real.logb 2 x) (sfuFn 4 w).toNat ∧ Claims.IsRound fp32 0 (Real.log x) (sfuFn 10 w).toNat) ∧
    ((∀ k : ℤ, x ≠ k) → Claims.IsRound fp32 0 (Real.sin (Real.pi * x)) (sfuFn 5 w).toNat) ∧
    ((∀ k : ℤ, x ≠ k + 1 / 2) → Claims.IsRound fp32 0 (Real.cos (Real.pi * x)) (sfuFn 6 w).toNat) ∧
    Claims.IsRound fp32 0 (Real.tanh x) (sfuFn 7 w).toNat ∧
    Claims.IsRound fp32 0 (1 / (1 + Real.exp (-x))) (sfuFn 8 w).toNat ∧
    Claims.IsRound fp32 0 (Real.exp x) (sfuFn 9 w).toNat
end
end

