-- ==== Sys2Proof/Laws/Maps.lean ====
section
/-!
SUPPORT. Laws of tables and of memory: what is read after a write, and that every memory operation keeps the canonical form.
-/

namespace Sys2Proof.Machine

variable {α : Type}

@[simp] theorem mget?_nil (k : Nat) : mget? ([] : Sparse α) k = none := rfl

theorem mget?_cons (j : Nat) (v : α) (m : Sparse α) (k : Nat) :
    mget? ((j, v) :: m) k = if j = k then some v else mget? m k := rfl

theorem mget?_mput (m : Sparse α) (k : Nat) (v : α) (i : Nat) :
    mget? (mput m k v) i = if k = i then some v else mget? m i := by
  induction m with
  | nil => simp [mput, mget?]
  | cons p m ih =>
    obtain ⟨j, u⟩ := p
    simp only [mput]
    by_cases h : j = k
    · subst h; simp only [if_true, mget?_cons]; split <;> rfl
    · by_cases h2 : k < j
      · simp [h, h2, mget?_cons]
      · simp only [h, h2, if_false, mget?_cons, ih]
        by_cases h3 : j = i
        · subst h3; simp [Ne.symm h]
        · simp [h3]

theorem mget?_mdel (m : Sparse α) (k i : Nat) : mget? (mdel m k) i = if k = i then none else mget? m i := by
  induction m with
  | nil => simp [mdel]
  | cons p m ih =>
    obtain ⟨j, u⟩ := p
    simp only [mdel]
    by_cases h : j = k
    · subst h; simp only [if_true, ih, mget?_cons]; split <;> rfl
    · simp only [h, if_false, mget?_cons, ih]
      by_cases h3 : j = i
      · subst h3; simp [Ne.symm h]
      · simp [h3]

@[simp] theorem mget_nil (d : α) (k : Nat) : mget d ([] : Sparse α) k = d := rfl

theorem mget_mput (d : α) (m : Sparse α) (k : Nat) (v : α) (i : Nat) :
    mget d (mput m k v) i = if k = i then v else mget d m i := by
  unfold mget; rw [mget?_mput]; split <;> rfl

@[simp] theorem mget_mput_same (d : α) (m : Sparse α) (k : Nat) (v : α) : mget d (mput m k v) k = v := by simp [mget_mput]

theorem mget_mput_ne (d : α) (m : Sparse α) {k i : Nat} (v : α) (h : k ≠ i) : mget d (mput m k v) i = mget d m i := by
  simp [mget_mput, h]

/-- A table in the form that lists no default reads as written at the key, and as before elsewhere. -/
theorem mget_mset [DecidableEq α] (d : α) (m : Sparse α) (k : Nat) (v : α) (i : Nat) :
    mget d (mset d m k v) i = if k = i then v else mget d m i := by
  unfold mset
  split
  · next h => subst h; unfold mget; rw [mget?_mdel]; split <;> rfl
  · exact mget_mput d m k v i

/-! ### Memory -/

/-- A byte reads as last written; every other byte reads as before. -/
theorem memByte_memPut (m : List Host.Cell) (k : Nat) (b : Byte) (i : Nat) :
    memByte (memPut m k b) i = if k = i then b else memByte m i := mget_mset 0 m k b i

/-- The bytes of a list are read where it was written; every other byte reads as before. -/
theorem memByte_memPuts (bs : List Byte) : ∀ (m : List Host.Cell) (k i : Nat),
    memByte (memPuts m k bs) i = if k ≤ i ∧ i < k + bs.length then bs.getD (i - k) 0 else memByte m i := by
  induction bs with
  | nil => intro m k i; have : ¬ (k ≤ i ∧ i < k + 0) := by omega
           simp [memPuts]
  | cons b bs ih =>
    intro m k i
    rw [memPuts, ih, memByte_memPut]
    by_cases h1 : k = i
    · subst h1
      have h2 : ¬ (k + 1 ≤ k ∧ k < k + 1 + bs.length) := by omega
      simp
    · by_cases h2 : k + 1 ≤ i ∧ i < k + 1 + bs.length
      · have h3 : k ≤ i ∧ i < k + (b :: bs).length := by simp only [List.length_cons]; omega
        obtain ⟨n, rfl⟩ : ∃ n, i = k + 1 + n := ⟨i - (k + 1), by omega⟩
        rw [if_pos h2, if_pos h3]
        have e1 : k + 1 + n - (k + 1) = n := by omega
        have e2 : k + 1 + n - k = n + 1 := by omega
        rw [e1, e2, List.getD_cons_succ]
      · have h3 : ¬ (k ≤ i ∧ i < k + (b :: bs).length) := by simp only [List.length_cons]; omega
        rw [if_neg h2, if_neg h3, if_neg h1]

/-- Outside the bytes written, memory reads as before. -/
theorem memByte_memPuts_out (m : List Host.Cell) (k : Nat) (bs : List Byte) (i : Nat) (h : i < k ∨ k + bs.length ≤ i) :
    memByte (memPuts m k bs) i = memByte m i := by
  rw [memByte_memPuts, if_neg (by omega)]

/-! ### The canonical form -/

/-- Every key of a table is at least `n`. -/
def keysFrom (n : Nat) (m : Sparse α) : Prop := ∀ p ∈ m, n ≤ p.1

theorem mcanon_cons [DecidableEq α] (d : α) (j : Nat) (v : α) (m : Sparse α) :
    mcanon d ((j, v) :: m) = true ↔ v ≠ d ∧ keysFrom (j + 1) m ∧ mcanon d m = true := by
  induction m generalizing j v with
  | nil => simp [mcanon, keysFrom]
  | cons p m ih =>
    obtain ⟨k, u⟩ := p
    have ih' := ih k u
    simp only [mcanon, Bool.and_eq_true, bne_iff_ne, decide_eq_true_eq]
    constructor
    · rintro ⟨⟨h1, h2⟩, h3⟩
      refine ⟨h1, ?_, h3⟩
      intro p hp
      rcases List.mem_cons.1 hp with rfl | hp
      · exact h2
      · have := (ih'.1 h3).2.1 p hp; omega
    · rintro ⟨h1, h2, h3⟩
      exact ⟨⟨h1, h2 (k, u) (List.mem_cons_self ..)⟩, h3⟩

theorem keysFrom_mput {n : Nat} {m : Sparse α} {k : Nat} (v : α) (h : keysFrom n m) (hk : n ≤ k) : keysFrom n (mput m k v) := by
  induction m with
  | nil => intro p hp; rcases List.mem_singleton.1 hp with rfl; exact hk
  | cons q m ih =>
    obtain ⟨j, u⟩ := q
    have hj : n ≤ j := h (j, u) (List.mem_cons_self ..)
    have hm : keysFrom n m := fun p hp => h p (List.mem_cons_of_mem _ hp)
    intro p hp
    simp only [mput] at hp
    split at hp
    · rcases List.mem_cons.1 hp with rfl | hp
      · exact hk
      · exact hm p hp
    · split at hp
      · rcases List.mem_cons.1 hp with rfl | hp
        · exact hk
        · exact h p hp
      · rcases List.mem_cons.1 hp with rfl | hp
        · exact hj
        · exact ih hm p hp

theorem mem_of_mem_mdel {m : Sparse α} {k : Nat} {p : Nat × α} (h : p ∈ mdel m k) : p ∈ m := by
  induction m with
  | nil => exact h
  | cons q m ih =>
    obtain ⟨j, u⟩ := q
    simp only [mdel] at h
    split at h
    · exact List.mem_cons_of_mem _ (ih h)
    · rcases List.mem_cons.1 h with rfl | h
      · exact List.mem_cons_self ..
      · exact List.mem_cons_of_mem _ (ih h)

theorem mcanon_mput [DecidableEq α] {d : α} {m : Sparse α} (k : Nat) {v : α} (hv : v ≠ d) (h : mcanon d m = true) :
    mcanon d (mput m k v) = true := by
  induction m with
  | nil => simpa [mput, mcanon] using hv
  | cons p m ih =>
    obtain ⟨j, u⟩ := p
    obtain ⟨hu, hk, hm⟩ := (mcanon_cons d j u m).1 h
    simp only [mput]
    split
    · next e => subst e; exact (mcanon_cons d _ v m).2 ⟨hv, hk, hm⟩
    · split
      · next e =>
        refine (mcanon_cons d k v _).2 ⟨hv, ?_, h⟩
        intro p hp
        rcases List.mem_cons.1 hp with rfl | hp
        · exact e
        · have := hk p hp; omega
      · refine (mcanon_cons d j u _).2 ⟨hu, keysFrom_mput v hk (by omega), ih hm⟩

theorem mcanon_mdel [DecidableEq α] {d : α} {m : Sparse α} (k : Nat) (h : mcanon d m = true) : mcanon d (mdel m k) = true := by
  induction m with
  | nil => rfl
  | cons p m ih =>
    obtain ⟨j, u⟩ := p
    obtain ⟨hu, hk, hm⟩ := (mcanon_cons d j u m).1 h
    simp only [mdel]
    split
    · exact ih hm
    · exact (mcanon_cons d j u _).2 ⟨hu, fun p hp => hk p (mem_of_mem_mdel hp), ih hm⟩

theorem mcanon_mset [DecidableEq α] {d : α} {m : Sparse α} (k : Nat) (v : α) (h : mcanon d m = true) : mcanon d (mset d m k v) = true := by
  unfold mset
  split
  · exact mcanon_mdel k h
  · next hv => exact mcanon_mput k hv h

theorem mcanon_filter [DecidableEq α] {d : α} {m : Sparse α} (q : Nat × α → Bool) (h : mcanon d m = true) : mcanon d (m.filter q) = true := by
  induction m with
  | nil => rfl
  | cons p m ih =>
    obtain ⟨j, u⟩ := p
    obtain ⟨hu, hk, hm⟩ := (mcanon_cons d j u m).1 h
    rw [List.filter_cons]
    split
    · exact (mcanon_cons d j u _).2 ⟨hu, fun p hp => hk p (List.mem_of_mem_filter hp), ih hm⟩
    · exact ih hm

/-- Writing a byte keeps the canonical form. -/
theorem memPut_wf {m : List Host.Cell} (k : Nat) (b : Byte) (h : Memory.wf m = true) : Memory.wf (memPut m k b) = true := mcanon_mset k b h

/-- Writing bytes keeps the canonical form. -/
theorem memPuts_wf (bs : List Byte) : ∀ {m : List Host.Cell} (k : Nat), Memory.wf m = true → Memory.wf (memPuts m k bs) = true := by
  induction bs with
  | nil => intro m k h; exact h
  | cons b bs ih => intro m k h; exact ih (k + 1) (memPut_wf k b h)

/-- What is left of memory after some keys are dropped keeps the canonical form. -/
theorem memFilter_wf {m : List Host.Cell} (q : Host.Cell → Bool) (h : Memory.wf m = true) : Memory.wf (m.filter q) = true := mcanon_filter q h

/-! ### Fixed tables -/

theorem vget_vset {n : Nat} (d : α) (v : Vector α n) (k : Nat) (x : α) (i : Nat) :
    vget d (vset v k x) i = if k = i ∧ k < n then x else vget d v i := by
  unfold vget vset
  rw [Vector.getElem?_setIfInBounds]
  by_cases h : k = i
  · subst h
    by_cases h2 : k < n
    · simp [h2]
    · simp [h2]
  · simp [h]

end Sys2Proof.Machine
end

