-- ==== Sys2Proof/Laws/State.lean ====
section
/-!
SUPPORT. One lemma for each field under each update of the state: what the update writes there, or that it leaves it alone.
-/

namespace Sys2Proof.Machine

/-! ### onTeam -/

@[simp] theorem onTeam_ac (s : State) (f : Team → Team) : (s.onTeam f).ac = s.ac := rfl
@[simp] theorem onTeam_power (s : State) (f : Team → Team) : (s.onTeam f).power = s.power := rfl
@[simp] theorem onTeam_team (s : State) (f : Team → Team) : (s.onTeam f).team = f s.team := rfl
@[simp] theorem onTeam_teams (s : State) (f : Team → Team) : (s.onTeam f).teams = s.teams := rfl
@[simp] theorem onTeam_busy (s : State) (f : Team → Team) : (s.onTeam f).busy = s.busy := rfl
@[simp] theorem onTeam_issuer (s : State) (f : Team → Team) : (s.onTeam f).issuer = s.issuer := rfl
@[simp] theorem onTeam_blocks (s : State) (f : Team → Team) : (s.onTeam f).blocks = s.blocks := rfl
@[simp] theorem onTeam_nextBlock (s : State) (f : Team → Team) : (s.onTeam f).nextBlock = s.nextBlock := rfl
@[simp] theorem onTeam_grids (s : State) (f : Team → Team) : (s.onTeam f).grids = s.grids := rfl
@[simp] theorem onTeam_nextGrid (s : State) (f : Team → Team) : (s.onTeam f).nextGrid = s.nextGrid := rfl
@[simp] theorem onTeam_ctxs (s : State) (f : Team → Team) : (s.onTeam f).ctxs = s.ctxs := rfl
@[simp] theorem onTeam_cores (s : State) (f : Team → Team) : (s.onTeam f).cores = s.cores := rfl
@[simp] theorem onTeam_clusters (s : State) (f : Team → Team) : (s.onTeam f).clusters = s.clusters := rfl
@[simp] theorem onTeam_dies (s : State) (f : Team → Team) : (s.onTeam f).dies = s.dies := rfl
@[simp] theorem onTeam_nextJob (s : State) (f : Team → Team) : (s.onTeam f).nextJob = s.nextJob := rfl
@[simp] theorem onTeam_queues (s : State) (f : Team → Team) : (s.onTeam f).queues = s.queues := rfl
@[simp] theorem onTeam_queueFree (s : State) (f : Team → Team) : (s.onTeam f).queueFree = s.queueFree := rfl
@[simp] theorem onTeam_colls (s : State) (f : Team → Team) : (s.onTeam f).colls = s.colls := rfl
@[simp] theorem onTeam_mem (s : State) (f : Team → Team) : (s.onTeam f).mem = s.mem := rfl
@[simp] theorem onTeam_split (s : State) (f : Team → Team) : (s.onTeam f).split = s.split := rfl
@[simp] theorem onTeam_launched (s : State) (f : Team → Team) : (s.onTeam f).launched = s.launched := rfl
@[simp] theorem onTeam_preq (s : State) (f : Team → Team) : (s.onTeam f).preq = s.preq := rfl
@[simp] theorem onTeam_nextSeq (s : State) (f : Team → Team) : (s.onTeam f).nextSeq = s.nextSeq := rfl
@[simp] theorem onTeam_prlate (s : State) (f : Team → Team) : (s.onTeam f).prlate = s.prlate := rfl
@[simp] theorem onTeam_cecount (s : State) (f : Team → Team) : (s.onTeam f).cecount = s.cecount := rfl
@[simp] theorem onTeam_bad (s : State) (f : Team → Team) : (s.onTeam f).bad = s.bad := rfl
@[simp] theorem onTeam_lost (s : State) (f : Team → Team) : (s.onTeam f).lost = s.lost := rfl
@[simp] theorem onTeam_ports (s : State) (f : Team → Team) : (s.onTeam f).ports = s.ports := rfl
@[simp] theorem onTeam_ftime (s : State) (f : Team → Team) : (s.onTeam f).ftime = s.ftime := rfl
@[simp] theorem onTeam_posts (s : State) (f : Team → Team) : (s.onTeam f).posts = s.posts := rfl
@[simp] theorem onTeam_creqs (s : State) (f : Team → Team) : (s.onTeam f).creqs = s.creqs := rfl
@[simp] theorem onTeam_grants (s : State) (f : Team → Team) : (s.onTeam f).grants = s.grants := rfl
@[simp] theorem onTeam_nextRank (s : State) (f : Team → Team) : (s.onTeam f).nextRank = s.nextRank := rfl
@[simp] theorem onTeam_scheds (s : State) (f : Team → Team) : (s.onTeam f).scheds = s.scheds := rfl
@[simp] theorem onTeam_swCtx (s : State) (f : Team → Team) : (s.onTeam f).swCtx = s.swCtx := rfl
@[simp] theorem onTeam_notices (s : State) (f : Team → Team) : (s.onTeam f).notices = s.notices := rfl
@[simp] theorem onTeam_imgSize (s : State) (f : Team → Team) : (s.onTeam f).imgSize = s.imgSize := rfl
@[simp] theorem onTeam_out (s : State) (f : Team → Team) : (s.onTeam f).out = s.out := rfl
@[simp] theorem onTeam_inbound (s : State) (f : Team → Team) : (s.onTeam f).inbound = s.inbound := rfl
@[simp] theorem onTeam_startLog (s : State) (f : Team → Team) : (s.onTeam f).startLog = s.startLog := rfl
@[simp] theorem onTeam_startCount (s : State) (f : Team → Team) : (s.onTeam f).startCount = s.startCount := rfl
@[simp] theorem onTeam_startStep (s : State) (f : Team → Team) : (s.onTeam f).startStep = s.startStep := rfl
@[simp] theorem onTeam_minSvn (s : State) (f : Team → Team) : (s.onTeam f).minSvn = s.minSvn := rfl
@[simp] theorem onTeam_fusesRead (s : State) (f : Team → Team) : (s.onTeam f).fusesRead = s.fusesRead := rfl
@[simp] theorem onTeam_spares (s : State) (f : Team → Team) : (s.onTeam f).spares = s.spares := rfl
@[simp] theorem onTeam_idKey (s : State) (f : Team → Team) : (s.onTeam f).idKey = s.idKey := rfl
@[simp] theorem onTeam_images (s : State) (f : Team → Team) : (s.onTeam f).images = s.images := rfl
@[simp] theorem onTeam_failRec (s : State) (f : Team → Team) : (s.onTeam f).failRec = s.failRec := rfl
@[simp] theorem onTeam_lastFail (s : State) (f : Team → Team) : (s.onTeam f).lastFail = s.lastFail := rfl
@[simp] theorem onTeam_captures (s : State) (f : Team → Team) : (s.onTeam f).captures = s.captures := rfl
@[simp] theorem onTeam_stop (s : State) (f : Team → Team) : (s.onTeam f).stop = s.stop := rfl
@[simp] theorem onTeam_replay (s : State) (f : Team → Team) : (s.onTeam f).replay = s.replay := rfl
@[simp] theorem onTeam_cmdNext (s : State) (f : Team → Team) : (s.onTeam f).cmdNext = s.cmdNext := rfl
@[simp] theorem onTeam_turn (s : State) (f : Team → Team) : (s.onTeam f).turn = s.turn := rfl
@[simp] theorem onTeam_beacons (s : State) (f : Team → Team) : (s.onTeam f).beacons = s.beacons := rfl
@[simp] theorem onTeam_waking (s : State) (f : Team → Team) : (s.onTeam f).waking = s.waking := rfl
@[simp] theorem onTeam_agenda (s : State) (f : Team → Team) : (s.onTeam f).agenda = s.agenda := rfl
@[simp] theorem onTeam_sel (s : State) (f : Team → Team) : (s.onTeam f).sel = s.sel := rfl
@[simp] theorem onTeam_fresh (s : State) (f : Team → Team) : (s.onTeam f).fresh = s.fresh := rfl
@[simp] theorem onTeam_nextTag (s : State) (f : Team → Team) : (s.onTeam f).nextTag = s.nextTag := rfl
@[simp] theorem onTeam_nextAge (s : State) (f : Team → Team) : (s.onTeam f).nextAge = s.nextAge := rfl

/-! ### setBlock -/

@[simp] theorem setBlock_ac (s : State) (k : Nat) (x : Block) : (s.setBlock k x).ac = s.ac := rfl
@[simp] theorem setBlock_power (s : State) (k : Nat) (x : Block) : (s.setBlock k x).power = s.power := rfl
@[simp] theorem setBlock_team (s : State) (k : Nat) (x : Block) : (s.setBlock k x).team = s.team := rfl
@[simp] theorem setBlock_teams (s : State) (k : Nat) (x : Block) : (s.setBlock k x).teams = s.teams := rfl
@[simp] theorem setBlock_busy (s : State) (k : Nat) (x : Block) : (s.setBlock k x).busy = s.busy := rfl
@[simp] theorem setBlock_issuer (s : State) (k : Nat) (x : Block) : (s.setBlock k x).issuer = s.issuer := rfl
@[simp] theorem setBlock_blocks (s : State) (k : Nat) (x : Block) : (s.setBlock k x).blocks = mput s.blocks k x := rfl
@[simp] theorem setBlock_nextBlock (s : State) (k : Nat) (x : Block) : (s.setBlock k x).nextBlock = s.nextBlock := rfl
@[simp] theorem setBlock_grids (s : State) (k : Nat) (x : Block) : (s.setBlock k x).grids = s.grids := rfl
@[simp] theorem setBlock_nextGrid (s : State) (k : Nat) (x : Block) : (s.setBlock k x).nextGrid = s.nextGrid := rfl
@[simp] theorem setBlock_ctxs (s : State) (k : Nat) (x : Block) : (s.setBlock k x).ctxs = s.ctxs := rfl
@[simp] theorem setBlock_cores (s : State) (k : Nat) (x : Block) : (s.setBlock k x).cores = s.cores := rfl
@[simp] theorem setBlock_clusters (s : State) (k : Nat) (x : Block) : (s.setBlock k x).clusters = s.clusters := rfl
@[simp] theorem setBlock_dies (s : State) (k : Nat) (x : Block) : (s.setBlock k x).dies = s.dies := rfl
@[simp] theorem setBlock_nextJob (s : State) (k : Nat) (x : Block) : (s.setBlock k x).nextJob = s.nextJob := rfl
@[simp] theorem setBlock_queues (s : State) (k : Nat) (x : Block) : (s.setBlock k x).queues = s.queues := rfl
@[simp] theorem setBlock_queueFree (s : State) (k : Nat) (x : Block) : (s.setBlock k x).queueFree = s.queueFree := rfl
@[simp] theorem setBlock_colls (s : State) (k : Nat) (x : Block) : (s.setBlock k x).colls = s.colls := rfl
@[simp] theorem setBlock_mem (s : State) (k : Nat) (x : Block) : (s.setBlock k x).mem = s.mem := rfl
@[simp] theorem setBlock_split (s : State) (k : Nat) (x : Block) : (s.setBlock k x).split = s.split := rfl
@[simp] theorem setBlock_launched (s : State) (k : Nat) (x : Block) : (s.setBlock k x).launched = s.launched := rfl
@[simp] theorem setBlock_preq (s : State) (k : Nat) (x : Block) : (s.setBlock k x).preq = s.preq := rfl
@[simp] theorem setBlock_nextSeq (s : State) (k : Nat) (x : Block) : (s.setBlock k x).nextSeq = s.nextSeq := rfl
@[simp] theorem setBlock_prlate (s : State) (k : Nat) (x : Block) : (s.setBlock k x).prlate = s.prlate := rfl
@[simp] theorem setBlock_cecount (s : State) (k : Nat) (x : Block) : (s.setBlock k x).cecount = s.cecount := rfl
@[simp] theorem setBlock_bad (s : State) (k : Nat) (x : Block) : (s.setBlock k x).bad = s.bad := rfl
@[simp] theorem setBlock_lost (s : State) (k : Nat) (x : Block) : (s.setBlock k x).lost = s.lost := rfl
@[simp] theorem setBlock_ports (s : State) (k : Nat) (x : Block) : (s.setBlock k x).ports = s.ports := rfl
@[simp] theorem setBlock_ftime (s : State) (k : Nat) (x : Block) : (s.setBlock k x).ftime = s.ftime := rfl
@[simp] theorem setBlock_posts (s : State) (k : Nat) (x : Block) : (s.setBlock k x).posts = s.posts := rfl
@[simp] theorem setBlock_creqs (s : State) (k : Nat) (x : Block) : (s.setBlock k x).creqs = s.creqs := rfl
@[simp] theorem setBlock_grants (s : State) (k : Nat) (x : Block) : (s.setBlock k x).grants = s.grants := rfl
@[simp] theorem setBlock_nextRank (s : State) (k : Nat) (x : Block) : (s.setBlock k x).nextRank = s.nextRank := rfl
@[simp] theorem setBlock_scheds (s : State) (k : Nat) (x : Block) : (s.setBlock k x).scheds = s.scheds := rfl
@[simp] theorem setBlock_swCtx (s : State) (k : Nat) (x : Block) : (s.setBlock k x).swCtx = s.swCtx := rfl
@[simp] theorem setBlock_notices (s : State) (k : Nat) (x : Block) : (s.setBlock k x).notices = s.notices := rfl
@[simp] theorem setBlock_imgSize (s : State) (k : Nat) (x : Block) : (s.setBlock k x).imgSize = s.imgSize := rfl
@[simp] theorem setBlock_out (s : State) (k : Nat) (x : Block) : (s.setBlock k x).out = s.out := rfl
@[simp] theorem setBlock_inbound (s : State) (k : Nat) (x : Block) : (s.setBlock k x).inbound = s.inbound := rfl
@[simp] theorem setBlock_startLog (s : State) (k : Nat) (x : Block) : (s.setBlock k x).startLog = s.startLog := rfl
@[simp] theorem setBlock_startCount (s : State) (k : Nat) (x : Block) : (s.setBlock k x).startCount = s.startCount := rfl
@[simp] theorem setBlock_startStep (s : State) (k : Nat) (x : Block) : (s.setBlock k x).startStep = s.startStep := rfl
@[simp] theorem setBlock_minSvn (s : State) (k : Nat) (x : Block) : (s.setBlock k x).minSvn = s.minSvn := rfl
@[simp] theorem setBlock_fusesRead (s : State) (k : Nat) (x : Block) : (s.setBlock k x).fusesRead = s.fusesRead := rfl
@[simp] theorem setBlock_spares (s : State) (k : Nat) (x : Block) : (s.setBlock k x).spares = s.spares := rfl
@[simp] theorem setBlock_idKey (s : State) (k : Nat) (x : Block) : (s.setBlock k x).idKey = s.idKey := rfl
@[simp] theorem setBlock_images (s : State) (k : Nat) (x : Block) : (s.setBlock k x).images = s.images := rfl
@[simp] theorem setBlock_failRec (s : State) (k : Nat) (x : Block) : (s.setBlock k x).failRec = s.failRec := rfl
@[simp] theorem setBlock_lastFail (s : State) (k : Nat) (x : Block) : (s.setBlock k x).lastFail = s.lastFail := rfl
@[simp] theorem setBlock_captures (s : State) (k : Nat) (x : Block) : (s.setBlock k x).captures = s.captures := rfl
@[simp] theorem setBlock_stop (s : State) (k : Nat) (x : Block) : (s.setBlock k x).stop = s.stop := rfl
@[simp] theorem setBlock_replay (s : State) (k : Nat) (x : Block) : (s.setBlock k x).replay = s.replay := rfl
@[simp] theorem setBlock_cmdNext (s : State) (k : Nat) (x : Block) : (s.setBlock k x).cmdNext = s.cmdNext := rfl
@[simp] theorem setBlock_turn (s : State) (k : Nat) (x : Block) : (s.setBlock k x).turn = s.turn := rfl
@[simp] theorem setBlock_beacons (s : State) (k : Nat) (x : Block) : (s.setBlock k x).beacons = s.beacons := rfl
@[simp] theorem setBlock_waking (s : State) (k : Nat) (x : Block) : (s.setBlock k x).waking = s.waking := rfl
@[simp] theorem setBlock_agenda (s : State) (k : Nat) (x : Block) : (s.setBlock k x).agenda = s.agenda := rfl
@[simp] theorem setBlock_sel (s : State) (k : Nat) (x : Block) : (s.setBlock k x).sel = s.sel := rfl
@[simp] theorem setBlock_fresh (s : State) (k : Nat) (x : Block) : (s.setBlock k x).fresh = s.fresh := rfl
@[simp] theorem setBlock_nextTag (s : State) (k : Nat) (x : Block) : (s.setBlock k x).nextTag = s.nextTag := rfl
@[simp] theorem setBlock_nextAge (s : State) (k : Nat) (x : Block) : (s.setBlock k x).nextAge = s.nextAge := rfl

/-! ### onBlock -/

@[simp] theorem onBlock_ac (s : State) (k : Nat) (f : Block → Block) : (s.onBlock k f).ac = s.ac := rfl
@[simp] theorem onBlock_power (s : State) (k : Nat) (f : Block → Block) : (s.onBlock k f).power = s.power := rfl
@[simp] theorem onBlock_team (s : State) (k : Nat) (f : Block → Block) : (s.onBlock k f).team = s.team := rfl
@[simp] theorem onBlock_teams (s : State) (k : Nat) (f : Block → Block) : (s.onBlock k f).teams = s.teams := rfl
@[simp] theorem onBlock_busy (s : State) (k : Nat) (f : Block → Block) : (s.onBlock k f).busy = s.busy := rfl
@[simp] theorem onBlock_issuer (s : State) (k : Nat) (f : Block → Block) : (s.onBlock k f).issuer = s.issuer := rfl
@[simp] theorem onBlock_blocks (s : State) (k : Nat) (f : Block → Block) : (s.onBlock k f).blocks = mput s.blocks k (f (s.block k)) := rfl
@[simp] theorem onBlock_nextBlock (s : State) (k : Nat) (f : Block → Block) : (s.onBlock k f).nextBlock = s.nextBlock := rfl
@[simp] theorem onBlock_grids (s : State) (k : Nat) (f : Block → Block) : (s.onBlock k f).grids = s.grids := rfl
@[simp] theorem onBlock_nextGrid (s : State) (k : Nat) (f : Block → Block) : (s.onBlock k f).nextGrid = s.nextGrid := rfl
@[simp] theorem onBlock_ctxs (s : State) (k : Nat) (f : Block → Block) : (s.onBlock k f).ctxs = s.ctxs := rfl
@[simp] theorem onBlock_cores (s : State) (k : Nat) (f : Block → Block) : (s.onBlock k f).cores = s.cores := rfl
@[simp] theorem onBlock_clusters (s : State) (k : Nat) (f : Block → Block) : (s.onBlock k f).clusters = s.clusters := rfl
@[simp] theorem onBlock_dies (s : State) (k : Nat) (f : Block → Block) : (s.onBlock k f).dies = s.dies := rfl
@[simp] theorem onBlock_nextJob (s : State) (k : Nat) (f : Block → Block) : (s.onBlock k f).nextJob = s.nextJob := rfl
@[simp] theorem onBlock_queues (s : State) (k : Nat) (f : Block → Block) : (s.onBlock k f).queues = s.queues := rfl
@[simp] theorem onBlock_queueFree (s : State) (k : Nat) (f : Block → Block) : (s.onBlock k f).queueFree = s.queueFree := rfl
@[simp] theorem onBlock_colls (s : State) (k : Nat) (f : Block → Block) : (s.onBlock k f).colls = s.colls := rfl
@[simp] theorem onBlock_mem (s : State) (k : Nat) (f : Block → Block) : (s.onBlock k f).mem = s.mem := rfl
@[simp] theorem onBlock_split (s : State) (k : Nat) (f : Block → Block) : (s.onBlock k f).split = s.split := rfl
@[simp] theorem onBlock_launched (s : State) (k : Nat) (f : Block → Block) : (s.onBlock k f).launched = s.launched := rfl
@[simp] theorem onBlock_preq (s : State) (k : Nat) (f : Block → Block) : (s.onBlock k f).preq = s.preq := rfl
@[simp] theorem onBlock_nextSeq (s : State) (k : Nat) (f : Block → Block) : (s.onBlock k f).nextSeq = s.nextSeq := rfl
@[simp] theorem onBlock_prlate (s : State) (k : Nat) (f : Block → Block) : (s.onBlock k f).prlate = s.prlate := rfl
@[simp] theorem onBlock_cecount (s : State) (k : Nat) (f : Block → Block) : (s.onBlock k f).cecount = s.cecount := rfl
@[simp] theorem onBlock_bad (s : State) (k : Nat) (f : Block → Block) : (s.onBlock k f).bad = s.bad := rfl
@[simp] theorem onBlock_lost (s : State) (k : Nat) (f : Block → Block) : (s.onBlock k f).lost = s.lost := rfl
@[simp] theorem onBlock_ports (s : State) (k : Nat) (f : Block → Block) : (s.onBlock k f).ports = s.ports := rfl
@[simp] theorem onBlock_ftime (s : State) (k : Nat) (f : Block → Block) : (s.onBlock k f).ftime = s.ftime := rfl
@[simp] theorem onBlock_posts (s : State) (k : Nat) (f : Block → Block) : (s.onBlock k f).posts = s.posts := rfl
@[simp] theorem onBlock_creqs (s : State) (k : Nat) (f : Block → Block) : (s.onBlock k f).creqs = s.creqs := rfl
@[simp] theorem onBlock_grants (s : State) (k : Nat) (f : Block → Block) : (s.onBlock k f).grants = s.grants := rfl
@[simp] theorem onBlock_nextRank (s : State) (k : Nat) (f : Block → Block) : (s.onBlock k f).nextRank = s.nextRank := rfl
@[simp] theorem onBlock_scheds (s : State) (k : Nat) (f : Block → Block) : (s.onBlock k f).scheds = s.scheds := rfl
@[simp] theorem onBlock_swCtx (s : State) (k : Nat) (f : Block → Block) : (s.onBlock k f).swCtx = s.swCtx := rfl
@[simp] theorem onBlock_notices (s : State) (k : Nat) (f : Block → Block) : (s.onBlock k f).notices = s.notices := rfl
@[simp] theorem onBlock_imgSize (s : State) (k : Nat) (f : Block → Block) : (s.onBlock k f).imgSize = s.imgSize := rfl
@[simp] theorem onBlock_out (s : State) (k : Nat) (f : Block → Block) : (s.onBlock k f).out = s.out := rfl
@[simp] theorem onBlock_inbound (s : State) (k : Nat) (f : Block → Block) : (s.onBlock k f).inbound = s.inbound := rfl
@[simp] theorem onBlock_startLog (s : State) (k : Nat) (f : Block → Block) : (s.onBlock k f).startLog = s.startLog := rfl
@[simp] theorem onBlock_startCount (s : State) (k : Nat) (f : Block → Block) : (s.onBlock k f).startCount = s.startCount := rfl
@[simp] theorem onBlock_startStep (s : State) (k : Nat) (f : Block → Block) : (s.onBlock k f).startStep = s.startStep := rfl
@[simp] theorem onBlock_minSvn (s : State) (k : Nat) (f : Block → Block) : (s.onBlock k f).minSvn = s.minSvn := rfl
@[simp] theorem onBlock_fusesRead (s : State) (k : Nat) (f : Block → Block) : (s.onBlock k f).fusesRead = s.fusesRead := rfl
@[simp] theorem onBlock_spares (s : State) (k : Nat) (f : Block → Block) : (s.onBlock k f).spares = s.spares := rfl
@[simp] theorem onBlock_idKey (s : State) (k : Nat) (f : Block → Block) : (s.onBlock k f).idKey = s.idKey := rfl
@[simp] theorem onBlock_images (s : State) (k : Nat) (f : Block → Block) : (s.onBlock k f).images = s.images := rfl
@[simp] theorem onBlock_failRec (s : State) (k : Nat) (f : Block → Block) : (s.onBlock k f).failRec = s.failRec := rfl
@[simp] theorem onBlock_lastFail (s : State) (k : Nat) (f : Block → Block) : (s.onBlock k f).lastFail = s.lastFail := rfl
@[simp] theorem onBlock_captures (s : State) (k : Nat) (f : Block → Block) : (s.onBlock k f).captures = s.captures := rfl
@[simp] theorem onBlock_stop (s : State) (k : Nat) (f : Block → Block) : (s.onBlock k f).stop = s.stop := rfl
@[simp] theorem onBlock_replay (s : State) (k : Nat) (f : Block → Block) : (s.onBlock k f).replay = s.replay := rfl
@[simp] theorem onBlock_cmdNext (s : State) (k : Nat) (f : Block → Block) : (s.onBlock k f).cmdNext = s.cmdNext := rfl
@[simp] theorem onBlock_turn (s : State) (k : Nat) (f : Block → Block) : (s.onBlock k f).turn = s.turn := rfl
@[simp] theorem onBlock_beacons (s : State) (k : Nat) (f : Block → Block) : (s.onBlock k f).beacons = s.beacons := rfl
@[simp] theorem onBlock_waking (s : State) (k : Nat) (f : Block → Block) : (s.onBlock k f).waking = s.waking := rfl
@[simp] theorem onBlock_agenda (s : State) (k : Nat) (f : Block → Block) : (s.onBlock k f).agenda = s.agenda := rfl
@[simp] theorem onBlock_sel (s : State) (k : Nat) (f : Block → Block) : (s.onBlock k f).sel = s.sel := rfl
@[simp] theorem onBlock_fresh (s : State) (k : Nat) (f : Block → Block) : (s.onBlock k f).fresh = s.fresh := rfl
@[simp] theorem onBlock_nextTag (s : State) (k : Nat) (f : Block → Block) : (s.onBlock k f).nextTag = s.nextTag := rfl
@[simp] theorem onBlock_nextAge (s : State) (k : Nat) (f : Block → Block) : (s.onBlock k f).nextAge = s.nextAge := rfl

/-! ### setGrid -/

@[simp] theorem setGrid_ac (s : State) (k : Nat) (x : Grid) : (s.setGrid k x).ac = s.ac := rfl
@[simp] theorem setGrid_power (s : State) (k : Nat) (x : Grid) : (s.setGrid k x).power = s.power := rfl
@[simp] theorem setGrid_team (s : State) (k : Nat) (x : Grid) : (s.setGrid k x).team = s.team := rfl
@[simp] theorem setGrid_teams (s : State) (k : Nat) (x : Grid) : (s.setGrid k x).teams = s.teams := rfl
@[simp] theorem setGrid_busy (s : State) (k : Nat) (x : Grid) : (s.setGrid k x).busy = s.busy := rfl
@[simp] theorem setGrid_issuer (s : State) (k : Nat) (x : Grid) : (s.setGrid k x).issuer = s.issuer := rfl
@[simp] theorem setGrid_blocks (s : State) (k : Nat) (x : Grid) : (s.setGrid k x).blocks = s.blocks := rfl
@[simp] theorem setGrid_nextBlock (s : State) (k : Nat) (x : Grid) : (s.setGrid k x).nextBlock = s.nextBlock := rfl
@[simp] theorem setGrid_grids (s : State) (k : Nat) (x : Grid) : (s.setGrid k x).grids = mput s.grids k x := rfl
@[simp] theorem setGrid_nextGrid (s : State) (k : Nat) (x : Grid) : (s.setGrid k x).nextGrid = s.nextGrid := rfl
@[simp] theorem setGrid_ctxs (s : State) (k : Nat) (x : Grid) : (s.setGrid k x).ctxs = s.ctxs := rfl
@[simp] theorem setGrid_cores (s : State) (k : Nat) (x : Grid) : (s.setGrid k x).cores = s.cores := rfl
@[simp] theorem setGrid_clusters (s : State) (k : Nat) (x : Grid) : (s.setGrid k x).clusters = s.clusters := rfl
@[simp] theorem setGrid_dies (s : State) (k : Nat) (x : Grid) : (s.setGrid k x).dies = s.dies := rfl
@[simp] theorem setGrid_nextJob (s : State) (k : Nat) (x : Grid) : (s.setGrid k x).nextJob = s.nextJob := rfl
@[simp] theorem setGrid_queues (s : State) (k : Nat) (x : Grid) : (s.setGrid k x).queues = s.queues := rfl
@[simp] theorem setGrid_queueFree (s : State) (k : Nat) (x : Grid) : (s.setGrid k x).queueFree = s.queueFree := rfl
@[simp] theorem setGrid_colls (s : State) (k : Nat) (x : Grid) : (s.setGrid k x).colls = s.colls := rfl
@[simp] theorem setGrid_mem (s : State) (k : Nat) (x : Grid) : (s.setGrid k x).mem = s.mem := rfl
@[simp] theorem setGrid_split (s : State) (k : Nat) (x : Grid) : (s.setGrid k x).split = s.split := rfl
@[simp] theorem setGrid_launched (s : State) (k : Nat) (x : Grid) : (s.setGrid k x).launched = s.launched := rfl
@[simp] theorem setGrid_preq (s : State) (k : Nat) (x : Grid) : (s.setGrid k x).preq = s.preq := rfl
@[simp] theorem setGrid_nextSeq (s : State) (k : Nat) (x : Grid) : (s.setGrid k x).nextSeq = s.nextSeq := rfl
@[simp] theorem setGrid_prlate (s : State) (k : Nat) (x : Grid) : (s.setGrid k x).prlate = s.prlate := rfl
@[simp] theorem setGrid_cecount (s : State) (k : Nat) (x : Grid) : (s.setGrid k x).cecount = s.cecount := rfl
@[simp] theorem setGrid_bad (s : State) (k : Nat) (x : Grid) : (s.setGrid k x).bad = s.bad := rfl
@[simp] theorem setGrid_lost (s : State) (k : Nat) (x : Grid) : (s.setGrid k x).lost = s.lost := rfl
@[simp] theorem setGrid_ports (s : State) (k : Nat) (x : Grid) : (s.setGrid k x).ports = s.ports := rfl
@[simp] theorem setGrid_ftime (s : State) (k : Nat) (x : Grid) : (s.setGrid k x).ftime = s.ftime := rfl
@[simp] theorem setGrid_posts (s : State) (k : Nat) (x : Grid) : (s.setGrid k x).posts = s.posts := rfl
@[simp] theorem setGrid_creqs (s : State) (k : Nat) (x : Grid) : (s.setGrid k x).creqs = s.creqs := rfl
@[simp] theorem setGrid_grants (s : State) (k : Nat) (x : Grid) : (s.setGrid k x).grants = s.grants := rfl
@[simp] theorem setGrid_nextRank (s : State) (k : Nat) (x : Grid) : (s.setGrid k x).nextRank = s.nextRank := rfl
@[simp] theorem setGrid_scheds (s : State) (k : Nat) (x : Grid) : (s.setGrid k x).scheds = s.scheds := rfl
@[simp] theorem setGrid_swCtx (s : State) (k : Nat) (x : Grid) : (s.setGrid k x).swCtx = s.swCtx := rfl
@[simp] theorem setGrid_notices (s : State) (k : Nat) (x : Grid) : (s.setGrid k x).notices = s.notices := rfl
@[simp] theorem setGrid_imgSize (s : State) (k : Nat) (x : Grid) : (s.setGrid k x).imgSize = s.imgSize := rfl
@[simp] theorem setGrid_out (s : State) (k : Nat) (x : Grid) : (s.setGrid k x).out = s.out := rfl
@[simp] theorem setGrid_inbound (s : State) (k : Nat) (x : Grid) : (s.setGrid k x).inbound = s.inbound := rfl
@[simp] theorem setGrid_startLog (s : State) (k : Nat) (x : Grid) : (s.setGrid k x).startLog = s.startLog := rfl
@[simp] theorem setGrid_startCount (s : State) (k : Nat) (x : Grid) : (s.setGrid k x).startCount = s.startCount := rfl
@[simp] theorem setGrid_startStep (s : State) (k : Nat) (x : Grid) : (s.setGrid k x).startStep = s.startStep := rfl
@[simp] theorem setGrid_minSvn (s : State) (k : Nat) (x : Grid) : (s.setGrid k x).minSvn = s.minSvn := rfl
@[simp] theorem setGrid_fusesRead (s : State) (k : Nat) (x : Grid) : (s.setGrid k x).fusesRead = s.fusesRead := rfl
@[simp] theorem setGrid_spares (s : State) (k : Nat) (x : Grid) : (s.setGrid k x).spares = s.spares := rfl
@[simp] theorem setGrid_idKey (s : State) (k : Nat) (x : Grid) : (s.setGrid k x).idKey = s.idKey := rfl
@[simp] theorem setGrid_images (s : State) (k : Nat) (x : Grid) : (s.setGrid k x).images = s.images := rfl
@[simp] theorem setGrid_failRec (s : State) (k : Nat) (x : Grid) : (s.setGrid k x).failRec = s.failRec := rfl
@[simp] theorem setGrid_lastFail (s : State) (k : Nat) (x : Grid) : (s.setGrid k x).lastFail = s.lastFail := rfl
@[simp] theorem setGrid_captures (s : State) (k : Nat) (x : Grid) : (s.setGrid k x).captures = s.captures := rfl
@[simp] theorem setGrid_stop (s : State) (k : Nat) (x : Grid) : (s.setGrid k x).stop = s.stop := rfl
@[simp] theorem setGrid_replay (s : State) (k : Nat) (x : Grid) : (s.setGrid k x).replay = s.replay := rfl
@[simp] theorem setGrid_cmdNext (s : State) (k : Nat) (x : Grid) : (s.setGrid k x).cmdNext = s.cmdNext := rfl
@[simp] theorem setGrid_turn (s : State) (k : Nat) (x : Grid) : (s.setGrid k x).turn = s.turn := rfl
@[simp] theorem setGrid_beacons (s : State) (k : Nat) (x : Grid) : (s.setGrid k x).beacons = s.beacons := rfl
@[simp] theorem setGrid_waking (s : State) (k : Nat) (x : Grid) : (s.setGrid k x).waking = s.waking := rfl
@[simp] theorem setGrid_agenda (s : State) (k : Nat) (x : Grid) : (s.setGrid k x).agenda = s.agenda := rfl
@[simp] theorem setGrid_sel (s : State) (k : Nat) (x : Grid) : (s.setGrid k x).sel = s.sel := rfl
@[simp] theorem setGrid_fresh (s : State) (k : Nat) (x : Grid) : (s.setGrid k x).fresh = s.fresh := rfl
@[simp] theorem setGrid_nextTag (s : State) (k : Nat) (x : Grid) : (s.setGrid k x).nextTag = s.nextTag := rfl
@[simp] theorem setGrid_nextAge (s : State) (k : Nat) (x : Grid) : (s.setGrid k x).nextAge = s.nextAge := rfl

/-! ### onGrid -/

@[simp] theorem onGrid_ac (s : State) (k : Nat) (f : Grid → Grid) : (s.onGrid k f).ac = s.ac := rfl
@[simp] theorem onGrid_power (s : State) (k : Nat) (f : Grid → Grid) : (s.onGrid k f).power = s.power := rfl
@[simp] theorem onGrid_team (s : State) (k : Nat) (f : Grid → Grid) : (s.onGrid k f).team = s.team := rfl
@[simp] theorem onGrid_teams (s : State) (k : Nat) (f : Grid → Grid) : (s.onGrid k f).teams = s.teams := rfl
@[simp] theorem onGrid_busy (s : State) (k : Nat) (f : Grid → Grid) : (s.onGrid k f).busy = s.busy := rfl
@[simp] theorem onGrid_issuer (s : State) (k : Nat) (f : Grid → Grid) : (s.onGrid k f).issuer = s.issuer := rfl
@[simp] theorem onGrid_blocks (s : State) (k : Nat) (f : Grid → Grid) : (s.onGrid k f).blocks = s.blocks := rfl
@[simp] theorem onGrid_nextBlock (s : State) (k : Nat) (f : Grid → Grid) : (s.onGrid k f).nextBlock = s.nextBlock := rfl
@[simp] theorem onGrid_grids (s : State) (k : Nat) (f : Grid → Grid) : (s.onGrid k f).grids = mput s.grids k (f (s.grid k)) := rfl
@[simp] theorem onGrid_nextGrid (s : State) (k : Nat) (f : Grid → Grid) : (s.onGrid k f).nextGrid = s.nextGrid := rfl
@[simp] theorem onGrid_ctxs (s : State) (k : Nat) (f : Grid → Grid) : (s.onGrid k f).ctxs = s.ctxs := rfl
@[simp] theorem onGrid_cores (s : State) (k : Nat) (f : Grid → Grid) : (s.onGrid k f).cores = s.cores := rfl
@[simp] theorem onGrid_clusters (s : State) (k : Nat) (f : Grid → Grid) : (s.onGrid k f).clusters = s.clusters := rfl
@[simp] theorem onGrid_dies (s : State) (k : Nat) (f : Grid → Grid) : (s.onGrid k f).dies = s.dies := rfl
@[simp] theorem onGrid_nextJob (s : State) (k : Nat) (f : Grid → Grid) : (s.onGrid k f).nextJob = s.nextJob := rfl
@[simp] theorem onGrid_queues (s : State) (k : Nat) (f : Grid → Grid) : (s.onGrid k f).queues = s.queues := rfl
@[simp] theorem onGrid_queueFree (s : State) (k : Nat) (f : Grid → Grid) : (s.onGrid k f).queueFree = s.queueFree := rfl
@[simp] theorem onGrid_colls (s : State) (k : Nat) (f : Grid → Grid) : (s.onGrid k f).colls = s.colls := rfl
@[simp] theorem onGrid_mem (s : State) (k : Nat) (f : Grid → Grid) : (s.onGrid k f).mem = s.mem := rfl
@[simp] theorem onGrid_split (s : State) (k : Nat) (f : Grid → Grid) : (s.onGrid k f).split = s.split := rfl
@[simp] theorem onGrid_launched (s : State) (k : Nat) (f : Grid → Grid) : (s.onGrid k f).launched = s.launched := rfl
@[simp] theorem onGrid_preq (s : State) (k : Nat) (f : Grid → Grid) : (s.onGrid k f).preq = s.preq := rfl
@[simp] theorem onGrid_nextSeq (s : State) (k : Nat) (f : Grid → Grid) : (s.onGrid k f).nextSeq = s.nextSeq := rfl
@[simp] theorem onGrid_prlate (s : State) (k : Nat) (f : Grid → Grid) : (s.onGrid k f).prlate = s.prlate := rfl
@[simp] theorem onGrid_cecount (s : State) (k : Nat) (f : Grid → Grid) : (s.onGrid k f).cecount = s.cecount := rfl
@[simp] theorem onGrid_bad (s : State) (k : Nat) (f : Grid → Grid) : (s.onGrid k f).bad = s.bad := rfl
@[simp] theorem onGrid_lost (s : State) (k : Nat) (f : Grid → Grid) : (s.onGrid k f).lost = s.lost := rfl
@[simp] theorem onGrid_ports (s : State) (k : Nat) (f : Grid → Grid) : (s.onGrid k f).ports = s.ports := rfl
@[simp] theorem onGrid_ftime (s : State) (k : Nat) (f : Grid → Grid) : (s.onGrid k f).ftime = s.ftime := rfl
@[simp] theorem onGrid_posts (s : State) (k : Nat) (f : Grid → Grid) : (s.onGrid k f).posts = s.posts := rfl
@[simp] theorem onGrid_creqs (s : State) (k : Nat) (f : Grid → Grid) : (s.onGrid k f).creqs = s.creqs := rfl
@[simp] theorem onGrid_grants (s : State) (k : Nat) (f : Grid → Grid) : (s.onGrid k f).grants = s.grants := rfl
@[simp] theorem onGrid_nextRank (s : State) (k : Nat) (f : Grid → Grid) : (s.onGrid k f).nextRank = s.nextRank := rfl
@[simp] theorem onGrid_scheds (s : State) (k : Nat) (f : Grid → Grid) : (s.onGrid k f).scheds = s.scheds := rfl
@[simp] theorem onGrid_swCtx (s : State) (k : Nat) (f : Grid → Grid) : (s.onGrid k f).swCtx = s.swCtx := rfl
@[simp] theorem onGrid_notices (s : State) (k : Nat) (f : Grid → Grid) : (s.onGrid k f).notices = s.notices := rfl
@[simp] theorem onGrid_imgSize (s : State) (k : Nat) (f : Grid → Grid) : (s.onGrid k f).imgSize = s.imgSize := rfl
@[simp] theorem onGrid_out (s : State) (k : Nat) (f : Grid → Grid) : (s.onGrid k f).out = s.out := rfl
@[simp] theorem onGrid_inbound (s : State) (k : Nat) (f : Grid → Grid) : (s.onGrid k f).inbound = s.inbound := rfl
@[simp] theorem onGrid_startLog (s : State) (k : Nat) (f : Grid → Grid) : (s.onGrid k f).startLog = s.startLog := rfl
@[simp] theorem onGrid_startCount (s : State) (k : Nat) (f : Grid → Grid) : (s.onGrid k f).startCount = s.startCount := rfl
@[simp] theorem onGrid_startStep (s : State) (k : Nat) (f : Grid → Grid) : (s.onGrid k f).startStep = s.startStep := rfl
@[simp] theorem onGrid_minSvn (s : State) (k : Nat) (f : Grid → Grid) : (s.onGrid k f).minSvn = s.minSvn := rfl
@[simp] theorem onGrid_fusesRead (s : State) (k : Nat) (f : Grid → Grid) : (s.onGrid k f).fusesRead = s.fusesRead := rfl
@[simp] theorem onGrid_spares (s : State) (k : Nat) (f : Grid → Grid) : (s.onGrid k f).spares = s.spares := rfl
@[simp] theorem onGrid_idKey (s : State) (k : Nat) (f : Grid → Grid) : (s.onGrid k f).idKey = s.idKey := rfl
@[simp] theorem onGrid_images (s : State) (k : Nat) (f : Grid → Grid) : (s.onGrid k f).images = s.images := rfl
@[simp] theorem onGrid_failRec (s : State) (k : Nat) (f : Grid → Grid) : (s.onGrid k f).failRec = s.failRec := rfl
@[simp] theorem onGrid_lastFail (s : State) (k : Nat) (f : Grid → Grid) : (s.onGrid k f).lastFail = s.lastFail := rfl
@[simp] theorem onGrid_captures (s : State) (k : Nat) (f : Grid → Grid) : (s.onGrid k f).captures = s.captures := rfl
@[simp] theorem onGrid_stop (s : State) (k : Nat) (f : Grid → Grid) : (s.onGrid k f).stop = s.stop := rfl
@[simp] theorem onGrid_replay (s : State) (k : Nat) (f : Grid → Grid) : (s.onGrid k f).replay = s.replay := rfl
@[simp] theorem onGrid_cmdNext (s : State) (k : Nat) (f : Grid → Grid) : (s.onGrid k f).cmdNext = s.cmdNext := rfl
@[simp] theorem onGrid_turn (s : State) (k : Nat) (f : Grid → Grid) : (s.onGrid k f).turn = s.turn := rfl
@[simp] theorem onGrid_beacons (s : State) (k : Nat) (f : Grid → Grid) : (s.onGrid k f).beacons = s.beacons := rfl
@[simp] theorem onGrid_waking (s : State) (k : Nat) (f : Grid → Grid) : (s.onGrid k f).waking = s.waking := rfl
@[simp] theorem onGrid_agenda (s : State) (k : Nat) (f : Grid → Grid) : (s.onGrid k f).agenda = s.agenda := rfl
@[simp] theorem onGrid_sel (s : State) (k : Nat) (f : Grid → Grid) : (s.onGrid k f).sel = s.sel := rfl
@[simp] theorem onGrid_fresh (s : State) (k : Nat) (f : Grid → Grid) : (s.onGrid k f).fresh = s.fresh := rfl
@[simp] theorem onGrid_nextTag (s : State) (k : Nat) (f : Grid → Grid) : (s.onGrid k f).nextTag = s.nextTag := rfl
@[simp] theorem onGrid_nextAge (s : State) (k : Nat) (f : Grid → Grid) : (s.onGrid k f).nextAge = s.nextAge := rfl

/-! ### setCtx -/

@[simp] theorem setCtx_ac (s : State) (k : Nat) (x : Ctx) : (s.setCtx k x).ac = s.ac := rfl
@[simp] theorem setCtx_power (s : State) (k : Nat) (x : Ctx) : (s.setCtx k x).power = s.power := rfl
@[simp] theorem setCtx_team (s : State) (k : Nat) (x : Ctx) : (s.setCtx k x).team = s.team := rfl
@[simp] theorem setCtx_teams (s : State) (k : Nat) (x : Ctx) : (s.setCtx k x).teams = s.teams := rfl
@[simp] theorem setCtx_busy (s : State) (k : Nat) (x : Ctx) : (s.setCtx k x).busy = s.busy := rfl
@[simp] theorem setCtx_issuer (s : State) (k : Nat) (x : Ctx) : (s.setCtx k x).issuer = s.issuer := rfl
@[simp] theorem setCtx_blocks (s : State) (k : Nat) (x : Ctx) : (s.setCtx k x).blocks = s.blocks := rfl
@[simp] theorem setCtx_nextBlock (s : State) (k : Nat) (x : Ctx) : (s.setCtx k x).nextBlock = s.nextBlock := rfl
@[simp] theorem setCtx_grids (s : State) (k : Nat) (x : Ctx) : (s.setCtx k x).grids = s.grids := rfl
@[simp] theorem setCtx_nextGrid (s : State) (k : Nat) (x : Ctx) : (s.setCtx k x).nextGrid = s.nextGrid := rfl
@[simp] theorem setCtx_ctxs (s : State) (k : Nat) (x : Ctx) : (s.setCtx k x).ctxs = mput s.ctxs k x := rfl
@[simp] theorem setCtx_cores (s : State) (k : Nat) (x : Ctx) : (s.setCtx k x).cores = s.cores := rfl
@[simp] theorem setCtx_clusters (s : State) (k : Nat) (x : Ctx) : (s.setCtx k x).clusters = s.clusters := rfl
@[simp] theorem setCtx_dies (s : State) (k : Nat) (x : Ctx) : (s.setCtx k x).dies = s.dies := rfl
@[simp] theorem setCtx_nextJob (s : State) (k : Nat) (x : Ctx) : (s.setCtx k x).nextJob = s.nextJob := rfl
@[simp] theorem setCtx_queues (s : State) (k : Nat) (x : Ctx) : (s.setCtx k x).queues = s.queues := rfl
@[simp] theorem setCtx_queueFree (s : State) (k : Nat) (x : Ctx) : (s.setCtx k x).queueFree = s.queueFree := rfl
@[simp] theorem setCtx_colls (s : State) (k : Nat) (x : Ctx) : (s.setCtx k x).colls = s.colls := rfl
@[simp] theorem setCtx_mem (s : State) (k : Nat) (x : Ctx) : (s.setCtx k x).mem = s.mem := rfl
@[simp] theorem setCtx_split (s : State) (k : Nat) (x : Ctx) : (s.setCtx k x).split = s.split := rfl
@[simp] theorem setCtx_launched (s : State) (k : Nat) (x : Ctx) : (s.setCtx k x).launched = s.launched := rfl
@[simp] theorem setCtx_preq (s : State) (k : Nat) (x : Ctx) : (s.setCtx k x).preq = s.preq := rfl
@[simp] theorem setCtx_nextSeq (s : State) (k : Nat) (x : Ctx) : (s.setCtx k x).nextSeq = s.nextSeq := rfl
@[simp] theorem setCtx_prlate (s : State) (k : Nat) (x : Ctx) : (s.setCtx k x).prlate = s.prlate := rfl
@[simp] theorem setCtx_cecount (s : State) (k : Nat) (x : Ctx) : (s.setCtx k x).cecount = s.cecount := rfl
@[simp] theorem setCtx_bad (s : State) (k : Nat) (x : Ctx) : (s.setCtx k x).bad = s.bad := rfl
@[simp] theorem setCtx_lost (s : State) (k : Nat) (x : Ctx) : (s.setCtx k x).lost = s.lost := rfl
@[simp] theorem setCtx_ports (s : State) (k : Nat) (x : Ctx) : (s.setCtx k x).ports = s.ports := rfl
@[simp] theorem setCtx_ftime (s : State) (k : Nat) (x : Ctx) : (s.setCtx k x).ftime = s.ftime := rfl
@[simp] theorem setCtx_posts (s : State) (k : Nat) (x : Ctx) : (s.setCtx k x).posts = s.posts := rfl
@[simp] theorem setCtx_creqs (s : State) (k : Nat) (x : Ctx) : (s.setCtx k x).creqs = s.creqs := rfl
@[simp] theorem setCtx_grants (s : State) (k : Nat) (x : Ctx) : (s.setCtx k x).grants = s.grants := rfl
@[simp] theorem setCtx_nextRank (s : State) (k : Nat) (x : Ctx) : (s.setCtx k x).nextRank = s.nextRank := rfl
@[simp] theorem setCtx_scheds (s : State) (k : Nat) (x : Ctx) : (s.setCtx k x).scheds = s.scheds := rfl
@[simp] theorem setCtx_swCtx (s : State) (k : Nat) (x : Ctx) : (s.setCtx k x).swCtx = s.swCtx := rfl
@[simp] theorem setCtx_notices (s : State) (k : Nat) (x : Ctx) : (s.setCtx k x).notices = s.notices := rfl
@[simp] theorem setCtx_imgSize (s : State) (k : Nat) (x : Ctx) : (s.setCtx k x).imgSize = s.imgSize := rfl
@[simp] theorem setCtx_out (s : State) (k : Nat) (x : Ctx) : (s.setCtx k x).out = s.out := rfl
@[simp] theorem setCtx_inbound (s : State) (k : Nat) (x : Ctx) : (s.setCtx k x).inbound = s.inbound := rfl
@[simp] theorem setCtx_startLog (s : State) (k : Nat) (x : Ctx) : (s.setCtx k x).startLog = s.startLog := rfl
@[simp] theorem setCtx_startCount (s : State) (k : Nat) (x : Ctx) : (s.setCtx k x).startCount = s.startCount := rfl
@[simp] theorem setCtx_startStep (s : State) (k : Nat) (x : Ctx) : (s.setCtx k x).startStep = s.startStep := rfl
@[simp] theorem setCtx_minSvn (s : State) (k : Nat) (x : Ctx) : (s.setCtx k x).minSvn = s.minSvn := rfl
@[simp] theorem setCtx_fusesRead (s : State) (k : Nat) (x : Ctx) : (s.setCtx k x).fusesRead = s.fusesRead := rfl
@[simp] theorem setCtx_spares (s : State) (k : Nat) (x : Ctx) : (s.setCtx k x).spares = s.spares := rfl
@[simp] theorem setCtx_idKey (s : State) (k : Nat) (x : Ctx) : (s.setCtx k x).idKey = s.idKey := rfl
@[simp] theorem setCtx_images (s : State) (k : Nat) (x : Ctx) : (s.setCtx k x).images = s.images := rfl
@[simp] theorem setCtx_failRec (s : State) (k : Nat) (x : Ctx) : (s.setCtx k x).failRec = s.failRec := rfl
@[simp] theorem setCtx_lastFail (s : State) (k : Nat) (x : Ctx) : (s.setCtx k x).lastFail = s.lastFail := rfl
@[simp] theorem setCtx_captures (s : State) (k : Nat) (x : Ctx) : (s.setCtx k x).captures = s.captures := rfl
@[simp] theorem setCtx_stop (s : State) (k : Nat) (x : Ctx) : (s.setCtx k x).stop = s.stop := rfl
@[simp] theorem setCtx_replay (s : State) (k : Nat) (x : Ctx) : (s.setCtx k x).replay = s.replay := rfl
@[simp] theorem setCtx_cmdNext (s : State) (k : Nat) (x : Ctx) : (s.setCtx k x).cmdNext = s.cmdNext := rfl
@[simp] theorem setCtx_turn (s : State) (k : Nat) (x : Ctx) : (s.setCtx k x).turn = s.turn := rfl
@[simp] theorem setCtx_beacons (s : State) (k : Nat) (x : Ctx) : (s.setCtx k x).beacons = s.beacons := rfl
@[simp] theorem setCtx_waking (s : State) (k : Nat) (x : Ctx) : (s.setCtx k x).waking = s.waking := rfl
@[simp] theorem setCtx_agenda (s : State) (k : Nat) (x : Ctx) : (s.setCtx k x).agenda = s.agenda := rfl
@[simp] theorem setCtx_sel (s : State) (k : Nat) (x : Ctx) : (s.setCtx k x).sel = s.sel := rfl
@[simp] theorem setCtx_fresh (s : State) (k : Nat) (x : Ctx) : (s.setCtx k x).fresh = s.fresh := rfl
@[simp] theorem setCtx_nextTag (s : State) (k : Nat) (x : Ctx) : (s.setCtx k x).nextTag = s.nextTag := rfl
@[simp] theorem setCtx_nextAge (s : State) (k : Nat) (x : Ctx) : (s.setCtx k x).nextAge = s.nextAge := rfl

/-! ### onCtx -/

@[simp] theorem onCtx_ac (s : State) (k : Nat) (f : Ctx → Ctx) : (s.onCtx k f).ac = s.ac := rfl
@[simp] theorem onCtx_power (s : State) (k : Nat) (f : Ctx → Ctx) : (s.onCtx k f).power = s.power := rfl
@[simp] theorem onCtx_team (s : State) (k : Nat) (f : Ctx → Ctx) : (s.onCtx k f).team = s.team := rfl
@[simp] theorem onCtx_teams (s : State) (k : Nat) (f : Ctx → Ctx) : (s.onCtx k f).teams = s.teams := rfl
@[simp] theorem onCtx_busy (s : State) (k : Nat) (f : Ctx → Ctx) : (s.onCtx k f).busy = s.busy := rfl
@[simp] theorem onCtx_issuer (s : State) (k : Nat) (f : Ctx → Ctx) : (s.onCtx k f).issuer = s.issuer := rfl
@[simp] theorem onCtx_blocks (s : State) (k : Nat) (f : Ctx → Ctx) : (s.onCtx k f).blocks = s.blocks := rfl
@[simp] theorem onCtx_nextBlock (s : State) (k : Nat) (f : Ctx → Ctx) : (s.onCtx k f).nextBlock = s.nextBlock := rfl
@[simp] theorem onCtx_grids (s : State) (k : Nat) (f : Ctx → Ctx) : (s.onCtx k f).grids = s.grids := rfl
@[simp] theorem onCtx_nextGrid (s : State) (k : Nat) (f : Ctx → Ctx) : (s.onCtx k f).nextGrid = s.nextGrid := rfl
@[simp] theorem onCtx_ctxs (s : State) (k : Nat) (f : Ctx → Ctx) : (s.onCtx k f).ctxs = mput s.ctxs k (f (s.ctx k)) := rfl
@[simp] theorem onCtx_cores (s : State) (k : Nat) (f : Ctx → Ctx) : (s.onCtx k f).cores = s.cores := rfl
@[simp] theorem onCtx_clusters (s : State) (k : Nat) (f : Ctx → Ctx) : (s.onCtx k f).clusters = s.clusters := rfl
@[simp] theorem onCtx_dies (s : State) (k : Nat) (f : Ctx → Ctx) : (s.onCtx k f).dies = s.dies := rfl
@[simp] theorem onCtx_nextJob (s : State) (k : Nat) (f : Ctx → Ctx) : (s.onCtx k f).nextJob = s.nextJob := rfl
@[simp] theorem onCtx_queues (s : State) (k : Nat) (f : Ctx → Ctx) : (s.onCtx k f).queues = s.queues := rfl
@[simp] theorem onCtx_queueFree (s : State) (k : Nat) (f : Ctx → Ctx) : (s.onCtx k f).queueFree = s.queueFree := rfl
@[simp] theorem onCtx_colls (s : State) (k : Nat) (f : Ctx → Ctx) : (s.onCtx k f).colls = s.colls := rfl
@[simp] theorem onCtx_mem (s : State) (k : Nat) (f : Ctx → Ctx) : (s.onCtx k f).mem = s.mem := rfl
@[simp] theorem onCtx_split (s : State) (k : Nat) (f : Ctx → Ctx) : (s.onCtx k f).split = s.split := rfl
@[simp] theorem onCtx_launched (s : State) (k : Nat) (f : Ctx → Ctx) : (s.onCtx k f).launched = s.launched := rfl
@[simp] theorem onCtx_preq (s : State) (k : Nat) (f : Ctx → Ctx) : (s.onCtx k f).preq = s.preq := rfl
@[simp] theorem onCtx_nextSeq (s : State) (k : Nat) (f : Ctx → Ctx) : (s.onCtx k f).nextSeq = s.nextSeq := rfl
@[simp] theorem onCtx_prlate (s : State) (k : Nat) (f : Ctx → Ctx) : (s.onCtx k f).prlate = s.prlate := rfl
@[simp] theorem onCtx_cecount (s : State) (k : Nat) (f : Ctx → Ctx) : (s.onCtx k f).cecount = s.cecount := rfl
@[simp] theorem onCtx_bad (s : State) (k : Nat) (f : Ctx → Ctx) : (s.onCtx k f).bad = s.bad := rfl
@[simp] theorem onCtx_lost (s : State) (k : Nat) (f : Ctx → Ctx) : (s.onCtx k f).lost = s.lost := rfl
@[simp] theorem onCtx_ports (s : State) (k : Nat) (f : Ctx → Ctx) : (s.onCtx k f).ports = s.ports := rfl
@[simp] theorem onCtx_ftime (s : State) (k : Nat) (f : Ctx → Ctx) : (s.onCtx k f).ftime = s.ftime := rfl
@[simp] theorem onCtx_posts (s : State) (k : Nat) (f : Ctx → Ctx) : (s.onCtx k f).posts = s.posts := rfl
@[simp] theorem onCtx_creqs (s : State) (k : Nat) (f : Ctx → Ctx) : (s.onCtx k f).creqs = s.creqs := rfl
@[simp] theorem onCtx_grants (s : State) (k : Nat) (f : Ctx → Ctx) : (s.onCtx k f).grants = s.grants := rfl
@[simp] theorem onCtx_nextRank (s : State) (k : Nat) (f : Ctx → Ctx) : (s.onCtx k f).nextRank = s.nextRank := rfl
@[simp] theorem onCtx_scheds (s : State) (k : Nat) (f : Ctx → Ctx) : (s.onCtx k f).scheds = s.scheds := rfl
@[simp] theorem onCtx_swCtx (s : State) (k : Nat) (f : Ctx → Ctx) : (s.onCtx k f).swCtx = s.swCtx := rfl
@[simp] theorem onCtx_notices (s : State) (k : Nat) (f : Ctx → Ctx) : (s.onCtx k f).notices = s.notices := rfl
@[simp] theorem onCtx_imgSize (s : State) (k : Nat) (f : Ctx → Ctx) : (s.onCtx k f).imgSize = s.imgSize := rfl
@[simp] theorem onCtx_out (s : State) (k : Nat) (f : Ctx → Ctx) : (s.onCtx k f).out = s.out := rfl
@[simp] theorem onCtx_inbound (s : State) (k : Nat) (f : Ctx → Ctx) : (s.onCtx k f).inbound = s.inbound := rfl
@[simp] theorem onCtx_startLog (s : State) (k : Nat) (f : Ctx → Ctx) : (s.onCtx k f).startLog = s.startLog := rfl
@[simp] theorem onCtx_startCount (s : State) (k : Nat) (f : Ctx → Ctx) : (s.onCtx k f).startCount = s.startCount := rfl
@[simp] theorem onCtx_startStep (s : State) (k : Nat) (f : Ctx → Ctx) : (s.onCtx k f).startStep = s.startStep := rfl
@[simp] theorem onCtx_minSvn (s : State) (k : Nat) (f : Ctx → Ctx) : (s.onCtx k f).minSvn = s.minSvn := rfl
@[simp] theorem onCtx_fusesRead (s : State) (k : Nat) (f : Ctx → Ctx) : (s.onCtx k f).fusesRead = s.fusesRead := rfl
@[simp] theorem onCtx_spares (s : State) (k : Nat) (f : Ctx → Ctx) : (s.onCtx k f).spares = s.spares := rfl
@[simp] theorem onCtx_idKey (s : State) (k : Nat) (f : Ctx → Ctx) : (s.onCtx k f).idKey = s.idKey := rfl
@[simp] theorem onCtx_images (s : State) (k : Nat) (f : Ctx → Ctx) : (s.onCtx k f).images = s.images := rfl
@[simp] theorem onCtx_failRec (s : State) (k : Nat) (f : Ctx → Ctx) : (s.onCtx k f).failRec = s.failRec := rfl
@[simp] theorem onCtx_lastFail (s : State) (k : Nat) (f : Ctx → Ctx) : (s.onCtx k f).lastFail = s.lastFail := rfl
@[simp] theorem onCtx_captures (s : State) (k : Nat) (f : Ctx → Ctx) : (s.onCtx k f).captures = s.captures := rfl
@[simp] theorem onCtx_stop (s : State) (k : Nat) (f : Ctx → Ctx) : (s.onCtx k f).stop = s.stop := rfl
@[simp] theorem onCtx_replay (s : State) (k : Nat) (f : Ctx → Ctx) : (s.onCtx k f).replay = s.replay := rfl
@[simp] theorem onCtx_cmdNext (s : State) (k : Nat) (f : Ctx → Ctx) : (s.onCtx k f).cmdNext = s.cmdNext := rfl
@[simp] theorem onCtx_turn (s : State) (k : Nat) (f : Ctx → Ctx) : (s.onCtx k f).turn = s.turn := rfl
@[simp] theorem onCtx_beacons (s : State) (k : Nat) (f : Ctx → Ctx) : (s.onCtx k f).beacons = s.beacons := rfl
@[simp] theorem onCtx_waking (s : State) (k : Nat) (f : Ctx → Ctx) : (s.onCtx k f).waking = s.waking := rfl
@[simp] theorem onCtx_agenda (s : State) (k : Nat) (f : Ctx → Ctx) : (s.onCtx k f).agenda = s.agenda := rfl
@[simp] theorem onCtx_sel (s : State) (k : Nat) (f : Ctx → Ctx) : (s.onCtx k f).sel = s.sel := rfl
@[simp] theorem onCtx_fresh (s : State) (k : Nat) (f : Ctx → Ctx) : (s.onCtx k f).fresh = s.fresh := rfl
@[simp] theorem onCtx_nextTag (s : State) (k : Nat) (f : Ctx → Ctx) : (s.onCtx k f).nextTag = s.nextTag := rfl
@[simp] theorem onCtx_nextAge (s : State) (k : Nat) (f : Ctx → Ctx) : (s.onCtx k f).nextAge = s.nextAge := rfl

/-! ### setCore -/

@[simp] theorem setCore_ac (s : State) (k : Nat) (x : Core) : (s.setCore k x).ac = s.ac := rfl
@[simp] theorem setCore_power (s : State) (k : Nat) (x : Core) : (s.setCore k x).power = s.power := rfl
@[simp] theorem setCore_team (s : State) (k : Nat) (x : Core) : (s.setCore k x).team = s.team := rfl
@[simp] theorem setCore_teams (s : State) (k : Nat) (x : Core) : (s.setCore k x).teams = s.teams := rfl
@[simp] theorem setCore_busy (s : State) (k : Nat) (x : Core) : (s.setCore k x).busy = s.busy := rfl
@[simp] theorem setCore_issuer (s : State) (k : Nat) (x : Core) : (s.setCore k x).issuer = s.issuer := rfl
@[simp] theorem setCore_blocks (s : State) (k : Nat) (x : Core) : (s.setCore k x).blocks = s.blocks := rfl
@[simp] theorem setCore_nextBlock (s : State) (k : Nat) (x : Core) : (s.setCore k x).nextBlock = s.nextBlock := rfl
@[simp] theorem setCore_grids (s : State) (k : Nat) (x : Core) : (s.setCore k x).grids = s.grids := rfl
@[simp] theorem setCore_nextGrid (s : State) (k : Nat) (x : Core) : (s.setCore k x).nextGrid = s.nextGrid := rfl
@[simp] theorem setCore_ctxs (s : State) (k : Nat) (x : Core) : (s.setCore k x).ctxs = s.ctxs := rfl
@[simp] theorem setCore_cores (s : State) (k : Nat) (x : Core) : (s.setCore k x).cores = mput s.cores k x := rfl
@[simp] theorem setCore_clusters (s : State) (k : Nat) (x : Core) : (s.setCore k x).clusters = s.clusters := rfl
@[simp] theorem setCore_dies (s : State) (k : Nat) (x : Core) : (s.setCore k x).dies = s.dies := rfl
@[simp] theorem setCore_nextJob (s : State) (k : Nat) (x : Core) : (s.setCore k x).nextJob = s.nextJob := rfl
@[simp] theorem setCore_queues (s : State) (k : Nat) (x : Core) : (s.setCore k x).queues = s.queues := rfl
@[simp] theorem setCore_queueFree (s : State) (k : Nat) (x : Core) : (s.setCore k x).queueFree = s.queueFree := rfl
@[simp] theorem setCore_colls (s : State) (k : Nat) (x : Core) : (s.setCore k x).colls = s.colls := rfl
@[simp] theorem setCore_mem (s : State) (k : Nat) (x : Core) : (s.setCore k x).mem = s.mem := rfl
@[simp] theorem setCore_split (s : State) (k : Nat) (x : Core) : (s.setCore k x).split = s.split := rfl
@[simp] theorem setCore_launched (s : State) (k : Nat) (x : Core) : (s.setCore k x).launched = s.launched := rfl
@[simp] theorem setCore_preq (s : State) (k : Nat) (x : Core) : (s.setCore k x).preq = s.preq := rfl
@[simp] theorem setCore_nextSeq (s : State) (k : Nat) (x : Core) : (s.setCore k x).nextSeq = s.nextSeq := rfl
@[simp] theorem setCore_prlate (s : State) (k : Nat) (x : Core) : (s.setCore k x).prlate = s.prlate := rfl
@[simp] theorem setCore_cecount (s : State) (k : Nat) (x : Core) : (s.setCore k x).cecount = s.cecount := rfl
@[simp] theorem setCore_bad (s : State) (k : Nat) (x : Core) : (s.setCore k x).bad = s.bad := rfl
@[simp] theorem setCore_lost (s : State) (k : Nat) (x : Core) : (s.setCore k x).lost = s.lost := rfl
@[simp] theorem setCore_ports (s : State) (k : Nat) (x : Core) : (s.setCore k x).ports = s.ports := rfl
@[simp] theorem setCore_ftime (s : State) (k : Nat) (x : Core) : (s.setCore k x).ftime = s.ftime := rfl
@[simp] theorem setCore_posts (s : State) (k : Nat) (x : Core) : (s.setCore k x).posts = s.posts := rfl
@[simp] theorem setCore_creqs (s : State) (k : Nat) (x : Core) : (s.setCore k x).creqs = s.creqs := rfl
@[simp] theorem setCore_grants (s : State) (k : Nat) (x : Core) : (s.setCore k x).grants = s.grants := rfl
@[simp] theorem setCore_nextRank (s : State) (k : Nat) (x : Core) : (s.setCore k x).nextRank = s.nextRank := rfl
@[simp] theorem setCore_scheds (s : State) (k : Nat) (x : Core) : (s.setCore k x).scheds = s.scheds := rfl
@[simp] theorem setCore_swCtx (s : State) (k : Nat) (x : Core) : (s.setCore k x).swCtx = s.swCtx := rfl
@[simp] theorem setCore_notices (s : State) (k : Nat) (x : Core) : (s.setCore k x).notices = s.notices := rfl
@[simp] theorem setCore_imgSize (s : State) (k : Nat) (x : Core) : (s.setCore k x).imgSize = s.imgSize := rfl
@[simp] theorem setCore_out (s : State) (k : Nat) (x : Core) : (s.setCore k x).out = s.out := rfl
@[simp] theorem setCore_inbound (s : State) (k : Nat) (x : Core) : (s.setCore k x).inbound = s.inbound := rfl
@[simp] theorem setCore_startLog (s : State) (k : Nat) (x : Core) : (s.setCore k x).startLog = s.startLog := rfl
@[simp] theorem setCore_startCount (s : State) (k : Nat) (x : Core) : (s.setCore k x).startCount = s.startCount := rfl
@[simp] theorem setCore_startStep (s : State) (k : Nat) (x : Core) : (s.setCore k x).startStep = s.startStep := rfl
@[simp] theorem setCore_minSvn (s : State) (k : Nat) (x : Core) : (s.setCore k x).minSvn = s.minSvn := rfl
@[simp] theorem setCore_fusesRead (s : State) (k : Nat) (x : Core) : (s.setCore k x).fusesRead = s.fusesRead := rfl
@[simp] theorem setCore_spares (s : State) (k : Nat) (x : Core) : (s.setCore k x).spares = s.spares := rfl
@[simp] theorem setCore_idKey (s : State) (k : Nat) (x : Core) : (s.setCore k x).idKey = s.idKey := rfl
@[simp] theorem setCore_images (s : State) (k : Nat) (x : Core) : (s.setCore k x).images = s.images := rfl
@[simp] theorem setCore_failRec (s : State) (k : Nat) (x : Core) : (s.setCore k x).failRec = s.failRec := rfl
@[simp] theorem setCore_lastFail (s : State) (k : Nat) (x : Core) : (s.setCore k x).lastFail = s.lastFail := rfl
@[simp] theorem setCore_captures (s : State) (k : Nat) (x : Core) : (s.setCore k x).captures = s.captures := rfl
@[simp] theorem setCore_stop (s : State) (k : Nat) (x : Core) : (s.setCore k x).stop = s.stop := rfl
@[simp] theorem setCore_replay (s : State) (k : Nat) (x : Core) : (s.setCore k x).replay = s.replay := rfl
@[simp] theorem setCore_cmdNext (s : State) (k : Nat) (x : Core) : (s.setCore k x).cmdNext = s.cmdNext := rfl
@[simp] theorem setCore_turn (s : State) (k : Nat) (x : Core) : (s.setCore k x).turn = s.turn := rfl
@[simp] theorem setCore_beacons (s : State) (k : Nat) (x : Core) : (s.setCore k x).beacons = s.beacons := rfl
@[simp] theorem setCore_waking (s : State) (k : Nat) (x : Core) : (s.setCore k x).waking = s.waking := rfl
@[simp] theorem setCore_agenda (s : State) (k : Nat) (x : Core) : (s.setCore k x).agenda = s.agenda := rfl
@[simp] theorem setCore_sel (s : State) (k : Nat) (x : Core) : (s.setCore k x).sel = s.sel := rfl
@[simp] theorem setCore_fresh (s : State) (k : Nat) (x : Core) : (s.setCore k x).fresh = s.fresh := rfl
@[simp] theorem setCore_nextTag (s : State) (k : Nat) (x : Core) : (s.setCore k x).nextTag = s.nextTag := rfl
@[simp] theorem setCore_nextAge (s : State) (k : Nat) (x : Core) : (s.setCore k x).nextAge = s.nextAge := rfl

/-! ### onCore -/

@[simp] theorem onCore_ac (s : State) (k : Nat) (f : Core → Core) : (s.onCore k f).ac = s.ac := rfl
@[simp] theorem onCore_power (s : State) (k : Nat) (f : Core → Core) : (s.onCore k f).power = s.power := rfl
@[simp] theorem onCore_team (s : State) (k : Nat) (f : Core → Core) : (s.onCore k f).team = s.team := rfl
@[simp] theorem onCore_teams (s : State) (k : Nat) (f : Core → Core) : (s.onCore k f).teams = s.teams := rfl
@[simp] theorem onCore_busy (s : State) (k : Nat) (f : Core → Core) : (s.onCore k f).busy = s.busy := rfl
@[simp] theorem onCore_issuer (s : State) (k : Nat) (f : Core → Core) : (s.onCore k f).issuer = s.issuer := rfl
@[simp] theorem onCore_blocks (s : State) (k : Nat) (f : Core → Core) : (s.onCore k f).blocks = s.blocks := rfl
@[simp] theorem onCore_nextBlock (s : State) (k : Nat) (f : Core → Core) : (s.onCore k f).nextBlock = s.nextBlock := rfl
@[simp] theorem onCore_grids (s : State) (k : Nat) (f : Core → Core) : (s.onCore k f).grids = s.grids := rfl
@[simp] theorem onCore_nextGrid (s : State) (k : Nat) (f : Core → Core) : (s.onCore k f).nextGrid = s.nextGrid := rfl
@[simp] theorem onCore_ctxs (s : State) (k : Nat) (f : Core → Core) : (s.onCore k f).ctxs = s.ctxs := rfl
@[simp] theorem onCore_cores (s : State) (k : Nat) (f : Core → Core) : (s.onCore k f).cores = mput s.cores k (f (s.core k)) := rfl
@[simp] theorem onCore_clusters (s : State) (k : Nat) (f : Core → Core) : (s.onCore k f).clusters = s.clusters := rfl
@[simp] theorem onCore_dies (s : State) (k : Nat) (f : Core → Core) : (s.onCore k f).dies = s.dies := rfl
@[simp] theorem onCore_nextJob (s : State) (k : Nat) (f : Core → Core) : (s.onCore k f).nextJob = s.nextJob := rfl
@[simp] theorem onCore_queues (s : State) (k : Nat) (f : Core → Core) : (s.onCore k f).queues = s.queues := rfl
@[simp] theorem onCore_queueFree (s : State) (k : Nat) (f : Core → Core) : (s.onCore k f).queueFree = s.queueFree := rfl
@[simp] theorem onCore_colls (s : State) (k : Nat) (f : Core → Core) : (s.onCore k f).colls = s.colls := rfl
@[simp] theorem onCore_mem (s : State) (k : Nat) (f : Core → Core) : (s.onCore k f).mem = s.mem := rfl
@[simp] theorem onCore_split (s : State) (k : Nat) (f : Core → Core) : (s.onCore k f).split = s.split := rfl
@[simp] theorem onCore_launched (s : State) (k : Nat) (f : Core → Core) : (s.onCore k f).launched = s.launched := rfl
@[simp] theorem onCore_preq (s : State) (k : Nat) (f : Core → Core) : (s.onCore k f).preq = s.preq := rfl
@[simp] theorem onCore_nextSeq (s : State) (k : Nat) (f : Core → Core) : (s.onCore k f).nextSeq = s.nextSeq := rfl
@[simp] theorem onCore_prlate (s : State) (k : Nat) (f : Core → Core) : (s.onCore k f).prlate = s.prlate := rfl
@[simp] theorem onCore_cecount (s : State) (k : Nat) (f : Core → Core) : (s.onCore k f).cecount = s.cecount := rfl
@[simp] theorem onCore_bad (s : State) (k : Nat) (f : Core → Core) : (s.onCore k f).bad = s.bad := rfl
@[simp] theorem onCore_lost (s : State) (k : Nat) (f : Core → Core) : (s.onCore k f).lost = s.lost := rfl
@[simp] theorem onCore_ports (s : State) (k : Nat) (f : Core → Core) : (s.onCore k f).ports = s.ports := rfl
@[simp] theorem onCore_ftime (s : State) (k : Nat) (f : Core → Core) : (s.onCore k f).ftime = s.ftime := rfl
@[simp] theorem onCore_posts (s : State) (k : Nat) (f : Core → Core) : (s.onCore k f).posts = s.posts := rfl
@[simp] theorem onCore_creqs (s : State) (k : Nat) (f : Core → Core) : (s.onCore k f).creqs = s.creqs := rfl
@[simp] theorem onCore_grants (s : State) (k : Nat) (f : Core → Core) : (s.onCore k f).grants = s.grants := rfl
@[simp] theorem onCore_nextRank (s : State) (k : Nat) (f : Core → Core) : (s.onCore k f).nextRank = s.nextRank := rfl
@[simp] theorem onCore_scheds (s : State) (k : Nat) (f : Core → Core) : (s.onCore k f).scheds = s.scheds := rfl
@[simp] theorem onCore_swCtx (s : State) (k : Nat) (f : Core → Core) : (s.onCore k f).swCtx = s.swCtx := rfl
@[simp] theorem onCore_notices (s : State) (k : Nat) (f : Core → Core) : (s.onCore k f).notices = s.notices := rfl
@[simp] theorem onCore_imgSize (s : State) (k : Nat) (f : Core → Core) : (s.onCore k f).imgSize = s.imgSize := rfl
@[simp] theorem onCore_out (s : State) (k : Nat) (f : Core → Core) : (s.onCore k f).out = s.out := rfl
@[simp] theorem onCore_inbound (s : State) (k : Nat) (f : Core → Core) : (s.onCore k f).inbound = s.inbound := rfl
@[simp] theorem onCore_startLog (s : State) (k : Nat) (f : Core → Core) : (s.onCore k f).startLog = s.startLog := rfl
@[simp] theorem onCore_startCount (s : State) (k : Nat) (f : Core → Core) : (s.onCore k f).startCount = s.startCount := rfl
@[simp] theorem onCore_startStep (s : State) (k : Nat) (f : Core → Core) : (s.onCore k f).startStep = s.startStep := rfl
@[simp] theorem onCore_minSvn (s : State) (k : Nat) (f : Core → Core) : (s.onCore k f).minSvn = s.minSvn := rfl
@[simp] theorem onCore_fusesRead (s : State) (k : Nat) (f : Core → Core) : (s.onCore k f).fusesRead = s.fusesRead := rfl
@[simp] theorem onCore_spares (s : State) (k : Nat) (f : Core → Core) : (s.onCore k f).spares = s.spares := rfl
@[simp] theorem onCore_idKey (s : State) (k : Nat) (f : Core → Core) : (s.onCore k f).idKey = s.idKey := rfl
@[simp] theorem onCore_images (s : State) (k : Nat) (f : Core → Core) : (s.onCore k f).images = s.images := rfl
@[simp] theorem onCore_failRec (s : State) (k : Nat) (f : Core → Core) : (s.onCore k f).failRec = s.failRec := rfl
@[simp] theorem onCore_lastFail (s : State) (k : Nat) (f : Core → Core) : (s.onCore k f).lastFail = s.lastFail := rfl
@[simp] theorem onCore_captures (s : State) (k : Nat) (f : Core → Core) : (s.onCore k f).captures = s.captures := rfl
@[simp] theorem onCore_stop (s : State) (k : Nat) (f : Core → Core) : (s.onCore k f).stop = s.stop := rfl
@[simp] theorem onCore_replay (s : State) (k : Nat) (f : Core → Core) : (s.onCore k f).replay = s.replay := rfl
@[simp] theorem onCore_cmdNext (s : State) (k : Nat) (f : Core → Core) : (s.onCore k f).cmdNext = s.cmdNext := rfl
@[simp] theorem onCore_turn (s : State) (k : Nat) (f : Core → Core) : (s.onCore k f).turn = s.turn := rfl
@[simp] theorem onCore_beacons (s : State) (k : Nat) (f : Core → Core) : (s.onCore k f).beacons = s.beacons := rfl
@[simp] theorem onCore_waking (s : State) (k : Nat) (f : Core → Core) : (s.onCore k f).waking = s.waking := rfl
@[simp] theorem onCore_agenda (s : State) (k : Nat) (f : Core → Core) : (s.onCore k f).agenda = s.agenda := rfl
@[simp] theorem onCore_sel (s : State) (k : Nat) (f : Core → Core) : (s.onCore k f).sel = s.sel := rfl
@[simp] theorem onCore_fresh (s : State) (k : Nat) (f : Core → Core) : (s.onCore k f).fresh = s.fresh := rfl
@[simp] theorem onCore_nextTag (s : State) (k : Nat) (f : Core → Core) : (s.onCore k f).nextTag = s.nextTag := rfl
@[simp] theorem onCore_nextAge (s : State) (k : Nat) (f : Core → Core) : (s.onCore k f).nextAge = s.nextAge := rfl

/-! ### onCluster -/

@[simp] theorem onCluster_ac (s : State) (k : Nat) (f : Cluster → Cluster) : (s.onCluster k f).ac = s.ac := rfl
@[simp] theorem onCluster_power (s : State) (k : Nat) (f : Cluster → Cluster) : (s.onCluster k f).power = s.power := rfl
@[simp] theorem onCluster_team (s : State) (k : Nat) (f : Cluster → Cluster) : (s.onCluster k f).team = s.team := rfl
@[simp] theorem onCluster_teams (s : State) (k : Nat) (f : Cluster → Cluster) : (s.onCluster k f).teams = s.teams := rfl
@[simp] theorem onCluster_busy (s : State) (k : Nat) (f : Cluster → Cluster) : (s.onCluster k f).busy = s.busy := rfl
@[simp] theorem onCluster_issuer (s : State) (k : Nat) (f : Cluster → Cluster) : (s.onCluster k f).issuer = s.issuer := rfl
@[simp] theorem onCluster_blocks (s : State) (k : Nat) (f : Cluster → Cluster) : (s.onCluster k f).blocks = s.blocks := rfl
@[simp] theorem onCluster_nextBlock (s : State) (k : Nat) (f : Cluster → Cluster) : (s.onCluster k f).nextBlock = s.nextBlock := rfl
@[simp] theorem onCluster_grids (s : State) (k : Nat) (f : Cluster → Cluster) : (s.onCluster k f).grids = s.grids := rfl
@[simp] theorem onCluster_nextGrid (s : State) (k : Nat) (f : Cluster → Cluster) : (s.onCluster k f).nextGrid = s.nextGrid := rfl
@[simp] theorem onCluster_ctxs (s : State) (k : Nat) (f : Cluster → Cluster) : (s.onCluster k f).ctxs = s.ctxs := rfl
@[simp] theorem onCluster_cores (s : State) (k : Nat) (f : Cluster → Cluster) : (s.onCluster k f).cores = s.cores := rfl
@[simp] theorem onCluster_clusters (s : State) (k : Nat) (f : Cluster → Cluster) : (s.onCluster k f).clusters = mput s.clusters k (f (s.cluster k)) := rfl
@[simp] theorem onCluster_dies (s : State) (k : Nat) (f : Cluster → Cluster) : (s.onCluster k f).dies = s.dies := rfl
@[simp] theorem onCluster_nextJob (s : State) (k : Nat) (f : Cluster → Cluster) : (s.onCluster k f).nextJob = s.nextJob := rfl
@[simp] theorem onCluster_queues (s : State) (k : Nat) (f : Cluster → Cluster) : (s.onCluster k f).queues = s.queues := rfl
@[simp] theorem onCluster_queueFree (s : State) (k : Nat) (f : Cluster → Cluster) : (s.onCluster k f).queueFree = s.queueFree := rfl
@[simp] theorem onCluster_colls (s : State) (k : Nat) (f : Cluster → Cluster) : (s.onCluster k f).colls = s.colls := rfl
@[simp] theorem onCluster_mem (s : State) (k : Nat) (f : Cluster → Cluster) : (s.onCluster k f).mem = s.mem := rfl
@[simp] theorem onCluster_split (s : State) (k : Nat) (f : Cluster → Cluster) : (s.onCluster k f).split = s.split := rfl
@[simp] theorem onCluster_launched (s : State) (k : Nat) (f : Cluster → Cluster) : (s.onCluster k f).launched = s.launched := rfl
@[simp] theorem onCluster_preq (s : State) (k : Nat) (f : Cluster → Cluster) : (s.onCluster k f).preq = s.preq := rfl
@[simp] theorem onCluster_nextSeq (s : State) (k : Nat) (f : Cluster → Cluster) : (s.onCluster k f).nextSeq = s.nextSeq := rfl
@[simp] theorem onCluster_prlate (s : State) (k : Nat) (f : Cluster → Cluster) : (s.onCluster k f).prlate = s.prlate := rfl
@[simp] theorem onCluster_cecount (s : State) (k : Nat) (f : Cluster → Cluster) : (s.onCluster k f).cecount = s.cecount := rfl
@[simp] theorem onCluster_bad (s : State) (k : Nat) (f : Cluster → Cluster) : (s.onCluster k f).bad = s.bad := rfl
@[simp] theorem onCluster_lost (s : State) (k : Nat) (f : Cluster → Cluster) : (s.onCluster k f).lost = s.lost := rfl
@[simp] theorem onCluster_ports (s : State) (k : Nat) (f : Cluster → Cluster) : (s.onCluster k f).ports = s.ports := rfl
@[simp] theorem onCluster_ftime (s : State) (k : Nat) (f : Cluster → Cluster) : (s.onCluster k f).ftime = s.ftime := rfl
@[simp] theorem onCluster_posts (s : State) (k : Nat) (f : Cluster → Cluster) : (s.onCluster k f).posts = s.posts := rfl
@[simp] theorem onCluster_creqs (s : State) (k : Nat) (f : Cluster → Cluster) : (s.onCluster k f).creqs = s.creqs := rfl
@[simp] theorem onCluster_grants (s : State) (k : Nat) (f : Cluster → Cluster) : (s.onCluster k f).grants = s.grants := rfl
@[simp] theorem onCluster_nextRank (s : State) (k : Nat) (f : Cluster → Cluster) : (s.onCluster k f).nextRank = s.nextRank := rfl
@[simp] theorem onCluster_scheds (s : State) (k : Nat) (f : Cluster → Cluster) : (s.onCluster k f).scheds = s.scheds := rfl
@[simp] theorem onCluster_swCtx (s : State) (k : Nat) (f : Cluster → Cluster) : (s.onCluster k f).swCtx = s.swCtx := rfl
@[simp] theorem onCluster_notices (s : State) (k : Nat) (f : Cluster → Cluster) : (s.onCluster k f).notices = s.notices := rfl
@[simp] theorem onCluster_imgSize (s : State) (k : Nat) (f : Cluster → Cluster) : (s.onCluster k f).imgSize = s.imgSize := rfl
@[simp] theorem onCluster_out (s : State) (k : Nat) (f : Cluster → Cluster) : (s.onCluster k f).out = s.out := rfl
@[simp] theorem onCluster_inbound (s : State) (k : Nat) (f : Cluster → Cluster) : (s.onCluster k f).inbound = s.inbound := rfl
@[simp] theorem onCluster_startLog (s : State) (k : Nat) (f : Cluster → Cluster) : (s.onCluster k f).startLog = s.startLog := rfl
@[simp] theorem onCluster_startCount (s : State) (k : Nat) (f : Cluster → Cluster) : (s.onCluster k f).startCount = s.startCount := rfl
@[simp] theorem onCluster_startStep (s : State) (k : Nat) (f : Cluster → Cluster) : (s.onCluster k f).startStep = s.startStep := rfl
@[simp] theorem onCluster_minSvn (s : State) (k : Nat) (f : Cluster → Cluster) : (s.onCluster k f).minSvn = s.minSvn := rfl
@[simp] theorem onCluster_fusesRead (s : State) (k : Nat) (f : Cluster → Cluster) : (s.onCluster k f).fusesRead = s.fusesRead := rfl
@[simp] theorem onCluster_spares (s : State) (k : Nat) (f : Cluster → Cluster) : (s.onCluster k f).spares = s.spares := rfl
@[simp] theorem onCluster_idKey (s : State) (k : Nat) (f : Cluster → Cluster) : (s.onCluster k f).idKey = s.idKey := rfl
@[simp] theorem onCluster_images (s : State) (k : Nat) (f : Cluster → Cluster) : (s.onCluster k f).images = s.images := rfl
@[simp] theorem onCluster_failRec (s : State) (k : Nat) (f : Cluster → Cluster) : (s.onCluster k f).failRec = s.failRec := rfl
@[simp] theorem onCluster_lastFail (s : State) (k : Nat) (f : Cluster → Cluster) : (s.onCluster k f).lastFail = s.lastFail := rfl
@[simp] theorem onCluster_captures (s : State) (k : Nat) (f : Cluster → Cluster) : (s.onCluster k f).captures = s.captures := rfl
@[simp] theorem onCluster_stop (s : State) (k : Nat) (f : Cluster → Cluster) : (s.onCluster k f).stop = s.stop := rfl
@[simp] theorem onCluster_replay (s : State) (k : Nat) (f : Cluster → Cluster) : (s.onCluster k f).replay = s.replay := rfl
@[simp] theorem onCluster_cmdNext (s : State) (k : Nat) (f : Cluster → Cluster) : (s.onCluster k f).cmdNext = s.cmdNext := rfl
@[simp] theorem onCluster_turn (s : State) (k : Nat) (f : Cluster → Cluster) : (s.onCluster k f).turn = s.turn := rfl
@[simp] theorem onCluster_beacons (s : State) (k : Nat) (f : Cluster → Cluster) : (s.onCluster k f).beacons = s.beacons := rfl
@[simp] theorem onCluster_waking (s : State) (k : Nat) (f : Cluster → Cluster) : (s.onCluster k f).waking = s.waking := rfl
@[simp] theorem onCluster_agenda (s : State) (k : Nat) (f : Cluster → Cluster) : (s.onCluster k f).agenda = s.agenda := rfl
@[simp] theorem onCluster_sel (s : State) (k : Nat) (f : Cluster → Cluster) : (s.onCluster k f).sel = s.sel := rfl
@[simp] theorem onCluster_fresh (s : State) (k : Nat) (f : Cluster → Cluster) : (s.onCluster k f).fresh = s.fresh := rfl
@[simp] theorem onCluster_nextTag (s : State) (k : Nat) (f : Cluster → Cluster) : (s.onCluster k f).nextTag = s.nextTag := rfl
@[simp] theorem onCluster_nextAge (s : State) (k : Nat) (f : Cluster → Cluster) : (s.onCluster k f).nextAge = s.nextAge := rfl

/-! ### onDie -/

@[simp] theorem onDie_ac (s : State) (k : Nat) (f : Die → Die) : (s.onDie k f).ac = s.ac := rfl
@[simp] theorem onDie_power (s : State) (k : Nat) (f : Die → Die) : (s.onDie k f).power = s.power := rfl
@[simp] theorem onDie_team (s : State) (k : Nat) (f : Die → Die) : (s.onDie k f).team = s.team := rfl
@[simp] theorem onDie_teams (s : State) (k : Nat) (f : Die → Die) : (s.onDie k f).teams = s.teams := rfl
@[simp] theorem onDie_busy (s : State) (k : Nat) (f : Die → Die) : (s.onDie k f).busy = s.busy := rfl
@[simp] theorem onDie_issuer (s : State) (k : Nat) (f : Die → Die) : (s.onDie k f).issuer = s.issuer := rfl
@[simp] theorem onDie_blocks (s : State) (k : Nat) (f : Die → Die) : (s.onDie k f).blocks = s.blocks := rfl
@[simp] theorem onDie_nextBlock (s : State) (k : Nat) (f : Die → Die) : (s.onDie k f).nextBlock = s.nextBlock := rfl
@[simp] theorem onDie_grids (s : State) (k : Nat) (f : Die → Die) : (s.onDie k f).grids = s.grids := rfl
@[simp] theorem onDie_nextGrid (s : State) (k : Nat) (f : Die → Die) : (s.onDie k f).nextGrid = s.nextGrid := rfl
@[simp] theorem onDie_ctxs (s : State) (k : Nat) (f : Die → Die) : (s.onDie k f).ctxs = s.ctxs := rfl
@[simp] theorem onDie_cores (s : State) (k : Nat) (f : Die → Die) : (s.onDie k f).cores = s.cores := rfl
@[simp] theorem onDie_clusters (s : State) (k : Nat) (f : Die → Die) : (s.onDie k f).clusters = s.clusters := rfl
@[simp] theorem onDie_dies (s : State) (k : Nat) (f : Die → Die) : (s.onDie k f).dies = mput s.dies k (f (s.die k)) := rfl
@[simp] theorem onDie_nextJob (s : State) (k : Nat) (f : Die → Die) : (s.onDie k f).nextJob = s.nextJob := rfl
@[simp] theorem onDie_queues (s : State) (k : Nat) (f : Die → Die) : (s.onDie k f).queues = s.queues := rfl
@[simp] theorem onDie_queueFree (s : State) (k : Nat) (f : Die → Die) : (s.onDie k f).queueFree = s.queueFree := rfl
@[simp] theorem onDie_colls (s : State) (k : Nat) (f : Die → Die) : (s.onDie k f).colls = s.colls := rfl
@[simp] theorem onDie_mem (s : State) (k : Nat) (f : Die → Die) : (s.onDie k f).mem = s.mem := rfl
@[simp] theorem onDie_split (s : State) (k : Nat) (f : Die → Die) : (s.onDie k f).split = s.split := rfl
@[simp] theorem onDie_launched (s : State) (k : Nat) (f : Die → Die) : (s.onDie k f).launched = s.launched := rfl
@[simp] theorem onDie_preq (s : State) (k : Nat) (f : Die → Die) : (s.onDie k f).preq = s.preq := rfl
@[simp] theorem onDie_nextSeq (s : State) (k : Nat) (f : Die → Die) : (s.onDie k f).nextSeq = s.nextSeq := rfl
@[simp] theorem onDie_prlate (s : State) (k : Nat) (f : Die → Die) : (s.onDie k f).prlate = s.prlate := rfl
@[simp] theorem onDie_cecount (s : State) (k : Nat) (f : Die → Die) : (s.onDie k f).cecount = s.cecount := rfl
@[simp] theorem onDie_bad (s : State) (k : Nat) (f : Die → Die) : (s.onDie k f).bad = s.bad := rfl
@[simp] theorem onDie_lost (s : State) (k : Nat) (f : Die → Die) : (s.onDie k f).lost = s.lost := rfl
@[simp] theorem onDie_ports (s : State) (k : Nat) (f : Die → Die) : (s.onDie k f).ports = s.ports := rfl
@[simp] theorem onDie_ftime (s : State) (k : Nat) (f : Die → Die) : (s.onDie k f).ftime = s.ftime := rfl
@[simp] theorem onDie_posts (s : State) (k : Nat) (f : Die → Die) : (s.onDie k f).posts = s.posts := rfl
@[simp] theorem onDie_creqs (s : State) (k : Nat) (f : Die → Die) : (s.onDie k f).creqs = s.creqs := rfl
@[simp] theorem onDie_grants (s : State) (k : Nat) (f : Die → Die) : (s.onDie k f).grants = s.grants := rfl
@[simp] theorem onDie_nextRank (s : State) (k : Nat) (f : Die → Die) : (s.onDie k f).nextRank = s.nextRank := rfl
@[simp] theorem onDie_scheds (s : State) (k : Nat) (f : Die → Die) : (s.onDie k f).scheds = s.scheds := rfl
@[simp] theorem onDie_swCtx (s : State) (k : Nat) (f : Die → Die) : (s.onDie k f).swCtx = s.swCtx := rfl
@[simp] theorem onDie_notices (s : State) (k : Nat) (f : Die → Die) : (s.onDie k f).notices = s.notices := rfl
@[simp] theorem onDie_imgSize (s : State) (k : Nat) (f : Die → Die) : (s.onDie k f).imgSize = s.imgSize := rfl
@[simp] theorem onDie_out (s : State) (k : Nat) (f : Die → Die) : (s.onDie k f).out = s.out := rfl
@[simp] theorem onDie_inbound (s : State) (k : Nat) (f : Die → Die) : (s.onDie k f).inbound = s.inbound := rfl
@[simp] theorem onDie_startLog (s : State) (k : Nat) (f : Die → Die) : (s.onDie k f).startLog = s.startLog := rfl
@[simp] theorem onDie_startCount (s : State) (k : Nat) (f : Die → Die) : (s.onDie k f).startCount = s.startCount := rfl
@[simp] theorem onDie_startStep (s : State) (k : Nat) (f : Die → Die) : (s.onDie k f).startStep = s.startStep := rfl
@[simp] theorem onDie_minSvn (s : State) (k : Nat) (f : Die → Die) : (s.onDie k f).minSvn = s.minSvn := rfl
@[simp] theorem onDie_fusesRead (s : State) (k : Nat) (f : Die → Die) : (s.onDie k f).fusesRead = s.fusesRead := rfl
@[simp] theorem onDie_spares (s : State) (k : Nat) (f : Die → Die) : (s.onDie k f).spares = s.spares := rfl
@[simp] theorem onDie_idKey (s : State) (k : Nat) (f : Die → Die) : (s.onDie k f).idKey = s.idKey := rfl
@[simp] theorem onDie_images (s : State) (k : Nat) (f : Die → Die) : (s.onDie k f).images = s.images := rfl
@[simp] theorem onDie_failRec (s : State) (k : Nat) (f : Die → Die) : (s.onDie k f).failRec = s.failRec := rfl
@[simp] theorem onDie_lastFail (s : State) (k : Nat) (f : Die → Die) : (s.onDie k f).lastFail = s.lastFail := rfl
@[simp] theorem onDie_captures (s : State) (k : Nat) (f : Die → Die) : (s.onDie k f).captures = s.captures := rfl
@[simp] theorem onDie_stop (s : State) (k : Nat) (f : Die → Die) : (s.onDie k f).stop = s.stop := rfl
@[simp] theorem onDie_replay (s : State) (k : Nat) (f : Die → Die) : (s.onDie k f).replay = s.replay := rfl
@[simp] theorem onDie_cmdNext (s : State) (k : Nat) (f : Die → Die) : (s.onDie k f).cmdNext = s.cmdNext := rfl
@[simp] theorem onDie_turn (s : State) (k : Nat) (f : Die → Die) : (s.onDie k f).turn = s.turn := rfl
@[simp] theorem onDie_beacons (s : State) (k : Nat) (f : Die → Die) : (s.onDie k f).beacons = s.beacons := rfl
@[simp] theorem onDie_waking (s : State) (k : Nat) (f : Die → Die) : (s.onDie k f).waking = s.waking := rfl
@[simp] theorem onDie_agenda (s : State) (k : Nat) (f : Die → Die) : (s.onDie k f).agenda = s.agenda := rfl
@[simp] theorem onDie_sel (s : State) (k : Nat) (f : Die → Die) : (s.onDie k f).sel = s.sel := rfl
@[simp] theorem onDie_fresh (s : State) (k : Nat) (f : Die → Die) : (s.onDie k f).fresh = s.fresh := rfl
@[simp] theorem onDie_nextTag (s : State) (k : Nat) (f : Die → Die) : (s.onDie k f).nextTag = s.nextTag := rfl
@[simp] theorem onDie_nextAge (s : State) (k : Nat) (f : Die → Die) : (s.onDie k f).nextAge = s.nextAge := rfl

/-! ### onQueue -/

@[simp] theorem onQueue_ac (s : State) (k : Nat) (f : Queue → Queue) : (s.onQueue k f).ac = s.ac := rfl
@[simp] theorem onQueue_power (s : State) (k : Nat) (f : Queue → Queue) : (s.onQueue k f).power = s.power := rfl
@[simp] theorem onQueue_team (s : State) (k : Nat) (f : Queue → Queue) : (s.onQueue k f).team = s.team := rfl
@[simp] theorem onQueue_teams (s : State) (k : Nat) (f : Queue → Queue) : (s.onQueue k f).teams = s.teams := rfl
@[simp] theorem onQueue_busy (s : State) (k : Nat) (f : Queue → Queue) : (s.onQueue k f).busy = s.busy := rfl
@[simp] theorem onQueue_issuer (s : State) (k : Nat) (f : Queue → Queue) : (s.onQueue k f).issuer = s.issuer := rfl
@[simp] theorem onQueue_blocks (s : State) (k : Nat) (f : Queue → Queue) : (s.onQueue k f).blocks = s.blocks := rfl
@[simp] theorem onQueue_nextBlock (s : State) (k : Nat) (f : Queue → Queue) : (s.onQueue k f).nextBlock = s.nextBlock := rfl
@[simp] theorem onQueue_grids (s : State) (k : Nat) (f : Queue → Queue) : (s.onQueue k f).grids = s.grids := rfl
@[simp] theorem onQueue_nextGrid (s : State) (k : Nat) (f : Queue → Queue) : (s.onQueue k f).nextGrid = s.nextGrid := rfl
@[simp] theorem onQueue_ctxs (s : State) (k : Nat) (f : Queue → Queue) : (s.onQueue k f).ctxs = s.ctxs := rfl
@[simp] theorem onQueue_cores (s : State) (k : Nat) (f : Queue → Queue) : (s.onQueue k f).cores = s.cores := rfl
@[simp] theorem onQueue_clusters (s : State) (k : Nat) (f : Queue → Queue) : (s.onQueue k f).clusters = s.clusters := rfl
@[simp] theorem onQueue_dies (s : State) (k : Nat) (f : Queue → Queue) : (s.onQueue k f).dies = s.dies := rfl
@[simp] theorem onQueue_nextJob (s : State) (k : Nat) (f : Queue → Queue) : (s.onQueue k f).nextJob = s.nextJob := rfl
@[simp] theorem onQueue_queues (s : State) (k : Nat) (f : Queue → Queue) : (s.onQueue k f).queues = mput s.queues k (f (s.queue k)) := rfl
@[simp] theorem onQueue_queueFree (s : State) (k : Nat) (f : Queue → Queue) : (s.onQueue k f).queueFree = s.queueFree := rfl
@[simp] theorem onQueue_colls (s : State) (k : Nat) (f : Queue → Queue) : (s.onQueue k f).colls = s.colls := rfl
@[simp] theorem onQueue_mem (s : State) (k : Nat) (f : Queue → Queue) : (s.onQueue k f).mem = s.mem := rfl
@[simp] theorem onQueue_split (s : State) (k : Nat) (f : Queue → Queue) : (s.onQueue k f).split = s.split := rfl
@[simp] theorem onQueue_launched (s : State) (k : Nat) (f : Queue → Queue) : (s.onQueue k f).launched = s.launched := rfl
@[simp] theorem onQueue_preq (s : State) (k : Nat) (f : Queue → Queue) : (s.onQueue k f).preq = s.preq := rfl
@[simp] theorem onQueue_nextSeq (s : State) (k : Nat) (f : Queue → Queue) : (s.onQueue k f).nextSeq = s.nextSeq := rfl
@[simp] theorem onQueue_prlate (s : State) (k : Nat) (f : Queue → Queue) : (s.onQueue k f).prlate = s.prlate := rfl
@[simp] theorem onQueue_cecount (s : State) (k : Nat) (f : Queue → Queue) : (s.onQueue k f).cecount = s.cecount := rfl
@[simp] theorem onQueue_bad (s : State) (k : Nat) (f : Queue → Queue) : (s.onQueue k f).bad = s.bad := rfl
@[simp] theorem onQueue_lost (s : State) (k : Nat) (f : Queue → Queue) : (s.onQueue k f).lost = s.lost := rfl
@[simp] theorem onQueue_ports (s : State) (k : Nat) (f : Queue → Queue) : (s.onQueue k f).ports = s.ports := rfl
@[simp] theorem onQueue_ftime (s : State) (k : Nat) (f : Queue → Queue) : (s.onQueue k f).ftime = s.ftime := rfl
@[simp] theorem onQueue_posts (s : State) (k : Nat) (f : Queue → Queue) : (s.onQueue k f).posts = s.posts := rfl
@[simp] theorem onQueue_creqs (s : State) (k : Nat) (f : Queue → Queue) : (s.onQueue k f).creqs = s.creqs := rfl
@[simp] theorem onQueue_grants (s : State) (k : Nat) (f : Queue → Queue) : (s.onQueue k f).grants = s.grants := rfl
@[simp] theorem onQueue_nextRank (s : State) (k : Nat) (f : Queue → Queue) : (s.onQueue k f).nextRank = s.nextRank := rfl
@[simp] theorem onQueue_scheds (s : State) (k : Nat) (f : Queue → Queue) : (s.onQueue k f).scheds = s.scheds := rfl
@[simp] theorem onQueue_swCtx (s : State) (k : Nat) (f : Queue → Queue) : (s.onQueue k f).swCtx = s.swCtx := rfl
@[simp] theorem onQueue_notices (s : State) (k : Nat) (f : Queue → Queue) : (s.onQueue k f).notices = s.notices := rfl
@[simp] theorem onQueue_imgSize (s : State) (k : Nat) (f : Queue → Queue) : (s.onQueue k f).imgSize = s.imgSize := rfl
@[simp] theorem onQueue_out (s : State) (k : Nat) (f : Queue → Queue) : (s.onQueue k f).out = s.out := rfl
@[simp] theorem onQueue_inbound (s : State) (k : Nat) (f : Queue → Queue) : (s.onQueue k f).inbound = s.inbound := rfl
@[simp] theorem onQueue_startLog (s : State) (k : Nat) (f : Queue → Queue) : (s.onQueue k f).startLog = s.startLog := rfl
@[simp] theorem onQueue_startCount (s : State) (k : Nat) (f : Queue → Queue) : (s.onQueue k f).startCount = s.startCount := rfl
@[simp] theorem onQueue_startStep (s : State) (k : Nat) (f : Queue → Queue) : (s.onQueue k f).startStep = s.startStep := rfl
@[simp] theorem onQueue_minSvn (s : State) (k : Nat) (f : Queue → Queue) : (s.onQueue k f).minSvn = s.minSvn := rfl
@[simp] theorem onQueue_fusesRead (s : State) (k : Nat) (f : Queue → Queue) : (s.onQueue k f).fusesRead = s.fusesRead := rfl
@[simp] theorem onQueue_spares (s : State) (k : Nat) (f : Queue → Queue) : (s.onQueue k f).spares = s.spares := rfl
@[simp] theorem onQueue_idKey (s : State) (k : Nat) (f : Queue → Queue) : (s.onQueue k f).idKey = s.idKey := rfl
@[simp] theorem onQueue_images (s : State) (k : Nat) (f : Queue → Queue) : (s.onQueue k f).images = s.images := rfl
@[simp] theorem onQueue_failRec (s : State) (k : Nat) (f : Queue → Queue) : (s.onQueue k f).failRec = s.failRec := rfl
@[simp] theorem onQueue_lastFail (s : State) (k : Nat) (f : Queue → Queue) : (s.onQueue k f).lastFail = s.lastFail := rfl
@[simp] theorem onQueue_captures (s : State) (k : Nat) (f : Queue → Queue) : (s.onQueue k f).captures = s.captures := rfl
@[simp] theorem onQueue_stop (s : State) (k : Nat) (f : Queue → Queue) : (s.onQueue k f).stop = s.stop := rfl
@[simp] theorem onQueue_replay (s : State) (k : Nat) (f : Queue → Queue) : (s.onQueue k f).replay = s.replay := rfl
@[simp] theorem onQueue_cmdNext (s : State) (k : Nat) (f : Queue → Queue) : (s.onQueue k f).cmdNext = s.cmdNext := rfl
@[simp] theorem onQueue_turn (s : State) (k : Nat) (f : Queue → Queue) : (s.onQueue k f).turn = s.turn := rfl
@[simp] theorem onQueue_beacons (s : State) (k : Nat) (f : Queue → Queue) : (s.onQueue k f).beacons = s.beacons := rfl
@[simp] theorem onQueue_waking (s : State) (k : Nat) (f : Queue → Queue) : (s.onQueue k f).waking = s.waking := rfl
@[simp] theorem onQueue_agenda (s : State) (k : Nat) (f : Queue → Queue) : (s.onQueue k f).agenda = s.agenda := rfl
@[simp] theorem onQueue_sel (s : State) (k : Nat) (f : Queue → Queue) : (s.onQueue k f).sel = s.sel := rfl
@[simp] theorem onQueue_fresh (s : State) (k : Nat) (f : Queue → Queue) : (s.onQueue k f).fresh = s.fresh := rfl
@[simp] theorem onQueue_nextTag (s : State) (k : Nat) (f : Queue → Queue) : (s.onQueue k f).nextTag = s.nextTag := rfl
@[simp] theorem onQueue_nextAge (s : State) (k : Nat) (f : Queue → Queue) : (s.onQueue k f).nextAge = s.nextAge := rfl

/-! ### onColl -/

@[simp] theorem onColl_ac (s : State) (k : Nat) (f : Coll → Coll) : (s.onColl k f).ac = s.ac := rfl
@[simp] theorem onColl_power (s : State) (k : Nat) (f : Coll → Coll) : (s.onColl k f).power = s.power := rfl
@[simp] theorem onColl_team (s : State) (k : Nat) (f : Coll → Coll) : (s.onColl k f).team = s.team := rfl
@[simp] theorem onColl_teams (s : State) (k : Nat) (f : Coll → Coll) : (s.onColl k f).teams = s.teams := rfl
@[simp] theorem onColl_busy (s : State) (k : Nat) (f : Coll → Coll) : (s.onColl k f).busy = s.busy := rfl
@[simp] theorem onColl_issuer (s : State) (k : Nat) (f : Coll → Coll) : (s.onColl k f).issuer = s.issuer := rfl
@[simp] theorem onColl_blocks (s : State) (k : Nat) (f : Coll → Coll) : (s.onColl k f).blocks = s.blocks := rfl
@[simp] theorem onColl_nextBlock (s : State) (k : Nat) (f : Coll → Coll) : (s.onColl k f).nextBlock = s.nextBlock := rfl
@[simp] theorem onColl_grids (s : State) (k : Nat) (f : Coll → Coll) : (s.onColl k f).grids = s.grids := rfl
@[simp] theorem onColl_nextGrid (s : State) (k : Nat) (f : Coll → Coll) : (s.onColl k f).nextGrid = s.nextGrid := rfl
@[simp] theorem onColl_ctxs (s : State) (k : Nat) (f : Coll → Coll) : (s.onColl k f).ctxs = s.ctxs := rfl
@[simp] theorem onColl_cores (s : State) (k : Nat) (f : Coll → Coll) : (s.onColl k f).cores = s.cores := rfl
@[simp] theorem onColl_clusters (s : State) (k : Nat) (f : Coll → Coll) : (s.onColl k f).clusters = s.clusters := rfl
@[simp] theorem onColl_dies (s : State) (k : Nat) (f : Coll → Coll) : (s.onColl k f).dies = s.dies := rfl
@[simp] theorem onColl_nextJob (s : State) (k : Nat) (f : Coll → Coll) : (s.onColl k f).nextJob = s.nextJob := rfl
@[simp] theorem onColl_queues (s : State) (k : Nat) (f : Coll → Coll) : (s.onColl k f).queues = s.queues := rfl
@[simp] theorem onColl_queueFree (s : State) (k : Nat) (f : Coll → Coll) : (s.onColl k f).queueFree = s.queueFree := rfl
@[simp] theorem onColl_colls (s : State) (k : Nat) (f : Coll → Coll) : (s.onColl k f).colls = mput s.colls k (f (s.coll k)) := rfl
@[simp] theorem onColl_mem (s : State) (k : Nat) (f : Coll → Coll) : (s.onColl k f).mem = s.mem := rfl
@[simp] theorem onColl_split (s : State) (k : Nat) (f : Coll → Coll) : (s.onColl k f).split = s.split := rfl
@[simp] theorem onColl_launched (s : State) (k : Nat) (f : Coll → Coll) : (s.onColl k f).launched = s.launched := rfl
@[simp] theorem onColl_preq (s : State) (k : Nat) (f : Coll → Coll) : (s.onColl k f).preq = s.preq := rfl
@[simp] theorem onColl_nextSeq (s : State) (k : Nat) (f : Coll → Coll) : (s.onColl k f).nextSeq = s.nextSeq := rfl
@[simp] theorem onColl_prlate (s : State) (k : Nat) (f : Coll → Coll) : (s.onColl k f).prlate = s.prlate := rfl
@[simp] theorem onColl_cecount (s : State) (k : Nat) (f : Coll → Coll) : (s.onColl k f).cecount = s.cecount := rfl
@[simp] theorem onColl_bad (s : State) (k : Nat) (f : Coll → Coll) : (s.onColl k f).bad = s.bad := rfl
@[simp] theorem onColl_lost (s : State) (k : Nat) (f : Coll → Coll) : (s.onColl k f).lost = s.lost := rfl
@[simp] theorem onColl_ports (s : State) (k : Nat) (f : Coll → Coll) : (s.onColl k f).ports = s.ports := rfl
@[simp] theorem onColl_ftime (s : State) (k : Nat) (f : Coll → Coll) : (s.onColl k f).ftime = s.ftime := rfl
@[simp] theorem onColl_posts (s : State) (k : Nat) (f : Coll → Coll) : (s.onColl k f).posts = s.posts := rfl
@[simp] theorem onColl_creqs (s : State) (k : Nat) (f : Coll → Coll) : (s.onColl k f).creqs = s.creqs := rfl
@[simp] theorem onColl_grants (s : State) (k : Nat) (f : Coll → Coll) : (s.onColl k f).grants = s.grants := rfl
@[simp] theorem onColl_nextRank (s : State) (k : Nat) (f : Coll → Coll) : (s.onColl k f).nextRank = s.nextRank := rfl
@[simp] theorem onColl_scheds (s : State) (k : Nat) (f : Coll → Coll) : (s.onColl k f).scheds = s.scheds := rfl
@[simp] theorem onColl_swCtx (s : State) (k : Nat) (f : Coll → Coll) : (s.onColl k f).swCtx = s.swCtx := rfl
@[simp] theorem onColl_notices (s : State) (k : Nat) (f : Coll → Coll) : (s.onColl k f).notices = s.notices := rfl
@[simp] theorem onColl_imgSize (s : State) (k : Nat) (f : Coll → Coll) : (s.onColl k f).imgSize = s.imgSize := rfl
@[simp] theorem onColl_out (s : State) (k : Nat) (f : Coll → Coll) : (s.onColl k f).out = s.out := rfl
@[simp] theorem onColl_inbound (s : State) (k : Nat) (f : Coll → Coll) : (s.onColl k f).inbound = s.inbound := rfl
@[simp] theorem onColl_startLog (s : State) (k : Nat) (f : Coll → Coll) : (s.onColl k f).startLog = s.startLog := rfl
@[simp] theorem onColl_startCount (s : State) (k : Nat) (f : Coll → Coll) : (s.onColl k f).startCount = s.startCount := rfl
@[simp] theorem onColl_startStep (s : State) (k : Nat) (f : Coll → Coll) : (s.onColl k f).startStep = s.startStep := rfl
@[simp] theorem onColl_minSvn (s : State) (k : Nat) (f : Coll → Coll) : (s.onColl k f).minSvn = s.minSvn := rfl
@[simp] theorem onColl_fusesRead (s : State) (k : Nat) (f : Coll → Coll) : (s.onColl k f).fusesRead = s.fusesRead := rfl
@[simp] theorem onColl_spares (s : State) (k : Nat) (f : Coll → Coll) : (s.onColl k f).spares = s.spares := rfl
@[simp] theorem onColl_idKey (s : State) (k : Nat) (f : Coll → Coll) : (s.onColl k f).idKey = s.idKey := rfl
@[simp] theorem onColl_images (s : State) (k : Nat) (f : Coll → Coll) : (s.onColl k f).images = s.images := rfl
@[simp] theorem onColl_failRec (s : State) (k : Nat) (f : Coll → Coll) : (s.onColl k f).failRec = s.failRec := rfl
@[simp] theorem onColl_lastFail (s : State) (k : Nat) (f : Coll → Coll) : (s.onColl k f).lastFail = s.lastFail := rfl
@[simp] theorem onColl_captures (s : State) (k : Nat) (f : Coll → Coll) : (s.onColl k f).captures = s.captures := rfl
@[simp] theorem onColl_stop (s : State) (k : Nat) (f : Coll → Coll) : (s.onColl k f).stop = s.stop := rfl
@[simp] theorem onColl_replay (s : State) (k : Nat) (f : Coll → Coll) : (s.onColl k f).replay = s.replay := rfl
@[simp] theorem onColl_cmdNext (s : State) (k : Nat) (f : Coll → Coll) : (s.onColl k f).cmdNext = s.cmdNext := rfl
@[simp] theorem onColl_turn (s : State) (k : Nat) (f : Coll → Coll) : (s.onColl k f).turn = s.turn := rfl
@[simp] theorem onColl_beacons (s : State) (k : Nat) (f : Coll → Coll) : (s.onColl k f).beacons = s.beacons := rfl
@[simp] theorem onColl_waking (s : State) (k : Nat) (f : Coll → Coll) : (s.onColl k f).waking = s.waking := rfl
@[simp] theorem onColl_agenda (s : State) (k : Nat) (f : Coll → Coll) : (s.onColl k f).agenda = s.agenda := rfl
@[simp] theorem onColl_sel (s : State) (k : Nat) (f : Coll → Coll) : (s.onColl k f).sel = s.sel := rfl
@[simp] theorem onColl_fresh (s : State) (k : Nat) (f : Coll → Coll) : (s.onColl k f).fresh = s.fresh := rfl
@[simp] theorem onColl_nextTag (s : State) (k : Nat) (f : Coll → Coll) : (s.onColl k f).nextTag = s.nextTag := rfl
@[simp] theorem onColl_nextAge (s : State) (k : Nat) (f : Coll → Coll) : (s.onColl k f).nextAge = s.nextAge := rfl

/-! ### onPort -/

@[simp] theorem onPort_ac (s : State) (k : Nat) (f : Port → Port) : (s.onPort k f).ac = s.ac := rfl
@[simp] theorem onPort_power (s : State) (k : Nat) (f : Port → Port) : (s.onPort k f).power = s.power := rfl
@[simp] theorem onPort_team (s : State) (k : Nat) (f : Port → Port) : (s.onPort k f).team = s.team := rfl
@[simp] theorem onPort_teams (s : State) (k : Nat) (f : Port → Port) : (s.onPort k f).teams = s.teams := rfl
@[simp] theorem onPort_busy (s : State) (k : Nat) (f : Port → Port) : (s.onPort k f).busy = s.busy := rfl
@[simp] theorem onPort_issuer (s : State) (k : Nat) (f : Port → Port) : (s.onPort k f).issuer = s.issuer := rfl
@[simp] theorem onPort_blocks (s : State) (k : Nat) (f : Port → Port) : (s.onPort k f).blocks = s.blocks := rfl
@[simp] theorem onPort_nextBlock (s : State) (k : Nat) (f : Port → Port) : (s.onPort k f).nextBlock = s.nextBlock := rfl
@[simp] theorem onPort_grids (s : State) (k : Nat) (f : Port → Port) : (s.onPort k f).grids = s.grids := rfl
@[simp] theorem onPort_nextGrid (s : State) (k : Nat) (f : Port → Port) : (s.onPort k f).nextGrid = s.nextGrid := rfl
@[simp] theorem onPort_ctxs (s : State) (k : Nat) (f : Port → Port) : (s.onPort k f).ctxs = s.ctxs := rfl
@[simp] theorem onPort_cores (s : State) (k : Nat) (f : Port → Port) : (s.onPort k f).cores = s.cores := rfl
@[simp] theorem onPort_clusters (s : State) (k : Nat) (f : Port → Port) : (s.onPort k f).clusters = s.clusters := rfl
@[simp] theorem onPort_dies (s : State) (k : Nat) (f : Port → Port) : (s.onPort k f).dies = s.dies := rfl
@[simp] theorem onPort_nextJob (s : State) (k : Nat) (f : Port → Port) : (s.onPort k f).nextJob = s.nextJob := rfl
@[simp] theorem onPort_queues (s : State) (k : Nat) (f : Port → Port) : (s.onPort k f).queues = s.queues := rfl
@[simp] theorem onPort_queueFree (s : State) (k : Nat) (f : Port → Port) : (s.onPort k f).queueFree = s.queueFree := rfl
@[simp] theorem onPort_colls (s : State) (k : Nat) (f : Port → Port) : (s.onPort k f).colls = s.colls := rfl
@[simp] theorem onPort_mem (s : State) (k : Nat) (f : Port → Port) : (s.onPort k f).mem = s.mem := rfl
@[simp] theorem onPort_split (s : State) (k : Nat) (f : Port → Port) : (s.onPort k f).split = s.split := rfl
@[simp] theorem onPort_launched (s : State) (k : Nat) (f : Port → Port) : (s.onPort k f).launched = s.launched := rfl
@[simp] theorem onPort_preq (s : State) (k : Nat) (f : Port → Port) : (s.onPort k f).preq = s.preq := rfl
@[simp] theorem onPort_nextSeq (s : State) (k : Nat) (f : Port → Port) : (s.onPort k f).nextSeq = s.nextSeq := rfl
@[simp] theorem onPort_prlate (s : State) (k : Nat) (f : Port → Port) : (s.onPort k f).prlate = s.prlate := rfl
@[simp] theorem onPort_cecount (s : State) (k : Nat) (f : Port → Port) : (s.onPort k f).cecount = s.cecount := rfl
@[simp] theorem onPort_bad (s : State) (k : Nat) (f : Port → Port) : (s.onPort k f).bad = s.bad := rfl
@[simp] theorem onPort_lost (s : State) (k : Nat) (f : Port → Port) : (s.onPort k f).lost = s.lost := rfl
@[simp] theorem onPort_ports (s : State) (k : Nat) (f : Port → Port) : (s.onPort k f).ports = mput s.ports k (f (s.port k)) := rfl
@[simp] theorem onPort_ftime (s : State) (k : Nat) (f : Port → Port) : (s.onPort k f).ftime = s.ftime := rfl
@[simp] theorem onPort_posts (s : State) (k : Nat) (f : Port → Port) : (s.onPort k f).posts = s.posts := rfl
@[simp] theorem onPort_creqs (s : State) (k : Nat) (f : Port → Port) : (s.onPort k f).creqs = s.creqs := rfl
@[simp] theorem onPort_grants (s : State) (k : Nat) (f : Port → Port) : (s.onPort k f).grants = s.grants := rfl
@[simp] theorem onPort_nextRank (s : State) (k : Nat) (f : Port → Port) : (s.onPort k f).nextRank = s.nextRank := rfl
@[simp] theorem onPort_scheds (s : State) (k : Nat) (f : Port → Port) : (s.onPort k f).scheds = s.scheds := rfl
@[simp] theorem onPort_swCtx (s : State) (k : Nat) (f : Port → Port) : (s.onPort k f).swCtx = s.swCtx := rfl
@[simp] theorem onPort_notices (s : State) (k : Nat) (f : Port → Port) : (s.onPort k f).notices = s.notices := rfl
@[simp] theorem onPort_imgSize (s : State) (k : Nat) (f : Port → Port) : (s.onPort k f).imgSize = s.imgSize := rfl
@[simp] theorem onPort_out (s : State) (k : Nat) (f : Port → Port) : (s.onPort k f).out = s.out := rfl
@[simp] theorem onPort_inbound (s : State) (k : Nat) (f : Port → Port) : (s.onPort k f).inbound = s.inbound := rfl
@[simp] theorem onPort_startLog (s : State) (k : Nat) (f : Port → Port) : (s.onPort k f).startLog = s.startLog := rfl
@[simp] theorem onPort_startCount (s : State) (k : Nat) (f : Port → Port) : (s.onPort k f).startCount = s.startCount := rfl
@[simp] theorem onPort_startStep (s : State) (k : Nat) (f : Port → Port) : (s.onPort k f).startStep = s.startStep := rfl
@[simp] theorem onPort_minSvn (s : State) (k : Nat) (f : Port → Port) : (s.onPort k f).minSvn = s.minSvn := rfl
@[simp] theorem onPort_fusesRead (s : State) (k : Nat) (f : Port → Port) : (s.onPort k f).fusesRead = s.fusesRead := rfl
@[simp] theorem onPort_spares (s : State) (k : Nat) (f : Port → Port) : (s.onPort k f).spares = s.spares := rfl
@[simp] theorem onPort_idKey (s : State) (k : Nat) (f : Port → Port) : (s.onPort k f).idKey = s.idKey := rfl
@[simp] theorem onPort_images (s : State) (k : Nat) (f : Port → Port) : (s.onPort k f).images = s.images := rfl
@[simp] theorem onPort_failRec (s : State) (k : Nat) (f : Port → Port) : (s.onPort k f).failRec = s.failRec := rfl
@[simp] theorem onPort_lastFail (s : State) (k : Nat) (f : Port → Port) : (s.onPort k f).lastFail = s.lastFail := rfl
@[simp] theorem onPort_captures (s : State) (k : Nat) (f : Port → Port) : (s.onPort k f).captures = s.captures := rfl
@[simp] theorem onPort_stop (s : State) (k : Nat) (f : Port → Port) : (s.onPort k f).stop = s.stop := rfl
@[simp] theorem onPort_replay (s : State) (k : Nat) (f : Port → Port) : (s.onPort k f).replay = s.replay := rfl
@[simp] theorem onPort_cmdNext (s : State) (k : Nat) (f : Port → Port) : (s.onPort k f).cmdNext = s.cmdNext := rfl
@[simp] theorem onPort_turn (s : State) (k : Nat) (f : Port → Port) : (s.onPort k f).turn = s.turn := rfl
@[simp] theorem onPort_beacons (s : State) (k : Nat) (f : Port → Port) : (s.onPort k f).beacons = s.beacons := rfl
@[simp] theorem onPort_waking (s : State) (k : Nat) (f : Port → Port) : (s.onPort k f).waking = s.waking := rfl
@[simp] theorem onPort_agenda (s : State) (k : Nat) (f : Port → Port) : (s.onPort k f).agenda = s.agenda := rfl
@[simp] theorem onPort_sel (s : State) (k : Nat) (f : Port → Port) : (s.onPort k f).sel = s.sel := rfl
@[simp] theorem onPort_fresh (s : State) (k : Nat) (f : Port → Port) : (s.onPort k f).fresh = s.fresh := rfl
@[simp] theorem onPort_nextTag (s : State) (k : Nat) (f : Port → Port) : (s.onPort k f).nextTag = s.nextTag := rfl
@[simp] theorem onPort_nextAge (s : State) (k : Nat) (f : Port → Port) : (s.onPort k f).nextAge = s.nextAge := rfl

/-! ### takeTag -/

@[simp] theorem takeTag_ac (s : State) : (s.takeTag.2).ac = s.ac := rfl
@[simp] theorem takeTag_power (s : State) : (s.takeTag.2).power = s.power := rfl
@[simp] theorem takeTag_team (s : State) : (s.takeTag.2).team = s.team := rfl
@[simp] theorem takeTag_teams (s : State) : (s.takeTag.2).teams = s.teams := rfl
@[simp] theorem takeTag_busy (s : State) : (s.takeTag.2).busy = s.busy := rfl
@[simp] theorem takeTag_issuer (s : State) : (s.takeTag.2).issuer = s.issuer := rfl
@[simp] theorem takeTag_blocks (s : State) : (s.takeTag.2).blocks = s.blocks := rfl
@[simp] theorem takeTag_nextBlock (s : State) : (s.takeTag.2).nextBlock = s.nextBlock := rfl
@[simp] theorem takeTag_grids (s : State) : (s.takeTag.2).grids = s.grids := rfl
@[simp] theorem takeTag_nextGrid (s : State) : (s.takeTag.2).nextGrid = s.nextGrid := rfl
@[simp] theorem takeTag_ctxs (s : State) : (s.takeTag.2).ctxs = s.ctxs := rfl
@[simp] theorem takeTag_cores (s : State) : (s.takeTag.2).cores = s.cores := rfl
@[simp] theorem takeTag_clusters (s : State) : (s.takeTag.2).clusters = s.clusters := rfl
@[simp] theorem takeTag_dies (s : State) : (s.takeTag.2).dies = s.dies := rfl
@[simp] theorem takeTag_nextJob (s : State) : (s.takeTag.2).nextJob = s.nextJob := rfl
@[simp] theorem takeTag_queues (s : State) : (s.takeTag.2).queues = s.queues := rfl
@[simp] theorem takeTag_queueFree (s : State) : (s.takeTag.2).queueFree = s.queueFree := rfl
@[simp] theorem takeTag_colls (s : State) : (s.takeTag.2).colls = s.colls := rfl
@[simp] theorem takeTag_mem (s : State) : (s.takeTag.2).mem = s.mem := rfl
@[simp] theorem takeTag_split (s : State) : (s.takeTag.2).split = s.split := rfl
@[simp] theorem takeTag_launched (s : State) : (s.takeTag.2).launched = s.launched := rfl
@[simp] theorem takeTag_preq (s : State) : (s.takeTag.2).preq = s.preq := rfl
@[simp] theorem takeTag_nextSeq (s : State) : (s.takeTag.2).nextSeq = s.nextSeq := rfl
@[simp] theorem takeTag_prlate (s : State) : (s.takeTag.2).prlate = s.prlate := rfl
@[simp] theorem takeTag_cecount (s : State) : (s.takeTag.2).cecount = s.cecount := rfl
@[simp] theorem takeTag_bad (s : State) : (s.takeTag.2).bad = s.bad := rfl
@[simp] theorem takeTag_lost (s : State) : (s.takeTag.2).lost = s.lost := rfl
@[simp] theorem takeTag_ports (s : State) : (s.takeTag.2).ports = s.ports := rfl
@[simp] theorem takeTag_ftime (s : State) : (s.takeTag.2).ftime = s.ftime := rfl
@[simp] theorem takeTag_posts (s : State) : (s.takeTag.2).posts = s.posts := rfl
@[simp] theorem takeTag_creqs (s : State) : (s.takeTag.2).creqs = s.creqs := rfl
@[simp] theorem takeTag_grants (s : State) : (s.takeTag.2).grants = s.grants := rfl
@[simp] theorem takeTag_nextRank (s : State) : (s.takeTag.2).nextRank = s.nextRank := rfl
@[simp] theorem takeTag_scheds (s : State) : (s.takeTag.2).scheds = s.scheds := rfl
@[simp] theorem takeTag_swCtx (s : State) : (s.takeTag.2).swCtx = s.swCtx := rfl
@[simp] theorem takeTag_notices (s : State) : (s.takeTag.2).notices = s.notices := rfl
@[simp] theorem takeTag_imgSize (s : State) : (s.takeTag.2).imgSize = s.imgSize := rfl
@[simp] theorem takeTag_out (s : State) : (s.takeTag.2).out = s.out := rfl
@[simp] theorem takeTag_inbound (s : State) : (s.takeTag.2).inbound = s.inbound := rfl
@[simp] theorem takeTag_startLog (s : State) : (s.takeTag.2).startLog = s.startLog := rfl
@[simp] theorem takeTag_startCount (s : State) : (s.takeTag.2).startCount = s.startCount := rfl
@[simp] theorem takeTag_startStep (s : State) : (s.takeTag.2).startStep = s.startStep := rfl
@[simp] theorem takeTag_minSvn (s : State) : (s.takeTag.2).minSvn = s.minSvn := rfl
@[simp] theorem takeTag_fusesRead (s : State) : (s.takeTag.2).fusesRead = s.fusesRead := rfl
@[simp] theorem takeTag_spares (s : State) : (s.takeTag.2).spares = s.spares := rfl
@[simp] theorem takeTag_idKey (s : State) : (s.takeTag.2).idKey = s.idKey := rfl
@[simp] theorem takeTag_images (s : State) : (s.takeTag.2).images = s.images := rfl
@[simp] theorem takeTag_failRec (s : State) : (s.takeTag.2).failRec = s.failRec := rfl
@[simp] theorem takeTag_lastFail (s : State) : (s.takeTag.2).lastFail = s.lastFail := rfl
@[simp] theorem takeTag_captures (s : State) : (s.takeTag.2).captures = s.captures := rfl
@[simp] theorem takeTag_stop (s : State) : (s.takeTag.2).stop = s.stop := rfl
@[simp] theorem takeTag_replay (s : State) : (s.takeTag.2).replay = s.replay := rfl
@[simp] theorem takeTag_cmdNext (s : State) : (s.takeTag.2).cmdNext = s.cmdNext := rfl
@[simp] theorem takeTag_turn (s : State) : (s.takeTag.2).turn = s.turn := rfl
@[simp] theorem takeTag_beacons (s : State) : (s.takeTag.2).beacons = s.beacons := rfl
@[simp] theorem takeTag_waking (s : State) : (s.takeTag.2).waking = s.waking := rfl
@[simp] theorem takeTag_agenda (s : State) : (s.takeTag.2).agenda = s.agenda := rfl
@[simp] theorem takeTag_sel (s : State) : (s.takeTag.2).sel = s.sel := rfl
@[simp] theorem takeTag_fresh (s : State) : (s.takeTag.2).fresh = s.fresh := rfl
@[simp] theorem takeTag_nextTag (s : State) : (s.takeTag.2).nextTag = s.nextTag + 1 := rfl
@[simp] theorem takeTag_nextAge (s : State) : (s.takeTag.2).nextAge = s.nextAge := rfl

/-! ### begin -/

@[simp] theorem begin_ac (p : Nat) (s : State) : (begin p s).ac = s.ac := rfl
@[simp] theorem begin_power (p : Nat) (s : State) : (begin p s).power = s.power := rfl
@[simp] theorem begin_teams (p : Nat) (s : State) : (begin p s).teams = s.teams := rfl
@[simp] theorem begin_busy (p : Nat) (s : State) : (begin p s).busy = mput s.busy (s.team.tid / 16) (s.ac + p) := rfl
@[simp] theorem begin_issuer (p : Nat) (s : State) : (begin p s).issuer = mput s.issuer (s.team.tid / 16) s.team.age := rfl
@[simp] theorem begin_blocks (p : Nat) (s : State) : (begin p s).blocks = s.blocks := rfl
@[simp] theorem begin_nextBlock (p : Nat) (s : State) : (begin p s).nextBlock = s.nextBlock := rfl
@[simp] theorem begin_grids (p : Nat) (s : State) : (begin p s).grids = s.grids := rfl
@[simp] theorem begin_nextGrid (p : Nat) (s : State) : (begin p s).nextGrid = s.nextGrid := rfl
@[simp] theorem begin_ctxs (p : Nat) (s : State) : (begin p s).ctxs = s.ctxs := rfl
@[simp] theorem begin_cores (p : Nat) (s : State) : (begin p s).cores = s.cores := rfl
@[simp] theorem begin_clusters (p : Nat) (s : State) : (begin p s).clusters = s.clusters := rfl
@[simp] theorem begin_dies (p : Nat) (s : State) : (begin p s).dies = s.dies := rfl
@[simp] theorem begin_nextJob (p : Nat) (s : State) : (begin p s).nextJob = s.nextJob := rfl
@[simp] theorem begin_queues (p : Nat) (s : State) : (begin p s).queues = s.queues := rfl
@[simp] theorem begin_queueFree (p : Nat) (s : State) : (begin p s).queueFree = s.queueFree := rfl
@[simp] theorem begin_colls (p : Nat) (s : State) : (begin p s).colls = s.colls := rfl
@[simp] theorem begin_mem (p : Nat) (s : State) : (begin p s).mem = s.mem := rfl
@[simp] theorem begin_split (p : Nat) (s : State) : (begin p s).split = s.split := rfl
@[simp] theorem begin_launched (p : Nat) (s : State) : (begin p s).launched = s.launched := rfl
@[simp] theorem begin_preq (p : Nat) (s : State) : (begin p s).preq = s.preq := rfl
@[simp] theorem begin_nextSeq (p : Nat) (s : State) : (begin p s).nextSeq = s.nextSeq := rfl
@[simp] theorem begin_prlate (p : Nat) (s : State) : (begin p s).prlate = s.prlate := rfl
@[simp] theorem begin_cecount (p : Nat) (s : State) : (begin p s).cecount = s.cecount := rfl
@[simp] theorem begin_bad (p : Nat) (s : State) : (begin p s).bad = s.bad := rfl
@[simp] theorem begin_lost (p : Nat) (s : State) : (begin p s).lost = s.lost := rfl
@[simp] theorem begin_ports (p : Nat) (s : State) : (begin p s).ports = s.ports := rfl
@[simp] theorem begin_ftime (p : Nat) (s : State) : (begin p s).ftime = s.ftime := rfl
@[simp] theorem begin_posts (p : Nat) (s : State) : (begin p s).posts = s.posts := rfl
@[simp] theorem begin_creqs (p : Nat) (s : State) : (begin p s).creqs = s.creqs := rfl
@[simp] theorem begin_grants (p : Nat) (s : State) : (begin p s).grants = s.grants := rfl
@[simp] theorem begin_nextRank (p : Nat) (s : State) : (begin p s).nextRank = s.nextRank := rfl
@[simp] theorem begin_scheds (p : Nat) (s : State) : (begin p s).scheds = s.scheds := rfl
@[simp] theorem begin_swCtx (p : Nat) (s : State) : (begin p s).swCtx = s.swCtx := rfl
@[simp] theorem begin_notices (p : Nat) (s : State) : (begin p s).notices = s.notices := rfl
@[simp] theorem begin_imgSize (p : Nat) (s : State) : (begin p s).imgSize = s.imgSize := rfl
@[simp] theorem begin_out (p : Nat) (s : State) : (begin p s).out = s.out := rfl
@[simp] theorem begin_inbound (p : Nat) (s : State) : (begin p s).inbound = s.inbound := rfl
@[simp] theorem begin_startLog (p : Nat) (s : State) : (begin p s).startLog = s.startLog := rfl
@[simp] theorem begin_startCount (p : Nat) (s : State) : (begin p s).startCount = s.startCount := rfl
@[simp] theorem begin_startStep (p : Nat) (s : State) : (begin p s).startStep = s.startStep := rfl
@[simp] theorem begin_minSvn (p : Nat) (s : State) : (begin p s).minSvn = s.minSvn := rfl
@[simp] theorem begin_fusesRead (p : Nat) (s : State) : (begin p s).fusesRead = s.fusesRead := rfl
@[simp] theorem begin_spares (p : Nat) (s : State) : (begin p s).spares = s.spares := rfl
@[simp] theorem begin_idKey (p : Nat) (s : State) : (begin p s).idKey = s.idKey := rfl
@[simp] theorem begin_images (p : Nat) (s : State) : (begin p s).images = s.images := rfl
@[simp] theorem begin_failRec (p : Nat) (s : State) : (begin p s).failRec = s.failRec := rfl
@[simp] theorem begin_lastFail (p : Nat) (s : State) : (begin p s).lastFail = s.lastFail := rfl
@[simp] theorem begin_captures (p : Nat) (s : State) : (begin p s).captures = s.captures := rfl
@[simp] theorem begin_stop (p : Nat) (s : State) : (begin p s).stop = s.stop := rfl
@[simp] theorem begin_replay (p : Nat) (s : State) : (begin p s).replay = s.replay := rfl
@[simp] theorem begin_cmdNext (p : Nat) (s : State) : (begin p s).cmdNext = s.cmdNext := rfl
@[simp] theorem begin_turn (p : Nat) (s : State) : (begin p s).turn = s.turn := rfl
@[simp] theorem begin_beacons (p : Nat) (s : State) : (begin p s).beacons = s.beacons := rfl
@[simp] theorem begin_waking (p : Nat) (s : State) : (begin p s).waking = s.waking := rfl
@[simp] theorem begin_agenda (p : Nat) (s : State) : (begin p s).agenda = s.agenda := rfl
@[simp] theorem begin_sel (p : Nat) (s : State) : (begin p s).sel = s.sel := rfl
@[simp] theorem begin_fresh (p : Nat) (s : State) : (begin p s).fresh = s.fresh := rfl
@[simp] theorem begin_nextTag (p : Nat) (s : State) : (begin p s).nextTag = s.nextTag := rfl
@[simp] theorem begin_nextAge (p : Nat) (s : State) : (begin p s).nextAge = s.nextAge := rfl

/-! ### addPend -/

@[simp] theorem addPend_ac (p : Pend) (s : State) : (addPend p s).ac = s.ac := rfl
@[simp] theorem addPend_power (p : Pend) (s : State) : (addPend p s).power = s.power := rfl
@[simp] theorem addPend_team (p : Pend) (s : State) : (addPend p s).team = { s.team with pend := s.team.pend ++ [p] } := rfl
@[simp] theorem addPend_teams (p : Pend) (s : State) : (addPend p s).teams = s.teams := rfl
@[simp] theorem addPend_busy (p : Pend) (s : State) : (addPend p s).busy = s.busy := rfl
@[simp] theorem addPend_issuer (p : Pend) (s : State) : (addPend p s).issuer = s.issuer := rfl
@[simp] theorem addPend_blocks (p : Pend) (s : State) : (addPend p s).blocks = s.blocks := rfl
@[simp] theorem addPend_nextBlock (p : Pend) (s : State) : (addPend p s).nextBlock = s.nextBlock := rfl
@[simp] theorem addPend_grids (p : Pend) (s : State) : (addPend p s).grids = s.grids := rfl
@[simp] theorem addPend_nextGrid (p : Pend) (s : State) : (addPend p s).nextGrid = s.nextGrid := rfl
@[simp] theorem addPend_ctxs (p : Pend) (s : State) : (addPend p s).ctxs = s.ctxs := rfl
@[simp] theorem addPend_cores (p : Pend) (s : State) : (addPend p s).cores = s.cores := rfl
@[simp] theorem addPend_clusters (p : Pend) (s : State) : (addPend p s).clusters = s.clusters := rfl
@[simp] theorem addPend_dies (p : Pend) (s : State) : (addPend p s).dies = s.dies := rfl
@[simp] theorem addPend_nextJob (p : Pend) (s : State) : (addPend p s).nextJob = s.nextJob := rfl
@[simp] theorem addPend_queues (p : Pend) (s : State) : (addPend p s).queues = s.queues := rfl
@[simp] theorem addPend_queueFree (p : Pend) (s : State) : (addPend p s).queueFree = s.queueFree := rfl
@[simp] theorem addPend_colls (p : Pend) (s : State) : (addPend p s).colls = s.colls := rfl
@[simp] theorem addPend_mem (p : Pend) (s : State) : (addPend p s).mem = s.mem := rfl
@[simp] theorem addPend_split (p : Pend) (s : State) : (addPend p s).split = s.split := rfl
@[simp] theorem addPend_launched (p : Pend) (s : State) : (addPend p s).launched = s.launched := rfl
@[simp] theorem addPend_preq (p : Pend) (s : State) : (addPend p s).preq = s.preq := rfl
@[simp] theorem addPend_nextSeq (p : Pend) (s : State) : (addPend p s).nextSeq = s.nextSeq := rfl
@[simp] theorem addPend_prlate (p : Pend) (s : State) : (addPend p s).prlate = s.prlate := rfl
@[simp] theorem addPend_cecount (p : Pend) (s : State) : (addPend p s).cecount = s.cecount := rfl
@[simp] theorem addPend_bad (p : Pend) (s : State) : (addPend p s).bad = s.bad := rfl
@[simp] theorem addPend_lost (p : Pend) (s : State) : (addPend p s).lost = s.lost := rfl
@[simp] theorem addPend_ports (p : Pend) (s : State) : (addPend p s).ports = s.ports := rfl
@[simp] theorem addPend_ftime (p : Pend) (s : State) : (addPend p s).ftime = s.ftime := rfl
@[simp] theorem addPend_posts (p : Pend) (s : State) : (addPend p s).posts = s.posts := rfl
@[simp] theorem addPend_creqs (p : Pend) (s : State) : (addPend p s).creqs = s.creqs := rfl
@[simp] theorem addPend_grants (p : Pend) (s : State) : (addPend p s).grants = s.grants := rfl
@[simp] theorem addPend_nextRank (p : Pend) (s : State) : (addPend p s).nextRank = s.nextRank := rfl
@[simp] theorem addPend_scheds (p : Pend) (s : State) : (addPend p s).scheds = s.scheds := rfl
@[simp] theorem addPend_swCtx (p : Pend) (s : State) : (addPend p s).swCtx = s.swCtx := rfl
@[simp] theorem addPend_notices (p : Pend) (s : State) : (addPend p s).notices = s.notices := rfl
@[simp] theorem addPend_imgSize (p : Pend) (s : State) : (addPend p s).imgSize = s.imgSize := rfl
@[simp] theorem addPend_out (p : Pend) (s : State) : (addPend p s).out = s.out := rfl
@[simp] theorem addPend_inbound (p : Pend) (s : State) : (addPend p s).inbound = s.inbound := rfl
@[simp] theorem addPend_startLog (p : Pend) (s : State) : (addPend p s).startLog = s.startLog := rfl
@[simp] theorem addPend_startCount (p : Pend) (s : State) : (addPend p s).startCount = s.startCount := rfl
@[simp] theorem addPend_startStep (p : Pend) (s : State) : (addPend p s).startStep = s.startStep := rfl
@[simp] theorem addPend_minSvn (p : Pend) (s : State) : (addPend p s).minSvn = s.minSvn := rfl
@[simp] theorem addPend_fusesRead (p : Pend) (s : State) : (addPend p s).fusesRead = s.fusesRead := rfl
@[simp] theorem addPend_spares (p : Pend) (s : State) : (addPend p s).spares = s.spares := rfl
@[simp] theorem addPend_idKey (p : Pend) (s : State) : (addPend p s).idKey = s.idKey := rfl
@[simp] theorem addPend_images (p : Pend) (s : State) : (addPend p s).images = s.images := rfl
@[simp] theorem addPend_failRec (p : Pend) (s : State) : (addPend p s).failRec = s.failRec := rfl
@[simp] theorem addPend_lastFail (p : Pend) (s : State) : (addPend p s).lastFail = s.lastFail := rfl
@[simp] theorem addPend_captures (p : Pend) (s : State) : (addPend p s).captures = s.captures := rfl
@[simp] theorem addPend_stop (p : Pend) (s : State) : (addPend p s).stop = s.stop := rfl
@[simp] theorem addPend_replay (p : Pend) (s : State) : (addPend p s).replay = s.replay := rfl
@[simp] theorem addPend_cmdNext (p : Pend) (s : State) : (addPend p s).cmdNext = s.cmdNext := rfl
@[simp] theorem addPend_turn (p : Pend) (s : State) : (addPend p s).turn = s.turn := rfl
@[simp] theorem addPend_beacons (p : Pend) (s : State) : (addPend p s).beacons = s.beacons := rfl
@[simp] theorem addPend_waking (p : Pend) (s : State) : (addPend p s).waking = s.waking := rfl
@[simp] theorem addPend_agenda (p : Pend) (s : State) : (addPend p s).agenda = s.agenda := rfl
@[simp] theorem addPend_sel (p : Pend) (s : State) : (addPend p s).sel = s.sel := rfl
@[simp] theorem addPend_fresh (p : Pend) (s : State) : (addPend p s).fresh = s.fresh := rfl
@[simp] theorem addPend_nextTag (p : Pend) (s : State) : (addPend p s).nextTag = s.nextTag := rfl
@[simp] theorem addPend_nextAge (p : Pend) (s : State) : (addPend p s).nextAge = s.nextAge := rfl

/-! ### addToken -/

@[simp] theorem addToken_ac (k : Token) (s : State) : (addToken k s).ac = s.ac := rfl
@[simp] theorem addToken_power (k : Token) (s : State) : (addToken k s).power = s.power := rfl
@[simp] theorem addToken_team (k : Token) (s : State) : (addToken k s).team = { s.team with stores := s.team.stores ++ [k] } := rfl
@[simp] theorem addToken_teams (k : Token) (s : State) : (addToken k s).teams = s.teams := rfl
@[simp] theorem addToken_busy (k : Token) (s : State) : (addToken k s).busy = s.busy := rfl
@[simp] theorem addToken_issuer (k : Token) (s : State) : (addToken k s).issuer = s.issuer := rfl
@[simp] theorem addToken_blocks (k : Token) (s : State) : (addToken k s).blocks = s.blocks := rfl
@[simp] theorem addToken_nextBlock (k : Token) (s : State) : (addToken k s).nextBlock = s.nextBlock := rfl
@[simp] theorem addToken_grids (k : Token) (s : State) : (addToken k s).grids = s.grids := rfl
@[simp] theorem addToken_nextGrid (k : Token) (s : State) : (addToken k s).nextGrid = s.nextGrid := rfl
@[simp] theorem addToken_ctxs (k : Token) (s : State) : (addToken k s).ctxs = s.ctxs := rfl
@[simp] theorem addToken_cores (k : Token) (s : State) : (addToken k s).cores = s.cores := rfl
@[simp] theorem addToken_clusters (k : Token) (s : State) : (addToken k s).clusters = s.clusters := rfl
@[simp] theorem addToken_dies (k : Token) (s : State) : (addToken k s).dies = s.dies := rfl
@[simp] theorem addToken_nextJob (k : Token) (s : State) : (addToken k s).nextJob = s.nextJob := rfl
@[simp] theorem addToken_queues (k : Token) (s : State) : (addToken k s).queues = s.queues := rfl
@[simp] theorem addToken_queueFree (k : Token) (s : State) : (addToken k s).queueFree = s.queueFree := rfl
@[simp] theorem addToken_colls (k : Token) (s : State) : (addToken k s).colls = s.colls := rfl
@[simp] theorem addToken_mem (k : Token) (s : State) : (addToken k s).mem = s.mem := rfl
@[simp] theorem addToken_split (k : Token) (s : State) : (addToken k s).split = s.split := rfl
@[simp] theorem addToken_launched (k : Token) (s : State) : (addToken k s).launched = s.launched := rfl
@[simp] theorem addToken_preq (k : Token) (s : State) : (addToken k s).preq = s.preq := rfl
@[simp] theorem addToken_nextSeq (k : Token) (s : State) : (addToken k s).nextSeq = s.nextSeq := rfl
@[simp] theorem addToken_prlate (k : Token) (s : State) : (addToken k s).prlate = s.prlate := rfl
@[simp] theorem addToken_cecount (k : Token) (s : State) : (addToken k s).cecount = s.cecount := rfl
@[simp] theorem addToken_bad (k : Token) (s : State) : (addToken k s).bad = s.bad := rfl
@[simp] theorem addToken_lost (k : Token) (s : State) : (addToken k s).lost = s.lost := rfl
@[simp] theorem addToken_ports (k : Token) (s : State) : (addToken k s).ports = s.ports := rfl
@[simp] theorem addToken_ftime (k : Token) (s : State) : (addToken k s).ftime = s.ftime := rfl
@[simp] theorem addToken_posts (k : Token) (s : State) : (addToken k s).posts = s.posts := rfl
@[simp] theorem addToken_creqs (k : Token) (s : State) : (addToken k s).creqs = s.creqs := rfl
@[simp] theorem addToken_grants (k : Token) (s : State) : (addToken k s).grants = s.grants := rfl
@[simp] theorem addToken_nextRank (k : Token) (s : State) : (addToken k s).nextRank = s.nextRank := rfl
@[simp] theorem addToken_scheds (k : Token) (s : State) : (addToken k s).scheds = s.scheds := rfl
@[simp] theorem addToken_swCtx (k : Token) (s : State) : (addToken k s).swCtx = s.swCtx := rfl
@[simp] theorem addToken_notices (k : Token) (s : State) : (addToken k s).notices = s.notices := rfl
@[simp] theorem addToken_imgSize (k : Token) (s : State) : (addToken k s).imgSize = s.imgSize := rfl
@[simp] theorem addToken_out (k : Token) (s : State) : (addToken k s).out = s.out := rfl
@[simp] theorem addToken_inbound (k : Token) (s : State) : (addToken k s).inbound = s.inbound := rfl
@[simp] theorem addToken_startLog (k : Token) (s : State) : (addToken k s).startLog = s.startLog := rfl
@[simp] theorem addToken_startCount (k : Token) (s : State) : (addToken k s).startCount = s.startCount := rfl
@[simp] theorem addToken_startStep (k : Token) (s : State) : (addToken k s).startStep = s.startStep := rfl
@[simp] theorem addToken_minSvn (k : Token) (s : State) : (addToken k s).minSvn = s.minSvn := rfl
@[simp] theorem addToken_fusesRead (k : Token) (s : State) : (addToken k s).fusesRead = s.fusesRead := rfl
@[simp] theorem addToken_spares (k : Token) (s : State) : (addToken k s).spares = s.spares := rfl
@[simp] theorem addToken_idKey (k : Token) (s : State) : (addToken k s).idKey = s.idKey := rfl
@[simp] theorem addToken_images (k : Token) (s : State) : (addToken k s).images = s.images := rfl
@[simp] theorem addToken_failRec (k : Token) (s : State) : (addToken k s).failRec = s.failRec := rfl
@[simp] theorem addToken_lastFail (k : Token) (s : State) : (addToken k s).lastFail = s.lastFail := rfl
@[simp] theorem addToken_captures (k : Token) (s : State) : (addToken k s).captures = s.captures := rfl
@[simp] theorem addToken_stop (k : Token) (s : State) : (addToken k s).stop = s.stop := rfl
@[simp] theorem addToken_replay (k : Token) (s : State) : (addToken k s).replay = s.replay := rfl
@[simp] theorem addToken_cmdNext (k : Token) (s : State) : (addToken k s).cmdNext = s.cmdNext := rfl
@[simp] theorem addToken_turn (k : Token) (s : State) : (addToken k s).turn = s.turn := rfl
@[simp] theorem addToken_beacons (k : Token) (s : State) : (addToken k s).beacons = s.beacons := rfl
@[simp] theorem addToken_waking (k : Token) (s : State) : (addToken k s).waking = s.waking := rfl
@[simp] theorem addToken_agenda (k : Token) (s : State) : (addToken k s).agenda = s.agenda := rfl
@[simp] theorem addToken_sel (k : Token) (s : State) : (addToken k s).sel = s.sel := rfl
@[simp] theorem addToken_fresh (k : Token) (s : State) : (addToken k s).fresh = s.fresh := rfl
@[simp] theorem addToken_nextTag (k : Token) (s : State) : (addToken k s).nextTag = s.nextTag := rfl
@[simp] theorem addToken_nextAge (k : Token) (s : State) : (addToken k s).nextAge = s.nextAge := rfl

/-! ### stallOn -/

@[simp] theorem stallOn_ac (k : Nat) (s : State) : (stallOn k s).ac = s.ac := rfl
@[simp] theorem stallOn_power (k : Nat) (s : State) : (stallOn k s).power = s.power := rfl
@[simp] theorem stallOn_team (k : Nat) (s : State) : (stallOn k s).team = { s.team with stall := k } := rfl
@[simp] theorem stallOn_teams (k : Nat) (s : State) : (stallOn k s).teams = s.teams := rfl
@[simp] theorem stallOn_busy (k : Nat) (s : State) : (stallOn k s).busy = s.busy := rfl
@[simp] theorem stallOn_issuer (k : Nat) (s : State) : (stallOn k s).issuer = s.issuer := rfl
@[simp] theorem stallOn_blocks (k : Nat) (s : State) : (stallOn k s).blocks = s.blocks := rfl
@[simp] theorem stallOn_nextBlock (k : Nat) (s : State) : (stallOn k s).nextBlock = s.nextBlock := rfl
@[simp] theorem stallOn_grids (k : Nat) (s : State) : (stallOn k s).grids = s.grids := rfl
@[simp] theorem stallOn_nextGrid (k : Nat) (s : State) : (stallOn k s).nextGrid = s.nextGrid := rfl
@[simp] theorem stallOn_ctxs (k : Nat) (s : State) : (stallOn k s).ctxs = s.ctxs := rfl
@[simp] theorem stallOn_cores (k : Nat) (s : State) : (stallOn k s).cores = s.cores := rfl
@[simp] theorem stallOn_clusters (k : Nat) (s : State) : (stallOn k s).clusters = s.clusters := rfl
@[simp] theorem stallOn_dies (k : Nat) (s : State) : (stallOn k s).dies = s.dies := rfl
@[simp] theorem stallOn_nextJob (k : Nat) (s : State) : (stallOn k s).nextJob = s.nextJob := rfl
@[simp] theorem stallOn_queues (k : Nat) (s : State) : (stallOn k s).queues = s.queues := rfl
@[simp] theorem stallOn_queueFree (k : Nat) (s : State) : (stallOn k s).queueFree = s.queueFree := rfl
@[simp] theorem stallOn_colls (k : Nat) (s : State) : (stallOn k s).colls = s.colls := rfl
@[simp] theorem stallOn_mem (k : Nat) (s : State) : (stallOn k s).mem = s.mem := rfl
@[simp] theorem stallOn_split (k : Nat) (s : State) : (stallOn k s).split = s.split := rfl
@[simp] theorem stallOn_launched (k : Nat) (s : State) : (stallOn k s).launched = s.launched := rfl
@[simp] theorem stallOn_preq (k : Nat) (s : State) : (stallOn k s).preq = s.preq := rfl
@[simp] theorem stallOn_nextSeq (k : Nat) (s : State) : (stallOn k s).nextSeq = s.nextSeq := rfl
@[simp] theorem stallOn_prlate (k : Nat) (s : State) : (stallOn k s).prlate = s.prlate := rfl
@[simp] theorem stallOn_cecount (k : Nat) (s : State) : (stallOn k s).cecount = s.cecount := rfl
@[simp] theorem stallOn_bad (k : Nat) (s : State) : (stallOn k s).bad = s.bad := rfl
@[simp] theorem stallOn_lost (k : Nat) (s : State) : (stallOn k s).lost = s.lost := rfl
@[simp] theorem stallOn_ports (k : Nat) (s : State) : (stallOn k s).ports = s.ports := rfl
@[simp] theorem stallOn_ftime (k : Nat) (s : State) : (stallOn k s).ftime = s.ftime := rfl
@[simp] theorem stallOn_posts (k : Nat) (s : State) : (stallOn k s).posts = s.posts := rfl
@[simp] theorem stallOn_creqs (k : Nat) (s : State) : (stallOn k s).creqs = s.creqs := rfl
@[simp] theorem stallOn_grants (k : Nat) (s : State) : (stallOn k s).grants = s.grants := rfl
@[simp] theorem stallOn_nextRank (k : Nat) (s : State) : (stallOn k s).nextRank = s.nextRank := rfl
@[simp] theorem stallOn_scheds (k : Nat) (s : State) : (stallOn k s).scheds = s.scheds := rfl
@[simp] theorem stallOn_swCtx (k : Nat) (s : State) : (stallOn k s).swCtx = s.swCtx := rfl
@[simp] theorem stallOn_notices (k : Nat) (s : State) : (stallOn k s).notices = s.notices := rfl
@[simp] theorem stallOn_imgSize (k : Nat) (s : State) : (stallOn k s).imgSize = s.imgSize := rfl
@[simp] theorem stallOn_out (k : Nat) (s : State) : (stallOn k s).out = s.out := rfl
@[simp] theorem stallOn_inbound (k : Nat) (s : State) : (stallOn k s).inbound = s.inbound := rfl
@[simp] theorem stallOn_startLog (k : Nat) (s : State) : (stallOn k s).startLog = s.startLog := rfl
@[simp] theorem stallOn_startCount (k : Nat) (s : State) : (stallOn k s).startCount = s.startCount := rfl
@[simp] theorem stallOn_startStep (k : Nat) (s : State) : (stallOn k s).startStep = s.startStep := rfl
@[simp] theorem stallOn_minSvn (k : Nat) (s : State) : (stallOn k s).minSvn = s.minSvn := rfl
@[simp] theorem stallOn_fusesRead (k : Nat) (s : State) : (stallOn k s).fusesRead = s.fusesRead := rfl
@[simp] theorem stallOn_spares (k : Nat) (s : State) : (stallOn k s).spares = s.spares := rfl
@[simp] theorem stallOn_idKey (k : Nat) (s : State) : (stallOn k s).idKey = s.idKey := rfl
@[simp] theorem stallOn_images (k : Nat) (s : State) : (stallOn k s).images = s.images := rfl
@[simp] theorem stallOn_failRec (k : Nat) (s : State) : (stallOn k s).failRec = s.failRec := rfl
@[simp] theorem stallOn_lastFail (k : Nat) (s : State) : (stallOn k s).lastFail = s.lastFail := rfl
@[simp] theorem stallOn_captures (k : Nat) (s : State) : (stallOn k s).captures = s.captures := rfl
@[simp] theorem stallOn_stop (k : Nat) (s : State) : (stallOn k s).stop = s.stop := rfl
@[simp] theorem stallOn_replay (k : Nat) (s : State) : (stallOn k s).replay = s.replay := rfl
@[simp] theorem stallOn_cmdNext (k : Nat) (s : State) : (stallOn k s).cmdNext = s.cmdNext := rfl
@[simp] theorem stallOn_turn (k : Nat) (s : State) : (stallOn k s).turn = s.turn := rfl
@[simp] theorem stallOn_beacons (k : Nat) (s : State) : (stallOn k s).beacons = s.beacons := rfl
@[simp] theorem stallOn_waking (k : Nat) (s : State) : (stallOn k s).waking = s.waking := rfl
@[simp] theorem stallOn_agenda (k : Nat) (s : State) : (stallOn k s).agenda = s.agenda := rfl
@[simp] theorem stallOn_sel (k : Nat) (s : State) : (stallOn k s).sel = s.sel := rfl
@[simp] theorem stallOn_fresh (k : Nat) (s : State) : (stallOn k s).fresh = s.fresh := rfl
@[simp] theorem stallOn_nextTag (k : Nat) (s : State) : (stallOn k s).nextTag = s.nextTag := rfl
@[simp] theorem stallOn_nextAge (k : Nat) (s : State) : (stallOn k s).nextAge = s.nextAge := rfl

/-! ### parkAt -/

@[simp] theorem parkAt_ac (p : Park) (s : State) : (parkAt p s).ac = s.ac := rfl
@[simp] theorem parkAt_power (p : Park) (s : State) : (parkAt p s).power = s.power := rfl
@[simp] theorem parkAt_teams (p : Park) (s : State) : (parkAt p s).teams = s.teams := rfl
@[simp] theorem parkAt_busy (p : Park) (s : State) : (parkAt p s).busy = s.busy := rfl
@[simp] theorem parkAt_issuer (p : Park) (s : State) : (parkAt p s).issuer = s.issuer := rfl
@[simp] theorem parkAt_blocks (p : Park) (s : State) : (parkAt p s).blocks = s.blocks := rfl
@[simp] theorem parkAt_nextBlock (p : Park) (s : State) : (parkAt p s).nextBlock = s.nextBlock := rfl
@[simp] theorem parkAt_grids (p : Park) (s : State) : (parkAt p s).grids = s.grids := rfl
@[simp] theorem parkAt_nextGrid (p : Park) (s : State) : (parkAt p s).nextGrid = s.nextGrid := rfl
@[simp] theorem parkAt_ctxs (p : Park) (s : State) : (parkAt p s).ctxs = s.ctxs := rfl
@[simp] theorem parkAt_cores (p : Park) (s : State) : (parkAt p s).cores = s.cores := rfl
@[simp] theorem parkAt_clusters (p : Park) (s : State) : (parkAt p s).clusters = s.clusters := rfl
@[simp] theorem parkAt_dies (p : Park) (s : State) : (parkAt p s).dies = s.dies := rfl
@[simp] theorem parkAt_nextJob (p : Park) (s : State) : (parkAt p s).nextJob = s.nextJob := rfl
@[simp] theorem parkAt_queues (p : Park) (s : State) : (parkAt p s).queues = s.queues := rfl
@[simp] theorem parkAt_queueFree (p : Park) (s : State) : (parkAt p s).queueFree = s.queueFree := rfl
@[simp] theorem parkAt_colls (p : Park) (s : State) : (parkAt p s).colls = s.colls := rfl
@[simp] theorem parkAt_mem (p : Park) (s : State) : (parkAt p s).mem = s.mem := rfl
@[simp] theorem parkAt_split (p : Park) (s : State) : (parkAt p s).split = s.split := rfl
@[simp] theorem parkAt_launched (p : Park) (s : State) : (parkAt p s).launched = s.launched := rfl
@[simp] theorem parkAt_preq (p : Park) (s : State) : (parkAt p s).preq = s.preq := rfl
@[simp] theorem parkAt_nextSeq (p : Park) (s : State) : (parkAt p s).nextSeq = s.nextSeq := rfl
@[simp] theorem parkAt_prlate (p : Park) (s : State) : (parkAt p s).prlate = s.prlate := rfl
@[simp] theorem parkAt_cecount (p : Park) (s : State) : (parkAt p s).cecount = s.cecount := rfl
@[simp] theorem parkAt_bad (p : Park) (s : State) : (parkAt p s).bad = s.bad := rfl
@[simp] theorem parkAt_lost (p : Park) (s : State) : (parkAt p s).lost = s.lost := rfl
@[simp] theorem parkAt_ports (p : Park) (s : State) : (parkAt p s).ports = s.ports := rfl
@[simp] theorem parkAt_ftime (p : Park) (s : State) : (parkAt p s).ftime = s.ftime := rfl
@[simp] theorem parkAt_posts (p : Park) (s : State) : (parkAt p s).posts = s.posts := rfl
@[simp] theorem parkAt_creqs (p : Park) (s : State) : (parkAt p s).creqs = s.creqs := rfl
@[simp] theorem parkAt_grants (p : Park) (s : State) : (parkAt p s).grants = s.grants := rfl
@[simp] theorem parkAt_nextRank (p : Park) (s : State) : (parkAt p s).nextRank = s.nextRank := rfl
@[simp] theorem parkAt_scheds (p : Park) (s : State) : (parkAt p s).scheds = s.scheds := rfl
@[simp] theorem parkAt_swCtx (p : Park) (s : State) : (parkAt p s).swCtx = s.swCtx := rfl
@[simp] theorem parkAt_notices (p : Park) (s : State) : (parkAt p s).notices = s.notices := rfl
@[simp] theorem parkAt_imgSize (p : Park) (s : State) : (parkAt p s).imgSize = s.imgSize := rfl
@[simp] theorem parkAt_out (p : Park) (s : State) : (parkAt p s).out = s.out := rfl
@[simp] theorem parkAt_inbound (p : Park) (s : State) : (parkAt p s).inbound = s.inbound := rfl
@[simp] theorem parkAt_startLog (p : Park) (s : State) : (parkAt p s).startLog = s.startLog := rfl
@[simp] theorem parkAt_startCount (p : Park) (s : State) : (parkAt p s).startCount = s.startCount := rfl
@[simp] theorem parkAt_startStep (p : Park) (s : State) : (parkAt p s).startStep = s.startStep := rfl
@[simp] theorem parkAt_minSvn (p : Park) (s : State) : (parkAt p s).minSvn = s.minSvn := rfl
@[simp] theorem parkAt_fusesRead (p : Park) (s : State) : (parkAt p s).fusesRead = s.fusesRead := rfl
@[simp] theorem parkAt_spares (p : Park) (s : State) : (parkAt p s).spares = s.spares := rfl
@[simp] theorem parkAt_idKey (p : Park) (s : State) : (parkAt p s).idKey = s.idKey := rfl
@[simp] theorem parkAt_images (p : Park) (s : State) : (parkAt p s).images = s.images := rfl
@[simp] theorem parkAt_failRec (p : Park) (s : State) : (parkAt p s).failRec = s.failRec := rfl
@[simp] theorem parkAt_lastFail (p : Park) (s : State) : (parkAt p s).lastFail = s.lastFail := rfl
@[simp] theorem parkAt_captures (p : Park) (s : State) : (parkAt p s).captures = s.captures := rfl
@[simp] theorem parkAt_stop (p : Park) (s : State) : (parkAt p s).stop = s.stop := rfl
@[simp] theorem parkAt_replay (p : Park) (s : State) : (parkAt p s).replay = s.replay := rfl
@[simp] theorem parkAt_cmdNext (p : Park) (s : State) : (parkAt p s).cmdNext = s.cmdNext := rfl
@[simp] theorem parkAt_turn (p : Park) (s : State) : (parkAt p s).turn = s.turn := rfl
@[simp] theorem parkAt_beacons (p : Park) (s : State) : (parkAt p s).beacons = s.beacons := rfl
@[simp] theorem parkAt_waking (p : Park) (s : State) : (parkAt p s).waking = s.waking := rfl
@[simp] theorem parkAt_agenda (p : Park) (s : State) : (parkAt p s).agenda = s.agenda := rfl
@[simp] theorem parkAt_sel (p : Park) (s : State) : (parkAt p s).sel = s.sel := rfl
@[simp] theorem parkAt_fresh (p : Park) (s : State) : (parkAt p s).fresh = s.fresh := rfl
@[simp] theorem parkAt_nextTag (p : Park) (s : State) : (parkAt p s).nextTag = s.nextTag := rfl
@[simp] theorem parkAt_nextAge (p : Park) (s : State) : (parkAt p s).nextAge = s.nextAge := rfl

/-! ### unpark -/

@[simp] theorem unpark_ac (s : State) : (unpark s).ac = s.ac := rfl
@[simp] theorem unpark_power (s : State) : (unpark s).power = s.power := rfl
@[simp] theorem unpark_team (s : State) : (unpark s).team = unparked s.ac s.team := rfl
@[simp] theorem unpark_teams (s : State) : (unpark s).teams = s.teams := rfl
@[simp] theorem unpark_busy (s : State) : (unpark s).busy = s.busy := rfl
@[simp] theorem unpark_issuer (s : State) : (unpark s).issuer = s.issuer := rfl
@[simp] theorem unpark_blocks (s : State) : (unpark s).blocks = s.blocks := rfl
@[simp] theorem unpark_nextBlock (s : State) : (unpark s).nextBlock = s.nextBlock := rfl
@[simp] theorem unpark_grids (s : State) : (unpark s).grids = s.grids := rfl
@[simp] theorem unpark_nextGrid (s : State) : (unpark s).nextGrid = s.nextGrid := rfl
@[simp] theorem unpark_ctxs (s : State) : (unpark s).ctxs = s.ctxs := rfl
@[simp] theorem unpark_cores (s : State) : (unpark s).cores = s.cores := rfl
@[simp] theorem unpark_clusters (s : State) : (unpark s).clusters = s.clusters := rfl
@[simp] theorem unpark_dies (s : State) : (unpark s).dies = s.dies := rfl
@[simp] theorem unpark_nextJob (s : State) : (unpark s).nextJob = s.nextJob := rfl
@[simp] theorem unpark_queues (s : State) : (unpark s).queues = s.queues := rfl
@[simp] theorem unpark_queueFree (s : State) : (unpark s).queueFree = s.queueFree := rfl
@[simp] theorem unpark_colls (s : State) : (unpark s).colls = s.colls := rfl
@[simp] theorem unpark_mem (s : State) : (unpark s).mem = s.mem := rfl
@[simp] theorem unpark_split (s : State) : (unpark s).split = s.split := rfl
@[simp] theorem unpark_launched (s : State) : (unpark s).launched = s.launched := rfl
@[simp] theorem unpark_preq (s : State) : (unpark s).preq = s.preq := rfl
@[simp] theorem unpark_nextSeq (s : State) : (unpark s).nextSeq = s.nextSeq := rfl
@[simp] theorem unpark_prlate (s : State) : (unpark s).prlate = s.prlate := rfl
@[simp] theorem unpark_cecount (s : State) : (unpark s).cecount = s.cecount := rfl
@[simp] theorem unpark_bad (s : State) : (unpark s).bad = s.bad := rfl
@[simp] theorem unpark_lost (s : State) : (unpark s).lost = s.lost := rfl
@[simp] theorem unpark_ports (s : State) : (unpark s).ports = s.ports := rfl
@[simp] theorem unpark_ftime (s : State) : (unpark s).ftime = s.ftime := rfl
@[simp] theorem unpark_posts (s : State) : (unpark s).posts = s.posts := rfl
@[simp] theorem unpark_creqs (s : State) : (unpark s).creqs = s.creqs := rfl
@[simp] theorem unpark_grants (s : State) : (unpark s).grants = s.grants := rfl
@[simp] theorem unpark_nextRank (s : State) : (unpark s).nextRank = s.nextRank := rfl
@[simp] theorem unpark_scheds (s : State) : (unpark s).scheds = s.scheds := rfl
@[simp] theorem unpark_swCtx (s : State) : (unpark s).swCtx = s.swCtx := rfl
@[simp] theorem unpark_notices (s : State) : (unpark s).notices = s.notices := rfl
@[simp] theorem unpark_imgSize (s : State) : (unpark s).imgSize = s.imgSize := rfl
@[simp] theorem unpark_out (s : State) : (unpark s).out = s.out := rfl
@[simp] theorem unpark_inbound (s : State) : (unpark s).inbound = s.inbound := rfl
@[simp] theorem unpark_startLog (s : State) : (unpark s).startLog = s.startLog := rfl
@[simp] theorem unpark_startCount (s : State) : (unpark s).startCount = s.startCount := rfl
@[simp] theorem unpark_startStep (s : State) : (unpark s).startStep = s.startStep := rfl
@[simp] theorem unpark_minSvn (s : State) : (unpark s).minSvn = s.minSvn := rfl
@[simp] theorem unpark_fusesRead (s : State) : (unpark s).fusesRead = s.fusesRead := rfl
@[simp] theorem unpark_spares (s : State) : (unpark s).spares = s.spares := rfl
@[simp] theorem unpark_idKey (s : State) : (unpark s).idKey = s.idKey := rfl
@[simp] theorem unpark_images (s : State) : (unpark s).images = s.images := rfl
@[simp] theorem unpark_failRec (s : State) : (unpark s).failRec = s.failRec := rfl
@[simp] theorem unpark_lastFail (s : State) : (unpark s).lastFail = s.lastFail := rfl
@[simp] theorem unpark_captures (s : State) : (unpark s).captures = s.captures := rfl
@[simp] theorem unpark_stop (s : State) : (unpark s).stop = s.stop := rfl
@[simp] theorem unpark_replay (s : State) : (unpark s).replay = s.replay := rfl
@[simp] theorem unpark_cmdNext (s : State) : (unpark s).cmdNext = s.cmdNext := rfl
@[simp] theorem unpark_turn (s : State) : (unpark s).turn = s.turn := rfl
@[simp] theorem unpark_beacons (s : State) : (unpark s).beacons = s.beacons := rfl
@[simp] theorem unpark_waking (s : State) : (unpark s).waking = s.waking := rfl
@[simp] theorem unpark_agenda (s : State) : (unpark s).agenda = s.agenda := rfl
@[simp] theorem unpark_sel (s : State) : (unpark s).sel = s.sel := rfl
@[simp] theorem unpark_fresh (s : State) : (unpark s).fresh = s.fresh := rfl
@[simp] theorem unpark_nextTag (s : State) : (unpark s).nextTag = s.nextTag := rfl
@[simp] theorem unpark_nextAge (s : State) : (unpark s).nextAge = s.nextAge := rfl

/-! ### The fields of the team under begin -/

@[simp] theorem begin_team_tid (p : Nat) (s : State) : (begin p s).team.tid = s.team.tid := rfl
@[simp] theorem begin_team_present (p : Nat) (s : State) : (begin p s).team.present = s.team.present := rfl
@[simp] theorem begin_team_blk (p : Nat) (s : State) : (begin p s).team.blk = s.team.blk := rfl
@[simp] theorem begin_team_role (p : Nat) (s : State) : (begin p s).team.role = s.team.role := rfl
@[simp] theorem begin_team_lanes (p : Nat) (s : State) : (begin p s).team.lanes = s.team.lanes := rfl
@[simp] theorem begin_team_nregs (p : Nat) (s : State) : (begin p s).team.nregs = s.team.nregs := rfl
@[simp] theorem begin_team_handler (p : Nat) (s : State) : (begin p s).team.handler = s.team.handler := rfl
@[simp] theorem begin_team_traced (p : Nat) (s : State) : (begin p s).team.traced = s.team.traced := rfl
@[simp] theorem begin_team_v (p : Nat) (s : State) : (begin p s).team.v = s.team.v := rfl
@[simp] theorem begin_team_vdead (p : Nat) (s : State) : (begin p s).team.vdead = s.team.vdead := rfl
@[simp] theorem begin_team_vundef (p : Nat) (s : State) : (begin p s).team.vundef = s.team.vundef := rfl
@[simp] theorem begin_team_rbad (p : Nat) (s : State) : (begin p s).team.rbad = s.team.rbad := rfl
@[simp] theorem begin_team_s (p : Nat) (s : State) : (begin p s).team.s = s.team.s := rfl
@[simp] theorem begin_team_sdead (p : Nat) (s : State) : (begin p s).team.sdead = s.team.sdead := rfl
@[simp] theorem begin_team_shadow (p : Nat) (s : State) : (begin p s).team.shadow = s.team.shadow := rfl
@[simp] theorem begin_team_shdead (p : Nat) (s : State) : (begin p s).team.shdead = s.team.shdead := rfl
@[simp] theorem begin_team_x (p : Nat) (s : State) : (begin p s).team.x = s.team.x := rfl
@[simp] theorem begin_team_wbase (p : Nat) (s : State) : (begin p s).team.wbase = s.team.wbase := rfl
@[simp] theorem begin_team_fmt (p : Nat) (s : State) : (begin p s).team.fmt = s.team.fmt := rfl
@[simp] theorem begin_team_tstat (p : Nat) (s : State) : (begin p s).team.tstat = s.team.tstat := rfl
@[simp] theorem begin_team_ptile (p : Nat) (s : State) : (begin p s).team.ptile = s.team.ptile := rfl
@[simp] theorem begin_team_pc (p : Nat) (s : State) : (begin p s).team.pc = s.team.pc := rfl
@[simp] theorem begin_team_live (p : Nat) (s : State) : (begin p s).team.live = s.team.live := rfl
@[simp] theorem begin_team_active (p : Nat) (s : State) : (begin p s).team.active = s.team.active := rfl
@[simp] theorem begin_team_cstack (p : Nat) (s : State) : (begin p s).team.cstack = s.team.cstack := rfl
@[simp] theorem begin_team_rstack (p : Nat) (s : State) : (begin p s).team.rstack = s.team.rstack := rfl
@[simp] theorem begin_team_rmove (p : Nat) (s : State) : (begin p s).team.rmove = s.team.rmove := rfl
@[simp] theorem begin_team_barPend (p : Nat) (s : State) : (begin p s).team.barPend = s.team.barPend := rfl
@[simp] theorem begin_team_barPhase (p : Nat) (s : State) : (begin p s).team.barPhase = s.team.barPhase := rfl
@[simp] theorem begin_team_rwc (p : Nat) (s : State) : (begin p s).team.rwc = s.team.rwc + 1 := rfl
@[simp] theorem begin_team_hmode (p : Nat) (s : State) : (begin p s).team.hmode = s.team.hmode := rfl
@[simp] theorem begin_team_trap (p : Nat) (s : State) : (begin p s).team.trap = s.team.trap := rfl
@[simp] theorem begin_team_trapReq (p : Nat) (s : State) : (begin p s).team.trapReq = s.team.trapReq := rfl
@[simp] theorem begin_team_events (p : Nat) (s : State) : (begin p s).team.events = s.team.events := rfl
@[simp] theorem begin_team_mcall (p : Nat) (s : State) : (begin p s).team.mcall = s.team.mcall := rfl
@[simp] theorem begin_team_reexec (p : Nat) (s : State) : (begin p s).team.reexec = s.team.reexec := rfl
@[simp] theorem begin_team_failed (p : Nat) (s : State) : (begin p s).team.failed = s.team.failed := rfl
@[simp] theorem begin_team_failFetch (p : Nat) (s : State) : (begin p s).team.failFetch = s.team.failFetch := rfl
@[simp] theorem begin_team_pend (p : Nat) (s : State) : (begin p s).team.pend = s.team.pend := rfl
@[simp] theorem begin_team_stores (p : Nat) (s : State) : (begin p s).team.stores = s.team.stores := rfl
@[simp] theorem begin_team_park (p : Nat) (s : State) : (begin p s).team.park = s.team.park := rfl
@[simp] theorem begin_team_farWait (p : Nat) (s : State) : (begin p s).team.farWait = s.team.farWait := rfl
@[simp] theorem begin_team_woke (p : Nat) (s : State) : (begin p s).team.woke = s.team.woke := rfl
@[simp] theorem begin_team_swDue (p : Nat) (s : State) : (begin p s).team.swDue = s.team.swDue := rfl
@[simp] theorem begin_team_stall (p : Nat) (s : State) : (begin p s).team.stall = 0 := rfl
@[simp] theorem begin_team_walked (p : Nat) (s : State) : (begin p s).team.walked = s.team.walked := rfl
@[simp] theorem begin_team_ir (p : Nat) (s : State) : (begin p s).team.ir = none := rfl
@[simp] theorem begin_team_age (p : Nat) (s : State) : (begin p s).team.age = s.team.age := rfl
@[simp] theorem begin_team_lastIssue (p : Nat) (s : State) : (begin p s).team.lastIssue = s.ac := rfl
@[simp] theorem begin_team_promoted (p : Nat) (s : State) : (begin p s).team.promoted = false := rfl
@[simp] theorem begin_team_readyAt (p : Nat) (s : State) : (begin p s).team.readyAt = s.team.readyAt := rfl
@[simp] theorem begin_team_tr (p : Nat) (s : State) : (begin p s).team.tr = s.team.tr := rfl

/-! ### Tables under their updates -/

@[simp] theorem onBlock_block (s : State) (k : Nat) (f : Block → Block) : (s.onBlock k f).block k = f (s.block k) := mget_mput_same ..
@[simp] theorem setBlock_block (s : State) (k : Nat) (x : Block) : (s.setBlock k x).block k = x := mget_mput_same ..
@[simp] theorem onGrid_grid (s : State) (k : Nat) (f : Grid → Grid) : (s.onGrid k f).grid k = f (s.grid k) := mget_mput_same ..
@[simp] theorem onCtx_ctx (s : State) (k : Nat) (f : Ctx → Ctx) : (s.onCtx k f).ctx k = f (s.ctx k) := mget_mput_same ..
@[simp] theorem onCore_core (s : State) (k : Nat) (f : Core → Core) : (s.onCore k f).core k = f (s.core k) := mget_mput_same ..
@[simp] theorem onCluster_cluster (s : State) (k : Nat) (f : Cluster → Cluster) : (s.onCluster k f).cluster k = f (s.cluster k) := mget_mput_same ..
@[simp] theorem onDie_die (s : State) (k : Nat) (f : Die → Die) : (s.onDie k f).die k = f (s.die k) := mget_mput_same ..
@[simp] theorem onQueue_queue (s : State) (k : Nat) (f : Queue → Queue) : (s.onQueue k f).queue k = f (s.queue k) := mget_mput_same ..
@[simp] theorem onColl_coll (s : State) (k : Nat) (f : Coll → Coll) : (s.onColl k f).coll k = f (s.coll k) := mget_mput_same ..
@[simp] theorem onPort_port (s : State) (k : Nat) (f : Port → Port) : (s.onPort k f).port k = f (s.port k) := mget_mput_same ..

end Sys2Proof.Machine
end

