-- ==== Sys2Proof/Laws/Registers.lean ====
section
/-!
SUPPORT. Laws of registers: reading after a write, dead flags, hints, and that these change nothing else of a team.
-/

namespace Sys2Proof.Machine

/-- The registers of `r` in the team `t`. -/
def withRegs (t r : Team) : Team :=
  { t with v := r.v, vdead := r.vdead, rbad := r.rbad, s := r.s, sdead := r.sdead, shadow := r.shadow, shdead := r.shdead }

/-- Two teams with the same registers under the same names. -/
structure SameBank (t u : Team) : Prop where
  v : u.v = t.v
  vdead : u.vdead = t.vdead
  rbad : u.rbad = t.rbad
  s : u.s = t.s
  sdead : u.sdead = t.sdead
  shadow : u.shadow = t.shadow
  shdead : u.shdead = t.shdead
  hmode : u.hmode = t.hmode
  nregs : u.nregs = t.nregs
  wbase : u.wbase = t.wbase

theorem SameBank.refl (t : Team) : SameBank t t := ⟨rfl, rfl, rfl, rfl, rfl, rfl, rfl, rfl, rfl, rfl⟩

theorem SameBank.withRegs {t u : Team} (h : SameBank t u) (r : Team) : SameBank (withRegs t r) (withRegs u r) :=
  ⟨rfl, rfl, rfl, rfl, rfl, rfl, rfl, h.hmode, h.nregs, h.wbase⟩

theorem SameBank.regCode {t u : Team} (h : SameBank t u) (f : Nat) : regCode u f = regCode t f := by
  unfold Machine.regCode; rw [h.hmode, h.nregs, h.wbase]

/-- A change of registers and dead flags alone, which looks at nothing but the registers and their names. -/
def OnlyRegs (f : Team → Team) : Prop := ∀ t u, SameBank t u → f u = withRegs u (f t)

theorem OnlyRegs.self {f : Team → Team} (h : OnlyRegs f) (t : Team) : f t = withRegs t (f t) := h t t (SameBank.refl t)

theorem onlyRegs_id : OnlyRegs id := by
  intro t u h
  obtain ⟨h1, h2, h3, h4, h5, h6, h7, -, -, -⟩ := h
  unfold Machine.withRegs id
  rw [← h1, ← h2, ← h3, ← h4, ← h5, ← h6, ← h7]

theorem withRegs_withRegs (t r q : Team) : withRegs (withRegs t r) q = withRegs t q := rfl

theorem OnlyRegs.comp {f g : Team → Team} (hf : OnlyRegs f) (hg : OnlyRegs g) : OnlyRegs fun t => f (g t) := by
  intro t u h
  have h2 : SameBank (g t) (g u) := by rw [hg t u h, hg.self t]; exact h.withRegs _
  show f (g u) = withRegs u (f (g t))
  rw [hf _ _ h2]
  conv_lhs => rw [hg t u h, withRegs_withRegs]

theorem setDead_onlyRegs (c l : Nat) (b : Bool) : OnlyRegs (setDead c l b) := by
  intro t u h
  obtain ⟨h1, h2, h3, h4, h5, h6, h7, -, -, -⟩ := h
  unfold setDead
  split_ifs <;> simp only [withRegs, ← h1, ← h2, ← h3, ← h4, ← h5, ← h6, ← h7]

theorem cleanReg_onlyRegs (c l : Nat) : OnlyRegs (cleanReg c l) := by
  intro t u h
  obtain ⟨h1, h2, h3, h4, h5, h6, h7, -, -, -⟩ := h
  simp only [cleanReg, withRegs, ← h1, ← h2, ← h3, ← h4, ← h5, ← h6, ← h7]

theorem writeReg_onlyRegs (c l : Nat) (x : Word) : OnlyRegs (writeReg c l x) := by
  have h : OnlyRegs fun t => (if c < 512 then { t with v := mset 0 t.v (l * 512 + c) x }
     else if c < 544 then { t with s := vset t.s (c - 512) x }
     else if c < 560 then { t with shadow := vset t.shadow (c - 544) x }
     else t) := by
    intro t u h
    obtain ⟨h1, h2, h3, h4, h5, h6, h7, -, -, -⟩ := h
    dsimp only
    split_ifs <;> simp only [withRegs, ← h1, ← h2, ← h3, ← h4, ← h5, ← h6, ← h7]
  exact (setDead_onlyRegs c l false).comp ((cleanReg_onlyRegs c l).comp h)

theorem writeRegs_cons (w : RegWrite) (ws : List RegWrite) (t : Team) :
    writeRegs (w :: ws) t = writeRegs ws (writeReg w.reg w.lane w.val t) := rfl

theorem writeRegs_onlyRegs (ws : List RegWrite) : OnlyRegs (writeRegs ws) := by
  induction ws with
  | nil => exact onlyRegs_id
  | cons w ws ih =>
    have h := OnlyRegs.comp ih (writeReg_onlyRegs w.reg w.lane w.val)
    exact h

theorem foldl_onlyRegs {β : Type} (f : Team → β → Team) (h : ∀ b, OnlyRegs fun t => f t b) (l : List β) :
    OnlyRegs fun t => l.foldl f t := by
  induction l with
  | nil => exact onlyRegs_id
  | cons b l ih => exact OnlyRegs.comp ih (h b)

theorem killField_onlyRegs (f n : Nat) (lanes : List Nat) : OnlyRegs (killField f n lanes) := by
  apply foldl_onlyRegs
  intro k t u h
  dsimp only
  rw [h.regCode]
  split
  · exact foldl_onlyRegs (fun t l => setDead (regCode _ (f + k)) l true t) (fun l => setDead_onlyRegs _ l true) lanes t u h
  · exact setDead_onlyRegs _ 0 true t u h

theorem applyHints_onlyRegs (h : Hd) (a : RegF) (na : Nat) (b : RegF) (nb : Nat) (lanes : List Nat) :
    OnlyRegs (applyHints h a na b nb lanes) := by
  have one : ∀ (c : Bool) f n, OnlyRegs fun t => if c then killField f n lanes t else t := by
    intro c f n; cases c
    · exact onlyRegs_id
    · exact killField_onlyRegs f n lanes
  have h2 := OnlyRegs.comp (one (lastB h.hnt) b.toNat nb) (one (lastA h.hnt) a.toNat na)
  exact h2

/-- Two teams in which a field names the same register. -/
structure SameNames (t u : Team) : Prop where
  hmode : u.hmode = t.hmode
  nregs : u.nregs = t.nregs
  wbase : u.wbase = t.wbase

theorem SameNames.refl (t : Team) : SameNames t t := ⟨rfl, rfl, rfl⟩

theorem SameNames.trans {t u w : Team} (h : SameNames t u) (k : SameNames u w) : SameNames t w :=
  ⟨k.hmode.trans h.hmode, k.nregs.trans h.nregs, k.wbase.trans h.wbase⟩

theorem SameNames.regCode {t u : Team} (h : SameNames t u) (f : Nat) : Machine.regCode t f = Machine.regCode u f := by
  unfold Machine.regCode; rw [h.hmode, h.nregs, h.wbase]

theorem OnlyRegs.names {f : Team → Team} (h : OnlyRegs f) (t : Team) : SameNames t (f t) := by
  rw [h.self t]; exact ⟨rfl, rfl, rfl⟩

theorem SameNames.setDead (c l : Nat) (b : Bool) (t : Team) : SameNames t (setDead c l b t) := (setDead_onlyRegs c l b).names t

theorem SameNames.killLanes (c : Nat) (lanes : List Nat) (t : Team) : SameNames t (lanes.foldl (fun t l => Machine.setDead c l true t) t) :=
  (foldl_onlyRegs (fun t l => Machine.setDead c l true t) (fun l => setDead_onlyRegs c l true) lanes).names t

theorem SameNames.killField (f n : Nat) (lanes : List Nat) (t : Team) : SameNames t (killField f n lanes t) :=
  (killField_onlyRegs f n lanes).names t

/-! ### Reading the bits of a register -/

/-- The bits of a register of a team, specials apart. -/
def teamBits (t : Team) (code lane : Nat) : Word :=
  if code < 512 then mget 0 t.v (lane * 512 + code)
  else if code < 544 then vget 0 t.s (code - 512)
  else if code < 560 then vget 0 t.shadow (code - 544) else 0

theorem regBits_eq (s : State) (c l : Nat) (h : regNamed c) : regBits s c l = teamBits s.team c l := by
  have h' : c < 560 := by unfold regNamed at h; omega
  unfold regBits teamBits
  by_cases h1 : c < 512
  · rw [if_pos h1, if_pos h1]
  · by_cases h2 : c < 544
    · rw [if_neg h1, if_neg h1, if_pos h2, if_pos h2]
    · rw [if_neg h1, if_neg h1, if_neg h2, if_neg h2, if_pos h', if_pos h']

theorem teamBits_setDead (c l : Nat) (b : Bool) (t : Team) (i j : Nat) : teamBits (setDead c l b t) i j = teamBits t i j := by
  unfold setDead; split_ifs <;> rfl

theorem teamBits_killField (f n : Nat) (lanes : List Nat) (t : Team) (i j : Nat) : teamBits (killField f n lanes t) i j = teamBits t i j := by
  unfold killField
  have one : ∀ (c : Nat) (t : Team), teamBits (lanes.foldl (fun t l => setDead c l true t) t) i j = teamBits t i j := by
    intro c
    induction lanes with
    | nil => intro t; rfl
    | cons l ls ih => intro t; rw [List.foldl_cons, ih, teamBits_setDead]
  generalize List.range n = ks
  induction ks generalizing t with
  | nil => rfl
  | cons k ks ih =>
    rw [List.foldl_cons, ih]
    dsimp only
    split
    · exact one _ t
    · exact teamBits_setDead ..

theorem teamBits_applyHints (h : Hd) (a : RegF) (na : Nat) (b : RegF) (nb : Nat) (lanes : List Nat) (t : Team) (i j : Nat) :
    teamBits (applyHints h a na b nb lanes t) i j = teamBits t i j := by
  unfold applyHints
  dsimp only
  split_ifs <;> simp [teamBits_killField]

/-- A register that can be written: its code and the write's lane. -/
theorem teamBits_writeReg (c l : Nat) (x : Word) (t : Team) (i j : Nat) (hc : regNamed c) (hi : regNamed i) :
    teamBits (writeReg c l x t) i j = if c = i ∧ (512 ≤ c ∨ l = j) then x else teamBits t i j := by
  unfold writeReg
  rw [teamBits_setDead]
  rw [show ∀ u : Team, teamBits (cleanReg c l u) i j = teamBits u i j from fun _ => rfl]
  unfold regNamed at hc hi
  unfold teamBits
  by_cases h1 : c < 512
  · simp only [h1, if_true]
    by_cases h2 : i < 512
    · simp only [h2, if_true, mget_mset]
      by_cases h3 : l * 512 + c = j * 512 + i
      · have h4 : c = i ∧ l = j := by omega
        simp [h4]
      · have h4 : ¬ (c = i ∧ (512 ≤ c ∨ l = j)) := by omega
        simp [h3, h4]
    · have h4 : ¬ (c = i ∧ (512 ≤ c ∨ l = j)) := by omega
      simp [h2, h4]
  · by_cases h2 : c < 544
    · simp only [h1, h2, if_true, if_false]
      by_cases h3 : i < 512
      · have h4 : ¬ (c = i ∧ (512 ≤ c ∨ l = j)) := by omega
        simp [h3, h4]
      · by_cases h5 : i < 544
        · simp only [h3, h5, if_true, if_false, vget_vset]
          by_cases h6 : c = i
          · subst h6
            have e1 : c - 512 < 24 := by omega
            have e2 : 512 ≤ c := by omega
            simp [e1, e2]
          · have e1 : ¬ (c - 512 = i - 512) := by omega
            simp [e1, h6]
        · have h4 : ¬ (c = i ∧ (512 ≤ c ∨ l = j)) := by omega
          simp [h3, h5, h4]
    · have h7 : c < 560 := by omega
      simp only [h1, h2, h7, if_true, if_false]
      by_cases h3 : i < 544
      · have h4 : ¬ (c = i ∧ (512 ≤ c ∨ l = j)) := by omega
        by_cases h5 : i < 512 <;> simp [h3, h5, h4]
      · have h5 : ¬ i < 512 := by omega
        have h6 : i < 560 := by omega
        simp only [h3, h5, h6, if_true, if_false, vget_vset]
        by_cases h8 : c = i
        · subst h8
          have e1 : c - 544 < 8 := by omega
          have e2 : 512 ≤ c := by omega
          simp [e1, e2]
        · have e1 : ¬ (c - 544 = i - 544) := by omega
          simp [e1, h8]

theorem written_nil (c l : Nat) : written [] c l = none := rfl

theorem written_append (ws us : List RegWrite) (c l : Nat) : written (ws ++ us) c l = (written us c l).or (written ws c l) := by
  unfold written
  rw [List.reverse_append, List.find?_append]
  cases (us.reverse.find? _) <;> simp

theorem written_cons (w : RegWrite) (ws : List RegWrite) (c l : Nat) :
    written (w :: ws) c l = (written ws c l).or (if w.reg = c ∧ (512 ≤ c ∨ w.lane = l) then some w.val else none) := by
  have h : w :: ws = [w] ++ ws := rfl
  rw [h, written_append]
  congr 1
  unfold written
  by_cases h1 : w.reg = c ∧ (512 ≤ c ∨ w.lane = l)
  · simp [h1]
  · rw [if_neg h1]
    have : (w.reg == c && (decide (512 ≤ c) || w.lane == l)) = false := by
      rw [Bool.eq_false_iff]; simpa using h1
    simp [this]

theorem teamBits_writeRegs (ws : List RegWrite) : ∀ (t : Team) (i j : Nat), (∀ w ∈ ws, regNamed w.reg) → regNamed i →
    teamBits (writeRegs ws t) i j = (written ws i j).getD (teamBits t i j) := by
  induction ws with
  | nil => intro t i j _ _; rfl
  | cons w ws ih =>
    intro t i j hw hi
    rw [writeRegs_cons, ih _ _ _ (fun u hu => hw u (List.mem_cons_of_mem _ hu)) hi, written_cons,
      teamBits_writeReg _ _ _ _ _ _ (hw w (List.mem_cons_self ..)) hi]
    cases written ws i j with
    | some x => simp
    | none =>
      by_cases h : w.reg = i
      · subst h; by_cases h2 : 512 ≤ w.reg ∨ w.lane = j <;> simp [h2]
      · simp [h]

/-! ### Dead flags -/

theorem getLsbD_orBit {n : Nat} (x : BitVec n) (k i : Nat) (hi : i < n) :
    (x ||| BitVec.ofNat n (2 ^ k)).getLsbD i = if k = i then true else x.getLsbD i := by
  simp only [BitVec.getLsbD_or, BitVec.getLsbD_ofNat, Nat.testBit_two_pow, hi, decide_true, Bool.true_and]
  by_cases h : k = i <;> simp [h]

theorem getLsbD_clearBit {n : Nat} (x : BitVec n) (k i : Nat) (hi : i < n) :
    (x &&& ~~~ (BitVec.ofNat n (2 ^ k))).getLsbD i = if k = i then false else x.getLsbD i := by
  simp only [BitVec.getLsbD_and, BitVec.getLsbD_not, BitVec.getLsbD_ofNat, Nat.testBit_two_pow, hi, decide_true, Bool.true_and]
  by_cases h : k = i <;> simp [h]

theorem regDead_setDead (c l : Nat) (b : Bool) (t : Team) (i j : Nat) (hc : regNamed c) (hi : regNamed i) :
    regDead (setDead c l b t) i j = if c = i ∧ (512 ≤ c ∨ l = j) then b else regDead t i j := by
  unfold regNamed at hc hi
  unfold setDead regDead
  by_cases h1 : c < 512
  · simp only [h1, if_true]
    by_cases h2 : i < 512
    · simp only [h2, if_true, mget_mset]
      by_cases h3 : l * 512 + c = j * 512 + i
      · have h4 : c = i ∧ l = j := by omega
        simp [h4]
      · have h4 : ¬ (c = i ∧ (512 ≤ c ∨ l = j)) := by omega
        simp [h3, h4]
    · have h4 : ¬ (c = i ∧ (512 ≤ c ∨ l = j)) := by omega
      simp [h2, h4]
  · by_cases h2 : c < 544
    · simp only [h1, h2, if_true, if_false]
      by_cases h3 : i < 512
      · have h4 : ¬ (c = i ∧ (512 ≤ c ∨ l = j)) := by omega
        simp [h3, h4]
      · by_cases h5 : i < 544
        · have e0 : i - 512 < 24 := by omega
          have e1 : (c - 512 = i - 512) ↔ (c = i ∧ (512 ≤ c ∨ l = j)) := by omega
          simp only [h3, h5, if_true, if_false]
          cases b
          · rw [if_neg (by simp), getLsbD_clearBit _ _ _ e0]; simp only [e1]
          · rw [if_pos rfl, getLsbD_orBit _ _ _ e0]; simp only [e1]
        · have h4 : ¬ (c = i ∧ (512 ≤ c ∨ l = j)) := by omega
          simp [h3, h5, h4]
    · have h7 : c < 560 := by omega
      simp only [h1, h2, h7, if_true, if_false]
      by_cases h3 : i < 544
      · have h4 : ¬ (c = i ∧ (512 ≤ c ∨ l = j)) := by omega
        by_cases h5 : i < 512 <;> simp [h3, h5, h4]
      · have h5 : ¬ i < 512 := by omega
        have h6 : i < 560 := by omega
        have e0 : i - 544 < 8 := by omega
        have e1 : (c - 544 = i - 544) ↔ (c = i ∧ (512 ≤ c ∨ l = j)) := by omega
        simp only [h3, h5, h6, if_true, if_false]
        cases b
        · rw [if_neg (by simp), getLsbD_clearBit _ _ _ e0]; simp only [e1]
        · rw [if_pos rfl, getLsbD_orBit _ _ _ e0]; simp only [e1]

theorem regDead_writeReg (c l : Nat) (x : Word) (t : Team) (i j : Nat) (hc : regNamed c) (hi : regNamed i) :
    regDead (writeReg c l x t) i j = if c = i ∧ (512 ≤ c ∨ l = j) then false else regDead t i j := by
  have same : ∀ t' : Team, t'.vdead = t.vdead → t'.sdead = t.sdead → t'.shdead = t.shdead → regDead t' i j = regDead t i j := by
    intro t' h1 h2 h3; unfold regDead; rw [h1, h2, h3]
  unfold writeReg
  rw [regDead_setDead _ _ _ _ _ _ hc hi, show ∀ u : Team, regDead (cleanReg c l u) i j = regDead u i j from fun _ => rfl,
    same _ (by split_ifs <;> rfl) (by split_ifs <;> rfl) (by split_ifs <;> rfl)]

theorem regDead_writeRegs (ws : List RegWrite) : ∀ (t : Team) (i j : Nat), (∀ w ∈ ws, regNamed w.reg) → regNamed i →
    regDead (writeRegs ws t) i j = if (written ws i j).isSome then false else regDead t i j := by
  induction ws with
  | nil => intro t i j _ _; rfl
  | cons w ws ih =>
    intro t i j hw hi
    rw [writeRegs_cons, ih _ _ _ (fun u hu => hw u (List.mem_cons_of_mem _ hu)) hi, written_cons,
      regDead_writeReg _ _ _ _ _ _ (hw w (List.mem_cons_self ..)) hi]
    cases written ws i j with
    | some x => simp
    | none =>
      by_cases h : w.reg = i
      · subst h; by_cases h2 : 512 ≤ w.reg ∨ w.lane = j <;> simp [h2]
      · simp [h]

/-! ### Errors -/

theorem setDead_rbad (c l : Nat) (b : Bool) (t : Team) : (setDead c l b t).rbad = t.rbad := by
  unfold setDead; split_ifs <;> rfl

theorem writeReg_rbad (c l : Nat) (x : Word) (t : Team) : (writeReg c l x t).rbad = t.rbad.filter (· != regKey c l) := by
  unfold writeReg
  rw [setDead_rbad]
  show List.filter _ (Team.rbad _) = _
  split_ifs <;> rfl

theorem writeRegs_rbad (ws : List RegWrite) : ∀ t : Team,
    (writeRegs ws t).rbad = t.rbad.filter fun k => !(ws.any fun w => k == regKey w.reg w.lane) := by
  induction ws with
  | nil => intro t; simp [writeRegs]
  | cons w ws ih =>
    intro t
    rw [writeRegs_cons, ih, writeReg_rbad, List.filter_filter]
    congr 1; funext k
    simp only [List.any_cons, Bool.not_or, bne]
    exact Bool.and_comm _ _

/-! ### Hints -/

/-- Whether one hinted field kills a register, a vector register in the lanes given. -/
def killedBy (t : Team) (fs lanes : List Nat) (c l : Nat) : Bool :=
  (fs.any fun f => regCode t f == c) && (decide (512 ≤ c) || lanes.contains l)

theorem regDead_setDead' (c l : Nat) (t : Team) (i j : Nat) (hi : regNamed i) :
    regDead (setDead c l true t) i j = (regDead t i j || (c == i && (decide (512 ≤ c) || l == j))) := by
  by_cases hc : regNamed c
  · rw [regDead_setDead c l true t i j hc hi]
    by_cases h : c = i ∧ (512 ≤ c ∨ l = j)
    · rw [if_pos h, show (c == i && (decide (512 ≤ c) || l == j)) = true from by simpa using h, Bool.or_true]
    · rw [if_neg h]
      have : (c == i && (decide (512 ≤ c) || l == j)) = false := by rw [Bool.eq_false_iff]; simpa using h
      rw [this, Bool.or_false]
  · have e : (c == i) = false := by
      rw [Bool.eq_false_iff]; intro h; exact hc (beq_iff_eq.1 h ▸ hi)
    rw [e, Bool.false_and, Bool.or_false]
    unfold regNamed at hc hi
    unfold setDead
    by_cases h1 : c < 512
    · omega
    · rw [if_neg h1]
      by_cases h2 : c < 544
      · rw [if_pos h2]
        simp only [if_true]
        unfold regDead
        by_cases h3 : i < 512
        · simp [h3]
        · by_cases h4 : i < 544
          · simp only [h3, h4, if_true, if_false]
            have e0 : i - 512 < 24 := by omega
            rw [getLsbD_orBit _ _ _ e0, if_neg (by omega)]
          · simp [h3, h4]
      · rw [if_neg h2]
        by_cases h5 : c < 560
        · rw [if_pos h5]
          simp only [if_true]
          unfold regDead
          by_cases h3 : i < 544
          · by_cases h4 : i < 512 <;> simp [h3, h4]
          · have h4 : ¬ i < 512 := by omega
            have h6 : i < 560 := by omega
            have e0 : i - 544 < 8 := by omega
            simp only [h3, h4, h6, if_true, if_false]
            rw [getLsbD_orBit _ _ _ e0, if_neg (by omega)]
        · rw [if_neg h5]

theorem regDead_killLanes (c : Nat) (lanes : List Nat) (i j : Nat) (hi : regNamed i) (hc : c < 512) : ∀ t : Team,
    regDead (lanes.foldl (fun t l => setDead c l true t) t) i j = (regDead t i j || (c == i && lanes.contains j)) := by
  induction lanes with
  | nil => intro t; simp
  | cons l ls ih =>
    intro t
    rw [List.foldl_cons, ih, regDead_setDead' _ _ _ _ _ hi, List.contains_cons]
    have e : decide (512 ≤ c) = false := by simpa using hc
    rw [e, Bool.false_or, Bool.or_assoc, ← Bool.and_or_distrib_left]
    rw [show (l == j) = (j == l) from Bool.beq_comm]

theorem regDead_killField (f : RegF) (n : Nat) (lanes : List Nat) (i j : Nat) (hi : regNamed i) (t : Team) :
    regDead (killField f.toNat n lanes t) i j = (regDead t i j || killedBy t (fieldsFrom f n) lanes i j) := by
  have gen : ∀ (ks : List Nat) (t u : Team), SameNames t u →
      regDead (ks.foldl (fun t k =>
        let c := regCode t (f.toNat + k)
        if c < 512 then lanes.foldl (fun t l => setDead c l true t) t else setDead c 0 true t) u) i j =
      (regDead u i j || killedBy t (ks.map (f.toNat + ·)) lanes i j) := by
    intro ks
    induction ks with
    | nil => intro t u _; simp [killedBy]
    | cons k ks ih =>
      intro t u hn
      rw [List.foldl_cons]
      have hs : SameNames t (let c := regCode u (f.toNat + k)
          if c < 512 then lanes.foldl (fun t l => setDead c l true t) u else setDead c 0 true u) := by
        dsimp only
        split
        · exact hn.trans (SameNames.killLanes _ _ _)
        · exact hn.trans (SameNames.setDead _ _ _ _)
      rw [ih t _ hs]
      dsimp only
      rw [← hn.regCode (f.toNat + k)]
      have fin : ∀ x : Bool, x = ((regCode t (f.toNat + k) == i) && (decide (512 ≤ i) || lanes.contains j)) →
          ((regDead u i j || x) || killedBy t (ks.map (f.toNat + ·)) lanes i j) =
          (regDead u i j || killedBy t ((k :: ks).map (f.toNat + ·)) lanes i j) := by
        intro x hx
        rw [hx, Bool.or_assoc]
        congr 1
        unfold killedBy
        rw [List.map_cons, List.any_cons, Bool.and_or_distrib_right]
      split
      · next hc =>
        rw [regDead_killLanes _ _ _ _ hi hc]
        apply fin
        by_cases e : regCode t (f.toNat + k) = i
        · have : decide (512 ≤ i) = false := by simp; omega
          rw [this, Bool.false_or]
        · have : (regCode t (f.toNat + k) == i) = false := by simpa using e
          rw [this, Bool.false_and, Bool.false_and]
      · next hc =>
        rw [regDead_setDead' _ _ _ _ _ hi]
        apply fin
        by_cases e : regCode t (f.toNat + k) = i
        · have h5 : 512 ≤ i := by omega
          have h6 : 512 ≤ regCode t (f.toNat + k) := by omega
          simp [h5, h6]
        · have : (regCode t (f.toNat + k) == i) = false := by simpa using e
          rw [this, Bool.false_and, Bool.false_and]
  exact gen (List.range n) t t (SameNames.refl t)

/-- What the last-use hints of an instruction do: registers, bits and errors stay, and the hinted registers die. -/
structure HintsOnly (h : Hd) (fa fb lanes : List Nat) (g : Team → Team) : Prop where
  only : OnlyRegs g
  bits : ∀ t i j, teamBits (g t) i j = teamBits t i j
  rbad : ∀ t, (g t).rbad = t.rbad
  dead : ∀ t i j, regNamed i → regDead (g t) i j =
    (regDead t i j || ((lastA h.hnt && killedBy t fa lanes i j) || (lastB h.hnt && killedBy t fb lanes i j)))

theorem killField_rbad (f n : Nat) (lanes : List Nat) (t : Team) : (killField f n lanes t).rbad = t.rbad := by
  unfold killField
  have one : ∀ (c : Nat) (t : Team), (lanes.foldl (fun t l => setDead c l true t) t).rbad = t.rbad := by
    intro c
    induction lanes with
    | nil => intro t; rfl
    | cons l ls ih => intro t; rw [List.foldl_cons, ih, setDead_rbad]
  generalize List.range n = ks
  induction ks generalizing t with
  | nil => rfl
  | cons k ks ih =>
    rw [List.foldl_cons, ih]
    dsimp only
    split
    · exact one _ t
    · exact setDead_rbad ..

theorem hintsOnly_id (h : Hd) (lanes : List Nat) : HintsOnly h [] [] lanes id :=
  ⟨onlyRegs_id, fun _ _ _ => rfl, fun _ => rfl, fun t i j _ => by simp [killedBy]⟩

theorem hintsOnly_applyHints (h : Hd) (a : RegF) (na : Nat) (b : RegF) (nb : Nat) (lanes : List Nat) :
    HintsOnly h (fieldsFrom a na) (fieldsFrom b nb) lanes (applyHints h a na b nb lanes) := by
  refine ⟨applyHints_onlyRegs h a na b nb lanes, fun t i j => teamBits_applyHints h a na b nb lanes t i j, fun t => ?_, fun t i j hi => ?_⟩
  · unfold applyHints; dsimp only
    split_ifs <;> simp [killField_rbad]
  · unfold applyHints; dsimp only
    have hk : killedBy (killField a.toNat na lanes t) (fieldsFrom b nb) lanes i j = killedBy t (fieldsFrom b nb) lanes i j := by
      have hn : SameNames t (killField a.toNat na lanes t) := SameNames.killField ..
      unfold killedBy
      congr 1; congr 1; funext f; rw [hn.regCode]
    cases lastA h.hnt <;> cases lastB h.hnt <;> simp [regDead_killField _ _ _ _ _ hi, hk, Bool.or_assoc]

end Sys2Proof.Machine
end

