-- ==== Sys2Proof/Laws/Issue.lean ====
section
/-!
SUPPORT. One lemma for each shared operation of an instruction: the checks of R26 when they pass, the end in sequence, the short and the
long form. Each says all that the operation does.
-/

namespace Sys2Proof.Machine

/-! ### The checks -/

/-- Operands that are ready pass the checks; only POISONED may be set. -/
theorem checkOps_ready {s : State} {u : Bool} {ops : List Opnd} {x : Option Nat} (r : Ready s u ops x) :
    checkOps s (lanesOf s.team.active) ops x = (afterReads s ops, none) := by
  have h1 : (ops.any fun o => !o.ok) = false := by
    rw [List.any_eq_false]; intro o ho; simp [r.shape o ho]
  have h2 : (ops.any fun o => o.fields.any (windowBad s.team)) = false := by
    rw [List.any_eq_false]; intro o ho; rw [Bool.not_eq_true, List.any_eq_false]; intro f hf; simp [r.window o ho f hf]
  have h3 : (ops.any fun o => o.fields.any fun f => isPending s.team (regCode s.team f)) = false := by
    rw [List.any_eq_false]; intro o ho; rw [Bool.not_eq_true, List.any_eq_false]; intro f hf; simp [r.noHazard o ho f hf]
  have h4 : ((x.map fun k => isPending s.team (560 + k)).getD false) = false := by
    cases x with
    | none => rfl
    | some k => exact r.noHazardX k rfl
  have h5 : (ops.any fun o => o.wr && decide (120 ≤ o.f)) = false := by
    rw [List.any_eq_false]; intro o ho
    cases hw : o.wr with
    | false => simp
    | true => have := r.writable o ho hw; simp; omega
  unfold checkOps
  simp only [h1, h2, h3, h4, h5, Bool.false_eq_true, if_false]
  change (if (readsDead s ops = true ∧ (if readsDead s ops = true then s.onTeam setPoisoned else s).team.tstat.getLsbD 1 = true) then _ else _) = _
  rw [if_neg]
  · rfl
  · rintro ⟨hd, hp⟩
    rw [if_pos hd] at hp
    have := r.noPoisonTrap hd
    have e : (s.onTeam setPoisoned).team.tstat.getLsbD 1 = s.team.tstat.getLsbD 1 := by
      simp [setPoisoned]
    rw [e, this] at hp
    cases hp

/-- An instruction whose operands are ready goes on after its checks. -/
theorem withOps_ready {len : Nat} {s : State} {u : Bool} {ops : List Opnd} {x : Option Nat} {mem : Bool} (k : State → State)
    (r : Ready s u ops x) : withOps len u ops s k x mem = k (afterReads s ops) := by
  unfold withOps
  rw [checkOps_ready r]
  dsimp only
  have hu : ¬ (u = true ∧ (ops.any fun o => o.rd && decide (o.f < 96)) = true) := by
    rintro ⟨hu, h⟩
    obtain ⟨o, ho, h⟩ := List.any_eq_true.1 h
    simp only [Bool.and_eq_true, decide_eq_true_eq] at h
    have := r.uniform hu o ho h.1
    omega
  have e : ∀ l, badOps (s.onTeam setPoisoned) ops l = badOps s ops l := fun _ => rfl
  have hb : (lanesOf (afterReads s ops).team.active).any (badOps (afterReads s ops) ops) = false := by
    have := r.sound
    unfold afterReads
    split
    · rw [show badOps (s.onTeam setPoisoned) ops = badOps s ops from funext e]; exact this
    · exact this
  rw [if_neg hu, hb, if_neg (by simp)]

/-- Reading the operands changes TSTAT alone. -/
theorem afterReads_cases (s : State) (ops : List Opnd) : afterReads s ops = s ∨ afterReads s ops = s.onTeam setPoisoned := by
  unfold afterReads; split <;> simp

@[simp] theorem afterReads_active (s : State) (ops : List Opnd) : (afterReads s ops).team.active = s.team.active := by
  unfold afterReads; split <;> rfl

theorem afterReads_issuing {s : State} (ops : List Opnd) (h : Issuing s) : Issuing (afterReads s ops) := by
  obtain ⟨h1, h2, h3⟩ := h
  unfold afterReads; split <;> exact ⟨h1, h2, h3⟩

@[simp] theorem afterReads_windowBad (s : State) (ops : List Opnd) (f : Nat) : windowBad (afterReads s ops).team f = windowBad s.team f := by
  have e : ∀ t : Team, windowBad (setPoisoned t) f = windowBad t f := fun t => by unfold windowBad setPoisoned; rfl
  unfold afterReads; split
  · exact e _
  · rfl

@[simp] theorem afterReads_tid (s : State) (ops : List Opnd) : (afterReads s ops).team.tid = s.team.tid := by
  unfold afterReads; split <;> rfl

@[simp] theorem afterReads_regCode (s : State) (ops : List Opnd) (f : Nat) : regCode (afterReads s ops).team f = regCode s.team f := by
  have e : ∀ t : Team, regCode (setPoisoned t) f = regCode t f := fun t => by unfold regCode setPoisoned; rfl
  unfold afterReads; split
  · exact e _
  · rfl

@[simp] theorem afterReads_readReg (s : State) (ops : List Opnd) (c l : Nat) : readReg (afterReads s ops) c l = readReg s c l := by
  have e : ∀ f : Nat, specialValue (s.onTeam setPoisoned) f l = specialValue s f l := fun f => by unfold specialValue; rfl
  have e1 : regBits (s.onTeam setPoisoned) c l = regBits s c l := by unfold regBits; rw [e]; rfl
  have e2 : regDead (s.onTeam setPoisoned).team c l = regDead s.team c l := by unfold regDead; rfl
  unfold afterReads; split
  · unfold readReg; rw [e1, e2]
  · rfl

@[simp] theorem afterReads_rd (s : State) (ops : List Opnd) (f : RegF) (l : Nat) : rd (afterReads s ops) f l = rd s f l := by
  rw [rd, rd, afterReads_regCode, afterReads_readReg]

@[simp] theorem afterReads_rdv (s : State) (ops : List Opnd) (f : RegF) (l : Nat) : rdv (afterReads s ops) f l = rdv s f l := by
  rw [rdv, rdv, afterReads_rd]

@[simp] theorem afterReads_rdn (s : State) (ops : List Opnd) (f : RegF) (k l : Nat) : rdn (afterReads s ops) f k l = rdn s f k l := by
  rw [rdn, rdn, afterReads_regCode, afterReads_readReg]

@[simp] theorem afterReads_rdu (s : State) (ops : List Opnd) (f : RegF) : rdu (afterReads s ops) f = rdu s f := by
  rw [rdu, rdu, afterReads_rdv, afterReads_active]

@[simp] theorem afterReads_execLanes (s : State) (ops : List Opnd) (u : Bool) : execLanes (afterReads s ops) u = execLanes s u := by
  simp [execLanes]

@[simp] theorem afterReads_passes (s : State) (ops : List Opnd) (u : Bool) : passes (afterReads s ops) u = passes s u := by
  simp [passes, passesOf]

@[simp] theorem afterReads_writesOf (s : State) (ops : List Opnd) (f : Nat) (ls : List Nat) (v : Nat → Word) :
    writesOf (afterReads s ops) f ls v = writesOf s f ls v := by
  simp [writesOf]

@[simp] theorem afterReads_writesOfN (s : State) (ops : List Opnd) (f n : Nat) (ls : List Nat) (v : Nat → Nat → Word) :
    writesOfN (afterReads s ops) f n ls v = writesOfN s f n ls v := by
  simp [writesOfN]

@[simp] theorem afterReads_codesOf (s : State) (ops : List Opnd) (f : RegF) (n : Nat) : codesOf (afterReads s ops) f n = codesOf s f n := by
  simp [codesOf]

@[simp] theorem afterReads_fmt (s : State) (ops : List Opnd) : (afterReads s ops).team.fmt = s.team.fmt := by
  unfold afterReads; split <;> rfl

@[simp] theorem afterReads_pend (s : State) (ops : List Opnd) : (afterReads s ops).team.pend = s.team.pend := by
  unfold afterReads; split <;> rfl

/-! ### The end of an instruction -/

/-- What `advance` changes, as one update of the team. -/
theorem advance_eq (len : Nat) (t : Team) : (advance len t).1 = { t with
    pc := (advance len t).1.pc, mcall := (advance len t).1.mcall, active := (advance len t).1.active
    reexec := (advance len t).1.reexec, failed := (advance len t).1.failed, failFetch := (advance len t).1.failFetch
    stall := 0, ir := none, walked := [] } := by
  unfold advance
  rcases hm : t.mcall with _ | m
  · rcases hr : t.reexec with _ | r <;> simp
  · by_cases hl : m.idx + len / 4 < m.words.length
    · rcases hr : t.reexec with _ | r
      · simp [stepExpansion, hl]
      · rcases hd : r.direct <;> simp [stepExpansion, hl, hd]
    · rcases hr : t.reexec with _ | r
      · simp [stepExpansion, hl]
      · rcases hd : r.direct <;> simp [stepExpansion, hl, hd]

/-- `advance` looks at the PC, the active mask, the expansion and the re-execution alone. -/
theorem advance_congr (len : Nat) (t u : Team) (h1 : u.pc = t.pc) (h2 : u.active = t.active) (h3 : u.mcall = t.mcall)
    (h4 : u.reexec = t.reexec) :
    (advance len u).1.pc = (advance len t).1.pc ∧ (advance len u).1.mcall = (advance len t).1.mcall ∧
    (advance len u).1.active = (advance len t).1.active ∧ (advance len u).1.reexec = (advance len t).1.reexec ∧
    (advance len u).1.failed = (advance len t).1.failed ∧ (advance len u).1.failFetch = (advance len t).1.failFetch ∧
    (advance len u).2 = (advance len t).2 := by
  unfold advance
  dsimp only
  rw [h3, h4, h1]
  rcases hm : t.mcall with _ | m
  · rcases hr : t.reexec with _ | r <;> simp [h2]
  · by_cases hl : m.idx + len / 4 < m.words.length
    · rcases hr : t.reexec with _ | r
      · simp [stepExpansion, hl, h2]
      · rcases hd : r.direct <;> simp [stepExpansion, hl, hd]
    · rcases hr : t.reexec with _ | r
      · simp [stepExpansion, hl, h2]
      · rcases hd : r.direct <;> simp [stepExpansion, hl, hd]

/-- What stands before `finish`: the issue is booked, the registers are those of `r`, results and stores are added. -/
def midState (s : State) (r : Team) (p : Nat) (ps : List Pend) (ts : List Token) (n : Nat) : State :=
  { s with
    team := { withRegs s.team r with
      rwc := s.team.rwc + 1, lastIssue := s.ac, promoted := false, stall := 0, ir := none
      pend := s.team.pend ++ ps, stores := s.team.stores ++ ts }
    busy := mput s.busy (s.team.tid / 16) (s.ac + p)
    issuer := mput s.issuer (s.team.tid / 16) s.team.age
    nextTag := s.nextTag + n }

/-- The state after `finish` from there. -/
theorem finish_midState (s : State) (r : Team) (h : Hd) (len p : Nat) (ps : List Pend) (ts : List Token) (n : Nat) (hi : Issuing s) :
    finish h len (midState s r p ps ts n) = { s with
      team := endedTeam s r h len ps ts
      busy := mput s.busy (s.team.tid / 16) (s.ac + p)
      issuer := mput s.issuer (s.team.tid / 16) s.team.age
      nextTag := s.nextTag + n } := by
  obtain ⟨hp, hk, -⟩ := hi
  obtain ⟨e1, e2, e3, e4, e5, e6, e7⟩ := advance_congr len s.team (midState s r p ps ts n).team rfl rfl rfl rfl
  unfold finish
  have e := advance_eq len (midState s r p ps ts n).team
  rw [e1, e2, e3, e4, e5, e6] at e
  generalize advance len (midState s r p ps ts n).team = a at e e7 ⊢
  obtain ⟨t, b⟩ := a
  dsimp only at e e7 ⊢
  rw [e, e7]
  unfold markerPark
  unfold endedTeam
  dsimp only
  by_cases c : (h.sw || (advance len s.team).2) = true
  · by_cases d : ((s.team.pend ++ ps).isEmpty && (s.team.stores ++ ts).isEmpty) = true
    · have nd : ¬ (((h.sw || (advance len s.team).2) && !((s.team.pend ++ ps).isEmpty && (s.team.stores ++ ts).isEmpty)) = true) := by
        rw [d]; simp
      rw [if_neg nd, if_neg]
      · simp [midState, withRegs]
      · rintro ⟨-, -, -, x⟩
        have y : (!((s.team.pend ++ ps).isEmpty && (s.team.stores ++ ts).isEmpty)) = true := x
        rw [d] at y; cases y
    · have nd : (((h.sw || (advance len s.team).2) && !((s.team.pend ++ ps).isEmpty && (s.team.stores ++ ts).isEmpty)) = true) := by
        rw [c, Bool.not_eq_true _ |>.mp d]; rfl
      rw [if_pos nd, if_pos]
      · simp [midState, withRegs, State.onTeam]
      · refine ⟨c, hp, hk, ?_⟩
        show (!((s.team.pend ++ ps).isEmpty && (s.team.stores ++ ts).isEmpty)) = true
        rw [Bool.not_eq_true _ |>.mp d]; rfl
  · have nd : ¬ (((h.sw || (advance len s.team).2) && !((s.team.pend ++ ps).isEmpty && (s.team.stores ++ ts).isEmpty)) = true) := by
      simp at c; simp [c]
    rw [if_neg nd, if_neg]
    · simp [midState, withRegs]
    · rintro ⟨x, -⟩; exact c x

/-- The registers after writes and hints. -/
theorem regsAre_writes {s t : State} {ws : List RegWrite} {g : Team → Team} {h : Hd} {fa fb lanes : List Nat} (hg : HintsOnly h fa fb lanes g)
    (hw : ∀ w ∈ ws, regNamed w.reg) (ht : withRegs s.team t.team = writeRegs ws (g s.team)) : RegsAre s t ws := by
  have key : ∀ c l, teamBits t.team c l = teamBits (withRegs s.team t.team) c l := fun _ _ => rfl
  have keyd : ∀ c l, regDead t.team c l = regDead (withRegs s.team t.team) c l := fun _ _ => rfl
  refine ⟨fun c l hc => ?_, fun c l hc hs => ?_, ?_⟩
  · rw [regBits_eq t c l hc, regBits_eq s c l hc, key, ht, teamBits_writeRegs ws _ c l hw hc, hg.bits]
  · rw [keyd, ht, regDead_writeRegs ws _ c l hw hc, if_pos hs]
  · show (withRegs s.team t.team).rbad = _
    rw [ht, writeRegs_rbad, hg.rbad]

/-- The dead flags after hints and writes: the lanes of the hints are the active lanes, or no vector field is hinted. -/
theorem deadAre_writes {s t : State} {ws : List RegWrite} {g : Team → Team} {h : Hd} {fa fb lanes : List Nat} (hg : HintsOnly h fa fb lanes g)
    (hl : ∀ c l, regNamed c → ((lastA h.hnt && killedBy s.team fa lanes c l) || (lastB h.hnt && killedBy s.team fb lanes c l)) =
      hinted s h fa fb c l)
    (hw : ∀ w ∈ ws, regNamed w.reg) (ht : withRegs s.team t.team = writeRegs ws (g s.team)) : DeadAre s t h fa fb ws := by
  intro c l hc
  rw [show regDead t.team c l = regDead (withRegs s.team t.team) c l from rfl, ht, regDead_writeRegs ws _ c l hw hc, hg.dead _ _ _ hc, hl c l hc]

/-- Hints in the active lanes. -/
theorem hinted_active (s : State) (h : Hd) (fa fb : List Nat) (c l : Nat) :
    ((lastA h.hnt && killedBy s.team fa (lanesOf s.team.active) c l) || (lastB h.hnt && killedBy s.team fb (lanesOf s.team.active) c l)) =
      hinted s h fa fb c l := by
  unfold killedBy hinted
  cases lastA h.hnt <;> cases lastB h.hnt <;> simp [Bool.and_or_distrib_right]

/-- A field that names no vector register names no code below 512. -/
theorem regCode_ge {t : Team} {f : Nat} (h : 96 ≤ f) : 512 ≤ regCode t f := by
  unfold regCode
  rw [if_neg (by omega)]
  split_ifs <;> omega

/-- Hints on fields that name no vector register: the lanes do not matter. -/
theorem hinted_scalar (s : State) (h : Hd) (fa fb lanes : List Nat) (ha : ∀ f ∈ fa, 96 ≤ f) (hb : ∀ f ∈ fb, 96 ≤ f) (c l : Nat) :
    ((lastA h.hnt && killedBy s.team fa lanes c l) || (lastB h.hnt && killedBy s.team fb lanes c l)) = hinted s h fa fb c l := by
  have one : ∀ fs : List Nat, (∀ f ∈ fs, 96 ≤ f) → ∀ ls : List Nat,
      ((fs.any fun f => regCode s.team f == c) && (decide (512 ≤ c) || ls.contains l)) = (fs.any fun f => regCode s.team f == c) := by
    intro fs hf ls
    by_cases e : (fs.any fun f => regCode s.team f == c) = true
    · obtain ⟨f, hm, he⟩ := List.any_eq_true.1 e
      have h1 : 512 ≤ regCode s.team f := regCode_ge (hf f hm)
      have h2 : 512 ≤ c := by rw [← beq_iff_eq.1 he]; exact h1
      simp [h2]
    · rw [Bool.not_eq_true] at e; simp [e]
  unfold killedBy hinted
  rw [one fa ha, one fb hb, Bool.and_or_distrib_right, Bool.and_assoc, Bool.and_assoc, one fa ha, one fb hb]

/-- Hints of an instruction that executes once for the team, or in each active lane. -/
theorem hinted_exec (s : State) (u : Bool) (h : Hd) (fa fb : List Nat) (hv : u = true → (∀ f ∈ fa, 96 ≤ f) ∧ ∀ f ∈ fb, 96 ≤ f) (c l : Nat) :
    ((lastA h.hnt && killedBy s.team fa (execLanes s u) c l) || (lastB h.hnt && killedBy s.team fb (execLanes s u) c l)) =
      hinted s h fa fb c l := by
  cases u with
  | true => exact hinted_scalar s h fa fb _ (hv rfl).1 (hv rfl).2 c l
  | false => exact hinted_active s h fa fb c l

/-- An instruction that ends in sequence: the one fact that the short, the long and the storing forms share. -/
theorem ended_finish {s : State} {h : Hd} {len p n : Nat} {ws : List RegWrite} {ps : List Pend} {ts : List Token} {g : Team → Team}
    {fa fb lanes : List Nat} (hi : Issuing s) (hg : HintsOnly h fa fb lanes g)
    (hl : ∀ c l, regNamed c → ((lastA h.hnt && killedBy s.team fa lanes c l) || (lastB h.hnt && killedBy s.team fb lanes c l)) =
      hinted s h fa fb c l)
    (hw : ∀ w ∈ ws, regNamed w.reg) :
    Ended s (finish h len (midState s (writeRegs ws (g s.team)) p ps ts n)) h len p ws ps ts n fa fb := by
  have ho : OnlyRegs fun t => writeRegs ws (g t) := OnlyRegs.comp (writeRegs_onlyRegs ws) hg.only
  have hr : writeRegs ws (g s.team) = withRegs s.team (writeRegs ws (g s.team)) := ho.self s.team
  have ht : withRegs s.team (finish h len (midState s (writeRegs ws (g s.team)) p ps ts n)).team = writeRegs ws (g s.team) := by
    rw [finish_midState s _ h len p ps ts n hi]
    exact hr.symm
  refine ⟨regsAre_writes hg hw ht, deadAre_writes hg hl hw ht, ?_⟩
  rw [finish_midState s _ h len p ps ts n hi]
  rfl

/-- Every register that an operand of D names is a named code. -/
theorem regCode_named (t : Team) (f : Nat) (h : f < 120) (hw : windowBad t f = false) (hn : t.nregs ≤ 248) : regNamed (regCode t f) := by
  unfold regNamed regCode
  by_cases h1 : f < 96
  · by_cases h2 : t.hmode = true ∧ 80 ≤ f
    · rw [if_pos h1, if_pos h2]; omega
    · rw [if_pos h1, if_neg h2]
      have e : (t.hmode && decide (80 ≤ f)) = false := by
        rw [Bool.eq_false_iff]; simpa using h2
      simp only [windowBad, e, h1, decide_true, Bool.not_false, Bool.true_and, decide_eq_false_iff_not] at hw
      omega
  · rw [if_neg h1, if_pos h]
    split_ifs with h3 <;> omega

/-- The writes of a field name one register. -/
theorem writesOf_reg {s : State} {f : Nat} {ls : List Nat} {v : Nat → Word} {w : RegWrite} (h : w ∈ writesOf s f ls v) :
    w.reg = regCode s.team f := by
  unfold writesOf at h
  dsimp only at h
  split at h
  · obtain ⟨l, -, rfl⟩ := List.mem_map.1 h; rfl
  · cases ls with
    | nil => cases h
    | cons l ls => rcases List.mem_singleton.1 h with rfl; rfl

theorem writesOf_named {s : State} {f : Nat} {ls : List Nat} {v : Nat → Word} (hf : f < 120) (hw : windowBad s.team f = false)
    (hi : Issuing s) : ∀ w ∈ writesOf s f ls v, regNamed w.reg := by
  intro w h
  rw [writesOf_reg h]
  exact regCode_named s.team f hf hw hi.nregs

theorem writesOfN_named {s : State} {f n : Nat} {ls : List Nat} {v : Nat → Nat → Word} (hf : f + n ≤ 120)
    (hw : ∀ k < n, windowBad s.team (f + k) = false) (hi : Issuing s) : ∀ w ∈ writesOfN s f n ls v, regNamed w.reg := by
  intro w h
  obtain ⟨k, hk, h⟩ := List.mem_flatMap.1 h
  have hk := List.mem_range.1 hk
  exact writesOf_named (by omega) (hw k hk) hi w h

/-- The booking of an issue, with a change of registers after it. -/
theorem onTeam_begin {F : Team → Team} (hF : OnlyRegs F) (s : State) (p : Nat) :
    (begin p s).onTeam F = midState s (F s.team) p [] [] 0 := by
  have hb : SameBank s.team (begin p s).team := ⟨rfl, rfl, rfl, rfl, rfl, rfl, rfl, rfl, rfl, rfl⟩
  have e1 : F (begin p s).team = withRegs (begin p s).team (F s.team) := hF _ _ hb
  unfold State.onTeam
  rw [e1]
  simp [midState, begin, State.onTeam, withRegs]

/-! ### The two forms of an instruction on registers -/

/-- The operands of a short operation. -/
def shortOps (d a b : RegF) (na nb : Nat) : List Opnd :=
  (if na = 0 then [] else [src a]) ++ (if nb = 0 then [] else [src b]) ++ [dst d]

/-- The end that the short forms share: registers written after the hints. -/
theorem shortEnd {s : State} {h : Hd} {len p : Nat} {ws : List RegWrite} {g : Team → Team} {fa fb lanes : List Nat} (hi : Issuing s)
    (hg : HintsOnly h fa fb lanes g)
    (hl : ∀ c l, regNamed c → ((lastA h.hnt && killedBy s.team fa lanes c l) || (lastB h.hnt && killedBy s.team fb lanes c l)) =
      hinted s h fa fb c l)
    (hw : ∀ w ∈ ws, regNamed w.reg) :
    Ended s (finish h len ((begin p s).onTeam fun t => writeRegs ws (g t))) h len p ws [] [] 0 fa fb := by
  rw [onTeam_begin (OnlyRegs.comp (writeRegs_onlyRegs ws) hg.only)]
  exact ended_finish hi hg hl hw

/-- The fields of an operand that is read by an instruction that executes once name no vector register (R14). -/
theorem fieldsFrom_uniform {s : State} {u : Bool} {ops : List Opnd} {x : Option Nat} (r : Ready s u ops x) {f : RegF} {n : Nat}
    (hm : n ≠ 0 → ∃ o ∈ ops, o.f = f.toNat ∧ o.rd = true) (hu : u = true) : ∀ k ∈ fieldsFrom f n, 96 ≤ k := by
  intro k hk
  obtain ⟨i, hi, rfl⟩ := List.mem_map.1 hk
  have hn : n ≠ 0 := by have := List.mem_range.1 hi; omega
  obtain ⟨o, ho, e, hr⟩ := hm hn
  have := r.uniform hu o ho hr
  omega

/-- A short operation whose operands are ready: it writes D in every executing lane and ends. -/
theorem shortOp_ended (h : Hd) (len : Nat) (d a b : RegF) (na nb : Nat) (f : Word × Bool → Word × Bool → Word) (s : State)
    (hi : Issuing s) (r : Ready s (isScalar d) (shortOps d a b na nb)) :
    Ended (afterReads s (shortOps d a b na nb)) (shortOp h len d a b na nb f s) h len (passes s (isScalar d))
      (writesOf s d.toNat (execLanes s (isScalar d)) fun l => f (rd s a l) (rd s b l)) [] [] 0 (fieldsFrom a na) (fieldsFrom b nb) := by
  have hd : dst d ∈ shortOps d a b na nb := by unfold shortOps; simp
  have ha : na ≠ 0 → ∃ o ∈ shortOps d a b na nb, o.f = a.toNat ∧ o.rd = true := fun hn =>
    ⟨src a, by unfold shortOps; simp [hn], rfl, rfl⟩
  have hb : nb ≠ 0 → ∃ o ∈ shortOps d a b na nb, o.f = b.toNat ∧ o.rd = true := fun hn =>
    ⟨src b, by unfold shortOps; simp [hn], rfl, rfl⟩
  have h1 := withOps_ready (len := len) (mem := false) (fun s' =>
    let lanes := execLanes s' (isScalar d)
    let ws := writesOf s' d.toNat lanes fun l => f (rd s' a l) (rd s' b l)
    let s' := begin (passes s' (isScalar d)) s'
    finish h len (s'.onTeam fun t => writeRegs ws (applyHints h a na b nb lanes t))) r
  have h2 : shortOp h len d a b na nb f s = _ := h1
  rw [h2]
  dsimp only
  simp only [afterReads_execLanes, afterReads_passes, afterReads_writesOf, afterReads_rd]
  refine shortEnd (afterReads_issuing _ hi) (hintsOnly_applyHints ..) (fun c l _ => ?_)
    (writesOf_named (r.writable _ hd rfl) (r.window _ hd d.toNat (by simp [dst, Opnd.fields])) hi)
  rw [← afterReads_execLanes s (shortOps d a b na nb)]
  exact hinted_exec _ (isScalar d) h _ _ (fun hu => ⟨fieldsFrom_uniform r ha hu, fieldsFrom_uniform r hb hu⟩) c l

/-- A short operation over register groups, likewise: its format is legal and its operands are ready. -/
theorem shortGroup_ended (h : Hd) (d a b : RegF) (na nb nd : Nat) (ops : List Opnd) (legal : State → Bool) (val : State → Nat → Nat → Word)
    (s : State) (hi : Issuing s) (r : Ready s (isScalar d) ops) (hl : legal (afterReads s ops) = true) (hd : d.toNat + nd ≤ 120)
    (ha : na ≠ 0 → ∃ o ∈ ops, o.f = a.toNat ∧ o.rd = true) (hb : nb ≠ 0 → ∃ o ∈ ops, o.f = b.toNat ∧ o.rd = true)
    (hw : ∀ k < nd, windowBad s.team (d.toNat + k) = false) :
    Ended (afterReads s ops) (shortGroup h d a b na nb nd ops legal val s) h 4 (passes s (isScalar d))
      (writesOfN s d.toNat nd (execLanes s (isScalar d)) (val (afterReads s ops))) [] [] 0 (fieldsFrom a na) (fieldsFrom b nb) := by
  have h1 := withOps_ready (len := 4) (mem := false) (fun s' =>
    if !legal s' then trapI cILLOPND 4 (begin 1 s')
    else
      let lanes := execLanes s' (isScalar d)
      let ws := writesOfN s' d.toNat nd lanes (val s')
      let s' := begin (passes s' (isScalar d)) s'
      finish h 4 (s'.onTeam fun t => writeRegs ws (applyHints h a na b nb lanes t))) r
  have h2 : shortGroup h d a b na nb nd ops legal val s = _ := h1
  rw [h2]
  dsimp only
  rw [hl]
  simp only [Bool.not_true, Bool.false_eq_true, if_false, afterReads_execLanes, afterReads_passes, afterReads_writesOfN]
  refine shortEnd (afterReads_issuing _ hi) (hintsOnly_applyHints ..) (fun c l _ => ?_) (writesOfN_named hd hw hi)
  rw [← afterReads_execLanes s ops]
  exact hinted_exec _ (isScalar d) h _ _ (fun hu => ⟨fieldsFrom_uniform r ha hu, fieldsFrom_uniform r hb hu⟩) c l

/-- A long form with room in the record: its result is outstanding, and it ends. -/
theorem issueLong_ended (len : Nat) (h : Hd) (p : Nat) (shared : Bool) (regs : List Nat) (ws : List RegWrite) (delay : Nat)
    (g : Team → Team) {fa fb lanes : List Nat} (s : State) (hi : Issuing s) (hg : HintsOnly h fa fb lanes g)
    (hl : ∀ c l, regNamed c → ((lastA h.hnt && killedBy s.team fa lanes c l) || (lastB h.hnt && killedBy s.team fb lanes c l)) =
      hinted s h fa fb c l)
    (room : pendCount s.team + (if shared then 1 else regs.length) ≤ 16) :
    Ended s (issueLong len h p shared regs ws delay g s) h len p [] [longPend s p shared regs ws delay] [] 1 fa fb := by
  have hm := ended_finish (s := s) (len := len) (p := p) (n := 1) (ps := [longPend s p shared regs ws delay]) (ts := []) (ws := [])
    hi hg hl (by simp)
  have e : issueLong len h p shared regs ws delay g s =
      finish h len (midState s (writeRegs [] (g s.team)) p [longPend s p shared regs ws delay] [] 1) := by
    unfold issueLong
    dsimp only
    rw [if_neg (by omega)]
    congr 1
    have hb : SameBank s.team (begin p s).team := ⟨rfl, rfl, rfl, rfl, rfl, rfl, rfl, rfl, rfl, rfl⟩
    have e1 : g (begin p s).takeTag.2.team = withRegs (begin p s).team (g s.team) := hg.only _ _ hb
    simp only [addPend, State.onTeam, e1]
    simp [midState, withRegs, longPend, State.takeTag, writeRegs]
  rw [e]; exact hm

end Sys2Proof.Machine
end

