-- ==== Sys2Proof/Laws/Memory.lean ====
section
/-!
SUPPORT. The operations that write memory keep its canonical form, each said once: a write that reaches memory (R5, R223, R230), the
write-back and the replacement of cache lines (R228), loads and stores through the cache and past it (R229), the cache actions of
releases and acquires (R275), and the setting of presence bits (R226).
-/

namespace Sys2Proof.Machine

/-- An operation that keeps the canonical form of memory. -/
def KeepsWf (f : State → State) : Prop := ∀ s, Memory.wf s.mem = true → Memory.wf (f s).mem = true

theorem keepsWf_foldl {β : Type} (f : State → β → State) (h : ∀ b, KeepsWf fun s => f s b) (l : List β) : KeepsWf fun s => l.foldl f s := by
  induction l with
  | nil => exact fun s hs => hs
  | cons b l ih => exact fun s hs => ih (f s b) (h b s hs)

theorem keepsWf_onCore (c : Nat) (f : Core → Core) : KeepsWf fun s => s.onCore c f := fun s h => by simpa using h

theorem keepsWf_store (k : Nat) (bs : List Byte) : KeepsWf fun s => s.store k bs := fun _ h => memPuts_wf bs k h

theorem keepsWf_vaultArrive (c off n : Nat) : KeepsWf (vaultArrive c off n) := fun s h => by unfold vaultArrive; simpa using h

theorem keepsWf_writePa (pa : Nat) (bs : List Byte) : KeepsWf (writePa pa bs) := fun s h => by
  unfold writePa
  split
  · exact keepsWf_store _ _ s h
  · exact keepsWf_vaultArrive _ _ _ _ (keepsWf_store _ _ s h)
  · exact keepsWf_store _ _ s h
  · exact h

theorem keepsWf_markBad (pa : Nat) (m : BitVec 128) : KeepsWf (markBad pa m) := fun s h => by unfold markBad; split <;> exact h

theorem keepsWf_writeRuns (pa : Nat) (data : BitVec 1024) (runs : List (Nat × Nat)) :
    KeepsWf fun s => runs.foldl (fun s (a, n) => writePa (pa + a) (lineBytes data a n) s) s :=
  keepsWf_foldl _ (fun b => keepsWf_writePa (pa + b.1) (lineBytes data b.1 b.2)) runs

theorem keepsWf_writeBackLine (core i : Nat) : KeepsWf (writeBackLine core i) := fun s h => by
  unfold writeBackLine
  split
  · exact h
  · split
    · exact h
    · refine keepsWf_onCore core _ _ ?_
      refine keepsWf_markBad _ _ _ ?_
      exact keepsWf_writeRuns _ _ _ s h

theorem keepsWf_writeBackAll (core : Nat) : KeepsWf (writeBackAll core) := fun s h =>
  keepsWf_foldl _ (fun i => keepsWf_writeBackLine core i) _ s h

theorem keepsWf_invalidateLines (core : Nat) (p : Nat → Bool) : KeepsWf (invalidateLines core p) := fun s h => keepsWf_onCore _ _ s h

theorem keepsWf_invalidateCache (core : Nat) : KeepsWf (invalidateCache core) := keepsWf_invalidateLines core _

theorem keepsWf_flushLine (core pa : Nat) : KeepsWf (flushLine core pa) := fun s h => by
  unfold flushLine
  split
  · exact h
  · exact keepsWf_onCore _ _ _ (keepsWf_writeBackLine _ _ s h)

theorem keepsWf_allocLine (core tag : Nat) : KeepsWf fun s => (allocLine core tag s).2 := fun s h => by
  show Memory.wf (allocLine core tag s).2.mem = true
  unfold allocLine
  dsimp only
  split
  · exact keepsWf_onCore _ _ s h
  · exact keepsWf_onCore _ _ _ (keepsWf_writeBackLine _ _ s h)

theorem keepsWf_holdLine (core tag : Nat) : KeepsWf fun s => (holdLine core tag s).2 := fun s h => by
  show Memory.wf (holdLine core tag s).2.mem = true
  unfold holdLine
  split
  · exact h
  · exact keepsWf_allocLine core tag s h

theorem keepsWf_touchWay (core tag w : Nat) : KeepsWf (touchWay core tag w) := fun s h => keepsWf_onCore _ _ s h

theorem keepsWf_cacheLoad (core pa n : Nat) : KeepsWf fun s => (cacheLoad core pa n s).2 := fun s h =>
  keepsWf_touchWay _ _ _ _ (keepsWf_onCore _ _ _ (keepsWf_holdLine core (pa / 128) s h))

theorem keepsWf_cacheStore (core pa : Nat) (bs : List Byte) : KeepsWf (cacheStore core pa bs) := fun s h =>
  keepsWf_touchWay _ _ _ _ (keepsWf_onCore _ _ _ (keepsWf_holdLine core (pa / 128) s h))

theorem keepsWf_bypassStore (core pa : Nat) (bs : List Byte) : KeepsWf (bypassStore core pa bs) := fun s h => by
  unfold bypassStore
  dsimp only
  split
  · exact keepsWf_writePa _ _ s h
  · exact keepsWf_onCore _ _ _ (keepsWf_writePa _ _ s h)

/-- A load of a team changes memory only by the write-back of a line that makes room. -/
theorem keepsWf_loadPa (core pa n : Nat) (ncm past : Bool) : KeepsWf fun s => (loadPa core pa n ncm past s).2 := fun s h => by
  show Memory.wf (loadPa core pa n ncm past s).2.mem = true
  unfold loadPa
  split
  · split
    · exact h
    · exact keepsWf_cacheLoad core pa n s h
  · exact h

theorem keepsWf_storePa (core pa : Nat) (ncm past : Bool) (bs : List Byte) : KeepsWf (storePa core pa ncm past bs) := fun s h => by
  unfold storePa
  split
  · split
    · exact keepsWf_bypassStore core pa bs s h
    · exact keepsWf_cacheStore core pa bs s h
  · exact keepsWf_writePa pa bs s h

theorem keepsWf_releaseCache (core scope : Nat) : KeepsWf (releaseCache core scope) := fun s h => by
  unfold releaseCache
  split
  · exact keepsWf_writeBackAll core s h
  · exact h

theorem keepsWf_acquireCache (core scope : Nat) : KeepsWf (acquireCache core scope) := fun s h => by
  unfold acquireCache
  split
  · exact keepsWf_invalidateCache core s h
  · exact h

theorem keepsWf_presenceSet (core line : Nat) : KeepsWf (presenceSet core line) := fun s h => by unfold presenceSet; simpa using h

theorem keepsWf_presenceAll (core off n : Nat) : KeepsWf (presenceAll core off n) := fun s h =>
  keepsWf_foldl _ (fun l => keepsWf_presenceSet core l) _ s h

/-! ### What a write to memory leaves alone -/

/-- A write that reaches memory changes the bytes it names, the error marks and the watches, and nothing of any team. -/
theorem store_team (s : State) (k : Nat) (bs : List Byte) : (s.store k bs).team = s.team ∧ (s.store k bs).teams = s.teams := ⟨rfl, rfl⟩

/-- Every byte outside the range written reads as before. -/
theorem store_frame (s : State) (k : Nat) (bs : List Byte) (j : Nat) (h : j < k ∨ k + bs.length ≤ j) :
    memByte (s.store k bs).mem j = memByte s.mem j := memByte_memPuts_out s.mem k bs j h

/-- Every byte of the range reads as written. -/
theorem store_read (s : State) (k : Nat) (bs : List Byte) (i : Nat) (h : i < bs.length) :
    memByte (s.store k bs).mem (k + i) = bs.getD i 0 := by
  have e := memByte_memPuts bs s.mem k (k + i)
  rw [if_pos (by omega), show k + i - k = i by omega] at e
  exact e

end Sys2Proof.Machine
end

