-- ==== Sys2Proof/Laws/PerInstr.lean ====
section
/-!
SUPPORT. For every constructor: the fields and literal that the encoder gives a well-formed instruction decode to it (R51 to R59).
-/

namespace Sys2Proof.Laws.Encoding

/-- The fields that `encodeFields` gives an instruction decode to it. -/
def Statement (i : Instr) : Prop :=
  ∀ (f : Fields) (l : Option Word), encodeFields i = some (f, l) → i.wellFormed = true → decodeFields f (l.getD 0) = i

theorem assemble_fieldsOf (w : Word) : assemble (fieldsOf w) = w := by
  apply BitVec.eq_of_getLsbD_eq
  intro i hi
  simp only [assemble, fieldsOf, BitVec.getLsbD_append, BitVec.getLsbD_extractLsb', BitVec.getLsbD_ofBool]
  interval_cases i <;> simp
theorem fieldsOf_assemble (f : Fields) : fieldsOf (assemble f) = f := by
  obtain ⟨sw, op, hnt, d, a, b⟩ := f
  simp only [fieldsOf, assemble, Fields.mk.injEq]
  refine ⟨?_, ?_, ?_, ?_, ?_, ?_⟩
  · simp only [BitVec.getLsbD_append, BitVec.getLsbD_ofBool]
    simp
  all_goals
    apply BitVec.eq_of_getLsbD_eq
    intro i hi
    simp only [BitVec.getLsbD_append, BitVec.getLsbD_extractLsb', BitVec.getLsbD_ofBool]
    interval_cases i <;> simp

/-! The parts of a B field put together from parts. -/

theorem b34_lo : ∀ (x : BitVec 3) (k : BitVec 4), (x ++ k : BitVec 7).extractLsb' 0 4 = k := by decide
theorem b34_lo2 : ∀ (x : BitVec 3) (k : BitVec 4), (x ++ k : BitVec 7).extractLsb' 0 2 = k.extractLsb' 0 2 := by decide
theorem b34_hi : ∀ (x : BitVec 3) (k : BitVec 4), (x ++ k : BitVec 7).extractLsb' 4 3 = x := by decide
theorem b214_lo : ∀ (e : Bool) (k : BitVec 4), (0#2 ++ BitVec.ofBool e ++ k : BitVec 7).extractLsb' 0 4 = k := by decide
theorem b214_bit : ∀ (e : Bool) (k : BitVec 4), (0#2 ++ BitVec.ofBool e ++ k : BitVec 7)[4] = e := by decide
theorem b2122_lo : ∀ (z : Bool) (k c : BitVec 2), (0#2 ++ BitVec.ofBool z ++ k ++ c : BitVec 7).extractLsb' 0 2 = c := by decide
theorem b2122_mid : ∀ (z : Bool) (k c : BitVec 2), (0#2 ++ BitVec.ofBool z ++ k ++ c : BitVec 7).extractLsb' 2 2 = k := by decide
theorem b2122_bit : ∀ (z : Bool) (k c : BitVec 2), (0#2 ++ BitVec.ofBool z ++ k ++ c : BitVec 7)[4] = z := by decide
theorem b322_lo : ∀ (x : BitVec 3) (k c : BitVec 2), (x ++ k ++ c : BitVec 7).extractLsb' 0 2 = c := by decide
theorem b322_mid : ∀ (x : BitVec 3) (k c : BitVec 2), (x ++ k ++ c : BitVec 7).extractLsb' 2 2 = k := by decide
theorem b322_hi : ∀ (x : BitVec 3) (k c : BitVec 2), (x ++ k ++ c : BitVec 7).extractLsb' 4 3 = x := by decide
theorem b223_lo : ∀ (k : BitVec 2) (c : BitVec 3), (0#2 ++ k ++ c : BitVec 7).extractLsb' 0 3 = c := by decide
theorem b223_mid : ∀ (k : BitVec 2) (c : BitVec 3), (0#2 ++ k ++ c : BitVec 7).extractLsb' 3 2 = k := by decide
theorem b1123_lo : ∀ (f : Bool) (k : BitVec 2) (c : BitVec 3), (0#1 ++ BitVec.ofBool f ++ k ++ c : BitVec 7).extractLsb' 0 3 = c := by decide
theorem b1123_mid : ∀ (f : Bool) (k : BitVec 2) (c : BitVec 3), (0#1 ++ BitVec.ofBool f ++ k ++ c : BitVec 7).extractLsb' 3 2 = k := by decide
theorem b1123_bit : ∀ (f : Bool) (k : BitVec 2) (c : BitVec 3), (0#1 ++ BitVec.ofBool f ++ k ++ c : BitVec 7)[5] = f := by decide
theorem b16_hi : ∀ (x : BitVec 1) (i : BitVec 6), (x ++ i : BitVec 7).extractLsb' 6 1 = x := by decide
theorem b16_lo : ∀ (x : BitVec 1) (i : BitVec 6), (x ++ i : BitVec 7).extractLsb' 0 6 = i := by decide
theorem b34z_lo : ∀ n : BitVec 4, (0#3 ++ n : BitVec 7).extractLsb' 0 4 = n := by decide
theorem b43z_lo : ∀ n : BitVec 3, (0#4 ++ n : BitVec 7).extractLsb' 0 3 = n := by decide

theorem decodeFields_reservedOp (f : Fields) (l : Word) (h : reservedOp f.op.toNat = true) : decodeFields f l = .reservedOpcode (assemble f) := by
  unfold decodeFields
  split <;> first | rfl | (rename_i e; rw [e] at h; exact absurd h (by decide))

theorem sub_low (f : Fields) (k : Nat) : (f.b.extractLsb' 0 k).toNat = f.b.toNat % 2 ^ k := by simp

theorem decodeFields_reservedSub (f : Fields) (l : Word) (h : reservedSub f.op.toNat f.b.toNat = true) :
    decodeFields f l = .reservedSubOperation (assemble f) := by
  unfold decodeFields
  split <;> rename_i e <;> first
    | (rw [e] at h; simp only [reservedSub, Bool.false_eq_true] at h; done)
    | (rw [e] at h
       simp only [reservedSub, decide_eq_true_eq, beq_iff_eq] at h
       simp only [decodeXun, decodeFun, decodeSfu, decodeCvn, decodeVote, decodeScan, decodeRed, decodeBar, decodeBaton, decodeQop, decodeTpio,
         decodeCwait, decodePtn, decodeMctl, decodeBra, decodeAtom, decodeWaddr, sub_low]
       split <;> first | rfl | omega)
    | (simp [reservedSub] at h; done)

theorem iadd (h : Hd) (d : RegF) (a : RegF) (b : RegF) : Statement (.iadd h d a b) := fun
    | _, _, rfl, _ => rfl
theorem isub (h : Hd) (d : RegF) (a : RegF) (b : RegF) : Statement (.isub h d a b) := fun
    | _, _, rfl, _ => rfl
theorem imul (h : Hd) (d : RegF) (a : RegF) (b : RegF) : Statement (.imul h d a b) := fun
    | _, _, rfl, _ => rfl
theorem imulh (h : Hd) (d : RegF) (a : RegF) (b : RegF) : Statement (.imulh h d a b) := fun
    | _, _, rfl, _ => rfl
theorem imulhu (h : Hd) (d : RegF) (a : RegF) (b : RegF) : Statement (.imulhu h d a b) := fun
    | _, _, rfl, _ => rfl
theorem imin (h : Hd) (d : RegF) (a : RegF) (b : RegF) : Statement (.imin h d a b) := fun
    | _, _, rfl, _ => rfl
theorem imax (h : Hd) (d : RegF) (a : RegF) (b : RegF) : Statement (.imax h d a b) := fun
    | _, _, rfl, _ => rfl
theorem andR (h : Hd) (d : RegF) (a : RegF) (b : RegF) : Statement (.andR h d a b) := fun
    | _, _, rfl, _ => rfl
theorem orR (h : Hd) (d : RegF) (a : RegF) (b : RegF) : Statement (.orR h d a b) := fun
    | _, _, rfl, _ => rfl
theorem xorR (h : Hd) (d : RegF) (a : RegF) (b : RegF) : Statement (.xorR h d a b) := fun
    | _, _, rfl, _ => rfl
theorem shl (h : Hd) (d : RegF) (a : RegF) (b : RegF) : Statement (.shl h d a b) := fun
    | _, _, rfl, _ => rfl
theorem shr (h : Hd) (d : RegF) (a : RegF) (b : RegF) : Statement (.shr h d a b) := fun
    | _, _, rfl, _ => rfl
theorem shra (h : Hd) (d : RegF) (a : RegF) (b : RegF) : Statement (.shra h d a b) := fun
    | _, _, rfl, _ => rfl
theorem ilt (h : Hd) (d : RegF) (a : RegF) (b : RegF) : Statement (.ilt h d a b) := fun
    | _, _, rfl, _ => rfl
theorem iltu (h : Hd) (d : RegF) (a : RegF) (b : RegF) : Statement (.iltu h d a b) := fun
    | _, _, rfl, _ => rfl
theorem ieq (h : Hd) (d : RegF) (a : RegF) (b : RegF) : Statement (.ieq h d a b) := fun
    | _, _, rfl, _ => rfl
theorem fadd (h : Hd) (d : RegF) (a : RegF) (b : RegF) : Statement (.fadd h d a b) := fun
    | _, _, rfl, _ => rfl
theorem fsub (h : Hd) (d : RegF) (a : RegF) (b : RegF) : Statement (.fsub h d a b) := fun
    | _, _, rfl, _ => rfl
theorem fmul (h : Hd) (d : RegF) (a : RegF) (b : RegF) : Statement (.fmul h d a b) := fun
    | _, _, rfl, _ => rfl
theorem ffma (h : Hd) (d : RegF) (a : RegF) (b : RegF) : Statement (.ffma h d a b) := fun
    | _, _, rfl, _ => rfl
theorem fmin (h : Hd) (d : RegF) (a : RegF) (b : RegF) : Statement (.fmin h d a b) := fun
    | _, _, rfl, _ => rfl
theorem fmax (h : Hd) (d : RegF) (a : RegF) (b : RegF) : Statement (.fmax h d a b) := fun
    | _, _, rfl, _ => rfl
theorem flt (h : Hd) (d : RegF) (a : RegF) (b : RegF) : Statement (.flt h d a b) := fun
    | _, _, rfl, _ => rfl
theorem fle (h : Hd) (d : RegF) (a : RegF) (b : RegF) : Statement (.fle h d a b) := fun
    | _, _, rfl, _ => rfl
theorem feq (h : Hd) (d : RegF) (a : RegF) (b : RegF) : Statement (.feq h d a b) := fun
    | _, _, rfl, _ => rfl
theorem sel (h : Hd) (d : RegF) (a : RegF) (b : RegF) : Statement (.sel h d a b) := fun
    | _, _, rfl, _ => rfl
theorem xunMov (h : Hd) (d : RegF) (a : RegF) : Statement (.xunMov h d a) := fun
    | _, _, rfl, _ => rfl
theorem xunNot (h : Hd) (d : RegF) (a : RegF) : Statement (.xunNot h d a) := fun
    | _, _, rfl, _ => rfl
theorem xunNeg (h : Hd) (d : RegF) (a : RegF) : Statement (.xunNeg h d a) := fun
    | _, _, rfl, _ => rfl
theorem xunAbs (h : Hd) (d : RegF) (a : RegF) : Statement (.xunAbs h d a) := fun
    | _, _, rfl, _ => rfl
theorem xunClz (h : Hd) (d : RegF) (a : RegF) : Statement (.xunClz h d a) := fun
    | _, _, rfl, _ => rfl
theorem xunPopc (h : Hd) (d : RegF) (a : RegF) : Statement (.xunPopc h d a) := fun
    | _, _, rfl, _ => rfl
theorem xunBrev (h : Hd) (d : RegF) (a : RegF) : Statement (.xunBrev h d a) := fun
    | _, _, rfl, _ => rfl
theorem xunSxb (h : Hd) (d : RegF) (a : RegF) : Statement (.xunSxb h d a) := fun
    | _, _, rfl, _ => rfl
theorem xunSxh (h : Hd) (d : RegF) (a : RegF) : Statement (.xunSxh h d a) := fun
    | _, _, rfl, _ => rfl
theorem xunZxb (h : Hd) (d : RegF) (a : RegF) : Statement (.xunZxb h d a) := fun
    | _, _, rfl, _ => rfl
theorem xunZxh (h : Hd) (d : RegF) (a : RegF) : Statement (.xunZxh h d a) := fun
    | _, _, rfl, _ => rfl
theorem funFneg (h : Hd) (d : RegF) (a : RegF) : Statement (.funFneg h d a) := fun
    | _, _, rfl, _ => rfl
theorem funFabs (h : Hd) (d : RegF) (a : RegF) : Statement (.funFabs h d a) := fun
    | _, _, rfl, _ => rfl
theorem funFrne (h : Hd) (d : RegF) (a : RegF) : Statement (.funFrne h d a) := fun
    | _, _, rfl, _ => rfl
theorem funFflr (h : Hd) (d : RegF) (a : RegF) : Statement (.funFflr h d a) := fun
    | _, _, rfl, _ => rfl
theorem funFcel (h : Hd) (d : RegF) (a : RegF) : Statement (.funFcel h d a) := fun
    | _, _, rfl, _ => rfl
theorem funFtrc (h : Hd) (d : RegF) (a : RegF) : Statement (.funFtrc h d a) := fun
    | _, _, rfl, _ => rfl
theorem funItof (h : Hd) (d : RegF) (a : RegF) : Statement (.funItof h d a) := fun
    | _, _, rfl, _ => rfl
theorem funUtof (h : Hd) (d : RegF) (a : RegF) : Statement (.funUtof h d a) := fun
    | _, _, rfl, _ => rfl
theorem funFtoi (h : Hd) (d : RegF) (a : RegF) : Statement (.funFtoi h d a) := fun
    | _, _, rfl, _ => rfl
theorem funFtou (h : Hd) (d : RegF) (a : RegF) : Statement (.funFtou h d a) := fun
    | _, _, rfl, _ => rfl
theorem funFcls (h : Hd) (d : RegF) (a : RegF) : Statement (.funFcls h d a) := fun
    | _, _, rfl, _ => rfl
theorem sfuRcp (h : Hd) (d : RegF) (a : RegF) : Statement (.sfuRcp h d a) := fun
    | _, _, rfl, _ => rfl
theorem sfuRsq (h : Hd) (d : RegF) (a : RegF) : Statement (.sfuRsq h d a) := fun
    | _, _, rfl, _ => rfl
theorem sfuSqrt (h : Hd) (d : RegF) (a : RegF) : Statement (.sfuSqrt h d a) := fun
    | _, _, rfl, _ => rfl
theorem sfuExp2 (h : Hd) (d : RegF) (a : RegF) : Statement (.sfuExp2 h d a) := fun
    | _, _, rfl, _ => rfl
theorem sfuLog2 (h : Hd) (d : RegF) (a : RegF) : Statement (.sfuLog2 h d a) := fun
    | _, _, rfl, _ => rfl
theorem sfuSinp (h : Hd) (d : RegF) (a : RegF) : Statement (.sfuSinp h d a) := fun
    | _, _, rfl, _ => rfl
theorem sfuCosp (h : Hd) (d : RegF) (a : RegF) : Statement (.sfuCosp h d a) := fun
    | _, _, rfl, _ => rfl
theorem sfuTanh (h : Hd) (d : RegF) (a : RegF) : Statement (.sfuTanh h d a) := fun
    | _, _, rfl, _ => rfl
theorem sfuSigm (h : Hd) (d : RegF) (a : RegF) : Statement (.sfuSigm h d a) := fun
    | _, _, rfl, _ => rfl
theorem sfuExp (h : Hd) (d : RegF) (a : RegF) : Statement (.sfuExp h d a) := fun
    | _, _, rfl, _ => rfl
theorem sfuLog (h : Hd) (d : RegF) (a : RegF) : Statement (.sfuLog h d a) := fun
    | _, _, rfl, _ => rfl
theorem cvnPkh (h : Hd) (d : RegF) (a : RegF) : Statement (.cvnPkh h d a) := fun
    | _, _, rfl, _ => rfl
theorem cvnPkb (h : Hd) (d : RegF) (a : RegF) : Statement (.cvnPkb h d a) := fun
    | _, _, rfl, _ => rfl
theorem cvnPk6 (h : Hd) (d : RegF) (a : RegF) : Statement (.cvnPk6 h d a) := fun
    | _, _, rfl, _ => rfl
theorem cvnUnph (h : Hd) (d : RegF) (a : RegF) : Statement (.cvnUnph h d a) := fun
    | _, _, rfl, _ => rfl
theorem cvnUnpb (h : Hd) (d : RegF) (a : RegF) : Statement (.cvnUnpb h d a) := fun
    | _, _, rfl, _ => rfl
theorem cvnUnp6 (h : Hd) (d : RegF) (a : RegF) : Statement (.cvnUnp6 h d a) := fun
    | _, _, rfl, _ => rfl
theorem cvnBscl (h : Hd) (d : RegF) (a : RegF) : Statement (.cvnBscl h d a) := fun
    | _, _, rfl, _ => rfl
theorem osms (h : Hd) (d : RegF) (a : RegF) : Statement (.osms h d a) := fun
    | _, _, rfl, _ => rfl
theorem osmn (h : Hd) (d : RegF) (a : RegF) (b : RegF) : Statement (.osmn h d a b) := fun
    | _, _, rfl, _ => rfl
theorem brx (h : Hd) (a : RegF) : Statement (.brx h a) := fun
    | _, _, rfl, _ => rfl
theorem brxCall (h : Hd) (a : RegF) : Statement (.brxCall h a) := fun
    | _, _, rfl, _ => rfl
theorem sync (h : Hd) : Statement (.sync h) := fun
    | _, _, rfl, _ => rfl
theorem ret (h : Hd) : Statement (.ret h) := fun
    | _, _, rfl, _ => rfl
theorem exit (h : Hd) : Statement (.exit h) := fun
    | _, _, rfl, _ => rfl
theorem nop (h : Hd) : Statement (.nop h) := fun
    | _, _, rfl, _ => rfl
theorem voteAny (h : Hd) (d : RegF) (a : RegF) : Statement (.voteAny h d a) := fun
    | _, _, rfl, _ => rfl
theorem voteAll (h : Hd) (d : RegF) (a : RegF) : Statement (.voteAll h d a) := fun
    | _, _, rfl, _ => rfl
theorem voteBallot (h : Hd) (d : RegF) (a : RegF) : Statement (.voteBallot h d a) := fun
    | _, _, rfl, _ => rfl
theorem voteCnt (h : Hd) (d : RegF) (a : RegF) : Statement (.voteCnt h d a) := fun
    | _, _, rfl, _ => rfl
theorem voteUni (h : Hd) (d : RegF) (a : RegF) : Statement (.voteUni h d a) := fun
    | _, _, rfl, _ => rfl
theorem voteFirst (h : Hd) (d : RegF) (a : RegF) : Statement (.voteFirst h d a) := fun
    | _, _, rfl, _ => rfl
theorem shfl (h : Hd) (d : RegF) (a : RegF) (b : RegF) : Statement (.shfl h d a b) := fun
    | _, _, rfl, _ => rfl
theorem shfx (h : Hd) (d : RegF) (a : RegF) (b : RegF) : Statement (.shfx h d a b) := fun
    | _, _, rfl, _ => rfl
theorem scanAdd (h : Hd) (d : RegF) (a : RegF) (e : Bool) : Statement (.scanAdd h d a e) := fun _ _ e _ => by cases e; simp [decodeFields, decodeScan, b214_lo, b214_bit]
theorem scanFadd (h : Hd) (d : RegF) (a : RegF) (e : Bool) : Statement (.scanFadd h d a e) := fun _ _ e _ => by cases e; simp [decodeFields, decodeScan, b214_lo, b214_bit]
theorem scanMin (h : Hd) (d : RegF) (a : RegF) (e : Bool) : Statement (.scanMin h d a e) := fun _ _ e _ => by cases e; simp [decodeFields, decodeScan, b214_lo, b214_bit]
theorem scanMax (h : Hd) (d : RegF) (a : RegF) (e : Bool) : Statement (.scanMax h d a e) := fun _ _ e _ => by cases e; simp [decodeFields, decodeScan, b214_lo, b214_bit]
theorem scanAnd (h : Hd) (d : RegF) (a : RegF) (e : Bool) : Statement (.scanAnd h d a e) := fun _ _ e _ => by cases e; simp [decodeFields, decodeScan, b214_lo, b214_bit]
theorem scanOr (h : Hd) (d : RegF) (a : RegF) (e : Bool) : Statement (.scanOr h d a e) := fun _ _ e _ => by cases e; simp [decodeFields, decodeScan, b214_lo, b214_bit]
theorem scanXor (h : Hd) (d : RegF) (a : RegF) (e : Bool) : Statement (.scanXor h d a e) := fun _ _ e _ => by cases e; simp [decodeFields, decodeScan, b214_lo, b214_bit]
theorem redAdd (h : Hd) (d : RegF) (a : RegF) : Statement (.redAdd h d a) := fun
    | _, _, rfl, _ => rfl
theorem redFadd (h : Hd) (d : RegF) (a : RegF) : Statement (.redFadd h d a) := fun
    | _, _, rfl, _ => rfl
theorem redMin (h : Hd) (d : RegF) (a : RegF) : Statement (.redMin h d a) := fun
    | _, _, rfl, _ => rfl
theorem redMax (h : Hd) (d : RegF) (a : RegF) : Statement (.redMax h d a) := fun
    | _, _, rfl, _ => rfl
theorem redMaxi (h : Hd) (d : RegF) (a : RegF) : Statement (.redMaxi h d a) := fun
    | _, _, rfl, _ => rfl
theorem redMini (h : Hd) (d : RegF) (a : RegF) : Statement (.redMini h d a) := fun
    | _, _, rfl, _ => rfl
theorem redAnd (h : Hd) (d : RegF) (a : RegF) : Statement (.redAnd h d a) := fun
    | _, _, rfl, _ => rfl
theorem redOr (h : Hd) (d : RegF) (a : RegF) : Statement (.redOr h d a) := fun
    | _, _, rfl, _ => rfl
theorem redXor (h : Hd) (d : RegF) (a : RegF) : Statement (.redXor h d a) := fun
    | _, _, rfl, _ => rfl
theorem topk (h : Hd) (d : RegF) (a : RegF) (b : RegF) : Statement (.topk h d a b) := fun
    | _, _, rfl, _ => rfl
theorem regrp (h : Hd) (d : RegF) (a : RegF) (b : RegF) : Statement (.regrp h d a b) := fun
    | _, _, rfl, _ => rfl
theorem drop (h : Hd) (a : RegF) : Statement (.drop h a) := fun
    | _, _, rfl, _ => rfl
theorem fenceSc (h : Hd) (c : BitVec 3) : Statement (.fenceSc h c) := fun _ _ e _ => by cases e; simp [decodeFields, decodeFence, b34_lo2, b34_hi]
theorem fenceAcq (h : Hd) (c : BitVec 3) : Statement (.fenceAcq h c) := fun _ _ e _ => by cases e; simp [decodeFields, decodeFence, b34_lo2, b34_hi]
theorem fenceRel (h : Hd) (c : BitVec 3) : Statement (.fenceRel h c) := fun _ _ e _ => by cases e; simp [decodeFields, decodeFence, b34_lo2, b34_hi]
theorem fenceAr (h : Hd) (c : BitVec 3) : Statement (.fenceAr h c) := fun _ _ e _ => by cases e; simp [decodeFields, decodeFence, b34_lo2, b34_hi]
theorem txb (h : Hd) (d : RegF) (a : RegF) (b : RegF) : Statement (.txb h d a b) := fun
    | _, _, rfl, _ => rfl
theorem expect (h : Hd) (a : RegF) (b : RegF) : Statement (.expect h a b) := fun
    | _, _, rfl, _ => rfl
theorem spillSpill (h : Hd) (d : RegF) (a : RegF) : Statement (.spillSpill h d a) := fun
    | _, _, rfl, _ => rfl
theorem spillFill (h : Hd) (d : RegF) (a : RegF) : Statement (.spillFill h d a) := fun
    | _, _, rfl, _ => rfl
theorem barArrive (h : Hd) (d : RegF) (a : RegF) : Statement (.barArrive h d a) := fun
    | _, _, rfl, _ => rfl
theorem barWait (h : Hd) (a : RegF) : Statement (.barWait h a) := fun
    | _, _, rfl, _ => rfl
theorem barSync (h : Hd) (d : RegF) (a : RegF) : Statement (.barSync h d a) := fun
    | _, _, rfl, _ => rfl
theorem wbar (h : Hd) (a : RegF) : Statement (.wbar h a) := fun
    | _, _, rfl, _ => rfl
theorem batonTake (h : Hd) : Statement (.batonTake h) := fun
    | _, _, rfl, _ => rfl
theorem batonGive (h : Hd) : Statement (.batonGive h) := fun
    | _, _, rfl, _ => rfl
theorem batonPass (h : Hd) (a : RegF) : Statement (.batonPass h a) := fun
    | _, _, rfl, _ => rfl
theorem mfence (h : Hd) (d : RegF) : Statement (.mfence h d) := fun
    | _, _, rfl, _ => rfl
theorem mwait (h : Hd) (a : RegF) : Statement (.mwait h a) := fun
    | _, _, rfl, _ => rfl
theorem mdrainVf32 (h : Hd) (d : RegF) (a : RegF) (z : Bool) (k : BitVec 2) : Statement (.mdrainVf32 h d a z k) := fun _ _ e _ => by cases e; simp [decodeFields, decodeMdrain, b2122_lo, b2122_mid, b2122_bit]
theorem mdrainVbf16 (h : Hd) (d : RegF) (a : RegF) (z : Bool) (k : BitVec 2) : Statement (.mdrainVbf16 h d a z k) := fun _ _ e _ => by cases e; simp [decodeFields, decodeMdrain, b2122_lo, b2122_mid, b2122_bit]
theorem mdrainReg (h : Hd) (d : RegF) (a : RegF) (c : BitVec 3) (k : BitVec 2) : Statement (.mdrainReg h d a c k) := fun _ _ e _ => by cases e; simp [decodeFields, decodeMdrain, b322_lo, b322_mid, b322_hi]
theorem mdrainPort (h : Hd) (d : RegF) (a : RegF) (z : Bool) (k : BitVec 2) : Statement (.mdrainPort h d a z k) := fun _ _ e _ => by cases e; simp [decodeFields, decodeMdrain, b2122_lo, b2122_mid, b2122_bit]
theorem qopPush (h : Hd) (d : RegF) (a : RegF) (n : Bool) : Statement (.qopPush h d a n) := fun _ _ e _ => by cases e; simp [decodeFields, decodeQop, b214_lo, b214_bit]
theorem qopPop (h : Hd) (d : RegF) (a : RegF) (n : Bool) : Statement (.qopPop h d a n) := fun _ _ e _ => by cases e; simp [decodeFields, decodeQop, b214_lo, b214_bit]
theorem qopCount (h : Hd) (d : RegF) (a : RegF) (n : Bool) : Statement (.qopCount h d a n) := fun _ _ e _ => by cases e; simp [decodeFields, decodeQop, b214_lo, b214_bit]
theorem tpioLdk (h : Hd) (d : RegF) (a : RegF) (k : BitVec 2) : Statement (.tpioLdk h d a k) := fun _ _ e _ => by cases e; simp [decodeFields, decodeTpio, b223_lo, b223_mid]
theorem tpioLda (h : Hd) (a : RegF) (k : BitVec 2) : Statement (.tpioLda h a k) := fun _ _ e _ => by cases e; simp [decodeFields, decodeTpio, b223_lo, b223_mid]
theorem tpioLdb (h : Hd) (a : RegF) (k : BitVec 2) : Statement (.tpioLdb h a k) := fun _ _ e _ => by cases e; simp [decodeFields, decodeTpio, b223_lo, b223_mid]
theorem tpioStp (h : Hd) (d : RegF) (a : RegF) (f : Bool) (k : BitVec 2) : Statement (.tpioStp h d a f k) := fun _ _ e _ => by cases e; simp [decodeFields, decodeTpio, b1123_lo, b1123_mid, b1123_bit]
theorem tpioStf (h : Hd) (a : RegF) (k : BitVec 2) : Statement (.tpioStf h a k) := fun _ _ e _ => by cases e; simp [decodeFields, decodeTpio, b223_lo, b223_mid]
theorem tpioCost (h : Hd) (d : RegF) (a : RegF) (k : BitVec 2) : Statement (.tpioCost h d a k) := fun _ _ e _ => by cases e; simp [decodeFields, decodeTpio, b223_lo, b223_mid]
theorem tpioSize (h : Hd) (a : RegF) (k : BitVec 2) : Statement (.tpioSize h a k) := fun _ _ e _ => by cases e; simp [decodeFields, decodeTpio, b223_lo, b223_mid]
theorem job (h : Hd) (d : RegF) (a : RegF) (b : RegF) : Statement (.job h d a b) := fun
    | _, _, rfl, _ => rfl
theorem task (h : Hd) (d : RegF) (a : RegF) (b : RegF) : Statement (.task h d a b) := fun
    | _, _, rfl, _ => rfl
theorem cwaitTicket (h : Hd) (a : RegF) : Statement (.cwaitTicket h a) := fun
    | _, _, rfl, _ => rfl
theorem cwaitLocal (h : Hd) (a : RegF) : Statement (.cwaitLocal h a) := fun
    | _, _, rfl, _ => rfl
theorem cwaitGlobal (h : Hd) (a : RegF) : Statement (.cwaitGlobal h a) := fun
    | _, _, rfl, _ => rfl
theorem rsnap (h : Hd) (d : RegF) (a : RegF) : Statement (.rsnap h d a) := fun
    | _, _, rfl, _ => rfl
theorem trap (h : Hd) (c : BitVec 7) : Statement (.trap h c) := fun
    | _, _, rfl, _ => rfl
theorem rett (h : Hd) : Statement (.rett h) := fun
    | _, _, rfl, _ => rfl
theorem rettSkip (h : Hd) : Statement (.rettSkip h) := fun
    | _, _, rfl, _ => rfl
theorem sysRd (h : Hd) (d : RegF) (i : BitVec 6) : Statement (.sysRd h d i) := fun _ _ e _ => by cases e; simp [decodeFields, decodeSys, b16_lo, b16_hi]
theorem sysWr (h : Hd) (a : RegF) (i : BitVec 6) : Statement (.sysWr h a i) := fun _ _ e _ => by cases e; simp [decodeFields, decodeSys, b16_lo, b16_hi]
theorem mark (h : Hd) (a : RegF) (c : BitVec 7) : Statement (.mark h a c) := fun
    | _, _, rfl, _ => rfl
theorem brk (h : Hd) (c : BitVec 7) : Statement (.brk h c) := fun
    | _, _, rfl, _ => rfl
theorem ptnT32 (h : Hd) : Statement (.ptnT32 h) := fun
    | _, _, rfl, _ => rfl
theorem ptnT16 (h : Hd) : Statement (.ptnT16 h) := fun
    | _, _, rfl, _ => rfl
theorem ptnT8 (h : Hd) : Statement (.ptnT8 h) := fun
    | _, _, rfl, _ => rfl
theorem ptnT4 (h : Hd) : Statement (.ptnT4 h) := fun
    | _, _, rfl, _ => rfl
theorem ptnT2 (h : Hd) : Statement (.ptnT2 h) := fun
    | _, _, rfl, _ => rfl
theorem ptnWhole (h : Hd) : Statement (.ptnWhole h) := fun
    | _, _, rfl, _ => rfl
theorem mctlLoad (h : Hd) (d : RegF) (a : RegF) : Statement (.mctlLoad h d a) := fun
    | _, _, rfl, _ => rfl
theorem mctlClear (h : Hd) (a : RegF) : Statement (.mctlClear h a) := fun
    | _, _, rfl, _ => rfl
theorem mctlQuery (h : Hd) (d : RegF) (a : RegF) : Statement (.mctlQuery h d a) := fun
    | _, _, rfl, _ => rfl
theorem movi (h : Hd) (d : RegF) (l : Word) : Statement (.movi h d l) := fun
    | _, _, rfl, _ => rfl
theorem iaddi (h : Hd) (d : RegF) (a : RegF) (l : Word) : Statement (.iaddi h d a l) := fun
    | _, _, rfl, _ => rfl
theorem muli (h : Hd) (d : RegF) (a : RegF) (l : Word) : Statement (.muli h d a l) := fun
    | _, _, rfl, _ => rfl
theorem andi (h : Hd) (d : RegF) (a : RegF) (l : Word) : Statement (.andi h d a l) := fun
    | _, _, rfl, _ => rfl
theorem ori (h : Hd) (d : RegF) (a : RegF) (l : Word) : Statement (.ori h d a l) := fun
    | _, _, rfl, _ => rfl
theorem xori (h : Hd) (d : RegF) (a : RegF) (l : Word) : Statement (.xori h d a l) := fun
    | _, _, rfl, _ => rfl
theorem setfmt (h : Hd) (l : Word) : Statement (.setfmt h l) := fun
    | _, _, rfl, _ => rfl
theorem setfmtReg (h : Hd) (a : RegF) : Statement (.setfmtReg h a) := fun
    | _, _, rfl, _ => rfl
theorem wbase (h : Hd) (l : Word) : Statement (.wbase h l) := fun
    | _, _, rfl, _ => rfl
theorem wbaseReg (h : Hd) (a : RegF) : Statement (.wbaseReg h a) := fun
    | _, _, rfl, _ => rfl
theorem mcall (h : Hd) (d : RegF) (a : RegF) (b : RegF) (l : Word) : Statement (.mcall h d a b l) := fun
    | _, _, rfl, _ => rfl
theorem bra (h : Hd) (l : Word) : Statement (.bra h l) := fun
    | _, _, rfl, _ => rfl
theorem braNz (h : Hd) (a : RegF) (l : Word) : Statement (.braNz h a l) := fun
    | _, _, rfl, _ => rfl
theorem braZ (h : Hd) (a : RegF) (l : Word) : Statement (.braZ h a l) := fun
    | _, _, rfl, _ => rfl
theorem brd (h : Hd) (a : RegF) (l : Word) : Statement (.brd h a l) := fun
    | _, _, rfl, _ => rfl
theorem brdZ (h : Hd) (a : RegF) (l : Word) : Statement (.brdZ h a l) := fun
    | _, _, rfl, _ => rfl
theorem ssy (h : Hd) (l : Word) : Statement (.ssy h l) := fun
    | _, _, rfl, _ => rfl
theorem call (h : Hd) (l : Word) : Statement (.call h l) := fun
    | _, _, rfl, _ => rfl
theorem group (h : Hd) (d : RegF) (a : RegF) (n4 : BitVec 4) (l : Word) : Statement (.group h d a n4 l) := fun _ _ e _ => by cases e; simp [decodeFields, b34z_lo]
theorem join (h : Hd) (d : RegF) (a : RegF) (n4 : BitVec 4) (l : Word) : Statement (.join h d a n4 l) := fun _ _ e _ => by cases e; simp [decodeFields, b34z_lo]
theorem spawn (h : Hd) (d : RegF) (a : RegF) (n3 : BitVec 3) (l : Word) : Statement (.spawn h d a n3 l) := fun _ _ e _ => by cases e; simp [decodeFields, b43z_lo]
theorem ldg (h : Hd) (d : RegF) (a : RegF) (b : RegF) (l : Word) : Statement (.ldg h d a b l) := fun
    | _, _, rfl, _ => rfl
theorem stg (h : Hd) (d : RegF) (a : RegF) (b : RegF) (l : Word) : Statement (.stg h d a b l) := fun
    | _, _, rfl, _ => rfl
theorem ldv (h : Hd) (d : RegF) (a : RegF) (b : RegF) (l : Word) : Statement (.ldv h d a b l) := fun
    | _, _, rfl, _ => rfl
theorem stv (h : Hd) (d : RegF) (a : RegF) (b : RegF) (l : Word) : Statement (.stv h d a b l) := fun
    | _, _, rfl, _ => rfl
theorem atomAdd (h : Hd) (d : RegF) (a : RegF) (xr : BitVec 3) (l : Word) : Statement (.atomAdd h d a xr l) := fun _ _ e _ => by cases e; simp [decodeFields, decodeAtom, b34_lo, b34_hi]
theorem atomFadd (h : Hd) (d : RegF) (a : RegF) (xr : BitVec 3) (l : Word) : Statement (.atomFadd h d a xr l) := fun _ _ e _ => by cases e; simp [decodeFields, decodeAtom, b34_lo, b34_hi]
theorem atomMin (h : Hd) (d : RegF) (a : RegF) (xr : BitVec 3) (l : Word) : Statement (.atomMin h d a xr l) := fun _ _ e _ => by cases e; simp [decodeFields, decodeAtom, b34_lo, b34_hi]
theorem atomMax (h : Hd) (d : RegF) (a : RegF) (xr : BitVec 3) (l : Word) : Statement (.atomMax h d a xr l) := fun _ _ e _ => by cases e; simp [decodeFields, decodeAtom, b34_lo, b34_hi]
theorem atomUmin (h : Hd) (d : RegF) (a : RegF) (xr : BitVec 3) (l : Word) : Statement (.atomUmin h d a xr l) := fun _ _ e _ => by cases e; simp [decodeFields, decodeAtom, b34_lo, b34_hi]
theorem atomUmax (h : Hd) (d : RegF) (a : RegF) (xr : BitVec 3) (l : Word) : Statement (.atomUmax h d a xr l) := fun _ _ e _ => by cases e; simp [decodeFields, decodeAtom, b34_lo, b34_hi]
theorem atomAnd (h : Hd) (d : RegF) (a : RegF) (xr : BitVec 3) (l : Word) : Statement (.atomAnd h d a xr l) := fun _ _ e _ => by cases e; simp [decodeFields, decodeAtom, b34_lo, b34_hi]
theorem atomOr (h : Hd) (d : RegF) (a : RegF) (xr : BitVec 3) (l : Word) : Statement (.atomOr h d a xr l) := fun _ _ e _ => by cases e; simp [decodeFields, decodeAtom, b34_lo, b34_hi]
theorem atomXor (h : Hd) (d : RegF) (a : RegF) (xr : BitVec 3) (l : Word) : Statement (.atomXor h d a xr l) := fun _ _ e _ => by cases e; simp [decodeFields, decodeAtom, b34_lo, b34_hi]
theorem atomExch (h : Hd) (d : RegF) (a : RegF) (xr : BitVec 3) (l : Word) : Statement (.atomExch h d a xr l) := fun _ _ e _ => by cases e; simp [decodeFields, decodeAtom, b34_lo, b34_hi]
theorem atomCas (h : Hd) (d : RegF) (a : RegF) (xr : BitVec 3) (l : Word) : Statement (.atomCas h d a xr l) := fun _ _ e _ => by cases e; simp [decodeFields, decodeAtom, b34_lo, b34_hi]
theorem atomIncb (h : Hd) (d : RegF) (a : RegF) (xr : BitVec 3) (l : Word) : Statement (.atomIncb h d a xr l) := fun _ _ e _ => by cases e; simp [decodeFields, decodeAtom, b34_lo, b34_hi]
theorem atomSeal (h : Hd) (d : RegF) (a : RegF) (xr : BitVec 3) (l : Word) : Statement (.atomSeal h d a xr l) := fun _ _ e _ => by cases e; simp [decodeFields, decodeAtom, b34_lo, b34_hi]
theorem atomSnap (h : Hd) (d : RegF) (a : RegF) (xr : BitVec 3) (l : Word) : Statement (.atomSnap h d a xr l) := fun _ _ e _ => by cases e; simp [decodeFields, decodeAtom, b34_lo, b34_hi]
theorem waddrWait (h : Hd) (d : RegF) (a : RegF) (xr : BitVec 3) (l : Word) : Statement (.waddrWait h d a xr l) := fun _ _ e _ => by cases e; simp [decodeFields, decodeWaddr, b34_lo2, b34_hi]
theorem waddrWake (h : Hd) (d : RegF) (a : RegF) (xr : BitVec 3) (l : Word) : Statement (.waddrWake h d a xr l) := fun _ _ e _ => by cases e; simp [decodeFields, decodeWaddr, b34_lo2, b34_hi]
theorem waddrWakeall (h : Hd) (d : RegF) (a : RegF) (xr : BitVec 3) (l : Word) : Statement (.waddrWakeall h d a xr l) := fun _ _ e _ => by cases e; simp [decodeFields, decodeWaddr, b34_lo2, b34_hi]
theorem sfill (h : Hd) (d : RegF) (a : RegF) (b : RegF) (l : Word) : Statement (.sfill h d a b l) := fun
    | _, _, rfl, _ => rfl
theorem scopy (h : Hd) (d : RegF) (a : RegF) (b : RegF) (l : Word) : Statement (.scopy h d a b l) := fun
    | _, _, rfl, _ => rfl
theorem mloop (h : Hd) (d : RegF) (a : RegF) (b : RegF) (l : Word) : Statement (.mloop h d a b l) := fun
    | _, _, rfl, _ => rfl
theorem bal (h : Hd) (d : RegF) (a : RegF) (b : RegF) (l : Word) : Statement (.bal h d a b l) := fun
    | _, _, rfl, _ => rfl
theorem cpost (h : Hd) (d : RegF) (a : RegF) (b : RegF) (l : Word) : Statement (.cpost h d a b l) := fun
    | _, _, rfl, _ => rfl
theorem xpose (h : Hd) (d : RegF) (a : RegF) (b : RegF) (l : Word) : Statement (.xpose h d a b l) := fun
    | _, _, rfl, _ => rfl
theorem reservedOpcode (w : Word) : Statement (.reservedOpcode w) := fun _ _ e hw => by
  cases e
  rw [decodeFields_reservedOp (fieldsOf w) _ hw, assemble_fieldsOf]
theorem reservedSubOperation (w : Word) : Statement (.reservedSubOperation w) := fun _ _ e hw => by
  cases e
  rw [decodeFields_reservedSub (fieldsOf w) _ hw, assemble_fieldsOf]
theorem exitRetire : Statement (.exitRetire) := fun _ _ h => nomatch h
theorem fenceDrainEnd : Statement (.fenceDrainEnd) := fun _ _ h => nomatch h
theorem expectClear : Statement (.expectClear) := fun _ _ h => nomatch h
theorem wbarPhaseEnd : Statement (.wbarPhaseEnd) := fun _ _ h => nomatch h
theorem wbarBlockSave : Statement (.wbarBlockSave) := fun _ _ h => nomatch h
theorem wbarBlockRestore : Statement (.wbarBlockRestore) := fun _ _ h => nomatch h
theorem tstatWrite : Statement (.tstatWrite) := fun _ _ h => nomatch h
theorem mstatWrite : Statement (.mstatWrite) := fun _ _ h => nomatch h
theorem cecountWrite : Statement (.cecountWrite) := fun _ _ h => nomatch h
theorem ftmap : Statement (.ftmap) := fun _ _ h => nomatch h
theorem hostreq : Statement (.hostreq) := fun _ _ h => nomatch h
theorem jobctlResume : Statement (.jobctlResume) := fun _ _ h => nomatch h
theorem jobctlAbandon : Statement (.jobctlAbandon) := fun _ _ h => nomatch h
theorem ivhiInvalidatePage : Statement (.ivhiInvalidatePage) := fun _ _ h => nomatch h
theorem ivhiInvalidateAll : Statement (.ivhiInvalidateAll) := fun _ _ h => nomatch h
theorem mctlLoadCommit : Statement (.mctlLoadCommit) := fun _ _ h => nomatch h
theorem instructionFetch : Statement (.instructionFetch) := fun _ _ h => nomatch h
theorem longResultLands : Statement (.longResultLands) := fun _ _ h => nomatch h
theorem storeAccepted : Statement (.storeAccepted) := fun _ _ h => nomatch h
theorem sfuEntryStart : Statement (.sfuEntryStart) := fun _ _ h => nomatch h
theorem teamPromoted : Statement (.teamPromoted) := fun _ _ h => nomatch h
theorem trapEntry : Statement (.trapEntry) := fun _ _ h => nomatch h
theorem blockPlacement : Statement (.blockPlacement) := fun _ _ h => nomatch h
theorem blockStart : Statement (.blockStart) := fun _ _ h => nomatch h
theorem blockEnd : Statement (.blockEnd) := fun _ _ h => nomatch h
theorem gridEnd : Statement (.gridEnd) := fun _ _ h => nomatch h
theorem binLaunch : Statement (.binLaunch) := fun _ _ h => nomatch h
theorem binTimerExpiry : Statement (.binTimerExpiry) := fun _ _ h => nomatch h
theorem vatStart : Statement (.vatStart) := fun _ _ h => nomatch h
theorem vatComplete : Statement (.vatComplete) := fun _ _ h => nomatch h
theorem atomRequestEnqueue : Statement (.atomRequestEnqueue) := fun _ _ h => nomatch h
theorem atomServiceApply : Statement (.atomServiceApply) := fun _ _ h => nomatch h
theorem vaultPortApply : Statement (.vaultPortApply) := fun _ _ h => nomatch h
theorem waitCompareRecord : Statement (.waitCompareRecord) := fun _ _ h => nomatch h
theorem watchWriteWake : Statement (.watchWriteWake) := fun _ _ h => nomatch h
theorem watchTimeout : Statement (.watchTimeout) := fun _ _ h => nomatch h
theorem spuriousWake : Statement (.spuriousWake) := fun _ _ h => nomatch h
theorem wakeService : Statement (.wakeService) := fun _ _ h => nomatch h
theorem promotionWriteback : Statement (.promotionWriteback) := fun _ _ h => nomatch h
theorem presenceSet : Statement (.presenceSet) := fun _ _ h => nomatch h
theorem walkComplete : Statement (.walkComplete) := fun _ _ h => nomatch h
theorem remotePackageLost : Statement (.remotePackageLost) := fun _ _ h => nomatch h
theorem linkSilenceLoss : Statement (.linkSilenceLoss) := fun _ _ h => nomatch h
theorem linkReplayLoss : Statement (.linkReplayLoss) := fun _ _ h => nomatch h
theorem flitReplay : Statement (.flitReplay) := fun _ _ h => nomatch h
theorem idleFlit : Statement (.idleFlit) := fun _ _ h => nomatch h
theorem fabricLaneSwap : Statement (.fabricLaneSwap) := fun _ _ h => nomatch h
theorem timeBeacon : Statement (.timeBeacon) := fun _ _ h => nomatch h
theorem timeBeaconReceive : Statement (.timeBeaconReceive) := fun _ _ h => nomatch h
theorem jobStart : Statement (.jobStart) := fun _ _ h => nomatch h
theorem engineTransfer : Statement (.engineTransfer) := fun _ _ h => nomatch h
theorem unsolicitedWriteRetry : Statement (.unsolicitedWriteRetry) := fun _ _ h => nomatch h
theorem jobComplete : Statement (.jobComplete) := fun _ _ h => nomatch h
theorem engfault : Statement (.engfault) := fun _ _ h => nomatch h
theorem fillStart : Statement (.fillStart) := fun _ _ h => nomatch h
theorem fillRowAppend : Statement (.fillRowAppend) := fun _ _ h => nomatch h
theorem fillComplete : Statement (.fillComplete) := fun _ _ h => nomatch h
theorem taskSchedulerRound : Statement (.taskSchedulerRound) := fun _ _ h => nomatch h
theorem taskLaunch : Statement (.taskLaunch) := fun _ _ h => nomatch h
theorem taskComplete : Statement (.taskComplete) := fun _ _ h => nomatch h
theorem renameCopyback : Statement (.renameCopyback) := fun _ _ h => nomatch h
theorem queuePopServe : Statement (.queuePopServe) := fun _ _ h => nomatch h
theorem queuePushAccept : Statement (.queuePushAccept) := fun _ _ h => nomatch h
theorem gatewayPush : Statement (.gatewayPush) := fun _ _ h => nomatch h
theorem operandRowDraw : Statement (.operandRowDraw) := fun _ _ h => nomatch h
theorem mloopStep : Statement (.mloopStep) := fun _ _ h => nomatch h
theorem mdrainExecute : Statement (.mdrainExecute) := fun _ _ h => nomatch h
theorem mdrainPortHandoff : Statement (.mdrainPortHandoff) := fun _ _ h => nomatch h
theorem tpioExecute : Statement (.tpioExecute) := fun _ _ h => nomatch h
theorem balExecute : Statement (.balExecute) := fun _ _ h => nomatch h
theorem batchComplete : Statement (.batchComplete) := fun _ _ h => nomatch h
theorem sequencerAbandon : Statement (.sequencerAbandon) := fun _ _ h => nomatch h
theorem sampleTick : Statement (.sampleTick) := fun _ _ h => nomatch h
theorem chunkAgeClose : Statement (.chunkAgeClose) := fun _ _ h => nomatch h
theorem chunkRingWrite : Statement (.chunkRingWrite) := fun _ _ h => nomatch h
theorem preciseStop : Statement (.preciseStop) := fun _ _ h => nomatch h
theorem hostCommandPush : Statement (.hostCommandPush) := fun _ _ h => nomatch h
theorem launch : Statement (.launch) := fun _ _ h => nomatch h
theorem copyHostToDevice : Statement (.copyHostToDevice) := fun _ _ h => nomatch h
theorem copyDeviceToHost : Statement (.copyDeviceToHost) := fun _ _ h => nomatch h
theorem copyDeviceToDevice : Statement (.copyDeviceToDevice) := fun _ _ h => nomatch h
theorem mapContext : Statement (.mapContext) := fun _ _ h => nomatch h
theorem mapPool : Statement (.mapPool) := fun _ _ h => nomatch h
theorem mapQueue : Statement (.mapQueue) := fun _ _ h => nomatch h
theorem mapSplit : Statement (.mapSplit) := fun _ _ h => nomatch h
theorem mapGroups : Statement (.mapGroups) := fun _ _ h => nomatch h
theorem mapInval : Statement (.mapInval) := fun _ _ h => nomatch h
theorem mapAnswer : Statement (.mapAnswer) := fun _ _ h => nomatch h
theorem mapAdmit : Statement (.mapAdmit) := fun _ _ h => nomatch h
theorem snapshotStart : Statement (.snapshotStart) := fun _ _ h => nomatch h
theorem snapshotStop : Statement (.snapshotStop) := fun _ _ h => nomatch h
theorem replay : Statement (.replay) := fun _ _ h => nomatch h
theorem signalPreempt : Statement (.signalPreempt) := fun _ _ h => nomatch h
theorem signalResume : Statement (.signalResume) := fun _ _ h => nomatch h
theorem signalKill : Statement (.signalKill) := fun _ _ h => nomatch h
theorem signalContinue : Statement (.signalContinue) := fun _ _ h => nomatch h
theorem attest : Statement (.attest) := fun _ _ h => nomatch h
theorem illcmd : Statement (.illcmd) := fun _ _ h => nomatch h
theorem collPostCollect : Statement (.collPostCollect) := fun _ _ h => nomatch h
theorem collRequestGrant : Statement (.collRequestGrant) := fun _ _ h => nomatch h
theorem collRequestAged : Statement (.collRequestAged) := fun _ _ h => nomatch h
theorem collGrantReceive : Statement (.collGrantReceive) := fun _ _ h => nomatch h
theorem collChunkRead : Statement (.collChunkRead) := fun _ _ h => nomatch h
theorem collLocalComplete : Statement (.collLocalComplete) := fun _ _ h => nomatch h
theorem collGlobalComplete : Statement (.collGlobalComplete) := fun _ _ h => nomatch h
theorem collErrorNotice : Statement (.collErrorNotice) := fun _ _ h => nomatch h
theorem collPartFault : Statement (.collPartFault) := fun _ _ h => nomatch h
theorem packageStart : Statement (.packageStart) := fun _ _ h => nomatch h
theorem startFailureReport : Statement (.startFailureReport) := fun _ _ h => nomatch h
theorem vaultScrub : Statement (.vaultScrub) := fun _ _ h => nomatch h
theorem hbmScrub : Statement (.hbmScrub) := fun _ _ h => nomatch h
theorem powerLoss : Statement (.powerLoss) := fun _ _ h => nomatch h
theorem collectiveDataTransfer : Statement (.collectiveDataTransfer) := fun _ _ h => nomatch h

end Sys2Proof.Laws.Encoding
end

