-- ==== Sys2Proof/Laws/Reads.lean ====
section
/-!
SUPPORT. Reading the operands of an instruction changes TSTAT alone: one lemma for each field of the state and of the team, and for each
operation that the meanings apply after their checks.
-/

namespace Sys2Proof.Machine

@[simp] theorem afterReads_ac (s : State) (ops : List Opnd) : (afterReads s ops).ac = s.ac := by unfold afterReads; split <;> rfl
@[simp] theorem afterReads_power (s : State) (ops : List Opnd) : (afterReads s ops).power = s.power := by unfold afterReads; split <;> rfl
@[simp] theorem afterReads_teams (s : State) (ops : List Opnd) : (afterReads s ops).teams = s.teams := by unfold afterReads; split <;> rfl
@[simp] theorem afterReads_busy (s : State) (ops : List Opnd) : (afterReads s ops).busy = s.busy := by unfold afterReads; split <;> rfl
@[simp] theorem afterReads_issuer (s : State) (ops : List Opnd) : (afterReads s ops).issuer = s.issuer := by unfold afterReads; split <;> rfl
@[simp] theorem afterReads_blocks (s : State) (ops : List Opnd) : (afterReads s ops).blocks = s.blocks := by unfold afterReads; split <;> rfl
@[simp] theorem afterReads_nextBlock (s : State) (ops : List Opnd) : (afterReads s ops).nextBlock = s.nextBlock := by unfold afterReads; split <;> rfl
@[simp] theorem afterReads_grids (s : State) (ops : List Opnd) : (afterReads s ops).grids = s.grids := by unfold afterReads; split <;> rfl
@[simp] theorem afterReads_nextGrid (s : State) (ops : List Opnd) : (afterReads s ops).nextGrid = s.nextGrid := by unfold afterReads; split <;> rfl
@[simp] theorem afterReads_ctxs (s : State) (ops : List Opnd) : (afterReads s ops).ctxs = s.ctxs := by unfold afterReads; split <;> rfl
@[simp] theorem afterReads_cores (s : State) (ops : List Opnd) : (afterReads s ops).cores = s.cores := by unfold afterReads; split <;> rfl
@[simp] theorem afterReads_clusters (s : State) (ops : List Opnd) : (afterReads s ops).clusters = s.clusters := by unfold afterReads; split <;> rfl
@[simp] theorem afterReads_dies (s : State) (ops : List Opnd) : (afterReads s ops).dies = s.dies := by unfold afterReads; split <;> rfl
@[simp] theorem afterReads_nextJob (s : State) (ops : List Opnd) : (afterReads s ops).nextJob = s.nextJob := by unfold afterReads; split <;> rfl
@[simp] theorem afterReads_queues (s : State) (ops : List Opnd) : (afterReads s ops).queues = s.queues := by unfold afterReads; split <;> rfl
@[simp] theorem afterReads_queueFree (s : State) (ops : List Opnd) : (afterReads s ops).queueFree = s.queueFree := by unfold afterReads; split <;> rfl
@[simp] theorem afterReads_colls (s : State) (ops : List Opnd) : (afterReads s ops).colls = s.colls := by unfold afterReads; split <;> rfl
@[simp] theorem afterReads_mem (s : State) (ops : List Opnd) : (afterReads s ops).mem = s.mem := by unfold afterReads; split <;> rfl
@[simp] theorem afterReads_split (s : State) (ops : List Opnd) : (afterReads s ops).split = s.split := by unfold afterReads; split <;> rfl
@[simp] theorem afterReads_launched (s : State) (ops : List Opnd) : (afterReads s ops).launched = s.launched := by unfold afterReads; split <;> rfl
@[simp] theorem afterReads_preq (s : State) (ops : List Opnd) : (afterReads s ops).preq = s.preq := by unfold afterReads; split <;> rfl
@[simp] theorem afterReads_nextSeq (s : State) (ops : List Opnd) : (afterReads s ops).nextSeq = s.nextSeq := by unfold afterReads; split <;> rfl
@[simp] theorem afterReads_prlate (s : State) (ops : List Opnd) : (afterReads s ops).prlate = s.prlate := by unfold afterReads; split <;> rfl
@[simp] theorem afterReads_cecount (s : State) (ops : List Opnd) : (afterReads s ops).cecount = s.cecount := by unfold afterReads; split <;> rfl
@[simp] theorem afterReads_bad (s : State) (ops : List Opnd) : (afterReads s ops).bad = s.bad := by unfold afterReads; split <;> rfl
@[simp] theorem afterReads_lost (s : State) (ops : List Opnd) : (afterReads s ops).lost = s.lost := by unfold afterReads; split <;> rfl
@[simp] theorem afterReads_ports (s : State) (ops : List Opnd) : (afterReads s ops).ports = s.ports := by unfold afterReads; split <;> rfl
@[simp] theorem afterReads_ftime (s : State) (ops : List Opnd) : (afterReads s ops).ftime = s.ftime := by unfold afterReads; split <;> rfl
@[simp] theorem afterReads_posts (s : State) (ops : List Opnd) : (afterReads s ops).posts = s.posts := by unfold afterReads; split <;> rfl
@[simp] theorem afterReads_creqs (s : State) (ops : List Opnd) : (afterReads s ops).creqs = s.creqs := by unfold afterReads; split <;> rfl
@[simp] theorem afterReads_grants (s : State) (ops : List Opnd) : (afterReads s ops).grants = s.grants := by unfold afterReads; split <;> rfl
@[simp] theorem afterReads_nextRank (s : State) (ops : List Opnd) : (afterReads s ops).nextRank = s.nextRank := by unfold afterReads; split <;> rfl
@[simp] theorem afterReads_scheds (s : State) (ops : List Opnd) : (afterReads s ops).scheds = s.scheds := by unfold afterReads; split <;> rfl
@[simp] theorem afterReads_swCtx (s : State) (ops : List Opnd) : (afterReads s ops).swCtx = s.swCtx := by unfold afterReads; split <;> rfl
@[simp] theorem afterReads_notices (s : State) (ops : List Opnd) : (afterReads s ops).notices = s.notices := by unfold afterReads; split <;> rfl
@[simp] theorem afterReads_imgSize (s : State) (ops : List Opnd) : (afterReads s ops).imgSize = s.imgSize := by unfold afterReads; split <;> rfl
@[simp] theorem afterReads_out (s : State) (ops : List Opnd) : (afterReads s ops).out = s.out := by unfold afterReads; split <;> rfl
@[simp] theorem afterReads_inbound (s : State) (ops : List Opnd) : (afterReads s ops).inbound = s.inbound := by unfold afterReads; split <;> rfl
@[simp] theorem afterReads_startLog (s : State) (ops : List Opnd) : (afterReads s ops).startLog = s.startLog := by unfold afterReads; split <;> rfl
@[simp] theorem afterReads_startCount (s : State) (ops : List Opnd) : (afterReads s ops).startCount = s.startCount := by unfold afterReads; split <;> rfl
@[simp] theorem afterReads_startStep (s : State) (ops : List Opnd) : (afterReads s ops).startStep = s.startStep := by unfold afterReads; split <;> rfl
@[simp] theorem afterReads_minSvn (s : State) (ops : List Opnd) : (afterReads s ops).minSvn = s.minSvn := by unfold afterReads; split <;> rfl
@[simp] theorem afterReads_fusesRead (s : State) (ops : List Opnd) : (afterReads s ops).fusesRead = s.fusesRead := by unfold afterReads; split <;> rfl
@[simp] theorem afterReads_spares (s : State) (ops : List Opnd) : (afterReads s ops).spares = s.spares := by unfold afterReads; split <;> rfl
@[simp] theorem afterReads_idKey (s : State) (ops : List Opnd) : (afterReads s ops).idKey = s.idKey := by unfold afterReads; split <;> rfl
@[simp] theorem afterReads_images (s : State) (ops : List Opnd) : (afterReads s ops).images = s.images := by unfold afterReads; split <;> rfl
@[simp] theorem afterReads_failRec (s : State) (ops : List Opnd) : (afterReads s ops).failRec = s.failRec := by unfold afterReads; split <;> rfl
@[simp] theorem afterReads_lastFail (s : State) (ops : List Opnd) : (afterReads s ops).lastFail = s.lastFail := by unfold afterReads; split <;> rfl
@[simp] theorem afterReads_captures (s : State) (ops : List Opnd) : (afterReads s ops).captures = s.captures := by unfold afterReads; split <;> rfl
@[simp] theorem afterReads_stop (s : State) (ops : List Opnd) : (afterReads s ops).stop = s.stop := by unfold afterReads; split <;> rfl
@[simp] theorem afterReads_replay (s : State) (ops : List Opnd) : (afterReads s ops).replay = s.replay := by unfold afterReads; split <;> rfl
@[simp] theorem afterReads_cmdNext (s : State) (ops : List Opnd) : (afterReads s ops).cmdNext = s.cmdNext := by unfold afterReads; split <;> rfl
@[simp] theorem afterReads_turn (s : State) (ops : List Opnd) : (afterReads s ops).turn = s.turn := by unfold afterReads; split <;> rfl
@[simp] theorem afterReads_beacons (s : State) (ops : List Opnd) : (afterReads s ops).beacons = s.beacons := by unfold afterReads; split <;> rfl
@[simp] theorem afterReads_waking (s : State) (ops : List Opnd) : (afterReads s ops).waking = s.waking := by unfold afterReads; split <;> rfl
@[simp] theorem afterReads_agenda (s : State) (ops : List Opnd) : (afterReads s ops).agenda = s.agenda := by unfold afterReads; split <;> rfl
@[simp] theorem afterReads_sel (s : State) (ops : List Opnd) : (afterReads s ops).sel = s.sel := by unfold afterReads; split <;> rfl
@[simp] theorem afterReads_fresh (s : State) (ops : List Opnd) : (afterReads s ops).fresh = s.fresh := by unfold afterReads; split <;> rfl
@[simp] theorem afterReads_nextTag (s : State) (ops : List Opnd) : (afterReads s ops).nextTag = s.nextTag := by unfold afterReads; split <;> rfl
@[simp] theorem afterReads_nextAge (s : State) (ops : List Opnd) : (afterReads s ops).nextAge = s.nextAge := by unfold afterReads; split <;> rfl
@[simp] theorem afterReads_team_present (s : State) (ops : List Opnd) : (afterReads s ops).team.present = s.team.present := by unfold afterReads; split <;> rfl
@[simp] theorem afterReads_team_blk (s : State) (ops : List Opnd) : (afterReads s ops).team.blk = s.team.blk := by unfold afterReads; split <;> rfl
@[simp] theorem afterReads_team_role (s : State) (ops : List Opnd) : (afterReads s ops).team.role = s.team.role := by unfold afterReads; split <;> rfl
@[simp] theorem afterReads_team_lanes (s : State) (ops : List Opnd) : (afterReads s ops).team.lanes = s.team.lanes := by unfold afterReads; split <;> rfl
@[simp] theorem afterReads_team_nregs (s : State) (ops : List Opnd) : (afterReads s ops).team.nregs = s.team.nregs := by unfold afterReads; split <;> rfl
@[simp] theorem afterReads_team_handler (s : State) (ops : List Opnd) : (afterReads s ops).team.handler = s.team.handler := by unfold afterReads; split <;> rfl
@[simp] theorem afterReads_team_traced (s : State) (ops : List Opnd) : (afterReads s ops).team.traced = s.team.traced := by unfold afterReads; split <;> rfl
@[simp] theorem afterReads_team_v (s : State) (ops : List Opnd) : (afterReads s ops).team.v = s.team.v := by unfold afterReads; split <;> rfl
@[simp] theorem afterReads_team_vdead (s : State) (ops : List Opnd) : (afterReads s ops).team.vdead = s.team.vdead := by unfold afterReads; split <;> rfl
@[simp] theorem afterReads_team_vundef (s : State) (ops : List Opnd) : (afterReads s ops).team.vundef = s.team.vundef := by unfold afterReads; split <;> rfl
@[simp] theorem afterReads_team_rbad (s : State) (ops : List Opnd) : (afterReads s ops).team.rbad = s.team.rbad := by unfold afterReads; split <;> rfl
@[simp] theorem afterReads_team_s (s : State) (ops : List Opnd) : (afterReads s ops).team.s = s.team.s := by unfold afterReads; split <;> rfl
@[simp] theorem afterReads_team_sdead (s : State) (ops : List Opnd) : (afterReads s ops).team.sdead = s.team.sdead := by unfold afterReads; split <;> rfl
@[simp] theorem afterReads_team_shadow (s : State) (ops : List Opnd) : (afterReads s ops).team.shadow = s.team.shadow := by unfold afterReads; split <;> rfl
@[simp] theorem afterReads_team_shdead (s : State) (ops : List Opnd) : (afterReads s ops).team.shdead = s.team.shdead := by unfold afterReads; split <;> rfl
@[simp] theorem afterReads_team_x (s : State) (ops : List Opnd) : (afterReads s ops).team.x = s.team.x := by unfold afterReads; split <;> rfl
@[simp] theorem afterReads_team_wbase (s : State) (ops : List Opnd) : (afterReads s ops).team.wbase = s.team.wbase := by unfold afterReads; split <;> rfl
@[simp] theorem afterReads_team_ptile (s : State) (ops : List Opnd) : (afterReads s ops).team.ptile = s.team.ptile := by unfold afterReads; split <;> rfl
@[simp] theorem afterReads_team_pc (s : State) (ops : List Opnd) : (afterReads s ops).team.pc = s.team.pc := by unfold afterReads; split <;> rfl
@[simp] theorem afterReads_team_live (s : State) (ops : List Opnd) : (afterReads s ops).team.live = s.team.live := by unfold afterReads; split <;> rfl
@[simp] theorem afterReads_team_cstack (s : State) (ops : List Opnd) : (afterReads s ops).team.cstack = s.team.cstack := by unfold afterReads; split <;> rfl
@[simp] theorem afterReads_team_rstack (s : State) (ops : List Opnd) : (afterReads s ops).team.rstack = s.team.rstack := by unfold afterReads; split <;> rfl
@[simp] theorem afterReads_team_rmove (s : State) (ops : List Opnd) : (afterReads s ops).team.rmove = s.team.rmove := by unfold afterReads; split <;> rfl
@[simp] theorem afterReads_team_barPend (s : State) (ops : List Opnd) : (afterReads s ops).team.barPend = s.team.barPend := by unfold afterReads; split <;> rfl
@[simp] theorem afterReads_team_barPhase (s : State) (ops : List Opnd) : (afterReads s ops).team.barPhase = s.team.barPhase := by unfold afterReads; split <;> rfl
@[simp] theorem afterReads_team_rwc (s : State) (ops : List Opnd) : (afterReads s ops).team.rwc = s.team.rwc := by unfold afterReads; split <;> rfl
@[simp] theorem afterReads_team_hmode (s : State) (ops : List Opnd) : (afterReads s ops).team.hmode = s.team.hmode := by unfold afterReads; split <;> rfl
@[simp] theorem afterReads_team_trap (s : State) (ops : List Opnd) : (afterReads s ops).team.trap = s.team.trap := by unfold afterReads; split <;> rfl
@[simp] theorem afterReads_team_trapReq (s : State) (ops : List Opnd) : (afterReads s ops).team.trapReq = s.team.trapReq := by unfold afterReads; split <;> rfl
@[simp] theorem afterReads_team_events (s : State) (ops : List Opnd) : (afterReads s ops).team.events = s.team.events := by unfold afterReads; split <;> rfl
@[simp] theorem afterReads_team_mcall (s : State) (ops : List Opnd) : (afterReads s ops).team.mcall = s.team.mcall := by unfold afterReads; split <;> rfl
@[simp] theorem afterReads_team_reexec (s : State) (ops : List Opnd) : (afterReads s ops).team.reexec = s.team.reexec := by unfold afterReads; split <;> rfl
@[simp] theorem afterReads_team_failed (s : State) (ops : List Opnd) : (afterReads s ops).team.failed = s.team.failed := by unfold afterReads; split <;> rfl
@[simp] theorem afterReads_team_failFetch (s : State) (ops : List Opnd) : (afterReads s ops).team.failFetch = s.team.failFetch := by unfold afterReads; split <;> rfl
@[simp] theorem afterReads_team_stores (s : State) (ops : List Opnd) : (afterReads s ops).team.stores = s.team.stores := by unfold afterReads; split <;> rfl
@[simp] theorem afterReads_team_park (s : State) (ops : List Opnd) : (afterReads s ops).team.park = s.team.park := by unfold afterReads; split <;> rfl
@[simp] theorem afterReads_team_farWait (s : State) (ops : List Opnd) : (afterReads s ops).team.farWait = s.team.farWait := by unfold afterReads; split <;> rfl
@[simp] theorem afterReads_team_woke (s : State) (ops : List Opnd) : (afterReads s ops).team.woke = s.team.woke := by unfold afterReads; split <;> rfl
@[simp] theorem afterReads_team_swDue (s : State) (ops : List Opnd) : (afterReads s ops).team.swDue = s.team.swDue := by unfold afterReads; split <;> rfl
@[simp] theorem afterReads_team_stall (s : State) (ops : List Opnd) : (afterReads s ops).team.stall = s.team.stall := by unfold afterReads; split <;> rfl
@[simp] theorem afterReads_team_walked (s : State) (ops : List Opnd) : (afterReads s ops).team.walked = s.team.walked := by unfold afterReads; split <;> rfl
@[simp] theorem afterReads_team_ir (s : State) (ops : List Opnd) : (afterReads s ops).team.ir = s.team.ir := by unfold afterReads; split <;> rfl
@[simp] theorem afterReads_team_age (s : State) (ops : List Opnd) : (afterReads s ops).team.age = s.team.age := by unfold afterReads; split <;> rfl
@[simp] theorem afterReads_team_lastIssue (s : State) (ops : List Opnd) : (afterReads s ops).team.lastIssue = s.team.lastIssue := by unfold afterReads; split <;> rfl
@[simp] theorem afterReads_team_promoted (s : State) (ops : List Opnd) : (afterReads s ops).team.promoted = s.team.promoted := by unfold afterReads; split <;> rfl
@[simp] theorem afterReads_team_readyAt (s : State) (ops : List Opnd) : (afterReads s ops).team.readyAt = s.team.readyAt := by unfold afterReads; split <;> rfl
@[simp] theorem afterReads_team_tr (s : State) (ops : List Opnd) : (afterReads s ops).team.tr = s.team.tr := by unfold afterReads; split <;> rfl

variable (s : State) (ops : List Opnd)

@[simp] theorem afterReads_fmtField (i j : Nat) : fmtField (afterReads s ops) i j = fmtField s i j := by simp [fmtField]
@[simp] theorem afterReads_fmtVec : fmtVec (afterReads s ops) = fmtVec s := by simp [fmtVec]
@[simp] theorem afterReads_fmtRm : fmtRm (afterReads s ops) = fmtRm s := by simp [fmtRm]
@[simp] theorem afterReads_fmtSat : fmtSat (afterReads s ops) = fmtSat s := by simp [fmtSat]
@[simp] theorem afterReads_fmtNf : fmtNf (afterReads s ops) = fmtNf s := by simp [fmtNf]
@[simp] theorem afterReads_fmtSblk : fmtSblk (afterReads s ops) = fmtSblk s := by simp [fmtSblk]
@[simp] theorem afterReads_pendCount : pendCount (afterReads s ops).team = pendCount s.team := by simp [pendCount]
@[simp] theorem afterReads_passesOf : passesOf (afterReads s ops).team = passesOf s.team := by simp [passesOf]
@[simp] theorem afterReads_crossDelay (w : Bool) (i j k : Nat) : crossDelay (afterReads s ops) w i j k = crossDelay s w i j k := by simp [crossDelay]
@[simp] theorem afterReads_longPend (p : Nat) (sh : Bool) (regs : List Nat) (ws : List RegWrite) (dl : Nat) :
    longPend (afterReads s ops) p sh regs ws dl = longPend s p sh regs ws dl := by simp [longPend]
@[simp] theorem afterReads_rdPair (f : RegF) (l : Nat) : rdPair (afterReads s ops) f l = rdPair s f l := by simp [rdPair]
@[simp] theorem afterReads_myBlock : (afterReads s ops).myBlock = s.myBlock := by simp [State.myBlock, State.block]
@[simp] theorem afterReads_myCore : (afterReads s ops).myCore = s.myCore := by simp [State.myCore]
@[simp] theorem afterReads_block (k : Nat) : (afterReads s ops).block k = s.block k := by simp [State.block]
@[simp] theorem afterReads_core (k : Nat) : (afterReads s ops).core k = s.core k := by simp [State.core]
@[simp] theorem afterReads_grid (k : Nat) : (afterReads s ops).grid k = s.grid k := by simp [State.grid]
@[simp] theorem afterReads_myGrid : (afterReads s ops).myGrid = s.myGrid := by simp [State.myGrid]
@[simp] theorem afterReads_myCtx : (afterReads s ops).myCtx = s.myCtx := by simp [State.myCtx]
@[simp] theorem afterReads_queue (k : Nat) : (afterReads s ops).queue k = s.queue k := by simp [State.queue]
@[simp] theorem afterReads_coll (k : Nat) : (afterReads s ops).coll k = s.coll k := by simp [State.coll]

end Sys2Proof.Machine
end

