-- ==== Sys2Proof/Tests/Slice0.lean ====
section
/-!
SUPPORT. Tests of the model, and for every statement with hypotheses one theorem that shows a concrete state and operands that meet them
together. Expected values come from the encodings and worked rules of spec/, named at each test.
-/

namespace Sys2Proof.Tests

open Sys2Proof Sys2Proof.Machine

set_option Elab.async false

/-! ### States -/

/-- A team of four live lanes, three of them active, in slot 0 of core 0. -/
def wTeam : Team :=
  { present := true, lanes := 4, nregs := 96, live := 15, active := 7, pc := 0x100000
    v := [(1, 5), (2, 7), (3, 0xBF800000), (513, 9), (514, 2), (1025, 3)], s := (Vector.replicate 24 0).set 1 6 }

/-- The machine with that team in a running block of a grid of context 1. -/
def w : State :=
  { State.reset with
    team := wTeam, ac := 100, nextTag := 7, fresh := 40
    blocks := [(0, { phase := .running, vbytes := 8192, barriers := 2, vheld := true })]
    grids := [(0, { ctx := 1, launch := { gx := 1, gy := 1, gz := 1, bond := 1, collent := 4, roles := [{ lanes := 4, regs := 96 }] }, started := true })]
    ctxs := [(0, { valid := true }), (1, { valid := true })] }

def onT (s : State) (f : Team → Team) : State := s.onTeam f
/-- Narrow format and accumulators as a format register asks for. -/
def wFmt (n : Word) : State := onT w fun t => { t with fmt := n }

/-- The same with another team in focus and this one, changed by `f`, waiting in its slot. -/
def wAway (f : Team → Team) : State := { w with team := { wTeam with tid := 17, age := 5 }, teams := [(0, f wTeam)] }
/-- Trap requests. -/
def wReq : TrapReq := { cause := 8, sub := 0, mask := 3, saved := 7, tpc := 0x100000, tnext := 0x100008, lanes := [(0, { cause := 8, faddr := 0x123456789, lsub := 2, kind := 1 }), (1, { cause := 9 })] }
def wTrapping (hd : Option VAddr) (hm : Bool) (t : Team) : Team := { t with park := .trap, trapReq := some wReq, handler := hd, hmode := hm, rstack := [⟨false, 0x2000, 8, 0⟩] }
def wTrapState : TrapState := { tpc := 0x100000, tnext := 0x100008, active := 7, entry := 3, fmt := 5, wbase := 4, jobctl := true, lanes := [(0, { cause := 8, kind := 1, ptype := 3 })] }
def wHandler (k : TrapState) : State := onT w fun t => { t with hmode := true, handler := some 0x5000, trap := k, rstack := [⟨false, 0x2000, 8, 0⟩] }
/-- A team parked as said. -/
def wPark (p : Park) : State := onT w fun t => { t with park := p }
def sel (s : State) (x : Sel) : State := { s with sel := x }

/-- Offsets 0, 8, 16 in register 1 of the active lanes; translation register 0 maps a page of HBM at PA 0x10000; memory and vault hold bytes. -/
def wMem : State :=
  { onT w (fun t => { t with
      v := [(1, 0), (2, 0x11223344), (3, 0x55667788), (513, 8), (514, 0xA0B0C0D0), (515, 9), (1025, 16), (1026, 0xDEADBEEF), (1027, 10)]
      s := ((t.s.set 1 8).set 2 0x40000).set 6 3
      x := t.x.set 0 { v := true, r := true, w := true, frame := 0x10, base := 0x40000 } })
    with
    blocks := [(0, { phase := .running, vbytes := 8192, barriers := 2, vheld := true, svcq := 8 })]
    mem := memPuts (memPuts [] (vaultKey 0 0) [1, 2, 3, 0xF4, 5, 6, 7, 8]) (hbmKey 0 0x1000) [0xC1, 2, 3, 4] }


/-- `wMem` with queues, entries of the TLB and room for jobs; scalar 3 names queue 5 and scalar 4 queue 6. -/
def wEng : State :=
  { onT wMem (fun t => { t with s := ((t.s.set 4 6).set 3 0).set 7 5 }) with
    cores := [(0, { tlb := [{ ctx := 1, page := 0x40, psz := 0, frame := 0x10, r := true, w := true, x := true, ncm := false }] })]
    blocks := [(0, { phase := .running, vbytes := 8192, barriers := 2, vheld := true, svcq := 8, matuse := true })]
    queues := [(5, { kind := 1, cap := 4, owner := 1, gap := true, entries := [{ data := 0x1234567890ABCDEF1234567890ABCDEF, time := 77, gap := false }] }),
      (6, { kind := 2, cap := 2, owner := 1 })] }
/-- The bytes of little-endian numbers, each given with its width. -/
def le (l : List (Nat × Nat)) : List Byte := l.flatMap fun p => (List.range p.1).map fun i => BitVec.ofNat 8 (p.2 / 256 ^ i)
/-- A task descriptor with one read and one write region. -/
def wTask : List Byte := le [(8, 0x100000), (8, 0), (8, 0), (2, 4), (1, 1), (1, 1), (1, 3), (3, 0), (32, 0), (8, 0x40400), (8, 64), (48, 0), (8, 0x40480), (8, 64), (48, 0)]

def wPl : Place := { vault := true, core := 0, off := 0, len := 8192 }
/-- A job that copies two lines within the region, and the same under way. -/
def wJob : Job :=
  { key := 3, die := 0, num := 1, kind := .scopy, ctx := 1, grid := 0, blk := 0, uid := 0, core := 0, pc := 0
    reads := [{ space := 1, base := 0, len := 256 }], writes := [{ space := 1, base := 512, len := 256 }], srcPl := wPl, dstPl := wPl
    src := 0, dst := 512, rowbytes := 128, nrows := 2, sstride := 128, dstride := 128, cw := true, cwVault := true, cword := 1024, cval := 1 }
/-- An expansion of two control words, the first next. -/
def wMcall : MCall := { words := [{ word := 0x81 }, { word := 0x81 }], idx := 0, d := 1, a := 2, b := 3, p := 4, sw := false }
/-- The machine with IADD r3, r1, r2 at the PC of its team. -/
def wFetch : State := State.reset.withFetchWord 32 0x01004103
/-- An earlier job that uses no region. -/
def wOld : Job := { wJob with key := 1, reads := [], writes := [] }
def withJobs (s : State) (l : List Job) : State := sel { s with dies := [(0, { jobs := l, counter := 1 })], nextJob := 9 } { unit := 0, sub := 3 }
def wTaskJob : Job := { wJob with kind := .task, reads := [], writes := [], entry := 0x100000, lanes := 4, args := [1, 2, 3, 4], rbase := [5], wbase := [6] }
/-- A stream descriptor: rows of 64 bytes of BF16, one row a step, in the vault. -/
def wStream : List Byte := le [(8, 0x400), (8, 0x400), (4, 64), (4, 64), (2, 1), (2, 64), (2, 0), (2, 0), (1, 1), (1, 1), (30, 0)]


/-- `wEng` with the matrix engine claimed by the block and the trowel with the team. -/
def wMatWith (f : Matrix → Matrix) : State :=
  { wEng with cores := [(0, { tlb := (wEng.core 0).tlb, mat := f { owner := some 0, trowel := some 0, isOpen := true, batches := [7], counter := 9 } })] }
def wMat : State := wMatWith id
/-- A slot in accumulator mode, and one in transport mode. -/
def wSlot : AccSlot := { vals := [(0, 0x3F800000), (1, 0x40000000), (64, 0x40400000)] }
def wTile : AccSlot := { mode := true, m := 2, n := 2, tm := 2, tn := 2, k := [(0, 0x3F800000)], rowm := [(0, 0), (1, 0)], colm := [(0, 0), (1, 0)] }
def wCell : AccSlot := { mode := true, m := 1, n := 1, tm := 1, tn := 1, k := [(0, 0x3F800000)], rowm := [(0, 0)], colm := [(0, 0)] }
def wHead (op : MemberOp) (a : AccSlot) (f : Member → Member := id) : State :=
  wMatWith fun m => { m with acc := m.acc.set 0 a, queue := [f { batch := 9, slot := 0, tid := 0, op := op }] }


/-- Page tables from PA 0x20000 down that map VA 0 to the frame at PA 0x30000, readable, writable and executable. -/
def wTables : List Host.Cell :=
  [(0x20000, 0x21200), (0x21000, 0x22200), (0x22000, 0x23200), (0x23000, 0x24200), (0x24000, 0x25200), (0x25000, 0x30470)].foldl
    (fun m p => match paKind 80000000000 p.1 with | .hbm k => memPuts m k (le [(8, p.2)]) | _ => m) []
def wPages : State := { wMem with ctxs := [(0, { valid := true }), (1, { valid := true, root := 0x20000, groups := [(2, BitVec.ofNat 64 1), (3, BitVec.ofNat 64 2)] })], mem := wTables }
/-- A collective entry: ALLREDUCE of two FP32 elements from VA 0 to VA 0x100 in a group of one member. -/
def wColl (st : CollSt) : Coll :=
  { st := st, gen := 1, desc := { group := 2, seq := 5, oper := 1, dtype := 1, rop := 0, scope := 4, count := 2, send := 0, recv := 0x100, sched := 6 }
    ctx := 1, grid := 0, uid := some 0, member := 0, n := 1 }
def wCollS (st : CollSt) (f : Coll → Coll := id) : State := { wPages with colls := [(0, f (wColl st))] }
/-- A collective descriptor. -/
def wCard : List Byte := le [(2, 2), (2, 5), (1, 1), (1, 1), (1, 0), (1, 4), (4, 2), (2, 0), (2, 0), (8, 0), (8, 0x100), (4, 6), (1, 0), (27, 0)]


/-- A command packet of context 1 that reports to endpoint 3, and the state with it at the head of queue 0. -/
def wPkt (cmd sub : Nat) (bs : List Byte) : Packet := pktOf (le [(1, cmd), (1, sub), (2, 1), (4, 77), (8, 0x1000), (2, 3), (2, 0)] ++ bs)
def wCmd (s : State) (p : Packet) : State :=
  { s with queues := [(0, { kind := 3, cap := 256, owner := 0, entries := (List.range 4).map fun i =>
      { data := p.extractLsb' (128 * i) 128, time := 0, gap := false } })], power := .on }
/-- A launch record of one block of one team of four lanes. -/
def wRec : List Byte := le [(4, 0), (2, 1), (2, 1), (2, 1), (1, 1), (1, 2), (1, 1), (1, 0), (1, 2), (1, 4), (4, 128), (2, 0), (74, 0), (8, 0x100000), (2, 4), (1, 96), (1, 0), (4, 0)]
def wGpu (bs : List Byte) : State := { wPages with mem := memPuts wTables (hbmKey 0 0x3000) bs }

/-- `wPages` with the leaf of VA 0 as given and these frames in the pool of 4 KiB. -/
def wLeaf (leaf : Nat) (pool : List Nat) : State :=
  { wPages with
    ctxs := [(0, { valid := true }), (1, { valid := true, root := 0x20000, pool4 := pool })]
    mem := match paKind 80000000000 0x25000 with | .hbm k => memPuts wTables k (le [(8, leaf)]) | _ => [] }
/-- `wMem` with a misaligned offset in lane 1. -/
def wBent : State := onT wMem fun t => { t with v := [(1, 0), (2, 0x11223344), (3, 0x55667788), (513, 9), (514, 0xA0B0C0D0), (515, 9), (1025, 16), (1026, 0xDEADBEEF), (1027, 10)] }
/-- `wMem` with the first line of the region absent. -/
def wAbsent : State := wMem.onCore 0 fun c => { c with absent := [0] }
/-- A renumbering under way in core 0, of a team changed by `f`. -/
def wVat (f : Team → Team) : State := { onT w f with cores := [(0, { vat := some { tid := 0, moves := [], cost := 5 } })] }

def headMember (s : State) : Member := ((s.core 0).mat.queue).headD { batch := 0, slot := 0, tid := 0, op := .lda 0 }

/-! ### Deciding hypotheses -/

/-- The conditions of `Issuing`, to be evaluated. -/
def issB (s : State) : Bool := s.team.present && s.team.park == .run && decide (s.team.nregs ≤ 248)
theorem issuing_of {s : State} (h : issB s = true) : Issuing s := by
  simp only [issB, Bool.and_eq_true, beq_iff_eq, decide_eq_true_eq] at h
  exact ⟨h.1.1, h.1.2, h.2⟩
/-- The conditions of `Ready`, to be evaluated. -/
def readyB (s : State) (u : Bool) (ops : List Opnd) : Bool :=
  decide (∀ o ∈ ops, o.ok = true) && decide (∀ o ∈ ops, ∀ f ∈ o.fields, windowBad s.team f = false) &&
  decide (∀ o ∈ ops, ∀ f ∈ o.fields, isPending s.team (regCode s.team f) = false) &&
  decide (readsDead s ops = true → s.team.tstat.getLsbD 1 = false) && decide (∀ o ∈ ops, o.wr = true → o.f < 120) &&
  decide (u = true → ∀ o ∈ ops, o.rd = true → 96 ≤ o.f) && !(lanesOf s.team.active).any (badOps s ops)
theorem ready_of {s : State} {u : Bool} {ops : List Opnd} (h : readyB s u ops = true) : Ready s u ops := by
  simp only [readyB, Bool.and_eq_true, decide_eq_true_eq, Bool.not_eq_true'] at h
  exact ⟨h.1.1.1.1.1.1, h.1.1.1.1.1.2, h.1.1.1.1.2, by simp, h.1.1.1.2, h.1.1.2, h.1.2, h.2⟩
theorem readyX_of {s : State} {u : Bool} {ops : List Opnd} {k : Nat} (h : readyB s u ops = true)
    (hk : isPending s.team (560 + k) = false) : Ready s u ops (some k) := by
  simp only [readyB, Bool.and_eq_true, decide_eq_true_eq, Bool.not_eq_true'] at h
  exact ⟨h.1.1.1.1.1.1, h.1.1.1.1.1.2, h.1.1.1.1.2, by simpa using hk, h.1.1.1.2, h.1.1.2, h.1.2, h.2⟩
def draining (p : Park) : Bool := match p with | .wbarDrain _ => true | _ => false
theorem not_drain {p : Park} (h : draining p = false) : ∀ w, p ≠ .wbarDrain w := by rintro w rfl; cases h
theorem no_lines {l : Sparse CLine} {P : CLine → Prop} (h : l.isEmpty = true) : ∀ i c, mget? l i = some c → P c := by
  intro i c hc
  rw [List.isEmpty_iff.mp h] at hc
  cases hc
theorem no_lines2 {l : Sparse CLine} {P : Nat → CLine → Prop} (h : l.isEmpty = true) : ∀ i c, mget? l i = some c → P i c := by
  intro i c hc
  rw [List.isEmpty_iff.mp h] at hc
  cases hc
def isHbm (k : PaKind) : Bool := match k with | .hbm _ => true | _ => false
theorem hbm_all {split f n : Nat} (h : ((List.range n).all fun i => isHbm (paKind split (f + i))) = true) :
    ∀ i < n, ∃ k, paKind split (f + i) = .hbm k := by
  intro i hi
  have := List.all_eq_true.mp h i (List.mem_range.mpr hi)
  cases hk : paKind split (f + i) <;> simp_all [isHbm]
/-- Whether the keys of a range lie below, or not below, a bound. -/
def under (s : State) (m f n : Nat) (lt : Bool) : Bool := (List.range n).all fun i => match paKey s (f + i) with | some k => decide (k < m) == lt | none => false
theorem apart {s : State} {pa f m n : Nat}
    (h : (under s ((paKey s pa).getD 0) pa m false && under s ((paKey s pa).getD 0) f n true) = true) :
    ∀ i < m, ∃ k, paKey s (pa + i) = some k ∧ ∀ j < n, paKey s (f + j) ≠ some k := by
  obtain ⟨h1, h2⟩ := Bool.and_eq_true_iff.mp h
  intro i hi
  have h1 := List.all_eq_true.mp h1 i (List.mem_range.mpr hi)
  cases hk : paKey s (pa + i) with
  | none => simp [hk] at h1
  | some k =>
    refine ⟨k, rfl, fun j hj he => ?_⟩
    have h2 := List.all_eq_true.mp h2 j (List.mem_range.mpr hj)
    simp_all
    omega
/-- Whether nothing waits at an owner of atomics or for a snapshot. -/
def noWaits (s : State) : Bool :=
  (s.clusters.all fun c => c.2.queue.isEmpty && c.2.net.isEmpty) && s.cores.all fun c => c.2.vport.isEmpty && c.2.snaps.isEmpty
theorem atomWaits_none {s : State} (h : noWaits s = true) (k n : Nat) : atomWaits s k n = false := by
  simp only [noWaits, Bool.and_eq_true, List.all_eq_true, List.isEmpty_iff] at h
  simp only [atomWaits, snapWaits, Bool.or_eq_false_iff, List.any_eq_false]
  refine ⟨⟨fun c hc => ?_, fun c hc => ?_⟩, fun c hc => ?_⟩ <;> first | have := h.1 c hc | have := h.2 c hc
  all_goals simp_all
theorem named_of {l : List RegWrite} (h : (l.all fun w => decide (w.reg < 536)) = true) : ∀ w ∈ l, regNamed w.reg :=
  fun w hw => .inl (by simpa using List.all_eq_true.mp h w hw)
theorem waits_of {s : State} {pa : Nat → Nat} {w : Nat} {lanes : List Nat}
    (h : (lanes.all fun n => (paKey s (pa n)).all fun k => !atomWaits s k w) = true) :
    ∀ n ∈ lanes, ∀ k, paKey s (pa n) = some k → atomWaits s k w = false := by
  intro n hn k hk
  have := List.all_eq_true.mp h n hn
  simpa [hk] using this
/-- What a descriptor read gives. -/
def gc (r : CardRead) : List Byte × State := match r with | .ok a b => (a, b) | _ => ([], State.reset)
def cardIs (r : CardRead) (b : List Byte) : Bool := match r with | .ok a _ => a == b | _ => false
theorem card_of {r : CardRead} {b : List Byte} (h : cardIs r b = true) : r = .ok b (gc r).2 := by
  cases r <;> simp_all [cardIs, gc]
theorem card_self {r : CardRead} (h : cardIs r (gc r).1 = true) : r = .ok (gc r).1 (gc r).2 := card_of h
def gl {α β : Type} [Inhabited α] (r : α ⊕ β) : α := match r with | .inl a => a | _ => default
def gr {α : Type} (r : α ⊕ (Nat × Nat)) : Nat × Nat := match r with | .inr a => a | _ => (0, 0)
def gs {β : Type} (r : State ⊕ β) : State := match r with | .inl a => a | _ => State.reset
theorem inl_of {β : Type} {r : State ⊕ β} (h : r.isLeft = true) : r = .inl (gs r) := by cases r <;> simp_all [gs]
def ge (r : EngWrite) : State := match r with | .ok a => a | _ => State.reset
def engOk (r : EngWrite) : Bool := match r with | .ok _ => true | _ => false
theorem eng_of {r : EngWrite} (h : engOk r = true) : r = .ok (ge r) := by cases r <;> simp_all [engOk, ge]
def nx (o : Out) : State := match o with | .next t => t | _ => State.reset
def isNext (o : Out) : Bool := match o with | .next _ => true | _ => false
theorem next_of {o : Out} (h : isNext o = true) : o = .next (nx o) := by cases o <;> simp_all [isNext, nx]
theorem pair_of {α β : Type} {x : α × Option β} (h : x.2.isNone = true) : x = (x.1, none) := by
  obtain ⟨a, _ | b⟩ := x <;> simp_all
theorem pair_of_some {α β : Type} {x : α × Option β} {b : β} (h : x.2.isSome = true) : x = (x.1, some (x.2.getD b)) := by
  obtain ⟨a, _ | b⟩ := x <;> simp_all
theorem wbars_of {l : List Team} {b k n : Nat}
    (h : (l.all fun t => !(t.blk == b) || t.tid == k || match t.park with | .wbar v => v == n | .wbarDrain v => v == n | _ => true) = true) :
    ∀ t ∈ l, t.blk = b → t.tid ≠ k → ∀ v, t.park = .wbar v ∨ t.park = .wbarDrain v → v = n := by
  intro t ht h1 h2 v h3
  have := List.all_eq_true.mp h t ht
  rcases h3 with h3 | h3 <;> simp_all
theorem aligned_of {l : List VAddr} (h : (l.all fun v => v.toNat % 4 == 0) = true) : ∀ v ∈ l, v.toNat % 4 = 0 := by
  simpa using h
theorem misaligned_of {l : List VAddr} (h : (l.any fun v => v.toNat % 4 != 0) = true) : ∃ v ∈ l, v.toNat % 4 ≠ 0 := by
  simpa using h
theorem sound_of {s : State} {pa n : Nat} (h : (match paKey s pa with | some k => !badAt s k n | none => true) = true) :
    ∀ k, paKey s pa = some k → badAt s k n = false := by
  intro k hk
  simpa [hk] using h
theorem only_push {l : List (Nat × Queue)} {k : Nat} {r : QReq}
    (h : (l.all fun p => p.2.waiters.all fun w => p.1 == k && w == r) = true) :
    ∀ p ∈ l, p.2.cap ≤ p.2.entries.length → ∀ w ∈ p.2.waiters, ∀ e c, w.op = .push e (some c) → p.1 = k ∧ w = r := by
  intro p hp _ w hw _ _ _
  simpa using List.all_eq_true.mp (List.all_eq_true.mp h p hp) w hw
theorem mem_of_mget? {α : Type} {k : Nat} {v : α} : ∀ {l : Sparse α}, mget? l k = some v → (k, v) ∈ l
  | [], h => by cases h
  | (j, x) :: l, h => by
    rw [mget?_cons] at h
    split at h
    · rename_i e; cases h; subst e; exact List.mem_cons_self
    · exact List.mem_cons_of_mem _ (mem_of_mget? h)
theorem filed_of {s : State} (h : (s.teams.all fun p => p.2.tid == p.1 && p.2.present) = true)
    (h2 : (!s.team.present || (mget? s.teams s.team.tid).isNone) = true) : Claims.filed s := by
  refine ⟨fun k u hk => ?_, fun hp => by simpa [hp] using h2⟩
  simpa using List.all_eq_true.mp h (k, u) (mem_of_mget? hk)

/-! ### Decoding: one word of every instruction, its fields in the order S, OP, HNT, D, A, B of R51, from the tables of R56 and R58 -/

theorem test_decode_integer :
    decodeWord 0b1_0000001_010_0000101_1100001_1000010#32 0 = .iadd ⟨true, 2⟩ 5 97 66 ∧
    decodeWord 0b1_0000010_010_0000101_1100001_1000010#32 0 = .isub ⟨true, 2⟩ 5 97 66 ∧
    decodeWord 0b1_0000011_010_0000101_1100001_1000010#32 0 = .imul ⟨true, 2⟩ 5 97 66 ∧
    decodeWord 0b1_0000100_010_0000101_1100001_1000010#32 0 = .imulh ⟨true, 2⟩ 5 97 66 ∧
    decodeWord 0b1_0000101_010_0000101_1100001_1000010#32 0 = .imulhu ⟨true, 2⟩ 5 97 66 ∧
    decodeWord 0b1_0000110_010_0000101_1100001_1000010#32 0 = .imin ⟨true, 2⟩ 5 97 66 ∧
    decodeWord 0b1_0000111_010_0000101_1100001_1000010#32 0 = .imax ⟨true, 2⟩ 5 97 66 ∧
    decodeWord 0b1_0001000_010_0000101_1100001_1000010#32 0 = .andR ⟨true, 2⟩ 5 97 66 ∧
    decodeWord 0b1_0001001_010_0000101_1100001_1000010#32 0 = .orR ⟨true, 2⟩ 5 97 66 ∧
    decodeWord 0b1_0001010_010_0000101_1100001_1000010#32 0 = .xorR ⟨true, 2⟩ 5 97 66 ∧
    decodeWord 0b1_0001011_010_0000101_1100001_1000010#32 0 = .shl ⟨true, 2⟩ 5 97 66 ∧
    decodeWord 0b1_0001100_010_0000101_1100001_1000010#32 0 = .shr ⟨true, 2⟩ 5 97 66 ∧
    decodeWord 0b1_0001101_010_0000101_1100001_1000010#32 0 = .shra ⟨true, 2⟩ 5 97 66 ∧
    decodeWord 0b1_0001110_010_0000101_1100001_1000010#32 0 = .ilt ⟨true, 2⟩ 5 97 66 ∧
    decodeWord 0b1_0001111_010_0000101_1100001_1000010#32 0 = .iltu ⟨true, 2⟩ 5 97 66 ∧
    decodeWord 0b1_0010000_010_0000101_1100001_1000010#32 0 = .ieq ⟨true, 2⟩ 5 97 66 := by decide +kernel

theorem test_decode_fp :
    decodeWord 0b1_0010001_010_0000101_1100001_1000010#32 0 = .fadd ⟨true, 2⟩ 5 97 66 ∧
    decodeWord 0b1_0010010_010_0000101_1100001_1000010#32 0 = .fsub ⟨true, 2⟩ 5 97 66 ∧
    decodeWord 0b1_0010011_010_0000101_1100001_1000010#32 0 = .fmul ⟨true, 2⟩ 5 97 66 ∧
    decodeWord 0b1_0010100_010_0000101_1100001_1000010#32 0 = .ffma ⟨true, 2⟩ 5 97 66 ∧
    decodeWord 0b1_0010101_010_0000101_1100001_1000010#32 0 = .fmin ⟨true, 2⟩ 5 97 66 ∧
    decodeWord 0b1_0010110_010_0000101_1100001_1000010#32 0 = .fmax ⟨true, 2⟩ 5 97 66 ∧
    decodeWord 0b1_0010111_010_0000101_1100001_1000010#32 0 = .flt ⟨true, 2⟩ 5 97 66 ∧
    decodeWord 0b1_0011000_010_0000101_1100001_1000010#32 0 = .fle ⟨true, 2⟩ 5 97 66 ∧
    decodeWord 0b1_0011001_010_0000101_1100001_1000010#32 0 = .feq ⟨true, 2⟩ 5 97 66 := by decide +kernel

theorem test_decode_select_and_unary :
    decodeWord 0b1_0011010_010_0000101_1100001_1000010#32 0 = .sel ⟨true, 2⟩ 5 97 66 ∧
    decodeWord 0b1_0011011_010_0000101_1100001_0000000#32 0 = .xunMov ⟨true, 2⟩ 5 97 ∧
    decodeWord 0b1_0011011_010_0000101_1100001_0000001#32 0 = .xunNot ⟨true, 2⟩ 5 97 ∧
    decodeWord 0b1_0011011_010_0000101_1100001_0000010#32 0 = .xunNeg ⟨true, 2⟩ 5 97 ∧
    decodeWord 0b1_0011011_010_0000101_1100001_0000011#32 0 = .xunAbs ⟨true, 2⟩ 5 97 ∧
    decodeWord 0b1_0011011_010_0000101_1100001_0000100#32 0 = .xunClz ⟨true, 2⟩ 5 97 ∧
    decodeWord 0b1_0011011_010_0000101_1100001_0000101#32 0 = .xunPopc ⟨true, 2⟩ 5 97 ∧
    decodeWord 0b1_0011011_010_0000101_1100001_0000110#32 0 = .xunBrev ⟨true, 2⟩ 5 97 ∧
    decodeWord 0b1_0011011_010_0000101_1100001_0000111#32 0 = .xunSxb ⟨true, 2⟩ 5 97 ∧
    decodeWord 0b1_0011011_010_0000101_1100001_0001000#32 0 = .xunSxh ⟨true, 2⟩ 5 97 ∧
    decodeWord 0b1_0011011_010_0000101_1100001_0001001#32 0 = .xunZxb ⟨true, 2⟩ 5 97 ∧
    decodeWord 0b1_0011011_010_0000101_1100001_0001010#32 0 = .xunZxh ⟨true, 2⟩ 5 97 := by decide +kernel

theorem test_decode_fun :
    decodeWord 0b1_0011100_010_0000101_1100001_0000000#32 0 = .funFneg ⟨true, 2⟩ 5 97 ∧
    decodeWord 0b1_0011100_010_0000101_1100001_0000001#32 0 = .funFabs ⟨true, 2⟩ 5 97 ∧
    decodeWord 0b1_0011100_010_0000101_1100001_0000010#32 0 = .funFrne ⟨true, 2⟩ 5 97 ∧
    decodeWord 0b1_0011100_010_0000101_1100001_0000011#32 0 = .funFflr ⟨true, 2⟩ 5 97 ∧
    decodeWord 0b1_0011100_010_0000101_1100001_0000100#32 0 = .funFcel ⟨true, 2⟩ 5 97 ∧
    decodeWord 0b1_0011100_010_0000101_1100001_0000101#32 0 = .funFtrc ⟨true, 2⟩ 5 97 ∧
    decodeWord 0b1_0011100_010_0000101_1100001_0000110#32 0 = .funItof ⟨true, 2⟩ 5 97 ∧
    decodeWord 0b1_0011100_010_0000101_1100001_0000111#32 0 = .funUtof ⟨true, 2⟩ 5 97 ∧
    decodeWord 0b1_0011100_010_0000101_1100001_0001000#32 0 = .funFtoi ⟨true, 2⟩ 5 97 ∧
    decodeWord 0b1_0011100_010_0000101_1100001_0001001#32 0 = .funFtou ⟨true, 2⟩ 5 97 ∧
    decodeWord 0b1_0011100_010_0000101_1100001_0001010#32 0 = .funFcls ⟨true, 2⟩ 5 97 := by decide +kernel

theorem test_decode_sfu :
    decodeWord 0b1_0011101_010_0000101_1100001_0000000#32 0 = .sfuRcp ⟨true, 2⟩ 5 97 ∧
    decodeWord 0b1_0011101_010_0000101_1100001_0000001#32 0 = .sfuRsq ⟨true, 2⟩ 5 97 ∧
    decodeWord 0b1_0011101_010_0000101_1100001_0000010#32 0 = .sfuSqrt ⟨true, 2⟩ 5 97 ∧
    decodeWord 0b1_0011101_010_0000101_1100001_0000011#32 0 = .sfuExp2 ⟨true, 2⟩ 5 97 ∧
    decodeWord 0b1_0011101_010_0000101_1100001_0000100#32 0 = .sfuLog2 ⟨true, 2⟩ 5 97 ∧
    decodeWord 0b1_0011101_010_0000101_1100001_0000101#32 0 = .sfuSinp ⟨true, 2⟩ 5 97 ∧
    decodeWord 0b1_0011101_010_0000101_1100001_0000110#32 0 = .sfuCosp ⟨true, 2⟩ 5 97 ∧
    decodeWord 0b1_0011101_010_0000101_1100001_0000111#32 0 = .sfuTanh ⟨true, 2⟩ 5 97 ∧
    decodeWord 0b1_0011101_010_0000101_1100001_0001000#32 0 = .sfuSigm ⟨true, 2⟩ 5 97 ∧
    decodeWord 0b1_0011101_010_0000101_1100001_0001001#32 0 = .sfuExp ⟨true, 2⟩ 5 97 ∧
    decodeWord 0b1_0011101_010_0000101_1100001_0001010#32 0 = .sfuLog ⟨true, 2⟩ 5 97 := by decide +kernel

theorem test_decode_conversion :
    decodeWord 0b1_0011110_010_0000101_1100001_0000000#32 0 = .cvnPkh ⟨true, 2⟩ 5 97 ∧
    decodeWord 0b1_0011110_010_0000101_1100001_0000001#32 0 = .cvnPkb ⟨true, 2⟩ 5 97 ∧
    decodeWord 0b1_0011110_010_0000101_1100001_0000010#32 0 = .cvnPk6 ⟨true, 2⟩ 5 97 ∧
    decodeWord 0b1_0011110_010_0000101_1100001_0000011#32 0 = .cvnUnph ⟨true, 2⟩ 5 97 ∧
    decodeWord 0b1_0011110_010_0000101_1100001_0000100#32 0 = .cvnUnpb ⟨true, 2⟩ 5 97 ∧
    decodeWord 0b1_0011110_010_0000101_1100001_0000101#32 0 = .cvnUnp6 ⟨true, 2⟩ 5 97 ∧
    decodeWord 0b1_0011110_010_0000101_1100001_0000110#32 0 = .cvnBscl ⟨true, 2⟩ 5 97 ∧
    decodeWord 0b1_0011111_010_0000101_1100001_1010101#32 0 = .osms ⟨true, 2⟩ 5 97 ∧
    decodeWord 0b1_0100000_010_0000101_1100001_1000010#32 0 = .osmn ⟨true, 2⟩ 5 97 66 := by decide +kernel

theorem test_decode_control :
    decodeWord 0b1_0100001_010_1010101_1100001_1010100#32 0 = .brx ⟨true, 2⟩ 97 ∧
    decodeWord 0b1_0100001_010_1010101_1100001_1010101#32 0 = .brxCall ⟨true, 2⟩ 97 ∧
    decodeWord 0b1_0100010_010_1010101_0101010_1010101#32 0 = .sync ⟨true, 2⟩ ∧
    decodeWord 0b1_0100011_010_1010101_0101010_1010101#32 0 = .ret ⟨true, 2⟩ ∧
    decodeWord 0b1_0100100_010_1010101_0101010_1010101#32 0 = .exit ⟨true, 2⟩ ∧
    decodeWord 0b1_0100101_010_1010101_0101010_1010101#32 0 = .nop ⟨true, 2⟩ := by decide +kernel

theorem test_decode_vote_scan_reduce :
    decodeWord 0b1_0100110_010_0000101_1100001_0000000#32 0 = .voteAny ⟨true, 2⟩ 5 97 ∧
    decodeWord 0b1_0100110_010_0000101_1100001_0000001#32 0 = .voteAll ⟨true, 2⟩ 5 97 ∧
    decodeWord 0b1_0100110_010_0000101_1100001_0000010#32 0 = .voteBallot ⟨true, 2⟩ 5 97 ∧
    decodeWord 0b1_0100110_010_0000101_1100001_0000011#32 0 = .voteCnt ⟨true, 2⟩ 5 97 ∧
    decodeWord 0b1_0100110_010_0000101_1100001_0000100#32 0 = .voteUni ⟨true, 2⟩ 5 97 ∧
    decodeWord 0b1_0100110_010_0000101_1100001_0000101#32 0 = .voteFirst ⟨true, 2⟩ 5 97 ∧
    decodeWord 0b1_0100111_010_0000101_1100001_1000010#32 0 = .shfl ⟨true, 2⟩ 5 97 66 ∧
    decodeWord 0b1_0101000_010_0000101_1100001_1000010#32 0 = .shfx ⟨true, 2⟩ 5 97 66 ∧
    decodeWord 0b1_0101001_010_0000101_1100001_1010000#32 0 = .scanAdd ⟨true, 2⟩ 5 97 true ∧
    decodeWord 0b1_0101001_010_0000101_1100001_1010001#32 0 = .scanFadd ⟨true, 2⟩ 5 97 true ∧
    decodeWord 0b1_0101001_010_0000101_1100001_1010010#32 0 = .scanMin ⟨true, 2⟩ 5 97 true ∧
    decodeWord 0b1_0101001_010_0000101_1100001_1010011#32 0 = .scanMax ⟨true, 2⟩ 5 97 true ∧
    decodeWord 0b1_0101001_010_0000101_1100001_1010100#32 0 = .scanAnd ⟨true, 2⟩ 5 97 true ∧
    decodeWord 0b1_0101001_010_0000101_1100001_1010101#32 0 = .scanOr ⟨true, 2⟩ 5 97 true ∧
    decodeWord 0b1_0101001_010_0000101_1100001_1010110#32 0 = .scanXor ⟨true, 2⟩ 5 97 true ∧
    decodeWord 0b1_0101010_010_0000101_1100001_0000000#32 0 = .redAdd ⟨true, 2⟩ 5 97 ∧
    decodeWord 0b1_0101010_010_0000101_1100001_0000001#32 0 = .redFadd ⟨true, 2⟩ 5 97 ∧
    decodeWord 0b1_0101010_010_0000101_1100001_0000010#32 0 = .redMin ⟨true, 2⟩ 5 97 ∧
    decodeWord 0b1_0101010_010_0000101_1100001_0000011#32 0 = .redMax ⟨true, 2⟩ 5 97 ∧
    decodeWord 0b1_0101010_010_0000101_1100001_0000100#32 0 = .redMaxi ⟨true, 2⟩ 5 97 ∧
    decodeWord 0b1_0101010_010_0000101_1100001_0000101#32 0 = .redMini ⟨true, 2⟩ 5 97 ∧
    decodeWord 0b1_0101010_010_0000101_1100001_0000110#32 0 = .redAnd ⟨true, 2⟩ 5 97 ∧
    decodeWord 0b1_0101010_010_0000101_1100001_0000111#32 0 = .redOr ⟨true, 2⟩ 5 97 ∧
    decodeWord 0b1_0101010_010_0000101_1100001_0001000#32 0 = .redXor ⟨true, 2⟩ 5 97 ∧
    decodeWord 0b1_0101011_010_0000101_1100001_1000010#32 0 = .topk ⟨true, 2⟩ 5 97 66 := by decide +kernel

theorem test_decode_relational_fence_spill :
    decodeWord 0b1_0101100_010_0000101_1100001_1000010#32 0 = .regrp ⟨true, 2⟩ 5 97 66 ∧
    decodeWord 0b1_0101101_010_1010101_1100001_1010101#32 0 = .drop ⟨true, 2⟩ 97 ∧
    decodeWord 0b1_0101110_010_1010101_0101010_0111000#32 0 = .fenceSc ⟨true, 2⟩ 3 ∧
    decodeWord 0b1_0101110_010_1010101_0101010_0111001#32 0 = .fenceAcq ⟨true, 2⟩ 3 ∧
    decodeWord 0b1_0101110_010_1010101_0101010_0111010#32 0 = .fenceRel ⟨true, 2⟩ 3 ∧
    decodeWord 0b1_0101110_010_1010101_0101010_0111011#32 0 = .fenceAr ⟨true, 2⟩ 3 ∧
    decodeWord 0b1_0101111_010_0000101_1100001_1000010#32 0 = .txb ⟨true, 2⟩ 5 97 66 ∧
    decodeWord 0b1_0110000_010_1010101_1100001_1000010#32 0 = .expect ⟨true, 2⟩ 97 66 ∧
    decodeWord 0b1_0110001_010_0000101_1100001_1010100#32 0 = .spillSpill ⟨true, 2⟩ 5 97 ∧
    decodeWord 0b1_0110001_010_0000101_1100001_1010101#32 0 = .spillFill ⟨true, 2⟩ 5 97 := by decide +kernel

theorem test_decode_barrier_matrix :
    decodeWord 0b1_0110010_010_0000101_1100001_1010100#32 0 = .barArrive ⟨true, 2⟩ 5 97 ∧
    decodeWord 0b1_0110010_010_1010101_1100001_1010101#32 0 = .barWait ⟨true, 2⟩ 97 ∧
    decodeWord 0b1_0110010_010_0000101_1100001_1010110#32 0 = .barSync ⟨true, 2⟩ 5 97 ∧
    decodeWord 0b1_0110011_010_1010101_1100001_1010101#32 0 = .wbar ⟨true, 2⟩ 97 ∧
    decodeWord 0b1_0110100_010_1010101_0101010_1010100#32 0 = .batonTake ⟨true, 2⟩ ∧
    decodeWord 0b1_0110100_010_1010101_0101010_1010101#32 0 = .batonGive ⟨true, 2⟩ ∧
    decodeWord 0b1_0110100_010_1010101_1100001_1010110#32 0 = .batonPass ⟨true, 2⟩ 97 ∧
    decodeWord 0b1_0110101_010_0000101_1010101_0101010#32 0 = .mfence ⟨true, 2⟩ 5 ∧
    decodeWord 0b1_0110110_010_1010101_1100001_1010101#32 0 = .mwait ⟨true, 2⟩ 97 ∧
    decodeWord 0b1_0110111_010_0000101_1100001_1011000#32 0 = .mdrainVf32 ⟨true, 2⟩ 5 97 true 2 ∧
    decodeWord 0b1_0110111_010_0000101_1100001_1011001#32 0 = .mdrainVbf16 ⟨true, 2⟩ 5 97 true 2 ∧
    decodeWord 0b1_0110111_010_0000101_1100001_0111010#32 0 = .mdrainReg ⟨true, 2⟩ 5 97 3 2 ∧
    decodeWord 0b1_0110111_010_0000101_1100001_1011011#32 0 = .mdrainPort ⟨true, 2⟩ 5 97 true 2 := by decide +kernel

theorem test_decode_queue_transport :
    decodeWord 0b1_0111000_010_0000101_1100001_1010000#32 0 = .qopPush ⟨true, 2⟩ 5 97 true ∧
    decodeWord 0b1_0111000_010_0000101_1100001_1010001#32 0 = .qopPop ⟨true, 2⟩ 5 97 true ∧
    decodeWord 0b1_0111000_010_0000101_1100001_1010010#32 0 = .qopCount ⟨true, 2⟩ 5 97 true ∧
    decodeWord 0b1_0111001_010_0000101_1100001_1010000#32 0 = .tpioLdk ⟨true, 2⟩ 5 97 2 ∧
    decodeWord 0b1_0111001_010_1010101_1100001_1010001#32 0 = .tpioLda ⟨true, 2⟩ 97 2 ∧
    decodeWord 0b1_0111001_010_1010101_1100001_1010010#32 0 = .tpioLdb ⟨true, 2⟩ 97 2 ∧
    decodeWord 0b1_0111001_010_0000101_1100001_1110011#32 0 = .tpioStp ⟨true, 2⟩ 5 97 true 2 ∧
    decodeWord 0b1_0111001_010_1010101_1100001_1010100#32 0 = .tpioStf ⟨true, 2⟩ 97 2 ∧
    decodeWord 0b1_0111001_010_0000101_1100001_1010101#32 0 = .tpioCost ⟨true, 2⟩ 5 97 2 ∧
    decodeWord 0b1_0111001_010_1010101_1100001_1010110#32 0 = .tpioSize ⟨true, 2⟩ 97 2 := by decide +kernel

theorem test_decode_job_collective :
    decodeWord 0b1_0111010_010_0000101_1100001_1000010#32 0 = .job ⟨true, 2⟩ 5 97 66 ∧
    decodeWord 0b1_0111011_010_0000101_1100001_1000010#32 0 = .task ⟨true, 2⟩ 5 97 66 ∧
    decodeWord 0b1_0111100_010_1010101_1100001_1010100#32 0 = .cwaitTicket ⟨true, 2⟩ 97 ∧
    decodeWord 0b1_0111100_010_1010101_1100001_1010101#32 0 = .cwaitLocal ⟨true, 2⟩ 97 ∧
    decodeWord 0b1_0111100_010_1010101_1100001_1010110#32 0 = .cwaitGlobal ⟨true, 2⟩ 97 ∧
    decodeWord 0b1_0111101_010_0000101_1100001_1010101#32 0 = .rsnap ⟨true, 2⟩ 5 97 := by decide +kernel

theorem test_decode_trap_system_trace :
    decodeWord 0b1_0111110_010_1010101_0101010_0101101#32 0 = .trap ⟨true, 2⟩ 45 ∧
    decodeWord 0b1_0111111_010_1010101_0101010_1010100#32 0 = .rett ⟨true, 2⟩ ∧
    decodeWord 0b1_0111111_010_1010101_0101010_1010101#32 0 = .rettSkip ⟨true, 2⟩ ∧
    decodeWord 0b1_1000000_010_0000101_1010101_0010011#32 0 = .sysRd ⟨true, 2⟩ 5 19 ∧
    decodeWord 0b1_1000000_010_1010101_1100001_1010011#32 0 = .sysWr ⟨true, 2⟩ 97 19 ∧
    decodeWord 0b1_1000001_010_1010101_1100001_0101101#32 0 = .mark ⟨true, 2⟩ 97 45 ∧
    decodeWord 0b1_1000010_010_1010101_0101010_0101101#32 0 = .brk ⟨true, 2⟩ 45 ∧
    decodeWord 0b1_1000011_010_1010101_0101010_1010000#32 0 = .ptnT32 ⟨true, 2⟩ ∧
    decodeWord 0b1_1000011_010_1010101_0101010_1010001#32 0 = .ptnT16 ⟨true, 2⟩ ∧
    decodeWord 0b1_1000011_010_1010101_0101010_1010010#32 0 = .ptnT8 ⟨true, 2⟩ ∧
    decodeWord 0b1_1000011_010_1010101_0101010_1010011#32 0 = .ptnT4 ⟨true, 2⟩ ∧
    decodeWord 0b1_1000011_010_1010101_0101010_1010100#32 0 = .ptnT2 ⟨true, 2⟩ ∧
    decodeWord 0b1_1000011_010_1010101_0101010_1010101#32 0 = .ptnWhole ⟨true, 2⟩ ∧
    decodeWord 0b1_1000100_010_0000101_1100001_1010100#32 0 = .mctlLoad ⟨true, 2⟩ 5 97 ∧
    decodeWord 0b1_1000100_010_1010101_1100001_1010101#32 0 = .mctlClear ⟨true, 2⟩ 97 ∧
    decodeWord 0b1_1000100_010_0000101_1100001_1010110#32 0 = .mctlQuery ⟨true, 2⟩ 5 97 := by decide +kernel

theorem test_decode_immediate :
    decodeWord 0b1_1100000_010_0000101_1100001_0000000#32 0x80000A05 = .movi ⟨true, 2⟩ 5 0x80000A05 ∧
    decodeWord 0b1_1100001_010_0000101_1100001_0000000#32 0x80000A05 = .iaddi ⟨true, 2⟩ 5 97 0x80000A05 ∧
    decodeWord 0b1_1100010_010_0000101_1100001_0000000#32 0x80000A05 = .muli ⟨true, 2⟩ 5 97 0x80000A05 ∧
    decodeWord 0b1_1100011_010_0000101_1100001_0000000#32 0x80000A05 = .andi ⟨true, 2⟩ 5 97 0x80000A05 ∧
    decodeWord 0b1_1100100_010_0000101_1100001_0000000#32 0x80000A05 = .ori ⟨true, 2⟩ 5 97 0x80000A05 ∧
    decodeWord 0b1_1100101_010_0000101_1100001_0000000#32 0x80000A05 = .xori ⟨true, 2⟩ 5 97 0x80000A05 ∧
    decodeWord 0b1_1100110_010_0000101_1100001_0000000#32 0x80000A05 = .setfmt ⟨true, 2⟩ 0x80000A05 ∧
    decodeWord 0b1_1100110_010_0000101_1100001_0000001#32 0x80000A05 = .setfmtReg ⟨true, 2⟩ 97 ∧
    decodeWord 0b1_1100111_010_0000101_1100001_0000000#32 0x80000A05 = .wbase ⟨true, 2⟩ 0x80000A05 ∧
    decodeWord 0b1_1100111_010_0000101_1100001_0000001#32 0x80000A05 = .wbaseReg ⟨true, 2⟩ 97 := by decide +kernel

theorem test_decode_branch :
    decodeWord 0b1_1101000_010_0000101_1100001_1000010#32 0x80000A05 = .mcall ⟨true, 2⟩ 5 97 66 0x80000A05 ∧
    decodeWord 0b1_1101001_010_0000101_1100001_0000000#32 0x80000A05 = .bra ⟨true, 2⟩ 0x80000A05 ∧
    decodeWord 0b1_1101001_010_0000101_1100001_0000001#32 0x80000A05 = .braNz ⟨true, 2⟩ 97 0x80000A05 ∧
    decodeWord 0b1_1101001_010_0000101_1100001_0000010#32 0x80000A05 = .braZ ⟨true, 2⟩ 97 0x80000A05 ∧
    decodeWord 0b1_1101010_010_0000101_1100001_0000000#32 0x80000A05 = .brd ⟨true, 2⟩ 97 0x80000A05 ∧
    decodeWord 0b1_1101010_010_0000101_1100001_0000001#32 0x80000A05 = .brdZ ⟨true, 2⟩ 97 0x80000A05 ∧
    decodeWord 0b1_1101011_010_0000101_1100001_0000000#32 0x80000A05 = .ssy ⟨true, 2⟩ 0x80000A05 ∧
    decodeWord 0b1_1101100_010_0000101_1100001_0000000#32 0x80000A05 = .call ⟨true, 2⟩ 0x80000A05 := by decide +kernel

theorem test_decode_relation :
    decodeWord 0b1_1101101_010_0000101_1100001_0001001#32 0x80000A05 = .group ⟨true, 2⟩ 5 97 9 0x80000A05 ∧
    decodeWord 0b1_1101110_010_0000101_1100001_0001001#32 0x80000A05 = .join ⟨true, 2⟩ 5 97 9 0x80000A05 ∧
    decodeWord 0b1_1101111_010_0000101_1100001_0000101#32 0x80000A05 = .spawn ⟨true, 2⟩ 5 97 5 0x80000A05 := by decide +kernel

theorem test_decode_memory :
    decodeWord 0b1_1110000_010_0000101_1100001_1000010#32 0x80000A05 = .ldg ⟨true, 2⟩ 5 97 66 0x80000A05 ∧
    decodeWord 0b1_1110001_010_0000101_1100001_1000010#32 0x80000A05 = .stg ⟨true, 2⟩ 5 97 66 0x80000A05 ∧
    decodeWord 0b1_1110010_010_0000101_1100001_1000010#32 0x80000A05 = .ldv ⟨true, 2⟩ 5 97 66 0x80000A05 ∧
    decodeWord 0b1_1110011_010_0000101_1100001_1000010#32 0x80000A05 = .stv ⟨true, 2⟩ 5 97 66 0x80000A05 := by decide +kernel

theorem test_decode_atomic :
    decodeWord 0b1_1110100_010_0000101_1100001_1010000#32 0x80000A05 = .atomAdd ⟨true, 2⟩ 5 97 5 0x80000A05 ∧
    decodeWord 0b1_1110100_010_0000101_1100001_1010001#32 0x80000A05 = .atomFadd ⟨true, 2⟩ 5 97 5 0x80000A05 ∧
    decodeWord 0b1_1110100_010_0000101_1100001_1010010#32 0x80000A05 = .atomMin ⟨true, 2⟩ 5 97 5 0x80000A05 ∧
    decodeWord 0b1_1110100_010_0000101_1100001_1010011#32 0x80000A05 = .atomMax ⟨true, 2⟩ 5 97 5 0x80000A05 ∧
    decodeWord 0b1_1110100_010_0000101_1100001_1010100#32 0x80000A05 = .atomUmin ⟨true, 2⟩ 5 97 5 0x80000A05 ∧
    decodeWord 0b1_1110100_010_0000101_1100001_1010101#32 0x80000A05 = .atomUmax ⟨true, 2⟩ 5 97 5 0x80000A05 ∧
    decodeWord 0b1_1110100_010_0000101_1100001_1010110#32 0x80000A05 = .atomAnd ⟨true, 2⟩ 5 97 5 0x80000A05 ∧
    decodeWord 0b1_1110100_010_0000101_1100001_1010111#32 0x80000A05 = .atomOr ⟨true, 2⟩ 5 97 5 0x80000A05 ∧
    decodeWord 0b1_1110100_010_0000101_1100001_1011000#32 0x80000A05 = .atomXor ⟨true, 2⟩ 5 97 5 0x80000A05 ∧
    decodeWord 0b1_1110100_010_0000101_1100001_1011001#32 0x80000A05 = .atomExch ⟨true, 2⟩ 5 97 5 0x80000A05 ∧
    decodeWord 0b1_1110100_010_0000101_1100001_1011010#32 0x80000A05 = .atomCas ⟨true, 2⟩ 5 97 5 0x80000A05 ∧
    decodeWord 0b1_1110100_010_0000101_1100001_1011011#32 0x80000A05 = .atomIncb ⟨true, 2⟩ 5 97 5 0x80000A05 ∧
    decodeWord 0b1_1110100_010_0000101_1100001_1011100#32 0x80000A05 = .atomSeal ⟨true, 2⟩ 5 97 5 0x80000A05 ∧
    decodeWord 0b1_1110100_010_0000101_1100001_1011101#32 0x80000A05 = .atomSnap ⟨true, 2⟩ 5 97 5 0x80000A05 ∧
    decodeWord 0b1_1110101_010_0000101_1100001_1011100#32 0x80000A05 = .waddrWait ⟨true, 2⟩ 5 97 5 0x80000A05 ∧
    decodeWord 0b1_1110101_010_0000101_1100001_1011101#32 0x80000A05 = .waddrWake ⟨true, 2⟩ 5 97 5 0x80000A05 ∧
    decodeWord 0b1_1110101_010_0000101_1100001_1011110#32 0x80000A05 = .waddrWakeall ⟨true, 2⟩ 5 97 5 0x80000A05 := by decide +kernel

theorem test_decode_engine :
    decodeWord 0b1_1110110_010_0000101_1100001_1000010#32 0x80000A05 = .sfill ⟨true, 2⟩ 5 97 66 0x80000A05 ∧
    decodeWord 0b1_1110111_010_0000101_1100001_1000010#32 0x80000A05 = .scopy ⟨true, 2⟩ 5 97 66 0x80000A05 ∧
    decodeWord 0b1_1111000_010_0000101_1100001_1000010#32 0x80000A05 = .mloop ⟨true, 2⟩ 5 97 66 0x80000A05 ∧
    decodeWord 0b1_1111001_010_0000101_1100001_1000010#32 0x80000A05 = .bal ⟨true, 2⟩ 5 97 66 0x80000A05 ∧
    decodeWord 0b1_1111010_010_0000101_1100001_1000010#32 0x80000A05 = .cpost ⟨true, 2⟩ 5 97 66 0x80000A05 ∧
    decodeWord 0b1_1111011_010_0000101_1100001_1000010#32 0x80000A05 = .xpose ⟨true, 2⟩ 5 97 66 0x80000A05 := by decide +kernel

/-- R64's worked encodings: a bounded increment, an exclusive scan with the switch marker, a word read back, and two reserved words. -/
theorem test_decode_worked :
    decodeWord 0x7402019B 0x60000040 = .atomIncb ⟨false, 0⟩ 8 3 1 0x60000040 ∧
    decodeWord 0xA9028591 0 = .scanFadd ⟨true, 0⟩ 10 11 true ∧
    decodeWord 0x9C60C103 0 = .funFflr ⟨true, 3⟩ 3 2 ∧
    decodeBytes [0x00, 0x00, 0x00, 0x7D, 1, 2, 3, 4] = some (.reservedOpcode 0x7D000000, 8) ∧
    decodeBytes [0x00, 0x00, 0x00, 0x45] = some (.reservedOpcode 0x45000000, 4) ∧
    decodeBytes [0x9B, 0x01, 0x02, 0x74, 0x40, 0x00, 0x00, 0x60] = some (.atomIncb ⟨false, 0⟩ 8 3 1 0x60000040, 8) := by decide +kernel

/-- R58, R59: the first reserved code of each family is refused by name, and so is OP 0. -/
theorem test_decode_reserved :
    decodeWord 0 0 = .reservedOpcode 0 ∧
    decodeWord 0x1B00000B 0 = .reservedSubOperation 0x1B00000B ∧ decodeWord 0x1C00000B 0 = .reservedSubOperation 0x1C00000B ∧
    decodeWord 0x1D00000B 0 = .reservedSubOperation 0x1D00000B ∧ decodeWord 0x1E000007 0 = .reservedSubOperation 0x1E000007 ∧
    decodeWord 0x26000006 0 = .reservedSubOperation 0x26000006 ∧ decodeWord 0x29000007 0 = .reservedSubOperation 0x29000007 ∧
    decodeWord 0x2A000009 0 = .reservedSubOperation 0x2A000009 ∧ decodeWord 0x32000003 0 = .reservedSubOperation 0x32000003 ∧
    decodeWord 0x34000003 0 = .reservedSubOperation 0x34000003 ∧ decodeWord 0x38000003 0 = .reservedSubOperation 0x38000003 ∧
    decodeWord 0x39000007 0 = .reservedSubOperation 0x39000007 ∧ decodeWord 0x3C000003 0 = .reservedSubOperation 0x3C000003 ∧
    decodeWord 0x43000006 0 = .reservedSubOperation 0x43000006 ∧ decodeWord 0x44000003 0 = .reservedSubOperation 0x44000003 ∧
    decodeWord 0x69000003 0 = .reservedSubOperation 0x69000003 ∧ decodeWord 0x7400000E 0 = .reservedSubOperation 0x7400000E ∧
    decodeWord 0x75000003 0 = .reservedSubOperation 0x75000003 := by decide +kernel

/-- Ill-formed: a legal word under a reserved row. -/
theorem test_ill_formed :
    (Instr.reservedOpcode 0x01004103).wellFormed = false ∧ (Instr.reservedSubOperation 0x1B000000).wellFormed = false ∧
    (Instr.reservedSubOperation 0x00000000).wellFormed = false ∧ (Instr.reservedOpcode 0x1B00000B).wellFormed = false ∧
    (Instr.reservedOpcode 0x7C000000).wellFormed = true ∧ (Instr.reservedSubOperation 0x1B00000B).wellFormed = true := by decide +kernel

/-- The encoder writes ignored fields as 0 (R55): R64's words again. -/
theorem test_encode :
    encode (.atomIncb ⟨false, 0⟩ 8 3 1 0x60000040) = [0x7402019B, 0x60000040] ∧ encode (.scanFadd ⟨true, 0⟩ 10 11 true) = [0xA9028591] ∧
    encode (.sync ⟨false, 0⟩) = [0x22000000] := by decide +kernel

/-! ### Single steps -/

/-- The machine whose team holds `a` and `b` in registers 1 and 2 of lane 0. -/
def wVal (a b : Word) : State := onT w fun t => { t with v := [(1, a), (2, b)] }
/-- Register `c` of lane `l` after an instruction. -/
def after (i : Instr) (s : State) (c l : Nat) : Word := regBits (nx (exec i s)) c l
/-- The values that the first outstanding result of the team will write, after an instruction. -/
def landing (i : Instr) (s : State) : List Word := ((nx (exec i s)).team.pend.headD { tag := 0, pc := 0, regs := [] }).writes.map (·.val)

/-- R102's example of the products of −2 and 3. -/
theorem test_products :
    after (.imul ⟨false, 0⟩ 4 1 2) (wVal 0xFFFFFFFE 3) 4 0 = 0xFFFFFFFA ∧ after (.imulh ⟨false, 0⟩ 4 1 2) (wVal 0xFFFFFFFE 3) 4 0 = 0xFFFFFFFF ∧
    after (.imulhu ⟨false, 0⟩ 4 1 2) (wVal 0xFFFFFFFE 3) 4 0 = 2 := by decide +kernel
/-- R101: a sum that wraps, into its own source; an inactive lane keeps its register. -/
theorem test_add_wraps_into_its_source :
    after (.iadd ⟨false, 0⟩ 1 1 2) (wVal 0xFFFFFFFF 2) 1 0 = 1 ∧ after (.iadd ⟨false, 0⟩ 1 1 2) w 1 3 = 0 := by decide +kernel
/-- R102: the whole of B is the count. -/
theorem test_shift_by_the_width :
    after (.shl ⟨false, 0⟩ 4 1 2) (wVal 0x80000000 32) 4 0 = 0 ∧ after (.shra ⟨false, 0⟩ 4 1 2) (wVal 0x80000000 0x100) 4 0 = 0xFFFFFFFF := by decide +kernel
/-- R104: the corners of the unary operations. -/
theorem test_unary_corners :
    after (.xunNeg ⟨false, 0⟩ 4 1) (wVal 0x80000000 0) 4 0 = 0x80000000 ∧ after (.xunClz ⟨false, 0⟩ 4 1) (wVal 0 0) 4 0 = 32 ∧
    after (.xunBrev ⟨false, 0⟩ 4 1) (wVal 1 0) 4 0 = 0x80000000 ∧ after (.xunSxb ⟨false, 0⟩ 4 1) (wVal 0x180 0) 4 0 = 0xFFFFFF80 := by decide +kernel
/-- R105: D is read bit for bit, so −0 selects A. -/
theorem test_select_reads_bits :
    after (.sel ⟨false, 0⟩ 3 1 2) (onT w fun t => { t with v := [(1, 5), (2, 7), (3, 0x80000000)] }) 3 0 = 5 ∧
    after (.sel ⟨false, 0⟩ 3 1 2) (wVal 5 7) 3 0 = 7 := by decide +kernel
/-- R132, R134, R135: 1 + 2 = 3; −0 is below +0 for FMIN and equal to it for FEQ. -/
theorem test_fp :
    after (.fadd ⟨false, 0⟩ 4 1 2) (wVal 0x3F800000 0x40000000) 4 0 = 0x40400000 ∧
    after (.fmin ⟨false, 0⟩ 4 1 2) (wVal 0 0x80000000) 4 0 = 0x80000000 ∧ after (.feq ⟨false, 0⟩ 4 1 2) (wVal 0 0x80000000) 4 0 = 1 := by decide +kernel
/-- R138's worked values: FTOI of 2^31, of −inf, and of the FP16 pair 40,000.0 and −1.5 under VEC = 2. -/
theorem test_ftoi :
    after (.funFtoi ⟨false, 0⟩ 4 1) (wVal 0x4F000000 0) 4 0 = 0x7FFFFFFF ∧ after (.funFtoi ⟨false, 0⟩ 4 1) (wVal 0xFF800000 0) 4 0 = 0x80000000 ∧
    after (.funFtoi ⟨false, 0⟩ 4 1) (onT (wVal 0xBE0078E2 0) fun t => { t with fmt := 0x02000000 }) 4 0 = 0xFFFF7FFF := by decide +kernel
/-- R139: a dead register reads as POISON, a signalling NaN: bit 8. -/
theorem test_fcls_of_a_dead_register :
    after (.funFcls ⟨false, 0⟩ 4 1) (onT w fun t => { t with vdead := [(1, true)] }) 4 0 = 0x100 := by decide +kernel
/-- R186, R189: three members vote, and their sum is 5 + 9 + 3. -/
theorem test_vote_and_reduce :
    landing (.voteCnt ⟨false, 0⟩ 4 1) w = [3, 3, 3] ∧ landing (.redAdd ⟨false, 0⟩ 4 1) w = [17, 17, 17] := by decide +kernel
/-- R62, R130: a byte of the vault, sign-extended; a word stored little-endian. -/
theorem test_vault :
    landing (.ldv ⟨false, 0⟩ 4 97 0b0000010 3) (onT wMem fun t => { t with active := 1, s := t.s.set 1 0 }) = [0xFFFFFFF4] ∧
    memBytes (nx (exec (.stv ⟨false, 0⟩ 2 1 0b0001000 0) wMem)).mem (vaultKey 0 0) 4 = [0x44, 0x33, 0x22, 0x11] := by decide +kernel
/-- R120: CALL pushes the address after its literal, and RET goes there. -/
theorem test_call_and_return :
    (nx (exec (.call ⟨false, 0⟩ 0xFFFFFFF4) w)).team.pc = 0xFFFD0 ∧ (nx (exec (.call ⟨false, 0⟩ 4) w)).team.cstack = [0x100008] ∧
    (nx (exec (.ret ⟨false, 0⟩) (nx (exec (.call ⟨false, 0⟩ 4) w)))).team.pc = 0x100008 := by decide +kernel
/-- R344, R350: TRAP with a handler enters it at once when nothing is outstanding, and saves the PC and the next PC. -/
theorem test_trap :
    let t := (nx (exec (.trap ⟨false, 0⟩ 5) (onT w fun t => { t with handler := some 0x5000 }))).team
    t.pc = 0x5000 ∧ t.hmode = true ∧ t.trap.tpc = 0x100000 ∧ t.trap.tnext = 0x100004 ∧ t.trap.active = 7 := by decide +kernel
/-- R58: INCB counts below its bound, stops at it, and leaves a sealed word. -/
theorem test_bounded_increment :
    atomFn 0xB 6 0 7 = 7 ∧ atomFn 0xB 7 0 7 = 7 ∧ atomFn 0xB 0x80000003 0 0xFFFFFFFF = 0x80000003 ∧ atomFn 0xA 4 9 4 = 9 := by decide +kernel
/-- R52, R177: the first step from a loaded word runs it: IADD v1, v2, v3 writes 0 + 0 and the PC moves by 4. -/
theorem test_first_step :
    (nx (step (State.reset.withFetchWord 32 0x01004103))).team.pc = 0x100004 ∧ (nx (step (State.reset.withFetchWord 32 0x01004103))).team.rwc = 1 := by decide +kernel
/-- The exact value of 0x3F400000 is 3/4, which meets every premise of the statement on the functions of the SFU together. -/
theorem met_SfuFunctionsRoundTheExactValue :
    ∃ w : Word, Claims.finite fp32 w.toNat ∧ (let x : ℝ := ((Claims.value fp32 w.toNat : ℚ) : ℝ)
      x ≠ 0 ∧ 0 < x ∧ x ≠ 1 ∧ (∀ k : ℤ, x ≠ k) ∧ ∀ k : ℤ, x ≠ k + 1 / 2) := by
  have hv : Claims.value fp32 (0x3F400000#32).toNat = 3 / 4 := by decide +kernel
  have key : ∀ x : ℝ, x = 3 / 4 → x ≠ 0 ∧ 0 < x ∧ x ≠ 1 ∧ (∀ k : ℤ, x ≠ k) ∧ ∀ k : ℤ, x ≠ k + 1 / 2 := by
    rintro x rfl
    refine ⟨by norm_num, by norm_num, by norm_num, fun k h => ?_, fun k h => ?_⟩
    · have : (4 * k : ℝ) = 3 := by linarith
      have : (4 * k : ℤ) = 3 := by exact_mod_cast this
      omega
    · have : (4 * k : ℝ) = 1 := by linarith
      have : (4 * k : ℤ) = 1 := by exact_mod_cast this
      omega
  exact ⟨0x3F400000#32, by decide, key _ (by rw [hv]; norm_num)⟩


/-! ### Witness states of the statements -/

def atFpUnaryPackingAndNanGiveTheirResult2 : State := wFmt 0x30
def atStacksAndSyncRestoreTheirMasks3 : State := onT w fun t => { t with cstack := [0x77, 5] }
def atStacksAndSyncRestoreTheirMasks4 : State := onT w fun t => { t with s := (t.s.set 2 0x40).set 3 1 }
def atStacksAndSyncRestoreTheirMasks5 : State := onT w fun t => { t with rstack := [⟨true, 0x40, 16, 2⟩, ⟨true, 0x4000, 12, 2⟩, ⟨true, 0x40, 1, 2⟩] }
def atStacksAndSyncRestoreTheirMasks6 : State := onT w fun t => { t with rstack := [⟨true, 0x40, 16, 2⟩] }
def atExitRetiresTheActiveLanes3 : State :=
  onT w fun t => { t with park := .exit, rstack := [⟨true, 0x40, 16, 2⟩, ⟨true, 0x4000, 12, 2⟩, ⟨true, 0x40, 1, 2⟩] }
def atTrapsAreEnteredAndReturnedFrom1 : State := onT w (wTrapping (some 0x5000) false)
def atTrapsAreEnteredAndReturnedFrom2 : State := wAway (wTrapping (some 0x5000) true)
def atTrapsAreEnteredAndReturnedFrom2b : State := onT w (wTrapping none false)
def atTrapsAreEnteredAndReturnedFrom3 : State := wHandler wTrapState
def atSystemRegistersAreReadAndWritten2 : State := { wHandler wTrapState with blocks := [(0, { matuse := true, phase := .running })] }
def atSystemRegistersAreReadAndWritten3 : State := sel (onT w fun t => { t with tstat := 0xFFFFFFFF }) {word := 0x15}
def atSystemRegistersAreReadAndWritten4 : State :=
  sel { onT w (fun t => { t with tstat := 0xFFFFFFFF }) with blocks := [(0, { matuse := true, phase := .running })] } {word := 0x15}
def atSystemRegistersAreReadAndWritten5 : State := sel { w with cecount := 0x11223344 } {word := 0xFF00FF}
def atSystemRegistersAreReadAndWritten7 : State := wPark (.inval false 0x5000)
def atHandlersAreServed4 : State := wPark (.ftmap 512)
def atHandlersAreServed5 : State := wPark (.hostreq 512 [(5,1,0), (6,0,1)] 3)
def atExitRetiresTheActiveLanes2 : State := onT w fun t => { t with hmode := true }
def atExitRetiresTheActiveLanes3b : State := onT w fun t => { t with park := .exit, active := 15 }
def atExitRetiresTheActiveLanes3d : State := onT w fun t => { t with park := .exit, rstack := [⟨true, 0x4000, 7, 2⟩] }
def atResultsLandAndStoresAreAccepted1 : State :=
  sel (onT wMem fun t => { t with park := .marker, pend := [{ tag := 3, pc := 4, regs := [5], writes := [⟨0, 5, 77⟩, ⟨1, 5, 78⟩], acq := some 3, credit := true }], vdead := [(5, true)] }) { sub := 3 }
def atResultsLandAndStoresAreAccepted2 : State :=
  sel (onT wMem fun t => { t with park := .marker, stores := [{ tag := 3, credit := true }] }) { sub := 3 }
def atTranslationPresenceAndSpillComplete1 : State :=
  onT wMem fun t => {t with walked := [{ page := 0x40, ok := true, frame := 0x10, r := true, w := true }]}
def atTranslationPresenceAndSpillComplete2 : State := onT wMem fun t => {t with s := (t.s.set 3 0x80).set 2 0x100}
def atTranslationPresenceAndSpillComplete3 : State := { wMem with team := { wMem.team with park := .expect 0x80 0x100 }}
def atTranslationPresenceAndSpillComplete5 : State := {wMem with mem := memPuts wMem.mem (vaultKey 0 8) [1,0,0,0,0,0,0,0,7,0,0,0]}
def atFetchPresenceAndControlStoreServeTheirTeams1 : State :=
  { wMem with cores := [(0, { tlb := [{ ctx := 1, page := 0x100, psz := 0, frame := 0x10, r := false, w := false, x := true, ncm := false }] })], mem := memPuts [] (hbmKey 0 0x1000) [0, 0, 0, 0x60, 7, 8, 9, 10] }
def atFetchPresenceAndControlStoreServeTheirTeams2 : State :=
  onT w fun t => { t with mcall := some { words := [{word := 0x00000081}], idx := 0, d := 1, a := 2, b := 3, p := 4, sw := false } }
def atFetchPresenceAndControlStoreServeTheirTeams3 : State :=
  sel { wPark (.absent 0 5) with cores := [(0, { absent := [4, 5, 6], arrived := [5] })] } { sub := 5 }
def atFetchPresenceAndControlStoreServeTheirTeams4 : State :=
  { onT wMem (fun t => { t with s := t.s.set 3 0x4005 }) with mem := memPuts [] (vaultKey 0 8) [0x81, 0, 0, 0x10, 0, 0, 0, 0] }
def atFetchPresenceAndControlStoreServeTheirTeams5 : State :=
  { wPark .mctl with blocks := [(0, { phase := .running, cload := some (0, 2, [{word := 0x81}], 5) })] }
def atFetchPresenceAndControlStoreServeTheirTeams6 : State :=
  { onT w (fun t => { t with s := t.s.set 3 5 }) with blocks := [(0, { phase := .running, centry := [(5, 2, 1)] })] }
def atFetchPresenceAndControlStoreServeTheirTeams8 : State :=
  { w with blocks := [(0, { phase := .running, centry := [(5, 2, 1)], cstore := [(2, {word := 0x81})] })] }
def atFetchPresenceAndControlStoreServeTheirTeams9 : State := { w with ac := 5000 }
def atWalksFollowTheTablesIntoTheTlb1 : State :=
  { wMem with dies := [(0, { walks := [{ ctx := 1, page := 0x100, tids := [0] }] })], ctxs := [(1, { valid := true, root := 0x20000 })] }
def atWalksFollowTheTablesIntoTheTlb2 : State := { wMem with mem := memPuts [] (hbmKey 0 0x1000) [0, 2, 3, 0] }
def atWalksFollowTheTablesIntoTheTlb2b : State := { wMem with mem := memPuts [] (hbmKey 0 0x1000) [0x70, 4, 0, 0] }
def atWalksFollowTheTablesIntoTheTlb2c : State := { wMem with mem := memPuts [] (hbmKey 0 0x1000) [0x70, 0x14, 0, 0] }
def atAtomicsAreAppliedInOrder1 : State :=
  { wMem with clusters := [(0, { queue := [{ tid := 0, addr := hbmKey 0 0x1000, op := .atom 0 5 6 3 3, tag := 3, reg := some 5 }] })] }
def atAtomicsAreAppliedInOrder3 : State := { wMem with cores := [(0, { vport := [{ tid := 5, addr := vaultKey 0 0, op := .wake, tag := 3 }] })] }
def atAtomicsAreAppliedInOrder5 : State :=
  { wMem with clusters := [(0, { held := [(9, 5, some ({ tid := 0, addr := vaultKey 0 0, op := .atom 0 5 6 3 3, tag := 3, reg := some 5 }, 7))], promo := [(5, 9)] })] }
def atAddressWaitsAreRecordedAndWoken2 : State :=
  { wPark .watch with blocks := [(0, { phase := .running, credits := 1 })], clusters := [(0, { queue := [{ tid := 0, addr := hbmKey 0 0x1000, op := .wait 0 1, tag := 3, credit := some 0 }] })] }
def atAddressWaitsAreRecordedAndWoken3 : State :=
  { wPark .watch with blocks := [(0, { phase := .running, credits := 1 })], clusters := [(0, { watches := [{ addr := hbmKey 0 0x1000, tid := 0, parkAc := 5, timeout := 0 }], queue := [{ tid := 3, addr := hbmKey 0 0x1000, op := .wakeall, tag := 3, credit := some 0 }] })] }
def atFencesOrderTheCache2 : State :=
  { wPark (.fence 3 3) with cores := [(0, { lines := [(3, { tag := 512 + 0, data := 0x77, valid := 1, written := 1 })] })] }
def atBarriersCountAndWake1 : State := onT w fun t => { t with s := (t.s.set 1 1).set 2 1 }
def atBarriersCountAndWake2 : State := onT w fun t => { t with s := (t.s.set 1 1).set 2 1, barPend := 2 }
def teamBarriersCountAndWake4 : Team := { wTeam with park := .bar 1 true, barPend := 3 }
def atBarriersCountAndWake5 : State :=
  { onT w (fun t => { t with s := (t.s.set 1 1).set 2 1 }) with grids := [(0, { ctx := 1, launch := { wbars := 2 } })] }
def atBarriersCountAndWake7 : State :=
  sel { wPark (.wbar 1) with grids := [(0, { ctx := 1, launch := { wbars := 2, gx := 1, gy := 1, gz := 3 }, nextBlk := 3, saved := [⟨0, { lin := 2 }, [], 1, []⟩, ⟨0, { lin := 1 }, [], 1, []⟩] })], blocks := [(0, { phase := .running })] } {sub := 1}
def atGroupRegrpAndDropIssueTheirMoves1 : State :=
  { onT w (fun t => { t with v := [(1, 5), (2, 7), (4, 1), (513, 5), (516, 2), (1025, 3), (1028, 7)] }) with blocks := [(0, { phase := .running, rel := some [0, BitVec.ofNat 128 (0x41 + 4 * 2 ^ 32 + 1 * 2 ^ 96)] })] }
def atGroupRegrpAndDropIssueTheirMoves2 : State :=
  onT w (fun t => { t with active := 15, v := [(1, 1), (2, 7), (4, 1), (513, 0), (516, 2), (1025, 1), (1028, 7)], s := t.s.set 1 2 })
def atGroupRegrpAndDropIssueTheirMoves3 : State := onT w (fun t => { t with v := [(1, 1), (2, 7), (4, 1), (513, 0), (516, 2), (1025, 1), (1028, 7)] })
def vatjobTheVatRenumbersItsTeam1 : VatJob := { tid := 3, moves := [], cost := 5 }
def atTheVatRenumbersItsTeam1 : State := { w with cores := [(0, { vatq := [{ tid := 3, moves := [], cost := 5 }] })] }
def atSpawnBinsAndJoin1 : State :=
  { w with grids := [(0, { ctx := 1, launch := { bins := [{ entry := 0x100010, blanes := 1 }] } })], cores := [(0, { bins := [(0, { grid := 0, be := { entry := 0x100010, blanes := 1 }, regs := 8 })] })] }
def atSpawnBinsAndJoin2 : State :=
  { onT w (fun t => { t with pend := [{ tag := 3, pc := 0, regs := [5], missing := 1 }] }) with grids := [(0, { ctx := 1, launch := { bins := [{ entry := 0x100010, blanes := 1 }] } })], cores := [(0, { bins := [(0, { grid := 0, be := { entry := 0x100010, blanes := 1 }, regs := 8, spawns := [{ tid := 0, tag := 3, issued := 0, code := 5, join := false, next := 0, todo := [(0, [[5, 6]]), (2, [[7]])] }] })] })] }
def atSpawnBinsAndJoin2c : State :=
  { onT w (fun t => { t with pend := [{ tag := 3, pc := 0, regs := [5], missing := 1 }] }) with grids := [(0, { ctx := 1, launch := { bins := [{ entry := 0x100010, blanes := 1 }] } })], cores := [(0, { bins := [(0, { grid := 0, be := { entry := 0x100010, blanes := 1 }, regs := 8, spawns := [{ tid := 0, tag := 3, issued := 0, code := 5, join := true, next := 0, stop := true, todo := [(0, [[5, 6], [1, 2]]), (2, [[7]])] }] })] })] }
def atSpawnBinsAndJoin2e : State :=
  { onT w (fun t => { t with pend := [{ tag := 3, pc := 0, regs := [5], missing := 1 }] }) with grids := [(0, { ctx := 1, launch := { bins := [{ entry := 0x100010, blanes := 1 }] } })], cores := [(0, { bins := [(0, { grid := 0, be := { entry := 0x100010, blanes := 1 }, regs := 8, spawns := [{ tid := 0, tag := 3, issued := 0, code := 5, join := false, next := 50, stop := true, todo := [] }] })] })] }
def atSpawnBinsAndJoin3 : State :=
  { wMem with team := { wTeam with s := wTeam.s }, grids := [(0, { ctx := 1, launch := { bins := [{ entry := 0x100010, blanes := 1 }] } })], cores := [(0, { bins := [(0, { grid := 0, be := { entry := 0x100010, blanes := 1 }, regs := 8 })] })], blocks := [(0, { phase := .running, vbytes := 8192, rel := some [0, BitVec.ofNat 128 (0x80 + 1 * 2 ^ 16 + 1 * 2 ^ 20 + 1 * 2 ^ 24 + 0x100 * 2 ^ 32 + 2 * 2 ^ 64 + 1 * 2 ^ 96)] })], mem := memPuts [] (vaultKey 0 0x100) [2, 0, 0, 0, 0, 0, 0, 0, 0, 0, 0, 0, 0, 0, 0, 0, 5, 0, 0, 0, 0xAA, 0, 0, 0, 9, 0, 0, 0, 0xBB, 0, 0, 0] }
def atQueuesServeTheirTeamsInOrder4 : State :=
  { w with queues := [(5, { kind := 1, cap := 2, owner := 1, waiters := [{ tid := 2, arr := 90, tag := 3, op := .count [0] 4 }, { tid := 4, arr := 90, tag := 3, op := .count [0] 4 }] })] }
def atQueuesServeTheirTeamsInOrder5 : State :=
  sel { onT w (fun t => { t with park := .queue 5, pend := [{ tag := 3, pc := 4, regs := [4,5,6,7,8,9], missing := 2, due := 500, acq := some 4 }] }) with queues := [(5, { kind := 1, cap := 4, owner := 1, entries := [{ data := 7, time := 77, gap := true }], waiters := [{ tid := 0, arr := 90, tag := 3, nb := false, op := .pop [1,2] [4,5,6,7,8,9] }] })] } { unit := 5 }
def atQueuesServeTheirTeamsInOrder6 : State :=
  sel { onT w (fun t => { t with park := .run, pend := [{ tag := 3, pc := 4, regs := [4,5,6,7,8,9], missing := 2, due := 500, acq := some 4 }] }) with queues := [(5, { kind := 1, cap := 4, owner := 1, entries := [], waiters := [{ tid := 0, arr := 90, tag := 3, nb := true, op := .pop [1,2] [4,5,6,7,8,9] }] })] } { unit := 5 }
def atQueuesServeTheirTeamsInOrder7 : State :=
  sel { onT w (fun t => { t with park := .run, pend := [{ tag := 3, pc := 4, regs := [4,5,6,7,8,9], missing := 2, due := 500, acq := some 4 }] }) with queues := [(5, { kind := 1, cap := 4, owner := 1, entries := [{ data := 7, time := 77, gap := true }], waiters := [{ tid := 0, arr := 90, tag := 3, nb := true, op := .count [0] 4 }] })] } { unit := 5 }
def atQueuesServeTheirTeamsInOrder8 : State :=
  sel { onT w (fun t => { t with park := .queue 5, stores := [{ tag := 3, due := 500, left := 1 }], pend := [] }) with queues := [(5, { kind := 1, cap := 4, owner := 1, entries := [], waiters := [{ tid := 0, arr := 90, tag := 3, nb := false, op := .push [7, 8] none }] })] } { unit := 5 }
def atQueuesServeTheirTeamsInOrder9 : State :=
  sel { onT w (fun t => { t with park := .run, stores := [{ tag := 3, due := 500, left := 1 }], pend := [] }) with queues := [(5, { kind := 1, cap := 1, owner := 1, entries := [{ data := 7, time := 77, gap := true }], waiters := [{ tid := 0, arr := 90, tag := 3, nb := true, op := .push [7, 8] none }] })] } { unit := 5 }
def atQueuesServeTheirTeamsInOrder10 : State :=
  sel { w with queues := [(5, { kind := 1, cap := 4, owner := 1 })], ports := [(0, { up := true })] } { unit := 5, word := 9, pkt := 8 }
def atQueuesServeTheirTeamsInOrder11 : State :=
  onT w fun t => { t with park := .queue 5, pend := [{ tag := 3, pc := 4, regs := [4], writes := [⟨0, 4, 1⟩], due := 5 }] }
def atQueuesServeTheirTeamsInOrder12 : State := onT w fun t => { t with park := .queue 5, stores := [{ tag := 3, due := 5, left := 1 }] }
def queueQueuesServeTheirTeamsInOrder14 : Queue :=
  { kind := 2, cap := 1, owner := 1, entries := [{ data := 7, time := 77, gap := true }], waiters := [{ tid := 0, arr := 90, tag := 3, op := .push [7] (some 4) }] }
def atQueuesServeTheirTeamsInOrder14 : State :=
  { onT w (fun t => { t with pend := [{ tag := 3, pc := 4, regs := [4], missing := 1, due := 5 }] }) with queues := [(6, { kind := 2, cap := 1, owner := 1, entries := [{ data := 7, time := 77, gap := true }], waiters := [{ tid := 0, arr := 90, tag := 3, op := .push [7] (some 4) }] })] }
def atTasksArePushedAndRun1 : State := { wEng with mem := memPuts [] (hbmKey 0 0x1000) wTask }
def atTasksArePushedAndRun2 : State :=
  sel { wEng with queues := [(6, { kind := 2, cap := 2, owner := 1, entries := [{ data := 0x00000000000000010000000000040000, time := 1, gap := false, source := some 0 }] })] } {unit := 0}
def atTasksArePushedAndRun3 : State :=
  { wEng with queues := [(6, { kind := 2, cap := 2, owner := 1, entries := [{ data := 0x00000000000000010000000000040000, time := 1, gap := false, source := some 0 }] })] }
def atTasksArePushedAndRun4 : State := { withJobs wEng [wTaskJob] with nextBlock := 1 }
def jobTasksArePushedAndRun5 : Job := { wTaskJob with blockDone := true, renames := [⟨0, 0, 0x100, 0x80, 8⟩] }
def atTasksArePushedAndRun5 : State :=
  withJobs { wMem with ctxs := [(1, { valid := true, root := 0x20000 })], mem := [(0x20000, 0x21200), (0x21000, 0x22200), (0x22000, 0x23200), (0x23000, 0x24200), (0x24000, 0x25200), (0x25000, 0x30470)].foldl (fun m p => match paKind 80000000000 p.1 with | .hbm k => memPuts m k ((List.range 8).map fun i => BitVec.ofNat 8 (p.2 / 256 ^ i)) | _ => m) [] } [{ wTaskJob with blockDone := true, renames := [⟨0, 0, 0x100, 0x80, 8⟩] }]
def jobTasksArePushedAndRun6 : Job := { wTaskJob with blockDone := true }
def atTasksArePushedAndRun6 : State := withJobs wEng [{ wTaskJob with blockDone := true }]
def atEnginesTakeTheirJobs1 : State := { wEng with mem := memPuts [] (vaultKey 0 64) wStream, team := { wEng.team with s := wEng.team.s.set 1 64 } }
def atEnginesTakeTheirJobs2 : State := { wEng with team := { wEng.team with s := wEng.team.s.set 1 128 } }
def atEnginesTakeTheirJobs3 : State := { wEng with team := { wEng.team with s := ((wEng.team.s.set 1 128).set 2 0x200).set 4 0x804 } }
def atEnginesTakeTheirJobs4 : State :=
  { wEng with mem := memPuts [] (hbmKey 0 0x1000) (le [(1, 1), (1, 3), (1, 1), (1, 1), (1, 3), (3, 0), (8, 0), (8, 0x200), (28, 0), (8, 0), (4, 4), (4, 2), (4, 4), (4, 4), (52, 0), (8, 0), (4, 8), (1, 1), (3, 0), (48, 0), (8, 0x200), (4, 8), (1, 1)]) }
def jobEnginesTakeTheirJobs5 : Job := { wJob with started := true }
def atEnginesTakeTheirJobs5 : State := withJobs wEng [wJob]
def atJobsAndFillsMoveTheirData2 : State := withJobs wEng [{ wJob with started := true }]
def jobJobsAndFillsMoveTheirData2 : Job := { wJob with started := true, buf := List.replicate 128 5 }
def atJobsAndFillsMoveTheirData2b : State := withJobs wEng [{ wJob with started := true, buf := List.replicate 128 5 }]
def jobJobsAndFillsMoveTheirData3 : Job := { wJob with started := true, retryAt := 5, buf := List.replicate 128 5 }
def atJobsAndFillsMoveTheirData3 : State := withJobs wEng [{ wJob with started := true, retryAt := 5, buf := List.replicate 128 5 }]
def jobJobsAndFillsMoveTheirData4 : Job := { wJob with started := true, row := 2 }
def atJobsAndFillsMoveTheirData4 : State := withJobs wEng [{ wJob with started := true, row := 2 }]
def jobJobsAndFillsMoveTheirData5 : Job := { wJob with started := true, fault := some (3, 7) }
def atJobsAndFillsMoveTheirData5 : State := withJobs wEng [{ wJob with started := true, fault := some (3, 7) }]
def jobJobsAndFillsMoveTheirData7 : Job := { wJob with kind := .fill 0, writes := [] }
def fillJobsAndFillsMoveTheirData7 : Fill := { job := 3, desc := 64, rst := true, n := 3 }
def atJobsAndFillsMoveTheirData7 : State :=
  sel (withJobs { wEng with mem := memPuts [] (vaultKey 0 64) wStream, cores := [(0, { fills := (Vector.replicate 4 []).set 0 [{ job := 3, desc := 64, rst := true, n := 3 }] })] } [{ wJob with kind := .fill 0, writes := [] }]) {}
def jobJobsAndFillsMoveTheirData8 : Job := { wJob with kind := .fill 0, writes := [], reads := [{ space := 1, base := 0x400, len := 192}] }
def fillJobsAndFillsMoveTheirData8 : Fill :=
  { job := 3, desc := 64, rst := true, n := 3, started := true, cursor := 0x400, base := 0x400, rstride := 64, stepinc := 64, rows := 1, rowbytes := 64, flags := 1 }
def atJobsAndFillsMoveTheirData8 : State :=
  sel (withJobs { wEng with mem := memPuts [] (vaultKey 0 0x400) wStream, cores := [(0, { fills := (Vector.replicate 4 []).set 0 [{ job := 3, desc := 64, rst := true, n := 3, started := true, cursor := 0x400, base := 0x400, rstride := 64, stepinc := 64, rows := 1, rowbytes := 64, flags := 1 }] })] } [{ wJob with kind := .fill 0, writes := [], reads := [{ space := 1, base := 0x400, len := 192}] }]) {}
def fillJobsAndFillsMoveTheirData9 : Fill := { job := 3, desc := 64, rst := true, n := 3, started := true, cursor := 0x4C0, step := 3, wcount := 3 }
def atJobsAndFillsMoveTheirData9 : State :=
  sel (withJobs { wEng with cores := [(0, { fills := (Vector.replicate 4 []).set 0 [{ job := 3, desc := 64, rst := true, n := 3, started := true, cursor := 0x4C0, step := 3, wcount := 3 }] })] } [{ wJob with kind := .fill 0, writes := [] }]) {}
def atMatrixMembersAreQueued1 : State := wMatWith fun m => { m with trowel := none }
def atMatrixMembersAreQueued1b : State := wMatWith fun m => { m with trowel := some 5 }
def atMatrixMembersAreQueued2 : State :=
  { wMatWith (fun m => { m with takers := [1, 5] }) with teams := [(1, { wTeam with tid := 1, park := .baton, role := 3 })] }
def atMatrixMembersAreQueued5 : State := { wMat with team := { wMat.team with fmt := 0x110000 } }
def atMatrixMembersAreQueued7 : State := { wMat with team := { wMat.team with s := wMat.team.s.set 7 7 } }
def atMatrixMembersAreQueued8 : State := { wMat with team := { wMat.team with park := .mwait 7 } }
def atMatrixMembersAreQueued9 : State :=
  { wMat with team := { wMat.team with s := (wMat.team.s.set 1 0).set 2 256 }, blocks := [(0, { phase := .running, vbytes := 32768, matuse := true })] }
def atMatrixMembersAreQueued11 : State :=
  { wMat with team := { wMat.team with s := (wMat.team.s.set 1 0x40).set 2 64 }, colls := [(0, { st := .started, gen := 1, desc := { dtype := 1, count := 8192, oper := 1 }, n := 1, grid := 0 })] }
def atMatrixMembersAreQueued12 : State := { wHead (.lda 0) wTile with team := { wMat.team with s := (wMat.team.s.set 1 0x40).set 2 64 } }
def atMatrixMembersAreQueued15 : State := { wMat with team := { wMat.team with s := (wMat.team.s.set 1 0x302) } }
def atMatrixMembersAreQueued16 : State := { wHead (.lda 0) wTile with team := { wMat.team with s := (wMat.team.s.set 1 0x40).set 5 3 } }
def atMatrixStepsAndDrainsExecute1 : State :=
  { wHead (.mloop 2 1 1 true 0x110000) wSlot with cores := [(0, { fifo := (Vector.replicate 4 []).set 0 (List.replicate 64 7), mat := ((wHead (.mloop 2 1 1 true 0x110000) wSlot).core 0).mat })] }
def memberMatrixStepsAndDrainsExecute1 : Member := { batch := 9, slot := 0, tid := 0, op := .mloop 2 1 1 true 0x110000 }
def atMatrixStepsAndDrainsExecute2 : State :=
  wMatWith fun m => { m with acc := m.acc.set 0 wSlot, bufs := { inA := (List.replicate 32 [0x80, 0x3F]).flatten, inB := (List.replicate 32 [0x00, 0x40]).flatten }, queue := [{ batch := 9, slot := 0, tid := 0, op := .mloop 2 1 1 true 0x110000, started := true }] }
def memberMatrixStepsAndDrainsExecute2 : Member := { batch := 9, slot := 0, tid := 0, op := .mloop 2 1 1 true 0x110000, started := true }
def atMatrixStepsAndDrainsExecute4 : State := wHead (.drainV 0x100 256 false true false 0) wSlot
def atMatrixStepsAndDrainsExecute5 : State :=
  { wHead (.drainReg 2 0 0 7 3) wSlot with team := { wMat.team with pend := [{ tag := 3, pc := 4, regs := [8, 9], missing := 1 }] } }
def atMatrixStepsAndDrainsExecute6 : State :=
  { wHead (.drainPort 0x40 64 true) wSlot with colls := [(0, { st := .started, gen := 1, desc := { dtype := 1, count := 8192, oper := 1 }, n := 1, grid := 0 })] }
def atMatrixStepsAndDrainsExecute6b : State :=
  { wHead (.drainPort 0x40 64 true) wSlot (fun x => { x with started := true }) with colls := [(0, { st := .started, gen := 1, desc := { dtype := 1, count := 8192, oper := 1 }, n := 1, grid := 0 })] }
def memberMatrixStepsAndDrainsExecute6 : Member := { batch := 9, slot := 0, tid := 0, op := .drainPort 0x40 64 true, started := true }
def atMatrixStepsAndDrainsExecute6c : State := wHead (.drainPort 0x40 64 true) wSlot
def atTransportExecutesAndSequencersGiveUp1 : State := wHead (.ldk 0 64) wTile
def atTransportExecutesAndSequencersGiveUp1b : State := { wHead (.ldk 0 64) wTile with bad := [vaultKey 0 0] }
def atTransportExecutesAndSequencersGiveUp1c : State := wHead (.stp 0 64 true) wTile
def atTransportExecutesAndSequencersGiveUp1d : State := wHead (.stf 0) wTile
def atTransportExecutesAndSequencersGiveUp1e : State := wHead (.cost 0x3F800000 3) wTile
def atTransportExecutesAndSequencersGiveUp2c : State := wHead (.bal 0 0 3) wTile
def atTransportExecutesAndSequencersGiveUp4 : State :=
  wMatWith fun m => { m with acc := m.acc.set 0 wSlot, owner := some 9, queue := [{ batch := 9, slot := 0, tid := 0, op := .mloop 2 1 1 true 0x110000 }] }
def atMatrixStepsAndDrainsExecute3 : State := wHead (.mloop 0 1 1 true 0x110000) wSlot
def atCollectivesArePostedAndAwaited1 : State :=
  { wEng with ctxs := wPages.ctxs, team := { wEng.team with s := wEng.team.s.set 4 0 }, mem := memPuts [] (hbmKey 0 0x1000) wCard }
def atCollectivesArePostedAndAwaited1b : State :=
  { wEng with ctxs := wPages.ctxs, team := { wEng.team with s := wEng.team.s.set 4 0 }, mem := memPuts [] (hbmKey 0 0x1000) wCard, colls := [(0, wColl .posted)] }
def atCollectivesArePostedAndAwaited2 : State := { wCollS .started with team := { wMem.team with s := wMem.team.s.set 2 0x40 } }
def atCollectivesArePostedAndAwaited2b : State := { wCollS .loc with team := { wMem.team with s := wMem.team.s.set 2 0x40 } }
def atCollectivesArePostedAndAwaited2c : State :=
  { wCollS .error (fun c => { c with err := 3 }) with team := { wMem.team with s := wMem.team.s.set 2 0x40 } }
def atCollectivesArePostedAndAwaited2e : State := { wCollS .posted with team := { wMem.team with s := wMem.team.s.set 2 0x80 } }
def atCollectivesArePostedAndAwaited2f : State := { wCollS .free with team := { wMem.team with s := wMem.team.s.set 2 0x40 } }
def atCollectivesRunToTheirEnd1 : State := { wCollS .posted with ports := [(0, { up := true })], scheds := [(6, [0])] }
def atCollectivesRunToTheirEnd1b : State := { (wCollS .posted) with ports := [(0, { up := true })] }
def atCollectivesRunToTheirEnd1c : State := { (wCollS .posted fun c => { c with n := 2 }) with ports := [(0, { up := true })] }
def atCollectivesRunToTheirEnd1d : State :=
  { wCollS .posted (fun c => { c with n := 2 }) with ports := [(0, { up := true })], posts := [{ coord := 0, ctx := 1, group := 2, seq := 5, pkg := 3, member := 1, n := 2, oper := 2, dtype := 1, rop := 0, count := 2, root := 0, sched := 6 }] }
def atCollectivesRunToTheirEnd2 : State :=
  { wCollS .posted with creqs := [{ arrived := 3, coord := 0, ctx := 1, group := 2, seq := 5, members := [0], sched := 6 }], scheds := [(6, [0])], swCtx := [(0, 1)] }
def atCollectivesRunToTheirEnd3 : State :=
  { wCollS .posted with ac := 2000000, creqs := [{ arrived := 3, coord := 0, ctx := 1, group := 2, seq := 5, members := [0], sched := 6 }] }
def atCollectivesRunToTheirEnd6 : State :=
  { wCollS .posted with ports := [(0, { up := true })], grants := [{ rank := 9, coord := 0, ctx := 1, group := 2, seq := 5, members := [0], sched := 6 }], team := { wMem.team with park := .cwait 0 0x40 } }
def atCollectivesRunToTheirEnd7 : State := wCollS .started
def atCollectivesRunToTheirEnd7b : State := { wCollS .started with mem := [] }
def atCollectivesRunToTheirEnd8 : State :=
  sel (wCollS .started fun c => { c with sent := 8, sendBuf := (List.range 8).map fun i => (i, 7) }) {sub := 1}
def atCollectivesRunToTheirEnd8b : State :=
  sel { (wCollS .started fun c => { c with sent := 8, sendBuf := (List.range 8).map fun i => (i, 7) }) with mem := [] } {sub := 1}
def atCollectivesRunToTheirEnd9 : State :=
  sel { (wCollS .started fun c => { c with n := 2 }) with ports := [(0, { up := true })] } {sub := 2, word := 1, pkt := 5}
def atCollectivesRunToTheirEnd10 : State :=
  sel { (wCollS .started fun c => { c with chunks := [3] }) with fresh := 40, blocks := [(3, { phase := .ended, vheld := true, chunkWait := true, vbytes := 256, voff := 128 })], grids := [(0, { ctx := 1, launch := { cbchunk := 128 } })] } {sub := 3}
def atCollectivesRunToTheirEnd10b : State :=
  sel { (wCollS .started fun c => { c with chunks := [3] }) with bad := [vaultKey 0 128], fresh := 40, blocks := [(3, { phase := .ended, vheld := true, chunkWait := true, vbytes := 256, voff := 128 })], grids := [(0, { ctx := 1, launch := { cbchunk := 128 } })] } {sub := 3}
def atCollectivesRunToTheirEnd13 : State :=
  { (wCollS .started fun c => { c with sent := 8, recvd := 8 }) with team := { wMem.team with park := .cwait 1 0x40 } }
def atCollectivesRunToTheirEnd15 : State :=
  { (wCollS .loc fun c => { c with sent := 8, recvd := 8 }) with ports := [(0, { up := true })], team := { wMem.team with park := .cwait 2 0x40 } }
def atCollectivesRunToTheirEnd16 : State :=
  sel { wCollS .posted with ports := [(0, { up := true })], notices := [(0, 1, ceMISMATCH)] } { word := ceMISMATCH }
def atCollectivesRunToTheirEnd17 : State := wCollS .started fun c => { c with fault := some (3, 7) }
def atCollectivesRunToTheirEnd17b : State := { (wCollS .started fun c => { c with fault := some (3, 7) }) with team := {}, blocks := [] }
def teamCollectivesRunToTheirEnd18 : Team := { wTeam with park := .cwait 1 0x45 }
def atBlocksArePlacedStartedAndEnded9 : State :=
  { wMem with grids := [(1, { ctx := 1, launch := { gx := 1, gy := 1, gz := 1, bond := 1, roles := [{ lanes := 4, regs := 96 }], vbytes := 128 } })] }
def atBlocksArePlacedStartedAndEnded10 : State :=
  { wMem with grids := [(1, { ctx := 1, nextBlk := 1, restore := [{ key := 0, block := { kind := .grid, grid := 1, vbytes := 128, bondSize := 1 }, teams := [{ wTeam with blk := 7, park := .run }], wbar := 0, record := List.replicate 40000 7 }], launch := { gx := 1, gy := 1, gz := 1, bond := 1, roles := [{ lanes := 4, regs := 96 }], vbytes := 128 } })] }
def atBlocksArePlacedStartedAndEnded3 : State :=
  { wMem with grids := [(1, { ctx := 1, launch := { gx := 1, gy := 1, gz := 1, ctrl := 1 } }), (2, { ctx := 1, launch := { gx := 1, gy := 1, gz := 1, ctrl := 0xFF } })] }
def atBlocksArePlacedStartedAndEnded11 : State :=
  { wMem with grids := [(1, { ctx := 1, launch := { ctrl := 0, gx := 1, gy := 1, gz := 1, bond := 1, roles := [{ lanes := 4, regs := 96 }], vbytes := 128 } })] }
def atBlocksArePlacedStartedAndEnded14 : State :=
  { wPark .start with grids := [(0, { ctx := 1, vaultPa := 0x10000, imgBytes := 4, launch := { vbytes := 16 } })], mem := wMem.mem, blocks := [(0, { phase := .starting, vbytes := 16, voff := 128 })] }
def atBlocksArePlacedStartedAndEnded15 : State := { wMem with team := {} }
def atBlocksArePlacedStartedAndEnded16 : State :=
  { w with ports := [(0, { up := true })], team := {}, blocks := [(0, { phase := .ended })], colls := [(0, wColl .loc)], grids := [(0, { ctx := 1, nextBlk := 1, launch := { gx := 1, gy := 1, gz := 1 }, pkt := BitVec.ofNat 512 (0x1000 * 2 ^ 64) })] }
def atBinsLaunchAndBlocksAreSaved1 : State :=
  { w with team := {}, ac := 99999, grids := [(0, { ctx := 1, launch := { roles := [{ lanes := 4, regs := 96 }], bins := [{ entry := 0x100010, blanes := 1, timer := 2 }] } })], cores := [(0, { bins := [(0, { grid := 0, be := { entry := 0x100010, blanes := 1, timer := 2 }, regs := 96, timer := some 3, fifo := (List.replicate 32 [5, 6]) })] })] }
def atBinsLaunchAndBlocksAreSaved3 : State :=
  { w with team := { wTeam with park := .wbar 1 }, blocks := [(0, { phase := .running, vbytes := 16, voff := 983040 - 16, vheld := true })], grids := [(0, { ctx := 1, nextBlk := 1, launch := { vbytes := 983040, gx := 2, gy := 1, gz := 1, bond := 1, wbars := 2, roles := [{ lanes := 1024, regs := 248, entry := 4 }, { lanes := 1024, regs := 248, entry := 4 }] } })] }
def atBlocksArePlacedStartedAndEnded6 : State := { wMem with grids := [] }
def atResultsSamplesAndStopsAdvance2 : State :=
  { onT w (fun t => { t with pend := [{ tag := 3, pc := 4, regs := [5], missing := 1 }] }) with cores := [(0, { sfu := (Vector.replicate 4 []).set 0 [{ tid := 9, tag := 1, groups := 1, start := some 5 }, { tid := 0, tag := 3, groups := 2 }] })] }
def atResultsSamplesAndStopsAdvance3 : State := onT w fun t => { t with traced := true }
def atResultsSamplesAndStopsAdvance4 : State := onT w fun t => { t with s := t.s.set 1 128 }
def atResultsSamplesAndStopsAdvance6 : State := { w with ac := 1024, grids := [(0, { ctx := 1, launch := { ctrl := 0x80020 } })] }
def atResultsSamplesAndStopsAdvance7 : State := { onT w (fun t => { t with traced := true, tr := { chunk := [1, 2, 3] } }) with ac := 70000 }
def atResultsSamplesAndStopsAdvance8 : State :=
  sel { w with ac := 70000, cores := [(0, { sample := (Vector.replicate 4 {}).set 0 { grid := 0, opened := 5, body := [1, 2] } })] } {sub := 1}
def atResultsSamplesAndStopsAdvance9 : State :=
  { wGpu [] with grids := [(0, { ctx := 1, launch := { tracebuf := 0x100, tracebytes := 192 } })], cores := [(0, { outq := (Vector.replicate 4 []).set 0 [(0, 4, List.replicate 64 9)] })] }
def atResultsSamplesAndStopsAdvance9b : State :=
  { wMem with grids := [(0, { ctx := 1, launch := { tracebuf := 0x100, tracebytes := 192 } })], cores := [(0, { outq := (Vector.replicate 4 []).set 0 [(0, 4, List.replicate 64 9)] })] }
def atResultsSamplesAndStopsAdvance10 : State :=
  { onT w (fun t => { t with rwc := 5 }) with stop := some { ctx := 1, launch := 0, lin := 0, role := 0, count := 5, pkt := BitVec.ofNat 512 (0x1000 * 2 ^ 64) }, replay := some { pkt := 0, queue := 0, began := 0, turn := 0, cmds := [], inputs := [], grid := some 0 } }
def atResultsSamplesAndStopsAdvance10b : State :=
  { onT w (fun t => { t with rwc := 5, park := .held }) with ports := [(0, { up := true })], stop := some { ctx := 1, launch := 0, lin := 0, role := 0, count := 5, pkt := BitVec.ofNat 512 (0x1000 * 2 ^ 64), taken := true, named := some 0 }, replay := some { pkt := 0, queue := 0, began := 0, turn := 0, cmds := [], inputs := [], grid := some 0 } }
def atCommandsLaunchAndCopy1 : State :=
  sel { w with power := .on, ports := [(0, { up := true })], captures := [(7, { isOpen := true }), (8, {})] } { pkt := 0x1234 }
def atCommandsLaunchAndCopy1b : State :=
  sel { w with power := .on, ports := [(0, { up := true })], captures := [(7, { isOpen := true }), (8, {})], queues := [(0, { kind := 3, cap := 3 })] } { pkt := 0x1234 }
def atCommandsLaunchAndCopy2 : State := wCmd w (wPkt 1 0 [])
def atCommandsLaunchAndCopy4 : State :=
  { wCmd (wGpu wRec) (wPkt 1 0 (le [(8, 0)])) with nextGrid := 1, ports := [(0, { up := true })], captures := [(7, { isOpen := true }), (8, {})] }
def atCommandsLaunchAndCopy4b : State := { wCmd (wGpu [5]) (wPkt 1 0 (le [(8, 0)])) with nextGrid := 1 }
def atCommandsLaunchAndCopy4c : State := { wCmd wMem (wPkt 1 0 (le [(8, 0)])) with nextGrid := 1 }
def atCommandsLaunchAndCopy5 : State :=
  wCmd { (wGpu [1,2,3,4]) with ports := [(0, { up := true })] } (wPkt 2 0 (le [(8, 0), (8, 0x100), (8, 4), (2, 3)]))
def atCommandsLaunchAndCopy5b : State :=
  wCmd { (wGpu [1,2,3,4]) with ports := [(0, { up := true })] } (wPkt 2 0 (le [(8, 0), (8, 0x100), (8, 4), (2, 0x4003)]))
def atCommandsLaunchAndCopy5c : State :=
  wCmd { (wGpu [1,2,3,4]) with ports := [(0, { up := true })] } (wPkt 2 1 (le [(8, 0), (8, 0x100), (8, 4), (2, 0x4003)]))
def atCommandsLaunchAndCopy5d : State :=
  wCmd { (wGpu [1,2,3,4]) with ports := [(0, { up := true })] } (wPkt 2 2 (le [(8, 0), (8, 0x100), (8, 4), (2, 0x4003)]))
def atCommandsLaunchAndCopy5e : State := wCmd wMem (wPkt 2 2 (le [(8, 0), (8, 0x100), (8, 4), (2, 0x4003)]))
def atMapCommandsTakeEffect1 : State := wCmd wPages (wPkt 3 0 (le [(8, 0x5000), (8, 0x99), (2, 0x4004)]))
def atMapCommandsTakeEffect2 : State := wCmd wPages (wPkt 3 1 (le [(8, 0x5000), (4, 3), (1, 0)]))
def atMapCommandsTakeEffect2b : State := wCmd wPages (wPkt 3 1 (le [(8, 0x50000), (4, 3), (1, 1)]))
def atMapCommandsTakeEffect2c : State := wCmd wPages (wPkt 3 1 (le [(8, 0x5000), (4, 3), (1, 2)]))
def atMapCommandsTakeEffect3 : State := wCmd wPages (wPkt 3 2 (le [(2, 5), (1, 1), (1, 4), (2, 1)]))
def atMapCommandsTakeEffect3b : State := wCmd wPages (wPkt 3 2 (le [(2, 5), (1, 1), (1, 3), (2, 1)]))
def atMapCommandsTakeEffect3c : State := wCmd wPages (wPkt 3 3 (le [(8, 0x5000)]))
def atMapCommandsTakeEffect3d : State := { wCmd wPages (wPkt 3 3 (le [(8, 0x5000)])) with launched := true }
def atMapCommandsTakeEffect3e : State := { wCmd wPages (wPkt 3 6 (le [(4, 5), (1, 0)])) with preq := [⟨5, 1, 0x5000, 0, 1, 0⟩] }
def atMapCommandsTakeEffect3f : State := { wCmd wPages (wPkt 3 6 (le [(4, 5), (1, 0)])) with prlate := 8 }
def atMapCommandsTakeEffect3g : State :=
  { wCmd wPages (wPkt 3 7 (le [(2, 5)])) with lost := [4, 5], ports := [(0, { lost := true, neighbour := 5 })] }
def atMapCommandsTakeEffect4 : State :=
  { wCmd wPages (wPkt 3 4 (le [(8, 0x30000), (4, 2)])) with mem := memPuts wTables (hbmKey 0 0x3000) (le [(8, 5), (8, 6)]) }
def atMapCommandsTakeEffect5 : State := { wCmd wEng (wPkt 3 5 (le [(8, 0x40000), (8, 1)])) with mem := [] }
def atCapturesSignalsAndAttestation1 : State :=
  wCmd { wGpu (le [(8, 0x10), (8, 4)]) with mem := memPuts wTables (hbmKey 0 0x3000) (le [(8, 0x10), (8, 4), (4, 7)]) } (wPkt 4 0 (le [(8,
    0x30000), (4, 1)]))
def atCapturesSignalsAndAttestation1b : State :=
  wCmd { wMem with mem := memPuts [] (hbmKey 0 0x3000) (le [(8, 0x10), (8, 4), (4, 7)]) } (wPkt 4 0 (le [(8, 0x30000), (4, 1)]))
def atCapturesSignalsAndAttestation2 : State := { wCmd wPages (wPkt 4 1 []) with captures := [(7, { isOpen := true }), (8, {})] }
def atCapturesSignalsAndAttestation7 : State :=
  { wCmd wPages (wPkt 5 0 (le [(8, 0), (4, 0), (8, 0), (1, 0), (3, 0), (8, 5)])) with captures := [(0, { isOpen := true, ctx := 1, regions := [(0x10, 4)], snapshot := [[1,2,3,4]], commands := [{ moment := ⟨5, 0⟩, queue := 2, pkt := wPkt 1 0 [] }] })] }
def atCapturesSignalsAndAttestation8 : State :=
  { wPages with replay := some { pkt := 0, queue := 0, began := 0, turn := 0, cmds := [{ moment := ⟨5, 0⟩, queue := 2, pkt := wPkt 1 0 [] }, { moment := ⟨6, 0⟩, queue := 2, pkt := wPkt 1 0 [] }, { moment := ⟨6, 0⟩, queue := 3, pkt := wPkt 1 0 [] }], inputs := [], next := 3 } }
def atCapturesSignalsAndAttestation9 : State := wCmd wPages (wPkt 6 0 [])
def atCapturesSignalsAndAttestation10 : State := wCmd wPages (wPkt 6 1 [])
def atCapturesSignalsAndAttestation11 : State :=
  { wCmd wEng (wPkt 6 2 []) with ports := [(0, { up := true })], preq := [⟨5, 1, 0x5000, 0, 1, 0⟩], colls := [(0, wColl .posted)], dies := [(0, { jobs := [wJob] })] }
def atCapturesSignalsAndAttestation12 : State :=
  { wCmd (wPark .held) (wPkt 6 3 []) with stop := some { ctx := 1, launch := 0, lin := 0, role := 0, count := 5, pkt := 0 } }
def atCapturesSignalsAndAttestation13 : State := wCmd { wPages with ports := [(0, { up := true })] } (wPkt 7 0 (le [(32, 5), (8, 0x40)]))
def atCapturesSignalsAndAttestation14 : State := wCmd wPages (wPkt 9 0 [])
def atCapturesSignalsAndAttestation14b : State := wCmd wPages (wPkt 6 9 [])
def atThePackageStartsAndLosesItsLinks1 : State := State.reset
def atThePackageStartsAndLosesItsLinks2 : State := { State.reset with startStep := 1, startCount := 1 }
def atThePackageStartsAndLosesItsLinks2b : State :=
  { State.reset with startStep := 0x600, startCount := 1, startLog := [startBytes ⟨0x600, 2, 1, 0, 5⟩] }
def atThePackageStartsAndLosesItsLinks2c : State := { State.reset with startStep := 2, startCount := 1, startLog := [startBytes ⟨2, 2, 0, 0, 5⟩] }
def atThePackageStartsAndLosesItsLinks3 : State :=
  sel { State.reset with startStep := 2, startCount := 1, startLog := [startBytes ⟨2, 0, 0, 1, 0⟩] } { word := 1 }
def atThePackageStartsAndLosesItsLinks3b : State :=
  sel { State.reset with startStep := 8, startCount := 1, startLog := [startBytes ⟨8, 0, 0, 1, 0⟩] } { word := 1 }
def atThePackageStartsAndLosesItsLinks3c : State :=
  sel { State.reset with startStep := 0x600, startCount := 1, startLog := [startBytes ⟨0x600, 0, 0, 1, 0⟩] } { word := 1, sub := 4 }
def atThePackageStartsAndLosesItsLinks3d : State :=
  sel { State.reset with startStep := 4, startCount := 1, startLog := [startBytes ⟨4, 0, 0, 1, 0⟩] } { word := 0, unit := 4 }
def atThePackageStartsAndLosesItsLinks4 : State := { State.reset with startStep := 2, startCount := 1, startLog := [startBytes ⟨4, 2, 1, 0, 5⟩] }
def atThePackageStartsAndLosesItsLinks9 : State :=
  { State.reset with power := .failed, failRec := some ⟨2, 2, 0, 1, 5⟩, ports := [(0, { up := true })] }
def atThePackageStartsAndLosesItsLinks11 : State := sel wMem { word := 1 }
def atThePackageStartsAndLosesItsLinks11b : State := sel wMem { word := 2 }
def atThePackageStartsAndLosesItsLinks12 : State :=
  sel { wCollS .posted with posts := [{ coord := 0, ctx := 1, group := 2, seq := 5, pkg := 3, member := 1, n := 2, oper := 2, dtype := 1, rop := 0, count := 2, root := 0, sched := 6 }], grants := [{ rank := 9, coord := 0, ctx := 1, group := 2, seq := 5, members := [0, 3], sched := 6 }] } { unit := 3 }
def atThePackageStartsAndLosesItsLinks14 : State := { wMem with ac := 99999, ports := [(0, { up := true, neighbour := 3, failed := 16 })] }
def atThePackageStartsAndLosesItsLinks14b : State :=
  sel { wMem with ac := 99999, ports := [(0, { up := true, neighbour := 3, failed := 1 })] } { sub := 1 }
def atThePackageStartsAndLosesItsLinks16 : State := sel { wMem with power := .on, ports := [(0, { up := true })] } { word := 5 }
def atThePackageStartsAndLosesItsLinks18 : State := { wMem with power := .on, ports := [(0, { up := true })], beacons := [5, 6] }
def atOperandChecksTrapInTheirOrder1 : State := onT w fun t => { t with rbad := [regKey 2 1] }
def atOperandChecksTrapInTheirOrder1b : State := onT w fun t => { t with nregs := 0 }
def atOperandChecksTrapInTheirOrder1c : State := onT w fun t => { t with pend := [{ tag := 3, pc := 4, regs := [2] }] }
def atOperandChecksTrapInTheirOrder1d : State := onT w fun t => { t with vdead := [(513, true)], tstat := 2 }
def atOperandChecksTrapInTheirOrder1e : State := onT w fun t => { t with vdead := [(513, true)] }
def atStepRunsTheDecodedInstruction1 : State := State.reset.withFetchWord 32 0x01004103
def atSelectTestsTheBitsOfD2 : State := onT w fun t => { t with v := [(1, 5), (2, 6), (4, 0x80000000), (513, 9)] }
def atMinAndMaxChooseAnOperand1 : State := onT w fun t => { t with v := [(1, 0x80000000), (2, 0), (513, 0x7F800001)] }
def atTheCallStackHoldsSixteenAddresses1 : State := onT w fun t => { t with cstack := List.replicate 16 5 }
def atTheCallStackHoldsSixteenAddresses4 : State := onT w fun t => { t with cstack := [8, 9] }
def sfuentryResultsSamplesAndStopsAdvance1 : SfuEntry := { tid := 9, tag := 1, groups := 1, start := some 5 }
def atResultsSamplesAndStopsAdvance1 : State :=
  { onT w (fun t => { t with pend := [{ tag := 3, pc := 4, regs := [5] }] }) with cores := [(0, { sfu := (Vector.replicate 4 []).set 0 [{ tid := 9, tag := 1, groups := 1, start := some 5 }, { tid := 0, tag := 3, groups := 2 }] })] }
def atResultsSamplesAndStopsAdvance5 : State :=
  { onT w (fun t => { t with pend := [{ tag := 3, pc := 4, regs := [5], missing := 1 }] }) with cores := [(0, { route := [(3, 7), (5, 8)] })] }
def atResultsSamplesAndStopsAdvance10c : State :=
  { onT w (fun t => { t with rwc := 5, hmode := true, trap := { tcause := 0x15, tnext := 0x44 } }) with ports := [(0, { up := true })], stop := some { ctx := 1, launch := 0, lin := 0, role := 0, count := 5, pkt := BitVec.ofNat 512 (0x1000 * 2 ^ 64), taken := true, named := some 0 }, replay := some { pkt := 0, queue := 0, began := 0, turn := 0, cmds := [], inputs := [], grid := some 0 } }
def atThePackageStartsAndLosesItsLinks3e : State :=
  sel { State.reset with startStep := 7, startCount := 1, startLog := [startBytes ⟨7, 0, 0, 1, 0⟩], beacons := [5, 6], ports := [(0, { up := true })] } { word := 1 }
def atThePackageStartsAndLosesItsLinks3i : State := { State.reset with startStep := 1, startCount := 1, startLog := [startBytes ⟨1, 0, 0, 1, 0⟩] }
def atThePackageStartsAndLosesItsLinks13 : State :=
  sel { onT w (fun t => { t with pend := [{ tag := 3, pc := 4, regs := [5], far := some { pc := 5, lanes := [(0, 3, { cause := 9 })] } }] }) with teams := [(4, { wTeam with tid := 4, stores := [{ tag := 3, far := some { pc := 5, lanes := [(0, 3, { cause := 9 }), (1, 2, { cause := 9 })] } }] })] } { unit := 3 }
def atThePackageStartsAndLosesItsLinks15 : State := { wMem with ports := [(0, { up := true })] }
def atThePackageStartsAndLosesItsLinks9b : State := { State.reset with power := .failed, failRec := some ⟨3, 2, 0, 1, 5⟩, sel := { word := 2 } }
def atThePackageStartsAndLosesItsLinks9c : State :=
  { State.reset with power := .failed, failRec := some ⟨3, 2, 0, 1, 5⟩, lastFail := 1, sel := { word := 1 } }
def atStepRunsTheDecodedInstruction2 : State := { State.reset.withFetchWord 32 0x01004103 with agenda := [.issue 5, .tick] }
def atStepRunsTheDecodedInstruction2b : State := { State.reset.withFetchWord 32 0x01004103 with agenda := [.tick] }
def atStepRunsTheDecodedInstruction2c : State := { State.reset with agenda := [.tick] }
def atStepRunsTheDecodedInstruction3 : State := { wAway id with ac := 9 }
def teamStepRunsTheDecodedInstruction4 : Team := { wTeam with mcall := some wMcall }
def reexecStepRunsTheDecodedInstruction4 : Reexec := { mask := 3, next := 8, direct := true }
def teamStepRunsTheDecodedInstruction4b : Team := { wTeam with mcall := some wMcall, reexec := some { mask := 3, next := 8, direct := true } }
def teamStepRunsTheDecodedInstruction4d : Team := { wTeam with mcall := some { wMcall with idx := 1 } }
def atEnginesTakeTheirJobs5b : State := withJobs wEng [wOld, wJob]
def atCollectivesRunToTheirEnd6b : State :=
  { wCollS .free with ports := [(0, { up := true })], grants := [{ rank := 9, coord := 0, ctx := 1, group := 2, seq := 5, members := [0], sched := 6 }] }
def atResultsSamplesAndStopsAdvance9c : State :=
  { wGpu (List.replicate 0x108 0 ++ le [(8, 5)]) with grids := [(0, { ctx := 1, launch := { tracebuf := 0x100, tracebytes := 192 } })], cores := [(0, { outq := (Vector.replicate 4 []).set 0 [(0, 4, List.replicate 64 9)] })] }
def atMapCommandsTakeEffect1b : State :=
  wCmd wPages (pktOf (le [(1, 3), (1, 0), (2, 0), (4, 77), (8, 0x1000), (2, 3), (2, 0)] ++ le [(8, 0x5000), (8, 0x99), (2, 0x4004)]))
def atThePackageStartsAndLosesItsLinks4b : State := { State.reset with startStep := 5, startCount := 1, startLog := [startBytes ⟨4, 1, 1, 0, 5⟩] }
def atThePackageStartsAndLosesItsLinks11c : State := sel { wMem with cecount := 0xFF00FF00 } { word := 1 }
def atThePackageStartsAndLosesItsLinks11d : State := sel { wMem with bad := [granule (vaultKey 0 0)] } { word := 2 }
def atThePackageStartsAndLosesItsLinks11f : State := sel wMem { word := 0 }
def teamStepRunsTheDecodedInstruction4e : Team := { wTeam with pc := 16 }
def atTrapsAreEnteredAndReturnedFrom3c : State := wHandler { wTrapState with tpc := 0x100002, tnext := 0x100002 }
def atWalksFollowTheTablesIntoTheTlb2d : State := { wMem with lost := [Config.packageIndex] }
def atWalksFollowTheTablesIntoTheTlb2e : State := { wMem with bad := [hbmKey 0 0x1000] }
def atJobsAndFillsMoveTheirData5b : State :=
  { withJobs wEng [{ wJob with started := true, fault := some (3, 7) }] with team := {}, grids := [(0, { ctx := 1, saved := [⟨0, {}, [wTeam], 1, []⟩] })] }
def atCollectivesRunToTheirEnd17c : State :=
  { (wCollS .started fun c => { c with fault := some (3, 7) }) with team := {}, blocks := [], grids := [(0, { ctx := 1, saved := [⟨0, {}, [wTeam], 1, []⟩] })] }
def atBinsLaunchAndBlocksAreSaved4b : State :=
  { wMem with team := {}, teams := [(0, { wTeam with park := .wbar 1 })], blocks := [(0, { phase := .running, vbytes := 16, vheld := true, matuse := true })] }
def atCommandsLaunchAndCopy1c : State := sel { w with power := .on, queues := [(0, { kind := 3, cap := 256 })] } { pkt := 0x1234 }
def atCommandsLaunchAndCopy1d : State :=
  sel { w with power := .on, queues := [(0, { kind := 3, cap := 256 })], ports := [(0, { up := true })], replay := some { pkt := 0, queue := 0, began := 0, turn := 0, cmds := [], inputs := [] } } { pkt := 0x1234 }
def atMapCommandsTakeEffect4b : State := wCmd wPages (wPkt 3 4 (le [(8, 0x30000), (4, 70000)]))
def atMapCommandsTakeEffect4c : State := { wCmd wPages (wPkt 3 4 (le [(8, 0x30000), (4, 2)])) with bad := [hbmKey 0 0x3000] }
def atCapturesSignalsAndAttestation1c : State := { wCmd wPages (wPkt 4 0 (le [(8, 0x30000), (4, 1)])) with bad := [hbmKey 0 0x3000] }
def atThePackageStartsAndLosesItsLinks4c : State := { State.reset with startStep := 5, startCount := 1, startLog := [startBytes ⟨4, 3, 1, 0, 5⟩] }
def atThePackageStartsAndLosesItsLinks9d : State := { State.reset with power := .failed, failRec := some ⟨3, 2, 0, 1, 5⟩, sel := { word := 1 } }
def atThePackageStartsAndLosesItsLinks9e : State := { State.reset with power := .failed, failRec := some ⟨3, 2, 0, 1, 5⟩, sel := { word := 0 } }
def atHandlersAreServed2 : State := wLeaf 0x30470 []
def atHandlersAreServed2b : State := wLeaf 0x600 []
def atHandlersAreServed2c : State := wLeaf 0x600 [0x40000, 0x50000]
def atResultsLandAndStoresAreAccepted3 : State :=
  sel { w with team := {}, blocks := [(0, { phase := .running, credits := 1, tokens := [{ tag := 3, credit := true, left := 0 }] })] } { unit := 7, sub := 3 }
def atAddressWaitsAreRecordedAndWoken1 : State := { wMem with bad := [vaultKey 0 8] }
def faraccessAddressWaitsAreRecordedAndWoken6 : FarAccess := { pc := 0x100000, lanes := [(0, 8, { cause := 0 })] }
def atAddressWaitsAreRecordedAndWoken6 : State :=
  onT w fun t => { t with park := .watch, farWait := some { pc := 0x100000, lanes := [(0, 8, { cause := 0 })] } }
def vatjobTheVatRenumbersItsTeam2 : VatJob := { tid := 0, moves := [(0, 0), (2, 1)], cost := 5 }
def atTheVatRenumbersItsTeam2 : State := { onT w id with cores := [(0, { vat := some { tid := 0, moves := [(0, 0), (2, 1)], cost := 5 } })] }
def atCollectivesRunToTheirEnd4 : State :=
  sel { wCollS .posted with ac := 2000000, creqs := [{ arrived := 3, coord := 0, ctx := 1, group := 2, seq := 5, members := [0, 1], sched := 6 }, { arrived := 9, coord := 0, ctx := 1, group := 2, seq := 5, members := [1, 2], sched := 6 }] } { sub := 1 }
def atCollectivesRunToTheirEnd5 : State := wCollS .posted
def atCollectivesRunToTheirEnd14 : State :=
  sel { wCollS .posted with ports := [(0, { up := true })], grants := [{ rank := 9, coord := 0, ctx := 1, group := 2, seq := 5, members := [3], sched := 6 }] } { sub := 1, word := 9 }
def atBlocksArePlacedStartedAndEnded13 : State := { wPark .start with blocks := [(0, { phase := .starting, vbytes := 16, voff := 128 })] }
def atCapturesSignalsAndAttestation3 : State := { w with captures := [(7, { isOpen := true }), (8, {})] }
def atCapturesSignalsAndAttestation4 : State :=
  { w with replay := some { pkt := 0, queue := 0, began := 90, turn := 0, cmds := [], inputs := [(⟨5, 0⟩, .event .timeBeacon {})] } }
def atMapCommandsTakeEffect1c : State := wCmd wPages (wPkt 3 0 (le [(8, 0x5000), (8, 0x99), (2, 4)]))

/-! ### Every statement's hypotheses are met: one witness for each clause and each branch of it -/

theorem met_IntegerOpsWriteTheirResult :
    (∃ p, p ∈ Claims.intOps ∧ (∃ (d a b : RegF), ∃ (s : State), Issuing s ∧ (Ready s (isScalar d) [src a, src b, dst d]))) :=
   ⟨_, List.Mem.head _, 3, 1, 2, w, issuing_of (by decide +kernel), ready_of (by decide +kernel)⟩

theorem met_ImmediateAndUnaryOpsWriteTheirResult :
    (∃ (d : RegF), ∃ (s : State), Issuing s ∧ (Ready s (isScalar d) [dst d])) ∧
    (∃ p, p ∈ Claims.immOps ∧ (∃ (d a : RegF), ∃ (s : State), Issuing s ∧ (Ready s (isScalar d) [src a, dst d]))) ∧
    (∃ p, p ∈ Claims.unaryOps ∧ (∃ (d a : RegF), ∃ (s : State), Issuing s ∧ (Ready s (isScalar d) [src a, dst d]))) :=
  ⟨⟨3, w, issuing_of (by decide +kernel), ready_of (by decide +kernel)⟩,
   ⟨_, List.Mem.head _, 3, 1, w, issuing_of (by decide +kernel), ready_of (by decide +kernel)⟩,
   ⟨_, List.Mem.head _, 3, 1, w, issuing_of (by decide +kernel), ready_of (by decide +kernel)⟩⟩

theorem met_TeamRegistersAreSet :
    (∃ (s : State), Issuing s) ∧
    (∃ (a : RegF), ∃ (s : State), Issuing s ∧ (Ready s false [src a] ∧ (96 ≤ a.toNat))) ∧
    (∃ (l : Word), ∃ (s : State), Issuing s ∧ (l.toNat % 8 = 0 ∧ (l.toNat < s.team.nregs))) ∧
    (∃ (a : RegF), ∃ (s : State), Issuing s ∧ (Ready s false [src a] ∧ (96 ≤ a.toNat ∧ ((rdu s a).toNat % 8 = 0 ∧ ((rdu s a).toNat < s.team.nregs))))) ∧
    (∃ (s : State), Issuing s) ∧
    (∃ p, p ∈ ([(.ptnT32, 0), (.ptnT16, 1), (.ptnT8, 2), (.ptnT4, 3), (.ptnT2, 4), (.ptnWhole, 5)] : List ((Hd → Instr) × BitVec 3)) ∧ (∃ (s : State), Issuing s)) :=
  ⟨⟨w, issuing_of (by decide +kernel)⟩,
   ⟨97, w, issuing_of (by decide +kernel), ready_of (by decide +kernel), by decide +kernel⟩,
   ⟨88, w, issuing_of (by decide +kernel), by decide +kernel⟩,
   ⟨98, w, issuing_of (by decide +kernel), ready_of (by decide +kernel), by decide +kernel⟩,
   ⟨w, issuing_of (by decide +kernel)⟩,
   ⟨_, List.Mem.head _, w, issuing_of (by decide +kernel)⟩⟩

theorem met_FpOpsWriteTheirResult :
    (∃ f, f ∈ [fp32, bf16, fp16] ∧ (∃ (m x y z : Nat), m < 4 ∧ (x < 2 ^ (f.eb + f.fb + 1) ∧ (y < 2 ^ (f.eb + f.fb + 1) ∧ (z < 2 ^ (f.eb + f.fb + 1) ∧ (¬ Claims.isNan f x ∧ (¬ Claims.isNan f y ∧ ((let vx : ℚ := Claims.value f x
     (let vy : ℚ := Claims.value f y
     Claims.finite f x ∧ (Claims.finite f y ∧ (vx + vy ≠ 0)))))))))))) ∧
    (∃ f, f ∈ [fp32, bf16, fp16] ∧ (∃ (m x y z : Nat), m < 4 ∧ (x < 2 ^ (f.eb + f.fb + 1) ∧ (y < 2 ^ (f.eb + f.fb + 1) ∧ (z < 2 ^ (f.eb + f.fb + 1) ∧ (¬ Claims.isNan f x ∧ (¬ Claims.isNan f y ∧ ((let vx : ℚ := Claims.value f x
     (let vy : ℚ := Claims.value f y
     Claims.finite f x ∧ (Claims.finite f y ∧ (vx + vy = 0)))))))))))) ∧
    (∃ f, f ∈ [fp32, bf16, fp16] ∧ (∃ (m x y z : Nat), m < 4 ∧ (x < 2 ^ (f.eb + f.fb + 1) ∧ (y < 2 ^ (f.eb + f.fb + 1) ∧ (z < 2 ^ (f.eb + f.fb + 1) ∧ (¬ Claims.isNan f x ∧ (¬ Claims.isNan f y ∧ ((let vx : ℚ := Claims.value f x
     (let vy : ℚ := Claims.value f y
     Claims.finite f x ∧ (Claims.finite f y ∧ (vx * vy ≠ 0)))))))))))) ∧
    (∃ f, f ∈ [fp32, bf16, fp16] ∧ (∃ (m x y z : Nat), m < 4 ∧ (x < 2 ^ (f.eb + f.fb + 1) ∧ (y < 2 ^ (f.eb + f.fb + 1) ∧ (z < 2 ^ (f.eb + f.fb + 1) ∧ (¬ Claims.isNan f x ∧ (¬ Claims.isNan f y ∧ ((let vx : ℚ := Claims.value f x
     (let vy : ℚ := Claims.value f y
     Claims.finite f x ∧ (Claims.finite f y ∧ (vx * vy = 0)))))))))))) ∧
    (∃ f, f ∈ [fp32, bf16, fp16] ∧ (∃ (m x y z : Nat), m < 4 ∧ (x < 2 ^ (f.eb + f.fb + 1) ∧ (y < 2 ^ (f.eb + f.fb + 1) ∧ (z < 2 ^ (f.eb + f.fb + 1) ∧ (¬ Claims.isNan f x ∧ (¬ Claims.isNan f y ∧ (Claims.isInf f x)))))))) ∧
    (∃ f, f ∈ [fp32, bf16, fp16] ∧ (∃ (m x y z : Nat), m < 4 ∧ (x < 2 ^ (f.eb + f.fb + 1) ∧ (y < 2 ^ (f.eb + f.fb + 1) ∧ (z < 2 ^ (f.eb + f.fb + 1) ∧ (¬ Claims.isNan f x ∧ (¬ Claims.isNan f y ∧ (Claims.finite f x ∧ (Claims.isInf f y))))))))) ∧
    (∃ f, f ∈ [fp32, bf16, fp16] ∧ (∃ (m x y z : Nat), m < 4 ∧ (x < 2 ^ (f.eb + f.fb + 1) ∧ (y < 2 ^ (f.eb + f.fb + 1) ∧ (z < 2 ^ (f.eb + f.fb + 1) ∧ (¬ Claims.isNan f x ∧ (¬ Claims.isNan f y ∧ ((let vx : ℚ := Claims.value f x
     (let vy : ℚ := Claims.value f y
     (let vz : ℚ := Claims.value f z
     Claims.finite f x ∧ (Claims.finite f y ∧ (Claims.finite f z ∧ (vx * vy + vz ≠ 0)))))))))))))) ∧
    (∃ f, f ∈ [fp32, bf16, fp16] ∧ (∃ (m x y z : Nat), m < 4 ∧ (x < 2 ^ (f.eb + f.fb + 1) ∧ (y < 2 ^ (f.eb + f.fb + 1) ∧ (z < 2 ^ (f.eb + f.fb + 1) ∧ (¬ Claims.isNan f x ∧ (¬ Claims.isNan f y ∧ ((let vx : ℚ := Claims.value f x
     (let vy : ℚ := Claims.value f y
     (let vz : ℚ := Claims.value f z
     Claims.finite f x ∧ (Claims.finite f y ∧ (Claims.finite f z ∧ (vx * vy + vz = 0)))))))))))))) ∧
    (∃ f, f ∈ [fp32, bf16, fp16] ∧ (∃ (m x y z : Nat), m < 4 ∧ (x < 2 ^ (f.eb + f.fb + 1) ∧ (y < 2 ^ (f.eb + f.fb + 1) ∧ (z < 2 ^ (f.eb + f.fb + 1) ∧ (¬ Claims.isNan f x ∧ (¬ Claims.isNan f y ∧ (Claims.finite f x ∧ (Claims.finite f y ∧ (Claims.isInf f z)))))))))) ∧
    (∃ f, f ∈ [fp32, bf16, fp16] ∧ (∃ (m x y z : Nat), m < 4 ∧ (x < 2 ^ (f.eb + f.fb + 1) ∧ (y < 2 ^ (f.eb + f.fb + 1) ∧ (z < 2 ^ (f.eb + f.fb + 1) ∧ (¬ Claims.isNan f x ∧ (¬ Claims.isNan f y ∧ ((let vx : ℚ := Claims.value f x
     (let vy : ℚ := Claims.value f y
     (Claims.isInf f x ∨ Claims.isInf f y) ∧ (((Claims.finite f x ∧ vx = 0) ∨ (Claims.finite f y ∧ vy = 0))))))))))))) ∧
    (∃ f, f ∈ [fp32, bf16, fp16] ∧ (∃ (m x y z : Nat), m < 4 ∧ (x < 2 ^ (f.eb + f.fb + 1) ∧ (y < 2 ^ (f.eb + f.fb + 1) ∧ (z < 2 ^ (f.eb + f.fb + 1) ∧ (¬ Claims.isNan f x ∧ (¬ Claims.isNan f y ∧ ((let vx : ℚ := Claims.value f x
     (let vy : ℚ := Claims.value f y
     (Claims.isInf f x ∨ Claims.isInf f y) ∧ ((¬ ((Claims.finite f x ∧ vx = 0) ∨ (Claims.finite f y ∧ vy = 0))) ∧ (¬ Claims.isNan f z)))))))))))) ∧
    (∃ f, f ∈ [fp32, bf16, fp16] ∧ (∃ (x y : Nat), x < 2 ^ (f.eb + f.fb + 1) ∧ (y < 2 ^ (f.eb + f.fb + 1) ∧ ((Claims.isNan f x ∨ Claims.isNan f y))))) ∧
    (∃ f, f ∈ [fp32, bf16, fp16] ∧ (∃ (x y : Nat), x < 2 ^ (f.eb + f.fb + 1) ∧ (y < 2 ^ (f.eb + f.fb + 1) ∧ (¬ Claims.isNan f x ∧ (¬ Claims.isNan f y))))) ∧
    (∃ p, p ∈ Claims.fpOps ∧ (∃ (d a b : RegF), ∃ (s : State), Issuing s ∧ ((Ready s (isScalar d) [src a, src b, if p.2.1 then srcDst d else dst d]) ∧ (fmtVec s < 3)))) :=
  ⟨⟨_, List.Mem.head _, 2, 0x3F800000, 0x3F800000, 0x3F800000, by decide +kernel, by decide +kernel, by decide +kernel, by decide +kernel,
     by decide +kernel, by decide +kernel, by decide +kernel⟩,
   ⟨_, List.Mem.head _, 2, 0x3F800000, 0xBF800000, 0x3F800000, by decide +kernel, by decide +kernel, by decide +kernel, by decide +kernel,
     by decide +kernel, by decide +kernel, by decide +kernel⟩,
   ⟨_, List.Mem.head _, 2, 0x3F800000, 0x3F800000, 0x3F800000, by decide +kernel, by decide +kernel, by decide +kernel, by decide +kernel,
     by decide +kernel, by decide +kernel, by decide +kernel⟩,
   ⟨_, List.Mem.head _, 2, 0, 0x3F800000, 0, by decide +kernel, by decide +kernel, by decide +kernel, by decide +kernel, by decide +kernel,
     by decide +kernel, by decide +kernel⟩,
   ⟨_, List.Mem.head _, 2, 0x7F800000, 0x3F800000, 0x3F800000, by decide +kernel⟩,
   ⟨_, List.Mem.head _, 2, 0x3F800000, 0x7F800000, 0x3F800000, by decide +kernel⟩,
   ⟨_, List.Mem.head _, 2, 0x3F800000, 0x3F800000, 0x3F800000, by decide +kernel, by decide +kernel, by decide +kernel, by decide +kernel,
     by decide +kernel, by decide +kernel, by decide +kernel⟩,
   ⟨_, List.Mem.head _, 2, 0x3F800000, 0xBF800000, 0x3F800000, by decide +kernel, by decide +kernel, by decide +kernel, by decide +kernel,
     by decide +kernel, by decide +kernel, by decide +kernel⟩,
   ⟨_, List.Mem.head _, 2, 0x3F800000, 0x3F800000, 0x7F800000, by decide +kernel⟩,
   ⟨_, List.Mem.head _, 2, 0, 0x7F800000, 0x3F800000, by decide +kernel, by decide +kernel, by decide +kernel, by decide +kernel,
     by decide +kernel, by decide +kernel, by decide +kernel⟩,
   ⟨_, List.Mem.head _, 2, 0x7F800000, 0x3F800000, 0x3F800000, by decide +kernel, by decide +kernel, by decide +kernel, by decide +kernel,
     by decide +kernel, by decide +kernel, by decide +kernel⟩,
   ⟨_, List.Mem.head _, 0x7FC00000, 0x3F800000, by decide +kernel⟩,
   ⟨_, List.Mem.head _, 0x3F800000, 0xBF800000, by decide +kernel⟩,
   ⟨_, List.Mem.head _, 4, 1, 3, w, issuing_of (by decide +kernel), ready_of (by decide +kernel), by decide +kernel⟩⟩

theorem met_SfuInstructionsEnterTheQueue :
    (∃ (w : Word), (let b := w.toNat
     Claims.isNan fp32 b)) ∧
    (∃ (w : Word), (let b := w.toNat
     Claims.isInf fp32 b)) ∧
    (∃ (w : Word), (let b := w.toNat
     (let x : ℚ := Claims.value fp32 b
     (let fin := Claims.finite fp32 b
     fin ∧ (x = 0))))) ∧
    (∃ (w : Word), (let b := w.toNat
     (let x : ℚ := Claims.value fp32 b
     (let fin := Claims.finite fp32 b
     fin ∧ (0 < x))))) ∧
    (∃ (w : Word), (let b := w.toNat
     (let x : ℚ := Claims.value fp32 b
     (let fin := Claims.finite fp32 b
     fin ∧ (x < 0))))) ∧
    (∃ (w : Word), (let b := w.toNat
     (let x : ℚ := Claims.value fp32 b
     (let fin := Claims.finite fp32 b
     fin ∧ (x = 1))))) ∧
    (∃ (w : Word), (let b := w.toNat
     (let x : ℚ := Claims.value fp32 b
     (let fin := Claims.finite fp32 b
     ∃ (k : ℤ), fin ∧ (x = k ∧ (x ≠ 0)))))) ∧
    (∃ (w : Word), (let b := w.toNat
     (let x : ℚ := Claims.value fp32 b
     (let fin := Claims.finite fp32 b
     ∃ (k : ℤ), fin ∧ (x = k + 1 / 2))))) ∧
    (∃ (w : Word), (let b := w.toNat
     (let x : ℚ := Claims.value fp32 b
     (let fin := Claims.finite fp32 b
     ∃ (k : ℤ), fin ∧ (x = k ∧ (-149 ≤ k ∧ (k ≤ 127))))))) ∧
    (∃ (w : Word), (let b := w.toNat
     (let x : ℚ := Claims.value fp32 b
     (let fin := Claims.finite fp32 b
     ∃ (k : ℤ), fin ∧ (x = k ∧ (127 < k)))))) ∧
    (∃ (w : Word), (let b := w.toNat
     (let x : ℚ := Claims.value fp32 b
     (let fin := Claims.finite fp32 b
     ∃ (k : ℤ), fin ∧ (x = 2 ^ k))))) ∧
    (∃ (a b : Word), (Claims.isNan fp32 a.toNat ∨ Claims.isNan fp32 b.toNat)) ∧
    (∃ (a b : Word), (let x : ℚ := Claims.value fp32 a.toNat
     (let y : ℚ := Claims.value fp32 b.toNat
     (let fin := fun (w : Word) => Claims.finite fp32 w.toNat
     fin a ∧ (fin b ∧ (x ≠ 0 ∧ (y ≠ 0))))))) ∧
    (∃ (a b : Word), (let x : ℚ := Claims.value fp32 a.toNat
     (let y : ℚ := Claims.value fp32 b.toNat
     (let fin := fun (w : Word) => Claims.finite fp32 w.toNat
     fin a ∧ (fin b ∧ (x = 0 ∧ (y = 0))))))) ∧
    (∃ (a b : Word), (let x : ℚ := Claims.value fp32 a.toNat
     (let y : ℚ := Claims.value fp32 b.toNat
     (let fin := fun (w : Word) => Claims.finite fp32 w.toNat
     fin a ∧ (fin b ∧ (x = 0 ∧ (y ≠ 0))))))) ∧
    (∃ (a b : Word), (let x : ℚ := Claims.value fp32 a.toNat
     (let y : ℚ := Claims.value fp32 b.toNat
     (let fin := fun (w : Word) => Claims.finite fp32 w.toNat
     fin a ∧ (fin b ∧ (x ≠ 0 ∧ (y = 0))))))) ∧
    (∃ (a b : Word), (let fin := fun (w : Word) => Claims.finite fp32 w.toNat
     fin a ∧ (Claims.isInf fp32 b.toNat))) ∧
    (∃ (a b : Word), Claims.isInf fp32 a.toNat ∧ (Claims.isInf fp32 b.toNat)) ∧
    (∃ (a b : Word), (let fin := fun (w : Word) => Claims.finite fp32 w.toNat
     Claims.isInf fp32 a.toNat ∧ (fin b))) ∧
    (∃ (m sum x : Word), (let has := fun (w : Word) => Claims.isNan fp32 w.toNat
     (has m ∨ has sum ∨ has x))) ∧
    (∃ (m sum x : Word), (let has := fun (w : Word) => Claims.isNan fp32 w.toNat
     ¬ has m ∧ (¬ has sum ∧ (x = 0xFF800000#32)))) ∧
    (∃ (m sum x : Word), (let has := fun (w : Word) => Claims.isNan fp32 w.toNat
     (let val := fun (w : Word) => Claims.extended fp32 w.toNat
     ¬ has m ∧ (¬ has sum ∧ (¬ has x ∧ (x ≠ 0xFF800000#32 ∧ (val x = val m))))))) ∧
    (∃ (m sum x : Word), (let has := fun (w : Word) => Claims.isNan fp32 w.toNat
     (let val := fun (w : Word) => Claims.extended fp32 w.toNat
     ¬ has m ∧ (¬ has sum ∧ (¬ has x ∧ (x ≠ 0xFF800000#32 ∧ (val m < val x))))))) ∧
    (∃ (m sum x : Word), (let has := fun (w : Word) => Claims.isNan fp32 w.toNat
     (let val := fun (w : Word) => Claims.extended fp32 w.toNat
     ¬ has m ∧ (¬ has sum ∧ (¬ has x ∧ (x ≠ 0xFF800000#32 ∧ (val x < val m))))))) ∧
    (∃ p, p ∈ ([(.sfuRcp, 0), (.sfuRsq, 1), (.sfuSqrt, 2), (.sfuExp2, 3), (.sfuLog2, 4), (.sfuSinp, 5), (.sfuCosp, 6), (.sfuTanh, 7), (.sfuSigm, 8),
           (.sfuExp, 9), (.sfuLog, 10)] : List ((Hd → RegF → RegF → Instr) × Nat)) ∧ (∃ (d a : RegF), ∃ (s : State), Issuing s ∧ (Ready s (isScalar d) [src a, dst d] ∧ ((vget [] (s.core s.myCore).sfu (schedOf s.team.tid)).length < 8 ∧ (pendCount s.team < 16))))) ∧
    (∃ (d a : RegF), ∃ (s : State), (let ops := [src a, { f := d.toNat, n := 2, ok := pairOk d, wr := true }]
     Issuing s ∧ (Ready s (isScalar d) ops ∧ ((vget [] (s.core s.myCore).sfu (schedOf s.team.tid)).length < 8 ∧ (pendCount s.team + 2 ≤ 16))))) ∧
    (∃ (d a b : RegF), ∃ (s : State), Issuing s ∧ (Ready s (isScalar d) [src a, srcPair b, dst d] ∧ ((vget [] (s.core s.myCore).sfu (schedOf s.team.tid)).length < 8 ∧ (pendCount s.team < 16)))) :=
  ⟨⟨0x7FC00000, by decide +kernel⟩,
   ⟨0x7F800000, by decide +kernel⟩,
   ⟨0, by decide +kernel⟩,
   ⟨0x3F800000, by decide +kernel⟩,
   ⟨0xBF800000, by decide +kernel⟩,
   ⟨0x3F800000, by decide +kernel⟩,
   ⟨0x43000000, 128, by decide +kernel⟩,
   ⟨0x3F000000, 0, by decide +kernel⟩,
   ⟨0, 0, by decide +kernel⟩,
   ⟨0x43000000, 128, by decide +kernel⟩,
   ⟨0x3F800000, 0, by decide +kernel⟩,
   ⟨0x7FC00000, 0x3F800000, by decide +kernel⟩,
   ⟨0x3F800000, 0xBF800000, by decide +kernel⟩,
   ⟨0, 0, by decide +kernel⟩,
   ⟨0, 0x3F800000, by decide +kernel⟩,
   ⟨0x3F800000, 0, by decide +kernel⟩,
   ⟨0x3F800000, 0x7F800000, by decide +kernel⟩,
   ⟨0x7F800000, 0x7F800000, by decide +kernel⟩,
   ⟨0x7F800000, 0x3F800000, by decide +kernel⟩,
   ⟨0x7FC00000, 0x3F800000, 0x3F800000, by decide +kernel⟩,
   ⟨0x3F800000, 0x3F800000, 0xFF800000, by decide +kernel⟩,
   ⟨0x3F800000, 0x3F800000, 0x3F800000, by decide +kernel⟩,
   ⟨0, 0x3F800000, 0x3F800000, by decide +kernel⟩,
   ⟨0x3F800000, 0x3F800000, 0, by decide +kernel⟩,
   ⟨_, List.Mem.head _, 4, 3, w, issuing_of (by decide +kernel), ready_of (by decide +kernel), by decide +kernel⟩,
   ⟨4, 3, w, issuing_of (by decide +kernel), ready_of (by decide +kernel), by decide +kernel⟩,
   ⟨4, 3, 1, w, issuing_of (by decide +kernel), ready_of (by decide +kernel), by decide +kernel⟩⟩

theorem met_FpUnaryPackingAndNanGiveTheirResult :
    (∃ p, p ∈ Claims.funOps ∧ (∃ (d a : RegF), ∃ (s : State), Issuing s ∧ (Ready s (isScalar d) [src a, dst d] ∧ (fmtVec s < 3)))) ∧
    (∃ p, p ∈ ([(.cvnPkh, fp16), (.cvnPkb, bf16)] : List ((Hd → RegF → RegF → Instr) × Fmt)) ∧ (∃ (d a : RegF), ∃ (s : State), Issuing s ∧ (Ready s (isScalar d) [srcPair a, dst d] ∧ (fmtSat s < 2)))) ∧
    (∃ p, p ∈ ([(.cvnUnph, 2), (.cvnUnpb, 1)] : List ((Hd → RegF → RegF → Instr) × Nat)) ∧ (∃ (d a : RegF), ∃ (s : State), Issuing s ∧ (Ready s (isScalar d) [src a, dstPair d]))) ∧
    (∃ (d a : RegF), ∃ (s : State), Issuing s ∧ ((Ready s (isScalar d) [srcQuad a, if fmtSblk s = 0 then dst d else srcDst d]) ∧ (maNarrow (fmtNf s) = true ∧ (fmtSat s < 2 ∧ (fmtSblk s < 3))))) ∧
    (∃ (d a : RegF), ∃ (s : State), Issuing s ∧ (Ready s (isScalar d) [src a, dstQuad d] ∧ (maNarrow (fmtNf s) = true))) ∧
    (∃ (vec x y : Nat), vec < 3 ∧ (((decodeFp (vecFmt vec) x).isNan = true ∨ (decodeFp (vecFmt vec) y).isNan = true))) ∧
    (∃ (vec z : Nat), vec < 3 ∧ ((decodeFp (vecFmt vec) z).isNan = true)) ∧
    (∃ (vec : Nat), ∃ (x y : Word × Bool), 1 ≤ vec ∧ (vec < 3 ∧ ((x.2 = true ∨ y.2 = true)))) ∧
    (∃ (vec : Nat), ∃ (z : Word × Bool), 1 ≤ vec ∧ (vec < 3 ∧ (z.2 = true))) :=
  ⟨⟨_, List.Mem.head _, 4, 3, w, issuing_of (by decide +kernel), ready_of (by decide +kernel), by decide +kernel⟩,
   ⟨_, List.Mem.head _, 4, 2, w, issuing_of (by decide +kernel), ready_of (by decide +kernel), by decide +kernel⟩,
   ⟨_, List.Mem.head _, 4, 3, w, issuing_of (by decide +kernel), ready_of (by decide +kernel)⟩,
   ⟨4, 0, atFpUnaryPackingAndNanGiveTheirResult2, issuing_of (by decide +kernel), ready_of (by decide +kernel), by decide +kernel⟩,
   ⟨4, 1, atFpUnaryPackingAndNanGiveTheirResult2, issuing_of (by decide +kernel), ready_of (by decide +kernel), by decide +kernel⟩,
   ⟨1, 0x7FC0, 0, by decide +kernel⟩,
   ⟨1, 0x7FC0, by decide +kernel⟩,
   ⟨1, (0, true), (0, false), by decide +kernel⟩,
   ⟨1, (0, true), by decide +kernel⟩⟩

theorem met_ShufflesScansAndTopkGiveTheirResult :
    (∃ p, p ∈ ([(.shfl, fun _ q => q), (.shfx, fun l q => Nat.xor l q)] : List ((Hd → RegF → RegF → RegF → Instr) × (Nat → Nat → Nat))) ∧ (∃ (d a b : RegF), ∃ (s : State), Issuing s ∧ (Ready s false [src a, src b, dst d] ∧ (d.toNat < 96 ∧ (pendCount s.team < 16))))) ∧
    (∃ p, p ∈ ([(.scanAdd, false, foldAdd), (.scanFadd, true, foldFadd), (.scanMin, false, foldMin), (.scanMax, false, foldMax), (.scanAnd, false, foldAnd),
           (.scanOr, false, foldOr), (.scanXor, false, foldXor)] : List ((Hd → RegF → RegF → Bool → Instr) × Bool × (List Word → Word))) ∧ (∃ (d a : RegF), ∃ (s : State), Issuing s ∧ (Ready s false [src a, dst d] ∧ (d.toNat < 96 ∧ (pendCount s.team < 16))))) ∧
    (∃ (d a b : RegF), ∃ (s : State), Issuing s ∧ (Ready s false [src a, src b, dstPair d] ∧ (d.toNat < 96 ∧ (96 ≤ b.toNat ∧ (1 ≤ (rdu s b).toNat ∧ ((rdu s b).toNat ≤ 8 ∧ ((rdu s b).toNat ≤ tileSize s.team.ptile.toNat ∧ (pendCount s.team + 2 ≤ 16)))))))) ∧
    (∃ (d a : RegF), ∃ (s : State), Issuing s ∧ (Ready s false [src a, dst d] ∧ (d.toNat < 96 ∧ (maNarrow (fmtNf s) = true ∧ (pendCount s.team < 16))))) :=
  ⟨⟨_, List.Mem.head _, 4, 1, 2, w, issuing_of (by decide +kernel), ready_of (by decide +kernel), by decide +kernel⟩,
   ⟨_, List.Mem.head _, 4, 1, w, issuing_of (by decide +kernel), ready_of (by decide +kernel), by decide +kernel⟩,
   ⟨4, 1, 97, w, issuing_of (by decide +kernel), ready_of (by decide +kernel), by decide +kernel⟩,
   ⟨4, 1, atFpUnaryPackingAndNanGiveTheirResult2, issuing_of (by decide +kernel), ready_of (by decide +kernel), by decide +kernel⟩⟩

theorem met_VotesAndReductionsGiveTheirResult :
    (∃ p, p ∈ ([(.voteAny, fun _ vals _ => boolWord (vals.any fun x => x.2 != 0)),
           (.voteAll, fun _ vals _ => boolWord (vals.all fun x => x.2 != 0)),
           (.voteBallot, fun sc vals l => ballot sc vals l),
           (.voteCnt, fun _ vals _ => w32 (vals.countP fun x => x.2 != 0)),
           (.voteUni, fun _ vals _ => boolWord (vals.all fun x => x.2 == (vals.headD (0, 0)).2)),
           (.voteFirst, fun _ vals _ => (vals.headD (0, 0)).2)] : List ((Hd → RegF → RegF → Instr) × (Bool → List (Nat × Word) → Nat → Word))) ∧ (∃ (d a : RegF), ∃ (s : State), Issuing s ∧ (Ready s false [src a, dst d] ∧ (pendCount s.team < 16)))) ∧
    (∃ p, p ∈ ([(.redAdd, false, foldAdd), (.redFadd, true, foldFadd), (.redMin, false, foldMin), (.redMax, false, foldMax), (.redAnd, false, foldAnd),
           (.redOr, false, foldOr), (.redXor, false, foldXor)] : List ((Hd → RegF → RegF → Instr) × Bool × (List Word → Word))) ∧ (∃ (d a : RegF), ∃ (s : State), Issuing s ∧ (Ready s false [src a, dst d] ∧ (pendCount s.team < 16)))) ∧
    (∃ p, p ∈ ([(.redMaxi, rankMax), (.redMini, rankMin)] : List ((Hd → RegF → RegF → Instr) × (List (Nat × Word) → Nat × Word))) ∧ (∃ (d a : RegF), ∃ (s : State), Issuing s ∧ (Ready s false [src a, dstPair d] ∧ (pendCount s.team + 2 ≤ 16)))) :=
  ⟨⟨_, List.Mem.head _, 4, 1, w, issuing_of (by decide +kernel), ready_of (by decide +kernel), by decide +kernel⟩,
   ⟨_, List.Mem.head _, 4, 1, w, issuing_of (by decide +kernel), ready_of (by decide +kernel), by decide +kernel⟩,
   ⟨_, List.Mem.head _, 4, 1, w, issuing_of (by decide +kernel), ready_of (by decide +kernel), by decide +kernel⟩⟩

theorem met_ExitRetiresTheActiveLanes :
    (∃ (s : State), Issuing s ∧ (s.team.hmode = false)) ∧
    (∃ (s : State), Issuing s ∧ (s.team.hmode = true)) ∧
    (∃ (s : State), s.team.present = true ∧ (s.sel.unit = s.team.tid ∧ (s.team.park = .exit ∧ (s.team.pend = [] ∧ ((∀ k ∈ s.team.stores, k.lanes &&& s.team.active = 0) ∧ (s.team.events = [] ∧ (∃ (dropped rest : List REntry), ∃ (e : REntry), s.team.live &&& ~~~ s.team.active ≠ 0 ∧ (s.team.rstack = dropped ++ e :: rest ∧ ((∀ x ∈ dropped, x.mask &&& (s.team.live &&& ~~~ s.team.active) = 0) ∧ (e.mask &&& (s.team.live &&& ~~~ s.team.active) ≠ 0)))))))))) ∧
    (∃ (s : State), s.team.present = true ∧ (s.sel.unit = s.team.tid ∧ (s.team.park = .exit ∧ (s.team.pend = [] ∧ ((∀ k ∈ s.team.stores, k.lanes &&& s.team.active = 0) ∧ (s.team.events = [] ∧ (s.team.live &&& ~~~ s.team.active = 0 ∧ (mget? s.teams s.team.tid = none)))))))) ∧
    (∃ (s : State), s.team.present = true ∧ (s.sel.unit = s.team.tid ∧ (s.team.park = .exit ∧ (s.team.pend = [] ∧ ((∀ k ∈ s.team.stores, k.lanes &&& s.team.active = 0) ∧ (s.team.events = [] ∧ (s.team.live &&& ~~~ s.team.active ≠ 0 ∧ ((∀ x ∈ s.team.rstack, x.mask &&& (s.team.live &&& ~~~ s.team.active) = 0))))))))) :=
  ⟨⟨w, issuing_of (by decide +kernel), by decide +kernel⟩,
   ⟨atExitRetiresTheActiveLanes2, issuing_of (by decide +kernel), by decide +kernel⟩,
   ⟨atExitRetiresTheActiveLanes3, by decide +kernel, by decide +kernel, by decide +kernel, by decide +kernel, by decide +kernel,
     by decide +kernel, [⟨true, 0x40, 16, 2⟩], [⟨true, 0x40, 1, 2⟩], ⟨true, 0x4000, 12, 2⟩, by decide +kernel⟩,
   ⟨atExitRetiresTheActiveLanes3b, by decide +kernel⟩,
   ⟨atExitRetiresTheActiveLanes3d, by decide +kernel⟩⟩

theorem met_BranchesSplitAndGoWhereTheySay :
    (∃ (s : State), Issuing s) ∧
    (∃ p, p ∈ ([(.braNz, fun w => w != 0), (.braZ, fun w => w == 0)] : List ((Hd → RegF → Word → Instr) × (Word → Bool))) ∧ (∃ (a : RegF), ∃ (s : State), Issuing s ∧ (Ready s false [src a] ∧ (96 ≤ a.toNat)))) ∧
    (∃ p, p ∈ ([(.brd, fun w => w != 0), (.brdZ, fun w => w == 0)] : List ((Hd → RegF → Word → Instr) × (Word → Bool))) ∧ (∃ (a : RegF), ∃ (s : State), Issuing s ∧ (Ready s false [src a] ∧ ((Claims.takenBy s a p.2 = s.team.active ∨ Claims.takenBy s a p.2 = 0 ∨ s.team.rstack.length < 64))))) :=
  ⟨⟨w, issuing_of (by decide +kernel)⟩,
   ⟨_, List.Mem.head _, 97, w, issuing_of (by decide +kernel), ready_of (by decide +kernel), by decide +kernel⟩,
   ⟨_, List.Mem.head _, 1, w, issuing_of (by decide +kernel), ready_of (by decide +kernel), by decide +kernel⟩⟩

theorem met_StacksAndSyncRestoreTheirMasks :
    (∃ (s : State), Issuing s ∧ (s.team.rstack.length < 64)) ∧
    (∃ (s : State), Issuing s ∧ (s.team.cstack.length < 16)) ∧
    (∃ (pc : VAddr), ∃ (rest : List VAddr), ∃ (s : State), Issuing s ∧ (s.team.cstack = pc :: rest)) ∧
    (∃ p, p ∈ ([(.brx, false), (.brxCall, true)] : List ((Hd → RegF → Instr) × Bool)) ∧ (∃ (a : RegF), ∃ (s : State), (let v := rdPair s a (lowestLane s.team.active)
     Issuing s ∧ (Ready s false [srcPair a] ∧ (isScalar a = true ∧ (v.toNat < 2 ^ 57 ∧ (v.toNat % 4 = 0 ∧ ((p.2 = true → s.team.cstack.length < 16))))))))) ∧
    (∃ (s : State), ∃ (dropped rest : List REntry), ∃ (e : REntry), Issuing s ∧ (s.team.rstack = dropped ++ e :: rest ∧ ((∀ x ∈ dropped, x.mask &&& s.team.live = 0) ∧ (e.mask &&& s.team.live ≠ 0)))) ∧
    (∃ (s : State), (∀ x ∈ s.team.rstack, x.mask &&& s.team.live = 0)) :=
  ⟨⟨w, issuing_of (by decide +kernel), by decide +kernel⟩,
   ⟨w, issuing_of (by decide +kernel), by decide +kernel⟩,
   ⟨0x77, [5], atStacksAndSyncRestoreTheirMasks3, issuing_of (by decide +kernel), by decide +kernel⟩,
   ⟨_, List.Mem.head _, 98, atStacksAndSyncRestoreTheirMasks4, issuing_of (by decide +kernel), ready_of (by decide +kernel), by decide +kernel⟩,
   ⟨atStacksAndSyncRestoreTheirMasks5, [⟨true, 0x40, 16, 2⟩], [⟨true, 0x40, 1, 2⟩], ⟨true, 0x4000, 12, 2⟩, issuing_of (by decide +kernel),
     by decide +kernel⟩,
   ⟨atStacksAndSyncRestoreTheirMasks6, by decide +kernel⟩⟩

theorem met_TrapsAreEnteredAndReturnedFrom :
    (∃ (s : State), ∃ (r : TrapReq), ∃ (hd : VAddr), (let q := Claims.sel s
     s.hasTeam s.sel.unit = true ∧ (q.team.park = .trap ∧ (q.team.trapReq = some r ∧ (q.team.pend = [] ∧ (q.team.stores = [] ∧ (q.team.hmode = false ∧ (q.team.handler = some hd ∧ (q.team.nregs ≤ 248))))))))) ∧
    (∃ (s : State), ∃ (r : TrapReq), (let q := Claims.sel s
     s.hasTeam s.sel.unit = true ∧ (q.team.park = .trap ∧ (q.team.trapReq = some r ∧ (q.team.pend = [] ∧ (q.team.stores = [] ∧ (q.team.hmode = true))))))) ∧
    (∃ (s : State), ∃ (r : TrapReq), (let q := Claims.sel s
     s.hasTeam s.sel.unit = true ∧ (q.team.park = .trap ∧ (q.team.trapReq = some r ∧ (q.team.pend = [] ∧ (q.team.stores = [] ∧ (q.team.hmode = false ∧ (q.team.handler = none)))))))) ∧
    (∃ p, p ∈ ([(.rett, false), (.rettSkip, true)] : List ((Hd → Instr) × Bool)) ∧ (∃ (s : State), Issuing s ∧ (s.team.hmode = false))) ∧
    (∃ p, p ∈ ([(.rett, false), (.rettSkip, true)] : List ((Hd → Instr) × Bool)) ∧ (∃ (s : State), (let k := s.team.trap
     Issuing s ∧ (s.team.hmode = true ∧ ((∃ v ∈ rettTargets k p.2, v.toNat % 4 ≠ 0)))))) ∧
    (∃ p, p ∈ ([(.rett, false), (.rettSkip, true)] : List ((Hd → Instr) × Bool)) ∧ (∃ (s : State), (let k := s.team.trap
     Issuing s ∧ (s.team.hmode = true ∧ ((∀ v ∈ rettTargets k p.2, v.toNat % 4 = 0) ∧ ((k.jobctl = true ∨ k.tcause.toNat % 64 ≠ cENGFAULT))))))) :=
  ⟨⟨atTrapsAreEnteredAndReturnedFrom1, wReq, 0x5000, by decide +kernel⟩,
   ⟨atTrapsAreEnteredAndReturnedFrom2, wReq, by decide +kernel⟩,
   ⟨atTrapsAreEnteredAndReturnedFrom2b, wReq, by decide +kernel⟩,
   ⟨_, List.Mem.head _, w, issuing_of (by decide +kernel), by decide +kernel⟩,
   ⟨_, List.Mem.head _, atTrapsAreEnteredAndReturnedFrom3c, issuing_of (by decide +kernel), by decide +kernel, misaligned_of (by decide +kernel)⟩,
   ⟨_, List.Mem.head _, atTrapsAreEnteredAndReturnedFrom3, issuing_of (by decide +kernel), by decide +kernel, aligned_of (by decide +kernel),
     by decide +kernel⟩⟩

theorem met_SystemRegistersAreReadAndWritten :
    (∃ p, p ∈ ([(0x00, false, fun s => s.team.tstat), (0x01, true, fun s => s.team.trap.tpc.extractLsb' 0 32),
           (0x02, true, fun s => (s.team.trap.tpc.extractLsb' 32 25).zeroExtend 32), (0x03, true, fun s => s.team.trap.tnext.extractLsb' 0 32),
           (0x04, true, fun s => (s.team.trap.tnext.extractLsb' 32 25).zeroExtend 32), (0x05, true, fun s => s.team.trap.tcause),
           (0x06, true, fun s => s.team.trap.tjob), (0x0A, false, fun s => w32 s.prlate), (0x0B, false, fun s => w32 (s.myCtx % 2 ^ 16)),
           (0x0C, false, fun s => w32 s.myBlock.voff), (0x0D, false, fun s => gstatWord s.myGrid),
           (0x0E, true, fun s => s.team.trap.tfaddr.extractLsb' 0 32), (0x0F, true, fun s => s.team.trap.tfaddr.extractLsb' 32 32),
           (0x10, false, fun s => s.team.rwc.extractLsb' 0 32), (0x11, false, fun s => s.team.rwc.extractLsb' 32 32),
           (0x12, true, fun s => s.cecount), (0x13, true, fun s => s.team.trap.ivlo),
           (0x18, false, fun s => if s.myBlock.matuse then (s.core s.myCore).mat.mstat else 0)] : List (BitVec 6 × Bool × (State → Word))) ∧ (∃ (d : RegF), ∃ (s : State), Issuing s ∧ (Ready s true [dst d] ∧ (isScalar d = true ∧ ((p.2.1 = true → s.team.hmode = true)))))) ∧
    (∃ (a : RegF), ∃ (s : State), Issuing s ∧ (Ready s true [src a] ∧ (s.myBlock.matuse = true))) ∧
    (∃ (a : RegF), ∃ (s : State), Issuing s ∧ (Ready s true [src a] ∧ (s.team.hmode = true))) ∧
    (∃ (s : State), s.hasTeam s.sel.unit = true) ∧
    (∃ (s : State), s.hasTeam s.sel.unit = true ∧ ((Claims.sel s).myBlock.matuse = true)) ∧
    (∃ (s : State), s.hasTeam s.sel.unit = true) ∧
    (∃ p, p ∈ ([(.jobctlResume, true), (.jobctlAbandon, false)] : List (Instr × Bool)) ∧ (∃ (s : State), s.hasTeam s.sel.unit = true ∧ ((Claims.sel s).team.hmode = true))) ∧
    (∃ p, p ∈ ([(.ivhiInvalidatePage, false), (.ivhiInvalidateAll, true)] : List (Instr × Bool)) ∧ (∃ (s : State), ∃ (va : Nat), s.hasTeam s.sel.unit = true ∧ ((Claims.sel s).team.park = .inval p.2 va))) :=
  ⟨⟨_, List.Mem.head _, 98, atTrapsAreEnteredAndReturnedFrom3, issuing_of (by decide +kernel), ready_of (by decide +kernel), by decide +kernel⟩,
   ⟨97, atSystemRegistersAreReadAndWritten2, issuing_of (by decide +kernel), ready_of (by decide +kernel), by decide +kernel⟩,
   ⟨97, atSystemRegistersAreReadAndWritten2, issuing_of (by decide +kernel), ready_of (by decide +kernel), by decide +kernel⟩,
   ⟨atSystemRegistersAreReadAndWritten3, by decide +kernel⟩,
   ⟨atSystemRegistersAreReadAndWritten4, by decide +kernel⟩,
   ⟨atSystemRegistersAreReadAndWritten5, by decide +kernel⟩,
   ⟨_, List.Mem.head _, atTrapsAreEnteredAndReturnedFrom3, by decide +kernel⟩,
   ⟨_, List.Mem.head _, atSystemRegistersAreReadAndWritten7, 0x5000, by decide +kernel⟩⟩

theorem met_HandlersAreServed :
    (∃ i, i ∈ ([0x01, 0x02, 0x03, 0x04, 0x05, 0x06, 0x07, 0x08, 0x09, 0x0E, 0x0F, 0x12, 0x13, 0x14] : List (BitVec 6)) ∧ (∃ (s : State), s.team.hmode = false ∧ (∃ d, Ready s true [dst d] ∧ (isScalar d = true)))) ∧
    (∃ i, i ∈ ([0x01, 0x02, 0x03, 0x04, 0x05, 0x06, 0x07, 0x08, 0x09, 0x0E, 0x0F, 0x12, 0x13, 0x14] : List (BitVec 6)) ∧ (∃ (s : State), s.team.hmode = false ∧ (∃ a, Ready s true [src a]))) ∧
    (∃ (s : State), ∃ (level va pa : Nat), level ≤ 1 ∧ (entryFrom s va level 6 (s.ctx s.myCtx).root = some pa ∧ ((let e := leNat (readPa s pa 8)
     (let type := e / 2 ^ 9 % 8
     type = 2))))) ∧
    (∃ (s : State), ∃ (level va pa : Nat), level ≤ 1 ∧ (entryFrom s va level 6 (s.ctx s.myCtx).root = some pa ∧ ((let e := leNat (readPa s pa 8)
     (let type := e / 2 ^ 9 % 8
     (let c := s.ctx s.myCtx
     type ≠ 2 ∧ ((type ≠ 3 ∨ (if level = 0 then c.pool4 else c.pool64) = [])))))))) ∧
    (∃ (s : State), ∃ (level va pa : Nat), level ≤ 1 ∧ (entryFrom s va level 6 (s.ctx s.myCtx).root = some pa ∧ ((let e := leNat (readPa s pa 8)
     (let type := e / 2 ^ 9 % 8
     (let c := s.ctx s.myCtx
     (let size := if level = 0 then 4096 else 65536
     ∃ (f : Nat), ∃ (rest : List Nat), type = 3 ∧ (((if level = 0 then c.pool4 else c.pool64) = f :: rest) ∧ (f % size = 0 ∧ (f < 2 ^ 56 ∧ (s.split % 4096 = 0 ∧ (Memory.wf s.mem = true ∧ ((∀ i < size, ∃ k, paKind s.split (f + i) = .hbm k) ∧ ((∀ i < 8, ∃ k, paKey s (pa + i) = some k ∧ ∀ j < size, paKey s (f + j) ≠ some k) ∧ ((∀ i l, mget? (s.core s.myCore).lines i = some l →
             l.written &&& ~~~ l.valid = 0 ∧ i / 8 = l.tag % 256 ∧ ∀ j m, mget? (s.core s.myCore).lines j = some m → m.tag = l.tag → i = j)))))))))))))))) ∧
    (∃ (s : State), ∃ (level va : Nat), entryFrom s va level 6 (s.ctx s.myCtx).root = none) ∧
    (∃ (s : State), ∃ (reg : Nat), s.hasTeam s.sel.unit = true ∧ ((Claims.sel s).team.park = .ftmap reg ∧ ((let q := Claims.sel s
     (let pages := faultPages q.team fun f => f.ptype == 3 && decide (f.level ≤ 1)
     (∀ p ∈ pages, walkReaches q q.myCore q.myCtx p.2 = true)))))) ∧
    (∃ (s : State), ∃ (reg : Nat), ∃ (todo : List (Nat × Nat × Nat)), ∃ (refused : Mask), s.hasTeam s.sel.unit = true ∧ ((Claims.sel s).team.park = .hostreq reg todo refused)) :=
  ⟨⟨_, List.Mem.head _, w, by decide +kernel, 98, ready_of (by decide +kernel), by decide +kernel⟩,
   ⟨_, List.Mem.head _, w, by decide +kernel, 98, ready_of (by decide +kernel)⟩,
   ⟨atHandlersAreServed2, 0, 0, 0x25000, by decide +kernel, by decide +kernel, by decide +kernel⟩,
   ⟨atHandlersAreServed2b, 0, 0, 0x25000, by decide +kernel, by decide +kernel, by decide +kernel⟩,
   ⟨atHandlersAreServed2c, 0, 0, 0x25000, by decide +kernel, by decide +kernel, 0x40000, [0x50000], by decide +kernel, by decide +kernel,
     by decide +kernel, by decide +kernel, by decide +kernel, by decide +kernel, hbm_all (by decide +kernel), apart (by decide +kernel),
     no_lines2 (by decide +kernel)⟩,
   ⟨w, 0, 0, by decide +kernel⟩,
   ⟨atHandlersAreServed4, 512, by decide +kernel, by decide +kernel, by decide +kernel⟩,
   ⟨atHandlersAreServed5, 512, [(5,1,0), (6,0,1)], 3, by decide +kernel⟩⟩

theorem met_ACoreReadsItsOwnStores :
    (∃ (core pa k : Nat), ∃ (bs : List Byte), ∃ (s : State), s.split % 4096 = 0 ∧ (s.split ≤ 80000000000 ∧ (paKind s.split pa = .hbm k ∧ (pa % 128 + bs.length ≤ 128 ∧ ((∀ i c, mget? (s.core core).lines i = some c → c.written &&& ~~~ c.valid = 0)))))) :=
   ⟨1, 0x10010, hbmKey 0 0x1010, [1,2,3,4], wMem, by decide +kernel, by decide +kernel, by decide +kernel, by decide +kernel,
     no_lines (by decide +kernel)⟩

theorem met_ResultsLandAndStoresAreAccepted :
    (∃ (s : State), ∃ (p : Pend), s.hasTeam s.sel.unit = true ∧ ((let q := Claims.sel s
     (q.team.pend.find? fun x => x.tag == s.sel.sub) = some p ∧ (p.missing = 0 ∧ (p.due ≤ s.ac ∧ ((((vget [] (q.core q.myCore).sfu (schedOf q.team.tid)).drop 1).any fun e => e.tag == s.sel.sub) = false ∧ ((∀ f, p.far = some f → ∀ l ∈ f.lanes, q.reaches q.myCore l.2.1 = true) ∧ ((∀ w, q.team.park ≠ .wbarDrain w) ∧ ((∀ w ∈ p.writes, regNamed w.reg)))))))))) ∧
    (∃ (s : State), ∃ (k : Token), s.hasTeam s.sel.unit = true ∧ ((let q := Claims.sel s
     (q.team.stores.find? fun x => x.tag == s.sel.sub) = some k ∧ (k.left = 0 ∧ (k.due ≤ s.ac ∧ ((∀ f, k.far = some f → ∀ l ∈ f.lanes, q.reaches q.myCore l.2.1 = true) ∧ ((∀ w, q.team.park ≠ .wbarDrain w) ∧ ((∀ b ∈ s.blocks, ∀ x ∈ b.2.tokens, x.tag ≠ s.sel.sub))))))))) ∧
    (∃ (s : State), ∃ (k : Token), ∃ (blk : Nat), ∃ (b : Block), s.hasTeam s.sel.unit = false ∧ (mget? s.blocks blk = some b ∧ ((s.blocks.map (·.1)).Nodup ∧ ((∀ c ∈ s.blocks, c.1 ≠ blk → ∀ x ∈ c.2.tokens, x.tag ≠ s.sel.sub) ∧ ((b.tokens.filter fun x => x.tag == s.sel.sub) = [k] ∧ (k.left = 0 ∧ (k.due ≤ s.ac ∧ ((∀ f, k.far = some f → ∀ l ∈ f.lanes, s.reaches b.core l.2.1 = true))))))))) :=
  ⟨⟨atResultsLandAndStoresAreAccepted1, { tag := 3, pc := 4, regs := [5], writes := [⟨0, 5, 77⟩, ⟨1, 5, 78⟩], acq := some 3, credit := true },
     by decide +kernel, by decide +kernel, by decide +kernel, by decide +kernel, by decide +kernel, by decide +kernel,
     not_drain (by decide +kernel), named_of (by decide +kernel)⟩,
   ⟨atResultsLandAndStoresAreAccepted2, { tag := 3, credit := true }, by decide +kernel, by decide +kernel, by decide +kernel, by decide +kernel,
     by decide +kernel, not_drain (by decide +kernel), by decide +kernel⟩,
   ⟨atResultsLandAndStoresAreAccepted3, { tag := 3, credit := true, left := 0 }, 0,
     { phase := .running, credits := 1, tokens := [{ tag := 3, credit := true, left := 0 }] }, by decide +kernel, by decide +kernel,
     by decide +kernel, by decide +kernel, by decide +kernel, by decide +kernel, by decide +kernel, fun _ h => by cases h⟩⟩

theorem met_VaultAccessesMoveTheirBytes :
    (∃ (d a b : RegF), ∃ (l : Word), ∃ (s : State), ∃ (r : Block), (let u := isScalar d
     (let ops := [src a, dataOpnd false d (widthOf b)]
     (let lanes := execLanes s u
     Issuing s ∧ (Ready s u ops ∧ (litScope l < 6 ∧ (litOrd l < 2 ∧ (acqPending s.team = false ∧ (vaultRegion s b l = some r ∧ (Claims.vaultFits s u a b l r ∧ ((∀ n ∈ lanes, ∀ i < widthOf b,
           (s.core r.core).absent.contains ((r.voff + (laneOff (rdv s a n) (vaultDisp b l)).toNat + i) / 128) = false) ∧ ((∀ n ∈ lanes, badAt s (Claims.vaultAt s a b l r n) (widthOf b) = false) ∧ (pendCount s.team + dataRegs (widthOf b) ≤ 16))))))))))))) ∧
    (∃ (d a b : RegF), ∃ (l : Word), ∃ (s : State), ∃ (r : Block), (let u := isScalar d
     (let ops := [src a, dataOpnd true d (widthOf b)]
     (let lanes := execLanes s u
     Issuing s ∧ (Ready s u ops ∧ (litScope l < 6 ∧ ((litOrd l = 0 ∨ litOrd l = 2 ∧ memDrained s.team = true) ∧ (acqPending s.team = false ∧ (vaultRegion s b l = some r ∧ (Claims.vaultFits s u a b l r ∧ (lanes ≠ []))))))))))) ∧
    (∃ p, p ∈ ([(.ldv, false), (.stv, true)] : List ((Hd → RegF → RegF → RegF → Word → Instr) × Bool)) ∧ (∃ (d a b : RegF), ∃ (l : Word), ∃ (s : State), ∃ (r : Block), (let u := isScalar d
     (let w := widthOf b
     (let ops := [src a, dataOpnd p.2 d w]
     (let fault := Claims.vaultFault s (if p.2 then 1 else 0) (vaultDisp b l) w a r
     (let faults := Claims.faulting s u fault
     (let done := Claims.passing s u fault
     (let at_ := Claims.vaultAt s a b l r
     Issuing s ∧ (Ready s u ops ∧ (litScope l < 6 ∧ ((litOrd l = 0 ∨ litOrd l = (if p.2 then 2 else 1) ∧ (p.2 = true → memDrained s.team = true)) ∧ (acqPending s.team = false ∧ (vaultRegion s b l = some r ∧ (faults ≠ [] ∧ ((p.2 = false → ∀ n ∈ done, ∀ i < w,
           (s.core r.core).absent.contains ((r.voff + (laneOff (rdv s a n) (vaultDisp b l)).toNat + i) / 128) = false) ∧ ((∀ n ∈ done, atomWaits s (at_ n) w = false) ∧ ((p.2 = false → done ≠ [] → pendCount s.team + dataRegs w ≤ 16))))))))))))))))))) ∧
    (∃ (d a b : RegF), ∃ (l : Word), ∃ (s : State), ∃ (r : Block), ∃ (n i : Nat), (let u := isScalar d
     (let w := widthOf b
     (let fault := Claims.vaultFault s 0 (vaultDisp b l) w a r
     (let line := fun n i => (r.voff + (laneOff (rdv s a n) (vaultDisp b l)).toNat + i) / 128
     Issuing s ∧ (Ready s u [src a, dataOpnd false d w] ∧ (litScope l < 6 ∧ (litOrd l < 2 ∧ (acqPending s.team = false ∧ (vaultRegion s b l = some r ∧ (n ∈ Claims.passing s u fault ∧ (i < w ∧ ((s.core r.core).absent.contains (line n i) = true))))))))))))) :=
  ⟨⟨4, 1, 0, 3, wMem, wMem.myBlock, issuing_of (by decide +kernel), ready_of (by decide +kernel), by decide +kernel, by decide +kernel,
     by decide +kernel, by decide +kernel, by unfold Claims.vaultFits; decide +kernel, by decide +kernel⟩,
   ⟨2, 1, 0x0C, 0, wMem, wMem.myBlock, issuing_of (by decide +kernel), ready_of (by decide +kernel), by decide +kernel, by decide +kernel,
     by decide +kernel, by decide +kernel, by unfold Claims.vaultFits; decide +kernel, by decide +kernel⟩,
   ⟨_, List.Mem.head _, 4, 1, 0x08, 0, wBent, wMem.myBlock, issuing_of (by decide +kernel), ready_of (by decide +kernel), by decide +kernel⟩,
   ⟨4, 1, 0x08, 0, wAbsent, wMem.myBlock, 0, 0, issuing_of (by decide +kernel), ready_of (by decide +kernel), by decide +kernel⟩⟩

theorem met_GlobalAccessesMoveTheirBytes :
    (∃ (d a b : RegF), ∃ (l : Word), ∃ (s : State), ∃ (pa : Nat → Nat), ∃ (ncm : Nat → Bool), (let u := isScalar d
     (let ops := [src a, dataOpnd false d (widthOf b)]
     (let lanes := execLanes s u
     s.split % 4096 = 0 ∧ (Issuing s ∧ (Ready s u ops (some (xrOf b)) ∧ (litScope l < 6 ∧ (litOrd l < 2 ∧ (acqPending s.team = false ∧ (lanes ≠ [] ∧ ((∀ n ∈ lanes, Claims.globalAccess s .load a b l n = .ok (pa n) (ncm n)) ∧ ((∀ n ∈ lanes, eccOf s s.myCore (pa n) (widthOf b) = none) ∧ ((∀ n ∈ lanes, ∀ k, paKey s (pa n) = some k → atomWaits s k (widthOf b) = false) ∧ (pendCount s.team + dataRegs (widthOf b) ≤ 16)))))))))))))) ∧
    (∃ (d a b : RegF), ∃ (l : Word), ∃ (s : State), ∃ (pa : Nat → Nat), ∃ (ncm : Nat → Bool), (let u := isScalar d
     (let ops := [src a, dataOpnd true d (widthOf b)]
     (let lanes := execLanes s u
     s.split % 4096 = 0 ∧ (Issuing s ∧ (Ready s u ops (some (xrOf b)) ∧ (litScope l < 6 ∧ ((litOrd l = 0 ∨ litOrd l = 2 ∧ memDrained s.team = true) ∧ (acqPending s.team = false ∧ (lanes ≠ [] ∧ ((∀ n ∈ lanes, Claims.globalAccess s .store a b l n = .ok (pa n) (ncm n)) ∧ ((∀ n ∈ lanes, ∀ k, paKey s (pa n) = some k → atomWaits s k (widthOf b) = false))))))))))))) ∧
    (∃ p, p ∈ ([(.ldg, .load), (.stg, .store)] : List ((Hd → RegF → RegF → RegF → Word → Instr) × Need)) ∧ (∃ (d a b : RegF), ∃ (l : Word), ∃ (s : State), ∃ (leaf : Nat → WalkRes), (let u := isScalar d
     (let st := decide (p.2 = .store)
     (let w := widthOf b
     (let ops := [src a, dataOpnd st d w]
     (let x := xreg s.team (xrOf b)
     (let va := fun n => (x.base + BitVec.ofInt 57 (laneOff (rdv s a n) (litDisp l))).toNat
     (let fault := Claims.globalFault s p.2 (litDisp l) w a x leaf
     (let faults := Claims.faulting s u fault
     (let done := Claims.passing s u fault
     s.split % 4096 = 0 ∧ (Issuing s ∧ (Ready s u ops (some (xrOf b)) ∧ (litScope l < 6 ∧ ((litOrd l = 0 ∨ litOrd l = (if st then 2 else 1) ∧ (st = true → memDrained s.team = true)) ∧ (acqPending s.team = false ∧ (faults ≠ [] ∧ ((∀ n ∈ execLanes s u, Claims.misses s (litDisp l) w a x n → leafOf s (va n) = some (leaf n)) ∧ ((∀ n ∈ done, ∀ pa nc k, laneAccess s p.2 x (laneOff (rdv s a n) (litDisp l)) w n = .ok pa nc → paKey s pa = some k → atomWaits s k w = false) ∧ ((st = false → done ≠ [] → pendCount s.team + dataRegs w ≤ 16))))))))))))))))))))) :=
  ⟨⟨4, 1, 0x0C, 0, wMem, fun n => 0x10000 + 8 * n, fun _ => false, by decide +kernel, issuing_of (by decide +kernel),
     by exact readyX_of (by decide +kernel) (by decide +kernel), by decide +kernel, by decide +kernel,
     by decide +kernel, by decide +kernel, by decide +kernel, by decide +kernel, waits_of (by decide +kernel), by decide +kernel⟩,
   ⟨2, 1, 0x0C, 0, wMem, fun n => 0x10000 + 8 * n, fun _ => false, by decide +kernel, issuing_of (by decide +kernel),
     by exact readyX_of (by decide +kernel) (by decide +kernel), by decide +kernel, by decide +kernel,
     by decide +kernel, by decide +kernel, by decide +kernel, waits_of (by decide +kernel)⟩,
   ⟨_, List.Mem.head _, 4, 1, 0x08, 0, wBent, fun _ => { page := 0 }, by decide +kernel, issuing_of (by decide +kernel),
     by exact readyX_of (by decide +kernel) (by decide +kernel), by decide +kernel, by decide +kernel,
     by decide +kernel, by decide +kernel, by unfold Claims.misses; decide +kernel, fun _ _ _ _ _ _ _ => atomWaits_none (by decide +kernel) _ _,
     by decide +kernel⟩⟩

theorem met_TranslationPresenceAndSpillComplete :
    (∃ (d a b : RegF), ∃ (s : State), ∃ (r : WalkRes), (let k := d.toNat
     (let va := (rdPair s a (lowestLane s.team.active)).extractLsb' 0 57
     Issuing s ∧ (Ready s false [srcPair a, src b] (some k) ∧ (k < 8 ∧ (isScalar a = true ∧ (isVec b = false ∧ (leafOf s va.toNat = some r ∧ (r.ok = true ∧ (r.gone = false ∧ (r.ecc = 0 ∧ (s.team.failed = 0 ∧ (((rdu s b).getLsbD 0 = true → r.r = true) ∧ (((rdu s b).getLsbD 1 = true → r.w = true) ∧ (pendCount s.team < 16))))))))))))))) ∧
    (∃ (a b : RegF), ∃ (s : State), (let off := (rdu s a).toNat
     (let n := (rdu s b).toNat
     Issuing s ∧ (Ready s false [src a, src b] ∧ (isVec a = false ∧ (isVec b = false ∧ (off % 128 = 0 ∧ (n % 128 = 0 ∧ (off + n ≤ s.myBlock.vbytes))))))))) ∧
    (∃ (s : State), ∃ (off n : Nat), s.hasTeam s.sel.unit = true ∧ ((Claims.sel s).team.park = .expect off n ∧ ((∀ k ∈ (Claims.sel s).team.stores, k.vault = false) ∧ ((∀ r ∈ ((Claims.sel s).core (Claims.sel s).myCore).vport, r.tid ≠ (Claims.sel s).team.tid) ∧ ((∀ k ∈ ((Claims.sel s).core (Claims.sel s).myCore).snaps, k.2.1 ≠ (Claims.sel s).team.tid)))))) ∧
    (∃ (d a : RegF), ∃ (s : State), (let g := (s.team.lanes + 31) / 32
     (let off := s.myBlock.voff + (rdu s a).toNat
     (let k := vaultKey s.myBlock.core off
     (let code := regCode s.team d.toNat
     (let bytes := spillSlot s code g
     Issuing s ∧ (Ready s false [src a, { f := d.toNat, rd := false }] ∧ (isVec d = true ∧ (isVec a = false ∧ ((rdu s a).toNat % 8 = 0 ∧ ((rdu s a).toNat + 8 + 128 * g ≤ s.myBlock.vbytes ∧ (acqPending s.team = false ∧ (s.myBlock.core = s.myCore ∧ (atomWaits s k bytes.length = false ∧ ((∀ l ∈ lanesOf s.team.live, s.team.rbad.contains (regKey code l) = false)))))))))))))))) ∧
    (∃ (d a : RegF), ∃ (s : State), (let ops : List Opnd := [src a, { f := d.toNat, rd := false, wr := true }]
     (let g := (s.team.lanes + 31) / 32
     (let off := s.myBlock.voff + (rdu s a).toNat
     (let k := vaultKey s.myBlock.core off
     (let bytes := (List.range (8 + 128 * g)).map fun i => memByte s.mem (k + i)
     Issuing s ∧ (Ready s false ops ∧ (isVec d = true ∧ (isVec a = false ∧ ((rdu s a).toNat % 8 = 0 ∧ ((rdu s a).toNat + 8 + 128 * g ≤ s.myBlock.vbytes ∧ (acqPending s.team = false ∧ (s.myBlock.core = s.myCore ∧ ((∀ i < 8 + 128 * g, (s.core s.myCore).absent.contains ((off + i) / 128) = false) ∧ (atomWaits s k (8 + 128 * g) = false ∧ (badAt s k (8 + 128 * g) = false ∧ (bytes.headD 0 ∈ [1#8, 2#8, 3#8, 4#8] ∧ (pendCount s.team < 16)))))))))))))))))) ∧
    (∃ (s : State), ∃ (g p : Nat), s.team.live.getLsbD p = true ∧ (s.team.vundef.getLsbD p = false ∧ (p < 32 * g))) :=
  ⟨⟨3, 98, 102, atTranslationPresenceAndSpillComplete1, { page := 0x40, ok := true, frame := 0x10, r := true, w := true },
     issuing_of (by decide +kernel), by exact readyX_of (by decide +kernel) (by decide +kernel),
     by decide +kernel⟩,
   ⟨99, 98, atTranslationPresenceAndSpillComplete2, issuing_of (by decide +kernel), ready_of (by decide +kernel), by decide +kernel⟩,
   ⟨atTranslationPresenceAndSpillComplete3, 0x80, 0x100, by decide +kernel⟩,
   ⟨3, 97, wMem, issuing_of (by decide +kernel), ready_of (by decide +kernel), by decide +kernel⟩,
   ⟨3, 97, atTranslationPresenceAndSpillComplete5, issuing_of (by decide +kernel), ready_of (by decide +kernel), by decide +kernel⟩,
   ⟨wMem, 1, 2, by decide +kernel⟩⟩

theorem met_WalksFollowTheTablesIntoTheTlb :
    (∃ (s : State), ∃ (w : Walk), (s.die s.sel.unit).walks[s.sel.sub]? = some w ∧ ((let va := w.page * 4096
     (∀ pa ∈ walkPas s va 6 (s.ctx w.ctx).root, paReaches s (256 * s.sel.unit) pa = true)))) ∧
    (∃ (s : State), ∃ (va level table : Nat), (let lost := paLost s (entryPa table level va)
     lost = true)) ∧
    (∃ (s : State), ∃ (va level table : Nat), (let lost := paLost s (entryPa table level va)
     (let ecc := wordEcc s (entryPa table level va)
     lost = false ∧ (ecc ≠ 0)))) ∧
    (∃ (s : State), ∃ (va level table : Nat), (let e := leNat (readPa s (entryPa table level va) 8)
     (let kind := e / 2 ^ 9 % 8
     (let lost := paLost s (entryPa table level va)
     (let ecc := wordEcc s (entryPa table level va)
     lost = false ∧ (ecc = 0 ∧ (kind = 1 ∧ (0 < level)))))))) ∧
    (∃ (s : State), ∃ (va level table : Nat), (let e := leNat (readPa s (entryPa table level va) 8)
     (let frame := e / 2 ^ 12 % 2 ^ 44
     (let kind := e / 2 ^ 9 % 8
     (let lost := paLost s (entryPa table level va)
     (let ecc := wordEcc s (entryPa table level va)
     lost = false ∧ (ecc = 0 ∧ (kind = 2 ∧ (level < 4 ∧ (frame * 4096 % pageSize level = 0)))))))))) ∧
    (∃ (s : State), ∃ (va level table : Nat), (let e := leNat (readPa s (entryPa table level va) 8)
     (let frame := e / 2 ^ 12 % 2 ^ 44
     (let kind := e / 2 ^ 9 % 8
     (let lost := paLost s (entryPa table level va)
     (let ecc := wordEcc s (entryPa table level va)
     lost = false ∧ (ecc = 0 ∧ (((kind = 1 ∧ level = 0) ∨ (kind = 2 ∧ (4 ≤ level ∨ frame * 4096 % pageSize level ≠ 0)) ∨ (kind ≠ 1 ∧ kind ≠ 2)))))))))) :=
  ⟨⟨atWalksFollowTheTablesIntoTheTlb1, { ctx := 1, page := 0x100, tids := [0] }, by decide +kernel, by decide +kernel⟩,
   ⟨atWalksFollowTheTablesIntoTheTlb2d, 0, 2, 2 ^ 42 * Config.packageIndex + 0x10000, by decide +kernel⟩,
   ⟨atWalksFollowTheTablesIntoTheTlb2e, 0, 2, 0x10000, by decide +kernel⟩,
   ⟨atWalksFollowTheTablesIntoTheTlb2, 0, 2, 0x10000, by decide +kernel⟩,
   ⟨atWalksFollowTheTablesIntoTheTlb2b, 0, 2, 0x10000, by decide +kernel⟩,
   ⟨atWalksFollowTheTablesIntoTheTlb2c, 0, 1, 0x10000, by decide +kernel⟩⟩

theorem met_FetchPresenceAndControlStoreServeTheirTeams :
    (∃ (s : State), ∃ (pa pb : Nat), ∃ (na nb : Bool), s.hasTeam s.sel.unit = true ∧ ((let q := Claims.sel s
     (let x := loadPa q.myCore pa 4 na false (paCarried q.myCore pa (tlbTouch q.myCore q.myCtx q.team.pc.toNat q))
     (let w := BitVec.ofNat 32 (leNat x.1)
     q.team.present = true ∧ (q.team.ir = none ∧ (q.team.park = .run ∧ (q.team.mcall = none ∧ (q.team.failed = 0 ∧ (paReaches q q.myCore pa = true ∧ (inSlice q q.myCtx q.team.pc.toNat 4 = false ∧ (paCheck q .fetch q.team.pc.toNat (xlateVa q .fetch q.team.pc.toNat) = .ok pa na ∧ (eccOf q q.myCore pa 4 = none ∧ ((hasLiteral w = true → paReaches x.2 q.myCore pb = true ∧ inSlice x.2 q.myCtx (q.team.pc + 4).toNat 4 = false ∧ paCheck x.2 .fetch (q.team.pc + 4).toNat (xlateVa x.2 .fetch (q.team.pc + 4).toNat) = .ok pb nb ∧
           eccOf x.2 q.myCore pb 4 = none))))))))))))))) ∧
    (∃ (s : State), ∃ (m : MCall), ∃ (c : CWord), s.hasTeam s.sel.unit = true ∧ ((let q := Claims.sel s
     q.team.present = true ∧ (q.team.ir = none ∧ (q.team.park = .run ∧ (q.team.mcall = some m ∧ (m.words[m.idx]? = some c ∧ (c.sd = false ∧ (c.sa = false ∧ (c.sb = false ∧ (c.sl = false))))))))))) ∧
    (∃ (s : State), (s.core s.sel.unit).arrived.contains s.sel.sub = true) ∧
    (∃ (d a : RegF), ∃ (s : State), (let off := (rdu s a).toNat
     (let start := (rdu s d).toNat / 32 % 512
     (let len := (rdu s d).toNat / 2 ^ 14 % 64
     (let key := vaultKey s.myBlock.core (s.myBlock.voff + off)
     (let ws := (List.range len).map fun i => cwordOf ((List.range 8).map fun j => memByte s.mem (key + 8 * i + j))
     Issuing s ∧ (Ready s false [src a, src d] ∧ (isVec a = false ∧ (isVec d = false ∧ (0 < len ∧ (len ≤ 32 ∧ (start + len ≤ 512 ∧ (off % 8 = 0 ∧ (off + 8 * len ≤ s.myBlock.vbytes ∧ (acqPending s.team = false ∧ ((∀ i < 8 * len, (s.core s.myBlock.core).absent.contains ((s.myBlock.voff + off + i) / 128) = false) ∧ (atomWaits s key (8 * len) = false ∧ (badAt s key (8 * len) = false ∧ (cwordsOk ws = true ∧ (s.myBlock.cload = none)))))))))))))))))))) ∧
    (∃ (s : State), ∃ (start entry : Nat), ∃ (ws : List CWord), s.hasTeam s.sel.unit = true ∧ ((let q := Claims.sel s
     q.team.park = .mctl ∧ (q.myBlock.cload = some (s.sel.unit, start, ws, entry) ∧ ((∀ t ∈ q.allTeams, t.blk = q.team.blk → expanding t = false)))))) ∧
    (∃ (a : RegF), ∃ (s : State), Issuing s ∧ (Ready s false [src a] ∧ (isVec a = false))) ∧
    (∃ (d a : RegF), ∃ (s : State), Issuing s ∧ (Ready s false [src a, dst d] ∧ (isVec a = false ∧ (isScalar d = true)))) ∧
    (∃ (l : Word), ∃ (s : State), ∃ (start len : Nat), mget? s.myBlock.centry (l.toNat % 32) = some (start, len)) ∧
    (∃ (s : State), s.hasTeam s.sel.unit = true ∧ ((let q := Claims.sel s
     q.team.present = true ∧ (q.team.park = .run ∧ (q.team.lastIssue + 4096 ≤ s.ac))))) :=
  ⟨⟨atFetchPresenceAndControlStoreServeTheirTeams1, 0x10000, 0x10004, false, false, by decide +kernel, by decide +kernel⟩,
   ⟨atFetchPresenceAndControlStoreServeTheirTeams2, { words := [{word := 0x00000081}], idx := 0, d := 1, a := 2, b := 3, p := 4, sw := false },
     {word := 0x00000081}, by decide +kernel, by decide +kernel⟩,
   ⟨atFetchPresenceAndControlStoreServeTheirTeams3, by decide +kernel⟩,
   ⟨99, 97, atFetchPresenceAndControlStoreServeTheirTeams4, issuing_of (by decide +kernel), ready_of (by decide +kernel), by decide +kernel⟩,
   ⟨atFetchPresenceAndControlStoreServeTheirTeams5, 2, 5, [{word := 0x81}], by decide +kernel, by decide +kernel⟩,
   ⟨99, atFetchPresenceAndControlStoreServeTheirTeams6, issuing_of (by decide +kernel), ready_of (by decide +kernel), by decide +kernel⟩,
   ⟨98, 99, atFetchPresenceAndControlStoreServeTheirTeams6, issuing_of (by decide +kernel), ready_of (by decide +kernel), by decide +kernel⟩,
   ⟨0x505, atFetchPresenceAndControlStoreServeTheirTeams8, 2, 1, by decide +kernel⟩,
   ⟨atFetchPresenceAndControlStoreServeTheirTeams9, by decide +kernel, by decide +kernel⟩⟩

theorem met_AtomicsAreSent :
    (∃ p, p ∈ Claims.atoms.zipIdx ∧ (∃ (d a : RegF), ∃ (xr : BitVec 3), ∃ (l : Word), ∃ (s : State), ∃ (pa : Nat → Nat), ∃ (nc : Nat → Bool), (let u := isScalar d
     (let lanes := execLanes s u
     (let off := fun n => laneOff (rdv s a n) (litDisp l)
     l.getLsbD 26 = false ∧ (s.split % 4096 = 0 ∧ (Claims.atomGoes s u p.2 d a l (some xr.toNat) ∧ ((∀ n ∈ lanes, laneAccess s .atomic (xreg s.team xr.toNat) (off n) 4 n = .ok (pa n) (nc n)) ∧ ((∀ n ∈ lanes, eccOf s s.myCore (pa n) 4 = none)))))))))) ∧
    (∃ p, p ∈ Claims.atoms.zipIdx ∧ (∃ (d a : RegF), ∃ (l : Word), ∃ (s : State), (let u := isScalar d
     (let lanes := execLanes s u
     (let off := fun n => laneOff (rdv s a n) (litDisp l)
     (let at_ := fun n => s.myBlock.voff + (off n).toNat
     l.getLsbD 26 = true ∧ (Claims.atomGoes s u p.2 d a l none ∧ (s.team.failed = 0 ∧ ((∀ n ∈ lanes, 0 ≤ off n ∧ off n + 4 ≤ s.myBlock.vbytes ∧ off n % 4 = 0 ∧ badAt s (vaultKey s.myBlock.core (at_ n)) 4 = false ∧
           snapWaits s (vaultKey s.myBlock.core (at_ n)) 4 = false ∧
           (s.core s.myBlock.core).absent.contains (at_ n / 128) = false ∧ (s.core s.myBlock.core).absent.contains ((at_ n + 3) / 128) = false)))))))))) ∧
    (∃ p, p ∈ Claims.atoms.zipIdx ∧ (∃ (d a : RegF), ∃ (xr : BitVec 3), ∃ (l : Word), ∃ (s : State), ∃ (leaf : Nat → WalkRes), (let u := isScalar d
     (let vlt := l.getLsbD 26
     (let ops := atomOpnds p.2 (l.getLsbD 25) d a
     (let lanes := execLanes s u
     (let off := fun n => laneOff (rdv s a n) (litDisp l)
     (let x := xreg s.team xr.toNat
     (let fault := if vlt then Claims.vaultFault s 2 (litDisp l) 4 a s.myBlock else Claims.globalFault s .atomic (litDisp l) 4 a x leaf
     (let done := Claims.passing s u fault
     (let line := fun n i => (s.myBlock.voff + (off n).toNat + i) / 128
     s.split % 4096 = 0 ∧ (Issuing s ∧ ((Ready s u ops (if vlt then none else some xr.toNat)) ∧ (litScope l < 6 ∧ ((l.getLsbD 25 = true → litOrd l ≠ 1 ∧ litOrd l ≠ 3) ∧ ((u = true → isVec a = false) ∧ (acqPending s.team = false ∧ ((2 ≤ litOrd l → memDrained s.team = true) ∧ ((vlt = false → ∀ n ∈ lanes, Claims.misses s (litDisp l) 4 a x n → leafOf s (x.base + BitVec.ofInt 57 (off n)).toNat = some (leaf n)) ∧ ((∃ n ∈ done, ∃ i < 4, vlt = true ∧ (s.core s.myBlock.core).absent.contains (line n i) = true))))))))))))))))))))) ∧
    (∃ p, p ∈ Claims.atoms.zipIdx ∧ (∃ (d a : RegF), ∃ (xr : BitVec 3), ∃ (l : Word), ∃ (s : State), ∃ (leaf : Nat → WalkRes), (let u := isScalar d
     (let vlt := l.getLsbD 26
     (let ops := atomOpnds p.2 (l.getLsbD 25) d a
     (let lanes := execLanes s u
     (let off := fun n => laneOff (rdv s a n) (litDisp l)
     (let x := xreg s.team xr.toNat
     (let fault := if vlt then Claims.vaultFault s 2 (litDisp l) 4 a s.myBlock else Claims.globalFault s .atomic (litDisp l) 4 a x leaf
     (let faults := Claims.faulting s u fault
     (let done := Claims.passing s u fault
     (let line := fun n i => (s.myBlock.voff + (off n).toNat + i) / 128
     s.split % 4096 = 0 ∧ (Issuing s ∧ ((Ready s u ops (if vlt then none else some xr.toNat)) ∧ (litScope l < 6 ∧ ((l.getLsbD 25 = true → litOrd l ≠ 1 ∧ litOrd l ≠ 3) ∧ ((u = true → isVec a = false) ∧ (acqPending s.team = false ∧ ((2 ≤ litOrd l → memDrained s.team = true) ∧ ((vlt = false → ∀ n ∈ lanes, Claims.misses s (litDisp l) 4 a x n → leafOf s (x.base + BitVec.ofInt 57 (off n)).toNat = some (leaf n)) ∧ (faults ≠ [] ∧ ((vlt = true → ∀ n ∈ done, (∀ i < 4, (s.core s.myBlock.core).absent.contains (line n i) = false) ∧
             snapWaits s (vaultKey s.myBlock.core (s.myBlock.voff + (off n).toNat)) 4 = false) ∧ ((done ≠ [] → Claims.creditFree s ∧ (l.getLsbD 25 = true ∨ pendCount s.team < 16))))))))))))))))))))))))) :=
  ⟨⟨_, List.Mem.head _, 2, 1, 0, 0, wMem, fun n => 0x10000 + 8 * n, fun _ => false, by decide +kernel, by decide +kernel,
     ⟨issuing_of (by decide +kernel), by exact readyX_of (by decide +kernel) (by decide +kernel),
     by unfold Claims.creditFree; decide +kernel⟩, by decide +kernel⟩,
   ⟨_, List.Mem.head _, 2, 1, 0xC4000000, wMem, by decide +kernel,
     ⟨issuing_of (by decide +kernel), by exact ready_of (by decide +kernel),
     by unfold Claims.creditFree; decide +kernel⟩, by decide +kernel⟩,
   ⟨_, List.Mem.head _, 2, 1, 0, 0x04000000, wAbsent, fun _ => { page := 0 }, by decide +kernel, issuing_of (by decide +kernel),
     by exact ready_of (by decide +kernel), by decide +kernel, by decide +kernel,
     by decide +kernel, by decide +kernel, by decide +kernel, by unfold Claims.misses; decide +kernel, by decide +kernel⟩,
   ⟨_, List.Mem.head _, 2, 1, 0, 0x04000000, wBent, fun _ => { page := 0 }, by decide +kernel, issuing_of (by decide +kernel),
     by exact ready_of (by decide +kernel), by decide +kernel, by decide +kernel,
     by decide +kernel, by decide +kernel, by decide +kernel, by unfold Claims.misses; decide +kernel, by unfold Claims.creditFree; decide +kernel⟩⟩

theorem met_AtomicsAreAppliedInOrder :
    (∃ (s : State), ∃ (r : Req), ∃ (sub : Nat), ∃ (d e : Word), ∃ (ord scope : Nat), (let c := s.sel.unit
     (let x := s.cluster c
     (let rel := decide (2 ≤ ord ∧ scope ≤ 1)
     sub < 14 ∧ (x.queue.head? = some r ∧ (r.arr < s.ac ∧ (x.nextApply ≤ s.ac ∧ (reqReaches s r = true ∧ (r.op = .atom sub d e ord scope ∧ ((rel = true → x.promo.length < 32 ∨ ∃ k, (r.addr, k) ∈ x.promo))))))))))) ∧
    (∃ (s : State), (let x := s.core s.sel.unit
     (x.vport.filter fun r => decide (r.arr ≤ s.ac)) ≠ [] ∧ (x.vportNext ≤ s.ac))) ∧
    (∃ (r : Req), ∃ (sub : Nat), ∃ (d e : Word), ∃ (ord scope : Nat), sub < 14 ∧ (r.op = .atom sub d e ord scope)) ∧
    (∃ (s : State), ∃ (core w : Nat), ∃ (who : Option (Req × Word)), ∃ (rest : List (Nat × Nat × Option (Req × Word))), (s.cluster s.sel.unit).held = (core, w, who) :: rest) :=
  ⟨⟨atAtomicsAreAppliedInOrder1, { tid := 0, addr := hbmKey 0 0x1000, op := .atom 0 5 6 3 3, tag := 3, reg := some 5 }, 0, 5, 6, 3, 3,
     by decide +kernel, by decide +kernel, by decide +kernel, by decide +kernel, by decide +kernel, by decide +kernel,
     fun _ => .inl (by decide +kernel)⟩,
   ⟨atAtomicsAreAppliedInOrder3, by decide +kernel⟩,
   ⟨{ tid := 0, addr := vaultKey 0 0, op := .atom 0 5 6 3 3, tag := 3, reg := some 5 }, 0, 5, 6, 3, 3, by decide +kernel⟩,
   ⟨atAtomicsAreAppliedInOrder5, 9, 5, some ({ tid := 0, addr := vaultKey 0 0, op := .atom 0 5 6 3 3, tag := 3, reg := some 5 }, 7), [],
     by decide +kernel⟩⟩

theorem met_AddressWaitsAreRecordedAndWoken :
    (∃ p, p ∈ ([.waddrWait, .waddrWake, .waddrWakeall] : List (Hd → RegF → RegF → BitVec 3 → Word → Instr)).zipIdx ∧ (∃ (d a : RegF), ∃ (xr : BitVec 3), ∃ (l : Word), ∃ (s : State), (let ops := [src a] ++ if p.2 = 0 then [srcPair d] else []
     (let off := laneOff (rdu s a) (litDisp l)
     Issuing s ∧ ((Ready s false ops (if l.getLsbD 26 then none else some xr.toNat)) ∧ (isVec a = false ∧ ((p.2 = 0 → isScalar d = true) ∧ (acqPending s.team = false ∧ (∃ (v : Nat), l.getLsbD 26 = true ∧ (off = v ∧ (v % 4 = 0 ∧ (v + 4 ≤ s.myBlock.vbytes ∧ ((s.core s.myBlock.core).absent.contains ((s.myBlock.voff + v) / 128) = false ∧ ((s.core s.myBlock.core).absent.contains ((s.myBlock.voff + v + 3) / 128) = false ∧ ((let key := vaultKey s.myBlock.core (s.myBlock.voff + v)
     snapWaits s key 4 = false ∧ (p.2 = 0 ∧ (badAt s key 4 = true)))))))))))))))))) ∧
    (∃ p, p ∈ ([.waddrWait, .waddrWake, .waddrWakeall] : List (Hd → RegF → RegF → BitVec 3 → Word → Instr)).zipIdx ∧ (∃ (d a : RegF), ∃ (xr : BitVec 3), ∃ (l : Word), ∃ (s : State), (let ops := [src a] ++ if p.2 = 0 then [srcPair d] else []
     (let off := laneOff (rdu s a) (litDisp l)
     Issuing s ∧ ((Ready s false ops (if l.getLsbD 26 then none else some xr.toNat)) ∧ (isVec a = false ∧ ((p.2 = 0 → isScalar d = true) ∧ (acqPending s.team = false ∧ (∃ (v : Nat), l.getLsbD 26 = true ∧ (off = v ∧ (v % 4 = 0 ∧ (v + 4 ≤ s.myBlock.vbytes ∧ ((s.core s.myBlock.core).absent.contains ((s.myBlock.voff + v) / 128) = false ∧ ((s.core s.myBlock.core).absent.contains ((s.myBlock.voff + v + 3) / 128) = false ∧ ((let key := vaultKey s.myBlock.core (s.myBlock.voff + v)
     snapWaits s key 4 = false ∧ ((p.2 = 0 → badAt s key 4 = false)))))))))))))))))) ∧
    (∃ p, p ∈ ([.waddrWait, .waddrWake, .waddrWakeall] : List (Hd → RegF → RegF → BitVec 3 → Word → Instr)).zipIdx ∧ (∃ (d a : RegF), ∃ (xr : BitVec 3), ∃ (l : Word), ∃ (s : State), (let ops := [src a] ++ if p.2 = 0 then [srcPair d] else []
     (let off := laneOff (rdu s a) (litDisp l)
     Issuing s ∧ ((Ready s false ops (if l.getLsbD 26 then none else some xr.toNat)) ∧ (isVec a = false ∧ ((p.2 = 0 → isScalar d = true) ∧ (acqPending s.team = false ∧ (∃ (pa : Nat), ∃ (nc : Bool), l.getLsbD 26 = false ∧ (laneAccess s .load (xreg s.team xr.toNat) off 4 (lowestLane s.team.active) = .ok pa nc ∧ (∃ k, p.2 = 0 ∧ (eccOf s s.myCore pa 4 = some k)))))))))))) ∧
    (∃ p, p ∈ ([.waddrWait, .waddrWake, .waddrWakeall] : List (Hd → RegF → RegF → BitVec 3 → Word → Instr)).zipIdx ∧ (∃ (d a : RegF), ∃ (xr : BitVec 3), ∃ (l : Word), ∃ (s : State), (let ops := [src a] ++ if p.2 = 0 then [srcPair d] else []
     (let off := laneOff (rdu s a) (litDisp l)
     Issuing s ∧ ((Ready s false ops (if l.getLsbD 26 then none else some xr.toNat)) ∧ (isVec a = false ∧ ((p.2 = 0 → isScalar d = true) ∧ (acqPending s.team = false ∧ (∃ (pa : Nat), ∃ (nc : Bool), l.getLsbD 26 = false ∧ (laneAccess s .load (xreg s.team xr.toNat) off 4 (lowestLane s.team.active) = .ok pa nc ∧ ((p.2 = 0 → eccOf s s.myCore pa 4 = none) ∧ (Claims.creditFree s)))))))))))) ∧
    (∃ (s : State), ∃ (r : Req), ∃ (d e : Word), (let c := s.sel.unit
     (let x := s.cluster c
     x.queue.head? = some r ∧ (r.arr < s.ac ∧ (x.nextApply ≤ s.ac ∧ (reqReaches s r = true ∧ (r.op = .wait d e))))))) ∧
    (∃ (s : State), ∃ (r : Req), (let c := s.sel.unit
     (let x := s.cluster c
     x.queue.head? = some r ∧ (r.arr < s.ac ∧ (x.nextApply ≤ s.ac ∧ (reqReaches s r = true ∧ ((r.op = .wake ∨ r.op = .wakeall)))))))) ∧
    (∃ (r : Req), ∃ (d e : Word), r.op = .wait d e) ∧
    (∃ (r : Req), (r.op = .wake ∨ r.op = .wakeall)) ∧
    (∃ (s : State), ∃ (f : FarAccess), s.team.present = true ∧ (s.team.park = .watch ∧ (s.team.farWait = some f))) :=
  ⟨⟨_, List.Mem.head _, 100, 97, 0, 0x04000000, atAddressWaitsAreRecordedAndWoken1, issuing_of (by decide +kernel),
     by exact ready_of (by decide +kernel), by decide +kernel, by decide +kernel,
     by decide +kernel, 8, by decide +kernel, by decide +kernel, by decide +kernel, by decide +kernel, by decide +kernel, by decide +kernel,
     by decide +kernel⟩,
   ⟨_, List.Mem.head _, 100, 97, 0, 0x04000000, wMem, issuing_of (by decide +kernel),
     by exact ready_of (by decide +kernel), by decide +kernel, by decide +kernel,
     by decide +kernel, 8, by decide +kernel, by decide +kernel, by decide +kernel, by decide +kernel, by decide +kernel, by decide +kernel,
     by decide +kernel⟩,
   ⟨_, List.Mem.head _, 100, 97, 0, 0, atWalksFollowTheTablesIntoTheTlb2e, issuing_of (by decide +kernel),
     by exact readyX_of (by decide +kernel) (by decide +kernel), by decide +kernel, by decide +kernel,
     by decide +kernel, 0x10008, false, by decide +kernel, by decide +kernel, 4, by decide +kernel⟩,
   ⟨_, List.Mem.head _, 100, 97, 0, 0, wMem, issuing_of (by decide +kernel),
     by exact readyX_of (by decide +kernel) (by decide +kernel), by decide +kernel, by decide +kernel,
     by decide +kernel, 0x10008, false, by unfold Claims.creditFree; decide +kernel⟩,
   ⟨atAddressWaitsAreRecordedAndWoken2, { tid := 0, addr := hbmKey 0 0x1000, op := .wait 0 1, tag := 3, credit := some 0 }, 0, 1, by decide +kernel⟩,
   ⟨atAddressWaitsAreRecordedAndWoken3, { tid := 3, addr := hbmKey 0 0x1000, op := .wakeall, tag := 3, credit := some 0 }, by decide +kernel⟩,
   ⟨{ tid := 0, addr := vaultKey 0 0x80, op := .wait 0 1, tag := 3, credit := some 0 }, 0, 1, by decide +kernel⟩,
   ⟨{ tid := 9, addr := vaultKey 0 0x80, op := .wake, tag := 3, credit := some 0 }, by decide +kernel⟩,
   ⟨atAddressWaitsAreRecordedAndWoken6, faraccessAddressWaitsAreRecordedAndWoken6, by decide +kernel⟩⟩

theorem met_FencesOrderTheCache :
    (∃ p, p ∈ ([.fenceSc, .fenceAcq, .fenceRel, .fenceAr] : List (Hd → BitVec 3 → Instr)).zipIdx ∧ (∃ (c : BitVec 3), ∃ (s : State), Issuing s ∧ (c.toNat < 6))) ∧
    (∃ (s : State), ∃ (kind scope : Nat), s.hasTeam s.sel.unit = true ∧ ((let q := Claims.sel s
     q.team.park = .fence kind scope ∧ ((kind ≠ 1 → q.team.stores = []) ∧ ((∀ p ∈ q.team.pend, p.mem = false ∧ p.acq = none)))))) :=
  ⟨⟨_, List.Mem.head _, 3, w, issuing_of (by decide +kernel), by decide +kernel⟩,
   ⟨atFencesOrderTheCache2, 3, 3, by decide +kernel, by decide +kernel⟩⟩

theorem met_BarriersCountAndWake :
    (∃ p, p ∈ ([(.barArrive, false), (.barSync, true)] : List ((Hd → RegF → RegF → Instr) × Bool)) ∧ (∃ (d a : RegF), ∃ (s : State), (let i := (rdu s a).toNat
     (let tgt := (rdu s d).toNat % 2 ^ 15
     (let w := mget 0 s.myBlock.barw i
     Issuing s ∧ (Ready s false [src a, src d] ∧ (isVec a = false ∧ (isVec d = false ∧ (i < s.myBlock.barriers ∧ (s.myBlock.barriers ≤ 64 ∧ (tgt ≠ 0 ∧ ((w.toNat / 2 ^ 16 % 2 ^ 15 = 0 ∨ w.toNat / 2 ^ 16 % 2 ^ 15 = tgt) ∧ (w.toNat % 2 ^ 16 < 2 ^ 16 - 1 ∧ (memDrained s.team = true ∧ (acqPending s.team = false ∧ ((p.2 = true → s.team.hmode = false))))))))))))))))) ∧
    (∃ (a : RegF), ∃ (s : State), Issuing s ∧ (Ready s false [src a] ∧ (isVec a = false ∧ ((rdu s a).toNat < s.myBlock.barriers ∧ (s.team.hmode = false))))) ∧
    (∃ (i : Nat), i < 64) ∧
    (∃ (i j : Nat), ∃ (ph : Bool), ∃ (t : Team), i < 64 ∧ (j < 64 ∧ (t.park = .bar j ph))) ∧
    (∃ (a : RegF), ∃ (s : State), (let w := (rdu s a).toNat
     Issuing s ∧ (Ready s false [src a] ∧ (isVec a = false ∧ (w < s.myGrid.launch.wbars ∧ (s.myBlock.kind = .grid ∧ (s.team.hmode = false ∧ ((∀ t ∈ s.allTeams, t.blk = s.team.blk → t.tid ≠ s.team.tid → ∀ v, t.park = .wbar v ∨ t.park = .wbarDrain v → v = w))))))))) ∧
    (∃ (s : State), s.team.traced = false) ∧
    (∃ (s : State), (let g := s.sel.unit
     (let w := s.sel.sub
     (let x := s.grid g
     (let here := gridBlocks s g
     x.launch.gx * x.launch.gy * x.launch.gz ≤ x.nextBlk ∧ (x.restore = [] ∧ ((here ≠ [] ∨ x.saved ≠ []) ∧ ((∀ b ∈ here, b.2.phase = .running ∧ (∃ t ∈ s.allTeams, t.blk = b.1) ∧ ∀ t ∈ s.allTeams, t.blk = b.1 → t.park = .wbar w) ∧ ((∀ b ∈ x.saved, b.wbar = w)))))))))) :=
  ⟨⟨_, List.Mem.head _, 98, 97, atBarriersCountAndWake1, issuing_of (by decide +kernel), ready_of (by decide +kernel), by decide +kernel⟩,
   ⟨97, atBarriersCountAndWake2, issuing_of (by decide +kernel), ready_of (by decide +kernel), by decide +kernel⟩,
   ⟨1, by decide +kernel⟩,
   ⟨1, 1, true, teamBarriersCountAndWake4, by decide +kernel⟩,
   ⟨97, atBarriersCountAndWake5, issuing_of (by decide +kernel), ready_of (by decide +kernel), by decide +kernel, by decide +kernel,
     by decide +kernel, by decide +kernel, wbars_of (by decide +kernel)⟩,
   ⟨w, by decide +kernel⟩,
   ⟨atBarriersCountAndWake7, by decide +kernel⟩⟩

theorem met_TheVatRenumbersItsTeam :
    (∃ (s : State), ∃ (j : VatJob), ∃ (rest : List VatJob), (let k := s.core s.sel.unit
     k.vat = none ∧ (k.vatq = j :: rest ∧ (j.start ≤ s.ac ∧ (k.vatFree ≤ s.ac))))) ∧
    (∃ (s : State), ∃ (j : VatJob), (s.core s.sel.unit).vat = some j ∧ (j.done ≤ s.ac ∧ (s.team.present = true ∧ (s.team.tid = j.tid ∧ ((j.moves.map (·.1)).Nodup ∧ ((j.moves.map (·.2)).Nodup ∧ ((∀ p ∈ j.moves, p.1 < 1024 ∧ p.2 < 1024) ∧ ((∀ w ∈ j.writes, w.reg < 512) ∧ ((s.team.v.map (·.1)).Pairwise (· < ·) ∧ ((s.team.vdead.map (·.1)).Pairwise (· < ·))))))))))) :=
  ⟨⟨atTheVatRenumbersItsTeam1, vatjobTheVatRenumbersItsTeam1, [], by decide +kernel⟩,
   ⟨atTheVatRenumbersItsTeam2, vatjobTheVatRenumbersItsTeam2, by decide +kernel⟩⟩

theorem met_GroupRegrpAndDropIssueTheirMoves :
    (∃ (d a : RegF), ∃ (n4 : BitVec 4), ∃ (s : State), (let x := relDesc s n4.toNat
     (let ops := (if relKw x then [src a] else []) ++ [src d]
     (let members := lanesOf s.team.active
     Issuing s ∧ (s.team.pend = [] ∧ (s.team.hmode = false ∧ (Ready s false ops ∧ (combineOk x d.toNat a.toNat = true ∧ ((∀ p ∈ combinePairs x, s.team.wbase + p.1 < s.team.nregs) ∧ ((Claims.deadColumn s x = true → s.team.tstat.getLsbD 1 = false) ∧ ((∀ p ∈ combinePairs x, p.2 ≠ 10 → ∀ m ∈ members, regBad s.team (s.team.wbase + p.1) m = false)))))))))))) ∧
    (∃ (d a b : RegF), ∃ (s : State), (let c := (rdu s b).toNat
     (let members := lanesOf s.team.active
     Issuing s ∧ (s.team.pend = [] ∧ (s.team.hmode = false ∧ (Ready s false [src a, src b, dst d] ∧ (isVec a = true ∧ (isVec d = true ∧ (isVec b = false ∧ (1 ≤ c ∧ (c ≤ 64 ∧ (s.team.active = s.team.live ∧ ((∀ m ∈ members, (rdv s a m).toNat < c)))))))))))))) ∧
    (∃ (a : RegF), ∃ (s : State), Issuing s ∧ (s.team.pend = [] ∧ (s.team.hmode = false ∧ (Ready s false [src a])))) :=
  ⟨⟨1, 2, 1, atGroupRegrpAndDropIssueTheirMoves1, issuing_of (by decide +kernel), by decide +kernel, by decide +kernel,
     ready_of (by decide +kernel), by decide +kernel⟩,
   ⟨3, 1, 97, atGroupRegrpAndDropIssueTheirMoves2, issuing_of (by decide +kernel), by decide +kernel, by decide +kernel,
     ready_of (by decide +kernel), by decide +kernel⟩,
   ⟨1, atGroupRegrpAndDropIssueTheirMoves3, issuing_of (by decide +kernel), by decide +kernel, by decide +kernel, ready_of (by decide +kernel)⟩⟩

theorem met_GroupingIsIndependentOfOrder :
    (∃ op, op ∈ [1, 2, 3, 4, 5, 6, 7, 8, 9, 10] ∧ (∃ (a b : List Word), a.Perm b)) ∧
    (∃ (lanes : Nat), ∃ (runs : List (Nat × List Nat)), (let r := regrpRuns lanes runs 0 false
     (runs.flatMap (·.2)).length ≤ lanes ∧ (r.2.2 = false ∧ (∃ p, p ∈ runs ∧ (∃ m ms, p.2 = m :: ms))))) :=
  ⟨⟨_, List.Mem.head _, [1, 0x7FC00001, 0x80000000, 0], [0x80000000, 0, 0x7FC00001, 1], by decide +kernel⟩,
   ⟨70, [(0, [1, 2]), (1, [0, 5]), (2, [])], by decide +kernel, by decide +kernel, _, List.Mem.head _, 1, [2], by decide +kernel⟩⟩

theorem met_SpawnBinsAndJoin :
    (∃ (d a : RegF), ∃ (n3 : BitVec 3), ∃ (l : Word), ∃ (s : State), ∃ (k : Nat), (let n := n3.toNat + 1
     (let ops : List Opnd := [{ f := a.toNat, n := n, ok := isVec a && decide (a.toNat + n ≤ 96) }, { dst d with ok := isVec d }]
     Issuing s ∧ (Ready s false ops ∧ (s.team.hmode = false ∧ (findBin s s.myCore s.myBlock.grid (Claims.target s l) = some k ∧ (memDrained s.team = true ∧ (acqPending s.team = false ∧ (pendCount s.team < 16))))))))) ∧
    (∃ (c k : Nat), ∃ (s : State), ∃ (d : Delivery), ∃ (rest : List Delivery), (let b := binAt s c k
     b.spawns = d :: rest ∧ (d.next ≤ s.ac ∧ (s.team.present = true ∧ (s.team.tid = d.tid ∧ (refill c k s = s ∧ (∃ l ths todo, d.todo = (l, ths) :: todo ∧ (d.stop = false ∧ (ringCount s c b = 0 ∧ (b.fifo.length + ths.length ≤ 32 * b.be.blanes ∧ ((d.join = false → ths.length = 1)))))))))))) ∧
    (∃ (c k : Nat), ∃ (s : State), ∃ (d : Delivery), ∃ (rest : List Delivery), (let b := binAt s c k
     b.spawns = d :: rest ∧ (d.next ≤ s.ac ∧ (s.team.present = true ∧ (s.team.tid = d.tid ∧ (refill c k s = s ∧ (∃ l ths todo, d.todo = (l, ths) :: todo ∧ ((d.stop = true ∨ binSpace s c k < if d.join then ths.length else 1))))))))) ∧
    (∃ (c k : Nat), ∃ (s : State), ∃ (d : Delivery), ∃ (rest : List Delivery), (let b := binAt s c k
     b.spawns = d :: rest ∧ (d.next ≤ s.ac ∧ (s.team.present = true ∧ (s.team.tid = d.tid ∧ (refill c k s = s ∧ (d.todo = []))))))) ∧
    (∃ (d a : RegF), ∃ (n4 : BitVec 4), ∃ (l : Word), ∃ (s : State), ∃ (k : Nat), ∃ (r : Block), (let x := relDesc s n4.toNat
     (let kw := relKw x
     (let ops := (if kw then [src a] else []) ++ [srcDst d]
     (let words := x / 2 ^ 16 % 16 + 1
     (let rcols := (List.range (x / 2 ^ 24 % 8)).map fun i => x / 2 ^ (96 + 8 * i) % 16
     (let lcols := (List.range (x / 2 ^ 20 % 8)).map fun i => x / 2 ^ (64 + 8 * i) % 128
     (let rel := x / 2 ^ 32 % 2 ^ 32
     (let base := vaultKey r.core (r.voff + rel)
     (let nrows := Claims.number s base 2
     (let rows := (List.range nrows).map fun i => (List.range words).map fun j => BitVec.ofNat 32 (Claims.number s (base + 16 + 4 * words * i + 4 * j) 4)
     (let members := lanesOf s.team.active
     (let dead := lcols.any fun c => members.any fun m => regDead s.team (s.team.wbase + c) m
     Issuing s ∧ (Ready s false ops ∧ (isVec d = true ∧ (s.team.hmode = false ∧ (relKind x = 2 ∧ (lcols.length ≤ 4 ∧ (rcols.length ≤ 4 ∧ ((kw = true → words ≠ 1) ∧ ((∀ w ∈ rcols, w < words) ∧ ((∀ c ∈ lcols, s.team.wbase + c < s.team.nregs) ∧ ((∀ c ∈ lcols, isPending s.team (s.team.wbase + c) = false ∧ ∀ m ∈ members, regBad s.team (s.team.wbase + c) m = false) ∧ ((if x.testBit 4 then x / 2 ^ 8 % 16 < s.myBlock.bondSize ∧ bondBlock s (x / 2 ^ 8 % 16) = some r else r = s.myBlock) ∧ (findBin s s.myCore s.myBlock.grid (Claims.target s l) = some k ∧ (rel % 16 = 0 ∧ (rel + 16 + 4 * words * nrows ≤ r.vbytes ∧ ((∀ i < 16 + 4 * words * nrows, (s.core r.core).absent.contains ((r.voff + rel + i) / 128) = false) ∧ (badAt s base (16 + 4 * words * nrows) = false ∧ (atomWaits s base (16 + 4 * words * nrows) = false ∧ (rising (rows.map (rowKey kw)) = true ∧ (acqPending s.team = false ∧ (memDrained s.team = true ∧ (pendCount s.team < 16 ∧ ((dead = true → s.team.tstat.getLsbD 1 = false)))))))))))))))))))))))))))))))))))) :=
  ⟨⟨5, 1, 1, 4, atSpawnBinsAndJoin1, 0, issuing_of (by decide +kernel), ready_of (by decide +kernel), by decide +kernel⟩,
   ⟨0, 0, atSpawnBinsAndJoin2, { tid := 0, tag := 3, issued := 0, code := 5, join := false, next := 0, todo := [(0, [[5, 6]]), (2, [[7]])] }, [],
     by decide +kernel, by decide +kernel, by decide +kernel, by decide +kernel, by decide +kernel, 0, [[5, 6]], [(2, [[7]])], by decide +kernel⟩,
   ⟨0, 0, atSpawnBinsAndJoin2c,
     { tid := 0, tag := 3, issued := 0, code := 5, join := true, next := 0, stop := true, todo := [(0, [[5, 6], [1, 2]]), (2, [[7]])] }, [],
     by decide +kernel, by decide +kernel, by decide +kernel, by decide +kernel, by decide +kernel, 0, [[5, 6], [1, 2]], [(2, [[7]])],
     by decide +kernel⟩,
   ⟨0, 0, atSpawnBinsAndJoin2e, { tid := 0, tag := 3, issued := 0, code := 5, join := false, next := 50, stop := true, todo := [] }, [],
     by decide +kernel⟩,
   ⟨1, 2, 1, 4, atSpawnBinsAndJoin3, 0, State.myBlock atSpawnBinsAndJoin3, issuing_of (by decide +kernel), ready_of (by decide +kernel),
     by decide +kernel⟩⟩

theorem met_QueuesServeTheirTeamsInOrder :
    (∃ (d a : RegF), ∃ (nb : Bool), ∃ (s : State), (let u := isScalar d
     (let ops : List Opnd := [src a, { f := d.toNat, n := 4, ok := quadOk d }]
     Issuing s ∧ (Ready s u ops ∧ (Claims.queueOk s a [1] ∧ ((nb = false → s.team.hmode = false) ∧ (acqPending s.team = false ∧ (memDrained s.team = true)))))))) ∧
    (∃ (d a : RegF), ∃ (nb : Bool), ∃ (s : State), (let u := isScalar d
     (let ops : List Opnd := [src a, { f := d.toNat, n := 6, ok := sixOk d, rd := false, wr := true }]
     Issuing s ∧ (Ready s u ops ∧ (Claims.queueOk s a [1] ∧ ((nb = false → s.team.hmode = false) ∧ (acqPending s.team = false ∧ (pendCount s.team + 6 ≤ 16)))))))) ∧
    (∃ (d a : RegF), ∃ (s : State), (let u := isScalar d
     Issuing s ∧ (Ready s u [src a, dst d] ∧ (Claims.queueOk s a [1, 2] ∧ (pendCount s.team + 1 ≤ 16))))) ∧
    (∃ (k : Nat), ∃ (s : State), (let le := fun (a b : QReq) => a.arr < b.arr ∨ (a.arr = b.arr ∧ a.tid ≤ b.tid)
     (s.queue k).waiters.Pairwise le)) ∧
    (∃ (s : State), ∃ (r : QReq), ∃ (e : QEntry), ∃ (es : List QEntry), ∃ (l : Nat), ∃ (ls regs : List Nat), (let k := s.sel.unit
     nextReq s.ac (s.queue k) = some r ∧ (unitTurn s k r = true ∧ (r.op = .pop (l :: ls) regs ∧ (regs.length = 6 ∧ ((s.queue k).entries = e :: es)))))) ∧
    (∃ (s : State), ∃ (r : QReq), ∃ (l : Nat), ∃ (ls regs : List Nat), (let k := s.sel.unit
     nextReq s.ac (s.queue k) = some r ∧ (unitTurn s k r = true ∧ (r.op = .pop (l :: ls) regs ∧ ((s.queue k).entries = []))))) ∧
    (∃ (s : State), ∃ (r : QReq), ∃ (ls : List Nat), ∃ (code : Nat), (let k := s.sel.unit
     nextReq s.ac (s.queue k) = some r ∧ (unitTurn s k r = true ∧ (r.op = .count ls code)))) ∧
    (∃ (s : State), ∃ (r : QReq), ∃ (e : BitVec 128), ∃ (es : List (BitVec 128)), ∃ (task : Option Nat), (let k := s.sel.unit
     (let x := s.queue k
     nextReq s.ac x = some r ∧ (unitTurn s k r = true ∧ (r.op = .push (e :: es) task ∧ (x.entries.length < x.cap)))))) ∧
    (∃ (s : State), ∃ (r : QReq), ∃ (e : BitVec 128), ∃ (es : List (BitVec 128)), ∃ (task : Option Nat), (let k := s.sel.unit
     nextReq s.ac (s.queue k) = some r ∧ (unitTurn s k r = true ∧ (r.op = .push (e :: es) task ∧ ((s.queue k).cap ≤ (s.queue k).entries.length))))) ∧
    (∃ (s : State), (s.queue s.sel.unit).kind = 1 ∧ (s.linked = true)) ∧
    (∃ (s : State), ∃ (r : QReq), ∃ (t : Team), s.teamAt r.tid = some t ∧ (t.pend.any (·.tag == r.tag) = true ∧ (t.stores.any (·.tag == r.tag) = false))) ∧
    (∃ (s : State), ∃ (r : QReq), ∃ (t : Team), s.teamAt r.tid = some t ∧ (t.pend.any (·.tag == r.tag) = false ∧ (t.stores.any (·.tag == r.tag) = true))) ∧
    (∃ (s : State), ∃ (r : QReq), s.teamAt r.tid = none) ∧
    (∃ (s : State), ∃ (k : Nat), ∃ (x : Queue), ∃ (r : QReq), ∃ (es : List (BitVec 128)), ∃ (code : Nat), (∀ p ∈ s.queues, p.2.cap ≤ p.2.entries.length → ∀ w ∈ p.2.waiters, ∀ e c, w.op = .push e (some c) → p.1 = k ∧ w = r) ∧ ((k, x) ∈ s.queues ∧ (x.cap ≤ x.entries.length ∧ (r ∈ x.waiters ∧ (r.op = .push es (some code) ∧ (r.arr ≤ s.ac ∧ (s.team.present = true ∧ (r.tid = s.team.tid ∧ (s.team.park = .run ∧ (s.team.pend.any (·.tag == r.tag) = true)))))))))) :=
  ⟨⟨4, 103, true, wEng, issuing_of (by decide +kernel), ready_of (by decide +kernel), by unfold Claims.queueOk; decide +kernel, by decide +kernel⟩,
   ⟨4, 103, true, wEng, issuing_of (by decide +kernel), ready_of (by decide +kernel), by unfold Claims.queueOk; decide +kernel, by decide +kernel⟩,
   ⟨4, 103, wEng, issuing_of (by decide +kernel), ready_of (by decide +kernel), by unfold Claims.queueOk; decide +kernel, by decide +kernel⟩,
   ⟨5, atQueuesServeTheirTeamsInOrder4, by decide +kernel⟩,
   ⟨atQueuesServeTheirTeamsInOrder5, { tid := 0, arr := 90, tag := 3, nb := false, op := .pop [1,2] [4,5,6,7,8,9] },
     { data := 7, time := 77, gap := true }, [], 1, [2], [4,5,6,7,8,9], by decide +kernel⟩,
   ⟨atQueuesServeTheirTeamsInOrder6, { tid := 0, arr := 90, tag := 3, nb := true, op := .pop [1,2] [4,5,6,7,8,9] }, 1, [2], [4,5,6,7,8,9],
     by decide +kernel⟩,
   ⟨atQueuesServeTheirTeamsInOrder7, { tid := 0, arr := 90, tag := 3, nb := true, op := .count [0] 4 }, [0], 4, by decide +kernel⟩,
   ⟨atQueuesServeTheirTeamsInOrder8, { tid := 0, arr := 90, tag := 3, nb := false, op := .push [7, 8] none }, 7, [8], none, by decide +kernel⟩,
   ⟨atQueuesServeTheirTeamsInOrder9, { tid := 0, arr := 90, tag := 3, nb := true, op := .push [7, 8] none }, 7, [8], none, by decide +kernel⟩,
   ⟨atQueuesServeTheirTeamsInOrder10, by decide +kernel⟩,
   ⟨atQueuesServeTheirTeamsInOrder11, { tid := 0, arr := 90, tag := 3, nb := false, op := .count [0] 4 },
     (State.team atQueuesServeTheirTeamsInOrder11), by decide +kernel⟩,
   ⟨atQueuesServeTheirTeamsInOrder12, { tid := 0, arr := 90, tag := 3, nb := false, op := .count [0] 4 },
     (State.team atQueuesServeTheirTeamsInOrder12), by decide +kernel⟩,
   ⟨w, { tid := 5, arr := 90, tag := 3, op := .count [0] 4 }, by decide +kernel⟩,
   ⟨atQueuesServeTheirTeamsInOrder14, 6, queueQueuesServeTheirTeamsInOrder14, { tid := 0, arr := 90, tag := 3, op := .push [7] (some 4) }, [7], 4,
     only_push (by decide +kernel), by decide +kernel⟩⟩

theorem met_TasksArePushedAndRun :
    (∃ (d a b : RegF), ∃ (s c : State), ∃ (card : List Byte), (let ops := [srcPair a, src b, dst d]
     (let k := (rdu s b).toNat
     (let va := (rdPair s a (lowestLane s.team.active)).toNat % 2 ^ 57
     Issuing s ∧ (Ready s false ops ∧ (isScalar d = true ∧ (isScalar a = true ∧ (isVec b = false ∧ (k < 4096 ∧ (va % 64 = 0 ∧ (acqPending s.team = false ∧ (memDrained s.team = true ∧ (readCard va 192 (afterReads s ops) = .ok card c ∧ (taskOk s s.myBlock.grid card = true ∧ (taskCwordBad card = false ∧ ((s.queue k).kind = 2 ∧ ((s.queue k).owner = s.myCtx ∧ (pendCount s.team < 16)))))))))))))))))) ∧
    (∃ (s : State), s.sel.unit < 8) ∧
    (∃ (d k : Nat), ∃ (s : State), ∃ (e : QEntry), ∃ (rest : List QEntry), ∃ (uid : Nat), (s.queue k).entries = e :: rest ∧ ((s.queue k).kind = 2 ∧ (e.source = some uid ∧ (placeable s (e.data.toNat / 2 ^ 64 % 2 ^ 16) = true ∧ ((s.die d).jobs.length < 512 ∧ ((s.block (uid / 4)).aborted = false)))))) ∧
    (∃ (s q : State), ∃ (j : Job), ∃ (c : Nat), (let l := (s.grid j.grid).launch
     jobAt s s.sel.unit s.sel.sub = some j ∧ (taskReady s s.sel.unit j = true ∧ (taskSeat s s.sel.unit j = some c ∧ (placeSmall c { kind := .task s.sel.sub, grid := j.grid }
           { newTeam l 0 0 j.lanes l.firstRole.regs l.firstRole.fmt j.entry with s := taskScalars j } s = some q))))) ∧
    (∃ (s q : State), ∃ (j : Job), ∃ (r : Rename), ∃ (pa : Nat), (let d := s.sel.unit
     (let sa := (r.buf + j.pos) % 2 ^ 57
     (let da := (r.orig + j.pos) % 2 ^ 57
     (let left := r.len - j.pos
     (let n := min left (min (128 - sa % 128) (128 - da % 128))
     jobAt s d s.sel.sub = some j ∧ (j.retryAt = 0 ∧ (readyRename s d j = some r ∧ (engXl s j.ctx .load sa = .inl pa ∧ ((∀ k, paKey s pa = some k → badAt s k n = false) ∧ (engCut s j.core j.ctx {} sa = false ∧ (engCut s j.core j.ctx {} da = false ∧ (engWrite d j false {} da (readPa s pa n) (n == left || (da + n) % 128 == 0) s = .ok q))))))))))))) ∧
    (∃ (s : State), ∃ (j : Job), jobAt s s.sel.unit s.sel.sub = some j ∧ (j.kind = .task ∧ (j.blockDone = true ∧ (j.renames = [] ∧ (j.fault = none ∧ (j.retryAt = 0 ∧ (linesSet s j = true))))))) ∧
    (∃ (j : Job), j.args.length = 4 ∧ (j.wbase.length ≤ 4 ∧ (j.rbase.length ≤ 4 ∧ (∃ i, 4 + 2 * j.wbase.length ≤ i ∧ ((i < 12 ∨ 12 + 2 * j.rbase.length ≤ i)))))) :=
  ⟨⟨104, 98, 100, atTasksArePushedAndRun1, (gc (readCard 0x40000 192 (afterReads atTasksArePushedAndRun1 [srcPair 98, src 100, dst 104]))).2,
     wTask, issuing_of (by decide +kernel), ready_of (by decide +kernel), by decide +kernel, by decide +kernel, by decide +kernel,
     by decide +kernel, by decide +kernel, by decide +kernel, by decide +kernel,
     by exact card_of (by decide +kernel), by decide +kernel⟩,
   ⟨atTasksArePushedAndRun2, by decide +kernel⟩,
   ⟨0, 6, atTasksArePushedAndRun3, { data := 0x00000000000000010000000000040000, time := 1, gap := false, source := some 0 }, [], 0,
     by decide +kernel⟩,
   ⟨atTasksArePushedAndRun4,
     ((placeSmall 0 { kind := .task 3, grid := 0 } { newTeam (State.grid atTasksArePushedAndRun4 0).launch 0 0 4 (State.grid atTasksArePushedAndRun4 0).launch.firstRole.regs (State.grid atTasksArePushedAndRun4 0).launch.firstRole.fmt 0x100000 with s := taskScalars wTaskJob } atTasksArePushedAndRun4).getD State.reset), wTaskJob, 0, by decide +kernel⟩,
   ⟨atTasksArePushedAndRun5,
     ge (engWrite 0 jobTasksArePushedAndRun5 false {} 0x100 (readPa atTasksArePushedAndRun5 0x30080 8) true atTasksArePushedAndRun5),
     jobTasksArePushedAndRun5, ⟨0, 0, 0x100, 0x80, 8⟩, 0x30080, by decide +kernel, by decide +kernel, by decide +kernel, by decide +kernel,
     sound_of (by decide +kernel), by decide +kernel, by decide +kernel, eng_of (by decide +kernel)⟩,
   ⟨atTasksArePushedAndRun6, jobTasksArePushedAndRun6, by decide +kernel⟩,
   ⟨wTaskJob, by decide +kernel, by decide +kernel, by decide +kernel, 6, by decide +kernel⟩⟩

theorem met_EnginesTakeTheirJobs :
    (∃ (a b : RegF), ∃ (l : Word), ∃ (s : State), (let imm := l.toNat % 2 ^ 16
     (let st := l.toNat / 2 ^ 17 % 4
     (let ops := [src a] ++ if imm = 0 then [src b] else []
     (let n := if imm = 0 then (rdu s b).toNat else imm
     (let off := (rdu s a).toNat
     (let fs := fillsOf s s.myCore st
     Issuing s ∧ (Ready s false ops ∧ (isVec a = false ∧ ((imm = 0 → isVec b = false) ∧ (s.myBlock.matuse = true ∧ (n ≠ 0 ∧ (n ≤ 65535 ∧ (off % 64 = 0 ∧ (off + 64 ≤ s.myBlock.vbytes ∧ (acqPending s.team = false ∧ (memDrained s.team = true ∧ (fs.length < 4 ∧ ((s.die (dieOfCore s.myCore)).jobs.length < 512))))))))))))))))))) ∧
    (∃ (d a b : RegF), ∃ (l : Word), ∃ (s : State), ∃ (m : Block), (let dir := l.toNat / 2 ^ 30
     (let cw := l.getLsbD 22
     (let n := l.toNat % 2 ^ 20
     (let ops := [if dir < 2 then srcPair a else src a] ++ (if cw then [src b] else []) ++ [src d]
     (let own := (rdu s d).toNat
     (let other := if dir < 2 then (rdPair s a (lowestLane s.team.active)).toNat % 2 ^ 57 else (rdu s a).toNat
     (let word := if cw then (rdu s b).toNat else 0
     Issuing s ∧ (Ready s false ops ∧ (isVec d = false ∧ (isVec a = false ∧ ((cw = true → isVec b = false) ∧ ((dir < 2 → isScalar a = true) ∧ (l.toNat / 2 ^ 27 % 8 < 6 ∧ ((2 ≤ dir → l.toNat / 2 ^ 23 % 16 < s.myBlock.bondSize ∧ bondBlock s (l.toNat / 2 ^ 23 % 16) = some m ∧
           other + n ≤ m.vbytes) ∧ (128 ≤ n ∧ (n ≤ 983040 ∧ (n % 128 = 0 ∧ (own % 128 = 0 ∧ (other % 128 = 0 ∧ (word % 4 = 0 ∧ (own + n ≤ s.myBlock.vbytes ∧ ((cw = true → word + 4 ≤ s.myBlock.vbytes) ∧ (Claims.tileRoom s)))))))))))))))))))))))) ∧
    (∃ (d a b : RegF), ∃ (l : Word), ∃ (s : State), (let ops := [src a, src b, src d]
     (let ifmt := l.toNat % 16
     (let ofmt := l.toNat / 2 ^ 4 % 16
     (let sbk := l.toNat / 2 ^ 8 % 4
     (let r := (rdu s b).toNat % 2 ^ 7
     (let c := (rdu s b).toNat / 2 ^ 8 % 2 ^ 7
     (let sa := (rdu s a).toNat
     (let da := (rdu s d).toNat
     (let sn := r * (rowBytesOf ifmt c + scaleBytes ifmt sbk c)
     (let dn := c * (rowBytesOf ofmt r + scaleBytes ofmt sbk r)
     Issuing s ∧ (Ready s false ops ∧ (isVec a = false ∧ (isVec b = false ∧ (isVec d = false ∧ (shapeOk ifmt ofmt sbk r c = true ∧ (sa % 4 = 0 ∧ (da % 4 = 0 ∧ (sa + sn ≤ s.myBlock.vbytes ∧ (da + dn ≤ s.myBlock.vbytes ∧ (Claims.tileRoom s))))))))))))))))))))) ∧
    (∃ (d a b : RegF), ∃ (s c : State), ∃ (card : List Byte), (let ops := [srcPair a, src b, dst d]
     (let va := (rdPair s a (lowestLane s.team.active)).toNat % 2 ^ 57
     (let j := cardJob s card (sextInt 32 (rdu s b).toNat)
     Issuing s ∧ (Ready s false ops ∧ (isScalar d = true ∧ (isScalar a = true ∧ (isVec b = false ∧ (va % 64 = 0 ∧ (readCard va 256 (afterReads s ops) = .ok card c ∧ (cardOk card = true ∧ ((j.cw = true → j.cword % 4 = 0) ∧ (cardRange s.myBlock j = none ∧ (Claims.tileRoom s ∧ (pendCount s.team < 16))))))))))))))) ∧
    (∃ i, i ∈ [Instr.jobStart, .taskLaunch] ∧ (∃ (s t : State), ∃ (j j' : Job), exec i s = .next t ∧ (jobAt s s.sel.unit s.sel.sub = some j ∧ (jobAt t s.sel.unit s.sel.sub = some j' ∧ (j.started = false ∧ (j'.started = true ∧ (∃ f, f ∈ (s.die s.sel.unit).jobs ∧ (f.key < j.key)))))))) :=
  ⟨⟨97, 98, 3, atEnginesTakeTheirJobs1, issuing_of (by decide +kernel), ready_of (by decide +kernel), by decide +kernel⟩,
   ⟨97, 98, 101, 0x100, atEnginesTakeTheirJobs2, {}, issuing_of (by decide +kernel), ready_of (by decide +kernel),
     by unfold Claims.tileRoom; decide +kernel⟩,
   ⟨97, 98, 100, 0x010, atEnginesTakeTheirJobs3, issuing_of (by decide +kernel), ready_of (by decide +kernel),
     by unfold Claims.tileRoom; decide +kernel⟩,
   ⟨104, 98, 100, atEnginesTakeTheirJobs4, (gc (readCard 0x40000 256 (afterReads atEnginesTakeTheirJobs4 [srcPair 98, src 100, dst 104]))).2,
     (gc (readCard 0x40000 256 (afterReads atEnginesTakeTheirJobs4 [srcPair 98, src 100, dst 104]))).1, issuing_of (by decide +kernel),
     ready_of (by decide +kernel), by decide +kernel, by decide +kernel, by decide +kernel, by decide +kernel,
     by exact card_of (by decide +kernel), by decide +kernel, by decide +kernel, by decide +kernel,
     by unfold Claims.tileRoom; decide +kernel, by decide +kernel⟩,
   ⟨_, List.Mem.head _, atEnginesTakeTheirJobs5b, _, wJob, jobEnginesTakeTheirJobs5, next_of (by decide +kernel), by decide +kernel,
     by decide +kernel, by decide +kernel, by decide +kernel, _, List.Mem.head _, by decide +kernel⟩⟩

theorem met_JobsAndFillsMoveTheirData :
    (∃ (s : State), ∃ (j : Job), jobAt s s.sel.unit s.sel.sub = some j ∧ (j.isTile = true ∧ (j.started = false ∧ (j.startable ≤ s.ac ∧ (blocked s s.sel.unit j = false ∧ (tileStarted s j.core < 8)))))) ∧
    (∃ (s : State), ∃ (j : Job), ∃ (k : Nat), jobAt s s.sel.unit s.sel.sub = some j ∧ ((j.kind = .copy k ∨ j.kind = .scopy) ∧ (j.started = true ∧ (j.fault = none ∧ (j.retryAt = 0 ∧ ((s.cluster (j.core / 16)).moveBusy < (s.ac + 1) * 128 ∧ (j.row < j.nrows ∧ (((j.kind = .copy 2 ∨ j.kind = .copy 3) → j.rowIdx ≠ none) ∧ ((let idx := j.rowIdx.getD 0
     ∃ (a n : Nat), ∃ (bs : List Byte), pieceAt (j.readSpans j.row idx) j.buf.length = some (a, n) ∧ (engRead s j.ctx j.reads j.srcPl a n = .inl bs ∧ (engCut s j.core j.ctx j.srcPl a = false)))))))))))) ∧
    (∃ (s : State), ∃ (j : Job), ∃ (k : Nat), jobAt s s.sel.unit s.sel.sub = some j ∧ ((j.kind = .copy k ∨ j.kind = .scopy) ∧ (j.started = true ∧ (j.fault = none ∧ (j.retryAt = 0 ∧ ((s.cluster (j.core / 16)).moveBusy < (s.ac + 1) * 128 ∧ (j.row < j.nrows ∧ (((j.kind = .copy 2 ∨ j.kind = .copy 3) → j.rowIdx ≠ none) ∧ ((let idx := j.rowIdx.getD 0
     ∃ (a n : Nat), ∃ (q : State), pieceAt (j.readSpans j.row idx) j.buf.length = none ∧ (pieceAt (j.writeSpans j.row idx) j.pos = some (a, n) ∧ (engCut s j.core j.ctx j.dstPl a = false ∧ (engWrite s.sel.unit j true j.dstPl a ((j.buf.drop j.pos).take n) (lineDone (restSpans s j (j.pos + n)) a) s = .ok q))))))))))))) ∧
    (∃ (s : State), ∃ (j : Job), jobAt s s.sel.unit s.sel.sub = some j ∧ (j.isTile = true ∧ (j.started = true ∧ (j.fault = none ∧ (j.retryAt ≠ 0 ∧ (j.retryAt ≤ s.ac ∧ (j.row < j.groups))))))) ∧
    (∃ (s : State), ∃ (j : Job), jobAt s s.sel.unit s.sel.sub = some j ∧ (j.isTile = true ∧ (j.started = true ∧ (j.fault = none ∧ (j.retryAt = 0 ∧ (j.groups ≤ j.row ∧ (linesSet s j = true))))))) ∧
    (∃ (s : State), ∃ (j : Job), ∃ (sub u : Nat), ∃ (addr : DWord), jobAt s s.sel.unit s.sel.sub = some j ∧ (j.fault = some (sub, addr) ∧ (j.held = false ∧ ((let q := setJob s.sel.unit { j with held := true } s
     faultTeam q j.grid j.uid = some u ∧ (∃ t, uidSaved q j.grid u = false ∧ ((q.allTeams.find? fun t => teamUid t == u) = some t))))))) ∧
    (∃ (s : State), ∃ (j : Job), ∃ (sub u : Nat), ∃ (addr : DWord), jobAt s s.sel.unit s.sel.sub = some j ∧ (j.fault = some (sub, addr) ∧ (j.held = false ∧ ((let q := setJob s.sel.unit { j with held := true } s
     faultTeam q j.grid j.uid = some u ∧ (uidSaved q j.grid u = true)))))) ∧
    (∃ (j : Job), ∃ (s : State), j.cw = true ∧ (j.cwVault = true ∧ ((mget? s.blocks j.blk).isSome = true ∧ ((let k := vaultKey (s.block j.blk).core ((s.block j.blk).voff + j.cword)
     ∃ i, (i < k ∨ k + 4 ≤ i)))))) ∧
    (∃ (s : State), ∃ (f : Fill), ∃ (rest : List Fill), ∃ (j : Job), (let c := s.sel.unit
     (let st := s.sel.sub
     (let k := vaultKey c ((s.block j.blk).voff + f.desc)
     (let x := streamDesc ((List.range 64).map fun i => memByte s.mem (k + i))
     fillsOf s c st = f :: rest ∧ (fillJob s c f = some j ∧ (f.started = false ∧ (j.fault = none ∧ (j.startable ≤ s.ac ∧ (blocked s (dieOfCore c) j = false ∧ (badAt s k 64 = false ∧ (streamOk st x = true)))))))))))) ∧
    (∃ (s : State), ∃ (f : Fill), ∃ (rest : List Fill), ∃ (j : Job), (let c := s.sel.unit
     (let st := s.sel.sub
     (let q := vget [] (s.core c).fifo st
     (let b := s.block j.blk
     (let a := b.voff + f.cursor + f.row * f.rstride.toNat
     fillsOf s c st = f :: rest ∧ (fillJob s c f = some j ∧ (f.started = true ∧ (j.fault = none ∧ (f.step < f.n ∧ (q.length + f.rowbytes ≤ 8192 ∧ ((s.core c).fillBusy < (s.ac + 1) * 256 ∧ (f.flags.testBit 0 = true ∧ (0 ≤ f.rstride ∧ (0 < f.rowbytes ∧ (f.rowbytes ≤ 512 ∧ (a + f.rowbytes ≤ b.voff + b.vbytes ∧ (b.vbytes < 2 ^ 20 ∧ (insideAll j.reads (c + 1) a f.rowbytes = true ∧ (badAt s (vaultKey c a) f.rowbytes = false ∧ (st < 4))))))))))))))))))))) ∧
    (∃ (s : State), ∃ (f : Fill), ∃ (rest : List Fill), ∃ (j : Job), (let c := s.sel.unit
     (let st := s.sel.sub
     fillsOf s c st = f :: rest ∧ (fillJob s c f = some j ∧ (f.started = true ∧ (j.fault = none ∧ (f.n ≤ f.step))))))) :=
  ⟨⟨atEnginesTakeTheirJobs5, wJob, by decide +kernel⟩,
   ⟨atJobsAndFillsMoveTheirData2, jobEnginesTakeTheirJobs5, 0, by decide +kernel, by decide +kernel, by decide +kernel, by decide +kernel,
     by decide +kernel, by decide +kernel, by decide +kernel, by decide +kernel, 0, 128,
     (List.range 128).map fun i => memByte wEng.mem (vaultKey 0 i), by decide +kernel⟩,
   ⟨atJobsAndFillsMoveTheirData2b, jobJobsAndFillsMoveTheirData2, 0, by decide +kernel, by decide +kernel, by decide +kernel, by decide +kernel,
     by decide +kernel, by decide +kernel, by decide +kernel, by decide +kernel, 512, 128, _, by decide +kernel, by decide +kernel,
     by decide +kernel, eng_of (by decide +kernel)⟩,
   ⟨atJobsAndFillsMoveTheirData3, jobJobsAndFillsMoveTheirData3, by decide +kernel⟩,
   ⟨atJobsAndFillsMoveTheirData4, jobJobsAndFillsMoveTheirData4, by decide +kernel⟩,
   ⟨atJobsAndFillsMoveTheirData5, jobJobsAndFillsMoveTheirData5, 3, 0, 7, by decide +kernel, by decide +kernel, by decide +kernel,
     by decide +kernel, (State.team atJobsAndFillsMoveTheirData5), by decide +kernel⟩,
   ⟨atJobsAndFillsMoveTheirData5b, jobJobsAndFillsMoveTheirData5, 3, 0, 7, by decide +kernel, by decide +kernel, by decide +kernel, by decide +kernel⟩,
   ⟨jobJobsAndFillsMoveTheirData4, atJobsAndFillsMoveTheirData4, by decide +kernel, by decide +kernel, by decide +kernel, 0, by decide +kernel⟩,
   ⟨atJobsAndFillsMoveTheirData7, fillJobsAndFillsMoveTheirData7, [], jobJobsAndFillsMoveTheirData7, by decide +kernel⟩,
   ⟨atJobsAndFillsMoveTheirData8, fillJobsAndFillsMoveTheirData8, [], jobJobsAndFillsMoveTheirData8, by decide +kernel⟩,
   ⟨atJobsAndFillsMoveTheirData9, fillJobsAndFillsMoveTheirData9, [], jobJobsAndFillsMoveTheirData7, by decide +kernel⟩⟩

theorem met_MatrixMembersAreQueued :
    (∃ (s : State), Issuing s ∧ (s.myBlock.matuse = true ∧ (s.team.hmode = false ∧ ((let m := (s.core s.myCore).mat
     m.trowel = none))))) ∧
    (∃ (s : State), Issuing s ∧ (s.myBlock.matuse = true ∧ (s.team.hmode = false ∧ ((let m := (s.core s.myCore).mat
     m.trowel = some s.team.tid))))) ∧
    (∃ (s : State), Issuing s ∧ (s.myBlock.matuse = true ∧ (s.team.hmode = false ∧ ((let m := (s.core s.myCore).mat
     ∃ u, m.trowel = some u ∧ (u ≠ s.team.tid)))))) ∧
    (∃ (s : State), Issuing s ∧ (s.myBlock.matuse = true ∧ ((s.core s.myCore).mat.trowel = some s.team.tid ∧ (acqPending s.team = false ∧ (memDrained s.team = true))))) ∧
    (∃ (a : RegF), ∃ (s : State), ∃ (u : Team), Issuing s ∧ (Ready s false [src a] ∧ (isVec a = false ∧ (s.myBlock.matuse = true ∧ ((s.core s.myCore).mat.trowel = some s.team.tid ∧ (acqPending s.team = false ∧ (memDrained s.team = true ∧ ((s.allTeams.find? fun t => t.blk == s.team.blk && t.role == (rdu s a).toNat) = some u)))))))) ∧
    (∃ (u : Nat), ∃ (s : State), s.hasTeam u = true ∧ ((s.focus u).team.park = .baton)) ∧
    (∃ (a : RegF), ∃ (l : Word), ∃ (s : State), (let k := l.toNat % 4
     (let z := l.getLsbD 2
     Issuing s ∧ (Ready s false [src a] ∧ (isVec a = false ∧ (Claims.memberGoes s ∧ (mloopOk (accSlot s s.myCore k) s.team.fmt z (rdu s a).toNat = true))))))) ∧
    (∃ (d : RegF), ∃ (s : State), (let m := (s.core s.myCore).mat
     Issuing s ∧ (Ready s false [dst d] ∧ (isScalar d = true ∧ (s.myBlock.matuse = true ∧ (m.trowel = some s.team.tid ∧ ((m.isOpen = true ∨ m.batches.length < 4) ∧ (pendCount s.team < 16)))))))) ∧
    (∃ (a : RegF), ∃ (s : State), (let m := (s.core s.myCore).mat
     (let b := (rdu s a).toNat % 2 ^ 16
     Issuing s ∧ (Ready s false [src a] ∧ (isVec a = false ∧ (s.myBlock.matuse = true ∧ (¬ (m.isOpen = true ∧ m.counter = b)))))))) ∧
    (∃ (s : State), ∃ (b : Nat), ∃ (rest : List Nat), (let c := s.sel.unit
     (s.core c).mat.batches = b :: rest ∧ ((∀ x ∈ (s.core c).mat.queue, x.batch ≠ b)))) ∧
    (∃ p, p ∈ ([(.mdrainVf32, false), (.mdrainVbf16, true)] : List ((Hd → RegF → RegF → Bool → BitVec 2 → Instr) × Bool)) ∧ (∃ (d a : RegF), ∃ (k : BitVec 2), ∃ (s : State), (let off := (rdu s a).toNat
     (let st := (rdu s d).toNat
     (let w := if p.2 then 2 else 4
     (let x := accSlot s s.myCore k.toNat
     Issuing s ∧ (Ready s false [src a, src d] ∧ (isVec a = false ∧ (isVec d = false ∧ (Claims.memberGoes s ∧ (x.mode = false ∧ ((p.2 = true → fmtSat s < 2) ∧ (off % 128 = 0 ∧ (st % 128 = 0 ∧ (64 * w ≤ st ∧ (off + 63 * st + 64 * w ≤ s.myBlock.vbytes)))))))))))))))) ∧
    (∃ (d a : RegF), ∃ (c : BitVec 3), ∃ (k : BitVec 2), ∃ (s : State), (let n := 2 ^ c.toNat
     (let ops : List Opnd := [src a, { f := d.toNat, n := n, ok := isVec d && decide (d.toNat + n ≤ 96), rd := false, wr := true }]
     (let v := (rdu s a).toNat
     Issuing s ∧ (Ready s false ops ∧ (isVec a = false ∧ (c ≠ 7 ∧ (Claims.memberGoes s ∧ ((accSlot s s.myCore k.toNat).mode = false ∧ (v % 64 + n ≤ 64 ∧ (pendCount s.team < 16))))))))))) ∧
    (∃ (d a : RegF), ∃ (k : BitVec 2), ∃ (s : State), (let e := (rdu s d).toNat
     Issuing s ∧ (Ready s false [src a, src d] ∧ (isVec a = false ∧ (isVec d = false ∧ (Claims.memberGoes s ∧ ((accSlot s s.myCore k.toNat).mode = false ∧ ((accSlot s s.myCore k.toNat).afmt = false ∧ (e % 64 = 0 ∧ (portOk s s.myBlock.grid (rdu s a) e = true)))))))))) ∧
    (∃ p, p ∈ ([(.tpioLdk, 4, .ldk), (fun h d a k => .tpioStp h d a false k, 4, fun o st => .stp o st false),
           (fun h d a k => .tpioStp h d a true k, 2, fun o st => .stp o st true)] :
           List ((Hd → RegF → RegF → BitVec 2 → Instr) × Nat × (Nat → Nat → MemberOp))) ∧ (∃ (d a : RegF), ∃ (k : BitVec 2), ∃ (s : State), (let x := accSlot s s.myCore k.toNat
     (let off := (rdu s a).toNat
     (let st := (rdu s d).toNat
     Issuing s ∧ (Ready s false [src a, src d] ∧ (isVec a = false ∧ (isVec d = false ∧ (Claims.memberGoes s ∧ (x.mode = true ∧ (off % 4 = 0 ∧ (st % 4 = 0 ∧ (p.2.1 * x.n ≤ st ∧ (off + (x.m - 1) * st + p.2.1 * x.n ≤ s.myBlock.vbytes)))))))))))))) ∧
    (∃ p, p ∈ ([(.tpioLda, fun x => x.m, .lda), (.tpioLdb, fun x => x.n, .ldb), (.tpioStf, fun x => x.m + x.n, .stf)] :
           List ((Hd → RegF → BitVec 2 → Instr) × (AccSlot → Nat) × (Nat → MemberOp))) ∧ (∃ (a : RegF), ∃ (k : BitVec 2), ∃ (s : State), (let x := accSlot s s.myCore k.toNat
     (let off := (rdu s a).toNat
     Issuing s ∧ (Ready s false [src a] ∧ (isVec a = false ∧ (Claims.memberGoes s ∧ (x.mode = true ∧ (off % 4 = 0 ∧ (off + 4 * p.2.1 x ≤ s.myBlock.vbytes)))))))))) ∧
    (∃ (d a : RegF), ∃ (k : BitVec 2), ∃ (s : State), Issuing s ∧ (Ready s false [src a, dst d] ∧ (isVec a = false ∧ (isVec d = false ∧ (Claims.memberGoes s ∧ ((accSlot s s.myCore k.toNat).mode = true ∧ (pendCount s.team < 16))))))) ∧
    (∃ (a : RegF), ∃ (s : State), (let m := (rdu s a).toNat % 2 ^ 7
     (let n := (rdu s a).toNat / 2 ^ 8 % 2 ^ 7
     Issuing s ∧ (Ready s false [src a] ∧ (isVec a = false ∧ (Claims.memberGoes s ∧ (1 ≤ m ∧ (m ≤ 64 ∧ (1 ≤ n ∧ (n ≤ 64)))))))))) ∧
    (∃ (d a b : RegF), ∃ (l : Word), ∃ (s : State), Issuing s ∧ (Ready s false [src a, src b, dstPair d] ∧ (isScalar d = true ∧ (isVec a = false ∧ (isVec b = false ∧ (Claims.memberGoes s ∧ ((accSlot s s.myCore (l.toNat % 4)).mode = true ∧ ((rdu s a).toNat ≤ 255 ∧ (pendCount s.team + 2 ≤ 16))))))))) :=
  ⟨⟨atMatrixMembersAreQueued1, issuing_of (by decide +kernel), by decide +kernel, by decide +kernel, by decide +kernel⟩,
   ⟨wMat, issuing_of (by decide +kernel), by decide +kernel, by decide +kernel, by decide +kernel⟩,
   ⟨atMatrixMembersAreQueued1b, issuing_of (by decide +kernel), by decide +kernel, by decide +kernel, 5, by decide +kernel⟩,
   ⟨wMat, issuing_of (by decide +kernel), by decide +kernel⟩,
   ⟨102, atMatrixMembersAreQueued2, { wTeam with tid := 1, park := .baton, role := 3 }, issuing_of (by decide +kernel),
     ready_of (by decide +kernel), by decide +kernel⟩,
   ⟨1, atMatrixMembersAreQueued2, by decide +kernel⟩,
   ⟨97, 0xFFF05, atMatrixMembersAreQueued5, issuing_of (by decide +kernel), ready_of (by decide +kernel), by decide +kernel,
     by unfold Claims.memberGoes; decide +kernel, by decide +kernel⟩,
   ⟨97, wMat, issuing_of (by decide +kernel), ready_of (by decide +kernel), by decide +kernel⟩,
   ⟨103, atMatrixMembersAreQueued7, issuing_of (by decide +kernel), ready_of (by decide +kernel), by decide +kernel⟩,
   ⟨atMatrixMembersAreQueued8, 7, [], by decide +kernel⟩,
   ⟨_, List.Mem.head _, 98, 97, 1, atMatrixMembersAreQueued9, issuing_of (by decide +kernel), ready_of (by decide +kernel), by decide +kernel,
     by decide +kernel, by unfold Claims.memberGoes; decide +kernel, by decide +kernel⟩,
   ⟨8, 97, 2, 1, wMat, issuing_of (by decide +kernel), ready_of (by decide +kernel), by decide +kernel, by decide +kernel,
     by unfold Claims.memberGoes; decide +kernel, by decide +kernel⟩,
   ⟨98, 97, 1, atMatrixMembersAreQueued11, issuing_of (by decide +kernel), ready_of (by decide +kernel), by decide +kernel, by decide +kernel,
     by unfold Claims.memberGoes; decide +kernel, by decide +kernel⟩,
   ⟨_, List.Mem.head _, 98, 97, 0, atMatrixMembersAreQueued12, issuing_of (by decide +kernel), ready_of (by decide +kernel), by decide +kernel,
     by decide +kernel, by unfold Claims.memberGoes; decide +kernel, by decide +kernel⟩,
   ⟨_, List.Mem.head _, 97, 0, atMatrixMembersAreQueued12, issuing_of (by decide +kernel), ready_of (by decide +kernel), by decide +kernel,
     by unfold Claims.memberGoes; decide +kernel, by decide +kernel⟩,
   ⟨98, 97, 0, atMatrixMembersAreQueued12, issuing_of (by decide +kernel), ready_of (by decide +kernel), by decide +kernel, by decide +kernel,
     by unfold Claims.memberGoes; decide +kernel, by decide +kernel⟩,
   ⟨97, atMatrixMembersAreQueued15, issuing_of (by decide +kernel), ready_of (by decide +kernel), by decide +kernel,
     by unfold Claims.memberGoes; decide +kernel, by decide +kernel⟩,
   ⟨98, 101, 97, 0, atMatrixMembersAreQueued16, issuing_of (by decide +kernel), ready_of (by decide +kernel), by decide +kernel,
     by decide +kernel, by decide +kernel, by unfold Claims.memberGoes; decide +kernel, by decide +kernel⟩⟩

theorem met_MatrixStepsAndDrainsExecute :
    (∃ (s : State), ∃ (x : Member), ∃ (xs : List Member), ∃ (count mr nc : Nat), ∃ (z : Bool), ∃ (fmt : Word), (let c := s.sel.unit
     (let st := s.sel.sub
     (let m := (s.core c).mat
     (let q := vget [] (s.core c).fifo st
     (let rb := rowBytes fmt st
     (let per := rowsPer fmt mr nc st
     (let steps := (sparOf fmt).2.1
     m.queue = x :: xs ∧ (x.op = .mloop count mr nc z fmt ∧ (st < 4 ∧ (0 < rb ∧ (rb ≤ q.length ∧ ((vget 0 m.drawn st < (if st = 0 then count else count / steps) * per) ∧ ((vget 0 m.drawn st < ((if st = 0 then x.done else x.done / steps) + 2) * per))))))))))))))) ∧
    (∃ (s : State), ∃ (x : Member), ∃ (xs : List Member), ∃ (count mr nc : Nat), ∃ (z : Bool), ∃ (fmt : Word), (let c := s.sel.unit
     (let m := (s.core c).mat
     m.queue = x :: xs ∧ (x.op = .mloop count mr nc z fmt ∧ (x.started = true ∧ (x.due ≤ s.ac ∧ (x.done < count ∧ (x.slot < 4 ∧ (mr ≤ 64 ∧ (nc ≤ 64)))))))))) ∧
    (∃ (s : State), ∃ (x : Member), ∃ (xs : List Member), ∃ (mr nc : Nat), ∃ (z : Bool), ∃ (fmt : Word), (let c := s.sel.unit
     (s.core c).mat.queue = x :: xs ∧ (x.op = .mloop 0 mr nc z fmt ∧ (x.due ≤ s.ac)))) ∧
    (∃ (s : State), ∃ (x : Member), ∃ (xs : List Member), ∃ (off st sat : Nat), ∃ (bf z int : Bool), (let c := s.sel.unit
     (let m := (s.core c).mat
     (let w := if bf then 2 else 4
     m.queue = x :: xs ∧ (x.op = .drainV off st bf z int sat ∧ (x.due ≤ s.ac ∧ (64 * w ≤ st ∧ (x.slot < 4)))))))) ∧
    (∃ (s : State), ∃ (x : Member), ∃ (xs : List Member), ∃ (n r0 c0 tag : Nat), ∃ (act : Mask), (let c := s.sel.unit
     (s.core c).mat.queue = x :: xs ∧ (x.op = .drainReg n r0 c0 act tag ∧ (x.due ≤ s.ac)))) ∧
    (∃ (s : State), ∃ (x : Member), ∃ (xs : List Member), ∃ (hd : Word), ∃ (e : Nat), ∃ (z : Bool), (let c := s.sel.unit
     (s.core c).mat.queue = x :: xs ∧ (x.op = .drainPort hd e z ∧ (portGone s hd = true)))) ∧
    (∃ (s : State), ∃ (x : Member), ∃ (xs : List Member), ∃ (hd : Word), ∃ (e : Nat), ∃ (z : Bool), (let c := s.sel.unit
     (s.core c).mat.queue = x :: xs ∧ (x.op = .drainPort hd e z ∧ (portGone s hd = false ∧ (portReady s hd = true ∧ (x.started = false)))))) ∧
    (∃ (s : State), ∃ (x : Member), ∃ (xs : List Member), ∃ (hd : Word), ∃ (e : Nat), ∃ (z : Bool), (let c := s.sel.unit
     (s.core c).mat.queue = x :: xs ∧ (x.op = .drainPort hd e z ∧ (portGone s hd = false ∧ (portReady s hd = true ∧ (x.started = true ∧ (x.due ≤ s.ac ∧ (sendTurn s (handleIdx hd) = true)))))))) :=
  ⟨⟨atMatrixStepsAndDrainsExecute1, memberMatrixStepsAndDrainsExecute1, [], 2, 1, 1, true, 0x110000, by decide +kernel⟩,
   ⟨atMatrixStepsAndDrainsExecute2, memberMatrixStepsAndDrainsExecute2, [], 2, 1, 1, true, 0x110000, by decide +kernel⟩,
   ⟨atMatrixStepsAndDrainsExecute3, headMember (wHead (.mloop 0 1 1 true 0x110000) wSlot), [], 1, 1, true, 0x110000, by decide +kernel⟩,
   ⟨atMatrixStepsAndDrainsExecute4, headMember (wHead (.drainV 0x100 256 false true false 0) wSlot), [], 0x100, 256, 0, false, true, false,
     by decide +kernel⟩,
   ⟨atMatrixStepsAndDrainsExecute5, headMember (wHead (.drainReg 2 0 0 7 3) wSlot), [], 2, 0, 0, 3, 7, by decide +kernel⟩,
   ⟨atMatrixStepsAndDrainsExecute6c, headMember (wHead (.drainPort 0x40 64 true) wSlot), [], 0x40, 64, true, by decide +kernel⟩,
   ⟨atMatrixStepsAndDrainsExecute6, headMember (wHead (.drainPort 0x40 64 true) wSlot), [], 0x40, 64, true, by decide +kernel⟩,
   ⟨atMatrixStepsAndDrainsExecute6b, memberMatrixStepsAndDrainsExecute6, [], 0x40, 64, true, by decide +kernel⟩⟩

theorem met_TransportExecutesAndSequencersGiveUp :
    (∃ (s : State), ∃ (x : Member), ∃ (xs : List Member), (let c := s.sel.unit
     (let a := accSlot s c x.slot
     (let blk := ((s.core c).mat.owner).getD 0
     (let base := (s.block blk).voff
     (let bad := fun (off : Nat) => badAt s (vaultKey c (base + off)) 4
     (let words : List Nat := match x.op with
           | .ldk o st => (List.range a.tm).flatMap fun i => (List.range a.tn).map fun j => o + i * st + 4 * j
           | .lda o => (List.range a.tm).map fun i => o + 4 * i
           | .ldb o => (List.range a.tn).map fun j => o + 4 * j
           | _ => []
     (s.core c).mat.queue = x :: xs ∧ (x.due ≤ s.ac ∧ (((∃ o st, x.op = .ldk o st) ∨ (∃ o, x.op = .lda o) ∨ (∃ o, x.op = .ldb o) ∨ (∃ m n, x.op = .size m n)) ∧ ((∀ off ∈ words, bad off = false))))))))))) ∧
    (∃ (s : State), ∃ (x : Member), ∃ (xs : List Member), (let c := s.sel.unit
     (let a := accSlot s c x.slot
     (let blk := ((s.core c).mat.owner).getD 0
     (let base := (s.block blk).voff
     (let bad := fun (off : Nat) => badAt s (vaultKey c (base + off)) 4
     (let words : List Nat := match x.op with
           | .ldk o st => (List.range a.tm).flatMap fun i => (List.range a.tn).map fun j => o + i * st + 4 * j
           | .lda o => (List.range a.tm).map fun i => o + 4 * i
           | .ldb o => (List.range a.tn).map fun j => o + 4 * j
           | _ => []
     (let loaded := memberDone c (onSlot c x.slot (tileLoad s c base x.op) s)
     (s.core c).mat.queue = x :: xs ∧ (x.due ≤ s.ac ∧ (((∃ o st, x.op = .ldk o st) ∨ (∃ o, x.op = .lda o) ∨ (∃ o, x.op = .ldb o) ∨ (∃ m n, x.op = .size m n)) ∧ (∃ (good rest : List Nat), ∃ (off u : Nat), words = good ++ off :: rest ∧ ((∀ o ∈ good, bad o = false) ∧ (bad off = true ∧ ((let uid := ((s.allTeams.find? fun t => t.tid == x.tid && t.blk == blk).map teamUid).getD (4 * blk)
     (let q := { loaded with fresh := loaded.fresh + 2 ^ 20 + 1 }
     faultTeam q (s.block blk).grid uid = some u)))))))))))))))) ∧
    (∃ (s : State), ∃ (x : Member), ∃ (xs : List Member), (let c := s.sel.unit
     (s.core c).mat.queue = x :: xs ∧ (x.due ≤ s.ac ∧ (∃ off st bf, x.op = .stp off st bf)))) ∧
    (∃ (s : State), ∃ (x : Member), ∃ (xs : List Member), (let c := s.sel.unit
     (s.core c).mat.queue = x :: xs ∧ (x.due ≤ s.ac ∧ (∃ off, x.op = .stf off)))) ∧
    (∃ (s : State), ∃ (x : Member), ∃ (xs : List Member), (let c := s.sel.unit
     (s.core c).mat.queue = x :: xs ∧ (x.due ≤ s.ac ∧ (∃ eps tag, x.op = .cost eps tag)))) ∧
    (∃ (s : State), ∃ (x : Member), ∃ (xs : List Member), ∃ (limit tag n : Nat), ∃ (tol : Word), (let c := s.sel.unit
     (let a := accSlot s c x.slot
     (let meets := fun k => decodeFp fp32 (Claims.sweepError a k).toNat |>.lt (decodeFp fp32 tol.toNat)
     (s.core c).mat.queue = x :: xs ∧ (x.op = .bal limit tol tag ∧ (x.due ≤ s.ac ∧ (x.slot < 4 ∧ (n ≤ limit ∧ ((∀ k < n, meets k = false) ∧ ((n = limit ∨ meets n = true))))))))))) ∧
    (∃ (a : AccSlot), a.tn ≤ 64) ∧
    (∃ (s : State), ∃ (x : Member), ∃ (xs : List Member), ∃ (sts : List Nat), ∃ (k count mr nc : Nat), ∃ (z : Bool), ∃ (fmt : Word), (let c := s.sel.unit
     (let m := (s.core c).mat
     m.queue = x :: xs ∧ (x.op = .mloop count mr nc z fmt ∧ (starvedOn s c = some sts ∧ (m.owner = some k ∧ (teamsOf s k = [] ∧ ((∃ st ∈ sts, fillsOf s c st = [] ∧ (vget [] (s.core c).fifo st).length < rowBytes fmt st))))))))) :=
  ⟨⟨atTransportExecutesAndSequencersGiveUp1, headMember (wHead (.ldk 0 64) wTile), [], by decide +kernel, by decide +kernel,
     .inl ⟨0, 64, by decide +kernel⟩, by decide +kernel⟩,
   ⟨atTransportExecutesAndSequencersGiveUp1b, headMember (wHead (.ldk 0 64) wTile), [], by decide +kernel, by decide +kernel,
     .inl ⟨0, 64, by decide +kernel⟩, [], [4, 64, 68], 0, 0, by decide +kernel, by decide +kernel, by decide +kernel, by decide +kernel⟩,
   ⟨atTransportExecutesAndSequencersGiveUp1c, headMember (wHead (.stp 0 64 true) wTile), [], by decide +kernel, by decide +kernel, 0, 64, true,
     by decide +kernel⟩,
   ⟨atTransportExecutesAndSequencersGiveUp1d, headMember (wHead (.stf 0) wTile), [], by decide +kernel, by decide +kernel, 0, by decide +kernel⟩,
   ⟨atTransportExecutesAndSequencersGiveUp1e, headMember (wHead (.cost 0x3F800000 3) wTile), [], by decide +kernel, by decide +kernel, 0x3F800000,
     3, by decide +kernel⟩,
   ⟨atTransportExecutesAndSequencersGiveUp2c, headMember (wHead (.bal 0 0 3) wTile), [], 0, 3, 0, 0, by decide +kernel⟩,
   ⟨wTile, by decide +kernel⟩,
   ⟨atTransportExecutesAndSequencersGiveUp4, headMember (wHead (.mloop 2 1 1 true 0x110000) wSlot), [], [0, 1], 9, 2, 1, 1, true, 0x110000,
     by decide +kernel⟩⟩

theorem met_CollectivesArePostedAndAwaited :
    (∃ (d a b : RegF), ∃ (l : Word), ∃ (s c : State), ∃ (card : List Byte), ∃ (i : Nat), (let ops := [srcPair a, src b, dst d]
     (let va := (rdPair s a (lowestLane s.team.active)).toNat % 2 ^ 57
     (let x := collDesc card ((rdu s b).toNat % 2 ^ 16) l.toInt
     (let g := groupEntry s s.myCtx x.group
     Issuing s ∧ (Ready s false ops ∧ (isScalar d = true ∧ (isScalar a = true ∧ (isVec b = false ∧ (va % 64 = 0 ∧ (acqPending s.team = false ∧ (memDrained s.team = true ∧ (readCard va 64 (afterReads s ops) = .ok card c ∧ (fieldsOk x = true ∧ (buffersClash x g.2.2 g.2.1 = false ∧ (g.2.2 ≠ 0 ∧ ((x.oper = 4 → x.root < g.2.2) ∧ (pendCount s.team < 16 ∧ (findColl s s.myCtx x.group x.seq = some i ∧ ((s.coll i).desc = x)))))))))))))))))))) ∧
    (∃ (d a b : RegF), ∃ (l : Word), ∃ (s c : State), ∃ (card : List Byte), ∃ (i : Nat), (let ops := [srcPair a, src b, dst d]
     (let va := (rdPair s a (lowestLane s.team.active)).toNat % 2 ^ 57
     (let x := collDesc card ((rdu s b).toNat % 2 ^ 16) l.toInt
     (let g := groupEntry s s.myCtx x.group
     Issuing s ∧ (Ready s false ops ∧ (isScalar d = true ∧ (isScalar a = true ∧ (isVec b = false ∧ (va % 64 = 0 ∧ (acqPending s.team = false ∧ (memDrained s.team = true ∧ (readCard va 64 (afterReads s ops) = .ok card c ∧ (fieldsOk x = true ∧ (buffersClash x g.2.2 g.2.1 = false ∧ (g.2.2 ≠ 0 ∧ ((x.oper = 4 → x.root < g.2.2) ∧ (pendCount s.team < 16 ∧ (findColl s s.myCtx x.group x.seq = none ∧ (freeEntry s = some i ∧ ((gridEntries s s.myBlock.grid).length < (s.grid s.myBlock.grid).launch.collent))))))))))))))))))))) ∧
    (∃ p, p ∈ ([(.cwaitTicket, 0), (.cwaitLocal, 1), (.cwaitGlobal, 2)] : List ((Hd → RegF → Instr) × Nat)) ∧ (∃ (a : RegF), ∃ (s : State), (let w := rdu s a
     (let i := w.toNat % 64
     (let c := s.coll i
     Issuing s ∧ (Ready s false [src a] ∧ (isVec a = false ∧ ((p.2 = 0 ∨ acqPending s.team = false) ∧ (c.gen ≠ w.toNat / 64 % 2 ^ 16))))))))) ∧
    (∃ p, p ∈ ([(.cwaitTicket, 0), (.cwaitLocal, 1), (.cwaitGlobal, 2)] : List ((Hd → RegF → Instr) × Nat)) ∧ (∃ (a : RegF), ∃ (s : State), (let w := rdu s a
     (let i := w.toNat % 64
     (let c := s.coll i
     Issuing s ∧ (Ready s false [src a] ∧ (isVec a = false ∧ ((p.2 = 0 ∨ acqPending s.team = false) ∧ (c.gen = w.toNat / 64 % 2 ^ 16 ∧ ((c.st = .free ∨ c.grid ≠ s.myBlock.grid))))))))))) ∧
    (∃ p, p ∈ ([(.cwaitTicket, 0), (.cwaitLocal, 1), (.cwaitGlobal, 2)] : List ((Hd → RegF → Instr) × Nat)) ∧ (∃ (a : RegF), ∃ (s : State), (let w := rdu s a
     (let i := w.toNat % 64
     (let c := s.coll i
     Issuing s ∧ (Ready s false [src a] ∧ (isVec a = false ∧ ((p.2 = 0 ∨ acqPending s.team = false) ∧ (c.gen = w.toNat / 64 % 2 ^ 16 ∧ (c.st ≠ .free ∧ (c.grid = s.myBlock.grid ∧ (c.st = .error)))))))))))) ∧
    (∃ p, p ∈ ([(.cwaitTicket, 0), (.cwaitLocal, 1), (.cwaitGlobal, 2)] : List ((Hd → RegF → Instr) × Nat)) ∧ (∃ (a : RegF), ∃ (s : State), (let w := rdu s a
     (let i := w.toNat % 64
     (let c := s.coll i
     Issuing s ∧ (Ready s false [src a] ∧ (isVec a = false ∧ ((p.2 = 0 ∨ acqPending s.team = false) ∧ (c.gen = w.toNat / 64 % 2 ^ 16 ∧ (c.st ≠ .free ∧ (c.grid = s.myBlock.grid ∧ (c.st = .started ∧ (p.2 = 0))))))))))))) ∧
    (∃ p, p ∈ ([(.cwaitTicket, 0), (.cwaitLocal, 1), (.cwaitGlobal, 2)] : List ((Hd → RegF → Instr) × Nat)) ∧ (∃ (a : RegF), ∃ (s : State), (let w := rdu s a
     (let i := w.toNat % 64
     (let c := s.coll i
     Issuing s ∧ (Ready s false [src a] ∧ (isVec a = false ∧ ((p.2 = 0 ∨ acqPending s.team = false) ∧ (c.gen = w.toNat / 64 % 2 ^ 16 ∧ (c.st ≠ .free ∧ (c.grid = s.myBlock.grid ∧ (c.st = .loc ∧ (p.2 < 2))))))))))))) ∧
    (∃ p, p ∈ ([(.cwaitTicket, 0), (.cwaitLocal, 1), (.cwaitGlobal, 2)] : List ((Hd → RegF → Instr) × Nat)) ∧ (∃ (a : RegF), ∃ (s : State), (let w := rdu s a
     (let i := w.toNat % 64
     (let c := s.coll i
     Issuing s ∧ (Ready s false [src a] ∧ (isVec a = false ∧ ((p.2 = 0 ∨ acqPending s.team = false) ∧ (c.gen = w.toNat / 64 % 2 ^ 16 ∧ (c.st ≠ .free ∧ (c.grid = s.myBlock.grid ∧ ((c.st = .posted ∨ (c.st = .started ∧ p.2 ≠ 0) ∨ (c.st = .loc ∧ p.2 = 2)))))))))))))) :=
  ⟨⟨104, 98, 100, 0, atCollectivesArePostedAndAwaited1b,
     (gc (readCard 0x40000 64 (afterReads atCollectivesArePostedAndAwaited1b [srcPair 98, src 100, dst 104]))).2, wCard, 0,
     issuing_of (by decide +kernel), ready_of (by decide +kernel), by decide +kernel, by decide +kernel, by decide +kernel, by decide +kernel,
     by decide +kernel, by decide +kernel, by exact card_of (by decide +kernel), by decide +kernel⟩,
   ⟨104, 98, 100, 0, atCollectivesArePostedAndAwaited1,
     (gc (readCard 0x40000 64 (afterReads atCollectivesArePostedAndAwaited1 [srcPair 98, src 100, dst 104]))).2, wCard, 0,
     issuing_of (by decide +kernel), ready_of (by decide +kernel), by decide +kernel, by decide +kernel, by decide +kernel, by decide +kernel,
     by decide +kernel, by decide +kernel, by exact card_of (by decide +kernel), by decide +kernel⟩,
   ⟨_, List.Mem.head _, 98, atCollectivesArePostedAndAwaited2e, issuing_of (by decide +kernel), ready_of (by decide +kernel), by decide +kernel⟩,
   ⟨_, List.Mem.head _, 98, atCollectivesArePostedAndAwaited2f, issuing_of (by decide +kernel), ready_of (by decide +kernel), by decide +kernel⟩,
   ⟨_, List.Mem.head _, 98, atCollectivesArePostedAndAwaited2c, issuing_of (by decide +kernel), ready_of (by decide +kernel), by decide +kernel⟩,
   ⟨_, List.Mem.head _, 98, atCollectivesArePostedAndAwaited2, issuing_of (by decide +kernel), ready_of (by decide +kernel), by decide +kernel⟩,
   ⟨_, List.Mem.head _, 98, atCollectivesArePostedAndAwaited2b, issuing_of (by decide +kernel), ready_of (by decide +kernel), by decide +kernel⟩,
   ⟨_, List.Mem.tail _ (List.Mem.head _), 98, atCollectivesArePostedAndAwaited2, issuing_of (by decide +kernel), ready_of (by decide +kernel),
     by decide +kernel⟩⟩

theorem met_CollectivesRunToTheirEnd :
    (∃ (s : State), (let i := s.sel.sub
     (let c := s.coll i
     (let p := postOf i s
     (let same := fun (q : Post) => q.coord == p.coord && (q.group == p.group && q.seq == p.seq)
     (let mine := s.posts.filter same ++ [p]
     s.sel.unit = 0 ∧ (s.linked = true ∧ (c.st = .posted ∧ ((∀ q ∈ s.posts, same q = true → q.pkg ≠ p.pkg) ∧ ((∀ q ∈ s.creqs, q.key ≠ c.key) ∧ ((∀ q ∈ s.grants, q.key ≠ c.key) ∧ ((∀ m ∈ s.notices, m.1 = i → m.2.1 ≠ c.gen) ∧ (mine.length < (mine.headD p).n))))))))))))) ∧
    (∃ (s : State), (let i := s.sel.sub
     (let c := s.coll i
     (let p := postOf i s
     (let same := fun (q : Post) => q.coord == p.coord && (q.group == p.group && q.seq == p.seq)
     (let mine := s.posts.filter same ++ [p]
     s.sel.unit = 0 ∧ (s.linked = true ∧ (c.st = .posted ∧ ((∀ q ∈ s.posts, same q = true → q.pkg ≠ p.pkg) ∧ ((∀ q ∈ s.creqs, q.key ≠ c.key) ∧ ((∀ q ∈ s.grants, q.key ≠ c.key) ∧ ((∀ m ∈ s.notices, m.1 = i → m.2.1 ≠ c.gen) ∧ ((mine.headD p).n ≤ mine.length ∧ ((∃ q ∈ mine, q.fields ≠ p.fields))))))))))))))) ∧
    (∃ (s : State), (let i := s.sel.sub
     (let c := s.coll i
     (let p := postOf i s
     (let same := fun (q : Post) => q.coord == p.coord && (q.group == p.group && q.seq == p.seq)
     (let mine := s.posts.filter same ++ [p]
     s.sel.unit = 0 ∧ (s.linked = true ∧ (c.st = .posted ∧ ((∀ q ∈ s.posts, same q = true → q.pkg ≠ p.pkg) ∧ ((∀ q ∈ s.creqs, q.key ≠ c.key) ∧ ((∀ q ∈ s.grants, q.key ≠ c.key) ∧ ((∀ m ∈ s.notices, m.1 = i → m.2.1 ≠ c.gen) ∧ ((mine.headD p).n ≤ mine.length ∧ ((∀ q ∈ mine, q.fields = p.fields) ∧ (mget? s.scheds p.sched = none))))))))))))))) ∧
    (∃ (s : State), (let i := s.sel.sub
     (let c := s.coll i
     (let p := postOf i s
     (let same := fun (q : Post) => q.coord == p.coord && (q.group == p.group && q.seq == p.seq)
     (let mine := s.posts.filter same ++ [p]
     s.sel.unit = 0 ∧ (s.linked = true ∧ (c.st = .posted ∧ ((∀ q ∈ s.posts, same q = true → q.pkg ≠ p.pkg) ∧ ((∀ q ∈ s.creqs, q.key ≠ c.key) ∧ ((∀ q ∈ s.grants, q.key ≠ c.key) ∧ ((∀ m ∈ s.notices, m.1 = i → m.2.1 ≠ c.gen) ∧ ((mine.headD p).n ≤ mine.length ∧ ((∀ q ∈ mine, q.fields = p.fields) ∧ ((mget? s.scheds p.sched).isSome))))))))))))))) ∧
    (∃ (s : State), ∃ (r : CollReq), s.creqs[s.sel.sub]? = some r ∧ (mayGrant s s.sel.sub = true)) ∧
    (∃ (s : State), ∃ (r : CollReq), s.creqs[s.sel.sub]? = some r ∧ (r.arrived + 2 ^ 20 ≤ s.ac)) ∧
    (∃ (s : State), ∃ (r o : CollReq), ∃ (k : Nat), s.creqs[s.sel.sub]? = some r ∧ (s.creqs[k]? = some o ∧ (k < s.sel.sub ∧ (o.arrived + 2 ^ 20 ≤ s.ac ∧ (((∃ m ∈ o.members, m ∈ r.members) ∨ (∃ w ∈ mget [] s.scheds o.sched, w ∈ mget [] s.scheds r.sched))))))) ∧
    (∃ (s : State), s.linked = false) ∧
    (∃ (s : State), ∃ (g : Grant), s.linked = true ∧ ((s.grants.find? fun x => x.members.contains Config.packageIndex && !x.received) = some g ∧ ((let at_ := (List.range 64).find? fun i => (s.coll i).st == .posted && (s.coll i).key == g.key
     at_ = none)))) ∧
    (∃ (s : State), ∃ (g : Grant), s.linked = true ∧ ((s.grants.find? fun x => x.members.contains Config.packageIndex && !x.received) = some g ∧ ((let at_ := (List.range 64).find? fun i => (s.coll i).st == .posted && (s.coll i).key == g.key
     ∃ i, at_ = some i)))) ∧
    (∃ (s : State), ∃ (a n : Nat), (let i := s.sel.unit
     (let c := s.coll i
     s.sel.sub = 0 ∧ (c.st = .started ∧ (c.fault = none ∧ (c.desc.isBound = false ∧ (c.desc.isPort = false ∧ (pieceAt [(c.desc.send, sendBytes c.desc c.n c.member)] c.sent = some (a, n) ∧ ((c.n = 1 ∨ s.linked = true) ∧ ((∀ j < 64, sendHas s j = true → c.rank ≤ (s.coll j).rank) ∧ (partCut s c.ctx (a % 2 ^ 57) = false ∧ (∃ pa k, engXl s c.ctx .load (a % 2 ^ 57) = .inl pa ∧ (paKey s pa = some k ∧ (badAt s k n = false)))))))))))))) ∧
    (∃ (s : State), ∃ (a n : Nat), (let i := s.sel.unit
     (let c := s.coll i
     s.sel.sub = 0 ∧ (c.st = .started ∧ (c.fault = none ∧ (c.desc.isBound = false ∧ (c.desc.isPort = false ∧ (pieceAt [(c.desc.send, sendBytes c.desc c.n c.member)] c.sent = some (a, n) ∧ ((c.n = 1 ∨ s.linked = true) ∧ ((∀ j < 64, sendHas s j = true → c.rank ≤ (s.coll j).rank) ∧ (partCut s c.ctx (a % 2 ^ 57) = false ∧ (∃ e, engXl s c.ctx .load (a % 2 ^ 57) = .inr e)))))))))))) ∧
    (∃ (s : State), ∃ (a n : Nat), ∃ (bs : List Byte), (let i := s.sel.unit
     (let c := s.coll i
     s.sel.sub = 1 ∧ (c.st = .started ∧ (c.fault = none ∧ (pieceAt [(c.desc.recv, recvBytes c.desc c.n)] c.recvd = some (a, n) ∧ (recvPiece s i c n = some bs ∧ ((∀ j < 64, recvReady s j = true → c.rank ≤ (s.coll j).rank) ∧ (partCut s c.ctx (a % 2 ^ 57) = false ∧ (∃ pa, engXl s c.ctx .store (a % 2 ^ 57) = .inl pa)))))))))) ∧
    (∃ (s : State), ∃ (a n : Nat), ∃ (bs : List Byte), (let i := s.sel.unit
     (let c := s.coll i
     s.sel.sub = 1 ∧ (c.st = .started ∧ (c.fault = none ∧ (pieceAt [(c.desc.recv, recvBytes c.desc c.n)] c.recvd = some (a, n) ∧ (recvPiece s i c n = some bs ∧ ((∀ j < 64, recvReady s j = true → c.rank ≤ (s.coll j).rank) ∧ (partCut s c.ctx (a % 2 ^ 57) = false ∧ (∃ e, engXl s c.ctx .store (a % 2 ^ 57) = .inr e)))))))))) ∧
    (∃ (s : State), (let i := s.sel.unit
     (let j := s.sel.word % 2 ^ 14
     s.sel.sub = 2 ∧ ((s.coll i).st = .started ∧ (j ≠ (s.coll i).member ∧ (j < (s.coll i).n ∧ (s.linked = true))))))) ∧
    (∃ (s : State), (let i := s.sel.unit
     (let k := s.sel.sub
     (let c := s.coll i
     (let b := s.block k
     (let l := (s.grid c.grid).launch
     c.st = .started ∧ (c.fault = none ∧ (c.chunks.contains k = true ∧ ((c.n = 1 ∨ s.linked = true) ∧ ((∀ j < 64, sendHas s j = true → c.rank ≤ (s.coll j).rank) ∧ (badAt s (vaultKey b.core (b.voff + l.cboff)) l.cbchunk = true))))))))))) ∧
    (∃ (s : State), (let i := s.sel.unit
     (let k := s.sel.sub
     (let c := s.coll i
     (let b := s.block k
     (let l := (s.grid c.grid).launch
     c.st = .started ∧ (c.fault = none ∧ (c.chunks.contains k = true ∧ ((c.n = 1 ∨ s.linked = true) ∧ ((∀ j < 64, sendHas s j = true → c.rank ≤ (s.coll j).rank) ∧ (badAt s (vaultKey b.core (b.voff + l.cboff)) l.cbchunk = false))))))))))) ∧
    (∃ dt, dt ∈ [1, 2, 3] ∧ (∃ (vs ws : List Nat), vs.Perm ws)) ∧
    (∃ (s : State), (let c := s.coll s.sel.unit
     c.st = .started ∧ (c.fault = none ∧ (sendBytes c.desc c.n c.member ≤ c.sent ∧ (recvBytes c.desc c.n ≤ c.recvd ∧ (c.chunks = [])))))) ∧
    (∃ (s : State), s.linked = true ∧ (s.sel.sub ≠ 0 ∧ ((∀ i < 64, (s.coll i).moves = true → (s.coll i).rank ≠ s.sel.word)))) ∧
    (∃ (s : State), (s.coll s.sel.unit).st = .loc ∧ (s.sel.sub = 0 ∧ (s.linked = true))) ∧
    (∃ (s : State), (let i := s.sel.unit
     (let c := s.coll i
     (let e := s.sel.word
     ((c.st = .posted ∧ (e = ceMISMATCH ∨ e = ceDESC)) ∨ ((c.st = .posted ∨ c.st = .started) ∧ (e = ceLOST ∨ e = ceCANCELLED ∨ e = ceABANDONED))) ∧ ((e = ceLOST ∨ s.linked = true)))))) ∧
    (∃ (s : State), ∃ (sub : Nat), ∃ (addr : DWord), (let c := s.coll s.sel.unit
     c.fault = some (sub, addr) ∧ (c.raised = false ∧ (∃ u, c.uid = some u ∧ (uidSaved s c.grid u = true))))) ∧
    (∃ (s : State), ∃ (sub : Nat), ∃ (addr : DWord), (let c := s.coll s.sel.unit
     c.fault = some (sub, addr) ∧ (c.raised = false ∧ ((∀ u, c.uid = some u → uidSaved s c.grid u = false) ∧ (∃ u, collTeam s c = some u))))) ∧
    (∃ (s : State), ∃ (sub : Nat), ∃ (addr : DWord), (let c := s.coll s.sel.unit
     c.fault = some (sub, addr) ∧ (c.raised = false ∧ ((∀ u, c.uid = some u → uidSaved s c.grid u = false) ∧ (collTeam s c = none))))) ∧
    (∃ (i : Nat), ∃ (c : Nat), ∃ (w : Word), ∃ (t : Team), t.park = .cwait c w ∧ (w.toNat % 64 = i)) :=
  ⟨⟨atCollectivesRunToTheirEnd1c, by decide +kernel⟩,
   ⟨atCollectivesRunToTheirEnd1d, by decide +kernel⟩,
   ⟨atCollectivesRunToTheirEnd1b, by decide +kernel⟩,
   ⟨atCollectivesRunToTheirEnd1, by decide +kernel⟩,
   ⟨atCollectivesRunToTheirEnd2, { arrived := 3, coord := 0, ctx := 1, group := 2, seq := 5, members := [0], sched := 6 }, by decide +kernel⟩,
   ⟨atCollectivesRunToTheirEnd3, { arrived := 3, coord := 0, ctx := 1, group := 2, seq := 5, members := [0], sched := 6 }, by decide +kernel⟩,
   ⟨atCollectivesRunToTheirEnd4, { arrived := 9, coord := 0, ctx := 1, group := 2, seq := 5, members := [1, 2], sched := 6 },
     { arrived := 3, coord := 0, ctx := 1, group := 2, seq := 5, members := [0, 1], sched := 6 }, 0, by decide +kernel⟩,
   ⟨atCollectivesRunToTheirEnd5, by decide +kernel⟩,
   ⟨atCollectivesRunToTheirEnd6b, { rank := 9, coord := 0, ctx := 1, group := 2, seq := 5, members := [0], sched := 6 }, by decide +kernel,
     by decide +kernel, by decide +kernel⟩,
   ⟨atCollectivesRunToTheirEnd6, { rank := 9, coord := 0, ctx := 1, group := 2, seq := 5, members := [0], sched := 6 }, by decide +kernel,
     by decide +kernel, 0, by decide +kernel⟩,
   ⟨atCollectivesRunToTheirEnd7, 0, 8, by decide +kernel, by decide +kernel, by decide +kernel, by decide +kernel, by decide +kernel,
     by decide +kernel, by decide +kernel, by decide +kernel, by decide +kernel, 0x30000, hbmKey 0 0x3000, by decide +kernel⟩,
   ⟨atCollectivesRunToTheirEnd7b, 0, 8, by decide +kernel, by decide +kernel, by decide +kernel, by decide +kernel, by decide +kernel,
     by decide +kernel, by decide +kernel, by decide +kernel, by decide +kernel, efPAGE, by decide +kernel⟩,
   ⟨atCollectivesRunToTheirEnd8, 0x100, 8, [7,7,7,7,7,7,7,7], by decide +kernel, by decide +kernel, by decide +kernel, by decide +kernel,
     by decide +kernel, by decide +kernel, by decide +kernel, 0x30100, by decide +kernel⟩,
   ⟨atCollectivesRunToTheirEnd8b, 0x100, 8, [7,7,7,7,7,7,7,7], by decide +kernel, by decide +kernel, by decide +kernel, by decide +kernel,
     by decide +kernel, by decide +kernel, by decide +kernel, efPAGE, by decide +kernel⟩,
   ⟨atCollectivesRunToTheirEnd9, by decide +kernel⟩,
   ⟨atCollectivesRunToTheirEnd10b, by decide +kernel⟩,
   ⟨atCollectivesRunToTheirEnd10, by decide +kernel⟩,
   ⟨_, List.Mem.head _, [0x3F800000, 0x33800000, 0x33800000], [0x33800000, 0x33800000, 0x3F800000], by decide +kernel⟩,
   ⟨atCollectivesRunToTheirEnd13, by decide +kernel⟩,
   ⟨atCollectivesRunToTheirEnd14, by decide +kernel⟩,
   ⟨atCollectivesRunToTheirEnd15, by decide +kernel⟩,
   ⟨atCollectivesRunToTheirEnd16, by decide +kernel⟩,
   ⟨atCollectivesRunToTheirEnd17c, 3, 7, by decide +kernel, by decide +kernel, 0, by decide +kernel⟩,
   ⟨atCollectivesRunToTheirEnd17, 3, 7, by decide +kernel, by decide +kernel, by decide +kernel, 0, by decide +kernel⟩,
   ⟨atCollectivesRunToTheirEnd17b, 3, 7, by decide +kernel⟩,
   ⟨5, 1, 0x45, teamCollectivesRunToTheirEnd18, by decide +kernel⟩⟩

theorem met_BlocksArePlacedStartedAndEnded :
    (∃ (ts : List Team), ∃ (core cost tid : Nat), findSeat ts core cost = some tid) ∧
    (∃ (s : State), ∃ (core n o : Nat), 0 < n ∧ (vaultGap s core n = some o)) ∧
    (∃ (s : State), (s.grids.map (·.1)).Nodup) ∧
    (∃ (s t : State), ∃ (r : Bool), nextPlacement s = some (r, t)) ∧
    (∃ (s : State), nextPlacement s = none) ∧
    (∃ (s t : State), ∃ (g : Nat), placeNext g s = some t) ∧
    (∃ (s t : State), ∃ (g cl : Nat), placeBondIn g cl s = some t) ∧
    (∃ (s t : State), nextPlacement s = some (false, t) ∧ (readyBins s = [] ∧ (readyTasks s = []))) ∧
    (∃ (s t : State), nextPlacement s = some (true, t) ∧ (readyBins s = [] ∧ (readyTasks s = []))) ∧
    (∃ (s t : State), ∃ (g core key : Nat), ∃ (b : Block), ∃ (ts : List Team), placeOn g core b key ts s = some t) ∧
    (∃ (s t : State), ∃ (g core : Nat), ∃ (b : SavedBlock), restoreOn g core b s = some t) ∧
    (∃ (s : State), (let k := s.sel.unit
     (let b := s.block k
     b.phase = .starting ∧ (b.startAt ≤ s.ac ∧ (b.aborted = false))))) ∧
    (∃ (s : State), ∃ (k : Nat), (let b := s.block k
     (let img := if b.kind = .grid then readRange s (s.grid b.grid).vaultPa (s.grid b.grid).imgBytes else []
     ∃ i, i < b.vbytes ∧ (img.length ≤ i)))) ∧
    (∃ (s : State), ∃ (k : Nat), (let b := s.block k
     (let img := if b.kind = .grid then readRange s (s.grid b.grid).vaultPa (s.grid b.grid).imgBytes else []
     ∃ (a : Nat), (a < vaultKey b.core b.voff ∨ vaultKey b.core b.voff + max b.vbytes img.length ≤ a)))) ∧
    (∃ (s : State), (let k := s.sel.unit
     (let b := s.block k
     (mget? s.blocks k).isSome ∧ ((b.phase = .running ∨ (b.phase = .starting ∧ b.aborted = true)) ∧ (blockIdle s k = true))))) ∧
    (∃ (s : State), (let g := s.sel.unit
     (let x := s.grid g
     (mget? s.grids g).isSome ∧ (x.ended = false ∧ (gridIdle s g = true ∧ (s.replay = none ∧ (reportAddr x.pkt ≠ 0 ∧ (s.linked = true)))))))) :=
  ⟨⟨[wTeam, { wTeam with tid := 1, lanes := 400 }], 0, 384, 16, by decide +kernel⟩,
   ⟨wMem, 0, 128, 8192, by decide +kernel⟩,
   ⟨atBlocksArePlacedStartedAndEnded3, by decide +kernel⟩,
   ⟨atBlocksArePlacedStartedAndEnded11, ((nextPlacement atBlocksArePlacedStartedAndEnded11).getD (false, State.reset)).2, false, by decide +kernel⟩,
   ⟨atBlocksArePlacedStartedAndEnded6, by decide +kernel⟩,
   ⟨atBlocksArePlacedStartedAndEnded11, ((placeNext 1 atBlocksArePlacedStartedAndEnded11).getD State.reset), 1, by decide +kernel⟩,
   ⟨atBlocksArePlacedStartedAndEnded11, ((placeBondIn 1 0 atBlocksArePlacedStartedAndEnded11).getD State.reset), 1, 0, by decide +kernel⟩,
   ⟨atBlocksArePlacedStartedAndEnded9, ((nextPlacement atBlocksArePlacedStartedAndEnded9).getD (false, State.reset)).2, by decide +kernel⟩,
   ⟨atBlocksArePlacedStartedAndEnded10, ((nextPlacement atBlocksArePlacedStartedAndEnded10).getD (false, State.reset)).2, by decide +kernel⟩,
   ⟨atBlocksArePlacedStartedAndEnded11, (placeOn 1 0 { grid := 1 } 5 [wTeam] atBlocksArePlacedStartedAndEnded11).getD State.reset, 1, 0, 5,
     { grid := 1 }, [wTeam], by decide +kernel⟩,
   ⟨atBlocksArePlacedStartedAndEnded11,
     (restoreOn 1 0 { key := 0, block := { kind := .grid, grid := 1, vbytes := 128, bondSize := 1 }, teams := [{ wTeam with blk := 7, park := .run }], wbar := 0, record := List.replicate 40000 7 } atBlocksArePlacedStartedAndEnded11).getD State.reset, 1, 0, { key := 0, block := { kind := .grid, grid := 1, vbytes := 128, bondSize := 1 }, teams := [{ wTeam with blk := 7, park := .run }], wbar := 0, record := List.replicate 40000 7 }, by decide +kernel⟩,
   ⟨atBlocksArePlacedStartedAndEnded13, by decide +kernel⟩,
   ⟨atBlocksArePlacedStartedAndEnded14, 0, 5, by decide +kernel, by decide +kernel⟩,
   ⟨atBlocksArePlacedStartedAndEnded14, 0, 5, by decide +kernel⟩,
   ⟨atBlocksArePlacedStartedAndEnded15, by decide +kernel⟩,
   ⟨atBlocksArePlacedStartedAndEnded16, by decide +kernel⟩⟩

theorem met_BinsLaunchAndBlocksAreSaved :
    (∃ p, p ∈ ([(.binLaunch, binFull), (.binTimerExpiry, binExpired)] : List (Instr × (State → Nat → Nat → Bool))) ∧ (∃ (s t : State), (let c := s.sel.unit
     (let k := s.sel.sub
     (let q := refill c k s
     (mget? (s.core c).bins k).isSome ∧ (p.2 q c k = true ∧ (placeable s (s.grid (binAt s c k).grid).ctx = true ∧ (launchBin c k q = some t)))))))) ∧
    (∃ (s t : State), ∃ (c k : Nat), launchBin c k s = some t) ∧
    (∃ (s : State), ∃ (p : Nat × Block), ∃ (w : Nat), (let g := s.sel.unit
     (let x := s.grid g
     placeable s x.ctx = true ∧ (x.ended = false ∧ ((x.nextBlk < gridSize x ∨ x.restore ≠ []) ∧ ((if x.restore = [] then placeNext g s = none else restoreNext g s = none) ∧ ((sortBy (fun a b => b.2.lin ≤ a.2.lin) ((gridBlocks s g).filter fun p => savable s p.1)).head? = some p ∧ ((∃ u ∈ s.allTeams, u.blk = p.1) ∧ ((∀ u ∈ s.allTeams, u.blk = p.1 → u.park = .wbar w)))))))))) ∧
    (∃ (s : State), ∃ (k : Nat), (s.blocks.map (·.1)).Pairwise (· < ·) ∧ ((let b := s.block k
     b.matuse = true ∧ (b.phase = .running)))) :=
  ⟨⟨_, List.Mem.head _, atBinsLaunchAndBlocksAreSaved1, ((launchBin 0 0 (refill 0 0 atBinsLaunchAndBlocksAreSaved1)).getD State.reset),
     by decide +kernel⟩,
   ⟨atBinsLaunchAndBlocksAreSaved1, ((launchBin 0 0 atBinsLaunchAndBlocksAreSaved1).getD State.reset), 0, 0, by decide +kernel⟩,
   ⟨atBinsLaunchAndBlocksAreSaved3, (0, { phase := .running, vbytes := 16, voff := 983040 - 16, vheld := true }), 1, by decide +kernel⟩,
   ⟨atBinsLaunchAndBlocksAreSaved4b, 0, by decide +kernel, by decide +kernel⟩⟩

theorem met_ResultsSamplesAndStopsAdvance :
    (∃ (s : State), ∃ (tag : Nat), ∃ (x e : SfuEntry), ∃ (rest : List SfuEntry), vget [] (s.core (coreOf s.team.tid)).sfu (schedOf s.team.tid) = x :: rest ∧ (e ∈ rest ∧ (e.tag = tag))) ∧
    (∃ (s : State), ∃ (pre rest : List SfuEntry), ∃ (e : SfuEntry), ∃ (u : Team), (let c := s.sel.unit
     (let q := s.sel.sub
     q < 4 ∧ (vget [] (s.core c).sfu q = pre ++ e :: rest ∧ ((∀ x ∈ pre, ∃ a, x.start = some a ∧ a + 4 * x.groups ≤ s.ac) ∧ (e.start = none ∧ (s.teamAt e.tid = some u ∧ (u.present = true ∧ (u.tid = e.tid))))))))) ∧
    (∃ (a : RegF), ∃ (s : State), Issuing s ∧ (Ready s true [src a])) ∧
    (∃ (d a : RegF), ∃ (s : State), (let o := (rdu s a).toNat
     Issuing s ∧ (Ready s true [src a, dst d] ∧ (isScalar d = true ∧ (o % 128 = 0 ∧ (o + 256 ≤ s.myBlock.vbytes ∧ (pendCount s.team < 16 ∧ (acqPending s.team = false ∧ (atomWaits s (vaultKey s.myCore (s.myBlock.voff + o)) 256 = false))))))))) ∧
    (∃ (s : State), ∃ (u : Team), ∃ (core tid at_ : Nat), Claims.filed s ∧ (s.teamAt tid = some u ∧ (∃ i, (i < vaultKey core at_ ∨ vaultKey core at_ + 256 ≤ i)))) ∧
    (∃ (s : State), (let core := s.sel.unit / 4
     (let sched := s.sel.unit % 4
     (let g := s.sel.sub
     (let ch := vget {} (s.core core).sample sched
     sampleDue s core sched g = true ∧ (ch.closed = false ∧ ((ch.body = [] ∨ (ch.grid = g ∧ ch.body.length < 48))))))))) ∧
    (∃ (s : State), (let q := Claims.sel s
     s.sel.sub = 0 ∧ (s.hasTeam s.sel.unit = true ∧ (q.team.traced = true ∧ (q.team.tr.chunk ≠ [] ∧ (q.team.tr.opened + 65536 ≤ s.ac)))))) ∧
    (∃ (s : State), (let core := s.sel.unit / 64
     (let sched := s.sel.unit / 16 % 4
     (let ch := vget {} (s.core core).sample sched
     s.sel.sub = 1 ∧ (ch.body ≠ [] ∧ (ch.closed = false ∧ (ch.opened + 65536 ≤ s.ac ∧ ((vget [] (s.core core).outq sched).length < 8)))))))) ∧
    (∃ (s : State), ∃ (g u : Nat), ∃ (bs : List Byte), ∃ (rest : List (Nat × Nat × List Byte)), (let core := s.sel.unit / 4
     (let sched := s.sel.unit % 4
     (let x := s.grid g
     (let ring := fun (o : Nat) => (x.launch.tracebuf.toNat + o) % 2 ^ 57
     vget [] (s.core core).outq sched = (g, u, bs) :: rest ∧ (∃ e, devRead s x.ctx (ring 0) 8 = .inr e)))))) ∧
    (∃ (s : State), ∃ (g u : Nat), ∃ (bs : List Byte), ∃ (rest : List (Nat × Nat × List Byte)), (let core := s.sel.unit / 4
     (let sched := s.sel.unit % 4
     (let x := s.grid g
     (let ring := fun (o : Nat) => (x.launch.tracebuf.toNat + o) % 2 ^ 57
     (let cap := (x.launch.tracebytes - 64) / 64
     vget [] (s.core core).outq sched = (g, u, bs) :: rest ∧ (∃ (hb tb : List Byte), ∃ (ps : List (Nat × Nat)), devRead s x.ctx (ring 0) 8 = .inl hb ∧ (devRead s x.ctx (ring 8) 8 = .inl tb ∧ (devRange s x.ctx .store (piecesOf (ring 8) 16) = .inl ps ∧ ((let cut := vaCut s x.ctx (ring 0) 24 = true ∨ vaCut s x.ctx (ring (64 + 64 * (leNat tb % cap))) 64 = true
     (cap ≤ (leNat tb + 2 ^ 64 - leNat hb) % 2 ^ 64 ∨ cut)))))))))))) ∧
    (∃ (s : State), ∃ (g u : Nat), ∃ (bs : List Byte), ∃ (rest : List (Nat × Nat × List Byte)), (let core := s.sel.unit / 4
     (let sched := s.sel.unit % 4
     (let x := s.grid g
     (let ring := fun (o : Nat) => (x.launch.tracebuf.toNat + o) % 2 ^ 57
     (let cap := (x.launch.tracebytes - 64) / 64
     (let popped := s.onCore core fun c => { c with outq := vset c.outq sched rest }
     vget [] (s.core core).outq sched = (g, u, bs) :: rest ∧ (∃ (hb tb : List Byte), ∃ (ps : List (Nat × Nat)), devRead s x.ctx (ring 0) 8 = .inl hb ∧ (devRead s x.ctx (ring 8) 8 = .inl tb ∧ (devRange s x.ctx .store (piecesOf (ring 8) 16) = .inl ps ∧ ((let cut := vaCut s x.ctx (ring 0) 24 = true ∨ vaCut s x.ctx (ring (64 + 64 * (leNat tb % cap))) 64 = true
     ∃ (q r : State), (leNat tb + 2 ^ 64 - leNat hb) % 2 ^ 64 < cap ∧ (¬ cut ∧ (devWrite x.ctx (ring (64 + 64 * (leNat tb % cap))) bs popped = .inl q ∧ (devWrite x.ctx (ring 8) (leBytes 8 (leNat tb + 1)) q = .inl r))))))))))))))) ∧
    (∃ (s : State), ∃ (q : StopReq), ∃ (t : Team), s.stop = some q ∧ (stopTeam s = some t ∧ (q.taken = false ∧ (t.rwc.toNat = q.count ∧ (t.park = .run ∧ (t.trapReq = none)))))) ∧
    (∃ (s : State), ∃ (q : StopReq), ∃ (t : Team), s.stop = some q ∧ (stopTeam s = some t ∧ (q.taken = true ∧ (q.reported = false ∧ (reportAddr q.pkt ≠ 0 ∧ (s.linked = true ∧ ((let inTrap := t.hmode = true ∧ t.trap.tcause.toNat % 64 = 0x15 ∧ TeamEvent.stop ∉ t.events
     inTrap)))))))) ∧
    (∃ (s : State), ∃ (q : StopReq), ∃ (t : Team), s.stop = some q ∧ (stopTeam s = some t ∧ (q.taken = true ∧ (q.reported = false ∧ (reportAddr q.pkt ≠ 0 ∧ (s.linked = true ∧ ((let inTrap := t.hmode = true ∧ t.trap.tcause.toNat % 64 = 0x15 ∧ TeamEvent.stop ∉ t.events
     ¬ inTrap ∧ (t.park = .held))))))))) :=
  ⟨⟨atResultsSamplesAndStopsAdvance1, 3, sfuentryResultsSamplesAndStopsAdvance1, { tid := 0, tag := 3, groups := 2 },
     [{ tid := 0, tag := 3, groups := 2 }], by decide +kernel⟩,
   ⟨atResultsSamplesAndStopsAdvance2, [{ tid := 9, tag := 1, groups := 1, start := some 5 }], [], { tid := 0, tag := 3, groups := 2 },
     (State.team atResultsSamplesAndStopsAdvance2), by decide +kernel⟩,
   ⟨97, atResultsSamplesAndStopsAdvance3, issuing_of (by decide +kernel), ready_of (by decide +kernel)⟩,
   ⟨98, 97, atResultsSamplesAndStopsAdvance4, issuing_of (by decide +kernel), ready_of (by decide +kernel), by decide +kernel⟩,
   ⟨atResultsSamplesAndStopsAdvance5, (State.team atResultsSamplesAndStopsAdvance5), 0, 0, 256, filed_of (by decide +kernel) (by decide +kernel),
     by decide +kernel, vaultKey 0 0, by decide +kernel⟩,
   ⟨atResultsSamplesAndStopsAdvance6, by decide +kernel⟩,
   ⟨atResultsSamplesAndStopsAdvance7, by decide +kernel⟩,
   ⟨atResultsSamplesAndStopsAdvance8, by decide +kernel⟩,
   ⟨atResultsSamplesAndStopsAdvance9b, 0, 4, List.replicate 64 9, [], by decide +kernel, gr (devRead atResultsSamplesAndStopsAdvance9b 1 0x100 8),
     by decide +kernel⟩,
   ⟨atResultsSamplesAndStopsAdvance9c, 0, 4, List.replicate 64 9, [], by decide +kernel, List.replicate 8 0, le [(8, 5)],
     gl (devRange atResultsSamplesAndStopsAdvance9c 1 .store (piecesOf 0x108 16)), by decide +kernel, by decide +kernel, by decide +kernel,
     by decide +kernel⟩,
   ⟨atResultsSamplesAndStopsAdvance9, 0, 4, List.replicate 64 9, [], by decide +kernel, List.replicate 8 0, List.replicate 8 0,
     gl (devRange atResultsSamplesAndStopsAdvance9 1 .store (piecesOf 0x108 16)), by decide +kernel, by decide +kernel, by decide +kernel,
     gs (devWrite 1 0x140 (List.replicate 64 9) (atResultsSamplesAndStopsAdvance9.onCore 0 fun c => { c with outq := vset c.outq 0 [] })),
     gs (devWrite 1 0x108 (leBytes 8 1) (gs (devWrite 1 0x140 (List.replicate 64 9) (atResultsSamplesAndStopsAdvance9.onCore 0 fun c => { c with outq := vset c.outq 0 [] })))), by decide +kernel, by decide +kernel, inl_of (by decide +kernel), inl_of (by decide +kernel)⟩,
   ⟨atResultsSamplesAndStopsAdvance10, { ctx := 1, launch := 0, lin := 0, role := 0, count := 5, pkt := BitVec.ofNat 512 (0x1000 * 2 ^ 64) },
     State.team atResultsSamplesAndStopsAdvance10, by decide +kernel⟩,
   ⟨atResultsSamplesAndStopsAdvance10c,
     { ctx := 1, launch := 0, lin := 0, role := 0, count := 5, pkt := BitVec.ofNat 512 (0x1000 * 2 ^ 64), taken := true, named := some 0 },
     State.team atResultsSamplesAndStopsAdvance10c, by decide +kernel, by decide +kernel, by decide +kernel, by decide +kernel, by decide +kernel,
     by decide +kernel, by decide +kernel⟩,
   ⟨atResultsSamplesAndStopsAdvance10b,
     { ctx := 1, launch := 0, lin := 0, role := 0, count := 5, pkt := BitVec.ofNat 512 (0x1000 * 2 ^ 64), taken := true, named := some 0 },
     State.team atResultsSamplesAndStopsAdvance10b, by decide +kernel, by decide +kernel, by decide +kernel, by decide +kernel, by decide +kernel,
     by decide +kernel, by decide +kernel⟩⟩

theorem met_CommandsLaunchAndCopy :
    (∃ (s : State), (let q := s.sel.unit
     (let x := s.queue q
     s.power = .on ∧ (x.kind = 3 ∧ (s.linked = false))))) ∧
    (∃ (s : State), (let q := s.sel.unit
     (let x := s.queue q
     (let p := s.sel.pkt
     s.power = .on ∧ (x.kind = 3 ∧ (s.replay.isSome = true ∧ (isContinue p = false))))))) ∧
    (∃ (s : State), (let q := s.sel.unit
     (let x := s.queue q
     (let p := s.sel.pkt
     s.power = .on ∧ (x.kind = 3 ∧ (s.linked = true ∧ ((s.replay = none ∨ isContinue p = true) ∧ (x.cap < x.entries.length + 4)))))))) ∧
    (∃ (s : State), (let q := s.sel.unit
     (let x := s.queue q
     (let p := s.sel.pkt
     s.power = .on ∧ (x.kind = 3 ∧ (s.linked = true ∧ ((s.replay = none ∨ isContinue p = true) ∧ (x.entries.length + 4 ≤ x.cap)))))))) ∧
    (∃ (s : State), ∃ (q : Nat), ∃ (p : Packet), nextCommand s = some (q, p) ∧ (s.replay = none ∧ ((s.queues.map (·.1)).Pairwise (· < ·)))) ∧
    (∃ (q : Nat), q < 4096) ∧
    (∃ (s : State), ∃ (q : Nat), ∃ (p : Packet), Claims.serves s q p 1 0 ∧ (q < 4096 ∧ (body p 0 8 % 64 = 0 ∧ ((let c := Claims.running s q p
     ∃ f, devRead c (ctxOf p) (body p 0 8) 256 = .inr f))))) ∧
    (∃ (s : State), ∃ (q : Nat), ∃ (p : Packet), Claims.serves s q p 1 0 ∧ (q < 4096 ∧ (body p 0 8 % 64 = 0 ∧ ((let c := Claims.running s q p
     ∃ b, devRead c (ctxOf p) (body p 0 8) 256 = .inl b ∧ ((let l := launchRec b
     (let img := if l.vimgsec = 0 then none else (s.queue q).sizes.headD none
     launchOk b l img = false)))))))) ∧
    (∃ (s : State), ∃ (q : Nat), ∃ (p : Packet), Claims.serves s q p 1 0 ∧ (q < 4096 ∧ (body p 0 8 % 64 = 0 ∧ ((let c := Claims.running s q p
     ∃ b, devRead c (ctxOf p) (body p 0 8) 256 = .inl b ∧ ((let l := launchRec b
     (let img := if l.vimgsec = 0 then none else (s.queue q).sizes.headD none
     launchOk b l img = true ∧ ((l.cbcoll = 0 ∨ ∃ d, devRead c (ctxOf p) l.cbcoll.toNat 64 = .inl d ∧ boundOk c (ctxOf p) l d = true)))))))))) ∧
    (∃ x, x ∈ ([(.copyHostToDevice, 0), (.copyDeviceToHost, 1), (.copyDeviceToDevice, 2)] : List (Instr × Nat)) ∧ (∃ (s : State), ∃ (q : Nat), ∃ (p : Packet), Claims.serves s q p 2 x.2 ∧ ((x.2 < 2 → s.linked = true) ∧ ((let host := 16384 ≤ body p 24 2 ∧ body p 24 2 < 32768
     x.2 < 2 ∧ (¬ host)))))) ∧
    (∃ x, x ∈ ([(.copyHostToDevice, 0), (.copyDeviceToHost, 1), (.copyDeviceToDevice, 2)] : List (Instr × Nat)) ∧ (∃ (s : State), ∃ (q : Nat), ∃ (p : Packet), Claims.serves s q p 2 x.2 ∧ ((x.2 < 2 → s.linked = true) ∧ ((let host := 16384 ≤ body p 24 2 ∧ body p 24 2 < 32768
     (let c := if x.2 = 0 then (Claims.running s q p).heard else if x.2 = 1 then (Claims.running s q p).spoken else Claims.running s q p
     (x.2 < 2 → host) ∧ ((let src := body p 0 8
     (let dst := body p 8 8
     (let n := body p 16 8
     (let ep := body p 24 2
     (let ctx := ctxOf p
     ∃ t, copyLoop x.2 ctx ep (n / 128 + 1) src dst n c = (t, none))))))))))))) ∧
    (∃ x, x ∈ ([(.copyHostToDevice, 0), (.copyDeviceToHost, 1), (.copyDeviceToDevice, 2)] : List (Instr × Nat)) ∧ (∃ (s : State), ∃ (q : Nat), ∃ (p : Packet), Claims.serves s q p 2 x.2 ∧ ((x.2 < 2 → s.linked = true) ∧ ((let host := 16384 ≤ body p 24 2 ∧ body p 24 2 < 32768
     (let c := if x.2 = 0 then (Claims.running s q p).heard else if x.2 = 1 then (Claims.running s q p).spoken else Claims.running s q p
     (x.2 < 2 → host) ∧ ((let src := body p 0 8
     (let dst := body p 8 8
     (let n := body p 16 8
     (let ep := body p 24 2
     (let ctx := ctxOf p
     ∃ t f, copyLoop x.2 ctx ep (n / 128 + 1) src dst n c = (t, some f))))))))))))) ∧
    (∃ x, x ∈ ([(.copyHostToDevice, 0), (.copyDeviceToHost, 1), (.copyDeviceToDevice, 2)] : List (Instr × Nat)) ∧ (∃ (s : State), ∃ (q : Nat), ∃ (p : Packet), Claims.serves s q p 2 x.2 ∧ ((x.2 < 2 → s.linked = true) ∧ ((let host := 16384 ≤ body p 24 2 ∧ body p 24 2 < 32768
     (let c := if x.2 = 0 then (Claims.running s q p).heard else if x.2 = 1 then (Claims.running s q p).spoken else Claims.running s q p
     (x.2 < 2 → host) ∧ ((let src := body p 0 8
     (let dst := body p 8 8
     (let n := body p 16 8
     (let ep := body p 24 2
     (let ctx := ctxOf p
     0 < n ∧ (n ≤ 128 ∧ (x.2 = 0 ∧ (∃ t, devWrite ctx dst (memBytes c.mem (hostKey ep src) n) c = .inl t))))))))))))))) ∧
    (∃ x, x ∈ ([(.copyHostToDevice, 0), (.copyDeviceToHost, 1), (.copyDeviceToDevice, 2)] : List (Instr × Nat)) ∧ (∃ (s : State), ∃ (q : Nat), ∃ (p : Packet), Claims.serves s q p 2 x.2 ∧ ((x.2 < 2 → s.linked = true) ∧ ((let host := 16384 ≤ body p 24 2 ∧ body p 24 2 < 32768
     (let c := if x.2 = 0 then (Claims.running s q p).heard else if x.2 = 1 then (Claims.running s q p).spoken else Claims.running s q p
     (x.2 < 2 → host) ∧ ((let src := body p 0 8
     (let n := body p 16 8
     (let ctx := ctxOf p
     0 < n ∧ (n ≤ 128 ∧ (x.2 = 1 ∧ (∃ bs, devRead c ctx src n = .inl bs))))))))))))) ∧
    (∃ x, x ∈ ([(.copyHostToDevice, 0), (.copyDeviceToHost, 1), (.copyDeviceToDevice, 2)] : List (Instr × Nat)) ∧ (∃ (s : State), ∃ (q : Nat), ∃ (p : Packet), Claims.serves s q p 2 x.2 ∧ ((x.2 < 2 → s.linked = true) ∧ ((let host := 16384 ≤ body p 24 2 ∧ body p 24 2 < 32768
     (let c := if x.2 = 0 then (Claims.running s q p).heard else if x.2 = 1 then (Claims.running s q p).spoken else Claims.running s q p
     (x.2 < 2 → host) ∧ ((let src := body p 0 8
     (let dst := body p 8 8
     (let n := body p 16 8
     (let ctx := ctxOf p
     0 < n ∧ (n ≤ 128 ∧ (x.2 = 2 ∧ (∃ bs t, devRead c ctx src n = .inl bs ∧ (devWrite ctx dst bs c = .inl t))))))))))))))) :=
  ⟨⟨atCommandsLaunchAndCopy1c, by decide +kernel⟩,
   ⟨atCommandsLaunchAndCopy1d, by decide +kernel⟩,
   ⟨atCommandsLaunchAndCopy1b, by decide +kernel⟩,
   ⟨atCommandsLaunchAndCopy1, by decide +kernel⟩,
   ⟨atCommandsLaunchAndCopy2, 0, wPkt 1 0 [], by decide +kernel⟩,
   ⟨0, by decide +kernel⟩,
   ⟨atCommandsLaunchAndCopy4c, 0, wPkt 1 0 (le [(8, 0)]), by unfold Claims.serves; decide +kernel, by decide +kernel, by decide +kernel,
     gr (devRead atCommandsLaunchAndCopy4c 1 0 256), by decide +kernel⟩,
   ⟨atCommandsLaunchAndCopy4b, 0, wPkt 1 0 (le [(8, 0)]), by unfold Claims.serves; decide +kernel, by decide +kernel, by decide +kernel,
     gl (devRead atCommandsLaunchAndCopy4b 1 0 256), by decide +kernel, by decide +kernel⟩,
   ⟨atCommandsLaunchAndCopy4, 0, wPkt 1 0 (le [(8, 0)]), by unfold Claims.serves; decide +kernel, by decide +kernel, by decide +kernel,
     wRec ++ List.replicate (256 - wRec.length) 0, by decide +kernel, by decide +kernel, .inl (by decide +kernel)⟩,
   ⟨_, List.Mem.head _, atCommandsLaunchAndCopy5, 0, wPkt 2 0 (le [(8, 0), (8, 0x100), (8, 4), (2, 3)]), by unfold Claims.serves; decide +kernel,
     by decide +kernel, by decide +kernel⟩,
   ⟨_, List.Mem.head _, atCommandsLaunchAndCopy5b, 0, wPkt 2 0 (le [(8, 0), (8, 0x100), (8, 4), (2, 0x4003)]),
     by unfold Claims.serves; decide +kernel, by decide +kernel, by decide +kernel, _, pair_of (by decide +kernel)⟩,
   ⟨_, List.Mem.tail _ (List.Mem.tail _ (List.Mem.head _)), atCommandsLaunchAndCopy5e, 0, wPkt 2 2 (le [(8, 0), (8, 0x100), (8, 4), (2, 0x4003)]),
     by unfold Claims.serves; decide +kernel, by decide +kernel, by decide +kernel, _, _, pair_of_some (b := (0, 0)) (by decide +kernel)⟩,
   ⟨_, List.Mem.head _, atCommandsLaunchAndCopy5b, 0, wPkt 2 0 (le [(8, 0), (8, 0x100), (8, 4), (2, 0x4003)]),
     by unfold Claims.serves; decide +kernel, by decide +kernel, by decide +kernel, by decide +kernel, by decide +kernel, by decide +kernel, _,
     inl_of (by decide +kernel)⟩,
   ⟨_, List.Mem.tail _ (List.Mem.head _), atCommandsLaunchAndCopy5c, 0, wPkt 2 1 (le [(8, 0), (8, 0x100), (8, 4), (2, 0x4003)]),
     by unfold Claims.serves; decide +kernel, by decide +kernel, by decide +kernel, by decide +kernel, by decide +kernel, by decide +kernel,
     [1, 2, 3, 4], by decide +kernel⟩,
   ⟨_, List.Mem.tail _ (List.Mem.tail _ (List.Mem.head _)), atCommandsLaunchAndCopy5d, 0, wPkt 2 2 (le [(8, 0), (8, 0x100), (8, 4), (2, 0x4003)]),
     by unfold Claims.serves; decide +kernel, by decide +kernel, by decide +kernel, by decide +kernel, by decide +kernel, by decide +kernel,
     [1, 2, 3, 4], _, by decide +kernel, inl_of (by decide +kernel)⟩⟩

theorem met_MapCommandsTakeEffect :
    (∃ (s : State), ∃ (q k : Nat), ∃ (p : Packet), nextCommand s = some (q, p) ∧ (cmdOf p = 3 ∧ (subOf p = 0 ∧ (((if ctxOf p = 0 then freshCtx s else some (ctxOf p)) = some k) ∧ ((let legal := body p 0 8 % 4096 = 0 ∧ body p 0 8 < 2 ^ 56 ∧ 16384 ≤ body p 16 2 ∧ body p 16 2 < 32768
     legal)))))) ∧
    (∃ (s : State), ∃ (q k : Nat), ∃ (p : Packet), nextCommand s = some (q, p) ∧ (cmdOf p = 3 ∧ (subOf p = 0 ∧ (((if ctxOf p = 0 then freshCtx s else some (ctxOf p)) = some k) ∧ ((let legal := body p 0 8 % 4096 = 0 ∧ body p 0 8 < 2 ^ 56 ∧ 16384 ≤ body p 16 2 ∧ body p 16 2 < 32768
     ¬ legal)))))) ∧
    (∃ (s : State), ∃ (q k : Nat), ∃ (p : Packet), nextCommand s = some (q, p) ∧ (cmdOf p = 3 ∧ (subOf p = 0 ∧ (((if ctxOf p = 0 then freshCtx s else some (ctxOf p)) = some k) ∧ (ctxOf p = 0))))) ∧
    (∃ (s : State), ∃ (q : Nat), ∃ (p : Packet), Claims.serves s q p 3 1 ∧ (body p 12 1 = 0 ∧ (body p 0 8 % 4096 = 0))) ∧
    (∃ (s : State), ∃ (q : Nat), ∃ (p : Packet), Claims.serves s q p 3 1 ∧ (body p 12 1 = 1 ∧ (body p 0 8 % 65536 = 0))) ∧
    (∃ (s : State), ∃ (q : Nat), ∃ (p : Packet), Claims.serves s q p 3 1 ∧ ((1 < body p 12 1 ∨ body p 0 8 % (if body p 12 1 = 0 then 4096 else 65536) ≠ 0))) ∧
    (∃ (s : State), ∃ (q : Nat), ∃ (p : Packet), nextCommand s = some (q, p) ∧ (cmdOf p = 3 ∧ (ctxOf p ≠ 0 ∧ ((let c := takeCommand q p s
     subOf p = 2 ∧ (body p 0 2 < 4096 ∧ (body p 2 1 ≤ 3 ∧ (4 ≤ body p 3 1 ∧ (body p 3 1 ≤ 16 ∧ ((c.queue (body p 0 2)).entries = [])))))))))) ∧
    (∃ (s : State), ∃ (q : Nat), ∃ (p : Packet), nextCommand s = some (q, p) ∧ (cmdOf p = 3 ∧ (ctxOf p ≠ 0 ∧ ((let c := takeCommand q p s
     subOf p = 2 ∧ ((4096 ≤ body p 0 2 ∨ 3 < body p 2 1 ∨ body p 3 1 < 4 ∨ 16 < body p 3 1 ∨ (c.queue (body p 0 2)).entries ≠ []))))))) ∧
    (∃ (s : State), ∃ (q : Nat), ∃ (p : Packet), nextCommand s = some (q, p) ∧ (cmdOf p = 3 ∧ (ctxOf p ≠ 0 ∧ (subOf p = 3 ∧ (s.launched = false ∧ (body p 0 8 ≤ 80000000000 ∧ (body p 0 8 % 4096 = 0))))))) ∧
    (∃ (s : State), ∃ (q : Nat), ∃ (p : Packet), nextCommand s = some (q, p) ∧ (cmdOf p = 3 ∧ (ctxOf p ≠ 0 ∧ (subOf p = 3 ∧ ((s.launched = true ∨ 80000000000 < body p 0 8 ∨ body p 0 8 % 4096 ≠ 0)))))) ∧
    (∃ (s : State), ∃ (q : Nat), ∃ (p : Packet), nextCommand s = some (q, p) ∧ (cmdOf p = 3 ∧ (ctxOf p ≠ 0 ∧ (subOf p = 6 ∧ (body p 4 1 ≤ 1 ∧ (∃ (r : PageReq), (s.preq.find? fun r => r.ctx == ctxOf p && r.seq == body p 0 4) = some r)))))) ∧
    (∃ (s : State), ∃ (q : Nat), ∃ (p : Packet), nextCommand s = some (q, p) ∧ (cmdOf p = 3 ∧ (ctxOf p ≠ 0 ∧ (subOf p = 6 ∧ (body p 4 1 ≤ 1 ∧ ((∀ r ∈ s.preq, r.ctx = ctxOf p → r.seq ≠ body p 0 4))))))) ∧
    (∃ (s : State), ∃ (q : Nat), ∃ (p : Packet), nextCommand s = some (q, p) ∧ (cmdOf p = 3 ∧ (ctxOf p ≠ 0 ∧ (subOf p = 7 ∧ (body p 0 2 < 16384))))) ∧
    (∃ (s : State), ∃ (q : Nat), ∃ (p : Packet), Claims.serves s q p 3 4 ∧ ((let n := body p 8 4
     65536 < n))) ∧
    (∃ (s : State), ∃ (q : Nat), ∃ (p : Packet), Claims.serves s q p 3 4 ∧ ((let c := Claims.running s q p
     (let n := body p 8 4
     n ≤ 65536 ∧ (∃ f, devPhys c (body p 0 8) (8 * n) = .inr f))))) ∧
    (∃ (s : State), ∃ (q : Nat), ∃ (p : Packet), Claims.serves s q p 3 4 ∧ ((let c := Claims.running s q p
     (let n := body p 8 4
     n ≤ 65536 ∧ (∃ bs, devPhys c (body p 0 8) (8 * n) = .inl bs ∧ (s.sel.pkt = 0)))))) ∧
    (∃ (s : State), ∃ (q : Nat), ∃ (p : Packet), Claims.serves s q p 3 5) :=
  ⟨⟨atMapCommandsTakeEffect1, 0, 1, wPkt 3 0 (le [(8, 0x5000), (8, 0x99), (2, 0x4004)]), by decide +kernel, by decide +kernel, by decide +kernel,
     by decide +kernel, by decide +kernel⟩,
   ⟨atMapCommandsTakeEffect1c, 0, 1, wPkt 3 0 (le [(8, 0x5000), (8, 0x99), (2, 4)]), by decide +kernel, by decide +kernel, by decide +kernel,
     by decide +kernel, by decide +kernel⟩,
   ⟨atMapCommandsTakeEffect1b, 0, 2, pktOf (le [(1, 3), (1, 0), (2, 0), (4, 77), (8, 0x1000), (2, 3), (2, 0)] ++ le [(8, 0x5000), (8, 0x99),
     (2, 0x4004)]), by decide +kernel⟩,
   ⟨atMapCommandsTakeEffect2, 0, wPkt 3 1 (le [(8, 0x5000), (4, 3), (1, 0)]), by unfold Claims.serves; decide +kernel, by decide +kernel⟩,
   ⟨atMapCommandsTakeEffect2b, 0, wPkt 3 1 (le [(8, 0x50000), (4, 3), (1, 1)]), by unfold Claims.serves; decide +kernel, by decide +kernel⟩,
   ⟨atMapCommandsTakeEffect2c, 0, wPkt 3 1 (le [(8, 0x5000), (4, 3), (1, 2)]), by unfold Claims.serves; decide +kernel, by decide +kernel⟩,
   ⟨atMapCommandsTakeEffect3, 0, wPkt 3 2 (le [(2, 5), (1, 1), (1, 4), (2, 1)]), by decide +kernel, by decide +kernel, by decide +kernel,
     by decide +kernel⟩,
   ⟨atMapCommandsTakeEffect3b, 0, wPkt 3 2 (le [(2, 5), (1, 1), (1, 3), (2, 1)]), by decide +kernel, by decide +kernel, by decide +kernel,
     by decide +kernel⟩,
   ⟨atMapCommandsTakeEffect3c, 0, wPkt 3 3 (le [(8, 0x5000)]), by decide +kernel⟩,
   ⟨atMapCommandsTakeEffect3d, 0, wPkt 3 3 (le [(8, 0x5000)]), by decide +kernel⟩,
   ⟨atMapCommandsTakeEffect3e, 0, wPkt 3 6 (le [(4, 5), (1, 0)]), by decide +kernel, by decide +kernel, by decide +kernel, by decide +kernel,
     by decide +kernel, ⟨5, 1, 0x5000, 0, 1, 0⟩, by decide +kernel⟩,
   ⟨atMapCommandsTakeEffect3f, 0, wPkt 3 6 (le [(4, 5), (1, 0)]), by decide +kernel⟩,
   ⟨atMapCommandsTakeEffect3g, 0, wPkt 3 7 (le [(2, 5)]), by decide +kernel⟩,
   ⟨atMapCommandsTakeEffect4b, 0, wPkt 3 4 (le [(8, 0x30000), (4, 70000)]), by unfold Claims.serves; decide +kernel, by decide +kernel⟩,
   ⟨atMapCommandsTakeEffect4c, 0, wPkt 3 4 (le [(8, 0x30000), (4, 2)]), by unfold Claims.serves; decide +kernel, by decide +kernel,
     gr (devPhys (takeCommand 0 (wPkt 3 4 (le [(8, 0x30000), (4, 2)])) atMapCommandsTakeEffect4c) 0x30000 16), by decide +kernel⟩,
   ⟨atMapCommandsTakeEffect4, 0, wPkt 3 4 (le [(8, 0x30000), (4, 2)]), by unfold Claims.serves; decide +kernel, by decide +kernel,
     match devPhys (takeCommand 0 (wPkt 3 4 (le [(8, 0x30000), (4, 2)])) atMapCommandsTakeEffect4) 0x30000 16 with | .inl b => b | _ => [],
     by decide +kernel⟩,
   ⟨atMapCommandsTakeEffect5, 0, wPkt 3 5 (le [(8, 0x40000), (8, 1)]), by unfold Claims.serves; decide +kernel⟩⟩

theorem met_CapturesSignalsAndAttestation :
    (∃ (s : State), ∃ (q : Nat), ∃ (p : Packet), Claims.serves s q p 4 0 ∧ (q < 4096 ∧ ((let c := Claims.running s q p
     (let n := body p 8 4
     ∃ f, devPhys c (body p 0 8) (16 * n) = .inr f))))) ∧
    (∃ (s : State), ∃ (q : Nat), ∃ (p : Packet), Claims.serves s q p 4 0 ∧ (q < 4096 ∧ ((let c := Claims.running s q p
     (let n := body p 8 4
     ∃ t, devPhys c (body p 0 8) (16 * n) = .inl t ∧ ((let rs := (List.range n).map fun i => (fieldAt t (16 * i) 8, fieldAt t (16 * i + 8) 8)
     ∃ f, readRegions c (ctxOf p) rs = .inr f))))))) ∧
    (∃ (s : State), ∃ (q : Nat), ∃ (p : Packet), Claims.serves s q p 4 0 ∧ (q < 4096 ∧ ((let c := Claims.running s q p
     (let n := body p 8 4
     ∃ t, devPhys c (body p 0 8) (16 * n) = .inl t ∧ ((let rs := (List.range n).map fun i => (fieldAt t (16 * i) 8, fieldAt t (16 * i + 8) 8)
     ∃ bs, readRegions c (ctxOf p) rs = .inl bs ∧ (s.sel.pkt = 0)))))))) ∧
    (∃ (s : State), ∃ (q : Nat), ∃ (p : Packet), nextCommand s = some (q, p) ∧ (cmdOf p = 4 ∧ (subOf p = 1 ∧ (ctxOf p ≠ 0)))) ∧
    (∃ (s : State), ∃ (i : Instr), ∃ (sel : Sel), isInput s i sel = true) ∧
    (∃ (s : State), ∃ (r : Replay), ∃ (m : Moment), ∃ (i : Instr), ∃ (sel : Sel), ∃ (rest : List (Moment × Choice)), s.agenda = [] ∧ (s.replay = some r ∧ (r.inputs = (m, .event i sel) :: rest ∧ ((m.ac < s.ac - r.began ∨ (m.ac = s.ac - r.began ∧ m.turn ≤ if s.ac = r.began then s.turn - r.turn else s.turn)))))) ∧
    (∃ (n : Nat), ∃ (cs l : List Command), upToLaunch n cs = some l) ∧
    (∃ (s t : State), ∃ (q : Nat), ∃ (p : Packet), ∃ (cmds : List Command), Claims.serves s q p 5 0 ∧ (q < 4096 ∧ (s.replay = none ∧ (body p 20 1 < 4 ∧ ((let c := mget {} s.captures (body p 0 8)
     upToLaunch (body p 8 4) c.commands = some cmds ∧ (restoreRegions c.ctx (c.regions.zip c.snapshot) (Claims.running s q p) = .inl t))))))) ∧
    (∃ (s : State), ∃ (r : Replay), s.replay = some r ∧ (replayReady s r ≠ [])) ∧
    (∃ (s : State), ∃ (q : Nat), ∃ (p : Packet), Claims.serves s q p 6 0) ∧
    (∃ (s : State), ∃ (q : Nat), ∃ (p : Packet), Claims.serves s q p 6 1) ∧
    (∃ (s : State), ∃ (q : Nat), ∃ (p : Packet), Claims.serves s q p 6 2 ∧ ((s.blocks.map (·.1)).Pairwise (· < ·) ∧ ((s.grids.map (·.1)).Pairwise (· < ·)))) ∧
    (∃ (s : State), ∃ (q : Nat), ∃ (p : Packet), nextCommand s = some (q, p) ∧ (cmdOf p = 6 ∧ (subOf p = 3 ∧ (ctxOf p ≠ 0)))) ∧
    (∃ (s : State), ∃ (q : Nat), ∃ (p : Packet), nextCommand s = some (q, p) ∧ (cmdOf p = 7 ∧ (ctxOf p ≠ 0 ∧ (s.linked = true)))) ∧
    (∃ (s : State), ∃ (q : Nat), ∃ (p : Packet), nextCommand s = some (q, p) ∧ ((cmdOf p = 0 ∨ 7 < cmdOf p))) ∧
    (∃ (s : State), ∃ (q : Nat), ∃ (p : Packet), nextCommand s = some (q, p) ∧ (1 ≤ cmdOf p ∧ (cmdOf p ≤ 6 ∧ (lastSub (cmdOf p) < subOf p)))) :=
  ⟨⟨atCapturesSignalsAndAttestation1c, 0, wPkt 4 0 (le [(8, 0x30000), (4, 1)]), by unfold Claims.serves; decide +kernel, by decide +kernel,
     gr (devPhys (takeCommand 0 (wPkt 4 0 (le [(8, 0x30000), (4, 1)])) atCapturesSignalsAndAttestation1c) 0x30000 16), by decide +kernel⟩,
   ⟨atCapturesSignalsAndAttestation1b, 0, wPkt 4 0 (le [(8, 0x30000), (4, 1)]), by unfold Claims.serves; decide +kernel, by decide +kernel,
     match devPhys (takeCommand 0 (wPkt 4 0 (le [(8, 0x30000), (4, 1)])) atCapturesSignalsAndAttestation1b) 0x30000 16 with | .inl b => b | _ => [],
     by decide +kernel, gr (readRegions (takeCommand 0 (wPkt 4 0 (le [(8, 0x30000), (4, 1)])) atCapturesSignalsAndAttestation1b) 1 [(0x10, 4)]),
     by decide +kernel⟩,
   ⟨atCapturesSignalsAndAttestation1, 0, wPkt 4 0 (le [(8, 0x30000), (4, 1)]), by unfold Claims.serves; decide +kernel, by decide +kernel,
     match devPhys (takeCommand 0 (wPkt 4 0 (le [(8, 0x30000), (4, 1)])) atCapturesSignalsAndAttestation1) 0x30000 16 with | .inl b => b | _ => [],
     by decide +kernel, match readRegions (takeCommand 0 (wPkt 4 0 (le [(8, 0x30000), (4, 1)])) atCapturesSignalsAndAttestation1) 1 [(0x10,
     4)] with | .inl b => b | _ => [], by decide +kernel⟩,
   ⟨atCapturesSignalsAndAttestation2, 0, wPkt 4 1 [], by decide +kernel⟩,
   ⟨atCapturesSignalsAndAttestation3, .timeBeacon, {}, by decide +kernel⟩,
   ⟨atCapturesSignalsAndAttestation4, { pkt := 0, queue := 0, began := 90, turn := 0, cmds := [], inputs := [(⟨5, 0⟩, .event .timeBeacon {})] },
     ⟨5, 0⟩, .timeBeacon, {}, [], by decide +kernel⟩,
   ⟨0, [{ queue := 2, pkt := wPkt 1 0 [] }], [{ queue := 2, pkt := wPkt 1 0 [], named := true }], by decide +kernel⟩,
   ⟨atCapturesSignalsAndAttestation7, gs (restoreRegions 1 [((0x10, 4),
     [1,2,3,4])] (takeCommand 0 (wPkt 5 0 (le [(8, 0), (4, 0), (8, 0), (1, 0), (3, 0), (8, 5)])) atCapturesSignalsAndAttestation7)), 0,
     wPkt 5 0 (le [(8, 0), (4, 0), (8, 0), (1, 0), (3, 0), (8, 5)]), [{ moment := ⟨5, 0⟩, queue := 2, pkt := wPkt 1 0 [], named := true }],
     by unfold Claims.serves; decide +kernel, by decide +kernel, by decide +kernel, by decide +kernel, by decide +kernel⟩,
   ⟨atCapturesSignalsAndAttestation8,
     { pkt := 0, queue := 0, began := 0, turn := 0, cmds := [{ moment := ⟨5, 0⟩, queue := 2, pkt := wPkt 1 0 [] }, { moment := ⟨6, 0⟩, queue := 2, pkt := wPkt 1 0 [] }, { moment := ⟨6, 0⟩, queue := 3, pkt := wPkt 1 0 [] }], inputs := [], next := 3 }, by decide +kernel⟩,
   ⟨atCapturesSignalsAndAttestation9, 0, wPkt 6 0 [], by unfold Claims.serves; decide +kernel⟩,
   ⟨atCapturesSignalsAndAttestation10, 0, wPkt 6 1 [], by unfold Claims.serves; decide +kernel⟩,
   ⟨atCapturesSignalsAndAttestation11, 0, wPkt 6 2 [], by unfold Claims.serves; decide +kernel, by decide +kernel⟩,
   ⟨atCapturesSignalsAndAttestation12, 0, wPkt 6 3 [], by decide +kernel⟩,
   ⟨atCapturesSignalsAndAttestation13, 0, wPkt 7 0 (le [(32, 5), (8, 0x40)]), by decide +kernel⟩,
   ⟨atCapturesSignalsAndAttestation14, 0, wPkt 9 0 [], by decide +kernel⟩,
   ⟨atCapturesSignalsAndAttestation14b, 0, wPkt 6 9 [], by decide +kernel⟩⟩

theorem met_ThePackageStartsAndLosesItsLinks :
    (∃ (s : State), (s.power = .off ∨ (s.power = .starting ∧ s.startStep = 0))) ∧
    (∃ (s : State), s.power = .starting ∧ (s.startStep ≠ 0 ∧ (attempt s = none ∧ ((let step := s.startStep
     ∃ a, nextAlt s step = some a))))) ∧
    (∃ (s : State), s.power = .starting ∧ (s.startStep ≠ 0 ∧ (attempt s = none ∧ ((let step := s.startStep
     nextAlt s step = none ∧ (0x600 ≤ step)))))) ∧
    (∃ (s : State), s.power = .starting ∧ (s.startStep ≠ 0 ∧ (attempt s = none ∧ ((let step := s.startStep
     nextAlt s step = none ∧ (step < 0x600)))))) ∧
    (∃ (s : State), ∃ (r : StartRec), s.power = .starting ∧ (s.startStep ≠ 0 ∧ (attempt s = some r ∧ ((let step := s.startStep
     step = 1))))) ∧
    (∃ (s : State), ∃ (r : StartRec), s.power = .starting ∧ (s.startStep ≠ 0 ∧ (attempt s = some r ∧ ((let step := s.startStep
     (let ok := if step = 1 then imageRuns s r.alt
           else s.sel.word == 1 && (step != 7 || !s.beacons.isEmpty) && (stepSpares step s).isSome
     2 ≤ step ∧ (ok = false))))))) ∧
    (∃ (s : State), ∃ (r : StartRec), s.power = .starting ∧ (s.startStep ≠ 0 ∧ (attempt s = some r ∧ ((let step := s.startStep
     (let ok := if step = 1 then imageRuns s r.alt
           else s.sel.word == 1 && (step != 7 || !s.beacons.isEmpty) && (stepSpares step s).isSome
     ok = true ∧ (2 ≤ step ∧ (step ≤ 5)))))))) ∧
    (∃ (s : State), ∃ (r : StartRec), s.power = .starting ∧ (s.startStep ≠ 0 ∧ (attempt s = some r ∧ ((let step := s.startStep
     (let ok := if step = 1 then imageRuns s r.alt
           else s.sel.word == 1 && (step != 7 || !s.beacons.isEmpty) && (stepSpares step s).isSome
     ok = true ∧ (0x600 ≤ step))))))) ∧
    (∃ (s : State), ∃ (r : StartRec), s.power = .starting ∧ (s.startStep ≠ 0 ∧ (attempt s = some r ∧ ((let step := s.startStep
     (let ok := if step = 1 then imageRuns s r.alt
           else s.sel.word == 1 && (step != 7 || !s.beacons.isEmpty) && (stepSpares step s).isSome
     ok = true ∧ (step = 7 ∧ (∃ b rest, s.beacons = b :: rest)))))))) ∧
    (∃ (s : State), ∃ (r : StartRec), s.power = .starting ∧ (s.startStep ≠ 0 ∧ (attempt s = some r ∧ ((let step := s.startStep
     (let ok := if step = 1 then imageRuns s r.alt
           else s.sel.word == 1 && (step != 7 || !s.beacons.isEmpty) && (stepSpares step s).isSome
     ok = true ∧ (step = 8))))))) ∧
    (∃ (s : State), ∃ (step : Nat), latestRec s step = none) ∧
    (∃ (s : State), ∃ (step : Nat), ∃ r, latestRec s step = some r ∧ (r.outcome = 1)) ∧
    (∃ (s : State), ∃ (step : Nat), ∃ r, latestRec s step = some r ∧ (r.outcome = 3)) ∧
    (∃ (s : State), ∃ (step : Nat), ∃ r, latestRec s step = some r ∧ ((r.outcome = 2 ∨ r.outcome = 0))) ∧
    (∃ (r : StartRec), r.step < 2 ^ 16 ∧ (r.outcome < 256 ∧ (r.alt < 256 ∧ (r.start < 2 ^ 32)))) ∧
    (∃ (s : State), ∃ (r : StartRec), s.power = .failed ∧ (s.failRec = some r ∧ (s.lastFail ≠ 0 ∧ (s.ac < s.lastFail - 1 + 2 ^ 30)))) ∧
    (∃ (s : State), ∃ (r : StartRec), s.power = .failed ∧ (s.failRec = some r ∧ ((let up := (s.port 0).up = true ∨ (s.port 18).up = true
     (s.lastFail = 0 ∨ s.lastFail - 1 + 2 ^ 30 ≤ s.ac) ∧ (up))))) ∧
    (∃ (s : State), ∃ (r : StartRec), s.power = .failed ∧ (s.failRec = some r ∧ ((let up := (s.port 0).up = true ∨ (s.port 18).up = true
     (s.lastFail = 0 ∨ s.lastFail - 1 + 2 ^ 30 ≤ s.ac) ∧ (¬ up ∧ (s.sel.word % 2 = 1)))))) ∧
    (∃ (s : State), ∃ (r : StartRec), s.power = .failed ∧ (s.failRec = some r ∧ ((let up := (s.port 0).up = true ∨ (s.port 18).up = true
     (s.lastFail = 0 ∨ s.lastFail - 1 + 2 ^ 30 ≤ s.ac) ∧ (¬ up ∧ (s.sel.word % 2 = 0 ∧ (s.sel.word / 2 % 2 = 1))))))) ∧
    (∃ (s : State), ∃ (r : StartRec), s.power = .failed ∧ (s.failRec = some r ∧ ((let up := (s.port 0).up = true ∨ (s.port 18).up = true
     (s.lastFail = 0 ∨ s.lastFail - 1 + 2 ^ 30 ≤ s.ac) ∧ (¬ up ∧ (s.sel.word % 2 = 0 ∧ (s.sel.word / 2 % 2 = 0))))))) ∧
    (∃ p, p ∈ ([(.vaultScrub, 8, fun a b => vaultKey a b), (.hbmScrub, 24, fun a b => hbmKey a b)] : List (Instr × Nat × (Nat → Nat → Nat))) ∧ (∃ (s : State), (let n := s.cecount.toNat / 2 ^ p.2.1 % 256
     s.sel.word = 1 ∧ (n < 255)))) ∧
    (∃ p, p ∈ ([(.vaultScrub, 8, fun a b => vaultKey a b), (.hbmScrub, 24, fun a b => hbmKey a b)] : List (Instr × Nat × (Nat → Nat → Nat))) ∧ (∃ (s : State), (let n := s.cecount.toNat / 2 ^ p.2.1 % 256
     s.sel.word = 1 ∧ (n = 255)))) ∧
    (∃ p, p ∈ ([(.vaultScrub, 8, fun a b => vaultKey a b), (.hbmScrub, 24, fun a b => hbmKey a b)] : List (Instr × Nat × (Nat → Nat → Nat))) ∧ (∃ (s : State), (let k := p.2.2 s.sel.unit s.sel.sub
     s.sel.word = 2 ∧ (granule k ∈ s.bad)))) ∧
    (∃ p, p ∈ ([(.vaultScrub, 8, fun a b => vaultKey a b), (.hbmScrub, 24, fun a b => hbmKey a b)] : List (Instr × Nat × (Nat → Nat → Nat))) ∧ (∃ (s : State), (let k := p.2.2 s.sel.unit s.sel.sub
     s.sel.word = 2 ∧ (granule k ∉ s.bad)))) ∧
    (∃ p, p ∈ ([(.vaultScrub, 8, fun a b => vaultKey a b), (.hbmScrub, 24, fun a b => hbmKey a b)] : List (Instr × Nat × (Nat → Nat → Nat))) ∧ (∃ (s : State), s.sel.word = 0)) ∧
    (∃ (s : State), (let p := s.sel.unit
     p ∉ s.lost ∧ (p ≠ Config.packageIndex ∧ ((∀ u ∈ s.allTeams, u.hmode = true → Claims.farAccesses s p u = []))))) ∧
    (∃ (s t : State), ∃ (tid : Nat), ∃ (u : Team), Claims.filed s ∧ (s.sel.unit ∉ s.lost ∧ (s.sel.unit ≠ Config.packageIndex ∧ ((∀ k ∈ s.allTeams, k.hmode = true → Claims.farAccesses s s.sel.unit k = []) ∧ (s.teamAt tid = some u ∧ (exec .remotePackageLost s = .next t)))))) ∧
    (∃ (s : State), (let p := s.sel.unit
     (let x := s.port p
     x.up = true ∧ (x.lost = false ∧ (x.lastRx + 4096 ≤ s.ac))))) ∧
    (∃ (s : State), (let p := s.sel.unit
     (let x := s.port p
     x.up = true ∧ (x.lost = false ∧ (16 ≤ x.failed))))) ∧
    (∃ (s : State), (let p := s.sel.unit
     (let x := s.port p
     x.up = true ∧ (x.lost = false ∧ (x.failed < 16))))) ∧
    (∃ (s : State), (let p := s.sel.unit
     (let x := s.port p
     x.up = true ∧ (x.lost = false ∧ (s.sel.sub = 1))))) ∧
    (∃ (s : State), (let p := s.sel.unit
     (let x := s.port p
     x.up = true ∧ (x.lost = false ∧ (s.sel.sub ≠ 1 ∧ (x.lastTx + 256 ≤ s.ac)))))) ∧
    (∃ (s : State), (let p := s.sel.unit
     (let x := s.port p
     x.up = true ∧ (x.lost = false ∧ (p < 36 ∧ (x.spareUsed = false)))))) ∧
    (∃ (s : State), s.linked = true ∧ ((s.ports.map (·.1)).Pairwise (· < ·))) ∧
    (∃ (s : State), takesTime s = true) ∧
    (∃ (s : State), takesTime s = false) ∧
    (∃ (s : State), ∃ (b : Nat), ∃ (rest : List Nat), takesTime s = true ∧ (s.beacons = b :: rest)) :=
  ⟨⟨atThePackageStartsAndLosesItsLinks1, by decide +kernel⟩,
   ⟨atThePackageStartsAndLosesItsLinks2, by decide +kernel, by decide +kernel, by decide +kernel, 0, by decide +kernel⟩,
   ⟨atThePackageStartsAndLosesItsLinks2b, by decide +kernel, by decide +kernel, by decide +kernel, by decide +kernel⟩,
   ⟨atThePackageStartsAndLosesItsLinks2c, by decide +kernel, by decide +kernel, by decide +kernel, by decide +kernel⟩,
   ⟨atThePackageStartsAndLosesItsLinks3i, ⟨1, 0, 0, 1, 0⟩, by decide +kernel, by decide +kernel, by decide +kernel, by decide +kernel⟩,
   ⟨atThePackageStartsAndLosesItsLinks3d, ⟨4, 0, 0, 1, 0⟩, by decide +kernel, by decide +kernel, by decide +kernel, by decide +kernel⟩,
   ⟨atThePackageStartsAndLosesItsLinks3, ⟨2, 0, 0, 1, 0⟩, by decide +kernel, by decide +kernel, by decide +kernel, by decide +kernel⟩,
   ⟨atThePackageStartsAndLosesItsLinks3c, ⟨0x600, 0, 0, 1, 0⟩, by decide +kernel, by decide +kernel, by decide +kernel, by decide +kernel⟩,
   ⟨atThePackageStartsAndLosesItsLinks3e, ⟨7, 0, 0, 1, 0⟩, by decide +kernel, by decide +kernel, by decide +kernel, by decide +kernel,
     by decide +kernel, 5, [6], by decide +kernel⟩,
   ⟨atThePackageStartsAndLosesItsLinks3b, ⟨8, 0, 0, 1, 0⟩, by decide +kernel, by decide +kernel, by decide +kernel, by decide +kernel⟩,
   ⟨atThePackageStartsAndLosesItsLinks1, 4, by decide +kernel⟩,
   ⟨atThePackageStartsAndLosesItsLinks4b, 4, ⟨4, 1, 1, 0, 5⟩, by decide +kernel⟩,
   ⟨atThePackageStartsAndLosesItsLinks4c, 4, ⟨4, 3, 1, 0, 5⟩, by decide +kernel⟩,
   ⟨atThePackageStartsAndLosesItsLinks4, 4, ⟨4, 2, 1, 0, 5⟩, by decide +kernel⟩,
   ⟨⟨7, 3, 1, 77, 0xDEADBEEF⟩, by decide +kernel⟩,
   ⟨atThePackageStartsAndLosesItsLinks9c, ⟨3, 2, 0, 1, 5⟩, by decide +kernel⟩,
   ⟨atThePackageStartsAndLosesItsLinks9, ⟨2, 2, 0, 1, 5⟩, by decide +kernel, by decide +kernel, by decide +kernel⟩,
   ⟨atThePackageStartsAndLosesItsLinks9d, ⟨3, 2, 0, 1, 5⟩, by decide +kernel, by decide +kernel, by decide +kernel⟩,
   ⟨atThePackageStartsAndLosesItsLinks9b, ⟨3, 2, 0, 1, 5⟩, by decide +kernel, by decide +kernel, by decide +kernel⟩,
   ⟨atThePackageStartsAndLosesItsLinks9e, ⟨3, 2, 0, 1, 5⟩, by decide +kernel, by decide +kernel, by decide +kernel⟩,
   ⟨_, List.Mem.head _, atThePackageStartsAndLosesItsLinks11, by decide +kernel⟩,
   ⟨_, List.Mem.head _, atThePackageStartsAndLosesItsLinks11c, by decide +kernel⟩,
   ⟨_, List.Mem.head _, atThePackageStartsAndLosesItsLinks11d, by decide +kernel⟩,
   ⟨_, List.Mem.head _, atThePackageStartsAndLosesItsLinks11b, by decide +kernel⟩,
   ⟨_, List.Mem.head _, atThePackageStartsAndLosesItsLinks11f, by decide +kernel⟩,
   ⟨atThePackageStartsAndLosesItsLinks12, by decide +kernel⟩,
   ⟨atThePackageStartsAndLosesItsLinks13, nx (exec .remotePackageLost atThePackageStartsAndLosesItsLinks13), 4,
     { wTeam with tid := 4, stores := [{ tag := 3, far := some { pc := 5, lanes := [(0, 3, { cause := 9 }), (1, 2, { cause := 9 })] } }] },
     filed_of (by decide +kernel) (by decide +kernel), by decide +kernel, by decide +kernel, by decide +kernel, by decide +kernel,
     next_of (by decide +kernel)⟩,
   ⟨atThePackageStartsAndLosesItsLinks14, by decide +kernel⟩,
   ⟨atThePackageStartsAndLosesItsLinks14, by decide +kernel⟩,
   ⟨atThePackageStartsAndLosesItsLinks14b, by decide +kernel⟩,
   ⟨atThePackageStartsAndLosesItsLinks14b, by decide +kernel⟩,
   ⟨atThePackageStartsAndLosesItsLinks14, by decide +kernel⟩,
   ⟨atThePackageStartsAndLosesItsLinks14, by decide +kernel⟩,
   ⟨atThePackageStartsAndLosesItsLinks15, by decide +kernel⟩,
   ⟨atThePackageStartsAndLosesItsLinks16, by decide +kernel⟩,
   ⟨wMem, by decide +kernel⟩,
   ⟨atThePackageStartsAndLosesItsLinks18, 5, [6], by decide +kernel⟩⟩

theorem met_OperandChecksTrapInTheirOrder :
    (∃ p, p ∈ Claims.intOps ∧ (∃ (d a b : RegF), ∃ (s : State), (let fs := [a.toNat, b.toNat, d.toNat]
     (let outside := ∃ f ∈ fs, f ≤ 95 ∧ s.team.nregs ≤ s.team.wbase + f
     Issuing s ∧ (outside))))) ∧
    (∃ p, p ∈ Claims.intOps ∧ (∃ (d a b : RegF), ∃ (s : State), (let fs := [a.toNat, b.toNat, d.toNat]
     (let outside := ∃ f ∈ fs, f ≤ 95 ∧ s.team.nregs ≤ s.team.wbase + f
     (let hazard := ∃ f ∈ fs, isPending s.team (regCode s.team f) = true
     Issuing s ∧ (¬ outside ∧ (hazard))))))) ∧
    (∃ p, p ∈ Claims.intOps ∧ (∃ (d a b : RegF), ∃ (s : State), (let fs := [a.toNat, b.toNat, d.toNat]
     (let outside := ∃ f ∈ fs, f ≤ 95 ∧ s.team.nregs ≤ s.team.wbase + f
     (let hazard := ∃ f ∈ fs, isPending s.team (regCode s.team f) = true
     (let dead := readsDead s [src a, src b, dst d] = true
     (let traps := s.team.tstat.getLsbD 1 = true
     Issuing s ∧ (¬ outside ∧ (¬ hazard ∧ (dead ∧ (traps))))))))))) ∧
    (∃ p, p ∈ Claims.intOps ∧ (∃ (d a b : RegF), ∃ (s : State), (let fs := [a.toNat, b.toNat, d.toNat]
     (let outside := ∃ f ∈ fs, f ≤ 95 ∧ s.team.nregs ≤ s.team.wbase + f
     (let hazard := ∃ f ∈ fs, isPending s.team (regCode s.team f) = true
     (let dead := readsDead s [src a, src b, dst d] = true
     (let traps := s.team.tstat.getLsbD 1 = true
     Issuing s ∧ (¬ outside ∧ (¬ hazard ∧ (¬ (dead ∧ traps) ∧ (120 ≤ d.toNat))))))))))) ∧
    (∃ p, p ∈ Claims.intOps ∧ (∃ (d a b : RegF), ∃ (s : State), (let fs := [a.toNat, b.toNat, d.toNat]
     (let outside := ∃ f ∈ fs, f ≤ 95 ∧ s.team.nregs ≤ s.team.wbase + f
     (let hazard := ∃ f ∈ fs, isPending s.team (regCode s.team f) = true
     (let dead := readsDead s [src a, src b, dst d] = true
     (let traps := s.team.tstat.getLsbD 1 = true
     Issuing s ∧ (¬ outside ∧ (¬ hazard ∧ (¬ (dead ∧ traps) ∧ (96 ≤ d.toNat ∧ (d.toNat < 120 ∧ ((a.toNat < 96 ∨ b.toNat < 96)))))))))))))) ∧
    (∃ p, p ∈ Claims.intOps ∧ (∃ (d a b : RegF), ∃ (s : State), (let fs := [a.toNat, b.toNat, d.toNat]
     (let q := afterReads s [src a, src b, dst d]
     (let outside := ∃ f ∈ fs, f ≤ 95 ∧ s.team.nregs ≤ s.team.wbase + f
     (let hazard := ∃ f ∈ fs, isPending s.team (regCode s.team f) = true
     (let dead := readsDead s [src a, src b, dst d] = true
     (let traps := s.team.tstat.getLsbD 1 = true
     Issuing s ∧ (¬ outside ∧ (¬ hazard ∧ (¬ (dead ∧ traps) ∧ ((d.toNat < 96 ∨ d.toNat < 120 ∧ 96 ≤ a.toNat ∧ 96 ≤ b.toNat) ∧ ((∃ l ∈ lanesOf s.team.active, badOps q [src a, src b, dst d] l = true)))))))))))))) :=
  ⟨⟨_, List.Mem.head _, 4, 1, 2, atOperandChecksTrapInTheirOrder1b, issuing_of (by decide +kernel), by decide +kernel⟩,
   ⟨_, List.Mem.head _, 4, 1, 2, atOperandChecksTrapInTheirOrder1c, issuing_of (by decide +kernel), by decide +kernel⟩,
   ⟨_, List.Mem.head _, 4, 1, 2, atOperandChecksTrapInTheirOrder1d, issuing_of (by decide +kernel), by decide +kernel⟩,
   ⟨_, List.Mem.head _, 124, 1, 2, atOperandChecksTrapInTheirOrder1e, issuing_of (by decide +kernel), by decide +kernel⟩,
   ⟨_, List.Mem.head _, 104, 97, 2, w, issuing_of (by decide +kernel), by decide +kernel⟩,
   ⟨_, List.Mem.head _, 4, 1, 2, atOperandChecksTrapInTheirOrder1, issuing_of (by decide +kernel), by decide +kernel⟩⟩

theorem met_StepRunsTheDecodedInstruction :
    (∃ (s r : State), ∃ (tid : Nat), ∃ (rest : List Choice), ∃ (pa pb : Nat), ∃ (na nb : Bool), ((s.agenda = .issue tid :: rest ∧ r = { s with agenda := rest } ∧ deterministic r = false ∧ nextIssue r = some tid) ∨
           (s.agenda = [] ∧ r = { s with turn := s.turn + 1 } ∧ replayInput s = none ∧
             firstDue r (startSteps r ++ r.allTeams.flatMap (landSteps r)) = none ∧ nextIssue r = some tid)) ∧ ((let q := r.focus tid
     (let x := loadPa q.myCore pa 4 na false (paCarried q.myCore pa (tlbTouch q.myCore q.myCtx q.team.pc.toNat q))
     (let w := BitVec.ofNat 32 (leNat x.1)
     stopDue q q.team.tid = false ∧ (eventDue q = false ∧ (q.team.present = true ∧ (q.team.ir = none ∧ (q.team.park = .run ∧ (q.team.trapReq = none ∧ (q.team.mcall = none ∧ (q.team.failed = 0 ∧ (paCheck q .fetch q.team.pc.toNat (xlateVa q .fetch q.team.pc.toNat) = .ok pa na ∧ (eccOf q q.myCore pa 4 = none ∧ (paReaches q q.myCore pa = true ∧ (inSlice q q.myCtx q.team.pc.toNat 4 = false ∧ ((hasLiteral w = true → paCheck x.2 .fetch (q.team.pc + 4).toNat (xlateVa x.2 .fetch (q.team.pc + 4).toNat) = .ok pb nb ∧
           eccOf x.2 q.myCore pb 4 = none ∧ paReaches x.2 q.myCore pb = true ∧ inSlice x.2 q.myCtx (q.team.pc + 4).toNat 4 = false)))))))))))))))))) ∧
    (∃ (s r : State), ∃ (c : Choice), ∃ (rest : List Choice), s.agenda = c :: rest ∧ (r = { s with agenda := rest } ∧ (deterministic r = false ∧ (∃ tid, c = .issue tid ∧ (nextIssue r ≠ some tid))))) ∧
    (∃ (s r : State), ∃ (c : Choice), ∃ (rest : List Choice), s.agenda = c :: rest ∧ (r = { s with agenda := rest } ∧ (deterministic r = false ∧ (c = .tick ∧ ((nextIssue r).isSome = true))))) ∧
    (∃ (s r : State), ∃ (c : Choice), ∃ (rest : List Choice), s.agenda = c :: rest ∧ (r = { s with agenda := rest } ∧ (deterministic r = false ∧ (c = .tick ∧ (acOver r = true))))) ∧
    (∃ (s : State), ∃ (tid : Nat), ∃ (u : Team), nextIssue s = some tid ∧ (u ∈ s.allTeams ∧ (teamReady s u = true))) ∧
    (∃ (t : Team), t.mcall = none ∧ (t.reexec = none)) ∧
    (∃ (t : Team), ∃ x, t.reexec = some x ∧ ((t.mcall = none ∨ x.direct = true))) ∧
    (∃ (len : Nat), ∃ (t : Team), ∃ m, t.mcall = some m ∧ ((∀ x, t.reexec = some x → x.direct = false) ∧ (m.idx + len / 4 < m.words.length))) ∧
    (∃ (len : Nat), ∃ (t : Team), ∃ m, t.mcall = some m ∧ ((∀ x, t.reexec = some x → x.direct = false) ∧ (m.words.length ≤ m.idx + len / 4))) :=
  ⟨⟨atStepRunsTheDecodedInstruction1, { State.reset.withFetchWord 32 0x01004103 with turn := 1 }, 0, [], 0x100000, 0x100004, false, false,
     by decide +kernel, by decide +kernel⟩,
   ⟨atStepRunsTheDecodedInstruction2, State.reset.withFetchWord 32 0x01004103 |> fun s => { s with agenda := [.tick] }, .issue 5, [.tick],
     by decide +kernel, by decide +kernel, by decide +kernel, 5, by decide +kernel⟩,
   ⟨atStepRunsTheDecodedInstruction2b, State.reset.withFetchWord 32 0x01004103, .tick, [], by decide +kernel⟩,
   ⟨atStepRunsTheDecodedInstruction2c, State.reset, .tick, [], by decide +kernel⟩,
   ⟨atStepRunsTheDecodedInstruction3, 0, (State.team atStepRunsTheDecodedInstruction3), by decide +kernel⟩,
   ⟨teamStepRunsTheDecodedInstruction4e, by decide +kernel⟩,
   ⟨teamStepRunsTheDecodedInstruction4b, reexecStepRunsTheDecodedInstruction4, by decide +kernel⟩,
   ⟨4, teamStepRunsTheDecodedInstruction4, wMcall, by decide +kernel⟩,
   ⟨4, teamStepRunsTheDecodedInstruction4d, { wMcall with idx := 1 }, by decide +kernel⟩⟩

theorem met_DecodingInvertsEncoding :
    (∃ (i : Instr), i.wellFormed = true ∧ (encode i ≠ [])) ∧
    (∃ (i : Instr), i.wellFormed = true ∧ (encode i ≠ [])) :=
  ⟨⟨.iadd ⟨false, 0⟩ 1 2 3, by decide +kernel⟩,
   ⟨.iadd ⟨false, 0⟩ 1 2 3, by decide +kernel⟩⟩

theorem met_MemoryStaysCanonical :
    (∃ (s t : State), s.memOk ∧ (step s = .next t)) :=
   ⟨wFetch, nx (step wFetch), by unfold State.memOk; decide +kernel, next_of (by decide +kernel)⟩

theorem met_TablesStayInOrder :
    (∃ (s t : State), Claims.tablesOk s ∧ (step s = .next t)) :=
   ⟨wFetch, nx (step wFetch), by unfold Claims.tablesOk Claims.teamOk; decide +kernel, next_of (by decide +kernel)⟩

theorem met_SplitAndCachesStaySound :
    (∃ (s t : State), Claims.cachesOk s ∧ (step s = .next t)) :=
   ⟨wFetch, nx (step wFetch), by unfold Claims.cachesOk; decide +kernel, next_of (by decide +kernel)⟩

theorem met_ResetIsTheSpecsStart :
    (∃ q, q ≠ 0) :=
   ⟨1, by decide +kernel⟩

theorem met_SelectTestsTheBitsOfD :
    (∃ (d a b : RegF), ∃ (s : State), Issuing s ∧ (Ready s (isScalar d) [src a, src b, srcDst d])) :=
   ⟨4, 1, 2, atSelectTestsTheBitsOfD2, issuing_of (by decide +kernel), ready_of (by decide +kernel)⟩

theorem met_MinAndMaxChooseAnOperand :
    (∃ p, p ∈ ([(.fmin, false), (.fmax, true)] : List ((Hd → RegF → RegF → RegF → Instr) × Bool)) ∧ (∃ (d a b : RegF), ∃ (s : State), Issuing s ∧ (Ready s (isScalar d) [src a, src b, dst d] ∧ (fmtVec s < 3)))) ∧
    (∃ f, f ∈ [fp32, bf16, fp16] ∧ (∃ (a b : Nat), a < 2 ^ (f.eb + f.fb + 1) ∧ (b < 2 ^ (f.eb + f.fb + 1) ∧ ((let x := decodeFp f a
     (let y := decodeFp f b
     (x.isNan = true ∨ y.isNan = true))))))) ∧
    (∃ f, f ∈ [fp32, bf16, fp16] ∧ (∃ (gt : Bool), ∃ (a b : Nat), a < 2 ^ (f.eb + f.fb + 1) ∧ (b < 2 ^ (f.eb + f.fb + 1) ∧ ((let x := decodeFp f a
     (let y := decodeFp f b
     x.isNan = false ∧ (y.isNan = false ∧ (gt = false)))))))) ∧
    (∃ f, f ∈ [fp32, bf16, fp16] ∧ (∃ (gt : Bool), ∃ (a b : Nat), a < 2 ^ (f.eb + f.fb + 1) ∧ (b < 2 ^ (f.eb + f.fb + 1) ∧ ((let x := decodeFp f a
     (let y := decodeFp f b
     x.isNan = false ∧ (y.isNan = false ∧ (gt = true)))))))) ∧
    (∃ f, f ∈ [fp32, bf16, fp16] ∧ (∃ (a b : Nat), a < 2 ^ (f.eb + f.fb + 1) ∧ (b < 2 ^ (f.eb + f.fb + 1) ∧ ((let x := decodeFp f a
     (let y := decodeFp f b
     x.isNan = false ∧ (y.isNan = false ∧ (x.isZero = true ∧ (y.isZero = true ∧ (x.neg ≠ y.neg)))))))))) :=
  ⟨⟨_, List.Mem.head _, 4, 1, 2, atMinAndMaxChooseAnOperand1, issuing_of (by decide +kernel), ready_of (by decide +kernel), by decide +kernel⟩,
   ⟨_, List.Mem.tail _ (List.Mem.head _), 0x7F81, 0, by decide +kernel, by decide +kernel, by decide +kernel⟩,
   ⟨_, List.Mem.head _, false, 0x8000, 0, by decide +kernel, by decide +kernel, by decide +kernel⟩,
   ⟨_, List.Mem.head _, true, 0x8000, 0, by decide +kernel, by decide +kernel, by decide +kernel⟩,
   ⟨_, List.Mem.tail _ (List.Mem.head _), 0x8000, 0, by decide +kernel, by decide +kernel, by decide +kernel⟩⟩

theorem met_TheCallStackHoldsSixteenAddresses :
    (∃ (s : State), Issuing s ∧ (16 ≤ s.team.cstack.length)) ∧
    (∃ (s : State), Issuing s ∧ (s.team.cstack = [])) ∧
    (∃ (s : State), Issuing s ∧ (s.team.cstack.length < 16)) ∧
    (∃ (s : State), ∃ (pc : VAddr), ∃ (rest : List VAddr), Issuing s ∧ (s.team.cstack = pc :: rest)) :=
  ⟨⟨atTheCallStackHoldsSixteenAddresses1, issuing_of (by decide +kernel), by decide +kernel⟩,
   ⟨w, issuing_of (by decide +kernel), by decide +kernel⟩,
   ⟨w, issuing_of (by decide +kernel), by decide +kernel⟩,
   ⟨atTheCallStackHoldsSixteenAddresses4, 8, [9], issuing_of (by decide +kernel), by decide +kernel⟩⟩

theorem met_TeamsStartCleared :
    (∃ (lanes : Nat), lanes ≤ 1024 ∧ (∃ c, regNamed c)) ∧
    (∃ (lanes : Nat), lanes ≤ 1024 ∧ (∃ k, k < 8)) :=
  ⟨⟨5, by decide +kernel, 5, .inl (by decide +kernel)⟩,
   ⟨5, by decide +kernel, 3, by decide +kernel⟩⟩

end Sys2Proof.Tests
end

section
/-!
PROOFS. O58, the depth of the call stack (R15). Two frames carry it: packets of the trace units change the team's trace record and the cores
alone (R364, R365), and a control transfer changes neither a stack nor the format register.
-/

namespace Sys2Proof.Machine

/-! ### What tracing leaves unchanged -/

/-- `t` is `s` but for the trace record of the team in focus and for the cores, which hold the outbound queues. -/
def SameButTrace (s t : State) : Prop :=
  ∃ tr cores, t = { s with team := { s.team with tr := tr }, cores := cores }

theorem SameButTrace.refl (s : State) : SameButTrace s s := ⟨s.team.tr, s.cores, rfl⟩

theorem SameButTrace.trans {s t u : State} (h : SameButTrace s t) (k : SameButTrace t u) : SameButTrace s u := by
  obtain ⟨tr, cores, rfl⟩ := h
  obtain ⟨tr', cores', rfl⟩ := k
  exact ⟨tr', cores', rfl⟩

theorem SameButTrace.fmt_eq {s t : State} (h : SameButTrace s t) : t.team.fmt = s.team.fmt := by
  obtain ⟨tr, cores, rfl⟩ := h; rfl

theorem sameButTrace_onTeam_tr (s : State) (f : Team → TeamTrace) : SameButTrace s (s.onTeam fun t => { t with tr := f t }) :=
  ⟨f s.team, s.cores, rfl⟩

theorem sameButTrace_foldl {α : Type} (f : State → α → State) (hf : ∀ s a, SameButTrace s (f s a)) (as : List α) (s : State) :
    SameButTrace s (as.foldl f s) := by
  induction as generalizing s with
  | nil => exact .refl s
  | cons a as ih => exact (hf s a).trans (ih (f s a))

theorem sameButTrace_traceClose (s : State) : SameButTrace s (traceClose s) := by
  unfold traceClose
  dsimp only
  split
  · exact .refl s
  · split
    · exact ⟨_, _, rfl⟩
    · exact sameButTrace_onTeam_tr s _

theorem sameButTrace_tracePut (p : List Byte) (cnt per : Bool) (s : State) : SameButTrace s (tracePut p cnt per s) := by
  unfold tracePut
  dsimp only
  split
  · split <;> exact sameButTrace_onTeam_tr s _
  · refine (sameButTrace_traceClose s).trans ?_
    split <;> exact sameButTrace_onTeam_tr _ _

theorem sameButTrace_traceTime (s : State) : SameButTrace s (traceTime s) := by
  unfold traceTime
  refine SameButTrace.trans ?_ (sameButTrace_onTeam_tr _ _)
  exact sameButTrace_foldl _ (fun _ _ => sameButTrace_tracePut ..) _ s

theorem sameButTrace_traceRaw (p : List Byte) (s : State) : SameButTrace s (traceRaw p s) :=
  (sameButTrace_traceTime s).trans (sameButTrace_tracePut ..)

theorem sameButTrace_traceFlush (s : State) : SameButTrace s (traceFlush s) := by
  unfold traceFlush
  split
  · exact .refl s
  · exact (sameButTrace_onTeam_tr s _).trans (sameButTrace_traceRaw ..)

theorem sameButTrace_traceSync (reason : Nat) (s : State) : SameButTrace s (traceSync reason s) :=
  ((sameButTrace_tracePut _ true true s).trans (sameButTrace_onTeam_tr _ _)).trans
    (sameButTrace_foldl _ (fun _ _ => sameButTrace_tracePut ..) _ _)

theorem sameButTrace_traceResume (s : State) : SameButTrace s (traceResume s) := by
  unfold traceResume
  split
  · exact (((sameButTrace_traceFlush s).trans (sameButTrace_onTeam_tr _ _)).trans (sameButTrace_traceRaw ..)).trans
      (sameButTrace_traceSync ..)
  · exact .refl s

theorem sameButTrace_tracePeriodic (s : State) : SameButTrace s (tracePeriodic s) := by
  unfold tracePeriodic
  split
  · exact sameButTrace_traceSync 0 s
  · exact .refl s

theorem sameButTrace_tracePre (s : State) : SameButTrace s (tracePre s) := by
  unfold tracePre
  split
  · exact ((sameButTrace_traceFlush s).trans (sameButTrace_traceResume _)).trans (sameButTrace_tracePeriodic _)
  · exact .refl s

theorem sameButTrace_traceEmit (ps : List (List Byte)) (s : State) : SameButTrace s (traceEmit ps s) := by
  unfold traceEmit
  split
  · exact (sameButTrace_traceFlush s).trans (sameButTrace_foldl _ (fun _ _ => sameButTrace_traceRaw ..) ps _)
  · exact .refl s

/-! ### The end of a control transfer -/

/-- An S marker parks the team at most. -/
theorem markerPark_eq (sw : Bool) (s : State) : ∃ p, markerPark sw s = s.onTeam fun t => { t with park := p } := by
  unfold markerPark
  split
  · exact ⟨_, rfl⟩
  · exact ⟨s.team.park, rfl⟩

theorem finishAt_eq (h : Hd) (pc : VAddr) (s : State) : ∃ p, finishAt h pc s = s.onTeam fun t =>
    { t with pc := pc, stall := 0, ir := none, walked := [], failed := 0, failFetch := false, park := p } := by
  unfold finishAt
  obtain ⟨p, e⟩ := markerPark_eq h.sw (s.onTeam fun t =>
    { t with pc := pc, stall := 0, ir := none, walked := [], failed := 0, failFetch := false })
  exact ⟨p, e⟩

@[simp] theorem finishAt_team_pc (h : Hd) (pc : VAddr) (s : State) : (finishAt h pc s).team.pc = pc := by
  obtain ⟨p, e⟩ := finishAt_eq h pc s
  rw [e, onTeam_team]

@[simp] theorem finishAt_team_cstack (h : Hd) (pc : VAddr) (s : State) : (finishAt h pc s).team.cstack = s.team.cstack := by
  obtain ⟨p, e⟩ := finishAt_eq h pc s
  rw [e, onTeam_team]

@[simp] theorem finishAt_team_fmt (h : Hd) (pc : VAddr) (s : State) : (finishAt h pc s).team.fmt = s.team.fmt := by
  obtain ⟨p, e⟩ := finishAt_eq h pc s
  rw [e, onTeam_team]

/-! ### CALL and RET -/

theorem exec_call (h : Hd) (l : Word) (s : State) : exec (.call h l) s = .next (doCall h l s) := rfl

theorem exec_ret (h : Hd) (s : State) : exec (.ret h) s = .next (doRet h s) := rfl

/-- Booking an issue neither pushes nor pops. -/
@[simp] theorem booked_team_cstack (p : Nat) (s : State) : (booked p s).team.cstack = s.team.cstack := begin_team_cstack p s

theorem doCall_of_full (h : Hd) (l : Word) (s : State) (full : 16 ≤ s.team.cstack.length) :
    doCall h l s = trapI cILLOPND 8 (booked 1 s) := if_pos full

theorem doRet_of_empty (h : Hd) (s : State) (empty : s.team.cstack = []) : doRet h s = trapI cILLOPND 4 (booked 1 s) := by
  unfold doRet
  rw [empty]
  rfl

theorem doCall_of_room (h : Hd) (l : Word) (s : State) (room : s.team.cstack.length < 16) :
    doCall h l s = finishAt h (branchTarget s.team.pc l)
      ((begin 1 s).onTeam fun t => { t with cstack := (t.pc + 8) :: t.cstack }) := if_neg (Nat.not_le.2 room)

/-- RET with an address on the stack: its TARGET packet is traced, and it transfers to the newest address, which it drops. -/
theorem doRet_of_cons (h : Hd) (s : State) (pc : VAddr) (rest : List VAddr) (top : s.team.cstack = pc :: rest) :
    ∃ q, SameButTrace (begin 1 s) q ∧ doRet h s = finishAt h pc (q.onTeam fun t => { t with cstack := rest }) := by
  refine ⟨_, (sameButTrace_tracePre (begin 1 s)).trans (sameButTrace_traceEmit [targetPacket s.team.pc pc] _), ?_⟩
  unfold doRet
  rw [top]

end Sys2Proof.Machine

section

open Sys2Proof Sys2Proof.Machine

/-- Settles O58: the two refusals are the depth checks of CALL and RET, which stand before any change of the stack; past them the stack
changes at its newest address alone, by the frames of tracing and of a control transfer. -/
theorem theCallStackHoldsSixteenAddresses : Obligations.TheCallStackHoldsSixteenAddresses := by
  unfold Obligations.TheCallStackHoldsSixteenAddresses
  refine ⟨fun h l s _ full => ⟨?_, ?_⟩, fun h s _ empty => ⟨?_, ?_⟩, fun h l s _ room => ?_, fun h s pc rest _ top => ?_⟩
  · rw [exec_call, doCall_of_full h l s full]
  · exact booked_team_cstack 1 s
  · rw [exec_ret, doRet_of_empty h s empty]
  · rw [booked_team_cstack, empty]
  · refine ⟨doCall h l s, exec_call h l s, ?_⟩
    rw [doCall_of_room h l s room]
    simp
  · obtain ⟨q, traced, e⟩ := doRet_of_cons h s pc rest top
    have fmt_kept : q.team.fmt = s.team.fmt := by rw [traced.fmt_eq, begin_team_fmt]
    refine ⟨doRet h s, exec_ret h s, ?_⟩
    rw [e]
    simp [fmt_kept]

end
end

section
/-!
PROOFS. O56, SEL (R105). SEL is a short operation whose operands and value depend on the old D: the form over register groups, at a group of
one register of D whose format is always legal, says how it ends.
-/

namespace Sys2Proof.Machine

theorem exec_sel (h : Hd) (d a b : RegF) (s : State) : exec (.sel h d a b) s = .next (doSel h d a b s) := rfl

theorem decodeWord_assemble_sel (h : Hd) (d a b : RegF) (l : Word) :
    decodeWord (assemble ⟨h.sw, 0x1A, h.hnt, d, a, b⟩) l = .sel h d a b := by
  rw [decodeWord, Laws.Encoding.fieldsOf_assemble]
  rfl

/-- A group of one register is written as that register. -/
theorem writesOfN_one (s : State) (f : Nat) (ls : List Nat) (v : Nat → Nat → Word) : writesOfN s f 1 ls v = writesOf s f ls (v 0) := by
  simp [writesOfN]

/-- What SEL writes to D in a lane. -/
def selValue (d a b : RegF) (s : State) : Nat → Word := fun l => if rdv s d l = 0 then rdv s b l else rdv s a l

@[simp] theorem selValue_afterReads (d a b : RegF) (s : State) (ops : List Opnd) :
    selValue d a b (afterReads s ops) = selValue d a b s := by
  unfold selValue
  simp only [afterReads_rdv]

theorem doSel_eq_shortGroup (h : Hd) (d a b : RegF) (s : State) :
    doSel h d a b s =
      shortGroup h d a b 1 1 1 [src a, src b, srcDst d] (fun _ => true) (fun s _ => selValue d a b s) s := by
  unfold doSel shortGroup selValue
  simp [writesOfN_one]

/-- SEL whose operands are ready ends with D written in every executing lane. -/
theorem doSel_ended (h : Hd) (d a b : RegF) (s : State) (hi : Issuing s) (r : Ready s (isScalar d) [src a, src b, srcDst d]) :
    Ended (afterReads s [src a, src b, srcDst d]) (doSel h d a b s) h 4 (passes s (isScalar d))
      (writesOf s d.toNat (execLanes s (isScalar d)) (selValue d a b s)) [] [] 0 (fieldsFrom a 1) (fieldsFrom b 1) := by
  have mem_d : srcDst d ∈ [src a, src b, srcDst d] := by simp
  have writable : d.toNat < 120 := r.writable _ mem_d rfl
  have inWindow : ∀ k < 1, windowBad s.team (d.toNat + k) = false := fun k hk =>
    r.window _ mem_d _ (List.mem_map.2 ⟨k, List.mem_range.2 hk, rfl⟩)
  have ended := shortGroup_ended h d a b 1 1 1 [src a, src b, srcDst d] (fun _ => true) (fun s _ => selValue d a b s) s hi r rfl writable
    (fun _ => ⟨src a, by simp, rfl, rfl⟩) (fun _ => ⟨src b, by simp, rfl, rfl⟩) inWindow
  simpa only [doSel_eq_shortGroup, writesOfN_one, selValue_afterReads] using ended

end Sys2Proof.Machine

section

open Sys2Proof Sys2Proof.Machine

/-- Settles O56: the fields of the word are those assembled, and SEL ends as a short form whose value reads the old D. -/
theorem selectTestsTheBitsOfD : Obligations.SelectTestsTheBitsOfD := by
  unfold Obligations.SelectTestsTheBitsOfD
  exact ⟨decodeWord_assemble_sel, fun h d a b s hi r => ⟨doSel h d a b s, exec_sel h d a b s, doSel_ended h d a b s hi r⟩⟩

end
end

section
/-!
PROOFS. O57, FMIN and FMAX (R134). A vector FP instruction is the short form over register groups, at one register of D. On the bits of one
element the two instructions choose by the order of exact values in which −0 stands below +0; that the choice is a least or a greatest
operand needs of the comparison of exact values only that it is asymmetric and holds between no two zeros.
-/

namespace Sys2Proof.Machine

/-! ### Vector FP instructions -/

theorem exec_fmin (h : Hd) (d a b : RegF) (s : State) : exec (.fmin h d a b) s = .next (doFp h d a b false feMin s) := rfl

theorem exec_fmax (h : Hd) (d a b : RegF) (s : State) : exec (.fmax h d a b) s = .next (doFp h d a b false feMax s) := rfl

/-- The operands of a vector FP instruction: `fma` says whether D is its third source. -/
def fpOperands (d a b : RegF) (fma : Bool) : List Opnd := [src a, src b, if fma then srcDst d else dst d]

/-- What a vector FP instruction writes to D in a lane. -/
def fpValue (d a b : RegF) (fma : Bool) (f : Fmt → Nat → Nat → Nat → Nat → Nat) (s : State) : Nat → Word := fun l =>
  onElems (fmtVec s) (fmtRm s) f (rd s a l) (rd s b l) (if fma then rd s d l else (0, false))

@[simp] theorem fpValue_afterReads (d a b : RegF) (fma : Bool) (f : Fmt → Nat → Nat → Nat → Nat → Nat) (s : State) (ops : List Opnd) :
    fpValue d a b fma f (afterReads s ops) = fpValue d a b fma f s := by
  unfold fpValue
  simp only [afterReads_fmtVec, afterReads_fmtRm, afterReads_rd]

theorem doFp_eq_shortGroup (h : Hd) (d a b : RegF) (fma : Bool) (f : Fmt → Nat → Nat → Nat → Nat → Nat) (s : State) :
    doFp h d a b fma f s =
      shortGroup h d a b 1 1 1 (fpOperands d a b fma) (fun s => fmtVec s != 3) (fun s _ => fpValue d a b fma f s) s := rfl

/-- The operand of D is written, and names D alone. -/
theorem exists_destination_mem_fpOperands (d a b : RegF) (fma : Bool) :
    ∃ o ∈ fpOperands d a b fma, o.f = d.toNat ∧ o.wr = true ∧ o.fields = [d.toNat] := by
  refine ⟨if fma then srcDst d else dst d, by simp [fpOperands], ?_⟩
  cases fma <;> exact ⟨rfl, rfl, rfl⟩

/-- A vector FP instruction under a VEC code that is not reserved, whose operands are ready, ends with D written in every executing lane. -/
theorem doFp_ended (h : Hd) (d a b : RegF) (fma : Bool) (f : Fmt → Nat → Nat → Nat → Nat → Nat) (s : State) (hi : Issuing s)
    (r : Ready s (isScalar d) (fpOperands d a b fma)) (legal : fmtVec s < 3) :
    Ended (afterReads s (fpOperands d a b fma)) (doFp h d a b fma f s) h 4 (passes s (isScalar d))
      (writesOf s d.toNat (execLanes s (isScalar d)) (fpValue d a b fma f s)) [] [] 0 (fieldsFrom a 1) (fieldsFrom b 1) := by
  obtain ⟨o, mem_o, names, wr, fields⟩ := exists_destination_mem_fpOperands d a b fma
  have writable : d.toNat < 120 := names ▸ r.writable o mem_o wr
  have inWindow : ∀ k < 1, windowBad s.team (d.toNat + k) = false := fun k hk => by
    obtain rfl : k = 0 := by omega
    exact r.window o mem_o _ (by simp [fields])
  have legal' : (fmtVec (afterReads s (fpOperands d a b fma)) != 3) = true := by
    rw [afterReads_fmtVec, bne_iff_ne]
    omega
  have ended := shortGroup_ended h d a b 1 1 1 (fpOperands d a b fma) (fun s => fmtVec s != 3) (fun s _ => fpValue d a b fma f s) s hi r
    legal' writable (fun _ => ⟨src a, by simp [fpOperands], rfl, rfl⟩) (fun _ => ⟨src b, by simp [fpOperands], rfl, rfl⟩) inWindow
  simpa only [doFp_eq_shortGroup, writesOfN_one, fpValue_afterReads] using ended

/-! ### The order of exact values -/

@[simp] theorem Num.lt_irrefl (x : Num) : x.lt x = false := by
  cases x with
  | nan => rfl
  | inf n => exact Bool.and_not_self n
  | fin n m e => exact decide_eq_false (Int.lt_irrefl _)

theorem Num.lt_asymm {x y : Num} (h : x.lt y = true) : y.lt x = false := by
  match x, y with
  | .nan, _ => cases h
  | .inf _, .nan => cases h
  | .fin _ _ _, .nan => cases h
  | .inf a, .inf b =>
    obtain ⟨rfl, -⟩ := (Bool.and_eq_true _ _).mp h
    exact Bool.and_false b
  | .inf a, .fin _ _ _ => simpa [Num.lt] using h
  | .fin _ _ _, .inf b => simpa [Num.lt] using h
  | .fin a m e, .fin b n k =>
    simp only [Num.lt, decide_eq_true_eq, decide_eq_false_iff_not, min_comm k e] at h ⊢
    omega

/-- Zeros are equal, whatever their signs. -/
theorem Num.lt_of_isZero {x y : Num} (hx : x.isZero = true) (hy : y.isZero = true) : x.lt y = false := by
  match x, y with
  | .fin a 0 e, .fin b 0 k => simp [Num.lt, scaledTo]

/-- `x` is below `y` in the order of R134: a lesser value, or −0 where `y` is +0. -/
def Num.below (x y : Num) : Bool := x.lt y || (x.isZero && y.isZero && x.neg && !y.neg)

theorem Num.lt_of_not_below {x y : Num} (h : x.below y = false) : x.lt y = false := (Bool.or_eq_false_iff.1 h).1

/-- Nothing is less than a value below it. -/
theorem Num.not_lt_of_below {x y : Num} (h : x.below y = true) : y.lt x = false := by
  rcases Bool.or_eq_true_iff.1 h with less | zeros
  · exact Num.lt_asymm less
  · simp only [Bool.and_eq_true] at zeros
    obtain ⟨⟨⟨zx, zy⟩, -⟩, -⟩ := zeros
    exact Num.lt_of_isZero zy zx

/-- Of two zeros with different signs, the negative one is below the other. -/
theorem Num.below_of_zeros {x y : Num} (zx : x.isZero = true) (zy : y.isZero = true) (signs : x.neg ≠ y.neg) : x.below y = x.neg := by
  have opposite : y.neg = !x.neg := Bool.eq_not_of_ne signs.symm
  simp [Num.below, Num.lt_of_isZero zx zy, zx, zy, opposite]

/-! ### The bits that FMIN and FMAX write -/

theorem fMinBits_of_nan (f : Fmt) (gt : Bool) {a b : Nat} (h : (decodeFp f a).isNan = true ∨ (decodeFp f b).isNan = true) :
    fMinBits f gt a b = f.nanBits := if_pos h

/-- Without a NaN, FMIN takes A where A is below B, and FMAX B; else they take the other one. -/
theorem fMinBits_of_not_nan (f : Fmt) (gt : Bool) {a b : Nat} (ha : (decodeFp f a).isNan = false) (hb : (decodeFp f b).isNan = false) :
    fMinBits f gt a b = if (decodeFp f a).below (decodeFp f b) = gt then b else a := by
  have no_nan : ¬ ((decodeFp f a).isNan = true ∨ (decodeFp f b).isNan = true) := by simp [ha, hb]
  refine (if_neg no_nan).trans ?_
  change (if gt then (if (decodeFp f a).below (decodeFp f b) then b else a) else (if (decodeFp f a).below (decodeFp f b) then a else b)) = _
  cases gt <;> cases (decodeFp f a).below (decodeFp f b) <;> rfl

theorem fMinBits_eq_or (f : Fmt) (gt : Bool) {a b : Nat} (ha : (decodeFp f a).isNan = false) (hb : (decodeFp f b).isNan = false) :
    fMinBits f gt a b = a ∨ fMinBits f gt a b = b := by
  rw [fMinBits_of_not_nan f gt ha hb]
  split
  · exact .inr rfl
  · exact .inl rfl

/-- No operand is below what FMIN writes. -/
theorem not_lt_fMinBits_least (f : Fmt) {a b : Nat} (ha : (decodeFp f a).isNan = false) (hb : (decodeFp f b).isNan = false) :
    (decodeFp f a).lt (decodeFp f (fMinBits f false a b)) = false ∧ (decodeFp f b).lt (decodeFp f (fMinBits f false a b)) = false := by
  rw [fMinBits_of_not_nan f false ha hb]
  cases order : (decodeFp f a).below (decodeFp f b) with
  | false => exact ⟨Num.lt_of_not_below order, Num.lt_irrefl _⟩
  | true => exact ⟨Num.lt_irrefl _, Num.not_lt_of_below order⟩

/-- No operand is above what FMAX writes. -/
theorem fMinBits_greatest_not_lt (f : Fmt) {a b : Nat} (ha : (decodeFp f a).isNan = false) (hb : (decodeFp f b).isNan = false) :
    (decodeFp f (fMinBits f true a b)).lt (decodeFp f a) = false ∧ (decodeFp f (fMinBits f true a b)).lt (decodeFp f b) = false := by
  rw [fMinBits_of_not_nan f true ha hb]
  cases order : (decodeFp f a).below (decodeFp f b) with
  | false => exact ⟨Num.lt_irrefl _, Num.lt_of_not_below order⟩
  | true => exact ⟨Num.not_lt_of_below order, Num.lt_irrefl _⟩

/-- Of −0 and +0, FMIN writes the first and FMAX the second. -/
theorem fMinBits_neg_of_zeros (f : Fmt) (gt : Bool) {a b : Nat} (ha : (decodeFp f a).isNan = false) (hb : (decodeFp f b).isNan = false)
    (za : (decodeFp f a).isZero = true) (zb : (decodeFp f b).isZero = true) (signs : (decodeFp f a).neg ≠ (decodeFp f b).neg) :
    (decodeFp f (fMinBits f gt a b)).neg = !gt := by
  rw [fMinBits_of_not_nan f gt ha hb, Num.below_of_zeros za zb signs]
  split
  next neg_a => rw [← neg_a, Bool.eq_not_of_ne signs.symm]
  next neg_a => exact Bool.eq_not_of_ne neg_a

end Sys2Proof.Machine

section

open Sys2Proof Sys2Proof.Machine

/-- Settles O57: the two instructions end as vector FP instructions do, and the element that they choose is the lesser or the greater of the
two in the order of exact values with −0 below +0. -/
theorem minAndMaxChooseAnOperand : Obligations.MinAndMaxChooseAnOperand := by
  unfold Obligations.MinAndMaxChooseAnOperand
  refine ⟨fun p hp h d a b s hi r legal => ?_, fun f _ gt a b _ _ => ⟨fMinBits_of_nan f gt, fun ha hb => ⟨?_, ?_, ?_, ?_⟩⟩⟩
  · simp only [List.mem_cons, List.not_mem_nil, or_false] at hp
    rcases hp with rfl | rfl
    · exact ⟨_, exec_fmin h d a b s, doFp_ended h d a b false feMin s hi r legal⟩
    · exact ⟨_, exec_fmax h d a b s, doFp_ended h d a b false feMax s hi r legal⟩
  · exact fMinBits_eq_or f gt ha hb
  · rintro rfl
    exact not_lt_fMinBits_least f ha hb
  · rintro rfl
    exact fMinBits_greatest_not_lt f ha hb
  · exact fMinBits_neg_of_zeros f gt ha hb

end
end

section
/-!
PROOFS. O59, the start of a team (R153). The registers and their dead flags are tables without entries and records filled with one value;
the live lanes are those below LANES; the other fields are those that the seat of a team is given.
-/

namespace Sys2Proof.Machine

/-- A table filled with its own default reads it everywhere, beyond its end too. -/
@[simp] theorem vget_replicate {α : Type} (n : Nat) (d : α) (k : Nat) : vget d (Vector.replicate n d) k = d := by
  unfold vget
  rw [Vector.getElem?_replicate]
  split <;> rfl

/-- The mask of the first lanes, where it has as many bits: 1,024 (R154). -/
theorem getLsbD_maskBelow {n : Nat} (h : n ≤ 1024) (i : Nat) : (maskBelow n).getLsbD i = decide (i < n) := by
  have fits : i < n → i < 1024 := fun below => below.trans_le h
  rw [maskBelow, BitVec.getLsbD_ofNat, Nat.testBit_two_pow_sub_one, ← Bool.decide_and, decide_eq_decide]
  exact and_iff_right_of_imp fits

section NewTeam

variable (l : LaunchRec) (blk role lanes nregs : Nat) (fmt : Word) (entry : VAddr)

/-- Every register of a new team is 0: no vector register is listed, and the scalars and shadow registers are filled with 0. -/
@[simp] theorem teamBits_newTeam (c k : Nat) : teamBits (newTeam l blk role lanes nregs fmt entry) c k = 0 := by
  unfold teamBits
  split_ifs
  · exact mget_nil ..
  · exact vget_replicate ..
  · exact vget_replicate ..
  · rfl

/-- No register of a new team is dead: no vector register is listed, and no flag of a scalar or shadow register is set. -/
@[simp] theorem regDead_newTeam (c k : Nat) : regDead (newTeam l blk role lanes nregs fmt entry) c k = false := by
  unfold regDead
  split_ifs
  · exact mget_nil ..
  · exact BitVec.getLsbD_zero
  · exact BitVec.getLsbD_zero
  · rfl

/-- The translation registers of a new team hold base 0 and no translation (R124). -/
@[simp] theorem vget_x_newTeam (k : Nat) : vget {} (newTeam l blk role lanes nregs fmt entry).x k = {} := vget_replicate ..

@[simp] theorem newTeam_live : (newTeam l blk role lanes nregs fmt entry).live = maskBelow lanes := rfl

@[simp] theorem newTeam_active : (newTeam l blk role lanes nregs fmt entry).active = maskBelow lanes := rfl

end NewTeam

end Sys2Proof.Machine

section

open Sys2Proof Sys2Proof.Machine

/-- Settles O59: the registers by the laws of a new team's tables, the lanes by the bits of a mask of the first lanes, and the other fields
as `newTeam` gives them. -/
theorem teamsStartCleared : Obligations.TeamsStartCleared := by
  unfold Obligations.TeamsStartCleared
  intro l blk role lanes nregs fmt entry s hl t q
  have registers : ∀ c k, regNamed c → regBits q c k = 0 ∧ regDead t c k = false := fun c k named =>
    ⟨(regBits_eq q c k named).trans (teamBits_newTeam ..), regDead_newTeam ..⟩
  have masks : ∀ i, (t.live.getLsbD i = true ↔ i < lanes) ∧ t.active = t.live := fun i => by
    simp [t, getLsbD_maskBelow hl]
  exact ⟨registers, rfl, rfl, rfl, fun k _ => vget_x_newTeam .., rfl, rfl, rfl, rfl, rfl, rfl, rfl, rfl, masks⟩

end
end
